-- ==== Sys2Proof/Word.lean ====
section
/-! DEFINITION. The plain data the whole model is written in: bytes, indices, and tables of a fixed
number of rows.

Bit vectors stand only where the manual treats a value as bits (register contents, tags, masks,
the LFSR, bytes on a line). Counts, seconds, seats and identifiers are natural numbers; their
ranges are kept by the operations and listed in INVENTORY.md. -/

namespace Sys2Proof

/-- One byte of a frame, an entry, a record or a clip. -/
abbrev Byte := BitVec 8

/-- A show slot, 0..63. -/
abbrev ShowIx := Fin 64
/-- A hold slot, 0..191. -/
abbrev HoldIx := Fin 192
/-- A notice slot, 0..95. -/
abbrev NoticeIx := Fin 96
/-- A feature slot, 0..31. -/
abbrev FeatureIx := Fin 32
/-- A display and its panel link, 0..15. -/
abbrev DisplayIx := Fin 16
/-- A desk port. Desk number n of the manual (1..8) is index n − 1. -/
abbrev DeskIx := Fin 8
/-- A slot of the read engine, 0..31. -/
abbrev ReadSlot := Fin 32

/-- A table of `n` rows with row `i` replaced. -/
def put {α : Type} {n : Nat} (v : Vector α n) (i : Fin n) (x : α) : Vector α n :=
  v.set i.val x i.isLt

/-- A table with every row rewritten from its index and its present value. -/
def mapAll {α β : Type} {n : Nat} (f : Fin n → α → β) (v : Vector α n) : Vector β n :=
  Vector.ofFn fun i => f i v[i]

@[simp] theorem put_same {α : Type} {n : Nat} (v : Vector α n) (i : Fin n) (x : α) :
    (put v i x)[i] = x := by
  simp [put]

@[simp] theorem put_same_val {α : Type} {n : Nat} (v : Vector α n) (i : Fin n) (x : α) :
    (put v i x)[i.val] = x := by
  simp [put]

theorem put_other {α : Type} {n : Nat} (v : Vector α n) (i j : Fin n) (x : α) (h : j ≠ i) :
    (put v i x)[j] = v[j] := by
  have : ¬ i.val = j.val := fun e => h (Fin.ext e.symm)
  simp [put, this]

theorem put_get {α : Type} {n : Nat} (v : Vector α n) (i j : Fin n) (x : α) :
    (put v i x)[j] = if j = i then x else v[j] := by
  by_cases h : j = i
  · subst h; simp
  · simp [h, put_other v i j x h]

@[simp] theorem mapAll_get {α β : Type} {n : Nat} (f : Fin n → α → β) (v : Vector α n) (i : Fin n) :
    (mapAll f v)[i] = f i v[i] := by
  simp [mapAll]

/-- Writing one row twice leaves the second value. -/
theorem put_put_same {α : Type} {n : Nat} (v : Vector α n) (i : Fin n) (x y : α) :
    put (put v i x) i y = put v i y := by
  simp [put]

end Sys2Proof
end

