-- ==== Sys2Proof/Syntax.lean ====
section
/-! DEFINITION. The commands of the S412: one constructor for each of the 102 rows of
spec/opcode_table.json, in the table's order.

An operand rides on a command only where its value comes from OUTSIDE the part (the word of a
register write, the bytes a read of host memory returns, a byte on a desk line, the pins found at
power-on) or where the outside decides WHICH of several like events is next (which display's
timer, which read slot). Everything else an event works on already stands in `State`: the journal
entry in flight, the desk request in hand, the messages the blocks have sent one another
(log entry 1). -/

namespace Sys2Proof

/-- The owners that a CONFIGURE hands a settings event to (R170). -/
inductive Owner where
  | showTable | noticeArbiter | airtimeScheduler | displayController | streamEngine
  | deskLine | faultUnit
  deriving DecidableEq, Repr

/-- The blocks that raise faults with the Fault Unit (the last column of R173's table). -/
inductive Raiser where
  | windowInterface | showTable | deskLine | noticeArbiter | airtimeScheduler
  | displayController | streamEngine
  deriving DecidableEq, Repr

/-- The two senders of release reports (R125). -/
inductive ReleaseSender where
  | streamEngine | displayController
  deriving DecidableEq, Repr

/-- The control reads that can stand in a retry wait (R165). `entry` is the read of the entry in
flight, of its 64 bytes or of its notice text. -/
inductive ControlRead where
  | anchor | publishMark | entry
  deriving DecidableEq, Repr

/-- One command of the part: one row of spec/opcode_table.json. -/
inductive Instr where
  /-- POWER_ON_RESET (R129). `links` are the levels found at the sixteen link-detect inputs. -/
  | powerOnReset (links : BitVec 16)
  /-- LOBBY_RESET (R172): a write of CONTROL with LOBBY_RESET 1; `w` is the word written. -/
  | lobbyReset (w : BitVec 32)
  /-- START (R162): a write of CONTROL with RUN 1. -/
  | start (w : BitVec 32)
  /-- STOP (R161): a write of CONTROL with RUN 0. -/
  | stop (w : BitVec 32)
  /-- RECOVERY (R165): a write of CONTROL with RUN 1 while STALLED. -/
  | recovery (w : BitVec 32)
  /-- ALERT_A_EN (R168): a write of CONTROL for its bit 2. -/
  | alertAEn (w : BitVec 32)
  /-- ALERT_B_EN (R168): a write of CONTROL for its bit 3. -/
  | alertBEn (w : BitVec 32)
  /-- STATUS_WRITE (R168). -/
  | statusWrite (w : BitVec 32)
  /-- ATTENTION (R163, R165): a write of ATTENTION, any value. -/
  | attention (w : BitVec 32)
  /-- WINDOW_LOW (R160). -/
  | windowLow (w : BitVec 32)
  /-- WINDOW_HIGH (R160). -/
  | windowHigh (w : BitVec 32)
  /-- REGISTER_WRITE_OTHER (R160): a write at an offset that is none of the five writable registers. -/
  | registerWriteOther (offset : BitVec 12) (w : BitVec 32)
  /-- ANCHOR_READ_DONE (R162): the anchor read in `slot` completes with its 256 bytes. -/
  | anchorReadDone (slot : ReadSlot) (bytes : List Byte)
  /-- POLL_TIMER_EXPIRY (R163). -/
  | pollTimerExpiry
  /-- PUBLISH_MARK_READ_DONE (R163): the publish mark read in `slot` completes with its 4 bytes. -/
  | publishMarkReadDone (slot : ReadSlot) (bytes : List Byte)
  /-- ENTRY_READ_DONE (R164): the entry read in `slot` completes with its 64 bytes. -/
  | entryReadDone (slot : ReadSlot) (bytes : List Byte)
  /-- TEXT_READ_DONE (R80): the notice text read in `slot` completes with its 1..120 bytes. -/
  | textReadDone (slot : ReadSlot) (bytes : List Byte)
  /-- CONTROL_READ_FAILED (R165): the control read in `slot` completes with failure. -/
  | controlReadFailed (slot : ReadSlot)
  /-- CONTROL_READ_RETRY_EXPIRY (R165). -/
  | controlReadRetryExpiry (which : ControlRead)
  /-- WINDOW_WRITE_SENT (R166): the write at the head of the write queue is sent. -/
  | windowWriteSent
  /-- WINDOW_WRITE_FAILED (R166): the write at the head of the write queue fails. -/
  | windowWriteFailed
  /-- CONFIGURE (R169). -/
  | configure
  /-- SETTINGS_EVENT (R170): `owner` takes its oldest settings event. -/
  | settingsEvent (owner : Owner)
  /-- MARK (R171). -/
  | mark
  /-- CLOCK_SET (R5). -/
  | clockSet
  /-- TICK (R2). -/
  | tick
  /-- SCHEDULE_REQUEST (R3). -/
  | scheduleRequest
  /-- WITHDRAW_REQUEST (R3). -/
  | withdrawRequest
  /-- CATCH_UP (R6). -/
  | catchUp
  /-- SHOW_LOAD (R8). -/
  | showLoad
  /-- SHOW_AMEND (R15). -/
  | showAmend
  /-- SHOW_HALT (R11). -/
  | showHalt
  /-- SHOW_RESUME (R12). -/
  | showResume
  /-- SHOW_CANCEL (R13). -/
  | showCancel
  /-- SHOW_DROP (R14). -/
  | showDrop
  /-- SALE (R29). -/
  | sale
  /-- REFUND (R31). -/
  | refund
  /-- BLOCK (R32). -/
  | block
  /-- HOLD (R44). -/
  | hold
  /-- EXTEND (R46). -/
  | extend
  /-- RELEASE (R48). -/
  | release
  /-- ASK (R71). -/
  | ask
  /-- HOLD_EXPIRY (R49): the hold at the head of the Hold List runs out. -/
  | holdExpiry
  /-- DESK_BYTE (R60): byte `b` arrives on the line of `desk`. -/
  | deskByte (desk : DeskIx) (b : Byte)
  /-- LINE_IDLE (R60): no byte has begun on the line of `desk` for 2 ms. -/
  | lineIdle (desk : DeskIx)
  /-- INTAKE_HAND (R65). -/
  | intakeHand
  /-- PAUSE_REFRESH_EXPIRY (R67). -/
  | pauseRefreshExpiry
  /-- DESK_TX_DONE (R69): the last byte of the frame in transmission to `desk` has been sent. -/
  | deskTxDone (desk : DeskIx)
  /-- DESK_PORT (R72). -/
  | deskPort
  /-- NOTICE_POST (R80). -/
  | noticePost
  /-- DESK_NOTICE_POST (R81). -/
  | deskNoticePost
  /-- AUTO_NOTICE_REQUEST (R83). -/
  | autoNoticeRequest
  /-- NOTICE_CLEAR (R85). -/
  | noticeClear
  /-- DESK_NOTICE_CLEAR (R86). -/
  | deskNoticeClear
  /-- CLEAR_REQUEST (R87). -/
  | clearRequest
  /-- CLOSURE_REPORT (R89). -/
  | closureReport
  /-- NOTICE_EXPIRY (R88): the first notice to have run out ends. -/
  | noticeExpiry
  /-- ENABLED_REPORT (R102). -/
  | enabledReport
  /-- LINK_UP_REPORT (R105). -/
  | linkUpReport
  /-- LINK_LOST_REPORT (R106). -/
  | linkLostReport
  /-- DRAINING_REPORT (R107). -/
  | drainingReport
  /-- OFF_REPORT (R107). -/
  | offReport
  /-- FLOOR_REPORT (R100). -/
  | floorReport
  /-- COVER_TIMER_EXPIRY (R97) of display `d`. -/
  | coverTimerExpiry (d : DisplayIx)
  /-- FEATURE_LOAD (R111). -/
  | featureLoad
  /-- FEATURE_WEIGHT (R117). -/
  | featureWeight
  /-- FEATURE_DROP (R118). -/
  | featureDrop
  /-- AIRTIME_RESET (R119). -/
  | airtimeReset
  /-- HEADER_READ_DONE (R113): the clip header read in `slot` completes with its 32 bytes. -/
  | headerReadDone (slot : ReadSlot) (bytes : List Byte)
  /-- CHUNK_LIST_PIECE_DONE (R114): the chunk list read in `slot` completes with its bytes. -/
  | chunkListPieceDone (slot : ReadSlot) (bytes : List Byte)
  /-- VALIDATION_READ_FAILED (R115): the validation read in `slot` completes with failure. -/
  | validationReadFailed (slot : ReadSlot)
  /-- VALIDATION_RETRY_EXPIRY (R115) of feature `f`. -/
  | validationRetryExpiry (f : FeatureIx)
  /-- DECISION (R122): the oldest decision request of display `d` is taken. -/
  | decision (d : DisplayIx)
  /-- RELEASE_REPORT (R125): the oldest release report of `sender` is taken. -/
  | releaseReport (sender : ReleaseSender)
  /-- DISPLAY_SETUP (R130). -/
  | displaySetup
  /-- DISPLAY_ENABLE (R132). -/
  | displayEnable
  /-- DISPLAY_DISABLE (R134). -/
  | displayDisable
  /-- LINK_UP (R133, R158) of display `d`. -/
  | linkUp (d : DisplayIx)
  /-- LINK_DOWN (R133, R158) of display `d`. -/
  | linkDown (d : DisplayIx)
  /-- DWELL_EXPIRY (R136) of display `d`. -/
  | dwellExpiry (d : DisplayIx)
  /-- DECISION_REPLY (R137): the oldest decision reply for display `d` is taken. -/
  | decisionReply (d : DisplayIx)
  /-- END_REPORT (R138). -/
  | endReport
  /-- SHOW_CHANGED_REPORT (R140). -/
  | showChangedReport
  /-- TAKEOVER_BEGIN (R141). -/
  | takeoverBegin
  /-- TAKEOVER_END (R142). -/
  | takeoverEnd
  /-- STRIP_REPORT (R143). -/
  | stripReport
  /-- START_REQUEST (R148). -/
  | startRequest
  /-- HOLD_REQUEST (R155). -/
  | holdRequest
  /-- RESUME_REQUEST (R155). -/
  | resumeRequest
  /-- END_REQUEST (R155). -/
  | endRequest
  /-- DRAIN_REQUEST (R155). -/
  | drainRequest
  /-- ABANDON_REQUEST (R156). -/
  | abandonRequest
  /-- FETCH_GRANT (R150). -/
  | fetchGrant
  /-- BURST_DONE (R151): the burst in `slot` completes with its bytes. -/
  | burstDone (slot : ReadSlot) (bytes : List Byte)
  /-- BURST_FAILED (R152): the burst in `slot` completes with failure. -/
  | burstFailed (slot : ReadSlot)
  /-- BURST_RETRY_EXPIRY (R152) of display `d`. -/
  | burstRetryExpiry (d : DisplayIx)
  /-- PACING_MILLISECOND (R147, R153): one millisecond of the part's time base. -/
  | pacingMillisecond
  /-- SEND (R153): a send that is due at display `d`. -/
  | send (d : DisplayIx)
  /-- UNDERRUN_LIMIT (R154) of display `d`. -/
  | underrunLimit (d : DisplayIx)
  /-- PANEL_TX_DONE (R157): the transmitter of display `d` finishes its frame. -/
  | panelTxDone (d : DisplayIx)
  /-- FAULT_RAISE (R174): the Fault Unit takes the oldest raise of `block`. -/
  | faultRaise (block : Raiser)
  /-- FAULT_CLEAR (R177). -/
  | faultClear
  deriving DecidableEq, Repr

end Sys2Proof
end

