-- ==== Sys2Proof/WellFormed.lean ====
section
/-! DEFINITION. Which terms of `Instr` are commands of the part.

A CONTROL write counts as the row whose bits it writes (R160, the register table of Record and
Frame Formats), and a read that completes with success has returned its whole length (R146, R159,
R113, R114, R150). -/

namespace Sys2Proof

/-- Bit RUN of a word written to CONTROL. -/
def controlRun (w : BitVec 32) : Bool := w.getLsbD 0
/-- Bit LOBBY_RESET of a word written to CONTROL. -/
def controlLobbyReset (w : BitVec 32) : Bool := w.getLsbD 1
/-- Bit ALERT_A_EN of a word written to CONTROL. -/
def controlAlertA (w : BitVec 32) : Bool := w.getLsbD 2
/-- Bit ALERT_B_EN of a word written to CONTROL. -/
def controlAlertB (w : BitVec 32) : Bool := w.getLsbD 3

/-- The offsets of the registers whose writes have a row of their own: CONTROL, STATUS, ATTENTION,
WINDOW_LOW, WINDOW_HIGH. -/
def writableOffsets : List (BitVec 12) := [0x04#12, 0x08#12, 0x0C#12, 0x10#12, 0x14#12]

/-- The commands the part can be given. -/
def Instr.wellFormed : Instr → Bool
  | .lobbyReset w => controlLobbyReset w
  | .start w => controlRun w && !controlLobbyReset w
  | .stop w => !controlRun w && !controlLobbyReset w
  | .recovery w => controlRun w && !controlLobbyReset w
  | .alertAEn w => !controlLobbyReset w
  | .alertBEn w => !controlLobbyReset w
  | .registerWriteOther offset _ => !writableOffsets.contains offset
  | .anchorReadDone _ bytes => bytes.length == 256
  | .publishMarkReadDone _ bytes => bytes.length == 4
  | .entryReadDone _ bytes => bytes.length == 64
  | .textReadDone _ bytes => 1 ≤ bytes.length && bytes.length ≤ 120
  | .headerReadDone _ bytes => bytes.length == 32
  | .chunkListPieceDone _ bytes =>
      1 ≤ bytes.length && bytes.length ≤ 1024 && bytes.length % 16 == 0
  | .burstDone _ bytes => 1 ≤ bytes.length && bytes.length ≤ 8192
  | _ => true

end Sys2Proof
end

