-- ==== Sys2Proof/Decode.lean ====
section
/-! DEFINITION. The command a word spells by the bits of spec/opcode_table.json.

No row of this hardware's table gives any bits (every row's "fields" is empty and none has "fixed"),
so no word spells a command. The layouts the manual does give (journal entries, desk frames,
register words) are data that commands carry or that State holds; they are decoded in
Machine/Operands.lean. -/

namespace Sys2Proof

/-- The command that the word `w` of `nbits` bits spells by the table: none, as no row has bits. -/
def decodeTableWord (_nbits _w : Nat) : Option Instr := none

end Sys2Proof
end

