-- ==== Sys2Proof/Config.lean ====
section
/-! DEFINITION. What is fixed for the part: capacities, the settings with their power-on values, and
the free values, of which nothing in Lean knows more than their type. -/

namespace Sys2Proof

/-! ## Free values -/

/-- FREE VALUE (log entry 2): the outcome detail of a refused journal entry for which the manual
states no detail. Argument: the number of open values used before (`State.freeCount`). -/
opaque Config.freeDetail : Nat → BitVec 16

/-- FREE VALUE (log entry 3): the priority byte of the NOTICE_TAKEN that answers a desk's
NOTICE_CLEAR (R86), for which the manual states no value. Same argument. -/
opaque Config.freePriority : Nat → BitVec 8

/-- FREE VALUE (log entry 77): what a read at an offset that is none of the six registers gives (R160), for
which the manual states no value. Argument: the offset. -/
opaque Config.freeRegister : BitVec 12 → BitVec 32

/-! ## Limits -/

/-- Largest value of a 32-bit count (R2, R45, R82). -/
def max32 : Nat := 4294967295
/-- Largest value of a 16-bit saturating count. -/
def max16 : Nat := 65535
/-- Live holds one desk may have (R41). -/
def deskHoldLimit : Nat := 32
/-- Capacity of the intake queue (R64). -/
def intakeCapacity : Nat := 32
/-- Capacity of a desk's reply queue (R69). -/
def replyCapacity : Nat := 4
/-- Depth of an on-air stack (R95). -/
def stackCapacity : Nat := 4
/-- Text characters a notice keeps (R80, R81). -/
def maxText : Nat := 120
/-- Bytes of a stream buffer (R149). -/
def bufferBytes : Nat := 131072
/-- Largest burst (R150). -/
def maxBurst : Nat := 8192
/-- Largest chunk that is streamed (R114). -/
def maxChunk : Nat := 65536
/-- Clip bytes a CLIP_DATA frame carries at most (R153). -/
def maxClipData : Nat := 1024
/-- Frames a panel link's control queue holds (R157). -/
def controlCapacity : Nat := 64
/-- Bytes of the mirror area (R162, R167). -/
def mirrorBytes : Nat := 22112
/-- The value IDENT reads (register table, Record and Frame Formats). -/
def identValue : BitVec 32 := 0x0154124A#32
/-- The seed that stands in for 0 (R147). -/
def defaultSeed : Nat := 0xACE1

/-! ## Saturating and wrapping counts -/

/-- A 16-bit count that stays at its top. -/
def sat16 (n : Nat) : Nat := min n max16
/-- A 32-bit count that stays at its top. -/
def sat32 (n : Nat) : Nat := min n max32
/-- A 32-bit count that wraps. -/
def wrap32 (n : Nat) : Nat := n % 4294967296
/-- The difference of two 32-bit counts, modulo 2^32 (R162, R163). -/
def diff32 (a b : Nat) : Nat := (a + 4294967296 - b % 4294967296) % 4294967296

/-! ## Settings -/

/-- One band set (Seat Tally and Bands), with the power-on values of its table. -/
structure BandSet where
  fillingOn : Nat := 500
  fillingOff : Nat := 450
  fewOn : Nat := 800
  fewOff : Nat := 750
  lastOn : Nat := 10
  lastOff : Nat := 15
  fullOff : Nat := 2
  exactLimit : Nat := 20
  step : Nat := 10
  deriving DecidableEq, Repr

/-- The settings of the Show Table (R24, R58, the auto-notice priorities of R18). -/
structure ShowSettings where
  holdExpiry : Nat := 300
  holdMaxSeats : Nat := 20
  priorityDelayed : Nat := 40
  prioritySoldOut : Nat := 24
  priorityDoorsOpen : Nat := 20
  priorityCancelled : Nat := 44
  bandSets : Vector BandSet 4 := Vector.replicate 4 {}
  deriving DecidableEq, Repr

/-- The settings of the Notice Arbiter (R81, R92). -/
structure NoticeSettings where
  deskPriorityCap : Nat := 47
  minCover : Nat := 2
  takeoverClass : Nat := 14
  deriving DecidableEq, Repr

/-- The retry settings shared by the Window Interface, the Airtime Scheduler and the Stream Engine. -/
structure RetrySettings where
  backoffCap : Nat := 6
  retryLimit : Nat := 8
  deriving DecidableEq, Repr

/-- The settings of the Airtime Scheduler (Features and the Airtime Computation). -/
structure AirtimeSettings where
  nearWindow : Nat := 2700
  retry : RetrySettings := {}
  deriving DecidableEq, Repr

/-- The settings of the Stream Engine (Clip Streaming and the Panel Links). -/
structure StreamSettings where
  underrunLimit : Nat := 2
  lfsrSeed : Nat := 0xACE1
  retry : RetrySettings := {}
  deriving DecidableEq, Repr

/-- The flow-control settings of the Desk Line Controller. -/
structure DeskSettings where
  pauseOn : Nat := 24
  pauseOff : Nat := 8
  pauseTime : Nat := 50
  deriving DecidableEq, Repr

/-- Where a cause bit of STATUS is steered (R168). -/
inductive Steer where
  | none | lineA | lineB
  deriving DecidableEq, Repr

/-- The settings the Window Interface itself takes (R170). -/
structure WindowSettings where
  pollInterval : Nat := 20
  steerSevere : Steer := .lineA
  steerMinor : Steer := .lineB
  steerMirror : Steer := .none
  steerDrained : Steer := .none
  deriving DecidableEq, Repr

/-- The two severities of a fault (R173). -/
inductive Severity where
  | severe | minor
  deriving DecidableEq, Repr

/-- The settings of one fault cause (R173). -/
structure CauseSettings where
  severity : Severity
  detectMask : Bool
  signalMask : Bool
  deriving DecidableEq, Repr

/-- The power-on settings of the thirteen causes, by code (R173). -/
def causeDefaults : Vector CauseSettings 13 :=
  #v[⟨.severe, false, false⟩, ⟨.severe, false, false⟩, ⟨.minor, false, false⟩,
     ⟨.severe, false, false⟩, ⟨.severe, false, false⟩, ⟨.minor, false, false⟩,
     ⟨.minor, false, false⟩, ⟨.minor, false, false⟩, ⟨.minor, false, false⟩,
     ⟨.minor, false, false⟩, ⟨.minor, false, false⟩, ⟨.minor, false, false⟩,
     ⟨.minor, true, false⟩]

/-- Every setting a CONFIGURE carries, as the Window Interface last wrote it (R170). -/
structure Settings where
  shows : ShowSettings := {}
  notices : NoticeSettings := {}
  nearWindow : Nat := 2700
  resumeLimit : Nat := 60
  underrunLimit : Nat := 2
  lfsrSeed : Nat := 0xACE1
  retry : RetrySettings := {}
  desks : DeskSettings := {}
  window : WindowSettings := {}
  causes : Vector CauseSettings 13 := causeDefaults
  deriving DecidableEq, Repr

/-- The part of the settings the Airtime Scheduler takes at its settings event (R170). -/
def Settings.airtime (c : Settings) : AirtimeSettings := ⟨c.nearWindow, c.retry⟩
/-- The part of the settings the Stream Engine takes at its settings event (R170). -/
def Settings.stream (c : Settings) : StreamSettings := ⟨c.underrunLimit, c.lfsrSeed, c.retry⟩

end Sys2Proof
end

