-- ==== Sys2Proof/Machine/State.lean ====
section
/-! DEFINITION. Everything the manual gives the S412 to remember, as plain data, and the state after
power-on reset. INVENTORY.md lists every field with its width, its rule and its reset value.

The nine blocks of the manual (Block overview) are nine fields of `State`; `reads` is the one read
engine (R146), `bus` holds the messages one block has sent and another has not yet taken, and
`hostMem` the bytes the part's sent writes have put into host memory. Times of timers are kept as
the milliseconds still to run (log entry 4). -/

namespace Sys2Proof.Machine

/-! ## Faults and refusals of the model -/

/-- Why a step stops with a fault. The manual gives no event that stops the part, so there is no
constructor: no meaning raises a fault. The part's own faults (R173) are records of `FaultUnit`. -/
inductive Fault where
  deriving DecidableEq, Repr

/-- Why a command is refused. -/
inductive Refusal where
  /-- Raised by `exec` for a row that has no meaning yet (none). Safe: the model stops. -/
  | notModelled (mnemonic : String)
  /-- Raised by a meaning when its command is not well-formed (`Instr.wellFormed`): the term is no
  event the part can meet, as a CONTROL write without the row's bit or a completed read of the
  wrong length (R146). Safe: the model stops where the part has no step. -/
  | illFormed
  deriving DecidableEq, Repr

/-! ## The Lobby Clock and the Show Table -/

/-- Show states, in the order of their codes. -/
inductive ShowState where
  | empty | waiting | selling | seating | running | halted | closed | cancelled
  deriving DecidableEq, Repr

/-- Seat bands, in the order of their codes; `openHouse` is OPEN. -/
inductive Band where
  | openHouse | filling | few | last | full
  deriving DecidableEq, Repr

/-- Addressing kinds of a target (Notices and Their Addressing). -/
inductive TargetKind where
  | physical | flat | cluster
  deriving DecidableEq, Repr

/-- A target: a kind and an 8-bit value. -/
structure Target where
  kind : TargetKind := .physical
  value : Byte := 0
  deriving DecidableEq, Repr

/-- The five flags of a show (field 11). -/
structure ShowFlags where
  listed : Bool := false
  autoDelay : Bool := false
  autoSoldout : Bool := false
  autoDoors : Bool := false
  autoCancel : Bool := false
  deriving DecidableEq, Repr

/-- One show record: the schedule half of Shows and the Lobby Clock and the tally half of Seat Tally
and Bands. The default values are those of an EMPTY slot (R1, R21). -/
structure ShowRec where
  state : ShowState := .empty
  savedState : Option ShowState := none
  clockWait : Bool := false
  showCode : Nat := 0
  auditorium : Nat := 0
  titleCode : Nat := 0
  feature : Option FeatureIx := none
  start : Nat := 0
  saleOpen : Option Nat := none
  seatingLead : Nat := 0
  lateWindow : Nat := 0
  capacity : Nat := 0
  bandSet : Fin 4 := 0
  flags : ShowFlags := {}
  target : Target := {}
  sold : Nat := 0
  held : Nat := 0
  blocked : Nat := 0
  avail : Nat := 0
  fill : Nat := 0
  band : Band := .openHouse
  seatsShown : Nat := 0
  plusMarker : Bool := false
  oversold : Bool := false
  soldoutAsked : Bool := false
  deriving DecidableEq, Repr

/-- The hold a slot in use holds (Seat Holds). -/
structure HoldRec where
  desk : DeskIx
  showIx : ShowIx
  seats : Nat
  expiry : Nat
  extensionsUsed : Nat
  placedSeq : Nat
  deriving DecidableEq, Repr

/-- A hold slot: its generation and, while in use, its hold (R40). -/
structure HoldSlot where
  gen : Nat := 0
  hold : Option HoldRec := none
  deriving DecidableEq, Repr

/-- An entry of the due list, and a transition of a catch-up (R3, R6). -/
structure DueEntry where
  showIx : ShowIx
  fromState : ShowState
  due : Nat
  deriving DecidableEq, Repr

/-- The Lobby Clock: two counts of seconds and the due list (R2, R3). `lobby` is `none` while lobby
seconds are UNSET. -/
structure LobbyClock where
  partSeconds : Nat := 0
  lobby : Option Nat := none
  dueList : List DueEntry := []
  deriving DecidableEq, Repr

/-- The Show Table: show records, hold slots, the Hold List (head first), the placement counter and
the settings it has last taken. -/
structure ShowTable where
  recs : Vector ShowRec 64 := Vector.replicate 64 {}
  holds : Vector HoldSlot 192 := Vector.replicate 192 {}
  holdList : List HoldIx := []
  placementCounter : Nat := 0
  cfg : ShowSettings := {}
  deriving DecidableEq, Repr

/-! ## Notices -/

/-- Card kinds, in the order of their card kind codes (Shows and the Lobby Clock). -/
inductive CardKind where
  | delayed | soldOut | doorsOpen | cancelled
  deriving DecidableEq, Repr

/-- Content of a notice. -/
inductive Content where
  | text (chars : List Byte)
  | card (kind : CardKind) (showIx : ShowIx)
  deriving DecidableEq, Repr

/-- Origins: 0 the box office, 1..8 the desks, 9 the schedule. -/
inductive Origin where
  | boxOffice
  | desk (d : DeskIx)
  | schedule
  deriving DecidableEq, Repr

/-- Notice modes. -/
inductive NoticeMode where
  | all | anyOne
  deriving DecidableEq, Repr

/-- A post that has passed its field checks, whatever its way in (R80, R81, R83). -/
structure Post where
  origin : Origin
  topic : Nat
  priority : Nat
  mode : NoticeMode
  target : Target
  bound : Option ShowIx
  content : Content
  truncated : Bool
  duration : Nat
  deriving DecidableEq, Repr

/-- A notice. The state UNPLACED is an ANY_ONE notice with `placed = none` (R103, R104). -/
structure Notice where
  origin : Origin
  topic : Nat
  priority : Nat
  mode : NoticeMode
  target : Target
  bound : Option ShowIx
  content : Content
  truncated : Bool
  duration : Nat
  expiry : Option Nat
  postSeq : Nat
  placed : Option DisplayIx
  aired : Nat
  deriving DecidableEq, Repr

/-- A notice slot: its generation and, while in use, its notice (R76). -/
structure NoticeSlot where
  gen : Nat := 0
  notice : Option Notice := none
  deriving DecidableEq, Repr

/-- Display states, in the order of their codes. -/
inductive DisplayState where
  | off | starting | on | linkLost | draining
  deriving DecidableEq, Repr

/-- The arbitration record of a display (R92). `stack` is written TOP FIRST (the manual writes it
bottom first). `coverDue` is the model's: a tick has found the cover timer run out and its expiry
(R97) has not yet been taken. `tag` is the model's too: the display's tag as the latest enabled report
gave it, the one that the Notice Arbiter matches (R131; log entry 45). -/
structure ArbRec where
  noticeState : DisplayState := .off
  floor : Nat := 0
  pending : List NoticeIx := []
  stack : List NoticeIx := []
  coverStart : Option Nat := none
  takeover : Bool := false
  coverDue : Bool := false
  tag : Byte := 0
  deriving DecidableEq, Repr

/-- The Notice Arbiter. `order` lists the slots in use by creation, oldest first: the post_seq order
of R77, which a wrap of the counter does not disturb. -/
structure Arbiter where
  slots : Vector NoticeSlot 96 := Vector.replicate 96 {}
  order : List NoticeIx := []
  postCounter : Nat := 0
  recs : Vector ArbRec 16 := Vector.replicate 16 {}
  cfg : NoticeSettings := {}
  deriving DecidableEq, Repr

/-! ## The Desk Line Controller -/

/-- States of a desk port. -/
inductive PortState where
  | disabled | enabled | draining
  deriving DecidableEq, Repr

/-- Receive phases of a desk port. -/
inductive RxPhase where
  | hunt | inFrame | discard
  deriving DecidableEq, Repr

/-- Why a request was refused, in the order of the codes 1..14 of Record and Frame Formats. -/
inductive Reason where
  | noShow | notSelling | badSize | deskLimit | tableFull | noSeats | notLive | notOwner | limit
  | unknownHold | badField | unknownNotice | unknownKind | badLength
  deriving DecidableEq, Repr

/-- Reasons of HOLD_ENDED. -/
inductive HoldEnd where
  | expired | showClosed | showDropped
  deriving DecidableEq, Repr

/-- Reasons a notice ends with (R79). -/
inductive NoticeEnd where
  | expired | cleared | showClosed | showDropped
  deriving DecidableEq, Repr

/-- A message from the part to a desk. -/
inductive DeskMsg where
  | holdOk (ref : Nat) (showIx : Nat) (code : Nat) (seats : Nat) (secondsLeft : Nat)
  | holdRefused (reason : Reason) (showIx : Nat) (avail : Nat)
  | extended (ref : Nat) (secondsLeft : Nat) (extensionsLeft : Nat)
  | extendRefused (ref : Nat) (reason : Reason)
  | released (ref : Nat) (showIx : Nat) (seats : Nat)
  | releaseRefused (ref : Nat) (reason : Reason)
  | holdEnded (ref : Nat) (showIx : Nat) (code : Nat) (seats : Nat) (reason : HoldEnd)
  | showStatus (showIx : Nat) (code : Nat) (state : ShowState) (avail : Nat) (band : Band)
      (seatsShown : Nat) (plusMarker : Bool) (oversold : Bool)
  | noticeTaken (ref : Nat) (priority : Nat) (collapsed clamped truncated : Bool)
  | noticeRefused (reason : Reason) (field : Nat)
  | noticeEnded (ref : Nat) (topic : Nat) (reason : NoticeEnd) (aired : Nat)
  | busy
  | rejected (reason : Reason) (kind : Byte)
  | pause (time : Nat)
  deriving DecidableEq, Repr

/-- A frame to a desk: its sequence number and its message. -/
structure DeskFrame where
  seq : Byte
  msg : DeskMsg
  deriving DecidableEq, Repr

/-- The counters of a port record. -/
structure PortCounters where
  framesTaken : Nat := 0
  runt : Nat := 0
  long : Nat := 0
  crc : Nat := 0
  rejected : Nat := 0
  dropped : Nat := 0
  overflow : Nat := 0
  lost : Nat := 0
  deriving DecidableEq, Repr

/-- A port record (The Desk Line). `rx` holds the bytes of the frame being taken, first byte first;
`rxDisabled` says that its start byte arrived while the port was DISABLED (R60, R63). -/
structure Port where
  state : PortState := .disabled
  phase : RxPhase := .hunt
  rx : List Byte := []
  rxDisabled : Bool := false
  replyQ : List DeskFrame := []
  tx : Option DeskFrame := none
  counters : PortCounters := {}
  deriving DecidableEq, Repr

/-- The six desk-to-part kinds (R62). -/
inductive DeskKind where
  | hold | extend | release | ask | noticePost | noticeClear
  deriving DecidableEq, Repr

/-- An entry of the intake queue (R64). -/
structure IntakeEntry where
  desk : DeskIx
  kind : DeskKind
  seq : Byte
  body : List Byte
  deriving DecidableEq, Repr

/-- The Desk Line Controller. Occupancy is the length of `intake`. -/
structure DeskLine where
  ports : Vector Port 8 := Vector.replicate 8 {}
  intake : List IntakeEntry := []
  inHand : Option IntakeEntry := none
  paused : Bool := false
  pauseTimer : Option Nat := none
  cfg : DeskSettings := {}
  deriving DecidableEq, Repr

/-! ## The Airtime Scheduler -/

/-- Feature states, in the order of their codes. -/
inductive FeatureState where
  | empty | validating | ready | rejected | faulted | draining
  deriving DecidableEq, Repr

/-- Why a validation failed, in the order of the codes. -/
inductive RejectReason where
  | none | headerRange | shortChunk | duration | readFailed
  deriving DecidableEq, Repr

/-- One chunk of a clip: its host address and its length as cut (R114). -/
structure Chunk where
  addr : Nat
  len : Nat
  deriving DecidableEq, Repr

/-- A validation in flight: `piece` is `none` for the header read and `some k` for the chunk list
read that begins at chunk `k`; `failures` is n of R115; `wait` is the retry wait still to run. -/
structure Validation where
  piece : Option Nat := none
  failures : Nat := 0
  wait : Option Nat := none
  deriving DecidableEq, Repr

/-- One feature record. The default values are those of an EMPTY slot (R110). -/
structure FeatureRec where
  state : FeatureState := .empty
  weight : Nat := 0
  clipLocation : Nat := 0
  formatClass : Nat := 0
  byteRate : Nat := 0
  chunkCount : Nat := 0
  chunks : List Chunk := []
  totalBytes : Nat := 0
  duration : Nat := 0
  truncated : Bool := false
  rejectReason : RejectReason := .none
  rejectDetail : Nat := 0
  validationNo : Nat := 0
  credit : Int := 0
  lastE : Nat := 0
  plays : Nat := 0
  streamingCount : Nat := 0
  validation : Option Validation := none
  deriving DecidableEq, Repr

/-- The Airtime Scheduler. -/
structure Airtime where
  features : Vector FeatureRec 32 := Vector.replicate 32 {}
  lastTrailer : Vector (Option FeatureIx) 16 := Vector.replicate 16 none
  cfg : AirtimeSettings := {}
  deriving DecidableEq, Repr

/-! ## The Display Controller -/

/-- A slot of a display's loop. -/
inductive LoopSlot where
  | board | trailer
  | house (card : Byte)
  deriving DecidableEq, Repr

/-- The setup half of a display record, with the power-on defaults of its table. Watermarks in KiB. -/
structure DisplaySetup where
  tag : Byte := 0
  auditoriumMask : BitVec 24 := 0xFFFFFF#24
  loop : List LoopSlot := [.board]
  rowsPerPage : Nat := 8
  boardDwell : Nat := 10
  houseDwell : Nat := 8
  floor : Nat := 0
  formatMask : Byte := 0x01#8
  lowMark : Nat := 64
  highMark : Nat := 112
  deriving DecidableEq, Repr

/-- What the present loop slot is doing, in the order of the codes. -/
inductive Segment where
  | none | deciding | board | house | trailer
  deriving DecidableEq, Repr

/-- A row of the page on air, with its ENDED mark. -/
structure PageRow where
  showIx : ShowIx
  ended : Bool
  deriving DecidableEq, Repr

/-- One display record (R129). `dwellDue` is the model's: a tick has found one second of dwell left
and its dwell expiry (R136) has not yet been taken. `renewed` is the model's too: the slots of the drop
reports that already waited when the page on air was composed, each to be taken against a row that
shows what the slot holds since (R140; log entry 54). -/
structure DisplayRec where
  setup : DisplaySetup := {}
  state : DisplayState := .off
  linkUp : Bool := false
  loopPos : Nat := 0
  segment : Segment := .none
  segmentNo : Nat := 0
  feature : FeatureIx := 0
  dwellLeft : Nat := 0
  page : Option Nat := none
  pages : Nat := 0
  pageRows : List PageRow := []
  takeover : Bool := false
  suspended : Bool := false
  suspendStart : Option Nat := none
  dwellDue : Bool := false
  renewed : List ShowIx := []
  deriving DecidableEq, Repr

/-- The Display Controller. -/
structure DisplayCtl where
  recs : Vector DisplayRec 16 := Vector.replicate 16 {}
  resumeLimit : Nat := 60
  deriving DecidableEq, Repr

/-! ## The Stream Engine and the panel links -/

/-- Stream phases, in the order of their codes. -/
inductive StreamPhase where
  | idle | filling | playing
  deriving DecidableEq, Repr

/-- A burst outstanding: ISSUED (`wait = none`) or in a retry WAIT with its milliseconds to run. -/
structure Burst where
  addr : Nat
  size : Nat
  failures : Nat
  wait : Option Nat
  deriving DecidableEq, Repr

/-- The fields a ROW or ROW_UPDATE carries (R139). `stateCode` is the show state's code, or 8. -/
structure RowData where
  showIx : ShowIx
  titleCode : Nat
  auditorium : Nat
  start : Nat
  stateCode : Nat
  band : Band
  seatsShown : Nat
  plusMarker : Bool
  deriving DecidableEq, Repr

/-- A frame on a panel link (Record and Frame Formats). -/
inductive PanelFrame where
  | pageBegin (page pages rows : Nat)
  | row (r : RowData)
  | rowUpdate (r : RowData)
  | clipData (segmentNo : Nat) (last : Bool) (offset : Nat) (bytes : List Byte)
  | holdFrame (segmentNo : Nat) (offset : Nat)
  | strip (ref : Nat) (noticeClass : Nat) (content : Content)
  | stripClear
  | house (card : Byte)
  | takeoverBegin
  | takeoverEnd
  deriving DecidableEq, Repr

/-- A panel link transmitter (R157): its control queue, the waiting clip frame, the frame in
transmission and the dropped-frame count. -/
structure PanelLink where
  control : List PanelFrame := []
  clip : Option PanelFrame := none
  tx : Option PanelFrame := none
  dropped : Nat := 0
  deriving DecidableEq, Repr

/-- The stream record of a display (R145). `buffer` holds the clip bytes, head first; occupancy is
its length. `carry` is the remainder below one byte that the allowance carries, in thousandths
(R153). `underrunDue` is the model's: a tick has found the episode at its limit (R154) and the
give-up has not yet been taken. -/
structure StreamRec where
  phase : StreamPhase := .idle
  segmentNo : Nat := 0
  streamNo : Nat := 0
  feature : FeatureIx := 0
  lowMark : Nat := 65536
  highMark : Nat := 114688
  buffer : List Byte := []
  chunkIx : Nat := 0
  chunkOff : Nat := 0
  bytesFetched : Nat := 0
  bytesSent : Nat := 0
  requesting : Bool := false
  burst : Option Burst := none
  allowance : Nat := 0
  carry : Nat := 0
  held : Bool := false
  endMarked : Bool := false
  inUnderrun : Bool := false
  underrunStart : Option Nat := none
  underrunCount : Nat := 0
  underrunDue : Bool := false
  deriving DecidableEq, Repr

/-- The Stream Engine: stream records, the fetch arbiter's last grant, the LFSR and the panel link
transmitters. -/
structure StreamEngine where
  recs : Vector StreamRec 16 := Vector.replicate 16 {}
  lastGrant : DisplayIx := 15
  lfsr : BitVec 16 := 0xACE1#16
  links : Vector PanelLink 16 := Vector.replicate 16 {}
  cfg : StreamSettings := {}
  deriving DecidableEq, Repr

/-! ## The read engine -/

/-- The requester's identification of a read (R146): control reads carry the session, validation
reads the feature and validation_no, bursts the display and stream_no. -/
inductive ReadId where
  | anchor (session : Nat)
  | publishMark (session : Nat)
  | entry (session : Nat)
  | text (session : Nat)
  | header (f : FeatureIx) (validationNo : Nat)
  | piece (f : FeatureIx) (validationNo : Nat) (first : Nat)
  | burst (d : DisplayIx) (streamNo : Nat)
  deriving DecidableEq, Repr

/-- A read: its identification, host address and length; `granted` marks a burst handed by the
fetch arbiter, as against a reissued one (R150). -/
structure Read where
  id : ReadId
  addr : Nat
  len : Nat
  granted : Bool
  deriving DecidableEq, Repr

/-- The read engine (R146): 32 read slots and the wait queue, head first. -/
structure ReadEngine where
  slots : Vector (Option Read) 32 := Vector.replicate 32 none
  queue : List Read := []
  deriving DecidableEq, Repr

/-! ## The Fault Unit -/

/-- The thirteen causes, in the order of their codes (R173). -/
inductive FaultCause where
  | anchorBad | journalMark | journalEntry | memReadControl | memWrite | oversold | deskFrame
  | deskOverflow | deskReplyLost | streamUnderrun | clipAbandoned | panelLinkLost | noticeUnseen
  deriving DecidableEq, Repr

/-- Source kind and number of a raise, in the order of the source kind codes. -/
inductive FaultSource where
  | none
  | journalSlot (n : Nat)
  | desk (n : Nat)
  | display (n : Nat)
  | showSlot (n : Nat)
  | feature (n : Nat)
  deriving DecidableEq, Repr

/-- A raise on its way to the Fault Unit (R174). -/
structure Raise where
  cause : FaultCause
  source : FaultSource
  capture : List Byte
  deriving DecidableEq, Repr

/-- A filled first record (R175). -/
structure FirstRecord where
  cause : FaultCause
  source : FaultSource
  lobbyTime : Nat
  capture : List Byte
  deriving DecidableEq, Repr

/-- The records of one severity: the first record and the next record's cause set and count
(R175, R176). The set is a list without repeats. -/
structure SeverityRec where
  first : Option FirstRecord := none
  causes : List FaultCause := []
  count : Nat := 0
  deriving DecidableEq, Repr

/-- The Fault Unit. -/
structure FaultUnit where
  severe : SeverityRec := {}
  minor : SeverityRec := {}
  cfg : Vector CauseSettings 13 := causeDefaults
  deriving DecidableEq, Repr

/-! ## The Window Interface -/

/-- Run states, in the order of their codes. -/
inductive RunState where
  | stopped | running | stalled
  deriving DecidableEq, Repr

/-- Stall causes, in the order of their codes. -/
inductive StallCause where
  | none | mark | read | write
  deriving DecidableEq, Repr

/-- Journal outcomes (Record and Frame Formats). -/
inductive OutcomeCode where
  | done | accepted | clamped | truncated | holdMismatch | holdGone
  | badIndex | badField | badKind | inUse | noRecord | wrongState | past | tableFull
  deriving DecidableEq, Repr

/-- The 23 journal kinds, in the order of their codes 1..23. -/
inductive EntryKind where
  | configure | clockSet | showLoad | showAmend | showHalt | showResume | showCancel | showDrop
  | sale | refund | block | featureLoad | featureWeight | featureDrop | airtimeReset
  | displaySetup | displayEnable | displayDisable | noticePost | noticeClear | deskPort
  | faultClear | mark
  deriving DecidableEq, Repr

/-- Phases of the entry in flight. -/
inductive FlightPhase where
  | reading | text | handed | writing
  deriving DecidableEq, Repr

/-- The outcome of an entry: code, detail and, for DESK_PORT, entry bytes 16..35 (R181). -/
structure EntryOutcome where
  code : OutcomeCode
  detail : Nat
  writeBack : List Byte := []
  deriving DecidableEq, Repr

/-- The entry in flight (R164): its journal slot, phase, 64 bytes and text once read, the retry
state of its present read (R165), its time stamp once handed, whether its owner has taken it, the
owners whose settings events a CONFIGURE waits for with its count of changed fields (R170), and
its outcome once given. -/
structure Flight where
  slot : Nat
  phase : FlightPhase := .reading
  bytes : List Byte := []
  text : List Byte := []
  failures : Nat := 0
  wait : Option Nat := none
  stamp : Nat := 0
  taken : Bool := false
  awaiting : List Owner := []
  changed : Nat := 0
  outcome : Option EntryOutcome := none
  deriving DecidableEq, Repr

/-- An anchor or publish mark read outstanding in the present session (R159, R165). -/
structure CtlRead where
  failures : Nat := 0
  wait : Option Nat := none
  deriving DecidableEq, Repr

/-- The geometry taken at the last start (R162). -/
structure Geometry where
  windowLength : Nat := 0
  journalOffset : Nat := 0
  capacity : Nat := 0
  mirrorOffset : Nat := 0
  deriving DecidableEq, Repr

/-- The anchor words the part writes, in the order of their offsets. -/
inductive AnchorWord where
  | takeMark | lobbyNow | partNow | clockSet | runEcho | mirrorGen
  deriving DecidableEq, Repr

/-- A mirror record (R167). -/
inductive MirrorId where
  | showRec (i : ShowIx)
  | hold (i : HoldIx)
  | feature (i : FeatureIx)
  | display (i : DisplayIx)
  | notice (i : NoticeIx)
  | fault (sev : Severity)
  deriving DecidableEq, Repr

/-- What a write into the window writes (R166). -/
inductive WriteTarget where
  | mirror (id : MirrorId)
  | anchor (word : AnchorWord)
  | outcome
  deriving DecidableEq, Repr

/-- A write in the write queue: its target, the host addresses and bytes it carries in the order
written, and whether it has failed once (R166). -/
structure WindowWrite where
  target : WriteTarget
  parts : List (Nat × List Byte)
  retried : Bool := false
  deriving DecidableEq, Repr

/-- The four cause bits of STATUS (R168). -/
structure CauseBits where
  severe : Bool := false
  minor : Bool := false
  mirror : Bool := false
  drained : Bool := false
  deriving DecidableEq, Repr

/-- The Window Interface (R160). `startDone` says that a start has completed since RUN was set
(R165). `rewriting` says that a held outcome is in the write queue again after a recovery's checks
(R165, cause WRITE). `settingsQ` holds the settings events handed and not yet taken (R170). -/
structure WindowIf where
  runBit : Bool := false
  alertAEn : Bool := false
  alertBEn : Bool := false
  causes : CauseBits := {}
  windowBase : BitVec 64 := 0
  runState : RunState := .stopped
  starting : Bool := false
  stopping : Bool := false
  stallCause : StallCause := .none
  anchorCheck : Nat := 0
  windowValid : Bool := false
  session : Nat := 0
  geometry : Geometry := {}
  takeMark : Nat := 0
  publishMark : Nat := 0
  flight : Option Flight := none
  heldOutcome : Option EntryOutcome := none
  rewriting : Bool := false
  startDone : Bool := false
  pollTimer : Option Nat := none
  anchorRead : Option CtlRead := none
  markRead : Option CtlRead := none
  writeQ : List WindowWrite := []
  versions : Vector Nat 402 := Vector.replicate 402 0
  mirrorGen : Nat := 0
  cfg : Settings := {}
  settingsQ : List (Owner × Settings) := []
  deriving DecidableEq, Repr

/-! ## Messages between the blocks -/

/-- Show Table to Lobby Clock (R3), in the order sent. -/
inductive ClockRequest where
  | schedule (e : DueEntry)
  | withdraw (i : ShowIx)
  deriving DecidableEq, Repr

/-- Lobby Clock to Show Table: a catch-up for a lobby time (R4), or the Show Table half of a
CLOCK_SET (R5): its placements when the clock was UNSET (`first`), otherwise its catch-up. -/
inductive ClockMsg where
  | catchUp (time : Nat) (entries : List DueEntry)
  | setHalf (time : Nat) (first : Bool) (entries : List DueEntry)
  deriving DecidableEq, Repr

/-- Show Table to Notice Arbiter (R83), in the order sent. -/
inductive ShowMsg where
  | auto (p : Post)
  | clear (i : ShowIx)
  | closure (i : ShowIx) (reason : NoticeEnd)
  deriving DecidableEq, Repr

/-- Fields a show-changed report can name (R19). -/
inductive ReportField where
  | state | start | titleCode | auditorium | listed | feature | avail | band | seatsShown | plusMarker
  deriving DecidableEq, Repr

/-- A show-changed report (R19). `dropped` says that it carries the state EMPTY: the show has left its
slot, whatever the slot holds when the report is taken (R14). -/
structure ShowReport where
  showIx : ShowIx
  fields : List ReportField
  dropped : Bool
  deriving DecidableEq, Repr

/-- Display Controller to Notice Arbiter (R93), in the order sent. An enabled report carries the tag that
the enabling puts to use (R131; log entry 45). -/
inductive DisplayReport where
  | enabled (d : DisplayIx) (tag : Byte)
  | linkUp (d : DisplayIx)
  | linkLost (d : DisplayIx)
  | draining (d : DisplayIx)
  | off (d : DisplayIx)
  | floor (d : DisplayIx) (value : Nat)
  deriving DecidableEq, Repr

/-- Notice Arbiter to Display Controller (R98, R108, R143), in the order sent. -/
inductive PanelSignal where
  | strip (d : DisplayIx) (top : Option (Nat × Nat × Content))
  | takeoverBegin (d : DisplayIx)
  | takeoverEnd (d : DisplayIx)
  deriving DecidableEq, Repr

/-- Display Controller to Stream Engine (R148, R155, R156), in the order sent. Watermarks in KiB. -/
inductive StreamRequest where
  | start (d : DisplayIx) (f : FeatureIx) (segmentNo lowMark highMark : Nat) (held : Bool)
  | hold (d : DisplayIx) (segmentNo : Nat)
  | resume (d : DisplayIx) (segmentNo : Nat)
  | finish (d : DisplayIx) (segmentNo : Nat)
  | abandon (d : DisplayIx) (segmentNo : Nat)
  deriving DecidableEq, Repr

/-- Display Controller to Airtime Scheduler (R135, R137). -/
structure DecisionRequest where
  display : DisplayIx
  formatMask : Byte
  segmentNo : Nat
  deriving DecidableEq, Repr

/-- Airtime Scheduler to Display Controller (R122, R124); `choice = none` is BOARD. -/
structure DecisionReply where
  display : DisplayIx
  segmentNo : Nat
  choice : Option FeatureIx
  deriving DecidableEq, Repr

/-- End causes of a release report (R125). -/
inductive ReleaseCause where
  | ended | abandoned | clipFault | notStarted
  deriving DecidableEq, Repr

/-- A release report (R125). -/
structure Release where
  feature : FeatureIx
  cause : ReleaseCause
  deriving DecidableEq, Repr

/-- Stream Engine to Display Controller (R138). -/
structure EndNotice where
  display : DisplayIx
  segmentNo : Nat
  deriving DecidableEq, Repr

/-- The messages sent and not yet taken, oldest first. -/
structure Bus where
  toClock : List ClockRequest := []
  fromClock : List ClockMsg := []
  toArbiter : List ShowMsg := []
  showReports : List ShowReport := []
  displayReports : List DisplayReport := []
  signals : List PanelSignal := []
  streamReqs : List StreamRequest := []
  drainReqs : List FeatureIx := []
  decisions : List DecisionRequest := []
  replies : List DecisionReply := []
  endReports : List EndNotice := []
  streamReleases : List Release := []
  displayReleases : List Release := []
  raises : List (Raiser × Raise) := []
  deriving DecidableEq, Repr

/-! ## The whole part -/

/-- Bytes of host memory by address: strictly rising addresses, and only bytes the part has written.
An address not listed has not been written by the part. -/
abbrev Memory := List Host.Cell

/-- The state of the part. `pending` is the queue of commands waiting, first in first out;
`freeCount` is the model's own field: the number of open values used so far (log entry 2). -/
structure State where
  pending : List Instr := []
  win : WindowIf := {}
  clock : LobbyClock := {}
  shows : ShowTable := {}
  desks : DeskLine := {}
  arb : Arbiter := {}
  air : Airtime := {}
  displays : DisplayCtl := {}
  stream : StreamEngine := {}
  faults : FaultUnit := {}
  reads : ReadEngine := {}
  bus : Bus := {}
  hostMem : Memory := []
  freeCount : Nat := 0
  deriving DecidableEq, Repr

/-- The machine right after power-on reset, every panel link found down (log entry 5). -/
def State.reset : State := {}

end Sys2Proof.Machine
end

