-- ==== Sys2Proof/Machine/Operands.lean ====
section
/-! DEFINITION. Every operand form of the manual: byte order (Conventions, R180), the bodies of the
23 journal kinds and of the six desk kinds, the anchor, the clip header and descriptors, and the
codes that stand for states, bands, outcomes and reasons in them (Record and Frame Formats). -/

namespace Sys2Proof.Machine

/-! ## Byte order -/

/-- The number that bytes spell, least significant byte first (R180). -/
def leNat : List Byte → Nat
  | [] => 0
  | b :: rest => b.toNat + 256 * leNat rest

/-- The low `w` bytes of a number, least significant byte first (R180). -/
def leBytes : Nat → Nat → List Byte
  | 0, _ => []
  | w + 1, n => BitVec.ofNat 8 n :: leBytes w (n / 256)

/-- The field of `w` bytes at offset `off`. -/
def fieldAt (bs : List Byte) (off w : Nat) : Nat := leNat ((bs.drop off).take w)

/-- The byte at offset `off`, 0 beyond the end. -/
def byteAt (bs : List Byte) (off : Nat) : Byte := bs.getD off 0

/-- Bytes brought to length `n` with zeros at the end, or cut (R61, R69: a capture's padding). -/
def padTo (n : Nat) (bs : List Byte) : List Byte := (bs ++ List.replicate n 0).take n

/-- 16 zero bytes: the capture of a raise that carries none. -/
def noCapture : List Byte := List.replicate 16 0

/-- A number of `w` bytes read as two's complement (R180). -/
def signedNat (w n : Nat) : Int :=
  if n < 2 ^ (8 * w - 1) then (n : Int) else (n : Int) - (2 ^ (8 * w) : Nat)

/-- The two's complement of a number in `w` bytes (R180). -/
def unsignedInt (w : Nat) (i : Int) : Nat := (i % ((2 ^ (8 * w) : Nat) : Int)).toNat

/-- Mark of field `n` in a change mask: bit n − 1 (Bodies). -/
def marked (mask n : Nat) : Bool := mask.testBit (n - 1)

/-- A nonzero power of two. -/
def isPowerOfTwo (n : Nat) : Bool := n != 0 && n &&& (n - 1) == 0

/-! ## Codes -/

/-- Show state codes. -/
def ShowState.code : ShowState → Nat
  | .empty => 0 | .waiting => 1 | .selling => 2 | .seating => 3
  | .running => 4 | .halted => 5 | .closed => 6 | .cancelled => 7

/-- The code of the state ENDED, which only a ROW_UPDATE carries. -/
def endedCode : Nat := 8

/-- Band codes. -/
def Band.code : Band → Nat
  | .openHouse => 0 | .filling => 1 | .few => 2 | .last => 3 | .full => 4

/-- Feature state codes. -/
def FeatureState.code : FeatureState → Nat
  | .empty => 0 | .validating => 1 | .ready => 2 | .rejected => 3 | .faulted => 4 | .draining => 5

/-- reject_reason codes. -/
def RejectReason.code : RejectReason → Nat
  | .none => 0 | .headerRange => 1 | .shortChunk => 2 | .duration => 3 | .readFailed => 4

/-- Display state codes. -/
def DisplayState.code : DisplayState → Nat
  | .off => 0 | .starting => 1 | .on => 2 | .linkLost => 3 | .draining => 4

/-- Segment codes. -/
def Segment.code : Segment → Nat
  | .none => 0 | .deciding => 1 | .board => 2 | .house => 3 | .trailer => 4

/-- Loop slot kind codes. -/
def LoopSlot.code : LoopSlot → Nat
  | .board => 0 | .trailer => 1 | .house _ => 2

/-- Stream phase codes. -/
def StreamPhase.code : StreamPhase → Nat
  | .idle => 0 | .filling => 1 | .playing => 2

/-- Port state codes. -/
def PortState.code : PortState → Nat
  | .disabled => 0 | .enabled => 1 | .draining => 2

/-- Run state codes. -/
def RunState.code : RunState → Nat
  | .stopped => 0 | .running => 1 | .stalled => 2

/-- Stall cause codes. -/
def StallCause.code : StallCause → Nat
  | .none => 0 | .mark => 1 | .read => 2 | .write => 3

/-- Journal outcome codes; a code of 16 or more is a refusal. -/
def OutcomeCode.code : OutcomeCode → Nat
  | .done => 1 | .accepted => 2 | .clamped => 3 | .truncated => 4
  | .holdMismatch => 5 | .holdGone => 6
  | .badIndex => 16 | .badField => 17 | .badKind => 18 | .inUse => 19
  | .noRecord => 20 | .wrongState => 21 | .past => 22 | .tableFull => 23

/-- A refusal outcome (R164). -/
def OutcomeCode.isRefusal (c : OutcomeCode) : Bool := 16 ≤ c.code

/-- Refusal reason codes of desk replies. -/
def Reason.code : Reason → Nat
  | .noShow => 1 | .notSelling => 2 | .badSize => 3 | .deskLimit => 4 | .tableFull => 5
  | .noSeats => 6 | .notLive => 7 | .notOwner => 8 | .limit => 9 | .unknownHold => 10
  | .badField => 11 | .unknownNotice => 12 | .unknownKind => 13 | .badLength => 14

/-- HOLD_ENDED reason codes. -/
def HoldEnd.code : HoldEnd → Nat
  | .expired => 0 | .showClosed => 1 | .showDropped => 2

/-- Notice end reason codes (R79). -/
def NoticeEnd.code : NoticeEnd → Nat
  | .expired => 0 | .cleared => 1 | .showClosed => 2 | .showDropped => 3

/-- Target kind codes. -/
def TargetKind.code : TargetKind → Nat
  | .physical => 0 | .flat => 1 | .cluster => 2

/-- Notice mode codes. -/
def NoticeMode.code : NoticeMode → Nat
  | .all => 0 | .anyOne => 1

/-- Card kind codes (Shows and the Lobby Clock); a card's content kind code is one more. -/
def CardKind.code : CardKind → Nat
  | .delayed => 0 | .soldOut => 1 | .doorsOpen => 2 | .cancelled => 3

/-- Content kind codes (Notices and Their Addressing). -/
def Content.kindCode : Content → Nat
  | .text _ => 0
  | .card k _ => k.code + 1

/-- Origin numbers (Conventions). -/
def Origin.code : Origin → Nat
  | .boxOffice => 0
  | .desk d => d.val + 1
  | .schedule => 9

/-- Fault cause codes (R173). -/
def FaultCause.code : FaultCause → Fin 13
  | .anchorBad => 0 | .journalMark => 1 | .journalEntry => 2 | .memReadControl => 3
  | .memWrite => 4 | .oversold => 5 | .deskFrame => 6 | .deskOverflow => 7
  | .deskReplyLost => 8 | .streamUnderrun => 9 | .clipAbandoned => 10
  | .panelLinkLost => 11 | .noticeUnseen => 12

/-- Source kind codes (Faults). -/
def FaultSource.kindCode : FaultSource → Nat
  | .none => 0 | .journalSlot _ => 1 | .desk _ => 2 | .display _ => 3
  | .showSlot _ => 4 | .feature _ => 5

/-- Source numbers (Faults). -/
def FaultSource.number : FaultSource → Nat
  | .none => 0
  | .journalSlot n | .desk n | .display n | .showSlot n | .feature n => n

/-- The thirteen causes in code order. -/
def allCauses : List FaultCause :=
  [.anchorBad, .journalMark, .journalEntry, .memReadControl, .memWrite, .oversold, .deskFrame,
   .deskOverflow, .deskReplyLost, .streamUnderrun, .clipAbandoned, .panelLinkLost, .noticeUnseen]

/-- Kind codes of journal entries, 1..23 (The journal entry). -/
def entryKind : Nat → Option EntryKind
  | 1 => some .configure | 2 => some .clockSet | 3 => some .showLoad | 4 => some .showAmend
  | 5 => some .showHalt | 6 => some .showResume | 7 => some .showCancel | 8 => some .showDrop
  | 9 => some .sale | 10 => some .refund | 11 => some .block | 12 => some .featureLoad
  | 13 => some .featureWeight | 14 => some .featureDrop | 15 => some .airtimeReset
  | 16 => some .displaySetup | 17 => some .displayEnable | 18 => some .displayDisable
  | 19 => some .noticePost | 20 => some .noticeClear | 21 => some .deskPort
  | 22 => some .faultClear | 23 => some .mark
  | _ => none

/-- Kind codes of desk frames from desk to part (Desk frames). -/
def deskKind : Nat → Option DeskKind
  | 1 => some .hold | 2 => some .extend | 3 => some .release | 4 => some .ask
  | 5 => some .noticePost | 6 => some .noticeClear
  | _ => none

/-- Target kinds by code; a code not listed is refused where its rule checks the field. -/
def targetKind : Nat → Option TargetKind
  | 0 => some .physical | 1 => some .flat | 2 => some .cluster
  | _ => none

/-- Card kinds by content kind code 1..4. -/
def cardKind : Nat → Option CardKind
  | 1 => some .delayed | 2 => some .soldOut | 3 => some .doorsOpen | 4 => some .cancelled
  | _ => none

/-- Steering values by code (R168). -/
def steerOf : Nat → Steer
  | 1 => .lineA
  | 2 => .lineB
  | _ => .none

/-- Codes of steering values (R168). -/
def steerCode : Steer → Nat
  | .none => 0 | .lineA => 1 | .lineB => 2

/-- An index below `n`, if the number is one. -/
def indexOf? (n k : Nat) : Option (Fin n) := if h : k < n then some ⟨k, h⟩ else none

/-- A reference: generation in the high 8 bits, slot index in the low 8 (Conventions). -/
def mkRef (gen index : Nat) : Nat := gen * 256 + index

/-- A target of a kind code and a value, where the value is valid for the kind (R8, field 12;
Addressing). -/
def targetOf? (kind : Nat) (value : Byte) : Option Target :=
  match targetKind kind with
  | none => none
  | some .physical => if value.toNat < 16 then some ⟨.physical, value⟩ else none
  | some .flat => if value.toNat ≠ 0 then some ⟨.flat, value⟩ else none
  | some .cluster => if value.toNat % 16 ≠ 0 then some ⟨.cluster, value⟩ else none

/-! ## The journal entry -/

/-- The body of an entry: bytes 12..63. -/
def entryBody (bytes : List Byte) : List Byte := bytes.drop 12

/-- STOP_ON_REFUSAL of an entry's flags. -/
def stopOnRefusal (bytes : List Byte) : Bool := (byteAt bytes 1).getLsbD 0

/-- The schedule fields of a SHOW_LOAD or SHOW_AMEND body, as they stand in the bytes. -/
structure ShowBody where
  index : Nat
  featurePresent : Bool
  saleOpenPresent : Bool
  mask : Nat
  showCode : Nat
  auditorium : Nat
  feature : Nat
  titleCode : Nat
  start : Nat
  saleOpen : Nat
  seatingLead : Nat
  lateWindow : Nat
  capacity : Nat
  bandSet : Nat
  flags : Byte
  targetKind : Nat
  targetValue : Byte
  deriving DecidableEq, Repr

/-- Reading a SHOW_LOAD or SHOW_AMEND body (Bodies). -/
def readShowBody (b : List Byte) : ShowBody where
  index := fieldAt b 0 1
  featurePresent := (byteAt b 1).getLsbD 0
  saleOpenPresent := (byteAt b 1).getLsbD 1
  mask := fieldAt b 2 2
  showCode := fieldAt b 4 4
  auditorium := fieldAt b 8 1
  feature := fieldAt b 9 1
  titleCode := fieldAt b 10 2
  start := fieldAt b 12 4
  saleOpen := fieldAt b 16 4
  seatingLead := fieldAt b 20 2
  lateWindow := fieldAt b 22 2
  capacity := fieldAt b 24 2
  bandSet := fieldAt b 26 1
  flags := byteAt b 27
  targetKind := fieldAt b 28 1
  targetValue := byteAt b 29

/-- The five flags of field 11. -/
def readFlags (v : Byte) : ShowFlags :=
  ⟨v.getLsbD 0, v.getLsbD 1, v.getLsbD 2, v.getLsbD 3, v.getLsbD 4⟩

/-- The flags byte of a show, in the order of the SHOW_LOAD flags. -/
def ShowFlags.code (f : ShowFlags) : Nat :=
  f.listed.toNat + 2 * f.autoDelay.toNat + 4 * f.autoSoldout.toNat + 8 * f.autoDoors.toNat
    + 16 * f.autoCancel.toNat

/-- A SALE body. -/
structure SaleBody where
  index : Nat
  present : Nat
  seats : Nat
  ref : Nat
  deriving DecidableEq, Repr

/-- Reading a SALE body. -/
def readSaleBody (b : List Byte) : SaleBody :=
  ⟨fieldAt b 0 1, fieldAt b 1 1, fieldAt b 2 2, fieldAt b 4 2⟩

/-- Reading a BLOCK body: show index and signed delta. -/
def readBlockBody (b : List Byte) : Nat × Int := (fieldAt b 0 1, signedNat 2 (fieldAt b 2 2))

/-- The fields of a NOTICE_POST, from a journal body or a desk frame's fixed part. -/
structure PostBody where
  topic : Nat
  priority : Nat
  mode : Nat
  targetKind : Nat
  targetValue : Byte
  boundShow : Nat
  contentKind : Nat
  cardShow : Nat
  duration : Nat
  deriving DecidableEq, Repr

/-- Reading the ten bytes of a NOTICE_POST's fixed part, the same in the journal and on the line. -/
def readPostBody (b : List Byte) : PostBody where
  topic := fieldAt b 0 1
  priority := fieldAt b 1 1
  mode := fieldAt b 2 1
  targetKind := fieldAt b 3 1
  targetValue := byteAt b 4
  boundShow := fieldAt b 5 1
  contentKind := fieldAt b 6 1
  cardShow := fieldAt b 7 1
  duration := fieldAt b 8 2

/-- Field 10 of a journal NOTICE_POST: text length and text offset. -/
def postTextLength (b : List Byte) : Nat := fieldAt b 10 1
/-- Field 10 of a journal NOTICE_POST: text offset from the window base. -/
def postTextOffset (b : List Byte) : Nat := fieldAt b 12 4

/-- The loop slots of a DISPLAY_SETUP body: `n` pairs of kind and card from offset 16; none where a
kind is unknown (R130). A card is ignored unless its kind is HOUSE. -/
def readLoop (b : List Byte) : Nat → Nat → Option (List LoopSlot)
  | 0, _ => some []
  | n + 1, off =>
    match readLoop b n (off + 2) with
    | none => none
    | some rest =>
      match fieldAt b off 1 with
      | 0 => some (.board :: rest)
      | 1 => some (.trailer :: rest)
      | 2 => some (.house (byteAt b (off + 1)) :: rest)
      | _ => none

/-- The fields of a DISPLAY_SETUP body; `loop` is none where the loop is bad (R130). -/
structure SetupBody where
  index : Nat
  mask : Nat
  tag : Byte
  auditoriumMask : Nat
  loop : Option (List LoopSlot)
  rowsPerPage : Nat
  boardDwell : Nat
  houseDwell : Nat
  floor : Nat
  formatMask : Byte
  lowMark : Nat
  highMark : Nat
  deriving DecidableEq, Repr

/-- Reading a DISPLAY_SETUP body. -/
def readSetupBody (b : List Byte) : SetupBody where
  index := fieldAt b 0 1
  mask := fieldAt b 2 2
  tag := byteAt b 4
  auditoriumMask := fieldAt b 5 3
  loop :=
    let n := fieldAt b 8 1
    if 1 ≤ n ∧ n ≤ 12 then readLoop b n 16 else none
  rowsPerPage := fieldAt b 9 1
  boardDwell := fieldAt b 10 1
  houseDwell := fieldAt b 11 1
  floor := fieldAt b 12 1
  formatMask := byteAt b 13
  lowMark := fieldAt b 14 1
  highMark := fieldAt b 15 1

/-! ## The anchor -/

/-- The host-written words of the anchor, and its take mark (The anchor). -/
structure AnchorBody where
  windowLength : Nat
  journalOffset : Nat
  capacity : Nat
  mirrorOffset : Nat
  publishMark : Nat
  takeMark : Nat
  deriving DecidableEq, Repr

/-- Reading an anchor. -/
def readAnchor (b : List Byte) : AnchorBody :=
  ⟨fieldAt b 0 4, fieldAt b 4 4, fieldAt b 8 4, fieldAt b 12 4, fieldAt b 16 4, fieldAt b 64 4⟩

/-- Offset of an anchor word the part writes. -/
def AnchorWord.offset : AnchorWord → Nat
  | .takeMark => 64 | .lobbyNow => 68 | .partNow => 72 | .clockSet => 76 | .runEcho => 77
  | .mirrorGen => 80

/-! ## Clips -/

/-- A clip header (Clip header and descriptor). -/
structure ClipHeader where
  version : Nat
  formatClass : Nat
  chunkCount : Nat
  byteRate : Nat
  deriving DecidableEq, Repr

/-- Reading a clip header. -/
def readClipHeader (b : List Byte) : ClipHeader :=
  ⟨fieldAt b 0 1, fieldAt b 1 1, fieldAt b 2 2, fieldAt b 4 4⟩

/-- The descriptors of a chunk list piece: `n` of them from the head of the bytes. -/
def readDescriptors (b : List Byte) : Nat → List Chunk
  | 0 => []
  | n + 1 => ⟨fieldAt b 0 8, fieldAt b 8 4⟩ :: readDescriptors (b.drop 16) n

end Sys2Proof.Machine
end

