-- ==== Sys2Proof/Machine/Flags.lean ====
section
/-! DEFINITION. What is worked out from other state and stored, or only shown: the seat tally, the
bands and the board figures (R22, R23, R25, R27), the registers as they read (R160), the alert
lines and the status LEDs (R168), the LFSR step (R147) and the CRC of the lines. -/

namespace Sys2Proof.Machine

/-! ## The tally -/

/-- Raw availability (R22). -/
def rawAvail (sh : ShowRec) : Int := sh.capacity - sh.sold - sh.held - sh.blocked

/-- avail (R22): the raw availability, or 0 where it is not positive. -/
def availOf (sh : ShowRec) : Nat := sh.capacity - sh.sold - sh.held - sh.blocked

/-- OVERSOLD (R22). -/
def oversoldOf (sh : ShowRec) : Bool := sh.capacity < sh.sold + sh.held + sh.blocked

/-- fill (R23), per mille. -/
def fillOf (capacity avail : Nat) : Nat := 1000 * (capacity - avail) / capacity

/-- The band (R25), from the previous band, avail, fill and the thresholds. -/
def bandOf (bs : BandSet) (prev : Band) (avail fill : Nat) : Band :=
  if avail = 0 then .full
  else if prev = .full ∧ avail < bs.fullOff then .full
  else if avail ≤ bs.lastOn ∨ ((prev = .full ∨ prev = .last) ∧ avail < bs.lastOff) then .last
  else if bs.fewOn ≤ fill ∨
      ((prev = .full ∨ prev = .last ∨ prev = .few) ∧ bs.fewOff < fill) then .few
  else if bs.fillingOn ≤ fill ∨
      ((prev = .full ∨ prev = .last ∨ prev = .few ∨ prev = .filling) ∧ bs.fillingOff < fill) then
    .filling
  else .openHouse

/-- seats_shown and plus_marker (R27). -/
def boardFigure (bs : BandSet) (band : Band) (avail : Nat) : Nat × Bool :=
  if band = .full then (0, false)
  else if avail ≤ bs.exactLimit then (avail, false)
  else (avail / bs.step * bs.step, true)

/-- One tally recomputation (R26), from the band the show had when the event began. -/
def tally (bs : BandSet) (prev : Band) (sh : ShowRec) : ShowRec :=
  let avail := availOf sh
  let fill := fillOf sh.capacity avail
  let band := bandOf bs prev avail fill
  let fig := boardFigure bs band avail
  { sh with
    avail := avail
    oversold := oversoldOf sh
    fill := fill
    band := band
    seatsShown := fig.1
    plusMarker := fig.2 }

/-! ## Show times and states -/

/-- The seating time of a show. -/
def seatingTime (sh : ShowRec) : Nat := sh.start - sh.seatingLead

/-- The close time of a show. -/
def closeTime (sh : ShowRec) : Nat := sat32 (sh.start + sh.lateWindow)

/-- A show is live while WAITING, SELLING, SEATING, RUNNING or HALTED. -/
def ShowState.isLive : ShowState → Bool
  | .waiting | .selling | .seating | .running | .halted => true
  | .empty | .closed | .cancelled => false

/-- A show in the listed set (Show-changed reports and the board). -/
def isListed (sh : ShowRec) : Bool :=
  sh.flags.listed &&
    (sh.state = .selling || sh.state = .seating || sh.state = .running || sh.state = .halted)

/-- The state the clock moves: the state, or saved_state while HALTED (R6). -/
def clockState (sh : ShowRec) : ShowState :=
  if sh.state = .halted then sh.savedState.getD .halted else sh.state

/-- The due time for leaving a state by the clock, where it has one (the due list table). -/
def dueTime (sh : ShowRec) : ShowState → Option Nat
  | .waiting => sh.saleOpen
  | .selling => some (seatingTime sh)
  | .seating => some sh.start
  | .running => some (closeTime sh)
  | _ => none

/-- The state R9's table chooses from now; CLOSED where now is at or past the close time (R10). -/
def placedState (sh : ShowRec) (now : Nat) : ShowState :=
  if sh.saleOpen.any (now < ·) then .waiting
  else if now < seatingTime sh then .selling
  else if now < sh.start then .seating
  else if now < closeTime sh then .running
  else .closed

/-- Topic of a show's auto-notice of a kind (R18). -/
def autoTopic (k : CardKind) (i : ShowIx) : Nat := (k.code + 4 * i.val) % 256

/-! ## Notices -/

/-- Class of a priority. -/
def classOf (priority : Nat) : Nat := priority / 4

/-- A display matches a target (R78). -/
def matchesTarget (t : Target) (d : DisplayIx) (tag : Byte) : Bool :=
  match t.kind with
  | .physical => d.val == t.value.toNat
  | .flat => t.value == 0xFF#8 || (tag &&& t.value) != 0#8
  | .cluster =>
    t.value == 0xFF#8 ||
      (tag >>> 4 == t.value >>> 4 && (tag &&& t.value &&& 0x0F#8) != 0#8)

/-! ## STATUS, registers and pins -/

/-- STATUS as it reads (register table). -/
def statusWord (w : WindowIf) : BitVec 32 :=
  BitVec.ofNat 32 (w.runState.code + 4 * w.stallCause.code + 16 * w.anchorCheck
    + 256 * w.causes.severe.toNat + 512 * w.causes.minor.toNat + 1024 * w.causes.mirror.toNat
    + 2048 * w.causes.drained.toNat)

/-- CONTROL as it reads: LOBBY_RESET reads 0 (R160). -/
def controlWord (w : WindowIf) : BitVec 32 :=
  BitVec.ofNat 32 (w.runBit.toNat + 4 * w.alertAEn.toNat + 8 * w.alertBEn.toNat)

/-- A register as it reads, by its offset (R160): ATTENTION reads 0. What any other offset gives the manual
does not state: a free value (log entry 77). -/
def readRegister (w : WindowIf) (offset : BitVec 12) : BitVec 32 :=
  if offset = 0x00#12 then identValue
  else if offset = 0x04#12 then controlWord w
  else if offset = 0x08#12 then statusWord w
  else if offset = 0x0C#12 then 0#32
  else if offset = 0x10#12 then w.windowBase.setWidth 32
  else if offset = 0x14#12 then (w.windowBase >>> 32).setWidth 32
  else Config.freeRegister offset

/-- Some cause bit steered to `line` is set (R168). -/
def steeredTo (w : WindowIf) (line : Steer) : Bool :=
  (w.causes.severe && w.cfg.window.steerSevere == line)
    || (w.causes.minor && w.cfg.window.steerMinor == line)
    || (w.causes.mirror && w.cfg.window.steerMirror == line)
    || (w.causes.drained && w.cfg.window.steerDrained == line)

/-- Alert line A is asserted: pin ALERTA is low (R168). -/
def alertA (s : State) : Bool := s.win.alertAEn && steeredTo s.win .lineA
/-- Alert line B is asserted: pin ALERTB is low (R168). -/
def alertB (s : State) : Bool := s.win.alertBEn && steeredTo s.win .lineB
/-- LED_RUN is lit (R160). -/
def ledRun (s : State) : Bool := s.win.runState == .running
/-- LED_FAULT is lit (R168). -/
def ledFault (s : State) : Bool := s.win.causes.severe

/-! ## The LFSR and the CRC -/

/-- One step of the LFSR (R147). -/
def lfsrStep (v : BitVec 16) : BitVec 16 :=
  let top := (v.getLsbD 0 ^^ v.getLsbD 2) ^^ (v.getLsbD 3 ^^ v.getLsbD 5)
  (v >>> 1) ||| (if top then 0x8000#16 else 0#16)

/-- The value of the low `k` bits of the LFSR. -/
def lfsrLow (v : BitVec 16) (k : Nat) : Nat := v.toNat % 2 ^ k

/-- The retry wait in milliseconds at the n-th failure (R115, R152, R165). -/
def retryWait (v : BitVec 16) (r : RetrySettings) (n : Nat) : Nat := lfsrLow v (min n r.backoffCap)

/-- One bit of the CRC-16 (polynomial 0x1021, most significant bit first). -/
def crcBit (c : BitVec 16) : BitVec 16 :=
  if c.getLsbD 15 then (c <<< 1) ^^^ 0x1021#16 else c <<< 1

/-- One byte of the CRC-16. -/
def crcByte (c : BitVec 16) (b : Byte) : BitVec 16 :=
  let c := c ^^^ (b.setWidth 16 <<< 8)
  crcBit (crcBit (crcBit (crcBit (crcBit (crcBit (crcBit (crcBit c)))))))

/-- CRC-16 of the desk line and the panel links (The Desk Line): initial value 0xFFFF. -/
def crc16 (bs : List Byte) : BitVec 16 := bs.foldl crcByte 0xFFFF#16

end Sys2Proof.Machine
end

