-- ==== Sys2Proof/Machine/Frames.lean ====
section
/-! DEFINITION. The frames the part sends, byte by byte: desk frames (R183) and panel link frames
(R184), as Record and Frame Formats lays them out. Received desk frames are checked in
Machine/Desk.lean. -/

namespace Sys2Proof.Machine

/-- The start byte of a desk frame. -/
def deskStart : Byte := 0x7E#8

/-- The sync byte of a panel frame. -/
def panelSync : Byte := 0xC5#8

/-- Kind codes of part-to-desk frames (Desk frames). -/
def DeskMsg.kindCode : DeskMsg → Nat
  | .holdOk .. => 0x81 | .holdRefused .. => 0x82 | .extended .. => 0x83
  | .extendRefused .. => 0x84 | .released .. => 0x85 | .releaseRefused .. => 0x86
  | .holdEnded .. => 0x87 | .showStatus .. => 0x88 | .noticeTaken .. => 0x89
  | .noticeRefused .. => 0x8A | .noticeEnded .. => 0x8B | .busy => 0x8C
  | .rejected .. => 0x8D | .pause .. => 0x8E

/-- Bodies of part-to-desk frames (Desk frames). -/
def DeskMsg.body : DeskMsg → List Byte
  | .holdOk ref i code seats left =>
      leBytes 2 ref ++ leBytes 1 i ++ leBytes 4 code ++ leBytes 1 seats ++ leBytes 2 left
  | .holdRefused r i avail => leBytes 1 r.code ++ leBytes 1 i ++ leBytes 2 avail
  | .extended ref left more => leBytes 2 ref ++ leBytes 2 left ++ leBytes 1 more
  | .extendRefused ref r => leBytes 2 ref ++ leBytes 1 r.code
  | .released ref i seats => leBytes 2 ref ++ leBytes 1 i ++ leBytes 1 seats
  | .releaseRefused ref r => leBytes 2 ref ++ leBytes 1 r.code
  | .holdEnded ref i code seats r =>
      leBytes 2 ref ++ leBytes 1 i ++ leBytes 4 code ++ leBytes 1 seats ++ leBytes 1 r.code
  | .showStatus i code st avail band seats plus oversold =>
      leBytes 1 i ++ leBytes 4 code ++ leBytes 1 st.code ++ leBytes 2 avail ++ leBytes 1 band.code
        ++ leBytes 2 seats ++ leBytes 1 (plus.toNat + 2 * oversold.toNat)
  | .noticeTaken ref pr col cla tru =>
      leBytes 2 ref ++ leBytes 1 pr ++ leBytes 1 (col.toNat + 2 * cla.toNat + 4 * tru.toNat)
  | .noticeRefused r field => leBytes 1 r.code ++ leBytes 1 field
  | .noticeEnded ref topic r aired =>
      leBytes 2 ref ++ leBytes 1 topic ++ leBytes 1 r.code ++ leBytes 2 aired
  | .busy => []
  | .rejected r kind => leBytes 1 r.code ++ [kind]
  | .pause t => leBytes 2 t

/-- The bytes a desk frame's CRC covers: length, kind, sequence number and body (The Desk Line). -/
def deskCovered (kind : Nat) (seq : Byte) (body : List Byte) : List Byte :=
  leBytes 1 (body.length + 2) ++ leBytes 1 kind ++ [seq] ++ body

/-- The bytes of a frame to a desk, start byte first, the CRC low byte first (R183). -/
def deskFrameBytes (f : DeskFrame) : List Byte :=
  let covered := deskCovered f.msg.kindCode f.seq f.msg.body
  [deskStart] ++ covered ++ leBytes 2 (crc16 covered).toNat

/-- Type codes of panel frames (Panel link frames). -/
def PanelFrame.typeCode : PanelFrame → Nat
  | .pageBegin .. => 0x10 | .row _ => 0x11 | .rowUpdate _ => 0x12 | .clipData .. => 0x20
  | .holdFrame .. => 0x21 | .strip .. => 0x30 | .stripClear => 0x31 | .house _ => 0x40
  | .takeoverBegin => 0x50 | .takeoverEnd => 0x51

/-- The payload of a ROW or ROW_UPDATE. -/
def RowData.bytes (r : RowData) : List Byte :=
  leBytes 1 r.showIx ++ leBytes 2 r.titleCode ++ leBytes 1 r.auditorium ++ leBytes 4 r.start
    ++ leBytes 1 r.stateCode ++ leBytes 1 r.band.code ++ leBytes 2 r.seatsShown
    ++ leBytes 1 r.plusMarker.toNat

/-- The card show byte of a content: 0 for a text. -/
def Content.cardShow : Content → Nat
  | .text _ => 0
  | .card _ i => i.val

/-- The text of a content: empty for a card. -/
def Content.chars : Content → List Byte
  | .text t => t
  | .card _ _ => []

/-- Payloads of panel frames (Panel link frames, R184). -/
def PanelFrame.payload : PanelFrame → List Byte
  | .pageBegin page pages rows => leBytes 1 page ++ leBytes 1 pages ++ leBytes 1 rows
  | .row r | .rowUpdate r => r.bytes
  | .clipData seg last off bytes =>
      leBytes 1 seg ++ leBytes 1 last.toNat ++ leBytes 4 off ++ bytes
  | .holdFrame seg off => leBytes 1 seg ++ leBytes 4 off
  | .strip ref cls content =>
      leBytes 2 ref ++ leBytes 1 cls ++ leBytes 1 content.kindCode ++ leBytes 1 content.cardShow
        ++ leBytes 1 content.chars.length ++ content.chars
  | .house card => [card]
  | .stripClear | .takeoverBegin | .takeoverEnd => []

/-- The bytes of a panel frame, sync byte first (R184). -/
def panelFrameBytes (f : PanelFrame) : List Byte :=
  let covered := leBytes 1 f.typeCode ++ leBytes 2 f.payload.length ++ f.payload
  [panelSync] ++ covered ++ leBytes 2 (crc16 covered).toNat

end Sys2Proof.Machine
end

