-- ==== Sys2Proof/Machine/Mirror.lean ====
section
/-! DEFINITION. Mirror records: their places in the mirror area and their bytes, worked out from the
state at the end of the event that hands them (R167, R182). -/

namespace Sys2Proof.Machine

/-- Offset of a record in the mirror area (Mirror records). -/
def MirrorId.offset : MirrorId → Nat
  | .showRec i => 32 * i.val
  | .hold i => 2048 + 16 * i.val
  | .feature i => 5120 + 32 * i.val
  | .display i => 6144 + 32 * i.val
  | .notice i => 6656 + 160 * i.val
  | .fault .severe => 22016
  | .fault .minor => 22016 + 48

/-- Size of a record (Mirror records). -/
def MirrorId.size : MirrorId → Nat
  | .showRec _ | .feature _ | .display _ => 32
  | .hold _ => 16
  | .notice _ => 160
  | .fault _ => 48

/-- Place of a record's version in `WindowIf.versions`: the group order of R167. -/
def MirrorId.index : MirrorId → Fin 402
  | .showRec i => ⟨i.val, by omega⟩
  | .hold i => ⟨64 + i.val, by omega⟩
  | .feature i => ⟨256 + i.val, by omega⟩
  | .display i => ⟨288 + i.val, by omega⟩
  | .notice i => ⟨304 + i.val, by omega⟩
  | .fault .severe => 400
  | .fault .minor => 401

/-- Every record, group by group in the order of the mirror area (R167). -/
def allMirrors : List MirrorId :=
  (List.finRange 64).map .showRec ++ (List.finRange 192).map .hold
    ++ (List.finRange 32).map .feature ++ (List.finRange 16).map .display
    ++ (List.finRange 96).map .notice ++ [.fault .severe, .fault .minor]

/-- The show record's bytes but for its version (R182). -/
def showMirror (sh : ShowRec) : List Byte :=
  leBytes 4 sh.showCode ++ leBytes 4 sh.start ++ leBytes 4 (sh.saleOpen.getD sh.start)
    ++ leBytes 2 sh.titleCode ++ leBytes 2 sh.capacity ++ leBytes 2 sh.sold ++ leBytes 2 sh.held
    ++ leBytes 2 sh.blocked ++ leBytes 2 sh.avail ++ leBytes 2 sh.seatsShown
    ++ leBytes 1 (sh.auditorium + 32 * sh.bandSet.val + 128 * sh.plusMarker.toNat)
    ++ leBytes 1 ((sh.feature.map (·.val)).getD 0 + 32 * sh.feature.isSome.toNat
        + 64 * sh.oversold.toNat + 128 * sh.clockWait.toNat)
    ++ leBytes 1 (sh.state.code + 8 * (sh.savedState.map (·.code)).getD 0
        + 64 * sh.soldoutAsked.toNat)
    ++ leBytes 1 (sh.band.code + 8 * sh.flags.code)

/-- The hold record's bytes but for its version (R42, R182): zeros beside the reference while free. -/
def holdMirror (i : HoldIx) (sl : HoldSlot) : List Byte :=
  match sl.hold with
  | none => padTo 14 (leBytes 2 (mkRef sl.gen i.val))
  | some h =>
    leBytes 2 (mkRef sl.gen i.val) ++ leBytes 1 (1 + 2 * h.extensionsUsed)
      ++ leBytes 1 (h.desk.val + 1) ++ leBytes 1 h.showIx ++ leBytes 1 h.seats
      ++ leBytes 4 h.expiry ++ leBytes 4 h.placedSeq

/-- The feature record's bytes but for its version (R182). -/
def featureMirror (f : FeatureRec) : List Byte :=
  padTo 30
    (leBytes 1 (f.state.code + 8 * f.truncated.toNat + 16 * f.rejectReason.code)
      ++ leBytes 1 (f.weight + 16 * f.formatClass) ++ leBytes 8 f.clipLocation
      ++ leBytes 4 f.byteRate ++ leBytes 4 f.totalBytes ++ leBytes 2 f.chunkCount
      ++ leBytes 2 f.duration ++ leBytes 1 f.rejectDetail ++ leBytes 1 f.validationNo
      ++ leBytes 2 (unsignedInt 2 f.credit) ++ leBytes 1 f.lastE ++ leBytes 1 f.streamingCount
      ++ leBytes 2 f.plays)

/-- The loop's slot kinds: slot i in bits 2i..2i+1. -/
def loopKinds : List LoopSlot → Nat
  | [] => 0
  | k :: rest => k.code + 4 * loopKinds rest

/-- The card of the HOUSE segment on air, else 0 (R182). -/
def houseCardOnAir (d : DisplayRec) : Nat :=
  match d.segment, d.setup.loop[d.loopPos]? with
  | .house, some (.house card) => card.toNat
  | _, _ => 0

/-- The reference of a notice slot as it stands. -/
def noticeRef (s : State) (i : NoticeIx) : Nat := mkRef s.arb.slots[i].gen i.val

/-- The display record's bytes but for its version: the Display Controller's fields, the Notice
Arbiter's arbitration summary (R92) and the Stream Engine's stream summary (R145). -/
def displayMirror (s : State) (i : DisplayIx) : List Byte :=
  let d := s.displays.recs[i]
  let a := s.arb.recs[i]
  let r := s.stream.recs[i]
  leBytes 1 d.setup.tag.toNat ++ leBytes 3 d.setup.auditoriumMask.toNat
    ++ leBytes 1 (d.setup.loop.length + 16 * d.setup.rowsPerPage)
    ++ leBytes 1 d.setup.boardDwell ++ leBytes 1 d.setup.houseDwell ++ leBytes 1 d.setup.floor
    ++ leBytes 1 d.setup.formatMask.toNat ++ leBytes 1 d.setup.lowMark
    ++ leBytes 1 d.setup.highMark ++ leBytes 3 (loopKinds d.setup.loop)
    ++ leBytes 1 (d.state.code + 8 * d.linkUp.toNat + 16 * d.suspended.toNat)
    ++ leBytes 1 (d.loopPos + 16 * d.segment.code) ++ leBytes 1 d.segmentNo
    ++ leBytes 1 (d.feature.val + 32 * r.phase.code) ++ leBytes 1 (d.page.getD 255)
    ++ leBytes 1 d.pages ++ leBytes 1 (houseCardOnAir d)
    ++ leBytes 2 ((a.stack.head?.map (noticeRef s)).getD 0xFFFF)
    ++ leBytes 1 (a.stack.length + 128 * a.takeover.toNat) ++ leBytes 1 a.pending.length
    ++ leBytes 1 0 ++ leBytes 2 r.underrunCount ++ leBytes 2 s.stream.links[i].dropped

/-- Notice slot state codes of a notice in use: LIVE 1, UNPLACED 2. -/
def Notice.stateCode (n : Notice) : Nat :=
  match n.mode, n.placed with
  | .anyOne, none => 2
  | _, _ => 1

/-- The notice record's bytes but for its version: zeros beside the reference while free
(Notices and Their Addressing). -/
def noticeMirror (i : NoticeIx) (sl : NoticeSlot) : List Byte :=
  match sl.notice with
  | none => padTo 158 (leBytes 2 (mkRef sl.gen i.val))
  | some n =>
    padTo 158
      (leBytes 2 (mkRef sl.gen i.val)
        ++ leBytes 1 (n.stateCode + 16 * n.mode.code + 32 * n.truncated.toNat)
        ++ leBytes 1 n.origin.code ++ leBytes 1 n.topic ++ leBytes 1 n.priority
        ++ leBytes 1 (classOf n.priority) ++ leBytes 1 n.target.kind.code ++ [n.target.value]
        ++ leBytes 1 ((n.bound.map (·.val)).getD 255) ++ leBytes 1 ((n.placed.map (·.val)).getD 255)
        ++ leBytes 1 n.content.kindCode ++ leBytes 1 n.content.cardShow
        ++ leBytes 1 n.content.chars.length ++ leBytes 2 n.duration ++ leBytes 4 (n.expiry.getD 0)
        ++ leBytes 4 n.postSeq ++ leBytes 2 n.aired ++ n.content.chars)

/-- A cause set as bits, bit c for code c. -/
def causeBits (cs : List FaultCause) : Nat :=
  (allCauses.filter (cs.contains ·)).foldl (fun n c => n + 2 ^ c.code.val) 0

/-- The fault record's bytes but for its version (R178, R182). -/
def faultMirror (r : SeverityRec) : List Byte :=
  let head :=
    match r.first with
    | none => padTo 28 []
    | some f =>
      leBytes 1 1 ++ leBytes 1 f.cause.code.val ++ leBytes 1 f.source.kindCode ++ leBytes 1 0
        ++ leBytes 2 f.source.number ++ leBytes 2 0 ++ leBytes 4 f.lobbyTime ++ padTo 16 f.capture
  padTo 46 (head ++ leBytes 2 (causeBits r.causes) ++ leBytes 2 r.count)

/-- A record's bytes but for its version, from the state as it stands (R182). -/
def mirrorBody (s : State) : MirrorId → List Byte
  | .showRec i => padTo 30 (showMirror s.shows.recs[i])
  | .hold i => holdMirror i s.shows.holds[i]
  | .feature i => featureMirror s.air.features[i]
  | .display i => displayMirror s i
  | .notice i => noticeMirror i s.arb.slots[i]
  | .fault .severe => faultMirror s.faults.severe
  | .fault .minor => faultMirror s.faults.minor

end Sys2Proof.Machine
end

