-- ==== Sys2Proof/Machine/Ops.lean ====
section
/-! DEFINITION. The named operations the meanings share: host memory, raising a fault, the write
path, the read engine, ending a journal entry, messages to desks and frames to panels. -/

namespace Sys2Proof.Machine

/-! ## Host memory -/

/-- The byte the part last wrote at an address; none where it has written none. An address not
listed reads as none, so every listed entry differs from what an unlisted address reads as. -/
def Memory.read : Memory → Nat → Option Byte
  | [], _ => none
  | c :: rest, a => if c.1 = a then some c.2 else Memory.read rest a

/-- The memory with one byte written, its addresses strictly rising. -/
def Memory.write : Memory → Nat → Byte → Memory
  | [], a, b => [(a, b)]
  | c :: rest, a, b =>
    if a < c.1 then (a, b) :: c :: rest
    else if a = c.1 then (a, b) :: rest
    else c :: Memory.write rest a b

/-- Every address of the memory is above `a`, and addresses rise strictly. -/
def Memory.risesFrom : Option Nat → Memory → Bool
  | _, [] => true
  | low, c :: rest => low.all (· < c.1) && Memory.risesFrom (some c.1) rest

/-- The canonical form: addresses strictly rising. -/
def Memory.wf (m : Memory) : Bool := Memory.risesFrom none m

/-- Consecutive bytes written from an address up. -/
def Memory.writeBytes : Memory → Nat → List Byte → Memory
  | m, _, [] => m
  | m, a, b :: rest => Memory.writeBytes (m.write a b) (a + 1) rest

/-- The parts of a window write, in the order written (R166, R182). -/
def Memory.writeParts : Memory → List (Nat × List Byte) → Memory
  | m, [] => m
  | m, p :: rest => Memory.writeParts (m.writeBytes p.1 p.2) rest

/-! ## Outcomes of a command -/

/-- The next state of a command that carries operands: a term that is no command of the part
(`Instr.wellFormed`) is refused by name. -/
def answer (c : Instr) (t : State) : Host.Outcome State Fault Refusal :=
  if c.wellFormed then .next t else .refused .illFormed

/-- Lobby seconds, or 0 while UNSET (R164, R175). -/
def lobbyStamp (s : State) : Nat := s.clock.lobby.getD 0

/-- The first member of a list that `p` names, and the list without it. -/
def takeFirst {α : Type} (p : α → Bool) : List α → Option (α × List α)
  | [] => none
  | x :: rest =>
    if p x then some (x, rest)
    else
      match takeFirst p rest with
      | some (y, others) => some (y, x :: others)
      | none => none

/-! ## Faults -/

/-- A raise sent to the Fault Unit (R174). -/
def raise (who : Raiser) (cause : FaultCause) (source : FaultSource) (capture : List Byte)
    (s : State) : State :=
  { s with bus := { s.bus with raises := s.bus.raises ++ [(who, ⟨cause, source, capture⟩)] } }

/-! ## The write path -/

/-- A write placed in the queue: it replaces a queued write of the same target in its place, and
otherwise goes to the tail (R166). -/
def placeIn (w : WindowWrite) : List WindowWrite → List WindowWrite
  | [] => [w]
  | x :: rest => if x.target = w.target then w :: rest else x :: placeIn w rest

/-- A write of this target is queued. -/
def isQueued (t : WriteTarget) (q : List WindowWrite) : Bool := q.any (·.target == t)

/-- A write placed on the write path; while window_valid is clear it is not queued (R166). -/
def placeWrite (w : WindowWrite) (s : State) : State :=
  if s.win.windowValid then { s with win := { s.win with writeQ := placeIn w s.win.writeQ } }
  else s

/-- The window base address as a number. -/
def windowBase (s : State) : Nat := s.win.windowBase.toNat

/-- The bytes of an anchor word, from the state as it stands (The anchor; R2). -/
def anchorBytes (s : State) : AnchorWord → List Byte
  | .takeMark => leBytes 4 s.win.takeMark
  | .lobbyNow => leBytes 4 (lobbyStamp s)
  | .partNow => leBytes 4 s.clock.partSeconds
  | .clockSet => leBytes 1 s.clock.lobby.isSome.toNat
  | .runEcho => leBytes 1 s.win.runState.code
  | .mirrorGen => leBytes 4 s.win.mirrorGen

/-- An anchor word placed on the write path. -/
def placeAnchor (a : AnchorWord) (s : State) : State :=
  placeWrite ⟨.anchor a, [(windowBase s + a.offset, anchorBytes s a)], false⟩ s

/-- The version a mirror write placed now carries: that of a queued write it replaces, otherwise
one more (R167); so too at a full write (log entry 71). -/
def nextVersion (id : MirrorId) (s : State) : Nat :=
  let v := s.win.versions[id.index]
  if isQueued (.mirror id) s.win.writeQ then v else (v + 1) % 65536

/-- A record handed to the mirror writer: its whole bytes, its version last, go on the write path
(R167). While window_valid is clear nothing is queued, and the next full write carries it. At a full
write, a write of the same record still queued from before is replaced in its place and its version
stays (log entry 71). -/
def handMirror (id : MirrorId) (s : State) : State :=
  if s.win.windowValid then
    let v := nextVersion id s
    let a := windowBase s + s.win.geometry.mirrorOffset + id.offset
    let w : WindowWrite :=
      ⟨.mirror id, [(a, mirrorBody s id), (a + id.size - 2, leBytes 2 v)], false⟩
    { s with
      win := { s.win with
        writeQ := placeIn w s.win.writeQ
        versions := put s.win.versions id.index v } }
  else s

/-- Several records handed, in order. -/
def handAll (ids : List MirrorId) (s : State) : State := ids.foldl (fun s id => handMirror id s) s

/-! ## The run state -/

/-- A change of run state and stall cause: the poll timer runs only while RUNNING, from a full
poll_interval at entry, and the run echo is placed when the run state changes (R161). -/
def setRunState (r : RunState) (c : StallCause) (s : State) : State :=
  if s.win.runState = r then { s with win := { s.win with stallCause := c } }
  else
    placeAnchor .runEcho
      { s with
        win := { s.win with
          runState := r
          stallCause := c
          stopping := false
          pollTimer := if r = .running then some s.win.cfg.window.pollInterval else none } }

/-- An entry whose read or text read is outstanding (R163, R165). -/
def unread (f : Flight) : Bool := f.phase == .reading || f.phase == .text

/-- The session advances: control reads of the old session are void, and an entry whose read or
text read is outstanding is abandoned, to be read again (R159, R163, R165; log entry 80). -/
def advanceSession (s : State) : State :=
  { s with
    win := { s.win with
      session := (s.win.session + 1) % 256
      anchorRead := none
      markRead := none
      flight := s.win.flight.filter (!unread ·) } }

/-! ## The read engine -/

/-- The lowest free read slot; the manual names no order among free slots (log entry 50). -/
def freeReadSlot (e : ReadEngine) : Option ReadSlot :=
  (List.finRange 32).find? fun i => e.slots[i].isNone

/-- A read request: it takes a free slot at once, or joins the wait queue (R146). -/
def issueRead (r : Read) (s : State) : State :=
  match freeReadSlot s.reads with
  | some i => { s with reads := { s.reads with slots := put s.reads.slots i (some r) } }
  | none => { s with reads := { s.reads with queue := s.reads.queue ++ [r] } }

/-- A read slot is freed; the head of the wait queue takes it (R146). -/
def freeRead (i : ReadSlot) (s : State) : State :=
  { s with
    reads := { slots := put s.reads.slots i s.reads.queue.head?, queue := s.reads.queue.tail } }

/-- The host address of the entry in a journal slot (R164). -/
def entryAddress (s : State) (slot : Nat) : Nat :=
  windowBase s + s.win.geometry.journalOffset + 64 * slot

/-- The anchor read of a start or recovery (R162, R165). -/
def issueAnchorRead (s : State) : State :=
  issueRead ⟨.anchor s.win.session, windowBase s, 256, false⟩ s

/-- The read of the publish mark (R163). -/
def issueMarkRead (s : State) : State :=
  issueRead ⟨.publishMark s.win.session, windowBase s + 16, 4, false⟩ s

/-- The read of the entry in flight (R164). -/
def issueEntryRead (f : Flight) (s : State) : State :=
  issueRead ⟨.entry s.win.session, entryAddress s f.slot, 64, false⟩ s

/-- The text characters a NOTICE_POST keeps (R80). -/
def textTaken (f : Flight) : Nat := min (postTextLength (entryBody f.bytes)) maxText

/-- The read of the text of the entry in flight (R80). -/
def issueTextRead (f : Flight) (s : State) : State :=
  issueRead
    ⟨.text s.win.session, windowBase s + postTextOffset (entryBody f.bytes), textTaken f, false⟩ s

/-- The next entry is read when the part is RUNNING, none is in flight and T differs from P (R164). -/
def readNext (s : State) : State :=
  if s.win.runState = .running ∧ s.win.stopping = false ∧ s.win.flight = none
      ∧ s.win.takeMark ≠ s.win.publishMark then
    let f : Flight := { slot := s.win.takeMark % s.win.geometry.capacity }
    issueEntryRead f { s with win := { s.win with flight := some f } }
  else s

/-! ## Journal entries -/

/-- The entry handed to its owner and not yet taken, where it is of kind `k` (R164). -/
def handedEntry (k : EntryKind) (s : State) : Option Flight :=
  s.win.flight.filter fun f =>
    f.phase == .handed && !f.taken && entryKind (byteAt f.bytes 0).toNat == some k

/-- The outcome write of an entry: bytes 4..11, and bytes 16..35 for DESK_PORT (R181). -/
def outcomeWrite (s : State) (f : Flight) (o : EntryOutcome) : WindowWrite :=
  let a := entryAddress s f.slot
  ⟨.outcome,
    (a + 4, leBytes 1 o.code.code ++ leBytes 1 0 ++ leBytes 2 o.detail ++ leBytes 4 f.stamp)
      :: (if o.writeBack = [] then [] else [(a + 16, o.writeBack)]),
    false⟩

/-- The entry in flight gets its outcome, and its outcome write goes on the write path behind every
write placed before (R164, R166). With window_valid clear the write is dropped and the entry is no
longer in flight (log entry 12). The write goes to the journal slot the entry was read from, by the
geometry as it stands, that of a later start too (log entry 70). -/
def finishWith (o : EntryOutcome) (s : State) : State :=
  match s.win.flight with
  | none => s
  | some f =>
    if s.win.windowValid then
      placeWrite (outcomeWrite s f o)
        { s with
          win := { s.win with
            flight := some { f with phase := .writing, taken := true, awaiting := [],
                                    outcome := some o } } }
    else { s with win := { s.win with flight := none } }

/-- The entry in flight ends with an outcome code and detail. -/
def finish (code : OutcomeCode) (detail : Nat) (s : State) : State := finishWith ⟨code, detail, []⟩ s

/-- The entry in flight is refused where the manual states no detail: the detail is a free value
(log entry 2). -/
def finishOpen (code : OutcomeCode) (s : State) : State :=
  finish code (Config.freeDetail s.freeCount).toNat { s with freeCount := s.freeCount + 1 }

/-- An entry of kind `k` taken by its owner: `act` on its body where one is handed; where none is,
the event is not there and nothing happens (log entry 6). -/
def takeEntry (k : EntryKind) (act : Flight → State → State) (s : State) : State :=
  match handedEntry k s with
  | some f => act f s
  | none => s

/-- The entry in flight marked as taken by its owner, its outcome still to come. -/
def withTaken (f : Flight) (s : State) : State :=
  { s with win := { s.win with flight := some { f with taken := true } } }

/-! ## Messages to desks -/

/-- A port changed in place. -/
def withPort (d : DeskIx) (f : Port → Port) (s : State) : State :=
  { s with desks := { s.desks with ports := put s.desks.ports d (f s.desks.ports[d]) } }

/-- The transmitter of an ENABLED port that has nothing in transmission takes the head of its reply
queue (R69). -/
def Port.kick (p : Port) : Port :=
  match p.state, p.tx, p.replyQ with
  | .enabled, none, f :: rest => { p with tx := some f, replyQ := rest }
  | _, _, _ => p

/-- A message for a desk is lost: counted, with its fault (R69). -/
def loseFrame (d : DeskIx) (f : DeskFrame) (s : State) : State :=
  raise .deskLine .deskReplyLost (.desk (d.val + 1)) (padTo 16 (deskFrameBytes f))
    (withPort d (fun p => { p with counters := { p.counters with
      lost := sat16 (p.counters.lost + 1) } }) s)

/-- A frame queued at the tail of a reply queue (R69). -/
def Port.enqueue (f : DeskFrame) (p : Port) : Port := { p with replyQ := p.replyQ ++ [f] }.kick

/-- A message handed to the Desk Line Controller for a desk (R69). -/
def sendDesk (d : DeskIx) (seq : Byte) (m : DeskMsg) (s : State) : State :=
  let p := s.desks.ports[d]
  if p.state = .enabled ∧ p.replyQ.length < replyCapacity then
    withPort d (Port.enqueue ⟨seq, m⟩) s
  else loseFrame d ⟨seq, m⟩ s

/-- BUSY: not sent and not counted where an ENABLED port's queue is full (R64). -/
def sendBusy (d : DeskIx) (seq : Byte) (s : State) : State :=
  let p := s.desks.ports[d]
  if p.state = .enabled ∧ ¬ p.replyQ.length < replyCapacity then s
  else sendDesk d seq .busy s

/-- A frame is a PAUSE. -/
def DeskFrame.isPause (f : DeskFrame) : Bool :=
  match f.msg with
  | .pause _ => true
  | _ => false

/-- A PAUSE placed on an ENABLED port, ahead of every queued reply (R70). A waiting PAUSE stands at
the head and is replaced; a full queue of replies loses its oldest. -/
def placePause (time : Nat) (d : DeskIx) (s : State) : State :=
  let p := s.desks.ports[d]
  let f : DeskFrame := ⟨0, .pause time⟩
  let set (q : List DeskFrame) : State := withPort d (fun p => { p with replyQ := f :: q }.kick) s
  if p.state ≠ .enabled then s
  else
    match p.replyQ with
    | [] => set []
    | h :: rest =>
      if h.isPause then set rest
      else if p.replyQ.length < replyCapacity then set p.replyQ
      else loseFrame d h (set rest)

/-- PAUSE placed on every ENABLED port (R66, R67). The manual names no order among the ports: the model goes
in port order, and displaced replies raise DESK_REPLY_LOST in it (log entry 58). -/
def pauseAll (time : Nat) (s : State) : State :=
  (List.finRange 8).foldl (fun s d => placePause time d s) s

/-- The request in hand, where it is of kind `k` (R65). -/
def requestInHand (k : DeskKind) (s : State) : Option IntakeEntry :=
  s.desks.inHand.filter (·.kind == k)

/-- A request of kind `k` taken by its owner: it leaves the hand, then `act` (R65). Where none is in
hand the event is not there and nothing happens (log entry 6). -/
def takeRequest (k : DeskKind) (act : IntakeEntry → State → State) (s : State) : State :=
  match requestInHand k s with
  | some e => act e { s with desks := { s.desks with inHand := none } }
  | none => s

/-! ## Frames to panels -/

/-- A transmitter that is idle takes the head of its control queue, otherwise the waiting clip
frame (R157). -/
def PanelLink.kick (l : PanelLink) : PanelLink :=
  match l.tx, l.control, l.clip with
  | none, f :: rest, _ => { l with tx := some f, control := rest }
  | none, [], some f => { l with tx := some f, clip := none }
  | _, _, _ => l

/-- A control frame queued; a full queue discards it and counts it (R157). -/
def PanelLink.enqueue (f : PanelFrame) (l : PanelLink) : PanelLink :=
  if l.control.length < controlCapacity then { l with control := l.control ++ [f] }.kick
  else { l with dropped := sat16 (l.dropped + 1) }

/-- A panel link changed in place. -/
def withLink (d : DisplayIx) (f : PanelLink → PanelLink) (s : State) : State :=
  { s with stream := { s.stream with links := put s.stream.links d (f s.stream.links[d]) } }

/-- A frame handed to a panel link; while the link is down it is discarded without count (R157). -/
def sendPanel (d : DisplayIx) (f : PanelFrame) (s : State) : State :=
  if s.displays.recs[d].linkUp then withLink d (PanelLink.enqueue f) s else s

/-- Frames handed to a panel link, in order. -/
def sendPanels (d : DisplayIx) (fs : List PanelFrame) (s : State) : State :=
  fs.foldl (fun s f => sendPanel d f s) s

/-- A clip frame handed to a panel link (R153, R157). -/
def sendClip (d : DisplayIx) (f : PanelFrame) (s : State) : State :=
  if s.displays.recs[d].linkUp then withLink d (fun l => { l with clip := some f }.kick) s else s

/-! ## Display mirror records -/

/-- An event has changed a display's record (R129), its stack, pending set or takeover flag (R92),
or its phase, underrun_count or dropped-frame count (R145). -/
def displayChanged (before after : State) (d : DisplayIx) : Bool :=
  before.displays.recs[d] != after.displays.recs[d]
    || before.arb.recs[d].stack != after.arb.recs[d].stack
    || before.arb.recs[d].pending != after.arb.recs[d].pending
    || before.arb.recs[d].takeover != after.arb.recs[d].takeover
    || before.stream.recs[d].phase != after.stream.recs[d].phase
    || before.stream.recs[d].underrunCount != after.stream.recs[d].underrunCount
    || before.stream.links[d].dropped != after.stream.links[d].dropped

/-- The mirror record of display `d` handed at the end of an event that changed it. -/
def settleDisplay (before : State) (d : DisplayIx) (after : State) : State :=
  if displayChanged before after d then handMirror (.display d) after else after

/-- The mirror records of the displays an event changed, in index order. -/
def settleDisplays (before after : State) : State :=
  (List.finRange 16).foldl (fun s d => settleDisplay before d s) after

/-! ## Retry waits -/

/-- A retry wait drawn from the LFSR at the n-th failure. -/
def drawWait (r : RetrySettings) (n : Nat) (s : State) : Nat := retryWait s.stream.lfsr r n

end Sys2Proof.Machine
end

