-- ==== Sys2Proof/Machine/Airtime.lean ====
section
/-! DEFINITION. The Airtime Scheduler: FEATURE_LOAD, FEATURE_WEIGHT, FEATURE_DROP, AIRTIME_RESET, the
validation reads, DECISION and RELEASE_REPORT (R110 to R126). -/

namespace Sys2Proof.Machine

/-! ## Feature records -/

/-- A feature record replaced. -/
def setFeature (f : FeatureIx) (r : FeatureRec) (s : State) : State :=
  { s with air := { s.air with features := put s.air.features f r } }

/-- The mirror record of feature `f` handed at the end of an event that changed it (R110). -/
def settleFeature (before : State) (f : FeatureIx) (s : State) : State :=
  if before.air.features[f] ≠ s.air.features[f] then handMirror (.feature f) s else s

/-- The mirror records of the features an event changed, in index order (R110). -/
def settleFeatures (before s : State) : State :=
  (List.finRange 32).foldl (fun s f => settleFeature before f s) s

/-- Every last_trailer that names a feature becomes absent (R110, R112). -/
def forgetTrailer (f : FeatureIx) (s : State) : State :=
  { s with
    air := { s.air with
      lastTrailer := s.air.lastTrailer.map fun t => if t = some f then none else t } }

/-- A slot that becomes EMPTY: it keeps validation_no alone (R110). -/
def emptyFeature (f : FeatureIx) (s : State) : State :=
  forgetTrailer f (setFeature f { validationNo := s.air.features[f].validationNo } s)

/-- The feature index of an entry; BAD_INDEX beyond 31. -/
def withFeature (x : Flight) (act : FeatureIx → State → State) (s : State) : State :=
  match indexOf? 32 (fieldAt (entryBody x.bytes) 0 1) with
  | none => finishOpen .badIndex s
  | some f => act f s

/-! ## FEATURE_LOAD -/

/-- A slot may take a load (R111). -/
def mayLoad (r : FeatureRec) : Bool :=
  match r.state with
  | .empty | .rejected => true
  | .ready | .faulted => r.streamingCount == 0
  | .validating | .draining => false

/-- The header read of a feature's validation (R113). -/
def issueHeaderRead (f : FeatureIx) (s : State) : State :=
  let r := s.air.features[f]
  issueRead ⟨.header f r.validationNo, r.clipLocation, 32, false⟩ s

/-- Descriptors of the chunk list piece that begins at chunk `first` (R113). -/
def pieceSize (r : FeatureRec) (first : Nat) : Nat := min 64 (r.chunkCount - first)

/-- The read of the chunk list piece that begins at chunk `first` (R113). The address is a sum that does
not wrap (log entry 36). -/
def issuePieceRead (f : FeatureIx) (first : Nat) (s : State) : State :=
  let r := s.air.features[f]
  issueRead
    ⟨.piece f r.validationNo first, r.clipLocation + 32 + 16 * first, 16 * pieceSize r first, false⟩
    s

/-- A slot loaded, and its validation begun (R112). -/
def loadFeature (f : FeatureIx) (weight location : Nat) (s : State) : State :=
  let no := (s.air.features[f].validationNo + 1) % 256
  let s := setFeature f
    { state := .validating, weight := weight, clipLocation := location, validationNo := no,
      validation := some {} } (forgetTrailer f s)
  finish .accepted f.val (handMirror (.feature f) (issueHeaderRead f s))

/-- FEATURE_LOAD (R111, R112). -/
def execFeatureLoad (s : State) : Host.Outcome State Fault Refusal :=
  .next <| takeEntry .featureLoad (fun x => withFeature x fun f s =>
    let b := entryBody x.bytes
    if !mayLoad s.air.features[f] then finish .inUse s.air.features[f].state.code s
    else if 15 < fieldAt b 1 1 then finish .badField 1 s
    else if fieldAt b 8 8 % 16 ≠ 0 then finish .badField 2 s
    else loadFeature f (fieldAt b 1 1) (fieldAt b 8 8) s) s

/-! ## Validation -/

/-- The validation of `f` that a read belongs to is still the slot's (R116). -/
def validating (s : State) (f : FeatureIx) (no : Nat) : Bool :=
  s.air.features[f].state == .validating && s.air.features[f].validationNo == no

/-- A validation ended REJECTED (R113 to R115). -/
def rejectFeature (f : FeatureIx) (reason : RejectReason) (detail : Nat) (s : State) : State :=
  setFeature f
    { s.air.features[f] with
      state := .rejected, rejectReason := reason, rejectDetail := detail, validation := none } s

/-- The number of the first header field out of range, or 0 (R113). -/
def headerCheck (h : ClipHeader) : Nat :=
  if h.version ≠ 1 then 1
  else if 7 < h.formatClass then 2
  else if ¬ (1 ≤ h.chunkCount ∧ h.chunkCount ≤ 256) then 3
  else if ¬ (1000 ≤ h.byteRate ∧ h.byteRate ≤ 4000000) then 4
  else 0

/-- The header read of a present validation has completed (R113). -/
def headerDone (f : FeatureIx) (bytes : List Byte) (s : State) : State :=
  let h := readClipHeader bytes
  let n := headerCheck h
  let s :=
    if n ≠ 0 then rejectFeature f .headerRange n s
    else
      issuePieceRead f 0
        (setFeature f
          { s.air.features[f] with
            formatClass := h.formatClass, chunkCount := h.chunkCount, byteRate := h.byteRate,
            validation := some { piece := some 0 } } s)
  handMirror (.feature f) s

/-- HEADER_READ_DONE (R113, R116). -/
def execHeaderReadDone (slot : ReadSlot) (bytes : List Byte) (s : State) :
    Host.Outcome State Fault Refusal :=
  answer (.headerReadDone slot bytes) <|
    match s.reads.slots[slot] with
    | some ⟨.header f no, _, _, _⟩ =>
      let t := freeRead slot s
      if validating t f no then headerDone f bytes t else t
    | _ => s

/-- The descriptors of a piece, checked in chunk order from chunk `k` of `count` (R114): the chunks
that pass, as cut, whether one was cut, and the index of the chunk that rejects. -/
def checkChunks (count : Nat) : Nat → List Chunk → List Chunk × Bool × Option Nat
  | _, [] => ([], false, none)
  | k, c :: rest =>
    if (k + 1 ≠ count ∧ c.len < 512) ∨ (k + 1 = count ∧ c.len = 0) then ([], false, some k)
    else
      let r := checkChunks count (k + 1) rest
      (⟨c.addr, min c.len maxChunk⟩ :: r.1, decide (maxChunk < c.len) || r.2.1, r.2.2)

/-- Whole division rounded up. -/
def ceilDiv (a b : Nat) : Nat := (a + b - 1) / b

/-- The last piece has passed: total_bytes and duration, and the validation's end (R114). -/
def finishValidation (f : FeatureIx) (s : State) : State :=
  let r := s.air.features[f]
  let total := (r.chunks.map (·.len)).sum
  let duration := ceilDiv total r.byteRate
  let s := setFeature f { r with totalBytes := total, duration := duration } s
  if duration < 5 ∨ 300 < duration then rejectFeature f .duration 0 s
  else
    setFeature f { s.air.features[f] with state := .ready, credit := 0, validation := none } s

/-- The chunk list piece from chunk `first` of a present validation has completed (R114). -/
def pieceDone (f : FeatureIx) (first : Nat) (bytes : List Byte) (s : State) : State :=
  let r := s.air.features[f]
  let c := checkChunks r.chunkCount first (readDescriptors bytes (pieceSize r first))
  let next := first + pieceSize r first
  let s := setFeature f
    { r with chunks := r.chunks ++ c.1, truncated := r.truncated || c.2.1 } s
  let s :=
    match c.2.2 with
    | some k => rejectFeature f .shortChunk k s
    | none =>
      if next < r.chunkCount then
        issuePieceRead f next
          (setFeature f { s.air.features[f] with validation := some { piece := some next } } s)
      else finishValidation f s
  handMirror (.feature f) s

/-- CHUNK_LIST_PIECE_DONE (R114, R116). -/
def execChunkListPieceDone (slot : ReadSlot) (bytes : List Byte) (s : State) :
    Host.Outcome State Fault Refusal :=
  answer (.chunkListPieceDone slot bytes) <|
    match s.reads.slots[slot] with
    | some ⟨.piece f no first, _, len, _⟩ =>
      if len ≠ bytes.length then s
      else
        let t := freeRead slot s
        if validating t f no then pieceDone f first bytes t else t
    | _ => s

/-- The read of a validation issued again (R115). -/
def reissueValidation (f : FeatureIx) (v : Validation) (s : State) : State :=
  match v.piece with
  | none => issueHeaderRead f s
  | some first => issuePieceRead f first s

/-- The validation of a feature replaced. -/
def setValidation (f : FeatureIx) (v : Validation) (s : State) : State :=
  setFeature f { s.air.features[f] with validation := some v } s

/-- A validation read has failed in its present validation (R115). A failure that only starts a retry changes
no field of the mirror record, and the record is not handed, though R110 counts the end of each
validation read among the events that hand one (log entry 79). -/
def validationFailed (f : FeatureIx) (s : State) : State :=
  match s.air.features[f].validation with
  | none => s
  | some v =>
    let n := v.failures + 1
    if n < s.air.cfg.retry.retryLimit then
      match drawWait s.air.cfg.retry n s with
      | 0 =>
        let v : Validation := { v with failures := n, wait := none }
        reissueValidation f v (setValidation f v s)
      | w => setValidation f { v with failures := n, wait := some w } s
    else
      handMirror (.feature f)
        (raise .airtimeScheduler .memReadControl (.feature f.val) noCapture
          (rejectFeature f .readFailed (v.piece.getD 0) s))

/-- VALIDATION_READ_FAILED (R115, R116). -/
def execValidationReadFailed (slot : ReadSlot) (s : State) : Host.Outcome State Fault Refusal :=
  .next <|
    match s.reads.slots[slot] with
    | some ⟨.header f no, _, _, _⟩ | some ⟨.piece f no _, _, _, _⟩ =>
      let t := freeRead slot s
      if validating t f no then validationFailed f t else t
    | _ => s

/-- VALIDATION_RETRY_EXPIRY (R115, R116): a validation read whose wait has run out is issued
again. -/
def execValidationRetryExpiry (f : FeatureIx) (s : State) : Host.Outcome State Fault Refusal :=
  .next <|
    match s.air.features[f].validation with
    | some v =>
      if s.air.features[f].state = .validating ∧ v.wait = some 0 then
        let v : Validation := { v with wait := none }
        reissueValidation f v (setValidation f v s)
      else s
    | none => s

/-! ## FEATURE_WEIGHT, FEATURE_DROP, AIRTIME_RESET -/

/-- FEATURE_WEIGHT (R117). -/
def execFeatureWeight (s : State) : Host.Outcome State Fault Refusal :=
  .next <| takeEntry .featureWeight (fun x => withFeature x fun f s =>
    let r := s.air.features[f]
    let w := fieldAt (entryBody x.bytes) 1 1
    if r.state = .empty then finishOpen .noRecord s
    else if 15 < w then finish .badField 1 s
    else finish .done r.state.code (settleFeatures s (setFeature f { r with weight := w } s))) s

/-- A drain request sent to the Stream Engine (R118). -/
def requestDrain (f : FeatureIx) (s : State) : State :=
  { s with bus := { s.bus with drainReqs := s.bus.drainReqs ++ [f] } }

/-- What a FEATURE_DROP does to a slot (R118). -/
def dropFeature (f : FeatureIx) (s : State) : State :=
  let r := s.air.features[f]
  match r.state with
  | .empty | .draining => s
  | .validating | .rejected => emptyFeature f s
  | .ready | .faulted =>
    if r.streamingCount = 0 then emptyFeature f s
    else requestDrain f (setFeature f { r with state := .draining } s)

/-- FEATURE_DROP (R118). -/
def execFeatureDrop (s : State) : Host.Outcome State Fault Refusal :=
  .next <| takeEntry .featureDrop (fun x => withFeature x fun f s =>
    let t := settleFeatures s (dropFeature f s)
    finish .done t.air.features[f].state.code t) s

/-- AIRTIME_RESET (R119): every slot's credit, a DRAINING one's too, against R118 (log entry 61). -/
def execAirtimeReset (s : State) : Host.Outcome State Fault Refusal :=
  .next <| takeEntry .airtimeReset (fun _ s =>
    finish .done 0
      (settleFeatures s
        { s with
          air := { s.air with features := s.air.features.map fun r => { r with credit := 0 } } }))
    s

/-! ## The effective weight -/

/-- The scarcity of a band (R120); a FULL show has no boost. -/
def scarcity : Band → Nat
  | .openHouse => 0 | .filling => 1 | .few => 2 | .last => 1 | .full => 0

/-- near, for a lead of start − now (R120). -/
def nearness (window start now : Nat) : Nat :=
  if start ≤ now + window then 2 else if start ≤ now + 3 * window then 1 else 0

/-- The boost m(s) of a show (R120). -/
def boostOf (window now : Nat) (sh : ShowRec) : Nat :=
  if (sh.state = .selling ∨ sh.state = .seating) ∧ sh.band ≠ .full then
    1 + nearness window sh.start now + scarcity sh.band
  else 0

/-- m_f: the largest boost of the shows that name a feature (R121). -/
def bestBoost (s : State) (f : FeatureIx) : Nat :=
  (List.finRange 64).foldl (fun m i =>
    let sh := s.shows.recs[i]
    if sh.feature = some f then max m (boostOf s.air.cfg.nearWindow (lobbyStamp s) sh) else m) 0

/-- e_f (R121). -/
def effective (s : State) (f : FeatureIx) : Nat := s.air.features[f].weight * bestBoost s f

/-! ## The decision -/

/-- A credit limited to its range (R123). -/
def clampCredit (c : Int) : Int := max (-4096) (min 4095 c)

/-- A feature's format class is one of a mask's (R121). -/
def formatMatches (mask : Byte) (r : FeatureRec) : Bool := mask.getLsbD r.formatClass

/-- Every last_e set to e_f, for the slots that are not EMPTY (R122); that of a DRAINING feature stays
as it was until the slot becomes EMPTY (R118; log entry 48). -/
def refreshE (s : State) : State :=
  { s with
    air := { s.air with
      features := mapAll (fun f r =>
          if r.state = .empty ∨ r.state = .draining then r else { r with lastE := effective s f })
        s.air.features } }

/-- The eligible set of a decision, once last_e holds e_f (R121). -/
def eligibleSet (s : State) (mask : Byte) : List FeatureIx :=
  (List.finRange 32).filter fun f =>
    let r := s.air.features[f]
    r.state == .ready && 0 < r.lastE && formatMatches mask r

/-- The feature of highest credit, ties to the lowest index (R123). -/
def richest (s : State) : List FeatureIx → Option FeatureIx
  | [] => none
  | f :: rest =>
    match richest s rest with
    | none => some f
    | some g => if s.air.features[g].credit ≤ s.air.features[f].credit then some f else some g

/-- The eligible set paid (R123 step 1). -/
def payAll (e : List FeatureIx) (s : State) : State :=
  e.foldl (fun s f =>
    let r := s.air.features[f]
    setFeature f { r with credit := clampCredit (r.credit + r.lastE) } s) s

/-- The winner of a decision for `d` (R123 steps 2 and 3). -/
def winnerOf (s : State) (d : DisplayIx) (e : List FeatureIx) : Option FeatureIx :=
  match richest s e with
  | none => none
  | some w =>
    if s.air.lastTrailer[d] = some w then
      match richest s (e.filter (· != w)) with
      | some other => some other
      | none => some w
    else some w

/-- The winner charged and recorded (R123 step 4, R124). streaming_count rises past 255 too, where the
manual says nothing (log entry 49). -/
def chargeWinner (w : FeatureIx) (d : DisplayIx) (sum : Nat) (s : State) : State :=
  let r := s.air.features[w]
  let s := setFeature w
    { r with
      credit := clampCredit (r.credit - sum), plays := sat16 (r.plays + 1),
      streamingCount := r.streamingCount + 1 } s
  { s with air := { s.air with lastTrailer := put s.air.lastTrailer d (some w) } }

/-- The reply of a decision (R122, R124). -/
def replyDecision (r : DecisionRequest) (choice : Option FeatureIx) (s : State) : State :=
  { s with bus := { s.bus with replies := s.bus.replies ++ [⟨r.display, r.segmentNo, choice⟩] } }

/-- A decision taken (R122 to R124). -/
def takeDecision (r : DecisionRequest) (s : State) : State :=
  let t := refreshE s
  let e := eligibleSet t r.formatMask
  let sum := (e.map fun f => t.air.features[f].lastE).sum
  let t := payAll e t
  match winnerOf t r.display e with
  | none => replyDecision r none (settleFeatures s t)
  | some w => replyDecision r (some w) (settleFeatures s (chargeWinner w r.display sum t))

/-- DECISION (R122): the oldest decision request of `d`. -/
def execDecision (d : DisplayIx) (s : State) : Host.Outcome State Fault Refusal :=
  .next <|
    match takeFirst (fun r : DecisionRequest => r.display == d) s.bus.decisions with
    | some (r, rest) => takeDecision r { s with bus := { s.bus with decisions := rest } }
    | none => s

/-! ## Release reports -/

/-- A release report taken (R125, R126). -/
def takeReleaseReport (x : Release) (s : State) : State :=
  let r := s.air.features[x.feature]
  if r.streamingCount = 0 then s
  else
    let n := r.streamingCount - 1
    let s :=
      if r.state = .draining ∧ n = 0 then emptyFeature x.feature s
      else
        setFeature x.feature
          { r with
            streamingCount := n
            state := if x.cause = .clipFault ∧ r.state = .ready then .faulted else r.state } s
    handMirror (.feature x.feature) s

/-- RELEASE_REPORT (R125, R126): the oldest release report of `sender`. -/
def execReleaseReport (sender : ReleaseSender) (s : State) : Host.Outcome State Fault Refusal :=
  .next <|
    match sender with
    | .streamEngine =>
      match s.bus.streamReleases with
      | x :: rest => takeReleaseReport x { s with bus := { s.bus with streamReleases := rest } }
      | [] => s
    | .displayController =>
      match s.bus.displayReleases with
      | x :: rest => takeReleaseReport x { s with bus := { s.bus with displayReleases := rest } }
      | [] => s

end Sys2Proof.Machine
end

