-- ==== Sys2Proof/Machine/NoticeOps.lean ====
section
/-! DEFINITION. What the events of the Notice Arbiter share: level and candidate (R94), evaluation and
push (R95, R96, R98), removal and ending (R79, R99), placement (R104), takeover (R108), and the end
of an event that changed notices or arbitration (R76, R92). -/

namespace Sys2Proof.Machine

/-! ## Reading the table -/

/-- The notice of a slot in use. -/
def noticeAt (s : State) (i : NoticeIx) : Option Notice := s.arb.slots[i].notice

/-- The class of the notice in a slot, 0 where it is free. -/
def classAt (s : State) (i : NoticeIx) : Nat := ((noticeAt s i).map (classOf ·.priority)).getD 0

/-- The priority of the notice in a slot, 0 where it is free. -/
def priorityAt (s : State) (i : NoticeIx) : Nat := ((noticeAt s i).map (·.priority)).getD 0

/-- The slot a live notice reference names, and its notice (R76). -/
def liveNotice (s : State) (ref : Nat) : Option (NoticeIx × Notice) :=
  match indexOf? 96 (ref % 256) with
  | none => none
  | some i =>
    match noticeAt s i with
    | none => none
    | some n => if s.arb.slots[i].gen = ref / 256 then some (i, n) else none

/-- The slot of the live notice of a key (R84). -/
def findKey (s : State) (o : Origin) (topic : Nat) : Option NoticeIx :=
  s.arb.order.find? fun i => (noticeAt s i).any fun n => n.origin == o && n.topic == topic

/-- The lowest free notice slot (R76). -/
def freeNoticeSlot (s : State) : Option NoticeIx :=
  (List.finRange 96).find? fun i => (noticeAt s i).isNone

/-- A notice record replaced. -/
def setNotice (i : NoticeIx) (n : Notice) (s : State) : State :=
  { s with
    arb := { s.arb with slots := put s.arb.slots i { s.arb.slots[i] with notice := some n } } }

/-- An arbitration record changed in place. -/
def withArb (d : DisplayIx) (f : ArbRec → ArbRec) (s : State) : State :=
  { s with arb := { s.arb with recs := put s.arb.recs d (f s.arb.recs[d]) } }

/-- A display matches the target of a notice (R78), by the tag that its latest enabled report gave: a tag
set up since is at its use only from the next enable (R131; log entry 45). -/
def displayMatches (s : State) (t : Target) (d : DisplayIx) : Bool :=
  matchesTarget t d s.arb.recs[d].tag

/-- A display takes notices while STARTING, ON or LINK_LOST (R93). -/
def takesNotices (s : State) (d : DisplayIx) : Bool :=
  let st := s.arb.recs[d].noticeState
  st == .starting || st == .on || st == .linkLost

/-! ## Signals to the Display Controller -/

/-- A signal sent to the Display Controller (R98, R108). -/
def signalPanel (g : PanelSignal) (s : State) : State :=
  { s with bus := { s.bus with signals := s.bus.signals ++ [g] } }

/-- The reference, class and content of a display's top notice. -/
def topNotice (s : State) (d : DisplayIx) : Option (Nat × Nat × Content) :=
  match s.arb.recs[d].stack with
  | [] => none
  | i :: _ => (noticeAt s i).map fun n => (noticeRef s i, classOf n.priority, n.content)

/-- A strip report for a display, naming its top notice or none (R98, R99). -/
def reportStrip (d : DisplayIx) (s : State) : State := signalPanel (.strip d (topNotice s d)) s

/-! ## Level, candidate, placement -/

/-- The level of a display (R94). -/
def levelOf (s : State) (d : DisplayIx) : Nat :=
  match s.arb.recs[d].stack with
  | [] => s.arb.recs[d].floor
  | i :: _ => max s.arb.recs[d].floor (classAt s i + 1)

/-- The first of the slots with the highest priority. -/
def highest (s : State) : List NoticeIx → Option NoticeIx
  | [] => none
  | i :: rest =>
    match highest s rest with
    | none => some i
    | some j => if priorityAt s j ≤ priorityAt s i then some i else some j

/-- The candidate of a display: highest priority in its pending set, oldest first (R94). -/
def candidateOf (s : State) (d : DisplayIx) : Option NoticeIx :=
  highest s (s.arb.order.filter (s.arb.recs[d].pending.contains ·))

/-- A notice enters a display's pending set, unless it is there or on the display's stack (R98,
R102). -/
def enterPending (i : NoticeIx) (d : DisplayIx) (s : State) : State :=
  withArb d (fun a =>
    if a.pending.contains i || a.stack.contains i then a
    else { a with pending := a.pending ++ [i] }) s

/-- `a` wins a placement over `b`: lower level, then fewer pending, then lower index (R104). -/
def placesBefore (s : State) (a b : DisplayIx) : Bool :=
  let la := levelOf s a
  let lb := levelOf s b
  let qa := s.arb.recs[a].pending.length
  let qb := s.arb.recs[b].pending.length
  la < lb || (la == lb && (qa < qb || (qa == qb && a.val < b.val)))

/-- The display an ANY_ONE notice is placed at (R104). -/
def placementOf (s : State) (n : Notice) : Option DisplayIx :=
  ((List.finRange 16).filter fun d =>
    s.arb.recs[d].noticeState == .on && displayMatches s n.target d).foldl
      (fun best d =>
        match best with
        | none => some d
        | some b => if placesBefore s d b then some d else some b) none

/-! ## Removal and ending -/

/-- A display holds a notice. -/
def holdsNotice (s : State) (i : NoticeIx) (d : DisplayIx) : Bool :=
  s.arb.recs[d].pending.contains i || s.arb.recs[d].stack.contains i

/-- A notice removed from one display (R99): a top uncovers the notice below with a new cover_start,
and a strip report names the new top. -/
def removeAt (i : NoticeIx) (d : DisplayIx) (s : State) : State :=
  let a := s.arb.recs[d]
  let left := a.stack.filter (· != i)
  if a.stack.head? = some i then
    reportStrip d
      (withArb d (fun a => { a with
        pending := a.pending.filter (· != i)
        stack := left
        coverStart := if left = [] then none else some s.clock.partSeconds }) s)
  else withArb d (fun a => { a with pending := a.pending.filter (· != i), stack := left }) s

/-- The displays that hold a notice, in index order. -/
def holders (s : State) (i : NoticeIx) : List DisplayIx := (List.finRange 16).filter (holdsNotice s i)

/-- A notice removed from every display that holds it (R79 step 1). -/
def removeEverywhere (i : NoticeIx) (s : State) : State :=
  (holders s i).foldl (fun s d => removeAt i d s) s

/-- Source of a NOTICE_UNSEEN fault (R79). -/
def unseenSource (n : Notice) : FaultSource :=
  match n.origin, n.content with
  | .boxOffice, _ => .none
  | .desk d, _ => .desk (d.val + 1)
  | .schedule, .card _ i => .showSlot i.val
  | .schedule, .text _ => .none

/-- Steps 2 to 4 of an ending (R79): the desk is told, an unseen notice is raised, and the slot is
freed with its generation advanced. -/
def concludeEnding (r : NoticeEnd) (i : NoticeIx) (s : State) : State :=
  match noticeAt s i with
  | none => s
  | some n =>
    let s :=
      match n.origin with
      | .desk d => sendDesk d 0 (.noticeEnded (noticeRef s i) n.topic r n.aired) s
      | .boxOffice | .schedule => s
    let s :=
      if n.aired = 0 then raise .noticeArbiter .noticeUnseen (unseenSource n) noCapture s else s
    { s with
      arb := { s.arb with
        slots := put s.arb.slots i ⟨(s.arb.slots[i].gen + 1) % 256, none⟩
        order := s.arb.order.filter (· != i) } }

/-! ## Evaluation -/

/-- Conditions 1 to 3 of an evaluation hold for a candidate (R95). -/
def mayPush (s : State) (d : DisplayIx) (i : NoticeIx) : Bool :=
  let a := s.arb.recs[d]
  levelOf s d ≤ classAt s i && a.stack.length < stackCapacity
    && (a.stack.isEmpty || a.coverStart.all (fun c => c + s.arb.cfg.minCover ≤ s.clock.partSeconds))

/-- A notice is bound to a show that is CLOSED, CANCELLED or EMPTY (R96). -/
def boundGone (s : State) (i : NoticeIx) : Bool :=
  (noticeAt s i).any fun n => n.bound.any fun b => !s.shows.recs[b].state.isLive

/-- A candidate pushed (R98). -/
def pushNotice (i : NoticeIx) (d : DisplayIx) (s : State) : State :=
  let s := withArb d (fun a => { a with
    pending := a.pending.filter (· != i)
    stack := i :: a.stack
    coverStart := some s.clock.partSeconds }) s
  let s :=
    match noticeAt s i with
    | some n => setNotice i { n with aired := sat16 (n.aired + 1) } s
    | none => s
  reportStrip d s

/-- Displays evaluated in turn (R95). The first argument bounds the rounds: an event takes at most
one for each push, ending and display named, fewer than 4000 together. -/
def evaluate : Nat → List DisplayIx → State → State
  | 0, _, s => s
  | _ + 1, [], s => s
  | fuel + 1, d :: rest, s =>
    if s.arb.recs[d].noticeState ≠ .on then evaluate fuel rest s
    else
      match candidateOf s d with
      | none => evaluate fuel rest s
      | some i =>
        if !mayPush s d i then evaluate fuel rest s
        else if boundGone s i then
          let left := holders s i
          evaluate fuel (d :: rest)
            (concludeEnding .showClosed i (evaluate fuel left (removeEverywhere i s)))
        else evaluate fuel (d :: rest) (pushNotice i d s)

/-- Displays evaluated in turn, as many rounds as an event can take. -/
def evaluateAll (ds : List DisplayIx) (s : State) : State := evaluate 4000 ds s

/-- A notice ended (R79). -/
def endNotice (r : NoticeEnd) (i : NoticeIx) (s : State) : State :=
  match noticeAt s i with
  | none => s
  | some _ =>
    let left := holders s i
    concludeEnding r i (evaluateAll left (removeEverywhere i s))

/-- A notice removed from every pending set, so that no evaluation finds it there. -/
def withdrawPending (i : NoticeIx) (s : State) : State :=
  { s with
    arb := { s.arb with
      recs := s.arb.recs.map fun a => { a with pending := a.pending.filter (· != i) } } }

/-- Notices that end together in one event, one after another in the order given, each by R79 with the
event's reason (R89). Those whose bound show is gone leave the pending sets before the first ends, so
that no evaluation of the event takes one of them for a candidate and ends it for R96's reason (R109;
log entry 47); the displays that held each are evaluated at its own ending. A notice bound to a slot
that holds a live show again stays a candidate until its own turn. -/
def endNotices (r : NoticeEnd) (is : List NoticeIx) (s : State) : State :=
  is.foldl (fun t i =>
      concludeEnding r i (evaluateAll (holders s i) (removeEverywhere i t)))
    ((is.filter (boundGone s)).foldl (fun t i => withdrawPending i t) s)

/-- An ANY_ONE notice placed, or left UNPLACED (R104). -/
def placeNotice (i : NoticeIx) (s : State) : State :=
  match noticeAt s i with
  | none => s
  | some n =>
    match placementOf s n with
    | none => setNotice i { n with placed := none } s
    | some d => evaluateAll [d] (enterPending i d (setNotice i { n with placed := some d } s))

/-- Notices placed in order (R105). -/
def placeNotices (is : List NoticeIx) (s : State) : State :=
  is.foldl (fun s i => placeNotice i s) s

/-! ## Takeover, and the end of an event -/

/-- The top of a display is of takeover class (R108). -/
def topTakesOver (s : State) (d : DisplayIx) : Bool :=
  match s.arb.recs[d].stack with
  | [] => false
  | i :: _ => s.arb.cfg.takeoverClass ≤ classAt s i

/-- The takeover flag of a display compared with its top (R108). -/
def compareTakeover (d : DisplayIx) (s : State) : State :=
  let a := s.arb.recs[d]
  if topTakesOver s d && !a.takeover then
    signalPanel (.takeoverBegin d) (withArb d (fun a => { a with takeover := true }) s)
  else if !topTakesOver s d && a.takeover then
    signalPanel (.takeoverEnd d) (withArb d (fun a => { a with takeover := false }) s)
  else s

/-- The mirror record of notice slot `i` handed at the end of an event that changed it; `extra` names
a slot handed in any case (R76). -/
def settleNotice (before : State) (extra : Option NoticeIx) (i : NoticeIx) (s : State) : State :=
  if before.arb.slots[i] ≠ s.arb.slots[i] ∨ extra = some i then handMirror (.notice i) s else s

/-- The notice mirror records of the slots an event changed, in index order. -/
def settleNotices (before : State) (extra : Option NoticeIx) (s : State) : State :=
  (List.finRange 96).foldl (fun s i => settleNotice before extra i s) s

/-- An event of the Notice Arbiter: what it does, then the takeover comparisons (R108), then the
mirror records of the notices and displays it changed (R76, R92). The manual names no order among the
takeover signals of several displays: they go in index order, behind the event's strip reports (log
entry 46). -/
def noticeEvent (extra : Option NoticeIx) (act : State → State) (s : State) : State :=
  let t := (List.finRange 16).foldl (fun s d => compareTakeover d s) (act s)
  settleDisplays s (settleNotices s extra t)

end Sys2Proof.Machine
end

