-- ==== Sys2Proof/Machine/Arbitration.lean ====
section
/-! DEFINITION. Cover timers and the reports of the Display Controller at the Notice Arbiter:
COVER_TIMER_EXPIRY, ENABLED_REPORT, LINK_UP_REPORT, LINK_LOST_REPORT, DRAINING_REPORT, OFF_REPORT,
FLOOR_REPORT (R93, R97, R100, R102, R105 to R107). -/

namespace Sys2Proof.Machine

/-- COVER_TIMER_EXPIRY (R97): where the cover timer of `d` has run out at a tick, `d` is
evaluated. -/
def execCoverTimerExpiry (d : DisplayIx) (s : State) : Host.Outcome State Fault Refusal :=
  .next <|
    if s.arb.recs[d].coverDue then
      noticeEvent none (evaluateAll [d]) (withArb d (fun a => { a with coverDue := false }) s)
    else s

/-- The head of the reports taken off their queue. -/
def popReport (s : State) : State :=
  { s with bus := { s.bus with displayReports := s.bus.displayReports.tail } }

/-- notice_state set as a report says (R93). -/
def setNoticeState (st : DisplayState) (d : DisplayIx) : State → State :=
  withArb d fun a => { a with noticeState := st }

/-- A notice in a slot is of mode ALL. -/
def isAll (s : State) (i : NoticeIx) : Bool := (noticeAt s i).any (·.mode == .all)

/-- A notice in a slot is ANY_ONE. -/
def isAnyOne (s : State) (i : NoticeIx) : Bool := (noticeAt s i).any (·.mode == .anyOne)

/-- The enabled report of `d`, with the tag in use from this enable (R102, R131): every live ALL notice
that matches enters its pending set. -/
def displayEnabled (d : DisplayIx) (tag : Byte) (s : State) : State :=
  let s := withArb d (fun a => { a with tag := tag }) (setNoticeState .starting d s)
  (s.arb.order.filter fun i =>
    isAll s i && (noticeAt s i).any (displayMatches s ·.target d)).foldl
      (fun s i => enterPending i d s) s

/-- ENABLED_REPORT (R93, R102). -/
def execEnabledReport (s : State) : Host.Outcome State Fault Refusal :=
  .next <|
    match s.bus.displayReports with
    | .enabled d tag :: _ => noticeEvent none (displayEnabled d tag) (popReport s)
    | _ => s

/-- The UNPLACED notices that match a display, oldest first (R105). -/
def unplacedFor (s : State) (d : DisplayIx) : List NoticeIx :=
  s.arb.order.filter fun i =>
    isAnyOne s i && (noticeAt s i).any fun n => n.placed.isNone && displayMatches s n.target d

/-- The link up report of `d` (R105). -/
def displayUp (d : DisplayIx) (s : State) : State :=
  let s := evaluateAll [d] (setNoticeState .on d s)
  placeNotices (unplacedFor s d) s

/-- LINK_UP_REPORT (R93, R105). -/
def execLinkUpReport (s : State) : Host.Outcome State Fault Refusal :=
  .next <|
    match s.bus.displayReports with
    | .linkUp d :: _ => noticeEvent none (displayUp d) (popReport s)
    | _ => s

/-- The ANY_ONE notices that stand at a display, oldest first (R105). -/
def anyOneAt (s : State) (d : DisplayIx) : List NoticeIx :=
  s.arb.order.filter fun i => isAnyOne s i && holdsNotice s i d

/-- The ALL notices of a display's stack, top first. -/
def allOnStack (s : State) (d : DisplayIx) : List NoticeIx := s.arb.recs[d].stack.filter (isAll s)

/-- A display left by its notices (R106, R107): the ANY_ONE notices are placed again, oldest first;
`kept` is the pending set that remains. -/
def leaveDisplay (st : DisplayState) (kept : List NoticeIx) (d : DisplayIx) (s : State) : State :=
  let moved := anyOneAt s d
  placeNotices moved
    (withArb d (fun a => { a with
      noticeState := st, pending := kept, stack := [], coverStart := none }) s)

/-- The link lost report of `d` (R106): its ALL notices return to the pending set. -/
def displayLost (d : DisplayIx) (s : State) : State :=
  leaveDisplay .linkLost (s.arb.recs[d].pending.filter (isAll s) ++ allOnStack s d) d s

/-- LINK_LOST_REPORT (R93, R106). -/
def execLinkLostReport (s : State) : Host.Outcome State Fault Refusal :=
  .next <|
    match s.bus.displayReports with
    | .linkLost d :: _ => noticeEvent none (displayLost d) (popReport s)
    | _ => s

/-- DRAINING_REPORT (R93, R107). -/
def execDrainingReport (s : State) : Host.Outcome State Fault Refusal :=
  .next <|
    match s.bus.displayReports with
    | .draining d :: _ => noticeEvent none (leaveDisplay .draining [] d) (popReport s)
    | _ => s

/-- OFF_REPORT (R93, R107). -/
def execOffReport (s : State) : Host.Outcome State Fault Refusal :=
  .next <|
    match s.bus.displayReports with
    | .off d :: _ => noticeEvent none (leaveDisplay .off [] d) (popReport s)
    | _ => s

/-- FLOOR_REPORT (R93, R100). -/
def execFloorReport (s : State) : Host.Outcome State Fault Refusal :=
  .next <|
    match s.bus.displayReports with
    | .floor d value :: _ =>
      noticeEvent none
        (fun s => evaluateAll [d] (withArb d (fun a => { a with floor := value }) s)) (popReport s)
    | _ => s

end Sys2Proof.Machine
end

