-- ==== Sys2Proof/Machine/ShowOps.lean ====
section
/-! DEFINITION. What the events of the Show Table share: holds and their freeing (R40 to R43), the
tally recomputation with what follows from it (R26, R28, R36, R37), auto-notice requests (R18), the
closing sequence (R17, R54), and the end of an event that changed a show (R1, R19). -/

namespace Sys2Proof.Machine

/-! ## Show records -/

/-- A show record replaced. -/
def setShow (i : ShowIx) (sh : ShowRec) (s : State) : State :=
  { s with shows := { s.shows with recs := put s.shows.recs i sh } }

/-- A request sent to the Lobby Clock (R3). -/
def sendClock (r : ClockRequest) (s : State) : State :=
  { s with bus := { s.bus with toClock := s.bus.toClock ++ [r] } }

/-- A request or report sent to the Notice Arbiter (R17, R18). -/
def sendArbiter (m : ShowMsg) (s : State) : State :=
  { s with bus := { s.bus with toArbiter := s.bus.toArbiter ++ [m] } }

/-- The schedule request for a show's next transition from `st`, where it has one (R3). -/
def schedule (i : ShowIx) (st : ShowState) (s : State) : State :=
  match dueTime s.shows.recs[i] st with
  | some due => sendClock (.schedule ⟨i, st, due⟩) s
  | none => s

/-- Whether a field of a show-changed report differs between two records (R19). -/
def fieldDiffers (a b : ShowRec) : ReportField → Bool
  | .state => a.state != b.state
  | .start => a.start != b.start
  | .titleCode => a.titleCode != b.titleCode
  | .auditorium => a.auditorium != b.auditorium
  | .listed => isListed a != isListed b
  | .feature => a.feature != b.feature
  | .avail => a.avail != b.avail
  | .band => a.band != b.band
  | .seatsShown => a.seatsShown != b.seatsShown
  | .plusMarker => a.plusMarker != b.plusMarker

/-- Every field of a show-changed report (R9). -/
def allReportFields : List ReportField :=
  [.state, .start, .titleCode, .auditorium, .listed, .feature, .avail, .band, .seatsShown,
    .plusMarker]

/-- The fields of a show-changed report that differ between two records (R19). -/
def changedFields (a b : ShowRec) : List ReportField := allReportFields.filter (fieldDiffers a b)

/-- A catch-up has taken a LISTED show from WAITING to CLOSED: by way of SELLING, so that it has both
entered and left the listed set (R6, R7). -/
def passedListed (a b : ShowRec) : Bool :=
  a.state == .waiting && b.state == .closed && b.flags.listed

/-- The fields of a show-changed report that a show's transitions in one catch-up changed, from the
record before the first to the record after the last (R6): those that differ, and `listed` where the
show has passed through the listed set. -/
def passedFields (a b : ShowRec) : List ReportField :=
  allReportFields.filter fun x => fieldDiffers a b x || (x == .listed && passedListed a b)

/-- The fields of the report of a drop, from the record before to the emptied one: those that differ, and the
tally fields that the freeing of the holds changed (`freed`), though the emptying set them back (R14, R17,
R35). -/
def droppedFields (freed a b : ShowRec) : List ReportField :=
  allReportFields.filter fun x => fieldDiffers a b x || fieldDiffers a freed x

/-- A show-changed report sent to the Display Controller, where it names a field (R19); that of a slot
that has become EMPTY says so (R14). -/
def reportShow (i : ShowIx) (fields : List ReportField) (s : State) : State :=
  if fields = [] then s
  else
    { s with
      bus := { s.bus with
        showReports := s.bus.showReports ++ [⟨i, fields, s.shows.recs[i].state == .empty⟩] } }

/-- The end of an event for show `i`, whose record was `before`: a changed record is handed to the
mirror writer, and the reportable fields that `fields` finds changed are reported (R1, R19). -/
def commitShowAs (fields : ShowRec → ShowRec → List ReportField) (i : ShowIx) (before : ShowRec)
    (s : State) : State :=
  let now := s.shows.recs[i]
  if now = before then s
  else reportShow i (fields before now) (handMirror (.showRec i) s)

/-- The end of an event of one change of show `i` (R1, R19). -/
def commitShow (i : ShowIx) (before : ShowRec) (s : State) : State :=
  commitShowAs changedFields i before s

/-- The end of an event for every show; `before` is the table as the event found it. The manual names no
order among the reports of one event: they go in index order (log entry 41). -/
def commitShows (fields : ShowRec → ShowRec → List ReportField) (before : Vector ShowRec 64)
    (s : State) : State :=
  (List.finRange 64).foldl (fun s i => commitShowAs fields i before[i] s) s

/-! ## Auto-notices -/

/-- The priority of an auto-notice kind (R18). -/
def autoPriority (c : ShowSettings) : CardKind → Nat
  | .delayed => c.priorityDelayed
  | .soldOut => c.prioritySoldOut
  | .doorsOpen => c.priorityDoorsOpen
  | .cancelled => c.priorityCancelled

/-- An auto-notice request for show `i` (R18). -/
def autoPost (s : State) (k : CardKind) (i : ShowIx) (duration : Nat) : Post where
  origin := .schedule
  topic := autoTopic k i
  priority := autoPriority s.shows.cfg k
  mode := .all
  target := s.shows.recs[i].target
  bound := if k = .doorsOpen then some i else none
  content := .card k i
  truncated := false
  duration := duration

/-- An auto-notice requested (R18). -/
def requestAuto (k : CardKind) (i : ShowIx) (duration : Nat) (s : State) : State :=
  sendArbiter (.auto (autoPost s k i duration)) s

/-! ## Holds -/

/-- The hold of a slot in use. -/
def holdAt (s : State) (i : HoldIx) : Option HoldRec := s.shows.holds[i].hold

/-- The slot a live hold reference names, and its hold (R40). -/
def liveHold (s : State) (ref : Nat) : Option (HoldIx × HoldRec) :=
  match indexOf? 192 (ref % 256) with
  | none => none
  | some i =>
    match holdAt s i with
    | none => none
    | some h => if s.shows.holds[i].gen = ref / 256 then some (i, h) else none

/-- The reference of a hold slot as it stands (R40). -/
def holdRef (s : State) (i : HoldIx) : Nat := mkRef s.shows.holds[i].gen i.val

/-- The lowest free hold slot (R40). -/
def freeHoldSlot (s : State) : Option HoldIx :=
  (List.finRange 192).find? fun i => (holdAt s i).isNone

/-- The live holds of a desk (R41). -/
def deskHolds (s : State) (d : DeskIx) : Nat :=
  (s.shows.holdList.filter fun i => (holdAt s i).any (·.desk == d)).length

/-- The expiry of a hold slot's hold. -/
def expiryOf (s : State) (i : HoldIx) : Nat := ((holdAt s i).map (·.expiry)).getD 0

/-- A hold slot entered in the Hold List, behind every hold whose expiry is at or before its own and
before every later one (R41). -/
def enterHold (expiry : HoldIx → Nat) (i : HoldIx) : List HoldIx → List HoldIx
  | [] => [i]
  | j :: rest => if expiry j ≤ expiry i then j :: enterHold expiry i rest else i :: j :: rest

/-- A hold freed: it leaves the Hold List, its seats leave held, and its slot's generation advances
as the slot becomes free (R43). -/
def freeHold (i : HoldIx) (s : State) : State :=
  match holdAt s i with
  | none => s
  | some h =>
    let sh := s.shows.recs[h.showIx]
    { s with
      shows := { s.shows with
        recs := put s.shows.recs h.showIx { sh with held := sh.held - h.seats }
        holds := put s.shows.holds i ⟨(s.shows.holds[i].gen + 1) % 256, none⟩
        holdList := s.shows.holdList.filter (· != i) } }

/-- The HOLD_ENDED of a hold about to be freed (R43). -/
def holdEndedMsg (s : State) (i : HoldIx) (h : HoldRec) (r : HoldEnd) : DeskMsg :=
  .holdEnded (holdRef s i) h.showIx s.shows.recs[h.showIx].showCode h.seats r

/-- A hold ended by expiry or by its show: freed, its mirror record handed, its desk told
(R43, R49, R54). -/
def endHold (r : HoldEnd) (i : HoldIx) (s : State) : State :=
  match holdAt s i with
  | none => s
  | some h => sendDesk h.desk 0 (holdEndedMsg s i h r) (handMirror (.hold i) (freeHold i s))

/-- The holds that name a show, in Hold List order (R54). -/
def holdsOn (s : State) (i : ShowIx) : List HoldIx :=
  s.shows.holdList.filter fun k => (holdAt s k).any (·.showIx == i)

/-! ## The tally -/

/-- The record of show `i` with its tally recomputed, from the band it had when the event began
(R26). -/
def retally (i : ShowIx) (prev : Band) (s : State) : State :=
  let sh := s.shows.recs[i]
  setShow i (tally s.shows.cfg.bandSets[sh.bandSet] prev sh) s

/-- OVERSOLD gone from clear to set raises its fault (R28). -/
def raiseOversold (i : ShowIx) (before : ShowRec) (capture : List Byte) (s : State) : State :=
  if !before.oversold && s.shows.recs[i].oversold then
    raise .showTable .oversold (.showSlot i.val) capture s
  else s

/-- The band entering or leaving FULL acts on the SOLD_OUT notice (R36, R37). -/
def actOnFull (i : ShowIx) (before : ShowRec) (s : State) : State :=
  let sh := s.shows.recs[i]
  if sh.band = .full ∧ before.band ≠ .full ∧ sh.state.isLive ∧ sh.flags.autoSoldout then
    setShow i { sh with soldoutAsked := true } (requestAuto .soldOut i 0 s)
  else if before.band = .full ∧ sh.band ≠ .full ∧ sh.soldoutAsked then
    setShow i { sh with soldoutAsked := false } (sendArbiter (.clear i) s)
  else s

/-- A tally recomputation and what it acts on (R26): `before` is the record as the event found it,
`capture` the journal entry being taken. -/
def recompute (i : ShowIx) (before : ShowRec) (capture : List Byte) (s : State) : State :=
  actOnFull i before (raiseOversold i before capture (retally i before.band s))

/-! ## Closing a show -/

/-- The HOLD_ENDED reason of a closing (R17). -/
def closingHoldEnd : NoticeEnd → HoldEnd
  | .showDropped => .showDropped
  | _ => .showClosed

/-- The closing sequence of a show that has left its live state (R17): its holds are freed in Hold
List order, its tally is recomputed once, and the closure report and any SOLD_OUT clear are sent. -/
def closeShow (i : ShowIx) (prev : Band) (reason : NoticeEnd) (s : State) : State :=
  let s := (holdsOn s i).foldl (fun s k => endHold (closingHoldEnd reason) k s) s
  let s := sendArbiter (.closure i reason) (retally i prev s)
  let sh := s.shows.recs[i]
  if sh.soldoutAsked then
    setShow i { sh with soldoutAsked := false } (sendArbiter (.clear i) s)
  else s

end Sys2Proof.Machine
end

