-- ==== Sys2Proof/Machine/Clock.lean ====
section
/-! DEFINITION. The Lobby Clock and the catch-ups of the Show Table: TICK, SCHEDULE_REQUEST,
WITHDRAW_REQUEST, CATCH_UP and CLOCK_SET (R2 to R7, R10). -/

namespace Sys2Proof.Machine

/-! ## The due list -/

/-- `a` stands before `b` in the due list: earlier due, ties to the lower show index. -/
def DueEntry.before (a b : DueEntry) : Bool :=
  a.due < b.due || (a.due == b.due && a.showIx.val < b.showIx.val)

/-- An entry put at its place in order (R3). -/
def insertDue (e : DueEntry) : List DueEntry → List DueEntry
  | [] => [e]
  | x :: rest => if e.before x then e :: x :: rest else x :: insertDue e rest

/-- The entry of a show removed. -/
def withoutDue (i : ShowIx) (q : List DueEntry) : List DueEntry := q.filter (·.showIx != i)

/-- The due list replaced. -/
def setDue (q : List DueEntry) (s : State) : State :=
  { s with clock := { s.clock with dueList := q } }

/-- Entries handed to the Show Table. -/
def handClock (m : ClockMsg) (s : State) : State :=
  { s with bus := { s.bus with fromClock := s.bus.fromClock ++ [m] } }

/-- The entries due at or before `time` leave the list and go to the Show Table together (R4). -/
def handDue (time : Nat) (s : State) : State :=
  let due := s.clock.dueList.takeWhile (·.due ≤ time)
  if due = [] then s
  else handClock (.catchUp time due) (setDue (s.clock.dueList.dropWhile (·.due ≤ time)) s)

/-- SCHEDULE_REQUEST (R3): the Lobby Clock takes the head of its requests, a schedule request. One whose due
time has come is not entered but handed over at once; the show's older entry then leaves the list all
the same, which R3 says only of a request that is entered (log entry 66). -/
def execScheduleRequest (s : State) : Host.Outcome State Fault Refusal :=
  .next <|
    match s.bus.toClock with
    | .schedule e :: rest =>
      let s := { s with bus := { s.bus with toClock := rest } }
      let others := withoutDue e.showIx s.clock.dueList
      match s.clock.lobby with
      | some now =>
        if e.due ≤ now then handClock (.catchUp now [e]) (setDue others s)
        else setDue (insertDue e others) s
      | none => setDue (insertDue e others) s
    | _ => s

/-- WITHDRAW_REQUEST (R3): the Lobby Clock takes the head of its requests, a withdraw request. -/
def execWithdrawRequest (s : State) : Host.Outcome State Fault Refusal :=
  .next <|
    match s.bus.toClock with
    | .withdraw i :: rest =>
      setDue (withoutDue i s.clock.dueList) { s with bus := { s.bus with toClock := rest } }
    | _ => s

/-! ## The tick -/

/-- A count of seconds that has reached its top stays there (R2). -/
def tickCount (n : Nat) : Nat := if n < max32 then n + 1 else n

/-- Both counts risen by one tick (R2). -/
def riseClock (s : State) : State :=
  { s with
    clock := { s.clock with
      partSeconds := tickCount s.clock.partSeconds
      lobby := s.clock.lobby.map tickCount } }

/-- A display's cover timer at a tick: expired when min_cover seconds have passed since cover_start,
where the display is ON with a notice on air and one pending (R97). -/
def tickCover (now minCover : Nat) (a : ArbRec) : ArbRec :=
  if a.noticeState = .on ∧ a.stack ≠ [] ∧ a.pending ≠ [] ∧
      a.coverStart.any (fun c => c + minCover ≤ now) then { a with coverDue := true }
  else a

/-- A display's dwell at a tick (R136): it falls by one, and from one second left its expiry is
due. -/
def tickDwell (d : DisplayRec) : DisplayRec :=
  if (d.segment = .board ∨ d.segment = .house) ∧ d.suspended = false ∧ d.dwellDue = false then
    if 1 < d.dwellLeft then { d with dwellLeft := d.dwellLeft - 1 }
    else if d.dwellLeft = 1 then { d with dwellDue := true }
    else d
  else d

/-- A stream record's underrun limit at a tick (R154). -/
def tickUnderrun (now limit : Nat) (r : StreamRec) : StreamRec :=
  if r.inUnderrun ∧ r.underrunStart.any (fun u => u + limit ≤ now) then
    { r with underrunDue := true }
  else r

/-- What runs on part seconds at a tick: cover timers, dwells and underrun limits fall due. -/
def tickTimers (s : State) : State :=
  let now := s.clock.partSeconds
  { s with
    arb := { s.arb with recs := s.arb.recs.map (tickCover now s.arb.cfg.minCover) }
    displays := { s.displays with recs := s.displays.recs.map tickDwell }
    stream := { s.stream with
      recs := s.stream.recs.map (tickUnderrun now s.stream.cfg.underrunLimit) } }

/-- TICK (R2, R4): the counts rise, the anchor's clock words are rewritten, and what falls due is
handed over or becomes due. The manual names no order of the clock words on the write path: lobby now
goes first, then part now, then the clock-set flag (log entry 42). -/
def execTick (s : State) : Host.Outcome State Fault Refusal :=
  .next <|
    let s := tickTimers (riseClock s)
    let s := placeAnchor .clockSet (placeAnchor .partNow (placeAnchor .lobbyNow s))
    match s.clock.lobby with
    | some now => handDue now s
    | none => s

/-! ## Catch-ups -/

/-- The transition a catch-up performs next: earliest due, ties to the lowest show index, and the
others (R6). -/
def earliest : List DueEntry → Option (DueEntry × List DueEntry)
  | [] => none
  | e :: rest =>
    match earliest rest with
    | none => some (e, [])
    | some (b, others) => if b.before e then some (b, e :: others) else some (e, b :: others)

/-- The state a clock-driven transition leads to (R7). -/
def nextState : ShowState → ShowState
  | .waiting => .selling
  | .selling => .seating
  | .seating => .running
  | _ => .closed

/-- The transition is still the show's next one (R6). -/
def isCurrent (sh : ShowRec) (e : DueEntry) : Bool :=
  clockState sh == e.fromState && dueTime sh e.fromState == some e.due

/-- DOORS_OPEN requested at a transition into SEATING, less the lateness (R7, R18). -/
def requestDoors (e : DueEntry) (time : Nat) (s : State) : State :=
  let sh := s.shows.recs[e.showIx]
  let left := sh.seatingLead - (time - e.due)
  if e.fromState = .selling ∧ sh.flags.autoDoors ∧ sh.state ≠ .halted ∧ 0 < left then
    requestAuto .doorsOpen e.showIx left s
  else s

/-- A current transition performed, with the show's new pending transition if it has one at or
before `time` (R6, R7). -/
def perform (e : DueEntry) (time : Nat) (s : State) : State × List DueEntry :=
  let i := e.showIx
  let sh := s.shows.recs[i]
  match nextState e.fromState with
  | .closed =>
    (closeShow i sh.band .showClosed
      (setShow i { sh with state := .closed, savedState := none } s), [])
  | st =>
    let moved := if sh.state = .halted then { sh with savedState := some st }
      else { sh with state := st }
    let s := requestDoors e time (setShow i moved s)
    match dueTime moved st with
    | some due =>
      if due ≤ time then (s, [⟨i, st, due⟩]) else (sendClock (.schedule ⟨i, st, due⟩) s, [])
    | none => (s, [])

/-- The transitions of a catch-up, performed or discarded one by one, with the number performed
(R6). Every show takes at most four, so five rounds an entry suffice. -/
def catchUpLoop : Nat → Nat → List DueEntry → Nat → State → State × Nat
  | 0, _, _, n, s => (s, n)
  | fuel + 1, time, pending, n, s =>
    match earliest pending with
    | none => (s, n)
    | some (e, others) =>
      if isCurrent s.shows.recs[e.showIx] e then
        let r := perform e time s
        catchUpLoop fuel time (r.2 ++ others) (n + 1) r.1
      else catchUpLoop fuel time others n s

/-- A catch-up taken by the Show Table as one event, with the number of transitions (R6). A show's one
report names every field that changed across its transitions. -/
def catchUp (time : Nat) (entries : List DueEntry) (s : State) : State × Nat :=
  let r := catchUpLoop (5 * entries.length) time entries 0 s
  (commitShows passedFields s.shows.recs r.1, r.2)

/-- A show with CLOCK_WAIT set placed from now (R10). -/
def placeShow (now : Nat) (i : ShowIx) (s : State) : State :=
  let sh := s.shows.recs[i]
  if sh.clockWait then
    let st := placedState sh now
    let s := setShow i { sh with clockWait := false, state := st } s
    if st = .closed then closeShow i sh.band .showClosed s else schedule i st s
  else s

/-- The shows waiting for the clock (R10). -/
def clockWaiting (s : State) : Nat :=
  ((List.finRange 64).filter fun i => s.shows.recs[i].clockWait).length

/-- The placements of the first CLOCK_SET, with their number (R10). -/
def placeAll (now : Nat) (s : State) : State × Nat :=
  (commitShows changedFields s.shows.recs ((List.finRange 64).foldl (fun s i => placeShow now i s) s),
    clockWaiting s)

/-- The Show Table half of a CLOCK_SET, and at the end of the entry the anchor's clock words and the
outcome (R5). The manual names no order of the two words on the write path: lobby now goes first, then
the clock-set flag (log entry 67). -/
def finishClockSet (time : Nat) (first : Bool) (entries : List DueEntry) (s : State) : State :=
  let r := if first then placeAll time s else catchUp time entries s
  finish .done (sat16 r.2) (placeAnchor .clockSet (placeAnchor .lobbyNow r.1))

/-- CATCH_UP (R6): the Show Table takes the head of what the Lobby Clock has handed it. -/
def execCatchUp (s : State) : Host.Outcome State Fault Refusal :=
  .next <|
    match s.bus.fromClock with
    | .catchUp time entries :: rest =>
      (catchUp time entries { s with bus := { s.bus with fromClock := rest } }).1
    | .setHalf time first entries :: rest =>
      finishClockSet time first entries { s with bus := { s.bus with fromClock := rest } }
    | [] => s

/-! ## CLOCK_SET -/

/-- The Lobby Clock half of a CLOCK_SET: lobby seconds take the value, the due entries of a forward
set leave the list (R5). -/
def setLobby (value : Nat) (s : State) : State × Bool × List DueEntry :=
  let fresh := s.clock.lobby.isNone
  let forward := s.clock.lobby.any (· ≤ value)
  let due := if forward then s.clock.dueList.takeWhile (·.due ≤ value) else []
  let kept := if forward then s.clock.dueList.dropWhile (·.due ≤ value) else s.clock.dueList
  let s := { s with clock := { s.clock with lobby := some value, dueList := kept } }
  (s, fresh, due)

/-- CLOCK_SET (R5): taken at the Lobby Clock, and then at the Show Table; the Show Table half waits
behind what the Lobby Clock handed over before it (log entry 7). -/
def execClockSet (s : State) : Host.Outcome State Fault Refusal :=
  .next <| takeEntry .clockSet (fun f s =>
    let value := fieldAt (entryBody f.bytes) 0 4
    let r := setLobby value (withTaken f s)
    if r.1.bus.fromClock = [] then finishClockSet value r.2.1 r.2.2 r.1
    else handClock (.setHalf value r.2.1 r.2.2) r.1) s

end Sys2Proof.Machine
end

