-- ==== Sys2Proof/Machine/Desk.lean ====
section
/-! DEFINITION. The Desk Line Controller: receiving and checking frames, the intake queue, flow
control, the transmitters and DESK_PORT (R59 to R74). -/

namespace Sys2Proof.Machine

/-- The counters of a port changed in place. -/
def countPort (d : DeskIx) (f : PortCounters → PortCounters) : State → State :=
  withPort d fun p => { p with counters := f p.counters }

/-! ## Flow control -/

/-- One refresh period in milliseconds (R66). -/
def refreshPeriod (c : DeskSettings) : Nat := 10 * max 1 (c.pauseTime / 2)

/-- The paused flag set: PAUSE on every ENABLED port, and the refresh timer started (R66). -/
def setPaused (s : State) : State :=
  let s := pauseAll s.desks.cfg.pauseTime s
  { s with
    desks := { s.desks with paused := true, pauseTimer := some (refreshPeriod s.desks.cfg) } }

/-- The paused flag cleared: the timer stopped and PAUSE(0) on every ENABLED port (R67). -/
def clearPaused (s : State) : State :=
  let s := pauseAll 0 s
  { s with desks := { s.desks with paused := false, pauseTimer := none } }

/-! ## The intake queue -/

/-- A good frame placed in the intake queue, or dropped where it is full (R64, R66). -/
def placeIntake (e : IntakeEntry) (raw : List Byte) (s : State) : State :=
  if s.desks.intake.length < intakeCapacity then
    let s := { s with desks := { s.desks with intake := s.desks.intake ++ [e] } }
    let s := countPort e.desk (fun c => { c with framesTaken := sat16 (c.framesTaken + 1) }) s
    if s.desks.cfg.pauseOn ≠ 0 ∧ s.desks.paused = false ∧
        s.desks.cfg.pauseOn ≤ s.desks.intake.length then setPaused s
    else s
  else
    let s := countPort e.desk (fun c => { c with overflow := sat16 (c.overflow + 1) }) s
    sendBusy e.desk e.seq
      (raise .deskLine .deskOverflow (.desk (e.desk.val + 1)) (padTo 16 raw) s)

/-- INTAKE_HAND (R65, R67): the head entry is handed to its owner when none is in hand. -/
def execIntakeHand (s : State) : Host.Outcome State Fault Refusal :=
  .next <|
    match s.desks.inHand, s.desks.intake with
    | none, e :: rest =>
      let s := { s with desks := { s.desks with intake := rest, inHand := some e } }
      if s.desks.paused ∧ rest.length ≤ s.desks.cfg.pauseOff then clearPaused s else s
    | _, _ => s

/-- PAUSE_REFRESH_EXPIRY (R67): where the refresh timer has run out. -/
def execPauseRefreshExpiry (s : State) : Host.Outcome State Fault Refusal :=
  .next <|
    if s.desks.paused ∧ s.desks.pauseTimer = some 0 then
      let s := pauseAll s.desks.cfg.pauseTime s
      { s with desks := { s.desks with pauseTimer := some (refreshPeriod s.desks.cfg) } }
    else s

/-! ## Frames -/

/-- Bytes a frame has by its length byte (The Desk Line). -/
def impliedLength (len : Byte) : Nat := len.toNat + 4

/-- Why a frame is discarded (R61). -/
inductive FrameError where
  | runt | long | crc
  deriving DecidableEq, Repr

/-- The CRC a frame carries is the one computed over it (R61). -/
def crcGood (raw : List Byte) : Bool :=
  let n := raw.length
  leNat (raw.drop (n - 2)) == (crc16 ((raw.drop 1).take (n - 3))).toNat

/-- The first check of R61 that a frame fails; `idle` says that it ended at an idle line. -/
def frameError (raw : List Byte) (idle : Bool) : Option FrameError :=
  let len := byteAt raw 1
  if len.toNat < 2 ∨ raw.length < 2 ∨ (idle ∧ raw.length < impliedLength len) then some .runt
  else if 153 ≤ len.toNat then some .long
  else if ¬ crcGood raw then some .crc
  else none

/-- Body length a listed kind takes (R62); a NOTICE_POST takes its fixed part and any text. -/
def bodyGood (k : DeskKind) (n : Nat) : Bool :=
  match k with
  | .hold | .extend | .release | .noticeClear => n == 2
  | .ask => n == 1
  | .noticePost => 10 ≤ n

/-- The class counter of a discarded frame (R61). -/
def countError (e : FrameError) (c : PortCounters) : PortCounters :=
  match e with
  | .runt => { c with runt := sat16 (c.runt + 1) }
  | .long => { c with long := sat16 (c.long + 1) }
  | .crc => { c with crc := sat16 (c.crc + 1) }

/-- A frame answered REJECTED (R62). -/
def rejectFrame (d : DeskIx) (seq : Byte) (r : Reason) (kind : Byte) (s : State) : State :=
  sendDesk d seq (.rejected r kind)
    (countPort d (fun c => { c with rejected := sat16 (c.rejected + 1) }) s)

/-- The frame-end event of a frame received while ENABLED or DRAINING: the checks, and then the
intake queue (R61, R62, R64). -/
def checkFrame (d : DeskIx) (raw : List Byte) (idle : Bool) (s : State) : State :=
  match frameError raw idle with
  | some e =>
    raise .deskLine .deskFrame (.desk (d.val + 1)) (padTo 16 raw) (countPort d (countError e) s)
  | none =>
    let kind := byteAt raw 2
    let seq := byteAt raw 3
    let body := (raw.drop 4).take ((byteAt raw 1).toNat - 2)
    match deskKind kind.toNat with
    | none => rejectFrame d seq .unknownKind kind s
    | some k =>
      if bodyGood k body.length then placeIntake ⟨d, k, seq, body⟩ raw s
      else rejectFrame d seq .badLength kind s

/-- A DRAINING port becomes DISABLED at the end of its frame-end event (R73). -/
def endDraining (p : Port) : Port :=
  if p.state = .draining then { p with state := .disabled } else p

/-- A frame-end event (R60 to R64, R73): `idle` says that the frame ended at an idle line, `next`
is the receive phase after it. -/
def endFrame (d : DeskIx) (raw : List Byte) (idle : Bool) (next : RxPhase) (s : State) : State :=
  let p := s.desks.ports[d]
  let dropped := p.state = .disabled ∨ p.rxDisabled = true
  let s := withPort d (fun p => { p with phase := next, rx := [], rxDisabled := false }) s
  let s :=
    if dropped then
      countPort d (fun c => { c with dropped := sat16 (c.dropped + 1) }) s
    else checkFrame d raw idle s
  withPort d endDraining s

/-- DESK_BYTE (R60): byte `b` taken by the receiver of `d` by its phase. -/
def execDeskByte (d : DeskIx) (b : Byte) (s : State) : Host.Outcome State Fault Refusal :=
  .next <|
    let p := s.desks.ports[d]
    match p.phase with
    | .discard => s
    | .hunt =>
      if b = deskStart then
        withPort d
          (fun p => { p with phase := .inFrame, rx := [b], rxDisabled := p.state == .disabled }) s
      else s
    | .inFrame =>
      let raw := p.rx ++ [b]
      let len := byteAt raw 1
      if 2 ≤ raw.length ∧ len.toNat < 153 ∧ impliedLength len ≤ raw.length then
        endFrame d raw false .hunt s
      else if 157 ≤ raw.length then endFrame d raw false .discard s
      else withPort d (fun p => { p with rx := raw }) s

/-- LINE_IDLE (R60): no byte has begun on the line of `d` for 2 ms. -/
def execLineIdle (d : DeskIx) (s : State) : Host.Outcome State Fault Refusal :=
  .next <|
    let p := s.desks.ports[d]
    match p.phase with
    | .hunt => s
    | .inFrame => endFrame d p.rx true .hunt s
    | .discard => withPort d (fun p => { p with phase := .hunt }) s

/-- DESK_TX_DONE (R69): the frame in transmission has been sent, and the transmitter takes the
next. -/
def execDeskTxDone (d : DeskIx) (s : State) : Host.Outcome State Fault Refusal :=
  .next <| withPort d (fun p => { p with tx := none }.kick) s

/-! ## DESK_PORT -/

/-- The write-back of a DESK_PORT: entry bytes 16..35 (R74, R181). -/
def portWriteBack (s : State) (d : DeskIx) : List Byte :=
  let p := s.desks.ports[d]
  let c := p.counters
  leBytes 1 p.state.code ++ leBytes 1 p.replyQ.length ++ leBytes 1 s.desks.intake.length
    ++ leBytes 1 s.desks.paused.toNat ++ leBytes 2 c.framesTaken ++ leBytes 2 c.runt
    ++ leBytes 2 c.long ++ leBytes 2 c.crc ++ leBytes 2 c.rejected ++ leBytes 2 c.dropped
    ++ leBytes 2 c.overflow ++ leBytes 2 c.lost

/-- A port enabled (R72). -/
def enablePort (d : DeskIx) (s : State) : State :=
  if s.desks.ports[d].state = .enabled then s
  else
    let s := withPort d (fun p => { p with state := .enabled }.kick) s
    if s.desks.paused then placePause s.desks.cfg.pauseTime d s else s

/-- A port disabled (R73): its queued replies are lost, and it drains the frame it is taking. The manual
names no order in which they are counted and raised: the head goes first (log entry 44). -/
def disablePort (d : DeskIx) (s : State) : State :=
  let p := s.desks.ports[d]
  if p.state ≠ .enabled then s
  else
    let s := (p.replyQ.filter (!·.isPause)).foldl (fun s f => loseFrame d f s)
      (withPort d (fun p => { p with replyQ := [] }) s)
    withPort d
      (fun p => { p with state := if p.phase = .inFrame then .draining else .disabled }) s

/-- A DESK_PORT of a good desk, action and clear flag (R72 to R74). -/
def takePort (d : DeskIx) (action : Nat) (clear : Bool) (s : State) : State :=
  let s := if action = 1 then enablePort d s else if action = 2 then disablePort d s else s
  let o : EntryOutcome := ⟨.done, s.desks.ports[d].state.code, portWriteBack s d⟩
  let s := if clear then countPort d (fun _ => {}) s else s
  finishWith o s

/-- DESK_PORT (R72 to R74). The manual names no order of the checks: the desk number goes first, then the
action, then the clear flag (log entry 43). -/
def execDeskPort (s : State) : Host.Outcome State Fault Refusal :=
  .next <| takeEntry .deskPort (fun f s =>
    let b := entryBody f.bytes
    let desk := fieldAt b 0 1
    match indexOf? 8 (desk - 1) with
    | none => finishOpen .badIndex s
    | some d =>
      if desk = 0 then finishOpen .badIndex s
      else if 2 < fieldAt b 1 1 then finish .badField 2 s
      else if 1 < fieldAt b 2 1 then finish .badField 3 s
      else takePort d (fieldAt b 1 1) (fieldAt b 2 1 == 1) s) s

end Sys2Proof.Machine
end

