-- ==== Sys2Proof/Machine/Configure.lean ====
section
/-! DEFINITION. CONFIGURE and SETTINGS_EVENT: the pages of settings, their checks, and what each owner
does at the event it takes its new settings (R24, R34, R68, R108, R147, R169, R170, R173). -/

namespace Sys2Proof.Machine

/-! ## Pages -/

/-- The fields of a band set, in the order of its table. -/
def bandFields (b : BandSet) : List Nat :=
  [b.fillingOn, b.fillingOff, b.fewOn, b.fewOff, b.lastOn, b.lastOff, b.fullOff, b.exactLimit,
    b.step]

/-- A band set from its fields. -/
def bandSetOfFields (l : List Nat) : BandSet :=
  ⟨l.getD 0 0, l.getD 1 0, l.getD 2 0, l.getD 3 0, l.getD 4 0, l.getD 5 0, l.getD 6 0, l.getD 7 0,
    l.getD 8 0⟩

/-- A severity's code (R173). -/
def severityCode : Severity → Nat
  | .severe => 0 | .minor => 1

/-- The settings of one cause as three fields (R173). -/
def causeFields (c : CauseSettings) : List Nat :=
  [severityCode c.severity, c.detectMask.toNat, c.signalMask.toNat]

/-- The settings of one cause from three fields. -/
def causeOfFields (l : List Nat) : CauseSettings :=
  ⟨if l.getD 0 0 = 0 then .severe else .minor, l.getD 1 0 != 0, l.getD 2 0 != 0⟩

/-- The present values of a page's fields, in field number order (CONFIGURE; CONFIGURE pages). -/
def pageFields (c : Settings) : Nat → List Nat
  | 0 =>
    [c.nearWindow, c.shows.holdExpiry, c.shows.holdMaxSeats, c.notices.deskPriorityCap,
      c.notices.takeoverClass, c.notices.minCover, c.resumeLimit, c.underrunLimit,
      c.retry.backoffCap, c.retry.retryLimit, c.lfsrSeed, c.desks.pauseOn, c.desks.pauseOff,
      c.desks.pauseTime, c.window.pollInterval, c.shows.priorityDelayed, c.shows.prioritySoldOut,
      c.shows.priorityDoorsOpen, c.shows.priorityCancelled, steerCode c.window.steerSevere,
      steerCode c.window.steerMinor, steerCode c.window.steerMirror, steerCode c.window.steerDrained]
  | 1 => bandFields c.shows.bandSets[0] ++ bandFields c.shows.bandSets[1]
  | 2 => bandFields c.shows.bandSets[2] ++ bandFields c.shows.bandSets[3]
  | 3 => c.causes.toList.flatMap causeFields
  | _ => []

/-- The settings with page 0's fields replaced. -/
def withPageZero (c : Settings) (l : List Nat) : Settings :=
  { c with
    nearWindow := l.getD 0 0
    shows := { c.shows with
      holdExpiry := l.getD 1 0, holdMaxSeats := l.getD 2 0, priorityDelayed := l.getD 15 0,
      prioritySoldOut := l.getD 16 0, priorityDoorsOpen := l.getD 17 0,
      priorityCancelled := l.getD 18 0 }
    notices := ⟨l.getD 3 0, l.getD 5 0, l.getD 4 0⟩
    resumeLimit := l.getD 6 0
    underrunLimit := l.getD 7 0
    retry := ⟨l.getD 8 0, l.getD 9 0⟩
    lfsrSeed := l.getD 10 0
    desks := ⟨l.getD 11 0, l.getD 12 0, l.getD 13 0⟩
    window :=
      ⟨l.getD 14 0, steerOf (l.getD 19 0), steerOf (l.getD 20 0), steerOf (l.getD 21 0),
        steerOf (l.getD 22 0)⟩ }

/-- The settings with two band sets replaced (pages 1 and 2). -/
def withBandSets (c : Settings) (a b : Fin 4) (l : List Nat) : Settings :=
  { c with
    shows := { c.shows with
      bandSets := put (put c.shows.bandSets a (bandSetOfFields (l.take 9))) b
        (bandSetOfFields (l.drop 9)) } }

/-- The settings with a page's fields replaced. -/
def withPage (c : Settings) (page : Nat) (l : List Nat) : Settings :=
  match page with
  | 0 => withPageZero c l
  | 1 => withBandSets c 0 1 l
  | 2 => withBandSets c 2 3 l
  | _ => { c with causes := Vector.ofFn fun i => causeOfFields (l.drop (3 * i.val)) }

/-- Widths of a band set's fields in bytes. -/
def bandWidths : List Nat := [2, 2, 2, 2, 2, 2, 1, 2, 1]

/-- Widths of a page's fields in bytes (CONFIGURE pages). -/
def pageWidths : Nat → List Nat
  | 0 => [2, 2, 1, 1, 1, 1, 2, 1, 1, 1, 2, 1, 1, 2, 2, 1, 1, 1, 1, 1, 1, 1, 1]
  | 1 | 2 => bandWidths ++ bandWidths
  | _ => List.replicate 39 1

/-- Fields packed in order (CONFIGURE pages). -/
def readPacked : List Nat → List Byte → List Nat
  | [], _ => []
  | w :: rest, b => leNat (b.take w) :: readPacked rest (b.drop w)

/-- Ranges of a band set's fields (Seat Tally and Bands). -/
def bandRanges : List (Nat × Nat) :=
  [(0, 1000), (0, 999), (0, 1000), (0, 999), (0, 65535), (0, 500), (1, 50), (0, 2000), (1, 100)]

/-- Ranges of a page's fields, where each setting is given. -/
def pageRanges : Nat → List (Nat × Nat)
  | 0 =>
    [(60, 7200), (30, 1800), (1, 50), (0, 63), (8, 16), (0, 10), (5, 600), (1, 10), (0, 10), (1, 16),
      (0, 65535), (0, 32), (0, 32), (1, 65535), (1, 1000), (0, 63), (0, 63), (0, 63), (0, 63),
      (0, 2), (0, 2), (0, 2), (0, 2)]
  | 1 | 2 => bandRanges ++ bandRanges
  | _ => List.replicate 39 (0, 1)

/-- The values a page would be left with: the entry's where marked, the present ones otherwise;
`n` is the number of the first field. -/
def mergeFields (mask : Nat) : Nat → List Nat → List Nat → List Nat
  | n, p :: present, e :: entry =>
    (if marked mask n then e else p) :: mergeFields mask (n + 1) present entry
  | _, _, _ => []

/-- The number of the first field out of its range (R169). Fields not marked hold their present
values, which are in range. -/
def outOfRange : Nat → List (Nat × Nat) → List Nat → Option Nat
  | n, r :: ranges, v :: values =>
    if r.1 ≤ v ∧ v ≤ r.2 then outOfRange (n + 1) ranges values else some n
  | _, _, _ => none

/-- The number of the later field of the first constraint a band set fails, its first field being
number `n` (R24). -/
def bandConstraint (n : Nat) (b : BandSet) : Option Nat :=
  if ¬ b.fillingOff < b.fillingOn then some (n + 1)
  else if ¬ b.fillingOn ≤ b.fewOn then some (n + 2)
  else if ¬ b.fewOff < b.fewOn then some (n + 3)
  else if ¬ b.lastOn < b.lastOff then some (n + 5)
  else none

/-- The number of the later field of the first constraint a page fails (R169). -/
def pageConstraint (page : Nat) (l : List Nat) : Option Nat :=
  match page with
  | 0 => if l.getD 11 0 ≠ 0 ∧ ¬ l.getD 12 0 < l.getD 11 0 then some 13 else none
  | 1 | 2 =>
    (bandConstraint 1 (bandSetOfFields (l.take 9))).or (bandConstraint 10 (bandSetOfFields (l.drop 9)))
  | _ => none

/-- Fields whose value differs (R170). -/
def countChanged : List Nat → List Nat → Nat
  | a :: as, b :: bs => (if a = b then 0 else 1) + countChanged as bs
  | _, _ => 0

/-! ## CONFIGURE -/

/-- Whether the settings that an owner takes differ (R170). -/
def ownerDiffers (a b : Settings) : Owner → Bool
  | .showTable => a.shows != b.shows
  | .noticeArbiter => a.notices != b.notices
  | .airtimeScheduler => a.airtime != b.airtime
  | .displayController => a.resumeLimit != b.resumeLimit
  | .streamEngine => a.stream != b.stream
  | .deskLine => a.desks != b.desks
  | .faultUnit => a.causes != b.causes

/-- The owners in the order of R170. -/
def allOwners : List Owner :=
  [.showTable, .noticeArbiter, .airtimeScheduler, .displayController, .streamEngine, .deskLine,
    .faultUnit]

/-- The owners whose settings differ (R170). -/
def changedOwners (a b : Settings) : List Owner := allOwners.filter (ownerDiffers a b)

/-- Settings written, and each owner whose settings changed handed one settings event (R170). -/
def applySettings (f : Flight) (c : Settings) (changed : Nat) (s : State) : State :=
  match changedOwners s.win.cfg c with
  | [] => finish .done changed { s with win := { s.win with cfg := c } }
  | owners =>
    { s with
      win := { s.win with
        cfg := c
        settingsQ := s.win.settingsQ ++ owners.map fun o => (o, c)
        flight := some { f with taken := true, awaiting := owners, changed := changed } } }

/-- A CONFIGURE entry taken by the Window Interface (R169, R170). -/
def takeConfigure (f : Flight) (s : State) : State :=
  let b := entryBody f.bytes
  let page := fieldAt b 0 1
  if 3 < page then finish .badField 0 s
  else
    let present := pageFields s.win.cfg page
    let left := mergeFields (fieldAt b 4 8) 1 present (readPacked (pageWidths page) (b.drop 12))
    match (outOfRange 1 (pageRanges page) left).or (pageConstraint page left) with
    | some n => finish .badField n s
    | none => applySettings f (withPage s.win.cfg page left) (countChanged present left) s

/-- CONFIGURE (R169, R170). -/
def execConfigure (s : State) : Host.Outcome State Fault Refusal :=
  .next <| takeEntry .configure takeConfigure s

/-! ## Settings events -/

/-- A show recomputed after a change of its band set, as an event of its own (R34). -/
def rebandShow (old : ShowSettings) (i : ShowIx) (s : State) : State :=
  let sh := s.shows.recs[i]
  if sh.state ≠ .empty ∧ old.bandSets[sh.bandSet] ≠ s.shows.cfg.bandSets[sh.bandSet] then
    commitShow i sh (recompute i sh noCapture s)
  else s

/-- The Show Table takes its settings (R34, R58). Where both band sets change, the shows of the two are recomputed
in one pass by show index, the model's choice (log entry 81). -/
def adoptShows (c : ShowSettings) (s : State) : State :=
  let old := s.shows.cfg
  (List.finRange 64).foldl (fun s i => rebandShow old i s)
    { s with shows := { s.shows with cfg := c } }

/-- The Desk Line Controller takes its settings (R68). -/
def adoptDesks (c : DeskSettings) (s : State) : State :=
  let s := { s with desks := { s.desks with cfg := c } }
  if s.desks.paused then
    if c.pauseOn = 0 ∨ s.desks.intake.length ≤ c.pauseOff then clearPaused s else s
  else if c.pauseOn ≠ 0 ∧ c.pauseOn ≤ s.desks.intake.length then setPaused s
  else s

/-- The Stream Engine takes its settings; a changed lfsr_seed is loaded (R147). -/
def adoptStream (c : StreamSettings) (s : State) : State :=
  let seed := if c.lfsrSeed = 0 then defaultSeed else c.lfsrSeed
  { s with
    stream := { s.stream with
      cfg := c
      lfsr := if c.lfsrSeed = s.stream.cfg.lfsrSeed then s.stream.lfsr else BitVec.ofNat 16 seed } }

/-- An owner takes its new settings (R170). -/
def adopt (o : Owner) (c : Settings) (s : State) : State :=
  match o with
  | .showTable => adoptShows c.shows s
  | .noticeArbiter =>
    noticeEvent none (fun s => { s with arb := { s.arb with cfg := c.notices } }) s
  | .airtimeScheduler => { s with air := { s.air with cfg := c.airtime } }
  | .displayController => { s with displays := { s.displays with resumeLimit := c.resumeLimit } }
  | .streamEngine => adoptStream c.stream s
  | .deskLine => adoptDesks c.desks s
  | .faultUnit => { s with faults := { s.faults with cfg := c.causes } }

/-- A CONFIGURE whose owners have all taken their settings events gets its outcome (R170). A
settings event left from before a lobby reset does not count for a later CONFIGURE that waits for
the same owner. -/
def settleConfigure (o : Owner) (s : State) : State :=
  match s.win.flight with
  | none => s
  | some f =>
    if f.awaiting.contains o ∧ ¬ s.win.settingsQ.any (·.1 == o) then
      let f := { f with awaiting := f.awaiting.filter (· != o) }
      let s := { s with win := { s.win with flight := some f } }
      if f.awaiting = [] then finish .done f.changed s else s
    else s

/-- SETTINGS_EVENT (R170): `owner` takes its oldest settings event. -/
def execSettingsEvent (owner : Owner) (s : State) : Host.Outcome State Fault Refusal :=
  .next <|
    match takeFirst (fun x : Owner × Settings => x.1 == owner) s.win.settingsQ with
    | some (x, rest) =>
      settleConfigure owner
        (adopt owner x.2 { s with win := { s.win with settingsQ := rest } })
    | none => s

end Sys2Proof.Machine
end

