-- ==== Sys2Proof/Machine/Display.lean ====
section
/-! DEFINITION. The Display Controller: setup, enable and disable, link events, the loop, board pages,
trailer slots, takeovers and strips (R129 to R143). -/

namespace Sys2Proof.Machine

/-! ## Display records and what the Display Controller sends -/

/-- A display record changed in place. -/
def withDisplay (d : DisplayIx) (f : DisplayRec → DisplayRec) (s : State) : State :=
  { s with displays := { s.displays with recs := put s.displays.recs d (f s.displays.recs[d]) } }

/-- A report sent to the Notice Arbiter (R93). -/
def reportDisplay (r : DisplayReport) (s : State) : State :=
  { s with bus := { s.bus with displayReports := s.bus.displayReports ++ [r] } }

/-- A request sent to the Stream Engine (R148, R155, R156). -/
def requestStream (r : StreamRequest) (s : State) : State :=
  { s with bus := { s.bus with streamReqs := s.bus.streamReqs ++ [r] } }

/-- A decision request sent to the Airtime Scheduler (R135). -/
def requestDecision (r : DecisionRequest) (s : State) : State :=
  { s with bus := { s.bus with decisions := s.bus.decisions ++ [r] } }

/-- PANEL_LINK_LOST raised (R133). -/
def raiseLinkLost (d : DisplayIx) : State → State :=
  raise .displayController .panelLinkLost (.display d.val) noCapture

/-- A display's segment over: nothing on air, nothing suspended. The rows of its page and its dwell are
the model's choice, as the manual states neither once a segment has left the air: none, and 0 (log
entries 28 and 55). feature, which the record has for TRAILER only, stays that of the last trailer
(log entry 72). -/
def DisplayRec.idle (r : DisplayRec) : DisplayRec :=
  { r with
    segment := .none, dwellLeft := 0, pageRows := [], suspended := false, suspendStart := none,
    dwellDue := false, renewed := [] }

/-- A segment is on air while it is BOARD, HOUSE or TRAILER. -/
def Segment.onAir : Segment → Bool
  | .board | .house | .trailer => true
  | .none | .deciding => false

/-! ## Board pages -/

/-- A show put at its place in a board list: by start, ties to the lower index (R139). -/
def insertRow (s : State) (i : ShowIx) : List ShowIx → List ShowIx
  | [] => [i]
  | j :: rest =>
    if s.shows.recs[i].start < s.shows.recs[j].start then i :: j :: rest
    else j :: insertRow s i rest

/-- The shows that a display's board lists, in order (R139). -/
def boardList (s : State) (mask : BitVec 24) : List ShowIx :=
  ((List.finRange 64).filter fun i =>
    isListed s.shows.recs[i] && mask.getLsbD s.shows.recs[i].auditorium).foldl
      (fun l i => insertRow s i l) []

/-- The row of a show as its record stands (R139). -/
def rowOf (s : State) (i : ShowIx) : RowData :=
  let sh := s.shows.recs[i]
  ⟨i, sh.titleCode, sh.auditorium, sh.start, sh.state.code, sh.band, sh.seatsShown, sh.plusMarker⟩

/-- The page a composition shows of `n` shows, and the page count (R139). -/
def nextPage (page : Option Nat) (rows n : Nat) : Nat × Nat :=
  let pages := (n + rows - 1) / rows
  match page with
  | none => (0, pages)
  | some p => (if pages ≤ p + 1 then 0 else p + 1, pages)

/-- The slots of the drop reports that wait to be taken, oldest first. -/
def waitingDrops (s : State) : List ShowIx := (s.bus.showReports.filter (·.dropped)).map (·.showIx)

/-- A board page composed and sent (R139). A drop report that waits here is of a show that had left before
the page was composed (R140; log entry 54). -/
def composeBoard (d : DisplayIx) (s : State) : State :=
  let r := s.displays.recs[d]
  let l := boardList s r.setup.auditoriumMask
  if l = [] then
    sendPanel d (.house 0)
      (withDisplay d (fun r => { r with pageRows := [], renewed := waitingDrops s }) s)
  else
    let p := nextPage r.page r.setup.rowsPerPage l.length
    let rows := (l.drop (p.1 * r.setup.rowsPerPage)).take r.setup.rowsPerPage
    let s := withDisplay d (fun r => { r with
      page := some p.1, pages := p.2, pageRows := rows.map fun i => ⟨i, false⟩
      renewed := waitingDrops s }) s
    sendPanels d (.pageBegin p.1 p.2 rows.length :: rows.map fun i => .row (rowOf s i)) s

/-! ## The loop -/

/-- A segment that starts while takeover is set starts suspended (R135, R137). -/
def suspendIfTaken (now : Nat) (r : DisplayRec) : DisplayRec :=
  if r.takeover then { r with suspended := true, suspendStart := some now } else r

/-- A BOARD segment started (R135, R139). -/
def startBoard (d : DisplayIx) (s : State) : State :=
  let now := s.clock.partSeconds
  composeBoard d
    (withDisplay d (fun r =>
      suspendIfTaken now { r.idle with segment := .board, dwellLeft := r.setup.boardDwell }) s)

/-- The slot at loop_pos started by its kind (R135). -/
def startSlot (d : DisplayIx) (s : State) : State :=
  let now := s.clock.partSeconds
  let r := s.displays.recs[d]
  match r.setup.loop[r.loopPos]? with
  | some (.house card) =>
    sendPanel d (.house card)
      (withDisplay d (fun r =>
        suspendIfTaken now { r.idle with segment := .house, dwellLeft := r.setup.houseDwell }) s)
  | some .trailer =>
    requestDecision ⟨d, r.setup.formatMask, r.segmentNo⟩
      (withDisplay d (fun r => { r.idle with segment := .deciding }) s)
  | some .board | none => startBoard d s

/-- segment_no advanced (R133, R135). -/
def advanceSegment (r : DisplayRec) : DisplayRec := { r with segmentNo := (r.segmentNo + 1) % 256 }

/-- loop_pos advanced, wrapping after the last slot (R135). -/
def advanceLoop (r : DisplayRec) : DisplayRec :=
  { r with loopPos := if r.setup.loop.length ≤ r.loopPos + 1 then 0 else r.loopPos + 1 }

/-- A segment end in ON: the loop moves and the next slot starts (R135). -/
def moveLoop (d : DisplayIx) (s : State) : State :=
  startSlot d (withDisplay d (fun r => advanceSegment (advanceLoop r)) s)

/-- A segment ended unfinished at the Stream Engine: for a trailer, an abandon request (R138). -/
def abandonSegment (d : DisplayIx) (s : State) : State :=
  let r := s.displays.recs[d]
  if r.segment = .trailer then requestStream (.abandon d r.segmentNo) s else s

/-- A display becomes OFF (R134): segment NONE, STRIP_CLEAR where its link is up, and the off
report. -/
def turnOff (d : DisplayIx) (s : State) : State :=
  reportDisplay (.off d)
    (sendPanel d .stripClear (withDisplay d (fun r => { r.idle with state := .off }) s))

/-- A segment end: in ON the loop moves, in DRAINING the display becomes OFF (R135, R134). -/
def endSegment (d : DisplayIx) (s : State) : State :=
  match s.displays.recs[d].state with
  | .on => moveLoop d s
  | .draining => turnOff d s
  | .off | .starting | .linkLost => s

/-- A display begins its loop at slot 0 in ON, with the link up report (R133). -/
def beginLoop (d : DisplayIx) (s : State) : State :=
  reportDisplay (.linkUp d)
    (startSlot d
      (withDisplay d (fun r => advanceSegment { r with state := .on, loopPos := 0 }) s))

/-! ## Journal entries -/

/-- The display index of an entry; BAD_INDEX beyond 15. -/
def withDisplayIndex (x : Flight) (act : DisplayIx → State → State) (s : State) : State :=
  match indexOf? 16 (fieldAt (entryBody x.bytes) 0 1) with
  | none => finishOpen .badIndex s
  | some d => act d s

/-- The entry ends DONE with the display's state code as detail. -/
def finishDisplay (d : DisplayIx) (s : State) : State :=
  finish .done s.displays.recs[d].state.code s

/-- A setup with the fields marked change taken from a body (R130). -/
def setUp (m : Nat → Bool) (b : SetupBody) (c : DisplaySetup) : DisplaySetup where
  tag := if m 1 then b.tag else c.tag
  auditoriumMask := if m 2 then BitVec.ofNat 24 b.auditoriumMask else c.auditoriumMask
  loop := if m 3 then b.loop.getD c.loop else c.loop
  rowsPerPage := if m 4 then b.rowsPerPage else c.rowsPerPage
  boardDwell := if m 5 then b.boardDwell else c.boardDwell
  houseDwell := if m 6 then b.houseDwell else c.houseDwell
  floor := if m 7 then b.floor else c.floor
  formatMask := if m 8 then b.formatMask else c.formatMask
  lowMark := if m 9 then b.lowMark else c.lowMark
  highMark := if m 10 then b.highMark else c.highMark

/-- The number of the first setup field that is bad, if one is (R130). -/
def badSetupField (m : Nat → Bool) (b : SetupBody) (after : DisplaySetup) : Option Nat :=
  if m 3 ∧ b.loop = none then some 3
  else if m 4 ∧ ¬ (1 ≤ b.rowsPerPage ∧ b.rowsPerPage ≤ 12) then some 4
  else if m 5 ∧ ¬ (4 ≤ b.boardDwell ∧ b.boardDwell ≤ 120) then some 5
  else if m 6 ∧ ¬ (4 ≤ b.houseDwell ∧ b.houseDwell ≤ 120) then some 6
  else if m 7 ∧ ¬ b.floor ≤ 16 then some 7
  else if m 9 ∧ ¬ (16 ≤ b.lowMark ∧ b.lowMark ≤ 112) then some 9
  else if (m 10 ∧ ¬ b.highMark ≤ 128) ∨
      ((m 9 ∨ m 10) ∧ ¬ after.lowMark + 8 ≤ after.highMark) then some 10
  else none

/-- A field other than auditorium_mask and floor is marked change (R130). -/
def marksOffField (m : Nat → Bool) : Bool := [1, 3, 4, 5, 6, 8, 9, 10].any m

/-- A DISPLAY_SETUP of display `d` (R130, R131). -/
def setupDisplay (b : SetupBody) (d : DisplayIx) (s : State) : State :=
  let m := marked b.mask
  let r := s.displays.recs[d]
  let after := setUp m b r.setup
  if marksOffField m ∧ r.state ≠ .off then finish .wrongState r.state.code s
  else
    match badSetupField m b after with
    | some n => finish .badField n s
    | none =>
      let t := withDisplay d (fun r => { r with setup := after }) s
      let t := if after.floor ≠ r.setup.floor then reportDisplay (.floor d after.floor) t else t
      finishDisplay d (settleDisplay s d t)

/-- DISPLAY_SETUP (R130, R131). -/
def execDisplaySetup (s : State) : Host.Outcome State Fault Refusal :=
  .next <| takeEntry .displaySetup (fun x =>
    withDisplayIndex x (setupDisplay (readSetupBody (entryBody x.bytes)))) s

/-- A DISPLAY_ENABLE of display `d` (R132), whose tag is in use from here on (R131). Where its link is up, the link up that follows is a
LINK_UP event of its own. -/
def enableDisplay (d : DisplayIx) (s : State) : State :=
  match s.displays.recs[d].state with
  | .off =>
    let t := reportDisplay (.enabled d s.displays.recs[d].setup.tag)
      (withDisplay d (fun r => { r.idle with state := .starting, loopPos := 0, page := none }) s)
    finishDisplay d (settleDisplay s d t)
  | .starting | .on | .linkLost => finishDisplay d s
  | .draining => finish .wrongState DisplayState.draining.code s

/-- DISPLAY_ENABLE (R132). -/
def execDisplayEnable (s : State) : Host.Outcome State Fault Refusal :=
  .next <| takeEntry .displayEnable (fun x => withDisplayIndex x enableDisplay) s

/-- A display begins to drain (R134). -/
def beginDraining (d : DisplayIx) (s : State) : State :=
  reportDisplay (.draining d)
    (sendPanel d .stripClear (withDisplay d (fun r => { r with state := .draining }) s))

/-- What a DISPLAY_DISABLE does to a display (R134). -/
def disableDisplay (d : DisplayIx) (s : State) : State :=
  let r := s.displays.recs[d]
  match r.state with
  | .draining | .off => s
  | .starting | .linkLost => turnOff d s
  | .on =>
    if !r.segment.onAir then turnOff d s
    else if r.suspended then turnOff d (abandonSegment d s)
    else if r.segment = .trailer then
      requestStream (.finish d r.segmentNo) (beginDraining d s)
    else beginDraining d s

/-- DISPLAY_DISABLE (R134). -/
def execDisplayDisable (s : State) : Host.Outcome State Fault Refusal :=
  .next <| takeEntry .displayDisable (fun x => withDisplayIndex x fun d s =>
    finishDisplay d (settleDisplay s d (disableDisplay d s))) s

/-! ## Link events -/

/-- LINK_UP (R133, R157, R158): a link up of `d`, from its link-detect input or, in STARTING, the
Display Controller's own of R132. -/
def execLinkUp (d : DisplayIx) (s : State) : Host.Outcome State Fault Refusal :=
  .next <|
    let t := withLink d PanelLink.kick (withDisplay d (fun r => { r with linkUp := true }) s)
    let t :=
      match s.displays.recs[d].state with
      | .starting | .linkLost => beginLoop d t
      | .off | .on | .draining => t
    settleDisplay s d t

/-- What a link down does to the transmitter: its queues empty without count and its frame stops
(R157). -/
def PanelLink.drop (l : PanelLink) : PanelLink :=
  { l with control := [], clip := none, tx := none }

/-- LINK_DOWN (R133, R157, R158) of `d`. -/
def execLinkDown (d : DisplayIx) (s : State) : Host.Outcome State Fault Refusal :=
  .next <|
    let t := withLink d PanelLink.drop (withDisplay d (fun r => { r with linkUp := false }) s)
    let t :=
      match s.displays.recs[d].state with
      | .on =>
        reportDisplay (.linkLost d)
          (raiseLinkLost d
            (withDisplay d (fun r => { r.idle with state := .linkLost }) (abandonSegment d t)))
      | .draining => turnOff d (raiseLinkLost d (abandonSegment d t))
      | .off | .starting | .linkLost => t
    settleDisplay s d t

/-! ## Dwell, decisions, end reports -/

/-- DWELL_EXPIRY (R136) of `d`: where a tick has brought its dwell to its end. -/
def execDwellExpiry (d : DisplayIx) (s : State) : Host.Outcome State Fault Refusal :=
  .next <|
    if s.displays.recs[d].dwellDue then
      settleDisplay s d (endSegment d (withDisplay d (fun r => { r with dwellDue := false }) s))
    else s

/-- A release report NOT_STARTED sent to the Airtime Scheduler (R125, R137). -/
def releaseNotStarted (f : FeatureIx) (s : State) : State :=
  { s with bus := { s.bus with displayReleases := s.bus.displayReleases ++ [⟨f, .notStarted⟩] } }

/-- A trailer started on the Stream Engine (R137). -/
def startTrailer (d : DisplayIx) (f : FeatureIx) (s : State) : State :=
  let now := s.clock.partSeconds
  let r := s.displays.recs[d]
  requestStream (.start d f r.segmentNo r.setup.lowMark r.setup.highMark r.takeover)
    (withDisplay d (fun r => suspendIfTaken now { r.idle with segment := .trailer, feature := f }) s)

/-- A decision reply taken (R137). A BOARD reply ends the DECIDING slot, so segment_no advances,
and starts a page in its place, so loop_pos does not (log entry 9). -/
def takeReply (r : DecisionReply) (s : State) : State :=
  let x := s.displays.recs[r.display]
  if x.state = .on ∧ x.segment = .deciding ∧ x.segmentNo = r.segmentNo then
    settleDisplay s r.display <|
      match r.choice with
      | some f => startTrailer r.display f s
      | none => startBoard r.display (withDisplay r.display advanceSegment s)
  else
    match r.choice with
    | some f => releaseNotStarted f s
    | none => s

/-- DECISION_REPLY (R137): the oldest decision reply for `d`. -/
def execDecisionReply (d : DisplayIx) (s : State) : Host.Outcome State Fault Refusal :=
  .next <|
    match takeFirst (fun r : DecisionReply => r.display == d) s.bus.replies with
    | some (r, rest) => takeReply r { s with bus := { s.bus with replies := rest } }
    | none => s

/-- END_REPORT (R138): the oldest end report. -/
def execEndReport (s : State) : Host.Outcome State Fault Refusal :=
  .next <|
    match s.bus.endReports with
    | [] => s
    | e :: rest =>
      let s := { s with bus := { s.bus with endReports := rest } }
      let r : DisplayRec := s.displays.recs[e.display]
      if r.segment = .trailer ∧ r.segmentNo = e.segmentNo then
        settleDisplay s e.display (endSegment e.display s)
      else s

/-! ## Row updates -/

/-- A show-changed report says that the show of a row on air at a display has left the listed set: it
carries the state EMPTY (R14) of the show the row was composed from, or it names listed and the show
is no longer in the set (R140). A drop report that already waited when the page was composed is of an
earlier show of the slot (log entry 54). -/
def leftListed (s : State) (d : DisplayIx) (x : ShowReport) : Bool :=
  (x.dropped && !s.displays.recs[d].renewed.contains x.showIx)
    || (x.fields.contains .listed && !isListed s.shows.recs[x.showIx])

/-- What a show-changed report sends for a row of a page on air: none, or the row's fields and
whether it takes its ENDED mark (R14, R140). The fields are those of the record as it stands, that of
a reloaded slot too (log entry 52). A report that names listed alone, of a show that is in the listed
set, fits none of R140's three cases: nothing is sent (log entry 69). -/
def rowUpdate (s : State) (d : DisplayIx) (x : ShowReport) : Option (RowData × Bool) :=
  if leftListed s d x then
    some ({ rowOf s x.showIx with stateCode := endedCode }, true)
  else if x.fields.any
      ([.state, .start, .titleCode, .auditorium, .band, .seatsShown, .plusMarker].contains ·) then
    some (rowOf s x.showIx, false)
  else none

/-- A show-changed report taken at one display (R140). -/
def updateRow (x : ShowReport) (d : DisplayIx) (s : State) : State :=
  let r := s.displays.recs[d]
  if r.segment = .board ∧ r.pageRows.contains ⟨x.showIx, false⟩ then
    match rowUpdate s d x with
    | none => s
    | some (row, ended) =>
      let mark (p : PageRow) : PageRow := if p.showIx = x.showIx then { p with ended := true } else p
      settleDisplay s d
        (sendPanel d (.rowUpdate row)
          (if ended then withDisplay d (fun r => { r with pageRows := r.pageRows.map mark }) s
          else s))
  else s

/-- A drop report that a page's composition came before no longer waits (log entry 54). -/
def DisplayRec.passDrop (x : ShowReport) (r : DisplayRec) : DisplayRec :=
  if x.dropped then { r with renewed := r.renewed.erase x.showIx } else r

/-- A show-changed report taken at every display in index order (R140). -/
def updateRows (x : ShowReport) (s : State) : State :=
  (List.finRange 16).foldl
    (fun s d => withDisplay d (DisplayRec.passDrop x) (updateRow x d s)) s

/-- SHOW_CHANGED_REPORT (R140): the oldest show-changed report. -/
def execShowChangedReport (s : State) : Host.Outcome State Fault Refusal :=
  .next <|
    match s.bus.showReports with
    | [] => s
    | x :: rest => updateRows x { s with bus := { s.bus with showReports := rest } }

/-! ## Takeovers and strips -/

/-- The head of the Notice Arbiter's signals taken off their queue. -/
def popSignal (s : State) : State := { s with bus := { s.bus with signals := s.bus.signals.tail } }

/-- A takeover begin taken in ON (R141): a segment on air is suspended from now, one already suspended
too. -/
def beginTakeover (d : DisplayIx) (s : State) : State :=
  let now := s.clock.partSeconds
  let r := s.displays.recs[d]
  let s := sendPanel d .takeoverBegin s
  if r.segment.onAir then
    let s := withDisplay d (fun r => { r with
      suspended := true, suspendStart := some now, dwellDue := false }) s
    if r.segment = .trailer then requestStream (.hold d r.segmentNo) s else s
  else s

/-- TAKEOVER_BEGIN (R141): the head of the Notice Arbiter's signals, a takeover begin. -/
def execTakeoverBegin (s : State) : Host.Outcome State Fault Refusal :=
  .next <|
    match s.bus.signals with
    | .takeoverBegin d :: _ =>
      let s := popSignal s
      let t := withDisplay d (fun r => { r with takeover := true }) s
      settleDisplay s d (if s.displays.recs[d].state = .on then beginTakeover d t else t)
    | _ => s

/-- A takeover end taken in ON: the suspended segment resumes, or is ended unfinished (R142). -/
def endTakeover (d : DisplayIx) (s : State) : State :=
  let r := s.displays.recs[d]
  let s := sendPanel d .takeoverEnd s
  if r.suspended then
    if s.clock.partSeconds - r.suspendStart.getD 0 < s.displays.resumeLimit then
      let s := withDisplay d (fun r => { r with suspended := false, suspendStart := none }) s
      if r.segment = .trailer then requestStream (.resume d r.segmentNo) s else s
    else moveLoop d (abandonSegment d s)
  else s

/-- TAKEOVER_END (R142): the head of the Notice Arbiter's signals, a takeover end. -/
def execTakeoverEnd (s : State) : Host.Outcome State Fault Refusal :=
  .next <|
    match s.bus.signals with
    | .takeoverEnd d :: _ =>
      let s := popSignal s
      let t := withDisplay d (fun r => { r with takeover := false }) s
      settleDisplay s d (if s.displays.recs[d].state = .on then endTakeover d t else t)
    | _ => s

/-- The frame a strip report sends (R143). -/
def stripFrame : Option (Nat × Nat × Content) → PanelFrame
  | some (ref, cls, content) => .strip ref cls content
  | none => .stripClear

/-- STRIP_REPORT (R143): the head of the Notice Arbiter's signals, a strip report. -/
def execStripReport (s : State) : Host.Outcome State Fault Refusal :=
  .next <|
    match s.bus.signals with
    | .strip d top :: _ =>
      let s := popSignal s
      if s.displays.recs[d].state = .on then settleDisplay s d (sendPanel d (stripFrame top) s)
      else s
    | _ => s

end Sys2Proof.Machine
end

