-- ==== Sys2Proof/Machine/FaultUnit.lean ====
section
/-! DEFINITION. The Fault Unit: FAULT_RAISE and FAULT_CLEAR (R174 to R178). -/

namespace Sys2Proof.Machine

/-- The records of a severity. -/
def FaultUnit.of (u : FaultUnit) : Severity → SeverityRec
  | .severe => u.severe
  | .minor => u.minor

/-- The records of a severity replaced. -/
def FaultUnit.replaced (u : FaultUnit) (sev : Severity) (r : SeverityRec) : FaultUnit :=
  match sev with
  | .severe => { u with severe := r }
  | .minor => { u with minor := r }

/-- A raise recorded: it fills an empty first record (R175), and otherwise goes to the next record
(R176). -/
def SeverityRec.record (r : SeverityRec) (x : Raise) (now : Nat) : SeverityRec :=
  match r.first with
  | none => { r with first := some ⟨x.cause, x.source, now, x.capture⟩ }
  | some _ =>
    { r with
      causes := if r.causes.contains x.cause then r.causes else r.causes ++ [x.cause]
      count := sat16 (r.count + 1) }

/-- The STATUS bit of a severity set (R168, R174). -/
def signal (sev : Severity) (s : State) : State :=
  { s with
    win := { s.win with
      causes := match sev with
        | .severe => { s.win.causes with severe := true }
        | .minor => { s.win.causes with minor := true } } }

/-- A raise taken by the Fault Unit, by the cause's settings as they stand (R174, R178). -/
def takeRaise (x : Raise) (s : State) : State :=
  let c := s.faults.cfg[x.cause.code]
  if c.detectMask then s
  else
    let r := (s.faults.of c.severity).record x (lobbyStamp s)
    let s := handMirror (.fault c.severity) { s with faults := s.faults.replaced c.severity r }
    if c.signalMask then s else signal c.severity s

/-- FAULT_RAISE (R174): the oldest raise of `block` is taken. -/
def execFaultRaise (block : Raiser) (s : State) : Host.Outcome State Fault Refusal :=
  .next <|
    match takeFirst (fun x : Raiser × Raise => x.1 == block) s.bus.raises with
    | some (x, rest) => takeRaise x.2 { s with bus := { s.bus with raises := rest } }
    | none => s

/-- The records of a severity emptied, with the outcome (R177). -/
def clearFaults (sev : Severity) (s : State) : State :=
  let r := s.faults.of sev
  if r = {} then finish .done 0 s
  else
    finish .done r.count
      (handMirror (.fault sev) { s with faults := s.faults.replaced sev {} })

/-- FAULT_CLEAR (R177). -/
def execFaultClear (s : State) : Host.Outcome State Fault Refusal :=
  .next <| takeEntry .faultClear (fun f s =>
    match fieldAt (entryBody f.bytes) 0 1 with
    | 0 => clearFaults .severe s
    | 1 => clearFaults .minor s
    | _ => finish .badField 1 s) s

end Sys2Proof.Machine
end

