-- ==== Sys2Proof/Machine/Hold.lean ====
section
/-! DEFINITION. The desk requests the Show Table takes and the expiry of holds: HOLD, EXTEND,
RELEASE, ASK, HOLD_EXPIRY (R44 to R49, R71). -/

namespace Sys2Proof.Machine

/-! ## HOLD -/

/-- Why a HOLD is refused, with the avail its reply carries; none where it is placed (R44). -/
def holdRefusal (s : State) (d : DeskIx) (n seats : Nat) : Option (Reason × Nat) :=
  match indexOf? 64 n with
  | none => some (.noShow, 0)
  | some i =>
    let sh := s.shows.recs[i]
    if sh.state = .empty then some (.noShow, 0)
    else if ¬ (sh.state = .selling ∨ sh.state = .seating ∨ sh.state = .running) then
      some (.notSelling, sh.avail)
    else if ¬ (1 ≤ seats ∧ seats ≤ s.shows.cfg.holdMaxSeats) then some (.badSize, sh.avail)
    else if ¬ deskHolds s d < deskHoldLimit then some (.deskLimit, sh.avail)
    else if ¬ s.shows.holdList.length < 192 then some (.tableFull, sh.avail)
    else if sh.avail < seats then some (.noSeats, sh.avail)
    else none

/-- The hold a HOLD places (R45). -/
def newHold (s : State) (d : DeskIx) (i : ShowIx) (seats : Nat) : HoldRec :=
  ⟨d, i, seats, sat32 (s.clock.partSeconds + s.shows.cfg.holdExpiry), 0,
    wrap32 (s.shows.placementCounter + 1)⟩

/-- A hold placed in slot `k` (R45). The reply's seconds_left is hold_expiry, also where the expiry has
saturated (log entry 57). -/
def placeHold (d : DeskIx) (seq : Byte) (i : ShowIx) (seats : Nat) (k : HoldIx) (s : State) :
    State :=
  let before := s.shows.recs[i]
  let h := newHold s d i seats
  let s := { s with
    shows := { s.shows with
      recs := put s.shows.recs i { before with held := before.held + seats }
      holds := put s.shows.holds k { s.shows.holds[k] with hold := some h }
      placementCounter := h.placedSeq } }
  let s := { s with
    shows := { s.shows with holdList := enterHold (expiryOf s) k s.shows.holdList } }
  let s := recompute i before noCapture s
  let s := commitShow i before (handMirror (.hold k) s)
  sendDesk d seq (.holdOk (holdRef s k) i before.showCode seats s.shows.cfg.holdExpiry) s

/-- A HOLD request taken (R44, R45). -/
def takeHold (e : IntakeEntry) (s : State) : State :=
  let n := fieldAt e.body 0 1
  let seats := fieldAt e.body 1 1
  match holdRefusal s e.desk n seats, indexOf? 64 n, freeHoldSlot s with
  | none, some i, some k => placeHold e.desk e.seq i seats k s
  | some (r, avail), _, _ => sendDesk e.desk e.seq (.holdRefused r n avail) s
  | none, _, _ => sendDesk e.desk e.seq (.holdRefused .tableFull n 0) s

/-- HOLD (R44, R45). -/
def execHold (s : State) : Host.Outcome State Fault Refusal :=
  .next <| takeRequest .hold takeHold s

/-! ## EXTEND and RELEASE -/

/-- Extensions a hold may take (R46). -/
def maxExtensions : Nat := 2

/-- A hold extended (R47). The reply's seconds_left is hold_expiry, also where the expiry has saturated
(log entry 57). -/
def extendHold (e : IntakeEntry) (ref : Nat) (k : HoldIx) (h : HoldRec) (s : State) : State :=
  let h := { h with
    expiry := sat32 (s.clock.partSeconds + s.shows.cfg.holdExpiry)
    extensionsUsed := h.extensionsUsed + 1
    placedSeq := wrap32 (s.shows.placementCounter + 1) }
  let s := { s with
    shows := { s.shows with
      holds := put s.shows.holds k { s.shows.holds[k] with hold := some h }
      placementCounter := h.placedSeq } }
  let s := { s with
    shows := { s.shows with
      holdList := enterHold (expiryOf s) k (s.shows.holdList.filter (· != k)) } }
  sendDesk e.desk e.seq
    (.extended ref s.shows.cfg.holdExpiry (maxExtensions - h.extensionsUsed))
    (handMirror (.hold k) s)

/-- An EXTEND request taken (R46). -/
def takeExtend (e : IntakeEntry) (s : State) : State :=
  let ref := fieldAt e.body 0 2
  match liveHold s ref with
  | none => sendDesk e.desk e.seq (.extendRefused ref .notLive) s
  | some (k, h) =>
    if h.desk ≠ e.desk then sendDesk e.desk e.seq (.extendRefused ref .notOwner) s
    else if ¬ h.extensionsUsed < maxExtensions then
      sendDesk e.desk e.seq (.extendRefused ref .limit) s
    else extendHold e ref k h s

/-- EXTEND (R46, R47). -/
def execExtend (s : State) : Host.Outcome State Fault Refusal :=
  .next <| takeRequest .extend takeExtend s

/-- A hold freed under its show, with the show's recomputation and records (R48, R49). -/
def freeAndCommit (k : HoldIx) (h : HoldRec) (s : State) : State :=
  let before := s.shows.recs[h.showIx]
  commitShow h.showIx before
    (handMirror (.hold k) (recompute h.showIx before noCapture (freeHold k s)))

/-- A RELEASE request taken (R48). -/
def takeRelease (e : IntakeEntry) (s : State) : State :=
  let ref := fieldAt e.body 0 2
  match liveHold s ref with
  | none => sendDesk e.desk e.seq (.releaseRefused ref .unknownHold) s
  | some (k, h) =>
    if h.desk ≠ e.desk then sendDesk e.desk e.seq (.releaseRefused ref .notOwner) s
    else sendDesk e.desk e.seq (.released ref h.showIx h.seats) (freeAndCommit k h s)

/-- RELEASE (R48). -/
def execRelease (s : State) : Host.Outcome State Fault Refusal :=
  .next <| takeRequest .release takeRelease s

/-! ## HOLD_EXPIRY -/

/-- HOLD_EXPIRY (R49): the head of the Hold List, where its expiry is at or before part seconds. No mark
ties it to the tick that reached the expiry (log entry 56). -/
def execHoldExpiry (s : State) : Host.Outcome State Fault Refusal :=
  .next <|
    match s.shows.holdList with
    | [] => s
    | k :: _ =>
      match holdAt s k with
      | none => s
      | some h =>
        if h.expiry ≤ s.clock.partSeconds then
          sendDesk h.desk 0 (holdEndedMsg s k h .expired) (freeAndCommit k h s)
        else s

/-! ## ASK -/

/-- The SHOW_STATUS that answers an ASK of show index `n` (R71). -/
def showStatus (s : State) (n : Nat) : DeskMsg :=
  match indexOf? 64 n with
  | none => .showStatus n 0 .empty 0 .openHouse 0 false false
  | some i =>
    let sh := s.shows.recs[i]
    .showStatus n sh.showCode sh.state sh.avail sh.band sh.seatsShown sh.plusMarker sh.oversold

/-- ASK (R71). -/
def execAsk (s : State) : Host.Outcome State Fault Refusal :=
  .next <| takeRequest .ask (fun e s =>
    sendDesk e.desk e.seq (showStatus s (fieldAt e.body 0 1)) s) s

end Sys2Proof.Machine
end

