-- ==== Sys2Proof/Machine/Notice.lean ====
section
/-! DEFINITION. Posting, collapse, clearing and expiry of notices: NOTICE_POST, DESK_NOTICE_POST,
AUTO_NOTICE_REQUEST, NOTICE_CLEAR, DESK_NOTICE_CLEAR, CLEAR_REQUEST, CLOSURE_REPORT, NOTICE_EXPIRY
(R80 to R89, R101). -/

namespace Sys2Proof.Machine

/-! ## What becomes of a post -/

/-- What becomes of a post that has passed its field checks (R82, R84). -/
inductive PostResult where
  | collapsed (i : NoticeIx)
  | created (i : NoticeIx)
  /-- The bound show's slot is EMPTY. -/
  | noShow (i : ShowIx)
  /-- The bound show is CLOSED or CANCELLED. -/
  | deadShow (st : ShowState)
  | tableFull
  deriving DecidableEq, Repr

/-- What becomes of a post (R82, R84). -/
def postResult (p : Post) (s : State) : PostResult :=
  match findKey s p.origin p.topic with
  | some i => .collapsed i
  | none =>
    let bound := p.bound.filter fun b => !s.shows.recs[b].state.isLive
    match bound, freeNoticeSlot s with
    | some b, _ =>
      if s.shows.recs[b].state = .empty then .noShow b else .deadShow s.shows.recs[b].state
    | none, none => .tableFull
    | none, some i => .created i

/-- The slot of a post that is taken. -/
def PostResult.slot : PostResult → Option NoticeIx
  | .collapsed i | .created i => some i
  | .noShow _ | .deadShow _ | .tableFull => none

/-- The expiry of a notice of a duration, from now (R82, R84). -/
def noticeExpiry (s : State) (duration : Nat) : Option Nat :=
  if duration = 0 then none else some (sat32 (s.clock.partSeconds + duration))

/-- A notice created in slot `i` and offered to the displays (R82, R102, R103). A display that is LINK_LOST
takes it too, by R102 and R93 against a sentence of R109 (log entry 60). -/
def createNotice (p : Post) (i : NoticeIx) (s : State) : State :=
  let seq := wrap32 (s.arb.postCounter + 1)
  let n : Notice :=
    { origin := p.origin, topic := p.topic, priority := p.priority, mode := p.mode,
      target := p.target, bound := p.bound, content := p.content, truncated := p.truncated,
      duration := p.duration, expiry := noticeExpiry s p.duration, postSeq := seq,
      placed := none, aired := 0 }
  let s := setNotice i n { s with
    arb := { s.arb with postCounter := seq, order := s.arb.order ++ [i] } }
  match p.mode with
  | .all =>
    let ds := (List.finRange 16).filter fun d => takesNotices s d && displayMatches s p.target d
    evaluateAll ds (ds.foldl (fun s d => enterPending i d s) s)
  | .anyOne => placeNotice i s

/-! ## Collapse at the displays -/

/-- A notice on a stack keeps its order there: its class is above the one below and below the one
above (R101). The stack is top first. -/
def inOrder (s : State) (i : NoticeIx) : List NoticeIx → Bool
  | a :: b :: rest =>
    if a = i then classAt s b < classAt s i
    else if b = i then
      classAt s i < classAt s a && rest.head?.all (fun c => classAt s c < classAt s i)
    else inOrder s i (b :: rest)
  | _ => true

/-- A collapse taken at one display that holds the notice (R101). A push of the evaluation sends its
own strip report, which names the new content; the collapse sends one where the notice stayed the
top. -/
def collapseAt (i : NoticeIx) (s : State) (d : DisplayIx) : State :=
  let a := s.arb.recs[d]
  if !a.stack.contains i then evaluateAll [d] s
  else if inOrder s i a.stack then
    let s := evaluateAll [d] s
    if s.arb.recs[d].stack.head? = some i then reportStrip d s else s
  else evaluateAll [d] (enterPending i d (removeAt i d s))

/-- A collapse taken at a display, where the display still holds the notice. -/
def collapseWhereHeld (i : NoticeIx) (s : State) (d : DisplayIx) : State :=
  if holdsNotice s i d then collapseAt i s d else s

/-- A post collapsed onto the live notice of slot `i` (R84, R101). -/
def collapseNotice (p : Post) (i : NoticeIx) (s : State) : State :=
  match noticeAt s i with
  | none => s
  | some n =>
    let s := setNotice i
      { n with
        priority := p.priority, content := p.content, truncated := p.truncated,
        duration := p.duration, expiry := noticeExpiry s p.duration } s
    (holders s i).foldl (fun s d => collapseWhereHeld i s d) s

/-- A post taken as one event, or nothing where it is refused (R82, R84). -/
def applyPost (p : Post) (s : State) : State :=
  match postResult p s with
  | .collapsed i => noticeEvent (some i) (collapseNotice p i) s
  | .created i => noticeEvent none (createNotice p i) s
  | .noShow _ | .deadShow _ | .tableFull => s

/-! ## Field checks -/

/-- The bound show of a body (field 6). -/
def PostBody.bound (b : PostBody) : Option ShowIx := indexOf? 64 b.boundShow

/-- The content of a body with its text (fields 7, 8, 10). -/
def PostBody.content (b : PostBody) (text : List Byte) : Content :=
  match cardKind b.contentKind, indexOf? 64 b.cardShow with
  | some k, some i => .card k i
  | _, _ => .text text

/-- Fields 3 to 9 of a body, each with whether it is good (R80, R81). -/
def postFieldChecks (b : PostBody) : List (Nat × Bool) :=
  [(3, b.mode ≤ 1), (4, (targetKind b.targetKind).isSome),
   (5, (targetOf? b.targetKind b.targetValue).isSome), (6, b.boundShow < 64 || b.boundShow == 255),
   (7, b.contentKind ≤ 4), (8, b.contentKind == 0 || b.cardShow < 64), (9, b.duration ≤ 3600)]

/-- The number of the first field of a post that is not good. -/
def badPostField : List (Nat × Bool) → Option Nat
  | [] => none
  | (n, good) :: rest => if good then badPostField rest else some n

/-- The post of a body whose fields are good; `truncated` says that its text was cut. -/
def PostBody.post (b : PostBody) (o : Origin) (priority : Nat) (text : List Byte)
    (truncated : Bool) : Post where
  origin := o
  topic := b.topic
  priority := priority
  mode := if b.mode = 1 then .anyOne else .all
  target := (targetOf? b.targetKind b.targetValue).getD {}
  bound := b.bound
  content := b.content text
  truncated := truncated
  duration := b.duration

/-! ## The three ways to post -/

/-- The outcome of a journal post that has been taken or refused (R80, R82); `before` is the state
the post was taken in. -/
def finishPost (before : State) (r : PostResult) (truncated : Bool) (s : State) : State :=
  match r with
  | .collapsed i | .created i =>
    finish (if truncated then .truncated else .done) (noticeRef before i) s
  | .noShow b => finish .noRecord b.val s
  | .deadShow st => finish .wrongState st.code s
  | .tableFull => finish .tableFull 0 s

/-- A journal NOTICE_POST taken (R80). For card content field 10 is not looked at, so no text is cut. -/
def takePost (f : Flight) (s : State) : State :=
  let body := entryBody f.bytes
  let b := readPostBody body
  match badPostField ((2, decide (b.priority ≤ 63)) :: postFieldChecks b) with
  | some n => finish .badField n s
  | none =>
    let p := b.post .boxOffice b.priority f.text
      (b.contentKind == 0 && maxText < postTextLength body)
    finishPost s (postResult p s) p.truncated (applyPost p s)

/-- NOTICE_POST (R80, R82, R84). -/
def execNoticePost (s : State) : Host.Outcome State Fault Refusal :=
  .next <| takeEntry .noticePost takePost s

/-- The reply to a desk post that has been taken or refused (R81, R82). -/
def postReply (s : State) (p : Post) (r : PostResult) (clamped : Bool) : DeskMsg :=
  match r with
  | .collapsed i => .noticeTaken (noticeRef s i) p.priority true clamped p.truncated
  | .created i => .noticeTaken (noticeRef s i) p.priority false clamped p.truncated
  | .noShow _ | .deadShow _ => .noticeRefused .noShow 0
  | .tableFull => .noticeRefused .tableFull 0

/-- A desk NOTICE_POST taken (R81): a text of more than 120 bytes is cut and the post marked truncated,
whatever its content (log entry 26). -/
def takeDeskPost (e : IntakeEntry) (s : State) : State :=
  let b := readPostBody e.body
  let text := e.body.drop 10
  match badPostField (postFieldChecks b) with
  | some n => sendDesk e.desk e.seq (.noticeRefused .badField n) s
  | none =>
    let cap := s.arb.cfg.deskPriorityCap
    let p := b.post (.desk e.desk) (min b.priority cap) (text.take maxText) (maxText < text.length)
    sendDesk e.desk e.seq (postReply s p (postResult p s) (cap < b.priority)) (applyPost p s)

/-- DESK_NOTICE_POST (R81). -/
def execDeskNoticePost (s : State) : Host.Outcome State Fault Refusal :=
  .next <| takeRequest .noticePost takeDeskPost s

/-- AUTO_NOTICE_REQUEST (R83): the head of what the Show Table has sent, an auto-notice request. -/
def execAutoNoticeRequest (s : State) : Host.Outcome State Fault Refusal :=
  .next <|
    match s.bus.toArbiter with
    | .auto p :: rest => applyPost p { s with bus := { s.bus with toArbiter := rest } }
    | _ => s

/-! ## Clearing and closing -/

/-- A journal NOTICE_CLEAR (R85). -/
def takeClear (ref : Nat) (s : State) : State :=
  match liveNotice s ref with
  | none => finish .noRecord ref s
  | some (i, _) => finish .done ref (noticeEvent none (endNotice .cleared i) s)

/-- NOTICE_CLEAR (R85). -/
def execNoticeClear (s : State) : Host.Outcome State Fault Refusal :=
  .next <| takeEntry .noticeClear (fun f => takeClear (fieldAt (entryBody f.bytes) 0 2)) s

/-- A desk NOTICE_CLEAR (R86). The manual states no value for the priority byte of its NOTICE_TAKEN:
it is a free value (log entry 3). -/
def takeDeskClear (e : IntakeEntry) (s : State) : State :=
  let ref := fieldAt e.body 0 2
  match liveNotice s ref with
  | none => sendDesk e.desk e.seq (.noticeRefused .unknownNotice 0) s
  | some (i, n) =>
    if n.origin ≠ .desk e.desk then sendDesk e.desk e.seq (.noticeRefused .notOwner 0) s
    else
      let priority := (Config.freePriority s.freeCount).toNat
      noticeEvent none (endNotice .cleared i)
        (sendDesk e.desk e.seq (.noticeTaken ref priority false false false)
          { s with freeCount := s.freeCount + 1 })

/-- DESK_NOTICE_CLEAR (R86). -/
def execDeskNoticeClear (s : State) : Host.Outcome State Fault Refusal :=
  .next <| takeRequest .noticeClear takeDeskClear s

/-- CLEAR_REQUEST (R87): the head of what the Show Table has sent, a clear request for the SOLD_OUT
key of a show. -/
def execClearRequest (s : State) : Host.Outcome State Fault Refusal :=
  .next <|
    match s.bus.toArbiter with
    | .clear b :: rest =>
      let s := { s with bus := { s.bus with toArbiter := rest } }
      match findKey s .schedule (autoTopic .soldOut b) with
      | some i => noticeEvent none (endNotice .cleared i) s
      | none => s
    | _ => s

/-- The live notices bound to a show, oldest first (R89). -/
def boundTo (s : State) (b : ShowIx) : List NoticeIx :=
  s.arb.order.filter fun i => (noticeAt s i).any (·.bound == some b)

/-- CLOSURE_REPORT (R89): the head of what the Show Table has sent, a closure report. -/
def execClosureReport (s : State) : Host.Outcome State Fault Refusal :=
  .next <|
    match s.bus.toArbiter with
    | .closure b reason :: rest =>
      let s := { s with bus := { s.bus with toArbiter := rest } }
      noticeEvent none (endNotices reason (boundTo s b)) s
    | _ => s

/-! ## Expiry -/

/-- The notice that ends next at part second `now`: earliest expiry, oldest first (R88). -/
def nextExpired (s : State) (now : Nat) : List NoticeIx → Option (Nat × NoticeIx)
  | [] => none
  | i :: rest =>
    let later := nextExpired s now rest
    match (noticeAt s i).bind (·.expiry) with
    | none => later
    | some e =>
      if now < e then later
      else
        match later with
        | none => some (e, i)
        | some (e', j) => if e ≤ e' then some (e, i) else some (e', j)

/-- NOTICE_EXPIRY (R88): the first notice whose expiry is at or before part seconds ends. No mark ties it
to the tick that reached the expiry (log entry 68). -/
def execNoticeExpiry (s : State) : Host.Outcome State Fault Refusal :=
  .next <|
    match nextExpired s s.clock.partSeconds s.arb.order with
    | some (_, i) => noticeEvent none (endNotice .expired i) s
    | none => s

end Sys2Proof.Machine
end

