-- ==== Sys2Proof/Machine/Reset.lean ====
section
/-! DEFINITION. Power-on reset and the lobby reset, block by block (R1 to R3, R21, R40, R55, R59, R75,
R76, R91, R92, R110, R128, R129, R144, R145, R157, R160, R172, R178). -/

namespace Sys2Proof.Machine

/-! ## Power-on reset -/

/-- POWER_ON_RESET: every block at its power-on values, with the link-detect levels as found
(R129, R158). The queue of commands, the bytes already in host memory and the count of open values
used are no state of the part and stay. -/
def execPowerOnReset (links : BitVec 16) (s : State) : Host.Outcome State Fault Refusal :=
  .next
    { State.reset with
      pending := s.pending
      hostMem := s.hostMem
      freeCount := s.freeCount
      displays := { State.reset.displays with
        recs := mapAll (fun i r => { r with linkUp := links.getLsbD i.val })
          State.reset.displays.recs } }

/-! ## The lobby reset, block by block -/

/-- The Window Interface at a lobby reset (R172). -/
def resetWindow (w : WindowIf) : WindowIf :=
  { w with
    runBit := false
    runState := .stopped
    starting := false
    stopping := false
    stallCause := .none
    anchorCheck := 0
    session := (w.session + 1) % 256
    anchorRead := none
    markRead := none
    pollTimer := none
    causes := {}
    flight := none
    heldOutcome := none
    rewriting := false
    startDone := false
    writeQ := w.writeQ.filter (·.target != .outcome) }

/-- The Show Table at a lobby reset: every slot EMPTY, every hold freed (R1, R55). -/
def resetShows (t : ShowTable) : ShowTable :=
  { t with
    recs := Vector.replicate 64 {}
    holds := t.holds.map fun sl => if sl.hold.isSome then ⟨(sl.gen + 1) % 256, none⟩ else sl
    holdList := [] }

/-- The Desk Line Controller at a lobby reset (R59, R75): an entry in hand stays. -/
def resetDesks (l : DeskLine) : DeskLine :=
  { l with ports := Vector.replicate 8 {}, intake := [], paused := false, pauseTimer := none }

/-- The Notice Arbiter at a lobby reset (R91, R92). -/
def resetArbiter (a : Arbiter) : Arbiter :=
  { a with
    slots := a.slots.map fun sl => if sl.notice.isSome then ⟨(sl.gen + 1) % 256, none⟩ else sl
    order := []
    recs := a.recs.map fun r => { floor := r.floor } }

/-- The Airtime Scheduler at a lobby reset (R128). -/
def resetAirtime (a : Airtime) : Airtime :=
  { a with
    features := a.features.map fun r => { validationNo := r.validationNo }
    lastTrailer := Vector.replicate 16 none }

/-- A display at a lobby reset: its setup and link_up stay (R129). -/
def resetDisplay (r : DisplayRec) : DisplayRec := { setup := r.setup, linkUp := r.linkUp }

/-- A panel link at a lobby reset: a frame in transmission finishes (R157). -/
def resetLink (l : PanelLink) : PanelLink := { tx := l.tx }

/-- The Stream Engine at a lobby reset (R145, R157). -/
def resetStream (e : StreamEngine) : StreamEngine :=
  { e with
    recs := e.recs.map fun r => { streamNo := (r.streamNo + 1) % 65536 }
    lastGrant := 15
    links := e.links.map resetLink }

/-- A display state report, which a lobby reset discards, as against a floor report. -/
def DisplayReport.isFloor : DisplayReport → Bool
  | .floor _ _ => true
  | _ => false

/-- A catch-up, which stays, as against the Show Table half of a CLOCK_SET (R20, R172). -/
def ClockMsg.isCatchUp : ClockMsg → Bool
  | .catchUp _ _ => true
  | .setHalf _ _ _ => false

/-- Messages between blocks at a lobby reset (log entry 8): what the owners' chapters discard goes,
what they take after the reset stays. -/
def resetBus (b : Bus) : Bus :=
  { b with
    fromClock := b.fromClock.filter ClockMsg.isCatchUp
    toArbiter := []
    displayReports := b.displayReports.filter DisplayReport.isFloor
    streamReqs := []
    drainReqs := []
    decisions := []
    replies := []
    streamReleases := []
    displayReleases := [] }

/-- Every block reset, before the frames and writes the reset makes. -/
def resetBlocks (s : State) : State :=
  { s with
    win := resetWindow s.win
    clock := { s.clock with dueList := [] }
    shows := resetShows s.shows
    desks := resetDesks s.desks
    arb := resetArbiter s.arb
    air := resetAirtime s.air
    displays := { s.displays with recs := s.displays.recs.map resetDisplay }
    stream := resetStream s.stream
    bus := resetBus s.bus }

/-- Every mirror record but the two fault records (R178), in the order a lobby reset hands them. The manual
names none; displays stand before notices here (log entry 59). -/
def resetMirrors : List MirrorId :=
  (List.finRange 64).map .showRec ++ (List.finRange 192).map .hold
    ++ (List.finRange 32).map .feature ++ (List.finRange 16).map .display
    ++ (List.finRange 96).map .notice

/-- STRIP_CLEAR to a display that was not OFF and has its link up (R144). -/
def clearStrip (before : State) (d : DisplayIx) (s : State) : State :=
  if before.displays.recs[d].state = .off then s else sendPanel d .stripClear s

/-- The lobby reset (R172). No show-changed report is sent for the shows it empties, the model's choice (log
entry 74). The run echo goes behind the mirror records, the model's choice (log entry
59). -/
def lobbyReset (s : State) : State :=
  let t := (List.finRange 16).foldl (fun t d => clearStrip s d t) (resetBlocks s)
  placeAnchor .runEcho (handAll resetMirrors t)

end Sys2Proof.Machine
end

