-- ==== Sys2Proof/Machine/Window.lean ====
section
/-! DEFINITION. The Window Interface's own events: starting and recovery, the publish mark, taking
an entry, control read failures, the write path, MARK (R159 to R167, R171, R80's text read). -/

namespace Sys2Proof.Machine

/-! ## Starting, stopping, recovering -/

/-- A held outcome and the entry it belongs to are discarded, and its outcome write with them. -/
def discardHeld (s : State) : State :=
  if s.win.heldOutcome.isSome then
    { s with
      win := { s.win with
        heldOutcome := none
        rewriting := false
        flight := none
        writeQ := s.win.writeQ.filter (·.target != .outcome) } }
  else s

/-- A start (R162): the session advances and the anchor is read. A start written while a stop still
waits for the entry in flight abandons an entry not yet handed, and the stop is then done.
An outcome held from an earlier stall is discarded with its entry, as at the stop that
comes before any other start (log entry 13). -/
def beginStart (s : State) : State :=
  let s := discardHeld (advanceSession { s with win := { s.win with runBit := true } })
  let s :=
    if s.win.runState = .running ∧ s.win.flight = none then setRunState .stopped .none s else s
  issueAnchorRead
    { s with win := { s.win with starting := true, startDone := false, anchorRead := some {} } }

/-- A stop: RUN from 1 to 0 (R161). -/
def stopRun (s : State) : State :=
  let s := { s with win := { s.win with runBit := false } }
  let s :=
    if s.win.starting then
      advanceSession { s with win := { s.win with starting := false } }
    else s
  match s.win.runState with
  | .stopped => s
  | .running =>
    if s.win.flight = none then setRunState .stopped .none s
    else { s with win := { s.win with stopping := true } }
  | .stalled => setRunState .stopped .none (discardHeld (advanceSession s))

/-- A recovery: the session advances and the anchor is read (R165). A held outcome that an earlier recovery
has queued to be written again stays queued, and its sending makes the part RUNNING (log entry 65). -/
def recover (s : State) : State :=
  let s := advanceSession s
  issueAnchorRead { s with win := { s.win with anchorRead := some {} } }

/-- The number of the first start check an anchor fails, or 0 (R162). -/
def startCheck (a : AnchorBody) : Nat :=
  if ¬ (isPowerOfTwo a.windowLength ∧ 4194304 ≤ a.windowLength ∧ a.windowLength ≤ 268435456) then 1
  else if ¬ (isPowerOfTwo a.capacity ∧ 16 ≤ a.capacity ∧ a.capacity ≤ 1024) then 2
  else if ¬ (a.journalOffset % 64 = 0 ∧ 256 ≤ a.journalOffset ∧
      a.journalOffset + 64 * a.capacity ≤ a.windowLength) then 3
  else if ¬ (a.mirrorOffset % 64 = 0 ∧ 256 ≤ a.mirrorOffset ∧
      a.mirrorOffset + mirrorBytes ≤ a.windowLength ∧
      (a.mirrorOffset + mirrorBytes ≤ a.journalOffset ∨
        a.journalOffset + 64 * a.capacity ≤ a.mirrorOffset)) then 4
  else if ¬ diff32 a.publishMark a.takeMark ≤ a.capacity then 5
  else 0

/-- The geometry an anchor gives. -/
def AnchorBody.geometry (a : AnchorBody) : Geometry :=
  ⟨a.windowLength, a.journalOffset, a.capacity, a.mirrorOffset⟩

/-- An anchor read for a start has completed (R162). An outcome held by now, of an entry that an earlier
run had handed, is discarded, and the entry is read again from the take mark loaded (log entry
13). An entry handed before a stop from STALLED and still without its outcome written stays in flight
across the start (log entry 70). The checks do not look at RUN, which a refusal may have cleared while
the anchor was read (log entry 73). -/
def finishStart (bytes : List Byte) (s : State) : State :=
  let s := discardHeld s
  let a := readAnchor bytes
  let n := startCheck a
  if n ≠ 0 then
    raise .windowInterface .anchorBad .none (bytes.take 16)
      (setRunState .stopped .none
        { s with win := { s.win with runBit := false, starting := false, anchorCheck := n } })
  else
    let fresh := !s.win.windowValid
    let s := setRunState .running .none
      { s with
        win := { s.win with
          geometry := a.geometry
          takeMark := a.takeMark
          publishMark := a.publishMark
          windowValid := true
          starting := false
          stopping := false
          startDone := true
          anchorCheck := 0 } }
    readNext (if fresh then handAll allMirrors s else s)

/-- An anchor read for a recovery has completed, a start having completed since RUN was set
(R165). An entry abandoned or given up is read again as the entry at T, and so not while the anchor's publish
mark equals T (log entry 80). -/
def finishRecovery (bytes : List Byte) (s : State) : State :=
  let a := readAnchor bytes
  if a.geometry ≠ s.win.geometry then
    raise .windowInterface .anchorBad .none (bytes.take 16)
      { s with win := { s.win with anchorCheck := 0 } }
  else if ¬ diff32 a.publishMark s.win.takeMark ≤ s.win.geometry.capacity then
    raise .windowInterface .journalMark .none noCapture
      (setRunState .stalled (if s.win.heldOutcome.isSome then .write else .mark) s)
  else
    let s := { s with win := { s.win with publishMark := a.publishMark } }
    match s.win.stallCause, s.win.flight, s.win.heldOutcome with
    | .write, some f, some o =>
      placeWrite (outcomeWrite s f o) { s with win := { s.win with rewriting := true } }
    | _, _, _ => readNext (setRunState .running .none s)

/-- The anchor read in its own session has completed with success. -/
def anchorDone (bytes : List Byte) (s : State) : State :=
  let s := { s with win := { s.win with anchorRead := none } }
  if s.win.starting then finishStart bytes s
  else if s.win.runState = .stalled then
    if s.win.startDone then finishRecovery bytes s else finishStart bytes s
  else s

/-- ANCHOR_READ_DONE (R162, R165; stale reads R159). -/
def execAnchorReadDone (slot : ReadSlot) (bytes : List Byte) (s : State) :
    Host.Outcome State Fault Refusal :=
  answer (.anchorReadDone slot bytes) <|
    match s.reads.slots[slot] with
    | some ⟨.anchor session, _, _, _⟩ =>
      if session = s.win.session then anchorDone bytes (freeRead slot s) else freeRead slot s
    | _ => s

/-! ## The publish mark -/

/-- A publish mark read is issued if none is outstanding (R163). One that stands in its retry wait counts as
outstanding, the model's choice (log entry 76). -/
def requestMark (s : State) : State :=
  if s.win.markRead.isSome then s
  else issueMarkRead { s with win := { s.win with markRead := some {} } }

/-- POLL_TIMER_EXPIRY (R163): where the poll timer has run out, it restarts and the publish mark is
read. -/
def execPollTimerExpiry (s : State) : Host.Outcome State Fault Refusal :=
  .next <|
    if s.win.runState = .running ∧ s.win.pollTimer = some 0 then
      requestMark
        { s with win := { s.win with pollTimer := some s.win.cfg.window.pollInterval } }
    else s

/-- The publish mark read in its own session has completed with value `v` (R163). -/
def markDone (v : Nat) (s : State) : State :=
  let s := { s with win := { s.win with markRead := none } }
  if s.win.runState ≠ .running then s
  else if diff32 v s.win.takeMark ≤ s.win.geometry.capacity then
    readNext { s with win := { s.win with publishMark := v } }
  else
    let s := if s.win.flight.any unread then advanceSession s else s
    raise .windowInterface .journalMark .none noCapture (setRunState .stalled .mark s)

/-- PUBLISH_MARK_READ_DONE (R163). -/
def execPublishMarkReadDone (slot : ReadSlot) (bytes : List Byte) (s : State) :
    Host.Outcome State Fault Refusal :=
  answer (.publishMarkReadDone slot bytes) <|
    match s.reads.slots[slot] with
    | some ⟨.publishMark session, _, _, _⟩ =>
      if session = s.win.session then markDone (leNat bytes) (freeRead slot s)
      else freeRead slot s
    | _ => s

/-! ## Taking an entry -/

/-- The entry in flight is handed to its owner, its time stamp taken (R164). -/
def handOver (s : State) (f : Flight) : State :=
  { s with win := { s.win with flight := some { f with phase := .handed, stamp := lobbyStamp s } } }

/-- The entry in flight is refused before it is handed; its time stamp is that of the refusal
(R164). -/
def refuseEntry (code : OutcomeCode) (detail : Nat) (f : Flight) (s : State) : State :=
  finish code detail (handOver s f)

/-- An entry's 64 bytes have been read: the header checks, and then the hand-over or the text read
(R164, R80). A NOTICE_POST of TEXT content with text length 0 is handed over at once, with no read
(log entry 53). -/
def entryDone (f : Flight) (s : State) : State :=
  match entryKind (byteAt f.bytes 0).toNat with
  | none =>
    refuseEntry .badKind 0 f
      (raise .windowInterface .journalEntry (.journalSlot f.slot) (f.bytes.take 16) s)
  | some k =>
    if (byteAt f.bytes 1) &&& 0xFE#8 ≠ 0#8 then refuseEntry .badField 0 f s
    else
      let body := entryBody f.bytes
      if k = .noticePost ∧ (readPostBody body).contentKind = 0 then
        if s.win.geometry.windowLength < postTextOffset body + textTaken f then
          refuseEntry .badField 10 f s
        else if textTaken f = 0 then handOver s f
        else
          issueTextRead f
            { s with win := { s.win with flight := some { f with phase := .text } } }
      else handOver s f

/-- ENTRY_READ_DONE (R164, R159). -/
def execEntryReadDone (slot : ReadSlot) (bytes : List Byte) (s : State) :
    Host.Outcome State Fault Refusal :=
  answer (.entryReadDone slot bytes) <|
    match s.reads.slots[slot] with
    | some ⟨.entry session, _, _, _⟩ =>
      let t := freeRead slot s
      match t.win.flight with
      | some f =>
        if session = t.win.session ∧ f.phase = .reading then
          entryDone { f with bytes := bytes, failures := 0, wait := none } t
        else t
      | none => t
    | _ => s

/-- TEXT_READ_DONE (R80, R159). -/
def execTextReadDone (slot : ReadSlot) (bytes : List Byte) (s : State) :
    Host.Outcome State Fault Refusal :=
  answer (.textReadDone slot bytes) <|
    match s.reads.slots[slot] with
    | some ⟨.text session, _, len, _⟩ =>
      if len ≠ bytes.length then s
      else
        let t := freeRead slot s
        match t.win.flight with
        | some f =>
          if session = t.win.session ∧ f.phase = .text then
            handOver t { f with text := bytes, failures := 0, wait := none }
          else t
        | none => t
    | _ => s

/-! ## Control read failures -/

/-- A control read is given up (R165). -/
def giveUpControl (source : FaultSource) (s : State) : State :=
  let s := advanceSession (raise .windowInterface .memReadControl source noCapture s)
  if s.win.stopping ∧ ¬ s.win.starting then setRunState .stopped .none s
  else
    setRunState .stalled (if s.win.heldOutcome.isSome then .write else .read)
      { s with win := { s.win with starting := false } }

/-- What the n-th failure of a control read comes to: none where it is given up, otherwise the wait
before it is issued again (R165). -/
def controlWait (n : Nat) (s : State) : Option Nat :=
  if n < s.win.cfg.retry.retryLimit then some (drawWait s.win.cfg.retry n s) else none

/-- The retry state of the entry in flight (R165). -/
def withFlight (f : Flight) (s : State) : State :=
  { s with win := { s.win with flight := some f } }

/-- The read of the entry in flight, of its bytes or of its text, issued again. -/
def reissueEntry (f : Flight) (s : State) : State :=
  if f.phase = .text then issueTextRead f s else issueEntryRead f s

/-- The anchor read has failed in its own session. -/
def anchorFailed (s : State) : State :=
  match s.win.anchorRead with
  | none => s
  | some r =>
    let n := r.failures + 1
    match controlWait n s with
    | none => giveUpControl .none s
    | some 0 => issueAnchorRead { s with win := { s.win with anchorRead := some ⟨n, none⟩ } }
    | some w => { s with win := { s.win with anchorRead := some ⟨n, some w⟩ } }

/-- The publish mark read has failed in its own session; not retried unless RUNNING (R163). -/
def markFailed (s : State) : State :=
  match s.win.markRead with
  | none => s
  | some r =>
    if s.win.runState ≠ .running then { s with win := { s.win with markRead := none } }
    else
      let n := r.failures + 1
      match controlWait n s with
      | none => giveUpControl .none s
      | some 0 => issueMarkRead { s with win := { s.win with markRead := some ⟨n, none⟩ } }
      | some w => { s with win := { s.win with markRead := some ⟨n, some w⟩ } }

/-- The read of the entry in flight, or of its text, has failed in its own session. -/
def entryFailed (s : State) : State :=
  match s.win.flight.filter unread with
  | none => s
  | some f =>
    let n := f.failures + 1
    match controlWait n s with
    | none => giveUpControl (.journalSlot f.slot) s
    | some 0 =>
      let f := { f with failures := n, wait := none }
      reissueEntry f (withFlight f s)
    | some w => withFlight { f with failures := n, wait := some w } s

/-- CONTROL_READ_FAILED (R165, R159). -/
def execControlReadFailed (slot : ReadSlot) (s : State) : Host.Outcome State Fault Refusal :=
  .next <|
    match s.reads.slots[slot] with
    | some ⟨.anchor session, _, _, _⟩ =>
      if session = s.win.session then anchorFailed (freeRead slot s) else freeRead slot s
    | some ⟨.publishMark session, _, _, _⟩ =>
      if session = s.win.session then markFailed (freeRead slot s) else freeRead slot s
    | some ⟨.entry session, _, _, _⟩ | some ⟨.text session, _, _, _⟩ =>
      if session = s.win.session then entryFailed (freeRead slot s) else freeRead slot s
    | _ => s

/-- CONTROL_READ_RETRY_EXPIRY (R165): a control read whose wait has run out is issued again. -/
def execControlReadRetryExpiry (which : ControlRead) (s : State) :
    Host.Outcome State Fault Refusal :=
  .next <|
    match which with
    | .anchor =>
      match s.win.anchorRead with
      | some ⟨n, some 0⟩ =>
        issueAnchorRead { s with win := { s.win with anchorRead := some ⟨n, none⟩ } }
      | _ => s
    | .publishMark =>
      match s.win.markRead with
      | some ⟨n, some 0⟩ =>
        issueMarkRead { s with win := { s.win with markRead := some ⟨n, none⟩ } }
      | _ => s
    | .entry =>
      match s.win.flight with
      | some f =>
        if unread f ∧ f.wait = some 0 then
          let f := { f with wait := none }
          reissueEntry f (withFlight f s)
        else s
      | none => s

/-! ## The write path -/

/-- A mirror record write has been sent (R167, R168). -/
def mirrorSent (s : State) : State :=
  placeAnchor .mirrorGen
    { s with
      win := { s.win with
        mirrorGen := wrap32 (s.win.mirrorGen + 1)
        causes := { s.win.causes with mirror := true } } }

/-- An outcome write has been sent: the take mark advances (R164, R165). A refusal with STOP_ON_REFUSAL sent
while STALLED stops the part; one sent while STOPPED leaves RUN and a start as they are (log entry
64); one sent while RUNNING or STALLED with a start in progress clears RUN and leaves the start and its
anchor read to go on (log entry 73). The outcome of an entry kept in flight across a start advances the take mark that the start loaded
(log entry 70). -/
def outcomeSent (s : State) : State :=
  match s.win.flight with
  | none => s
  | some f =>
    let refused := stopOnRefusal f.bytes && f.outcome.any (·.code.isRefusal)
    let rewritten := s.win.rewriting
    let s := placeAnchor .takeMark
      { s with
        win := { s.win with
          takeMark := wrap32 (s.win.takeMark + 1)
          flight := none
          heldOutcome := none
          rewriting := false } }
    let s :=
      if s.win.takeMark = s.win.publishMark then
        { s with win := { s.win with causes := { s.win.causes with drained := true } } }
      else s
    if refused ∧ s.win.runState ≠ .stopped then
      setRunState .stopped .none { s with win := { s.win with runBit := false } }
    else if s.win.stopping then setRunState .stopped .none s
    else if rewritten ∧ s.win.runState = .stalled then readNext (setRunState .running .none s)
    else readNext s

/-- WINDOW_WRITE_SENT (R166): the head of the write queue is sent. -/
def execWindowWriteSent (s : State) : Host.Outcome State Fault Refusal :=
  .next <|
    match s.win.writeQ with
    | [] => s
    | w :: rest =>
      let s := { s with
        win := { s.win with writeQ := rest }
        hostMem := s.hostMem.writeParts w.parts }
      match w.target with
      | .mirror _ => mirrorSent s
      | .anchor _ => s
      | .outcome => outcomeSent s

/-- An outcome write has been dropped (R166). While STOPPED with no stop waiting, the outcome is discarded
and its entry is no longer in flight (log entry 63). -/
def outcomeDropped (s : State) : State :=
  match s.win.flight with
  | none => s
  | some f =>
    if s.win.stopping then
      setRunState .stopped .none { s with win := { s.win with flight := none } }
    else if s.win.runState = .stopped then { s with win := { s.win with flight := none } }
    else
      setRunState .stalled .write
        { s with win := { s.win with heldOutcome := f.outcome, rewriting := false } }

/-- WINDOW_WRITE_FAILED (R166): a failed write is sent once more, and dropped at its second
failure. -/
def execWindowWriteFailed (s : State) : Host.Outcome State Fault Refusal :=
  .next <|
    match s.win.writeQ with
    | [] => s
    | w :: rest =>
      if w.retried then
        let s := raise .windowInterface .memWrite .none noCapture
          { s with win := { s.win with writeQ := rest } }
        match w.target with
        | .outcome => outcomeDropped s
        | .mirror _ | .anchor _ => s
      else { s with win := { s.win with writeQ := { w with retried := true } :: rest } }

/-! ## MARK -/

/-- MARK (R171). -/
def execMark (s : State) : Host.Outcome State Fault Refusal :=
  .next <| takeEntry .mark (fun _ s => finish .done (s.win.mirrorGen % 65536) s) s

end Sys2Proof.Machine
end

