-- ==== Sys2Proof/Machine/Registers.lean ====
section
/-! DEFINITION. Register writes: CONTROL by each of its rows, STATUS, ATTENTION, WINDOW_LOW,
WINDOW_HIGH and every other offset (R160, R161, R163, R165, R168, R172). -/

namespace Sys2Proof.Machine

/-- A write of CONTROL (R160): the alert enables as written, then the lobby reset, or what RUN
written over RUN held asks for. -/
def writeControl (w : BitVec 32) (s : State) : State :=
  let s := { s with
    win := { s.win with alertAEn := controlAlertA w, alertBEn := controlAlertB w } }
  if controlLobbyReset w then lobbyReset s
  else
    match s.win.runBit, controlRun w with
    | false, true => beginStart s
    | true, false => stopRun s
    | true, true => if s.win.runState = .stalled then recover s else s
    | false, false => s

/-- LOBBY_RESET (R172). -/
def execLobbyReset (w : BitVec 32) (s : State) : Host.Outcome State Fault Refusal :=
  answer (.lobbyReset w) (writeControl w s)

/-- START (R162). -/
def execStart (w : BitVec 32) (s : State) : Host.Outcome State Fault Refusal :=
  answer (.start w) (writeControl w s)

/-- STOP (R161). -/
def execStop (w : BitVec 32) (s : State) : Host.Outcome State Fault Refusal :=
  answer (.stop w) (writeControl w s)

/-- RECOVERY (R165). -/
def execRecovery (w : BitVec 32) (s : State) : Host.Outcome State Fault Refusal :=
  answer (.recovery w) (writeControl w s)

/-- ALERT_A_EN (R168). -/
def execAlertAEn (w : BitVec 32) (s : State) : Host.Outcome State Fault Refusal :=
  answer (.alertAEn w) (writeControl w s)

/-- ALERT_B_EN (R168). -/
def execAlertBEn (w : BitVec 32) (s : State) : Host.Outcome State Fault Refusal :=
  answer (.alertBEn w) (writeControl w s)

/-- The cause bits left by a write of STATUS (R168). -/
def clearCauses (w : BitVec 32) (c : CauseBits) : CauseBits :=
  ⟨c.severe && !w.getLsbD 8, c.minor && !w.getLsbD 9, c.mirror && !w.getLsbD 10,
    c.drained && !w.getLsbD 11⟩

/-- STATUS_WRITE (R168). -/
def execStatusWrite (w : BitVec 32) (s : State) : Host.Outcome State Fault Refusal :=
  .next { s with win := { s.win with causes := clearCauses w s.win.causes } }

/-- ATTENTION (R163, R165): the value written does not matter. -/
def execAttention (_w : BitVec 32) (s : State) : Host.Outcome State Fault Refusal :=
  .next <|
    match s.win.runState with
    | .running => requestMark s
    | .stalled => recover s
    | .stopped => s

/-- The window base is taken only while STOPPED with RUN clear (R160). -/
def setBase (base : BitVec 64) (s : State) : State :=
  if s.win.runState = .stopped ∧ s.win.runBit = false then
    { s with win := { s.win with windowBase := base, windowValid := false } }
  else s

/-- WINDOW_LOW (R160): the low 12 bits written are ignored. -/
def execWindowLow (w : BitVec 32) (s : State) : Host.Outcome State Fault Refusal :=
  .next <| setBase ((s.win.windowBase >>> 32).setWidth 32 ++ (w &&& 0xFFFFF000#32)) s

/-- WINDOW_HIGH (R160). -/
def execWindowHigh (w : BitVec 32) (s : State) : Host.Outcome State Fault Refusal :=
  .next <| setBase (w ++ s.win.windowBase.setWidth 32) s

/-- REGISTER_WRITE_OTHER (R160): no register of the part takes such a write. -/
def execRegisterWriteOther (offset : BitVec 12) (w : BitVec 32) (s : State) :
    Host.Outcome State Fault Refusal :=
  answer (.registerWriteOther offset w) s

end Sys2Proof.Machine
end

