-- ==== Sys2Proof/Machine/Show.lean ====
section
/-! DEFINITION. The six journal kinds that act on a show's schedule and state: SHOW_LOAD, SHOW_AMEND,
SHOW_HALT, SHOW_RESUME, SHOW_CANCEL, SHOW_DROP (R8 to R16, R33). -/

namespace Sys2Proof.Machine

/-! ## Field checks -/

/-- The number of the first field of a list that is not good. -/
def firstBad : List (Nat × Bool) → Option Nat
  | [] => none
  | (n, good) :: rest => if good then firstBad rest else some n

/-- The optional feature a body gives (field 4). -/
def ShowBody.featureField (b : ShowBody) : Option FeatureIx :=
  if b.featurePresent then indexOf? 32 b.feature else none

/-- The optional sale_open a body gives (field 6). -/
def ShowBody.saleOpenField (b : ShowBody) : Option Nat :=
  if b.saleOpenPresent then some b.saleOpen else none

/-- Fields 1..12 of a body, each with whether it is within its range; for field 6 against `start`
(the show record table, R8). -/
def showFieldChecks (b : ShowBody) (saleOpen : Option Nat) (start : Nat) : List (Nat × Bool) :=
  [(1, true), (2, b.auditorium < 24), (3, true), (4, !b.featurePresent || b.feature < 32), (5, true),
   (6, saleOpen.all (· < start)), (7, b.seatingLead ≤ 3600), (8, b.lateWindow ≤ 1800),
   (9, 1 ≤ b.capacity && b.capacity ≤ 2000), (10, b.bandSet ≤ 3), (11, b.flags &&& 0xE0#8 == 0#8),
   (12, (targetOf? b.targetKind b.targetValue).isSome)]

/-- The index of a band set field. -/
def bandSetOf (n : Nat) : Fin 4 := ⟨n % 4, Nat.mod_lt _ (by decide)⟩

/-- A record with field `n` taken from a body, for the fields marked (R8, R15). -/
def amended (m : Nat → Bool) (b : ShowBody) (sh : ShowRec) : ShowRec :=
  { sh with
    showCode := if m 1 then b.showCode else sh.showCode
    auditorium := if m 2 then b.auditorium else sh.auditorium
    titleCode := if m 3 then b.titleCode else sh.titleCode
    feature := if m 4 then b.featureField else sh.feature
    start := if m 5 then b.start else sh.start
    saleOpen := if m 6 then b.saleOpenField else sh.saleOpen
    seatingLead := if m 7 then b.seatingLead else sh.seatingLead
    lateWindow := if m 8 then b.lateWindow else sh.lateWindow
    capacity := if m 9 then b.capacity else sh.capacity
    bandSet := if m 10 then bandSetOf b.bandSet else sh.bandSet
    flags := if m 11 then readFlags b.flags else sh.flags
    target := if m 12 then (targetOf? b.targetKind b.targetValue).getD sh.target else sh.target }

/-- The entry ends DONE with the code of the show's state after it as detail. -/
def finishShow (i : ShowIx) (s : State) : State := finish .done s.shows.recs[i].state.code s

/-! ## SHOW_LOAD -/

/-- A slot filled by a SHOW_LOAD that has passed its checks (R9). -/
def loadShow (b : ShowBody) (i : ShowIx) (s : State) : State :=
  let sh := amended (fun _ => true) b {}
  let s :=
    match s.clock.lobby with
    | some now =>
      let st := placedState sh now
      schedule i st (setShow i { sh with state := st } s)
    | none => setShow i { sh with state := .waiting, clockWait := true } s
  let s := retally i .openHouse s
  finishShow i (reportShow i allReportFields (handMirror (.showRec i) s))

/-- The checks of a SHOW_LOAD (R8), and the load. -/
def showLoad (b : ShowBody) (s : State) : State :=
  match indexOf? 64 b.index with
  | none => finishOpen .badIndex s
  | some i =>
    if s.shows.recs[i].state ≠ .empty then finishOpen .inUse s
    else
      match firstBad (showFieldChecks b b.saleOpenField b.start) with
      | some n => finish .badField n s
      | none =>
        if s.clock.lobby.any (fun now => closeTime (amended (fun _ => true) b {}) ≤ now) then
          finishOpen .past s
        else loadShow b i s

/-- SHOW_LOAD (R8, R9). -/
def execShowLoad (s : State) : Host.Outcome State Fault Refusal :=
  .next <| takeEntry .showLoad (fun f s => showLoad (readShowBody (entryBody f.bytes)) s) s

/-! ## SHOW_HALT, SHOW_RESUME, SHOW_CANCEL, SHOW_DROP -/

/-- The slot index of an entry that names a show alone; BAD_INDEX beyond 63. -/
def withShow (f : Flight) (act : ShowIx → State → State) (s : State) : State :=
  match indexOf? 64 (fieldAt (entryBody f.bytes) 0 1) with
  | none => finishOpen .badIndex s
  | some i => act i s

/-- A SHOW_HALT of slot `i` (R11). -/
def haltShow (i : ShowIx) (s : State) : State :=
  let sh := s.shows.recs[i]
  match sh.state with
  | .selling | .seating | .running =>
    finishShow i
      (commitShow i sh (setShow i { sh with state := .halted, savedState := some sh.state } s))
  | .empty => finishOpen .noRecord s
  | .waiting | .halted | .closed | .cancelled => finish .wrongState sh.state.code s

/-- SHOW_HALT (R11). -/
def execShowHalt (s : State) : Host.Outcome State Fault Refusal :=
  .next <| takeEntry .showHalt (fun f => withShow f haltShow) s

/-- A SHOW_RESUME of slot `i` (R12). -/
def resumeShow (i : ShowIx) (s : State) : State :=
  let sh := s.shows.recs[i]
  match sh.state with
  | .halted =>
    finishShow i
      (commitShow i sh
        (setShow i { sh with state := sh.savedState.getD .selling, savedState := none } s))
  | .empty => finishOpen .noRecord s
  | .waiting | .selling | .seating | .running | .closed | .cancelled => finishOpen .wrongState s

/-- SHOW_RESUME (R12). -/
def execShowResume (s : State) : Host.Outcome State Fault Refusal :=
  .next <| takeEntry .showResume (fun f => withShow f resumeShow) s

/-- A SHOW_CANCEL of slot `i` (R13). -/
def cancelShow (i : ShowIx) (s : State) : State :=
  let sh := s.shows.recs[i]
  match sh.state with
  | .waiting | .selling | .seating | .running | .halted =>
    let s := setShow i { sh with state := .cancelled, savedState := none, clockWait := false } s
    let s := closeShow i sh.band .showClosed (sendClock (.withdraw i) s)
    let s := if sh.flags.autoCancel then requestAuto .cancelled i 1800 s else s
    finishShow i (commitShow i sh s)
  | .empty => finishOpen .noRecord s
  | .closed | .cancelled => finishOpen .wrongState s

/-- SHOW_CANCEL (R13). -/
def execShowCancel (s : State) : Host.Outcome State Fault Refusal :=
  .next <| takeEntry .showCancel (fun f => withShow f cancelShow) s

/-- A SHOW_DROP of slot `i` (R14); its one report names what the closing sequence changed too (R17). A CLOSED or CANCELLED show has no closing sequence and so no closure report,
as R14 says, although a worked sequence beside R89 has the drop of a CANCELLED show send one (log entry
78). -/
def dropShow (i : ShowIx) (s : State) : State :=
  let sh := s.shows.recs[i]
  let s :=
    if sh.state.isLive then sendClock (.withdraw i) (closeShow i sh.band .showDropped s) else s
  finishShow i (commitShowAs (droppedFields s.shows.recs[i]) i sh (setShow i {} s))

/-- SHOW_DROP (R14). -/
def execShowDrop (s : State) : Host.Outcome State Fault Refusal :=
  .next <| takeEntry .showDrop (fun f => withShow f dropShow) s

/-! ## SHOW_AMEND -/

/-- The state an amend of schedule times computes: never below SELLING for a show that has been on
sale (R16). -/
def amendedState (sh : ShowRec) (now : Nat) : ShowState :=
  match placedState sh now with
  | .waiting => if sh.state = .waiting then .waiting else .selling
  | st => st

/-- The effect of an amend of schedule times, the changed fields already written (R16); `prev` is
the band the show had when the event began. -/
def amendTimes (i : ShowIx) (prev : Band) (now : Nat) (s : State) : State :=
  let sh := s.shows.recs[i]
  let sh := { sh with clockWait := false }
  match amendedState sh now with
  | .closed =>
    closeShow i prev .showClosed
      (sendClock (.withdraw i) (setShow i { sh with state := .closed, savedState := none } s))
  | st =>
    schedule i st
      (setShow i
        (if sh.state = .halted then { sh with savedState := some st } else { sh with state := st })
        s)

/-- The checks on the fields marked change (R15): sale_open against start whenever either is
marked. -/
def amendFieldChecks (m : Nat → Bool) (b : ShowBody) (after : ShowRec) : List (Nat × Bool) :=
  (showFieldChecks b after.saleOpen after.start).map fun c =>
    (c.1, !(m c.1 || (c.1 == 6 && m 5)) || c.2)

/-- An amend that has passed its checks (R16, R33). -/
def applyAmend (m : Nat → Bool) (b : ShowBody) (capture : List Byte) (i : ShowIx) (s : State) :
    State :=
  let before := s.shows.recs[i]
  let after := amended m b before
  let s := setShow i after s
  let s :=
    match s.clock.lobby with
    | some now => if m 5 || m 6 || m 7 || m 8 then amendTimes i before.band now s else s
    | none => s
  let s :=
    if m 5 && before.start < after.start && after.flags.autoDelay then requestAuto .delayed i 600 s
    else s
  let s := if m 9 || m 10 then recompute i before capture s else s
  finishShow i (commitShow i before s)

/-- The checks of a SHOW_AMEND (R15), and the amend. -/
def showAmend (b : ShowBody) (capture : List Byte) (s : State) : State :=
  let m := marked b.mask
  match indexOf? 64 b.index with
  | none => finishOpen .badIndex s
  | some i =>
    let sh := s.shows.recs[i]
    match sh.state with
    | .empty => finishOpen .noRecord s
    | .closed | .cancelled => finishOpen .wrongState s
    | _ =>
      let after := amended m b sh
      match firstBad (amendFieldChecks m b after) with
      | some n => finish .badField n s
      | none =>
        if (m 5 || m 8) && s.clock.lobby.any (closeTime after ≤ ·) then finishOpen .past s
        else applyAmend m b capture i s

/-- SHOW_AMEND (R15, R16). -/
def execShowAmend (s : State) : Host.Outcome State Fault Refusal :=
  .next <| takeEntry .showAmend (fun f s =>
    showAmend (readShowBody (entryBody f.bytes)) (f.bytes.take 16) s) s

end Sys2Proof.Machine
end

