-- ==== Sys2Proof/Machine/Stream.lean ====
section
/-! DEFINITION. The Stream Engine and the panel link transmitters: requests, the fetch arbiter, bursts,
pacing and underrun, the millisecond, PANEL_TX_DONE (R145 to R157). -/

namespace Sys2Proof.Machine

/-! ## Stream records -/

/-- A stream record changed in place. -/
def withStream (d : DisplayIx) (f : StreamRec → StreamRec) (s : State) : State :=
  { s with stream := { s.stream with recs := put s.stream.recs d (f s.stream.recs[d]) } }

/-- The feature record a stream record streams from (R148). -/
def streamFeature (s : State) (d : DisplayIx) : FeatureRec := s.air.features[s.stream.recs[d].feature]

/-- A segment is running. -/
def StreamRec.busy (r : StreamRec) : Bool := r.phase != .idle

/-- The display's burst is ISSUED. -/
def StreamRec.issued (r : StreamRec) : Bool := r.burst.any (·.wait.isNone)

/-- A segment over: the buffer emptied, phase IDLE, stream_no advanced (R152 to R156). What else an IDLE
record holds the manual does not say: held and end_marked are clear, the counts and watermarks stay
(log entry 51). -/
def StreamRec.ended (r : StreamRec) : StreamRec :=
  { r with
    phase := .idle, streamNo := (r.streamNo + 1) % 65536, buffer := [], requesting := false,
    burst := none, held := false, endMarked := false, inUnderrun := false, underrunStart := none,
    underrunDue := false }

/-- requesting tested again (R149): `total` is the clip's total_bytes. -/
def StreamRec.retest (total : Nat) (r : StreamRec) : StreamRec :=
  if r.phase = .idle ∨ r.endMarked then { r with requesting := false }
  else if r.highMark ≤ r.buffer.length ∨ total ≤ r.bytesFetched then { r with requesting := false }
  else if r.buffer.length < r.lowMark then { r with requesting := true }
  else r

/-- requesting of display `d` tested again (R149). -/
def retestAt (d : DisplayIx) (s : State) : State :=
  withStream d (StreamRec.retest (streamFeature s d).totalBytes) s

/-- An end report sent to the Display Controller (R138). -/
def reportEnd (d : DisplayIx) (segmentNo : Nat) (s : State) : State :=
  { s with bus := { s.bus with endReports := s.bus.endReports ++ [⟨d, segmentNo⟩] } }

/-- A release report sent to the Airtime Scheduler (R125). -/
def releaseStream (f : FeatureIx) (c : ReleaseCause) (s : State) : State :=
  { s with bus := { s.bus with streamReleases := s.bus.streamReleases ++ [⟨f, c⟩] } }

/-- A segment ended at the Stream Engine, with its end report and its release report. -/
def endStream (d : DisplayIx) (c : ReleaseCause) (s : State) : State :=
  let r := s.stream.recs[d]
  releaseStream r.feature c (reportEnd d r.segmentNo (withStream d StreamRec.ended s))

/-- An end_marked segment at a burst boundary with held clear ends (R155). -/
def endIfMarked (d : DisplayIx) (s : State) : State :=
  let r := s.stream.recs[d]
  if r.busy && r.endMarked && !r.held && !r.issued then endStream d .abandoned s else s

/-! ## Requests of the Display Controller and the drain -/

/-- The head of the Display Controller's requests taken off their queue. -/
def popRequest (s : State) : State :=
  { s with bus := { s.bus with streamReqs := s.bus.streamReqs.tail } }

/-- A start request taken at an IDLE display (R148). A start with pacing held of a DRAINING feature is marked
and does not end at once: it waits for its resume or an abandon, by R155 (log entry 75). -/
def startStream (d : DisplayIx) (f : FeatureIx) (segmentNo low high : Nat) (held : Bool)
    (s : State) : State :=
  let drain := s.air.features[f].state == .draining
  let s := withStream d (fun r => { r.ended with
    phase := .filling, segmentNo := segmentNo, feature := f, lowMark := 1024 * low,
    highMark := 1024 * high, chunkIx := 0, chunkOff := 0, bytesFetched := 0, bytesSent := 0,
    allowance := 0, carry := 0, held := held, endMarked := drain }) s
  endIfMarked d (retestAt d s)

/-- START_REQUEST (R148): the head of the Display Controller's requests, a start request. -/
def execStartRequest (s : State) : Host.Outcome State Fault Refusal :=
  .next <|
    match s.bus.streamReqs with
    | .start d f segmentNo low high held :: _ =>
      let s := popRequest s
      settleDisplay s d <|
        if s.stream.recs[d].busy then releaseStream f .abandoned (reportEnd d segmentNo s)
        else startStream d f segmentNo low high held s
    | _ => s

/-- A request names the segment that display `d` is running. -/
def names (s : State) (d : DisplayIx) (segmentNo : Nat) : Bool :=
  s.stream.recs[d].busy && s.stream.recs[d].segmentNo == segmentNo

/-- HOLD_REQUEST (R155): the head of the Display Controller's requests, a hold request. -/
def execHoldRequest (s : State) : Host.Outcome State Fault Refusal :=
  .next <|
    match s.bus.streamReqs with
    | .hold d segmentNo :: _ =>
      let s := popRequest s
      if names s d segmentNo then
        withStream d (fun r => { r with
          held := true, inUnderrun := false, underrunStart := none, underrunDue := false }) s
      else s
    | _ => s

/-- RESUME_REQUEST (R155): the head of the Display Controller's requests, a resume request. -/
def execResumeRequest (s : State) : Host.Outcome State Fault Refusal :=
  .next <|
    match s.bus.streamReqs with
    | .resume d segmentNo :: _ =>
      let s := popRequest s
      if names s d segmentNo then
        settleDisplay s d
          (endIfMarked d (withStream d (fun r => { r with
            held := false, allowance := 0, carry := 0 }) s))
      else s
    | _ => s

/-- A running segment marked to end at its next burst boundary (R155). -/
def markEnd (d : DisplayIx) (s : State) : State :=
  endIfMarked d (withStream d (fun r => { r with endMarked := true, requesting := false }) s)

/-- END_REQUEST (R155): the head of the Display Controller's requests, an end request. -/
def execEndRequest (s : State) : Host.Outcome State Fault Refusal :=
  .next <|
    match s.bus.streamReqs with
    | .finish d segmentNo :: _ =>
      let s := popRequest s
      if names s d segmentNo then settleDisplay s d (markEnd d s) else s
    | _ => s

/-- The displays that stream a feature, in index order, the order in which a drain request takes them (log
entry 62). -/
def streamers (s : State) (f : FeatureIx) : List DisplayIx :=
  (List.finRange 16).filter fun d => s.stream.recs[d].busy && s.stream.recs[d].feature == f

/-- DRAIN_REQUEST (R155): the oldest drain request of the Airtime Scheduler. The manual names no order among
the displays whose segments it ends: their reports go in display index order (log entry 62). -/
def execDrainRequest (s : State) : Host.Outcome State Fault Refusal :=
  .next <|
    match s.bus.drainReqs with
    | f :: rest =>
      let s := { s with bus := { s.bus with drainReqs := rest } }
      settleDisplays s ((streamers s f).foldl (fun s d => markEnd d s) s)
    | [] => s

/-- ABANDON_REQUEST (R156): the head of the Display Controller's requests, an abandon request. -/
def execAbandonRequest (s : State) : Host.Outcome State Fault Refusal :=
  .next <|
    match s.bus.streamReqs with
    | .abandon d segmentNo :: _ =>
      let s := popRequest s
      if names s d segmentNo then
        settleDisplay s d
          (releaseStream s.stream.recs[d].feature .abandoned (withStream d StreamRec.ended s))
      else s
    | _ => s

/-! ## The fetch arbiter and bursts -/

/-- A burst that the arbiter granted waits in the read engine's wait queue (R150). -/
def grantWaits (s : State) : Bool := s.reads.queue.any (·.granted)

/-- The displays in the order the arbiter looks at them: after its last grant, wrapping (R150). -/
def grantOrder (last : DisplayIx) : List DisplayIx :=
  (List.finRange 16).filter (last.val < ·.val) ++ (List.finRange 16).filter (·.val ≤ last.val)

/-- The display the arbiter grants next (R150). -/
def nextGrant (s : State) : Option DisplayIx :=
  (grantOrder s.stream.lastGrant).find? fun d =>
    s.stream.recs[d].requesting && s.stream.recs[d].burst.isNone

/-- The burst formed for a display at its grant, from the chunk at its fetch position (R150). -/
def formBurst (r : StreamRec) (c : Chunk) : Burst :=
  ⟨c.addr + r.chunkOff, min maxBurst (min (bufferBytes - r.buffer.length) (c.len - r.chunkOff)), 0,
    none⟩

/-- A display's burst handed to the read engine (R150, R152). -/
def issueBurst (d : DisplayIx) (b : Burst) (granted : Bool) (s : State) : State :=
  issueRead ⟨.burst d s.stream.recs[d].streamNo, b.addr, b.size, granted⟩
    (withStream d (fun r => { r with burst := some { b with wait := none } }) s)

/-- FETCH_GRANT (R150): the next requesting display is granted a burst, unless a granted burst still
waits for a slot. -/
def execFetchGrant (s : State) : Host.Outcome State Fault Refusal :=
  .next <|
    if grantWaits s then s
    else
      match nextGrant s with
      | none => s
      | some d =>
        match (streamFeature s d).chunks[s.stream.recs[d].chunkIx]? with
        | none => s
        | some c =>
          issueBurst d (formBurst s.stream.recs[d] c) true
            { s with stream := { s.stream with lastGrant := d } }

/-- The fetch position moved past `n` fetched bytes of a chunk of length `len` (R151). -/
def moveFetch (len n : Nat) (r : StreamRec) : StreamRec :=
  if len ≤ r.chunkOff + n then { r with chunkIx := r.chunkIx + 1, chunkOff := 0 }
  else { r with chunkOff := r.chunkOff + n }

/-- A FILLING display whose buffer is filled, or whose clip is all fetched, becomes PLAYING
(R151). -/
def beginPlaying (total : Nat) (r : StreamRec) : StreamRec :=
  if r.phase = .filling ∧ (r.highMark ≤ r.buffer.length ∨ total ≤ r.bytesFetched) then
    { r with phase := .playing, allowance := 0, carry := 0 }
  else r

/-- The bytes of a burst joined to the buffer (R151). -/
def joinBurst (d : DisplayIx) (bytes : List Byte) (s : State) : State :=
  let f := streamFeature s d
  let r := s.stream.recs[d]
  let len := ((f.chunks[r.chunkIx]?).map (·.len)).getD 0
  let r := moveFetch len bytes.length
    { r with
      buffer := r.buffer ++ bytes, bytesFetched := r.bytesFetched + bytes.length, burst := none,
      inUnderrun := false, underrunStart := none, underrunDue := false }
  withStream d (fun _ => beginPlaying f.totalBytes (r.retest f.totalBytes)) s

/-- A completion names the display's present stream and finds its burst ISSUED (R151). -/
def actsOn (s : State) (d : DisplayIx) (streamNo : Nat) : Bool :=
  s.stream.recs[d].streamNo == streamNo && s.stream.recs[d].issued

/-- BURST_DONE (R151). -/
def execBurstDone (slot : ReadSlot) (bytes : List Byte) (s : State) :
    Host.Outcome State Fault Refusal :=
  answer (.burstDone slot bytes) <|
    match s.reads.slots[slot] with
    | some ⟨.burst d streamNo, _, len, _⟩ =>
      if len ≠ bytes.length then s
      else
        let t := freeRead slot s
        if actsOn t d streamNo then
          settleDisplay s d <|
            if t.stream.recs[d].endMarked && !t.stream.recs[d].held then endStream d .abandoned t
            else joinBurst d bytes t
        else t
    | _ => s

/-- A clip given up at a display after its last allowed failure (R152). -/
def giveUpClip (d : DisplayIx) (s : State) : State :=
  endStream d .clipFault
    (raise .streamEngine .clipAbandoned (.feature s.stream.recs[d].feature.val) noCapture s)

/-- A failure of the display's burst `b` acted on (R152). -/
def burstFailed (d : DisplayIx) (b : Burst) (s : State) : State :=
  let r := s.stream.recs[d]
  let n := b.failures + 1
  if r.endMarked && !r.held then endStream d .abandoned s
  else if n < s.stream.cfg.retry.retryLimit then
    match drawWait s.stream.cfg.retry n s with
    | 0 => issueBurst d { b with failures := n } false s
    | w => withStream d (fun r => { r with burst := some { b with failures := n, wait := some w } }) s
  else giveUpClip d s

/-- BURST_FAILED (R151, R152). -/
def execBurstFailed (slot : ReadSlot) (s : State) : Host.Outcome State Fault Refusal :=
  .next <|
    match s.reads.slots[slot] with
    | some ⟨.burst d streamNo, _, _, _⟩ =>
      let t := freeRead slot s
      match t.stream.recs[d].burst with
      | some b => if actsOn t d streamNo then settleDisplay s d (burstFailed d b t) else t
      | none => t
    | _ => s

/-- BURST_RETRY_EXPIRY (R152) of `d`: a burst whose wait has run out is issued again, without a
grant. -/
def execBurstRetryExpiry (d : DisplayIx) (s : State) : Host.Outcome State Fault Refusal :=
  .next <|
    match s.stream.recs[d].burst with
    | some b => if b.wait = some 0 then issueBurst d b false s else s
    | none => s

/-! ## The millisecond -/

/-- A wait one millisecond shorter. -/
def countDown (w : Option Nat) : Option Nat := w.map (· - 1)

/-- The allowance grown by one millisecond (R153): `rate` is the clip's byte_rate. -/
def grow (rate : Nat) (r : StreamRec) : StreamRec :=
  if r.phase = .playing ∧ r.held = false ∧ r.inUnderrun = false then
    let thousandths := rate + r.carry
    let a := r.allowance + thousandths / 1000
    if maxClipData ≤ a then { r with allowance := maxClipData, carry := 0 }
    else { r with allowance := a, carry := thousandths % 1000 }
  else r

/-- A stream record at a millisecond: its allowance and its retry wait. -/
def msStream (rate : Nat) (r : StreamRec) : StreamRec :=
  grow rate { r with burst := r.burst.map fun b => { b with wait := countDown b.wait } }

/-- A feature's retry wait at a millisecond (R115). -/
def msFeature (r : FeatureRec) : FeatureRec :=
  { r with validation := r.validation.map fun v => { v with wait := countDown v.wait } }

/-- The Window Interface's millisecond timers: the poll timer and the retry waits (R163, R165). -/
def msWindow (w : WindowIf) : WindowIf :=
  { w with
    pollTimer := countDown w.pollTimer
    anchorRead := w.anchorRead.map fun r => { r with wait := countDown r.wait }
    markRead := w.markRead.map fun r => { r with wait := countDown r.wait }
    flight := w.flight.map fun f => { f with wait := countDown f.wait } }

/-- PACING_MILLISECOND (R147, R153): the LFSR steps, allowances grow, and every timer that runs in
milliseconds is one shorter (log entry 4). -/
def execPacingMillisecond (s : State) : Host.Outcome State Fault Refusal :=
  .next
    { s with
      win := msWindow s.win
      desks := { s.desks with pauseTimer := countDown s.desks.pauseTimer }
      air := { s.air with features := s.air.features.map msFeature }
      stream := { s.stream with
        lfsr := lfsrStep s.stream.lfsr
        recs := s.stream.recs.map fun r => msStream s.air.features[r.feature].byteRate r } }

/-! ## Sends, underrun, transmitters -/

/-- The frame size of a display's next send (R153). -/
def sendSize (total : Nat) (r : StreamRec) : Nat := min maxClipData (total - r.bytesSent)

/-- A send falls due at a display (R153). -/
def sendDue (s : State) (d : DisplayIx) : Bool :=
  let r := s.stream.recs[d]
  r.phase == .playing && !r.held && sendSize (streamFeature s d).totalBytes r ≤ r.allowance
    && s.stream.links[d].clip.isNone && !r.inUnderrun

/-- A due send that finds the buffer empty begins an underrun episode (R154). -/
def beginUnderrun (d : DisplayIx) (s : State) : State :=
  let now := s.clock.partSeconds
  let r := s.stream.recs[d]
  raise .streamEngine .streamUnderrun (.display d.val) noCapture
    (sendClip d (.holdFrame r.segmentNo r.bytesSent)
      (withStream d (fun r => { r with
        inUnderrun := true, underrunStart := some now,
        underrunCount := sat16 (r.underrunCount + 1) }) s))

/-- A due send of bytes from the head of the buffer (R153). -/
def sendBytes (d : DisplayIx) (s : State) : State :=
  let r := s.stream.recs[d]
  let total := (streamFeature s d).totalBytes
  let n := min (sendSize total r) r.buffer.length
  let last := total ≤ r.bytesSent + n
  let s := sendClip d (.clipData r.segmentNo last r.bytesSent (r.buffer.take n)) s
  let s := withStream d (fun r => { r with
    buffer := r.buffer.drop n, allowance := r.allowance - n, bytesSent := r.bytesSent + n }) s
  if last then endStream d .ended s else retestAt d s

/-- SEND (R153, R154): a send that is due at `d`. -/
def execSend (d : DisplayIx) (s : State) : Host.Outcome State Fault Refusal :=
  .next <|
    if sendDue s d then
      settleDisplay s d
        (if s.stream.recs[d].buffer = [] then beginUnderrun d s else sendBytes d s)
    else s

/-- UNDERRUN_LIMIT (R154) of `d`: where a tick has found its episode at the limit, the clip is given
up. -/
def execUnderrunLimit (d : DisplayIx) (s : State) : Host.Outcome State Fault Refusal :=
  .next <|
    if s.stream.recs[d].inUnderrun && s.stream.recs[d].underrunDue then
      settleDisplay s d
        (endStream d .abandoned
          (raise .streamEngine .clipAbandoned (.display d.val) noCapture s))
    else s

/-- PANEL_TX_DONE (R157): the transmitter of `d` has finished its frame and sends the next. -/
def execPanelTxDone (d : DisplayIx) (s : State) : Host.Outcome State Fault Refusal :=
  .next <| withLink d (fun l => { l with tx := none }.kick) s

end Sys2Proof.Machine
end

