-- ==== Sys2Proof/Machine/Tally.lean ====
section
/-! DEFINITION. The three tally entries: SALE, REFUND, BLOCK (R29 to R32, R50). -/

namespace Sys2Proof.Machine

/-- The entry ends with the show's avail as it stands (SALE, REFUND and BLOCK). -/
def finishAvail (code : OutcomeCode) (i : ShowIx) (s : State) : State :=
  finish code s.shows.recs[i].avail s

/-- The end of a tally entry that changed show `i`: the recomputation, the mirror and the report,
and the outcome. -/
def endTally (code : OutcomeCode) (i : ShowIx) (before : ShowRec) (capture : List Byte)
    (s : State) : State :=
  finishAvail code i (commitShow i before (recompute i before capture s))

/-- A SALE that has passed its checks (R29, R30, R50). -/
def applySale (b : SaleBody) (capture : List Byte) (i : ShowIx) (s : State) : State :=
  let before := s.shows.recs[i]
  let plain := if max16 < before.sold + b.seats then OutcomeCode.clamped else .done
  let sell (s : State) : State :=
    let sh := s.shows.recs[i]
    setShow i { sh with sold := sat16 (sh.sold + b.seats) } s
  if b.present = 0 then endTally plain i before capture (sell s)
  else
    match liveHold s b.ref with
    | none => endTally .holdGone i before capture (sell s)
    | some (k, h) =>
      if h.showIx = i then
        endTally plain i before capture (sell (handMirror (.hold k) (freeHold k s)))
      else endTally .holdMismatch i before capture (sell s)

/-- The checks of a SALE (R29), and the sale. -/
def takeSale (b : SaleBody) (capture : List Byte) (s : State) : State :=
  match indexOf? 64 b.index with
  | none => finish .badIndex 0 s
  | some i =>
    match s.shows.recs[i].state with
    | .empty => finish .noRecord 0 s
    | .cancelled => finishAvail .wrongState i s
    | _ =>
      if b.seats = 0 then finish .badField 1 s
      else if 1 < b.present then finish .badField 2 s
      else applySale b capture i s

/-- SALE (R29). -/
def execSale (s : State) : Host.Outcome State Fault Refusal :=
  .next <| takeEntry .sale (fun f s =>
    takeSale (readSaleBody (entryBody f.bytes)) (f.bytes.take 16) s) s

/-- A REFUND of `seats` seats on show index `n` (R31). -/
def takeRefund (n seats : Nat) (capture : List Byte) (s : State) : State :=
  match indexOf? 64 n with
  | none => finish .badIndex 0 s
  | some i =>
    let sh := s.shows.recs[i]
    if sh.state = .empty then finish .noRecord 0 s
    else if seats = 0 then finish .badField 1 s
    else
      endTally (if sh.sold < seats then .clamped else .done) i sh capture
        (setShow i { sh with sold := sh.sold - seats } s)

/-- REFUND (R31). -/
def execRefund (s : State) : Host.Outcome State Fault Refusal :=
  .next <| takeEntry .refund (fun f s =>
    takeRefund (fieldAt (entryBody f.bytes) 0 1) (fieldAt (entryBody f.bytes) 2 2)
      (f.bytes.take 16) s) s

/-- Most seats blocked may count. -/
def maxBlocked : Nat := 2000

/-- blocked moved by a delta, and whether it was clamped (R32). -/
def moveBlocked (blocked : Nat) (delta : Int) : Nat × Bool :=
  let n : Int := blocked + delta
  if n < 0 then (0, true)
  else if (maxBlocked : Int) < n then (maxBlocked, true)
  else (n.toNat, false)

/-- A BLOCK of `delta` on show index `n` (R32). -/
def takeBlock (n : Nat) (delta : Int) (capture : List Byte) (s : State) : State :=
  match indexOf? 64 n with
  | none => finish .badIndex 0 s
  | some i =>
    let sh := s.shows.recs[i]
    match sh.state with
    | .empty => finish .noRecord 0 s
    | .cancelled => finishAvail .wrongState i s
    | _ =>
      if delta = 0 then finishAvail .done i s
      else
        let m := moveBlocked sh.blocked delta
        endTally (if m.2 then .clamped else .done) i sh capture
          (setShow i { sh with blocked := m.1 } s)

/-- BLOCK (R32). -/
def execBlock (s : State) : Host.Outcome State Fault Refusal :=
  .next <| takeEntry .block (fun f s =>
    takeBlock (readBlockBody (entryBody f.bytes)).1 (readBlockBody (entryBody f.bytes)).2
      (f.bytes.take 16) s) s

end Sys2Proof.Machine
end

