-- ==== Sys2Proof/Machine/Dispatch.lean ====
section
/-! DEFINITION. The effect of every command on everything but the queue: one arm per row of the
table, each one call of that row's meaning. -/

namespace Sys2Proof.Machine

def exec (i : Instr) (s : State) : Host.Outcome State Fault Refusal :=
  match i with
  | .powerOnReset links => Sys2Proof.Machine.execPowerOnReset links s
  | .lobbyReset w => Sys2Proof.Machine.execLobbyReset w s
  | .start w => Sys2Proof.Machine.execStart w s
  | .stop w => Sys2Proof.Machine.execStop w s
  | .recovery w => Sys2Proof.Machine.execRecovery w s
  | .alertAEn w => Sys2Proof.Machine.execAlertAEn w s
  | .alertBEn w => Sys2Proof.Machine.execAlertBEn w s
  | .statusWrite w => Sys2Proof.Machine.execStatusWrite w s
  | .attention w => Sys2Proof.Machine.execAttention w s
  | .windowLow w => Sys2Proof.Machine.execWindowLow w s
  | .windowHigh w => Sys2Proof.Machine.execWindowHigh w s
  | .registerWriteOther offset w => Sys2Proof.Machine.execRegisterWriteOther offset w s
  | .anchorReadDone slot bytes => Sys2Proof.Machine.execAnchorReadDone slot bytes s
  | .pollTimerExpiry => Sys2Proof.Machine.execPollTimerExpiry s
  | .publishMarkReadDone slot bytes => Sys2Proof.Machine.execPublishMarkReadDone slot bytes s
  | .entryReadDone slot bytes => Sys2Proof.Machine.execEntryReadDone slot bytes s
  | .textReadDone slot bytes => Sys2Proof.Machine.execTextReadDone slot bytes s
  | .controlReadFailed slot => Sys2Proof.Machine.execControlReadFailed slot s
  | .controlReadRetryExpiry which => Sys2Proof.Machine.execControlReadRetryExpiry which s
  | .windowWriteSent => Sys2Proof.Machine.execWindowWriteSent s
  | .windowWriteFailed => Sys2Proof.Machine.execWindowWriteFailed s
  | .configure => Sys2Proof.Machine.execConfigure s
  | .settingsEvent owner => Sys2Proof.Machine.execSettingsEvent owner s
  | .mark => Sys2Proof.Machine.execMark s
  | .clockSet => Sys2Proof.Machine.execClockSet s
  | .tick => Sys2Proof.Machine.execTick s
  | .scheduleRequest => Sys2Proof.Machine.execScheduleRequest s
  | .withdrawRequest => Sys2Proof.Machine.execWithdrawRequest s
  | .catchUp => Sys2Proof.Machine.execCatchUp s
  | .showLoad => Sys2Proof.Machine.execShowLoad s
  | .showAmend => Sys2Proof.Machine.execShowAmend s
  | .showHalt => Sys2Proof.Machine.execShowHalt s
  | .showResume => Sys2Proof.Machine.execShowResume s
  | .showCancel => Sys2Proof.Machine.execShowCancel s
  | .showDrop => Sys2Proof.Machine.execShowDrop s
  | .sale => Sys2Proof.Machine.execSale s
  | .refund => Sys2Proof.Machine.execRefund s
  | .block => Sys2Proof.Machine.execBlock s
  | .hold => Sys2Proof.Machine.execHold s
  | .extend => Sys2Proof.Machine.execExtend s
  | .release => Sys2Proof.Machine.execRelease s
  | .ask => Sys2Proof.Machine.execAsk s
  | .holdExpiry => Sys2Proof.Machine.execHoldExpiry s
  | .deskByte desk b => Sys2Proof.Machine.execDeskByte desk b s
  | .lineIdle desk => Sys2Proof.Machine.execLineIdle desk s
  | .intakeHand => Sys2Proof.Machine.execIntakeHand s
  | .pauseRefreshExpiry => Sys2Proof.Machine.execPauseRefreshExpiry s
  | .deskTxDone desk => Sys2Proof.Machine.execDeskTxDone desk s
  | .deskPort => Sys2Proof.Machine.execDeskPort s
  | .noticePost => Sys2Proof.Machine.execNoticePost s
  | .deskNoticePost => Sys2Proof.Machine.execDeskNoticePost s
  | .autoNoticeRequest => Sys2Proof.Machine.execAutoNoticeRequest s
  | .noticeClear => Sys2Proof.Machine.execNoticeClear s
  | .deskNoticeClear => Sys2Proof.Machine.execDeskNoticeClear s
  | .clearRequest => Sys2Proof.Machine.execClearRequest s
  | .closureReport => Sys2Proof.Machine.execClosureReport s
  | .noticeExpiry => Sys2Proof.Machine.execNoticeExpiry s
  | .enabledReport => Sys2Proof.Machine.execEnabledReport s
  | .linkUpReport => Sys2Proof.Machine.execLinkUpReport s
  | .linkLostReport => Sys2Proof.Machine.execLinkLostReport s
  | .drainingReport => Sys2Proof.Machine.execDrainingReport s
  | .offReport => Sys2Proof.Machine.execOffReport s
  | .floorReport => Sys2Proof.Machine.execFloorReport s
  | .coverTimerExpiry d => Sys2Proof.Machine.execCoverTimerExpiry d s
  | .featureLoad => Sys2Proof.Machine.execFeatureLoad s
  | .featureWeight => Sys2Proof.Machine.execFeatureWeight s
  | .featureDrop => Sys2Proof.Machine.execFeatureDrop s
  | .airtimeReset => Sys2Proof.Machine.execAirtimeReset s
  | .headerReadDone slot bytes => Sys2Proof.Machine.execHeaderReadDone slot bytes s
  | .chunkListPieceDone slot bytes => Sys2Proof.Machine.execChunkListPieceDone slot bytes s
  | .validationReadFailed slot => Sys2Proof.Machine.execValidationReadFailed slot s
  | .validationRetryExpiry f => Sys2Proof.Machine.execValidationRetryExpiry f s
  | .decision d => Sys2Proof.Machine.execDecision d s
  | .releaseReport sender => Sys2Proof.Machine.execReleaseReport sender s
  | .displaySetup => Sys2Proof.Machine.execDisplaySetup s
  | .displayEnable => Sys2Proof.Machine.execDisplayEnable s
  | .displayDisable => Sys2Proof.Machine.execDisplayDisable s
  | .linkUp d => Sys2Proof.Machine.execLinkUp d s
  | .linkDown d => Sys2Proof.Machine.execLinkDown d s
  | .dwellExpiry d => Sys2Proof.Machine.execDwellExpiry d s
  | .decisionReply d => Sys2Proof.Machine.execDecisionReply d s
  | .endReport => Sys2Proof.Machine.execEndReport s
  | .showChangedReport => Sys2Proof.Machine.execShowChangedReport s
  | .takeoverBegin => Sys2Proof.Machine.execTakeoverBegin s
  | .takeoverEnd => Sys2Proof.Machine.execTakeoverEnd s
  | .stripReport => Sys2Proof.Machine.execStripReport s
  | .startRequest => Sys2Proof.Machine.execStartRequest s
  | .holdRequest => Sys2Proof.Machine.execHoldRequest s
  | .resumeRequest => Sys2Proof.Machine.execResumeRequest s
  | .endRequest => Sys2Proof.Machine.execEndRequest s
  | .drainRequest => Sys2Proof.Machine.execDrainRequest s
  | .abandonRequest => Sys2Proof.Machine.execAbandonRequest s
  | .fetchGrant => Sys2Proof.Machine.execFetchGrant s
  | .burstDone slot bytes => Sys2Proof.Machine.execBurstDone slot bytes s
  | .burstFailed slot => Sys2Proof.Machine.execBurstFailed slot s
  | .burstRetryExpiry d => Sys2Proof.Machine.execBurstRetryExpiry d s
  | .pacingMillisecond => Sys2Proof.Machine.execPacingMillisecond s
  | .send d => Sys2Proof.Machine.execSend d s
  | .underrunLimit d => Sys2Proof.Machine.execUnderrunLimit d s
  | .panelTxDone d => Sys2Proof.Machine.execPanelTxDone d s
  | .faultRaise block => Sys2Proof.Machine.execFaultRaise block s
  | .faultClear => Sys2Proof.Machine.execFaultClear s

end Sys2Proof.Machine
end

