-- ==== Sys2Proof/Machine/Step.lean ====
section
/-! DEFINITION. The step: the command at the front of the queue is taken and its effect is had on
everything but the queue (Steps and ordering; "What each step holds"). -/

namespace Sys2Proof.Machine

/-- One step of the part: the command at the front of the queue, run with the queue's rest. On an
empty queue no event happens and the part idles: the state stays as it is (log entry 14). -/
def step (s : State) : Host.Outcome State Fault Refusal :=
  match s.pending with
  | [] => .next s
  | c :: rest => exec c { s with pending := rest }

/-- The state with the command that a word spells by the table put at the front of the queue;
unchanged where the word spells none (log entry 15). -/
def State.withFetchWord (s : State) (nbits w : Nat) : State :=
  match decodeTableWord nbits w with
  | some c => { s with pending := c :: s.pending }
  | none => s

end Sys2Proof.Machine
end

