-- ==== Sys2Proof/Safety.lean ====
section
/-! DEFINITION. What counts as a safe run: the invariants that every step keeps, and which blocks of
the part a command may change. -/

namespace Sys2Proof.Machine

/-! ## Invariants -/

/-- The tally of one show record is the one its counts call for (R22, R23, R27): avail, OVERSOLD and
fill follow from the four counts, and the board figures from avail, the band and the show's band
set. -/
abbrev TallyFollows (c : ShowSettings) (sh : ShowRec) : Prop :=
  sh.avail = availOf sh ∧ sh.oversold = oversoldOf sh ∧ sh.fill = fillOf sh.capacity sh.avail ∧
    (sh.seatsShown, sh.plusMarker) = boardFigure c.bandSets[sh.bandSet] sh.band sh.avail

/-- The Show Table is sound: tallies follow from counts; an EMPTY slot holds nothing (R1); a saved state
is SELLING, SEATING or RUNNING (R11); a hold in use is on the Hold List and names a live show (R41,
R54). -/
structure ShowsSound (s : State) : Prop where
  tallies : ∀ i : ShowIx, TallyFollows s.shows.cfg s.shows.recs[i]
  empty : ∀ i : ShowIx, s.shows.recs[i].state = .empty → s.shows.recs[i] = {}
  saved : ∀ (i : ShowIx) (st : ShowState), s.shows.recs[i].savedState = some st →
    st = .selling ∨ st = .seating ∨ st = .running
  holds : ∀ (k : HoldIx) (h : HoldRec), s.shows.holds[k].hold = some h →
    k ∈ s.shows.holdList ∧ s.shows.recs[h.showIx].state.isLive = true

/-- The collections keep to the capacities stated for them: 32 intake entries (R64), 4 frames in
each reply queue (R69, R70), 64 frames in each control queue (R157), 4 notices on each on-air stack
(R95). -/
structure WithinCapacity (s : State) : Prop where
  intake : s.desks.intake.length ≤ intakeCapacity
  replies : ∀ d : DeskIx, s.desks.ports[d].replyQ.length ≤ replyCapacity
  control : ∀ d : DisplayIx, s.stream.links[d].control.length ≤ controlCapacity
  onAir : ∀ d : DisplayIx, s.arb.recs[d].stack.length ≤ stackCapacity

/-- The window base is a multiple of 4,096 (R160). -/
abbrev BaseAligned (s : State) : Prop := s.win.windowBase.toNat % 4096 = 0

/-- The write path is sound: no two writes waiting have one target, so that there is at most one for
each mirror record, one for each anchor word and one outcome (R166); host memory has its canonical
form; the window base is aligned. -/
structure WritePathSound (s : State) : Prop where
  oneOfEach : (s.win.writeQ.map (·.target)).Nodup
  memory : s.hostMem.wf = true
  aligned : BaseAligned s

/-- The lists of the Show Table and the Lobby Clock are in order: the Hold List holds slots in use, each
once, by expiry (R41), and the due list at most one entry for each show, by due time, ties to the
lowest show index (R3). -/
structure ListsInOrder (s : State) : Prop where
  holdsInUse : ∀ k ∈ s.shows.holdList, (holdAt s k).isSome = true
  holdsOnce : s.shows.holdList.Nodup
  byExpiry : s.shows.holdList.Pairwise fun a b => expiryOf s a ≤ expiryOf s b
  oneDueEach : (s.clock.dueList.map (·.showIx)).Nodup
  byDue : s.clock.dueList.Pairwise fun a b =>
    a.due < b.due ∨ a.due = b.due ∧ a.showIx.val < b.showIx.val

/-! ## Which blocks a command may change -/

/-- The parts of the state that a command may or may not change: the nine blocks, the read engine,
the messages between blocks, host memory and the count of open values used. -/
inductive Part where
  | win | clock | shows | desks | arb | air | displays | stream | faults | reads | bus | hostMem
  | freeCount
  deriving DecidableEq, Repr

/-- Two states agree on a part. -/
def agreeOn (s t : State) : Part → Prop
  | .win => s.win = t.win
  | .clock => s.clock = t.clock
  | .shows => s.shows = t.shows
  | .desks => s.desks = t.desks
  | .arb => s.arb = t.arb
  | .air => s.air = t.air
  | .displays => s.displays = t.displays
  | .stream => s.stream = t.stream
  | .faults => s.faults = t.faults
  | .reads => s.reads = t.reads
  | .bus => s.bus = t.bus
  | .hostMem => s.hostMem = t.hostMem
  | .freeCount => s.freeCount = t.freeCount

/-- The parts a command may change: the state of the block that owns its event, the Window Interface
where it takes an outcome or a mirror record, and the messages sent to other blocks (Block
overview). -/
def mayChange : Instr → List Part
  | .powerOnReset _ => [.win, .clock, .shows, .desks, .arb, .air, .displays, .stream, .faults, .reads, .bus]
  | .lobbyReset _ => [.win, .clock, .shows, .desks, .arb, .air, .displays, .stream, .bus]
  | .start _ | .recovery _ | .alertAEn _ | .alertBEn _ | .attention _ | .pollTimerExpiry
  | .textReadDone _ _ | .controlReadRetryExpiry _ => [.win, .reads]
  | .stop _ | .statusWrite _ | .windowLow _ | .windowHigh _ | .configure | .mark => [.win]
  | .registerWriteOther _ _ => []
  | .anchorReadDone _ _ | .publishMarkReadDone _ _ | .entryReadDone _ _ | .controlReadFailed _
    => [.win, .reads, .bus]
  | .windowWriteSent => [.win, .reads, .hostMem]
  | .windowWriteFailed => [.win, .bus]
  | .settingsEvent _ => [.win, .shows, .desks, .arb, .air, .displays, .stream, .faults, .bus]
  | .clockSet => [.win, .clock, .shows, .desks, .bus]
  | .tick => [.win, .clock, .arb, .displays, .stream, .bus]
  | .scheduleRequest | .withdrawRequest => [.clock, .bus]
  | .catchUp | .hold | .extend | .release | .holdExpiry => [.win, .shows, .desks, .bus]
  | .showLoad | .showHalt | .showResume => [.win, .shows, .bus, .freeCount]
  | .showAmend | .showCancel | .showDrop => [.win, .shows, .desks, .bus, .freeCount]
  | .sale | .refund | .block => [.win, .shows, .bus]
  | .ask | .deskByte _ _ | .lineIdle _ | .intakeHand | .pauseRefreshExpiry => [.desks, .bus]
  | .deskTxDone _ => [.desks]
  | .deskPort => [.win, .desks, .bus, .freeCount]
  | .noticePost | .deskNoticePost | .autoNoticeRequest | .noticeClear | .clearRequest
  | .closureReport | .noticeExpiry | .linkUpReport | .linkLostReport | .drainingReport
  | .offReport | .floorReport | .coverTimerExpiry _ => [.win, .desks, .arb, .bus]
  | .deskNoticeClear => [.win, .desks, .arb, .bus, .freeCount]
  | .enabledReport => [.win, .arb, .bus]
  | .featureLoad => [.win, .air, .reads, .freeCount]
  | .featureWeight => [.win, .air, .freeCount]
  | .featureDrop => [.win, .air, .bus, .freeCount]
  | .airtimeReset => [.win, .air]
  | .headerReadDone _ _ | .chunkListPieceDone _ _ => [.win, .air, .reads]
  | .validationReadFailed _ => [.win, .air, .reads, .bus]
  | .validationRetryExpiry _ => [.air, .reads]
  | .decision _ | .releaseReport _ => [.win, .air, .bus]
  | .displaySetup | .displayEnable => [.win, .displays, .bus, .freeCount]
  | .displayDisable => [.win, .displays, .stream, .bus, .freeCount]
  | .linkUp _ | .linkDown _ | .dwellExpiry _ | .decisionReply _ | .endReport
  | .showChangedReport | .takeoverBegin | .takeoverEnd => [.win, .displays, .stream, .bus]
  | .stripReport | .startRequest | .resumeRequest | .endRequest | .drainRequest
  | .abandonRequest | .send _ | .underrunLimit _ => [.win, .stream, .bus]
  | .holdRequest => [.stream, .bus]
  | .fetchGrant | .burstRetryExpiry _ => [.stream, .reads]
  | .burstDone _ _ | .burstFailed _ => [.win, .stream, .reads, .bus]
  | .pacingMillisecond => [.win, .desks, .air, .stream]
  | .panelTxDone _ => [.stream]
  | .faultRaise _ => [.win, .faults, .bus]
  | .faultClear => [.win, .faults]

/-! ## What the statements speak of -/

/-- A journal entry of kind `k` has been handed to its owner, with the window valid. -/
abbrev HandedTo (k : EntryKind) (f : Flight) (s : State) : Prop :=
  handedEntry k s = some f ∧ s.win.windowValid = true

/-- The entry `f` has its outcome, and its outcome write is to be sent (R164). -/
abbrev EndsWith (code : OutcomeCode) (detail : Nat) (f : Flight) (t : State) : Prop :=
  t.win.flight =
    some { f with
      phase := .writing, taken := true, awaiting := [], outcome := some ⟨code, detail, []⟩ }

/-- The port of a desk is ENABLED and its reply queue has room (R69). -/
abbrev HasRoom (s : State) (d : DeskIx) : Prop :=
  s.desks.ports[d].state = .enabled ∧ s.desks.ports[d].replyQ.length < replyCapacity

/-- Between `s` and `t` the desk `d` has been sent one message and no other port has changed
(R69). -/
abbrev Told (d : DeskIx) (seq : Byte) (m : DeskMsg) (s t : State) : Prop :=
  t.desks.ports = put s.desks.ports d (s.desks.ports[d].enqueue ⟨seq, m⟩)

/-- Between `s` and `t` one raise has been sent to the Fault Unit (R174). -/
abbrev Raised (who : Raiser) (x : Raise) (s t : State) : Prop :=
  t.bus.raises = s.bus.raises ++ [(who, x)]

/-- Between `s` and `t` no show record but that of `i` has changed. -/
abbrev OtherShowsStay (i : ShowIx) (s t : State) : Prop :=
  ∀ j : ShowIx, j ≠ i → t.shows.recs[j] = s.shows.recs[j]

/-- Between `s` and `t` no hold slot but `k` has changed. -/
abbrev OtherHoldsStay (k : HoldIx) (s t : State) : Prop :=
  ∀ j : HoldIx, j ≠ k → t.shows.holds[j] = s.shows.holds[j]

/-- Between `s` and `t` no port record but that of `d` has changed. -/
abbrev OtherPortsStay (d : DeskIx) (s t : State) : Prop :=
  ∀ j : DeskIx, j ≠ d → t.desks.ports[j] = s.desks.ports[j]

/-- Between `s` and `t` no feature record but that of `f` has changed. -/
abbrev OtherFeaturesStay (f : FeatureIx) (s t : State) : Prop :=
  ∀ j : FeatureIx, j ≠ f → t.air.features[j] = s.air.features[j]

/-- Between `s` and `t` no display record but that of `d` has changed. -/
abbrev OtherDisplaysStay (d : DisplayIx) (s t : State) : Prop :=
  ∀ j : DisplayIx, j ≠ d → t.displays.recs[j] = s.displays.recs[j]

/-- Between `s` and `t` no stream record but that of `d` has changed. -/
abbrev OtherStreamsStay (d : DisplayIx) (s t : State) : Prop :=
  ∀ j : DisplayIx, j ≠ d → t.stream.recs[j] = s.stream.recs[j]

/-- Between `s` and `t` the panel link of `d` has been handed one control frame, or has discarded it
as its queue is full or its link down, and no other link has changed (R157). -/
abbrev PanelSent (d : DisplayIx) (f : PanelFrame) (s t : State) : Prop :=
  t.stream.links =
    if s.displays.recs[d].linkUp then put s.stream.links d (s.stream.links[d].enqueue f)
    else s.stream.links

/-- Between `s` and `t` no panel link but that of `d` has changed. -/
abbrev OtherLinksStay (d : DisplayIx) (s t : State) : Prop :=
  ∀ j : DisplayIx, j ≠ d → t.stream.links[j] = s.stream.links[j]

/-! ## What a display shows -/

/-- A show in the listed set (R139). -/
def InListedSet (sh : ShowRec) : Prop :=
  sh.flags.listed = true ∧
    (sh.state = .selling ∨ sh.state = .seating ∨ sh.state = .running ∨ sh.state = .halted)

/-- What a ROW or ROW_UPDATE of show `i` carries, as its record stands (R139, R140). -/
def rowShown (s : State) (i : ShowIx) : RowData where
  showIx := i
  titleCode := s.shows.recs[i].titleCode
  auditorium := s.shows.recs[i].auditorium
  start := s.shows.recs[i].start
  stateCode := s.shows.recs[i].state.code
  band := s.shows.recs[i].band
  seatsShown := s.shows.recs[i].seatsShown
  plusMarker := s.shows.recs[i].plusMarker

/-- `l` is the board list under `mask`: each show of the listed set whose auditorium has its bit set, once,
ordered by start, ties by lowest index (R139). -/
def IsBoardList (s : State) (mask : BitVec 24) (l : List ShowIx) : Prop :=
  l.Nodup ∧
    (∀ i : ShowIx, i ∈ l ↔
      InListedSet s.shows.recs[i] ∧ mask.getLsbD s.shows.recs[i].auditorium = true) ∧
    l.Pairwise fun i j => s.shows.recs[i].start < s.shows.recs[j].start ∨
      s.shows.recs[i].start = s.shows.recs[j].start ∧ i < j

/-- A panel link that stood at `link` after frames handed to it in order: while the link is down they are
discarded (R143, R157). -/
def handed (up : Bool) (frames : List PanelFrame) (link : PanelLink) : PanelLink :=
  if up then frames.foldl (fun l f => l.enqueue f) link else link

/-- In the event from `s` to `t` display `d` composed a board page and sent it on its panel link, which
stood at `link` (R139): the HOUSE card 0 where the list is empty, otherwise PAGE_BEGIN and the rows of
the page that follows the last. -/
def PageComposed (d : DisplayIx) (link : PanelLink) (s t : State) : Prop :=
  let r := s.displays.recs[d]
  let r' := t.displays.recs[d]
  let n := r.setup.rowsPerPage
  ∃ l, IsBoardList s r.setup.auditoriumMask l ∧
    (l = [] → r'.pageRows = [] ∧ r'.page = r.page ∧ r'.pages = r.pages ∧
      t.stream.links[d] = handed r'.linkUp [.house 0] link) ∧
    (l ≠ [] →
      ∃ page, r'.page = some page ∧ r'.pages = (l.length + n - 1) / n ∧
        (r.page = none → page = 0) ∧
        (∀ last, r.page = some last → r'.pages ≤ last + 1 → page = 0) ∧
        (∀ last, r.page = some last → last + 1 < r'.pages → page = last + 1) ∧
        let rows := (l.drop (page * n)).take n
        r'.pageRows = rows.map (fun i => ⟨i, false⟩) ∧
          t.stream.links[d] =
            handed r'.linkUp
              (.pageBegin page r'.pages rows.length :: rows.map fun i => .row (rowShown s i)) link)

/-- In the event from `s` to `t` display `d` started the slot at `pos` of its loop by its kind, with the
next segment number (R135, R139); its panel link stood at `link`. -/
def SlotStarts (d : DisplayIx) (pos : Nat) (link : PanelLink) (s t : State) : Prop :=
  let r := s.displays.recs[d]
  let r' := t.displays.recs[d]
  r'.loopPos = pos ∧ r'.segmentNo = (r.segmentNo + 1) % 256 ∧ r'.setup = r.setup ∧
    r'.suspended = (r'.takeover && r'.segment != .deciding) ∧
    (r'.suspended = true → r'.suspendStart = some s.clock.partSeconds) ∧
    OtherLinksStay d s t ∧
    (r.setup.loop[pos]? = some .board ∨ r.setup.loop[pos]? = none →
      r'.segment = .board ∧ r'.dwellLeft = r.setup.boardDwell ∧ PageComposed d link s t) ∧
    (∀ card, r.setup.loop[pos]? = some (.house card) →
      r'.segment = .house ∧ r'.dwellLeft = r.setup.houseDwell ∧ r'.page = r.page ∧
        r'.pages = r.pages ∧ t.stream.links[d] = handed r'.linkUp [.house card] link) ∧
    (r.setup.loop[pos]? = some .trailer →
      r'.segment = .deciding ∧ t.stream.links[d] = link ∧
        t.bus.decisions =
          s.bus.decisions ++ [⟨d, r.setup.formatMask, (r.segmentNo + 1) % 256⟩])

/-! ## What the Show Table asks of the Notice Arbiter -/

/-- The auto-notice request for a card of kind `k` of the show `sh` in slot `i` (R18). -/
def cardPost (c : ShowSettings) (k : CardKind) (i : ShowIx) (sh : ShowRec) (duration : Nat) : Post where
  origin := .schedule
  topic :=
    match k with
    | .delayed => 4 * i.val % 256
    | .soldOut => (1 + 4 * i.val) % 256
    | .doorsOpen => (2 + 4 * i.val) % 256
    | .cancelled => (3 + 4 * i.val) % 256
  priority :=
    match k with
    | .delayed => c.priorityDelayed
    | .soldOut => c.prioritySoldOut
    | .doorsOpen => c.priorityDoorsOpen
    | .cancelled => c.priorityCancelled
  mode := .all
  target := sh.target
  bound :=
    match k with
    | .doorsOpen => some i
    | .delayed | .soldOut | .cancelled => none
  content := .card k i
  truncated := false
  duration := duration

/-- The band of a live show with AUTO_SOLDOUT set has entered FULL, from the record `before` to the record
`now` (R36). -/
def asksSoldOut (before now : ShowRec) : Bool :=
  before.band != .full && now.band == .full && now.state.isLive && now.flags.autoSoldout

/-- The band of a show with soldout_asked set has left FULL, from the record `before` to the record `now`
(R37). -/
def clearsSoldOut (before now : ShowRec) : Bool :=
  before.band == .full && now.band != .full && now.soldoutAsked

/-- The record `now` with its tally counted again, at the end of an event that found it as `before`: from the
band it then had (R26), with soldout_asked set where the band enters FULL (R36) and clear where it
leaves FULL (R37). -/
def recounted (c : ShowSettings) (before now : ShowRec) : ShowRec :=
  let n := tally c.bandSets[now.bandSet] before.band now
  { n with soldoutAsked := (n.soldoutAsked || asksSoldOut before n) && !clearsSoldOut before n }

/-- What that recount of the show in slot `i` sends the Notice Arbiter: the SOLD_OUT request (R36), its
clear (R37), or nothing. -/
def soldOutMsgs (c : ShowSettings) (i : ShowIx) (before now : ShowRec) : List ShowMsg :=
  let n := tally c.bandSets[now.bandSet] before.band now
  if asksSoldOut before n then [.auto (cardPost c .soldOut i n 0)]
  else if clearsSoldOut before n then [.clear i]
  else []

/-- Hold slot `k` holds a live hold of show `i` (R54). -/
def holdsFor (s : State) (i : ShowIx) (k : HoldIx) : Bool :=
  s.shows.holdList.contains k && (s.shows.holds[k].hold).any (·.showIx == i)

/-- The seats of the live holds of show `i`. -/
def seatsHeldFor (s : State) (i : ShowIx) : Nat :=
  ((List.finRange 192).map fun k =>
    if holdsFor s i k then ((s.shows.holds[k].hold).map (·.seats)).getD 0 else 0).sum

/-- Between `s` and `t` every live hold of show `i` has been freed and every other has stayed (R43, R54). -/
def HoldsLetGo (i : ShowIx) (s t : State) : Prop :=
  (∀ k : HoldIx, t.shows.holds[k] =
    if holdsFor s i k then ⟨(s.shows.holds[k].gen + 1) % 256, none⟩ else s.shows.holds[k]) ∧
  t.shows.holdList = s.shows.holdList.filter (!holdsFor s i ·)

/-- What a closing sequence sends the Notice Arbiter for show `i`, whose record is `sh` (R17). -/
def closingMsgs (reason : NoticeEnd) (i : ShowIx) (sh : ShowRec) : List ShowMsg :=
  .closure i reason :: if sh.soldoutAsked = true then [.clear i] else []

/-- Between `s` and `t` show `i` has gone through its closing sequence (R17, R37), its record `now` but for
the tally: its holds are freed, their seats leave held, the tally is counted once, soldout_asked is
clear, and the requests to the Notice Arbiter stand between the messages `first` and `last`. -/
def ClosedAs (now : ShowRec) (reason : NoticeEnd) (i : ShowIx) (first last : List ShowMsg)
    (s t : State) : Prop :=
  HoldsLetGo i s t ∧
    t.shows.recs[i] =
      { tally s.shows.cfg.bandSets[now.bandSet] s.shows.recs[i].band
          { now with held := now.held - seatsHeldFor s i } with soldoutAsked := false } ∧
    t.bus.toArbiter = s.bus.toArbiter ++ first ++ closingMsgs reason i now ++ last

/-- The states a show enters by its clock-driven transitions due at or before `time`, from `st` onward
(R6, R7); `n` is how many are looked for, of which a show has at most four. -/
def statesPassed (sh : ShowRec) (time : Nat) : Nat → ShowState → List ShowState
  | 0, _ => []
  | n + 1, st =>
    match dueTime sh st with
    | some due =>
      if due ≤ time then nextState st :: statesPassed sh time n (nextState st) else []
    | none => []

/-- The transitions of a catch-up (R5, R6): every show named by a current one takes all that its
record has due at or before `time`. -/
def transitionsOf (time : Nat) (entries : List DueEntry) (s : State) : Nat :=
  (entries.map fun e =>
    if isCurrent s.shows.recs[e.showIx] e then
      (statesPassed s.shows.recs[e.showIx] time 4 e.fromState).length
    else 0).sum

/-- Between `s` and `t` a catch-up has been taken (R6, R7): a show that no current transition names is as
it was; one that a current transition names has passed every state due at or before `time`, in its
state or, while HALTED, in saved_state, and has its next transition scheduled, or is CLOSED with its
closure report sent. -/
def CaughtUp (time : Nat) (entries : List DueEntry) (s t : State) : Prop :=
  ∀ i : ShowIx,
    let sh := s.shows.recs[i]
    ((∀ e ∈ entries, e.showIx = i → isCurrent sh e = false) → t.shows.recs[i] = sh) ∧
    ∀ e ∈ entries, e.showIx = i → isCurrent sh e = true →
      let st := (statesPassed sh time 4 e.fromState).getLast?.getD e.fromState
      (st ≠ .closed →
        t.shows.recs[i] =
            (if sh.state = .halted then { sh with savedState := some st }
             else { sh with state := st }) ∧
          ∀ due, dueTime sh st = some due → ClockRequest.schedule ⟨i, st, due⟩ ∈ t.bus.toClock) ∧
      (st = .closed →
        t.shows.recs[i].state = .closed ∧ t.shows.recs[i].savedState = none ∧
          ShowMsg.closure i .showClosed ∈ t.bus.toArbiter)

/-- What a PAUSE makes of a port (R70): it takes the head of an ENABLED port's reply queue, in the place of
a PAUSE that waits there, and of the oldest reply, counted lost, where four replies wait; an idle
transmitter takes it at once. A port not ENABLED stays. -/
def pausePlaced (time : Nat) (p : Port) : Port :=
  let f : DeskFrame := ⟨0, .pause time⟩
  if p.state ≠ .enabled then p
  else
    match p.replyQ with
    | [] => { p with replyQ := [f] }.kick
    | h :: rest =>
      if h.isPause then { p with replyQ := f :: rest }.kick
      else if p.replyQ.length < 4 then { p with replyQ := f :: p.replyQ }.kick
      else
        { p with
          replyQ := f :: rest
          counters := { p.counters with lost := min (p.counters.lost + 1) 65535 } }.kick

/-- The read stands in a read slot or in the wait queue (R146). -/
def Outstanding (r : Read) (t : State) : Prop :=
  (∃ i : ReadSlot, t.reads.slots[i] = some r) ∨ r ∈ t.reads.queue

/-- Between `s` and `t` the read engine has taken one request more (R146): in a free slot, whichever of them it
is, or at the tail of the wait queue where every slot is in use. -/
def ReadIssued (r : Read) (s t : State) : Prop :=
  (∃ i : ReadSlot, s.reads.slots[i] = none ∧
    t.reads = { s.reads with slots := put s.reads.slots i (some r) }) ∨
  (∀ i : ReadSlot, s.reads.slots[i] ≠ none) ∧
    t.reads = { s.reads with queue := s.reads.queue ++ [r] }

/-- `q'` is the write queue `q` with the write `w` placed in it (R166): in the place of the first queued
write of its target, or at the tail where there is none. -/
def PlacedIn (w : WindowWrite) (q q' : List WindowWrite) : Prop :=
  (∀ before x after, q = before ++ x :: after → x.target = w.target →
    (∀ y ∈ before, y.target ≠ w.target) → q' = before ++ w :: after) ∧
  ((∀ y ∈ q, y.target ≠ w.target) → q' = q ++ [w])

/-- The anchor's word `a`, at `offset` from the window base, stands on the write path with `bytes` (R166). -/
def WordPlaced (a : AnchorWord) (offset : Nat) (bytes : List Byte) (t : State) : Prop :=
  ⟨.anchor a, [(t.win.windowBase.toNat + offset, bytes)], false⟩ ∈ t.win.writeQ

/-- The mirror record `id` stands on the write path with its bytes and its version as of `t`, the version
last (R167). -/
def RecordPlaced (id : MirrorId) (t : State) : Prop :=
  let a := t.win.windowBase.toNat + t.win.geometry.mirrorOffset + id.offset
  ⟨.mirror id, [(a, mirrorBody t id), (a + id.size - 2, leBytes 2 t.win.versions[id.index])], false⟩ ∈
    t.win.writeQ

/-- The priority of the notice in a slot, 0 where it is free. -/
def priorityIn (s : State) (i : NoticeIx) : Nat := (s.arb.slots[i].notice.map (·.priority)).getD 0

/-- The level of display `d`: the greater of its floor and one more than the class of its top notice
(R94). -/
def levelAt (s : State) (d : DisplayIx) : Nat :=
  max s.arb.recs[d].floor ((s.arb.recs[d].stack.head?.map fun i => priorityIn s i / 4 + 1).getD 0)

/-- Notice `i` is the candidate of display `d`: in its pending set no notice has a higher priority, and of
those with the same priority it is the oldest (R94). -/
def isCandidate (s : State) (d : DisplayIx) (i : NoticeIx) : Prop :=
  i ∈ s.arb.recs[d].pending ∧ ∃ older newer, s.arb.order = older ++ i :: newer ∧
    (∀ j ∈ older, j ∈ s.arb.recs[d].pending → priorityIn s j < priorityIn s i) ∧
    (∀ j ∈ newer, j ∈ s.arb.recs[d].pending → priorityIn s j ≤ priorityIn s i)

/-- Notice `i`, the candidate of display `d`, meets conditions 1 to 3 of an evaluation (R95). -/
def passes (s : State) (d : DisplayIx) (i : NoticeIx) : Prop :=
  levelAt s d ≤ priorityIn s i / 4 ∧ s.arb.recs[d].stack.length < 4 ∧
    (s.arb.recs[d].stack = [] ∨
      ∀ c, s.arb.recs[d].coverStart = some c → c + s.arb.cfg.minCover ≤ s.clock.partSeconds)

/-- A placement chooses display `a` before `b`: by level, then by pending notices, then by index (R104). -/
def chosenBefore (s : State) (a b : DisplayIx) : Prop :=
  levelAt s a < levelAt s b ∨ levelAt s a = levelAt s b ∧
    (s.arb.recs[a].pending.length < s.arb.recs[b].pending.length ∨
      s.arb.recs[a].pending.length = s.arb.recs[b].pending.length ∧ a.val < b.val)

/-- Display `d` holds notice `i`, in its pending set or on its stack. -/
def standsAt (s : State) (i : NoticeIx) (d : DisplayIx) : Prop :=
  i ∈ s.arb.recs[d].pending ∨ i ∈ s.arb.recs[d].stack

/-- The ANY_ONE notices that satisfy `which` have been placed between `s` and `t` (R104, R105), where the
displays of `among` are those that are ON: each stands at one of them that matches its target, or is
UNPLACED where none does; and the oldest stands at the one that R104 chooses in `s`. -/
def PlacedAgain (which : NoticeIx → Notice → Prop) (among : DisplayIx → Prop) (s t : State) : Prop :=
  let fits (n : Notice) (e : DisplayIx) : Prop :=
    among e ∧ matchesTarget n.target e s.arb.recs[e].tag = true
  ∀ (i : NoticeIx) (n : Notice), i ∈ s.arb.order → s.arb.slots[i].notice = some n →
    n.mode = .anyOne → which i n →
    ∃ n', t.arb.slots[i].notice = some n' ∧
      ((∀ e, ¬ fits n e) → n'.placed = none) ∧
      (∀ e, fits n e → ∃ e', fits n e' ∧ n'.placed = some e' ∧ standsAt t i e') ∧
      (∀ older newer, s.arb.order = older ++ i :: newer → i ∉ newer →
        (∀ j ∈ older, ∀ m, s.arb.slots[j].notice = some m → m.mode = .anyOne → ¬ which j m) →
        ∀ e, n'.placed = some e → ∀ e', fits n e' → e' ≠ e → chosenBefore s e e')

/-- The top notice of display `d` is of takeover class, where class `cls` and above take over (R77, R108). -/
def overtaken (cls : Nat) (s : State) (d : DisplayIx) : Bool :=
  s.arb.recs[d].stack.head?.any fun i =>
    cls ≤ ((s.arb.slots[i].notice.map fun n => n.priority / 4).getD 0)

/-- What a takeover comparison of display `d` sends the Display Controller (R108): its flag was `before`, its
top is now of takeover class or not. -/
def takeoverMsgs (before now : Bool) (d : DisplayIx) : List PanelSignal :=
  if !before && now then [.takeoverBegin d] else if before && !now then [.takeoverEnd d] else []

/-- No live notice is bound to a show that is CLOSED, CANCELLED or EMPTY (R96). -/
abbrev NoneGone (s : State) : Prop := ∀ i : NoticeIx, boundGone s i = false

/-- What of a notice its post fixes: all but where it is placed and how often it has aired. -/
def Notice.posted (n : Notice) : Notice := { n with placed := none, aired := 0 }

/-- Slot `i` holds the same notice, as posted, in both states, with the same generation. -/
def SameNotice (s t : State) (i : NoticeIx) : Prop :=
  t.arb.slots[i].gen = s.arb.slots[i].gen ∧
    t.arb.slots[i].notice.map Notice.posted = s.arb.slots[i].notice.map Notice.posted

/-- Slot `i` was in use and is free, with the next generation (R76, R79). -/
def NoticeEnded (s t : State) (i : NoticeIx) : Prop :=
  s.arb.slots[i].notice.isSome = true ∧
    t.arb.slots[i] = ⟨(s.arb.slots[i].gen + 1) % 256, none⟩

/-- A post stands in slot `i` as a notice numbered `seq`, posted at the part seconds of `s`, of the given
mode, target and bound show (R82, R84). -/
def Stands (p : Post) (i : NoticeIx) (seq : Nat) (mode : NoticeMode) (target : Target)
    (bound : Option ShowIx) (s t : State) : Prop :=
  t.arb.slots[i].gen = s.arb.slots[i].gen ∧
    ∃ n, t.arb.slots[i].notice = some n ∧ n.origin = p.origin ∧ n.topic = p.topic ∧
      n.mode = mode ∧ n.target = target ∧ n.bound = bound ∧
      n.priority = p.priority ∧ n.content = p.content ∧ n.truncated = p.truncated ∧
      n.duration = p.duration ∧ n.postSeq = seq ∧
      n.expiry =
        if p.duration = 0 then none
        else some (min (s.clock.partSeconds + p.duration) 4294967295)

end Sys2Proof.Machine
end

