-- ==== Sys2Proof/Certificates/Slice0/Obligations.lean ====
section
/-! DEFINITION. The statements for the provers, in the order of OBLIGATIONS.json. Every statement
about a command is about `exec`; `StepRunsTheFrontCommand` carries it to `step`. -/

open Sys2Proof Sys2Proof.Machine

/-! ## The queue, the parts, the invariants -/

/-- A step takes the command at the front of the queue and runs it with the queue's rest. -/
def Obligations.StepRunsTheFrontCommand : Prop :=
  ∀ (c : Instr) (rest : List Instr) (s : State),
    step { s with pending := c :: rest } = exec c { s with pending := rest }

/-- Every command of the part answers a next state and leaves the queue of commands waiting as it finds
it; a term that is no command of the part is refused, and nothing faults. The model's choice: which
terms are no command and that they are refused (log entry 38), and that a command whose event is not
there still answers a next state (log entry 6). -/
def Obligations.CommandsAnswerAndLeaveTheQueue : Prop :=
  ∀ (c : Instr) (s : State),
    (c.wellFormed = true → ∃ t, exec c s = .next t ∧ t.pending = s.pending) ∧
      (c.wellFormed = false → exec c s = .refused .illFormed)

/-- Each block owns its own state and others do not change it: a command changes no part but the
ones that `mayChange` names for it (Block overview). The model's choice: that TICK marks the timers of
three blocks and PACING_MILLISECOND counts down those of four (log entries 4 and 17). -/
def Obligations.CommandsKeepToTheirParts : Prop :=
  ∀ (c : Instr) (s t : State) (p : Part),
    exec c s = .next t → p ∉ mayChange c → agreeOn s t p

/-- Every step keeps the Show Table sound: every tally is what its counts call for (R22, R23, R27), an EMPTY
slot is empty throughout (R1), a saved state is one that a HALTED show can resume (R11), and every
hold in use is on the Hold List and names a live show (R41, R54). Every step also keeps the Hold List
ordered by expiry and the due list by due time (R3, R41). -/
def Obligations.StepsKeepTheShowTableSound : Prop :=
  ∀ s t : State, step s = .next t →
    (ShowsSound s → ShowsSound t) ∧ (ListsInOrder s → ListsInOrder t)

/-- Every step keeps the intake queue, the reply queues, the control queues and the on-air stacks
within their capacities (R64, R69, R95, R157). -/
def Obligations.StepsKeepCapacities : Prop :=
  ∀ s t : State, WithinCapacity s → step s = .next t → WithinCapacity t

/-- Every step keeps at most one write for each mirror record, one for each anchor word and one
outcome in the write queue (R166), the bytes of host memory in their canonical form, and the window
base a multiple of 4,096 (R160). -/
def Obligations.StepsKeepTheWritePathSound : Prop :=
  ∀ s t : State, WritePathSound s → step s = .next t → WritePathSound t

/-- The state after power-on reset meets every invariant that the steps keep (R1, R21, R41, R59, R92,
R145, R160). The model's choice: that the queues the manual does not name are empty, the links are
found down and host memory holds nothing of the part's (log entries 5, 10 and 16). -/
def Obligations.ResetMeetsTheInvariants : Prop :=
  ShowsSound State.reset ∧ ListsInOrder State.reset ∧ WithinCapacity State.reset ∧
    WritePathSound State.reset

/-! ## Resets -/

/-- POWER_ON_RESET: every block at its power-on values, every setting at its default, the links as found
(R1, R2, R21, R24, R40, R41, R59, R76, R77, R92, R110, R129, R145, R147, R160, R173, R178). The model's
choice: the fetch position, the bytes fetched and sent and the remainder of an IDLE stream, the queues
between the blocks and the marks kept of a start (log entry 16), the marks of timers run out at a tick
(log entry 17) and the Notice Arbiter's copy of a tag (log entry 45) are 0, empty or clear. -/
def Obligations.PowerOnValues : Prop :=
  ∀ (links : BitVec 16) (s : State), ∃ t, exec (.powerOnReset links) s = .next t ∧
    (let band : BandSet :=
        { fillingOn := 500, fillingOff := 450, fewOn := 800, fewOff := 750, lastOn := 10,
          lastOff := 15, fullOff := 2, exactLimit := 20, step := 10 }
      let shows : ShowSettings :=
        { holdExpiry := 300, holdMaxSeats := 20, priorityDelayed := 40, prioritySoldOut := 24,
          priorityDoorsOpen := 20, priorityCancelled := 44, bandSets := #v[band, band, band, band] }
      let notices : NoticeSettings := { deskPriorityCap := 47, minCover := 2, takeoverClass := 14 }
      let retry : RetrySettings := { backoffCap := 6, retryLimit := 8 }
      let desks : DeskSettings := { pauseOn := 24, pauseOff := 8, pauseTime := 50 }
      let severe : CauseSettings := ⟨.severe, false, false⟩
      let minor : CauseSettings := ⟨.minor, false, false⟩
      let causes : Vector CauseSettings 13 :=
        #v[severe, severe, minor, severe, severe, minor, minor, minor, minor, minor, minor, minor,
          ⟨.minor, true, false⟩]
      t.shows.cfg = shows ∧ t.arb.cfg = notices ∧ t.air.cfg = ⟨2700, retry⟩ ∧
        t.displays.resumeLimit = 60 ∧ t.stream.cfg = ⟨2, 0xACE1, retry⟩ ∧ t.desks.cfg = desks ∧
        t.faults.cfg = causes ∧
        t.win.cfg =
          { shows := shows, notices := notices, nearWindow := 2700, resumeLimit := 60,
            underrunLimit := 2, lfsrSeed := 0xACE1, retry := retry, desks := desks,
            window := ⟨20, .lineA, .lineB, .none, .none⟩, causes := causes }) ∧
    (t.win.runBit = false ∧ t.win.alertAEn = false ∧ t.win.alertBEn = false ∧
      t.win.causes = ⟨false, false, false, false⟩ ∧ t.win.windowBase = 0 ∧
      t.win.runState = .stopped ∧ t.win.starting = false ∧ t.win.stopping = false ∧
      t.win.stallCause = .none ∧ t.win.anchorCheck = 0 ∧ t.win.windowValid = false ∧
      t.win.session = 0 ∧ t.win.takeMark = 0 ∧ t.win.publishMark = 0 ∧ t.win.flight = none ∧
      t.win.heldOutcome = none ∧ t.win.rewriting = false ∧ t.win.startDone = false ∧
      t.win.pollTimer = none ∧ t.win.anchorRead = none ∧ t.win.markRead = none ∧
      t.win.writeQ = [] ∧ t.win.mirrorGen = 0 ∧ t.win.settingsQ = [] ∧
      ∀ n : Fin 402, t.win.versions[n] = 0) ∧
    (t.clock.partSeconds = 0 ∧ t.clock.lobby = none ∧ t.clock.dueList = []) ∧
    (∀ i : ShowIx, t.shows.recs[i].state = .empty ∧ t.shows.recs[i].band = .openHouse ∧
      t.shows.recs[i].savedState = none ∧ t.shows.recs[i].soldoutAsked = false ∧
      t.shows.recs[i] = {}) ∧
    ((∀ k : HoldIx, t.shows.holds[k] = ⟨0, none⟩) ∧ t.shows.holdList = [] ∧
      t.shows.placementCounter = 0) ∧
    ((∀ d : DeskIx, t.desks.ports[d] =
        { state := .disabled, phase := .hunt, rx := [], replyQ := [], tx := none,
          counters := ⟨0, 0, 0, 0, 0, 0, 0, 0⟩ }) ∧
      t.desks.intake = [] ∧ t.desks.inHand = none ∧ t.desks.paused = false ∧
      t.desks.pauseTimer = none) ∧
    ((∀ i : NoticeIx, t.arb.slots[i] = ⟨0, none⟩) ∧ t.arb.order = [] ∧ t.arb.postCounter = 0 ∧
      ∀ d : DisplayIx, t.arb.recs[d] =
        { noticeState := .off, floor := 0, pending := [], stack := [], coverStart := none,
          takeover := false, coverDue := false, tag := 0 }) ∧
    ((∀ f : FeatureIx, t.air.features[f] =
        { state := .empty, weight := 0, clipLocation := 0, formatClass := 0, byteRate := 0,
          chunkCount := 0, chunks := [], totalBytes := 0, duration := 0, truncated := false,
          rejectReason := .none, rejectDetail := 0, validationNo := 0, credit := 0, lastE := 0,
          plays := 0, streamingCount := 0, validation := none }) ∧
      ∀ d : DisplayIx, t.air.lastTrailer[d] = none) ∧
    (∀ d : DisplayIx, t.displays.recs[d] =
      { setup :=
          { tag := 0, auditoriumMask := 0xFFFFFF#24, loop := [.board], rowsPerPage := 8,
            boardDwell := 10, houseDwell := 8, floor := 0, formatMask := 0x01#8, lowMark := 64,
            highMark := 112 }
        state := .off, linkUp := links.getLsbD d.val, loopPos := 0, segment := .none,
        segmentNo := 0, feature := 0, dwellLeft := 0, page := none, pages := 0, pageRows := [],
        takeover := false, suspended := false, suspendStart := none }) ∧
    ((∀ d : DisplayIx, t.stream.recs[d] =
        { phase := .idle, segmentNo := 0, streamNo := 0, feature := 0, lowMark := 65536,
          highMark := 114688, buffer := [], chunkIx := 0, chunkOff := 0, bytesFetched := 0,
          bytesSent := 0, requesting := false, burst := none, allowance := 0, carry := 0,
          held := false, endMarked := false, inUnderrun := false, underrunStart := none,
          underrunCount := 0 }) ∧
      t.stream.lfsr = 0xACE1#16 ∧ t.stream.lastGrant = 15 ∧
      ∀ d : DisplayIx, t.stream.links[d] = { control := [], clip := none, tx := none, dropped := 0 }) ∧
    (t.faults.severe = { first := none, causes := [], count := 0 } ∧
      t.faults.minor = { first := none, causes := [], count := 0 }) ∧
    ((∀ r : ReadSlot, t.reads.slots[r] = none) ∧ t.reads.queue = [] ∧ t.bus = {})

/-- LOBBY_RESET: the tables and queues emptied, generations advanced where a slot was in use; kept are
every setting, there and with its owner, the LFSR, the placement and the posting counter, an entry in
the intake hand, the marks and the fault records (R1, R2, R55, R59, R75, R77, R91, R92, R128, R129,
R145, R157, R172, R178). A frame in transmission to a panel finishes, with STRIP_CLEAR behind it for a
display not OFF whose link is up (R144). The outcome write leaves the write queue and every other write
stays; while window_valid is set every record but the two of faults stands there as it then is, its
version advanced where no write of it was queued, and so does the run echo. The model's choice: the
fetch position, the bytes fetched and sent and the remainder of a stream are 0, and the marks kept of a
start and of a rewriting are clear (log entry 16); so are the marks of timers run out at a tick (log
entry 17), the Notice Arbiter's copy of a tag (log entry 45) and the marks of waiting drop reports (log
entry 54). -/
def Obligations.LobbyResetEmptiesTheTables : Prop :=
  ∀ (w : BitVec 32) (s : State), controlLobbyReset w = true →
    ∃ t, exec (.lobbyReset w) s = .next t ∧
      (t.win.runState = .stopped ∧ t.win.runBit = false ∧ t.win.starting = false ∧
        t.win.stopping = false ∧ t.win.stallCause = .none ∧ t.win.anchorCheck = 0 ∧
        t.win.causes = {} ∧ t.win.flight = none ∧ t.win.heldOutcome = none ∧
        t.win.rewriting = false ∧ t.win.startDone = false ∧ t.win.anchorRead = none ∧
        t.win.markRead = none ∧ t.win.pollTimer = none ∧
        t.win.session = (s.win.session + 1) % 256) ∧
      (t.win.takeMark = s.win.takeMark ∧ t.win.publishMark = s.win.publishMark ∧
        t.win.settingsQ = s.win.settingsQ ∧ t.shows.cfg = s.shows.cfg ∧ t.arb.cfg = s.arb.cfg ∧
        t.air.cfg = s.air.cfg ∧ t.displays.resumeLimit = s.displays.resumeLimit ∧
        t.stream.cfg = s.stream.cfg ∧ t.desks.cfg = s.desks.cfg ∧
        t.stream.lfsr = s.stream.lfsr ∧ t.stream.lastGrant = 15 ∧
        (∀ d : DisplayIx, t.air.lastTrailer[d] = none) ∧
        t.shows.placementCounter = s.shows.placementCounter ∧
        t.arb.postCounter = s.arb.postCounter ∧ t.arb.order = [] ∧
        t.desks.inHand = s.desks.inHand ∧ t.desks.paused = false ∧ t.desks.pauseTimer = none ∧
        t.reads = s.reads) ∧
      (∀ d : DisplayIx, t.stream.links[d] =
        let l : PanelLink := { tx := s.stream.links[d].tx }
        if s.displays.recs[d].state = .off ∨ s.displays.recs[d].linkUp = false then l
        else if l.tx = none then { l with tx := some .stripClear }
        else { l with control := [.stripClear] }) ∧
      (s.win.windowValid = false →
        t.win.versions = s.win.versions ∧
          t.win.writeQ = s.win.writeQ.filter (·.target != .outcome)) ∧
      (s.win.windowValid = true →
        (∀ id : MirrorId, (∀ sev, id ≠ .fault sev) → RecordPlaced id t ∧
          t.win.versions[id.index] =
            if s.win.writeQ.any (·.target == .mirror id) = true then s.win.versions[id.index]
            else (s.win.versions[id.index] + 1) % 65536) ∧
        (∀ sev : Severity, t.win.versions[(MirrorId.fault sev).index] =
          s.win.versions[(MirrorId.fault sev).index]) ∧
        WordPlaced .runEcho 77 [0] t ∧ (∀ x ∈ t.win.writeQ, x.target ≠ .outcome) ∧
        ∀ x ∈ s.win.writeQ,
          (∃ a, a ≠ .runEcho ∧ x.target = .anchor a) ∨ (∃ sev, x.target = .mirror (.fault sev)) →
          x ∈ t.win.writeQ) ∧
      (t.win.windowBase = s.win.windowBase ∧ t.win.windowValid = s.win.windowValid ∧
        t.win.geometry = s.win.geometry ∧ t.win.mirrorGen = s.win.mirrorGen ∧
        t.win.cfg = s.win.cfg ∧ t.win.alertAEn = controlAlertA w ∧
        t.win.alertBEn = controlAlertB w) ∧
      (t.clock.partSeconds = s.clock.partSeconds ∧ t.clock.lobby = s.clock.lobby ∧
        t.clock.dueList = []) ∧
      (∀ i : ShowIx, t.shows.recs[i] = {}) ∧ t.shows.holdList = [] ∧
      (∀ k : HoldIx, t.shows.holds[k] =
        if s.shows.holds[k].hold.isSome then ⟨(s.shows.holds[k].gen + 1) % 256, none⟩
        else s.shows.holds[k]) ∧
      (∀ i : NoticeIx, t.arb.slots[i] =
        if s.arb.slots[i].notice.isSome then ⟨(s.arb.slots[i].gen + 1) % 256, none⟩
        else s.arb.slots[i]) ∧
      (∀ d : DisplayIx, t.arb.recs[d] = { floor := s.arb.recs[d].floor }) ∧
      (∀ d : DeskIx, t.desks.ports[d] = {}) ∧ t.desks.intake = [] ∧
      (∀ f : FeatureIx, t.air.features[f] = { validationNo := s.air.features[f].validationNo }) ∧
      (∀ d : DisplayIx, t.displays.recs[d] =
        { setup := s.displays.recs[d].setup, linkUp := s.displays.recs[d].linkUp }) ∧
      (∀ d : DisplayIx, t.stream.recs[d] =
        { streamNo := (s.stream.recs[d].streamNo + 1) % 65536 }) ∧
      t.faults = s.faults ∧ t.hostMem = s.hostMem

/-! ## Registers -/

/-- ALERT_A_EN, ALERT_B_EN: a write of CONTROL that asks for no reset, start, stop or recovery sets the
two enables as written and changes nothing else (R160). -/
def Obligations.AlertEnablesFollowControl : Prop :=
  ∀ (w : BitVec 32) (s : State), controlLobbyReset w = false → controlRun w = s.win.runBit →
    (s.win.runBit = true → s.win.runState ≠ .stalled) →
    let t : State :=
      { s with win := { s.win with alertAEn := controlAlertA w, alertBEn := controlAlertB w } }
    exec (.alertAEn w) s = .next t ∧ exec (.alertBEn w) s = .next t

/-- STATUS_WRITE clears every cause bit written as 1 and leaves the others (R168). -/
def Obligations.StatusWriteClearsCauses : Prop :=
  ∀ (w : BitVec 32) (s : State),
    exec (.statusWrite w) s = .next { s with
      win := { s.win with
        causes :=
          { severe := s.win.causes.severe && !w.getLsbD 8
            minor := s.win.causes.minor && !w.getLsbD 9
            mirror := s.win.causes.mirror && !w.getLsbD 10
            drained := s.win.causes.drained && !w.getLsbD 11 } } }

/-- ATTENTION while STOPPED or RUNNING (R163): ignored while STOPPED, served by an outstanding read,
and otherwise a read of the publish mark, in a free read slot or behind the reads that wait for one
(R146); the value written does not matter. The model's choice: a read in its retry wait is outstanding (log
entry 76). -/
def Obligations.AttentionReadsThePublishMark : Prop :=
  ∀ (w : BitVec 32) (s : State),
    (s.win.runState = .stopped → exec (.attention w) s = .next s) ∧
    (s.win.runState = .running → s.win.markRead.isSome = true → exec (.attention w) s = .next s) ∧
    (s.win.runState = .running → s.win.markRead = none →
      ∃ t, exec (.attention w) s = .next t ∧
        t = { s with win := { s.win with markRead := some {} }, reads := t.reads } ∧
        ReadIssued ⟨.publishMark s.win.session, s.win.windowBase.toNat + 16, 4, false⟩ s t)

/-- WINDOW_LOW and WINDOW_HIGH while STOPPED with RUN clear: each sets its half of the base, the low 12
bits ignored, and clears window_valid (R160). The model's choice: the write queue stays, with the
addresses its writes were placed with (log entry 20). -/
def Obligations.WindowBaseTakenWhileStopped : Prop :=
  ∀ (w : BitVec 32) (s : State), s.win.runState = .stopped → s.win.runBit = false →
    (∃ t, exec (.windowLow w) s = .next t ∧
      t = { s with win := { s.win with windowBase := t.win.windowBase, windowValid := false } } ∧
      readRegister t.win 0x10#12 = w &&& 0xFFFFF000#32 ∧
      readRegister t.win 0x14#12 = readRegister s.win 0x14#12) ∧
    (∃ t, exec (.windowHigh w) s = .next t ∧
      t = { s with win := { s.win with windowBase := t.win.windowBase, windowValid := false } } ∧
      readRegister t.win 0x10#12 = readRegister s.win 0x10#12 ∧
      readRegister t.win 0x14#12 = w)

/-- REGISTER_WRITE_OTHER, and WINDOW_LOW and WINDOW_HIGH at any other time: the write is ignored
(R160). -/
def Obligations.IgnoredRegisterWrites : Prop :=
  ∀ (w : BitVec 32) (s : State),
    (∀ o : BitVec 12, o ∉ writableOffsets → exec (.registerWriteOther o w) s = .next s) ∧
    (s.win.runState ≠ .stopped ∨ s.win.runBit = true →
      exec (.windowLow w) s = .next s ∧ exec (.windowHigh w) s = .next s)

/-- START (R162): from STOPPED with RUN clear the session advances, starting is set and the 256 bytes of
the anchor are read at the window base, in a free read slot or behind the reads that wait for one
(R146). -/
def Obligations.StartReadsTheAnchor : Prop :=
  ∀ (w : BitVec 32) (s : State), controlLobbyReset w = false →
    controlRun w = true → s.win.runBit = false → s.win.runState = .stopped →
    ∃ t, exec (.start w) s = .next t ∧
      t.win.runBit = true ∧ t.win.starting = true ∧ t.win.runState = .stopped ∧
      t.win.session = (s.win.session + 1) % 256 ∧ t.win.anchorRead = some {} ∧
      t.win.alertAEn = controlAlertA w ∧ t.win.alertBEn = controlAlertB w ∧
      ReadIssued ⟨.anchor t.win.session, s.win.windowBase.toNat, 256, false⟩ s t

/-- STOP (R161): STOPPED at once where nothing is in flight; stopping set where an entry is; from
STALLED the held outcome is discarded; a start in progress is given up. -/
def Obligations.StopByRunState : Prop :=
  ∀ (w : BitVec 32) (s : State), controlLobbyReset w = false → controlRun w = false →
    s.win.runBit = true →
    (s.win.runState = .running → s.win.starting = false → s.win.flight = none →
      ∃ t, exec (.stop w) s = .next t ∧ t.win.runBit = false ∧ t.win.runState = .stopped ∧
        t.win.pollTimer = none ∧ t.win.stallCause = .none) ∧
    (∀ f, s.win.runState = .running → s.win.starting = false → s.win.flight = some f →
      exec (.stop w) s = .next { s with
        win := { s.win with
          runBit := false, stopping := true, alertAEn := controlAlertA w,
          alertBEn := controlAlertB w } }) ∧
    (s.win.runState = .stalled → s.win.starting = false →
      ∃ t, exec (.stop w) s = .next t ∧ t.win.runBit = false ∧ t.win.runState = .stopped ∧
        t.win.stallCause = .none ∧ t.win.heldOutcome = none ∧
        t.win.session = (s.win.session + 1) % 256) ∧
    (s.win.runState = .stopped → s.win.starting = true →
      ∃ t, exec (.stop w) s = .next t ∧ t.win.runBit = false ∧ t.win.runState = .stopped ∧
        t.win.starting = false ∧ t.win.session = (s.win.session + 1) % 256)

/-- RECOVERY, and ATTENTION while STALLED (R165): the session advances, the other control reads of the
old session are void and the anchor is read, in a free read slot or behind the reads that wait for one
(R146); the part stays STALLED. -/
def Obligations.RecoveryReadsTheAnchor : Prop :=
  ∀ (w : BitVec 32) (s : State), s.win.runState = .stalled →
    let recovering (t : State) : Prop :=
      t.win.runState = .stalled ∧ t.win.stallCause = s.win.stallCause ∧
        t.win.session = (s.win.session + 1) % 256 ∧ t.win.anchorRead = some {} ∧
        t.win.markRead = none ∧
        ReadIssued ⟨.anchor t.win.session, s.win.windowBase.toNat, 256, false⟩ s t
    (∃ t, exec (.attention w) s = .next t ∧ recovering t) ∧
    (controlLobbyReset w = false → controlRun w = true → s.win.runBit = true →
      ∃ t, exec (.recovery w) s = .next t ∧ recovering t)

/-! ## The Lobby Window: reads -/

/-- ANCHOR_READ_DONE (R162, R165). Of a start, or of a recovery with no start completed since RUN was set:
the first check that fails is shown, its number, and the part is STOPPED with ANCHOR_BAD raised; where
all five pass, the geometry and both marks are taken, the part is RUNNING, the first entry is read
where the marks differ, and, where window_valid was clear, every mirror record is placed, each with its
version one more modulo 65536 (R167), a write still queued from before keeping its place and its version
(log entry 71). Of any other recovery: a changed geometry leaves the part STALLED with its
cause, check 0 shown and ANCHOR_BAD raised; an inconsistent publish mark leaves it STALLED, cause MARK,
or WRITE while an outcome is held, with JOURNAL_MARK raised; a consistent one is taken, and by the
cause the held outcome is written again, the part still STALLED, or the part is RUNNING, an entry
already handed finishing and an abandoned one read afresh. The model's choice: a start goes on, and ends
RUNNING, also where a refusal has cleared RUN while the anchor was read (log entry 73), and an abandoned
entry is not read again where the anchor's publish mark equals T (log entry 80). -/
def Obligations.AnchorReadStartsOrStops : Prop :=
  ∀ (slot : ReadSlot) (bytes : List Byte) (s : State) (addr len : Nat) (g : Bool),
    bytes.length = 256 →
    s.reads.slots[slot] = some ⟨.anchor s.win.session, addr, len, g⟩ →
    let a := readAnchor bytes
    ∃ t, exec (.anchorReadDone slot bytes) s = .next t ∧ t.win.anchorRead = none ∧
      ((s.win.starting = true ∧ s.win.runState = .stopped ∨
          s.win.starting = false ∧ s.win.runState = .stalled ∧ s.win.startDone = false) →
        s.win.flight = none →
        t.win.starting = false ∧ t.win.anchorCheck = startCheck a ∧ t.win.stallCause = .none ∧
        (startCheck a ≠ 0 →
          t.win.runState = .stopped ∧ t.win.runBit = false ∧
            t.win.windowValid = s.win.windowValid ∧
            Raised .windowInterface ⟨.anchorBad, .none, bytes.take 16⟩ s t) ∧
        (startCheck a = 0 →
          t.win.runState = .running ∧ t.win.windowValid = true ∧ t.win.startDone = true ∧
            t.win.geometry = a.geometry ∧
            t.win.takeMark = a.takeMark ∧ t.win.publishMark = a.publishMark ∧
            t.win.flight =
              (if a.takeMark = a.publishMark then none
               else some { slot := a.takeMark % a.capacity }) ∧
            (a.takeMark ≠ a.publishMark →
              Outstanding ⟨.entry s.win.session,
                s.win.windowBase.toNat + a.journalOffset + 64 * (a.takeMark % a.capacity), 64,
                false⟩ t) ∧
            t.bus = s.bus ∧
            (s.win.windowValid = true → t.win.versions = s.win.versions) ∧
            (s.win.windowValid = false → ∀ id : MirrorId, RecordPlaced id t ∧
              t.win.versions[id.index] =
                if s.win.writeQ.any (·.target == .mirror id) = true then s.win.versions[id.index]
                else (s.win.versions[id.index] + 1) % 65536))) ∧
      (s.win.starting = false → s.win.runState = .stalled → s.win.startDone = true →
        let consistent := diff32 a.publishMark s.win.takeMark ≤ s.win.geometry.capacity
        t.win.takeMark = s.win.takeMark ∧ t.win.geometry = s.win.geometry ∧
        (a.geometry ≠ s.win.geometry →
          t.win = { s.win with anchorRead := none, anchorCheck := 0 } ∧
            Raised .windowInterface ⟨.anchorBad, .none, bytes.take 16⟩ s t) ∧
        (a.geometry = s.win.geometry → ¬ consistent →
          t.win = { s.win with
              anchorRead := none
              stallCause := if s.win.heldOutcome = none then .mark else .write } ∧
            Raised .windowInterface ⟨.journalMark, .none, noCapture⟩ s t) ∧
        (a.geometry = s.win.geometry → consistent →
          t.win.publishMark = a.publishMark ∧ t.bus = s.bus ∧
          (∀ (f : Flight) (o : EntryOutcome), s.win.stallCause = .write →
            s.win.flight = some f → s.win.heldOutcome = some o → s.win.windowValid = true →
            t.win.runState = .stalled ∧ t.win.stallCause = .write ∧ t.win.flight = some f ∧
              t.win.heldOutcome = some o ∧ t.win.rewriting = true ∧
              ∃ w ∈ t.win.writeQ, w.target = .outcome ∧
                w.parts.head? = some
                  (s.win.windowBase.toNat + s.win.geometry.journalOffset + 64 * f.slot + 4,
                    leBytes 1 o.code.code ++ leBytes 1 0 ++ leBytes 2 o.detail ++
                      leBytes 4 f.stamp)) ∧
          (s.win.stallCause ≠ .write →
            t.win.runState = .running ∧ t.win.stallCause = .none ∧
            (∀ f : Flight, s.win.flight = some f → t.win.flight = some f) ∧
            (s.win.flight = none → s.win.takeMark = a.publishMark → t.win.flight = none) ∧
            (s.win.flight = none → s.win.takeMark ≠ a.publishMark →
              t.win.flight = some { slot := s.win.takeMark % s.win.geometry.capacity } ∧
                Outstanding ⟨.entry s.win.session,
                  s.win.windowBase.toNat + s.win.geometry.journalOffset +
                    64 * (s.win.takeMark % s.win.geometry.capacity), 64, false⟩ t))))

/-- POLL_TIMER_EXPIRY and PUBLISH_MARK_READ_DONE while RUNNING (R163): the expiry restarts the timer, and
reads the publish mark, in a free read slot or behind the reads that wait for one (R146), where no such
read is outstanding, and none where one is; a mark within the capacity becomes P, and the next entry is
read where none is in flight and the marks differ; any other mark stalls the part, cause MARK, with
JOURNAL_MARK raised and T and P as they were, an entry whose read or text read is outstanding abandoned
with the session advanced, and an entry handed left in flight. The model's choice: an inconsistent mark
stalls the part also while a stop waits for the entry in flight (log entry 23), and a read in its retry
wait is outstanding (log entry 76). -/
def Obligations.PublishMarkReadAndTaken : Prop :=
  ∀ s : State, s.win.runState = .running →
    (s.win.pollTimer = some 0 → s.win.markRead = none →
      ∃ t, exec .pollTimerExpiry s = .next t ∧
        t = { s with
          win := { s.win with
            markRead := some {}, pollTimer := some s.win.cfg.window.pollInterval }
          reads := t.reads } ∧
        ReadIssued ⟨.publishMark s.win.session, s.win.windowBase.toNat + 16, 4, false⟩ s t) ∧
    (s.win.pollTimer = some 0 → s.win.markRead.isSome = true →
      exec .pollTimerExpiry s = .next { s with
        win := { s.win with pollTimer := some s.win.cfg.window.pollInterval } }) ∧
    (∀ (slot : ReadSlot) (bytes : List Byte) (addr len : Nat) (g : Bool), bytes.length = 4 →
      s.reads.slots[slot] = some ⟨.publishMark s.win.session, addr, len, g⟩ →
      ∃ t, exec (.publishMarkReadDone slot bytes) s = .next t ∧ t.win.markRead = none ∧
        t.win.takeMark = s.win.takeMark ∧
        (diff32 (leNat bytes) s.win.takeMark ≤ s.win.geometry.capacity →
          t.win.runState = .running ∧ t.win.publishMark = leNat bytes ∧ t.bus = s.bus ∧
            (s.win.flight = none → s.win.stopping = false → s.win.takeMark ≠ leNat bytes →
              t.win.flight = some { slot := s.win.takeMark % s.win.geometry.capacity } ∧
                Outstanding ⟨.entry s.win.session,
                  s.win.windowBase.toNat + s.win.geometry.journalOffset +
                    64 * (s.win.takeMark % s.win.geometry.capacity), 64, false⟩ t) ∧
            (s.win.flight ≠ none ∨ s.win.takeMark = leNat bytes → t.win.flight = s.win.flight)) ∧
        (s.win.geometry.capacity < diff32 (leNat bytes) s.win.takeMark →
          t.win.runState = .stalled ∧ t.win.stallCause = .mark ∧
            t.win.publishMark = s.win.publishMark ∧
            Raised .windowInterface ⟨.journalMark, .none, noCapture⟩ s t ∧
            (s.win.flight.any unread = true →
              t.win.flight = none ∧ t.win.session = (s.win.session + 1) % 256) ∧
            (s.win.flight.any unread = false →
              t.win.flight = s.win.flight ∧ t.win.session = s.win.session)))

/-- ENTRY_READ_DONE and TEXT_READ_DONE (R164, R80): the header checks in their order, each refusal
with its outcome, the text read of a NOTICE_POST, of at most 120 bytes at its text offset, and the
hand-over with the lobby time as stamp. The model's choice: a TEXT NOTICE_POST of text length 0 is
handed over at once, with no text read (log entry 53). -/
def Obligations.EntriesAreCheckedAndHandedOver : Prop :=
  ∀ (slot : ReadSlot) (bytes : List Byte) (s : State) (f : Flight) (addr len : Nat) (g : Bool),
    s.win.flight = some f → s.win.windowValid = true →
    (bytes.length = 64 → f.phase = .reading →
      s.reads.slots[slot] = some ⟨.entry s.win.session, addr, len, g⟩ →
      let f' : Flight := { f with bytes := bytes, failures := 0, wait := none }
      let h : Flight := { f' with phase := .handed, stamp := s.clock.lobby.getD 0 }
      let body := entryBody bytes
      ∃ t, exec (.entryReadDone slot bytes) s = .next t ∧
        (entryKind (byteAt bytes 0).toNat = none →
          EndsWith .badKind 0 h t ∧
            Raised .windowInterface ⟨.journalEntry, .journalSlot f.slot, bytes.take 16⟩ s t) ∧
        (∀ k, entryKind (byteAt bytes 0).toNat = some k →
          t.bus = s.bus ∧
          (byteAt bytes 1 &&& 0xFE#8 ≠ 0#8 → EndsWith .badField 0 h t) ∧
          (byteAt bytes 1 &&& 0xFE#8 = 0#8 →
            (k ≠ .noticePost ∨ fieldAt body 6 1 ≠ 0 → t.win.flight = some h) ∧
            (k = .noticePost → fieldAt body 6 1 = 0 →
              (s.win.geometry.windowLength < fieldAt body 12 4 + min (fieldAt body 10 1) 120 →
                EndsWith .badField 10 h t) ∧
              (fieldAt body 12 4 + min (fieldAt body 10 1) 120 ≤ s.win.geometry.windowLength →
                t.win.flight =
                    some (if fieldAt body 10 1 = 0 then h else { f' with phase := .text }) ∧
                  (fieldAt body 10 1 ≠ 0 →
                    Outstanding ⟨.text s.win.session,
                      s.win.windowBase.toNat + fieldAt body 12 4, min (fieldAt body 10 1) 120,
                      false⟩ t)))))) ∧
    (1 ≤ bytes.length → bytes.length ≤ 120 → f.phase = .text →
      s.reads.slots[slot] = some ⟨.text s.win.session, addr, bytes.length, g⟩ →
      ∃ t, exec (.textReadDone slot bytes) s = .next t ∧ t.bus = s.bus ∧
        t.win.flight =
          some { f with
            text := bytes, failures := 0, wait := none, phase := .handed,
            stamp := s.clock.lobby.getD 0 })

/-- A control read is an anchor read of 256 bytes, a publish mark read of 4, an entry read of 64 or a
text read of at most 120, and carries the session at its issue; a completion whose session differs
from the present session is discarded whole, success or failure, with no retry and no fault (R159). -/
def Obligations.StaleControlReadsAreDiscarded : Prop :=
  (∀ (s : State) (f : Flight),
    Outstanding ⟨.anchor s.win.session, s.win.windowBase.toNat, 256, false⟩ (issueAnchorRead s) ∧
    Outstanding ⟨.publishMark s.win.session, s.win.windowBase.toNat + 16, 4, false⟩
      (issueMarkRead s) ∧
    Outstanding ⟨.entry s.win.session,
      s.win.windowBase.toNat + s.win.geometry.journalOffset + 64 * f.slot, 64, false⟩
      (issueEntryRead f s) ∧
    (∃ len, len ≤ 120 ∧
      Outstanding ⟨.text s.win.session,
        s.win.windowBase.toNat + fieldAt (entryBody f.bytes) 12 4, len, false⟩
        (issueTextRead f s))) ∧
  ∀ (slot : ReadSlot) (bytes : List Byte) (s : State) (session addr : Nat) (g : Bool) (len : Nat),
    session ≠ s.win.session →
    (s.reads.slots[slot] = some ⟨.anchor session, addr, len, g⟩ → bytes.length = 256 →
      exec (.anchorReadDone slot bytes) s = .next (freeRead slot s)) ∧
    (s.reads.slots[slot] = some ⟨.publishMark session, addr, len, g⟩ → bytes.length = 4 →
      exec (.publishMarkReadDone slot bytes) s = .next (freeRead slot s)) ∧
    (s.reads.slots[slot] = some ⟨.entry session, addr, len, g⟩ → bytes.length = 64 →
      exec (.entryReadDone slot bytes) s = .next (freeRead slot s)) ∧
    (s.reads.slots[slot] = some ⟨.text session, addr, bytes.length, g⟩ → 1 ≤ bytes.length →
      bytes.length ≤ 120 →
      exec (.textReadDone slot bytes) s = .next (freeRead slot s)) ∧
    (∀ id : ReadId, id ∈ [.anchor session, .publishMark session, .entry session, .text session] →
      s.reads.slots[slot] = some ⟨id, addr, len, g⟩ →
      exec (.controlReadFailed slot) s = .next (freeRead slot s))

/-- CONTROL_READ_FAILED (R159, R163, R165): below the retry limit the read waits a time drawn from the
LFSR, or, where it draws 0, stands issued again in the same event, in the present session at its
address and length; at the limit it is given up: MEM_READ_CONTROL is raised, the session advances, an
entry not handed is abandoned, and the part is STALLED, cause READ, or STOPPED where a stop waits; a
publish mark read that fails while not RUNNING is dropped. The model's choice: with an outcome held
the cause is WRITE (log entry 39), and a start written while a stop waits is STALLED too (log entry
13). -/
def Obligations.FailedControlReadsRetry : Prop :=
  ∀ (slot : ReadSlot) (s : State) (r : CtlRead) (addr len : Nat) (g : Bool),
    let limit := s.win.cfg.retry.retryLimit
    let base := s.win.windowBase.toNat
    let wait (n : Nat) : Nat := s.stream.lfsr.toNat % 2 ^ min n s.win.cfg.retry.backoffCap
    let drawn (n : Nat) : Option Nat := if wait n = 0 then none else some (wait n)
    let again (n : Nat) (id : ReadId) (at_ size : Nat) (t : State) : Prop :=
      t.bus = s.bus ∧ t.win.session = s.win.session ∧ t.win.runState = s.win.runState ∧
        (wait n = 0 → Outstanding ⟨id, at_, size, false⟩ t)
    let givenUp (source : FaultSource) (t : State) : Prop :=
      t.win.session = (s.win.session + 1) % 256 ∧ t.win.anchorRead = none ∧
        t.win.markRead = none ∧ t.win.flight = s.win.flight.filter (!unread ·) ∧
        t.win.heldOutcome = s.win.heldOutcome ∧
        Raised .windowInterface ⟨.memReadControl, source, noCapture⟩ s t ∧
        (s.win.stopping = true → s.win.starting = false →
          t.win.runState = .stopped ∧ t.win.stallCause = .none) ∧
        (s.win.stopping = false ∨ s.win.starting = true →
          t.win.runState = .stalled ∧ t.win.starting = false ∧
            t.win.stallCause = if s.win.heldOutcome.isSome = true then .write else .read)
    (s.reads.slots[slot] = some ⟨.anchor s.win.session, addr, len, g⟩ →
      s.win.anchorRead = some r →
      ∃ t, exec (.controlReadFailed slot) s = .next t ∧
        (r.failures + 1 < limit →
          t.win.anchorRead = some ⟨r.failures + 1, drawn (r.failures + 1)⟩ ∧
            again (r.failures + 1) (.anchor s.win.session) base 256 t) ∧
        (limit ≤ r.failures + 1 → givenUp .none t)) ∧
    (s.reads.slots[slot] = some ⟨.publishMark s.win.session, addr, len, g⟩ →
      s.win.markRead = some r →
      ∃ t, exec (.controlReadFailed slot) s = .next t ∧
        (s.win.runState ≠ .running →
          t = { freeRead slot s with win := { s.win with markRead := none } }) ∧
        (s.win.runState = .running → r.failures + 1 < limit →
          t.win.markRead = some ⟨r.failures + 1, drawn (r.failures + 1)⟩ ∧
            again (r.failures + 1) (.publishMark s.win.session) (base + 16) 4 t) ∧
        (s.win.runState = .running → limit ≤ r.failures + 1 → givenUp .none t)) ∧
    (∀ f : Flight, s.win.flight = some f → unread f = true →
      s.reads.slots[slot] = some ⟨.entry s.win.session, addr, len, g⟩ ∨
        s.reads.slots[slot] = some ⟨.text s.win.session, addr, len, g⟩ →
      ∃ t, exec (.controlReadFailed slot) s = .next t ∧
        (f.failures + 1 < limit →
          t.win.flight =
              some { f with failures := f.failures + 1, wait := drawn (f.failures + 1) } ∧
            (f.phase = .reading →
              again (f.failures + 1) (.entry s.win.session)
                (base + s.win.geometry.journalOffset + 64 * f.slot) 64 t) ∧
            (f.phase = .text →
              again (f.failures + 1) (.text s.win.session)
                (base + fieldAt (entryBody f.bytes) 12 4)
                (min (fieldAt (entryBody f.bytes) 10 1) 120) t)) ∧
        (limit ≤ f.failures + 1 → givenUp (.journalSlot f.slot) t))

/-- CONTROL_READ_RETRY_EXPIRY (R165): a control read whose wait has run out is issued again at the same
address and length, in the present session, in a free read slot or behind the reads that wait for one
(R146), and its count of failures stays. -/
def Obligations.RetryExpiryIssuesTheReadAgain : Prop :=
  ∀ (s : State) (n : Nat),
    let issued (r : Read) (t : State) : Prop := ReadIssued r s t ∧ t.bus = s.bus
    let base := s.win.windowBase.toNat
    (s.win.anchorRead = some ⟨n, some 0⟩ →
      ∃ t, exec (.controlReadRetryExpiry .anchor) s = .next t ∧
        t.win = { s.win with anchorRead := some ⟨n, none⟩ } ∧
        issued ⟨.anchor s.win.session, base, 256, false⟩ t) ∧
    (s.win.markRead = some ⟨n, some 0⟩ →
      ∃ t, exec (.controlReadRetryExpiry .publishMark) s = .next t ∧
        t.win = { s.win with markRead := some ⟨n, none⟩ } ∧
        issued ⟨.publishMark s.win.session, base + 16, 4, false⟩ t) ∧
    (∀ f : Flight, s.win.flight = some f → f.wait = some 0 →
      (f.phase = .reading →
        ∃ t, exec (.controlReadRetryExpiry .entry) s = .next t ∧
          t.win = { s.win with flight := some { f with wait := none } } ∧
          issued ⟨.entry s.win.session, base + s.win.geometry.journalOffset + 64 * f.slot, 64,
            false⟩ t) ∧
      (f.phase = .text →
        ∃ t, exec (.controlReadRetryExpiry .entry) s = .next t ∧
          t.win = { s.win with flight := some { f with wait := none } } ∧
          issued ⟨.text s.win.session, base + fieldAt (entryBody f.bytes) 12 4,
            min (fieldAt (entryBody f.bytes) 10 1) 120, false⟩ t))

/-! ## The Lobby Window: writes, MARK -/

/-- The write path (R161, R164 to R168). A command that changes a mirrored record places it: whatever the
command, each record whose mirror bytes differ after it stands on the write path with its new bytes, and
its version has risen by one modulo 65536, once, or, where a write of it was still queued, has stayed
(R26, R35, R92, R110, R129, R167). A record handed while window_valid is set places one write at the
mirror offset, its group's offset and its size times its index: its bytes, and its version last, in the
place of a queued write of it where there is one; while window_valid is clear nothing is queued. A change
of run state places the run echo.
WINDOW_WRITE_SENT: the head of the write queue goes to host memory and no other byte of it changes; a
mirror record sent raises the mirror generation, places its word and sets MIRROR; an outcome sent
advances the take mark and places its word, DRAINED is set where T reaches P, and while RUNNING, or
where a recovery has written it again (R165), the part is RUNNING with the next entry read; one of an
entry already handed at a stall leaves the part STALLED and reads nothing; STOP_ON_REFUSAL stops the
part at a refusal. The model's choice: the bytes go to the addresses the write was placed with (log entry
20); a refusal with STOP_ON_REFUSAL stops the part also while STALLED, and not while STOPPED (log entry
64), and leaves a start in progress to go on (log entry 73); an outcome written again makes the part
RUNNING when it is sent also where a second recovery's anchor read is outstanding by then (log entry 65);
an entry kept across a start from STOPPED advances the take mark that start loaded (log entry 70). -/
def Obligations.SentWritesReachHostMemory : Prop :=
  (∀ (c : Instr) (s t : State) (id : MirrorId),
    s.win.windowValid = true → exec c s = .next t → t.win.windowValid = true →
    mirrorBody t id ≠ mirrorBody s id →
    RecordPlaced id t ∧
      t.win.versions[id.index] =
        if s.win.writeQ.any (·.target == .mirror id) = true then s.win.versions[id.index]
        else (s.win.versions[id.index] + 1) % 65536) ∧
  (∀ (s : State) (id : MirrorId),
    (s.win.windowValid = false → handMirror id s = s) ∧
    (s.win.windowValid = true →
      let place : Nat × Nat :=
        match id with
        | .showRec i => (32 * i.val, 32)
        | .hold i => (2048 + 16 * i.val, 16)
        | .feature i => (5120 + 32 * i.val, 32)
        | .display i => (6144 + 32 * i.val, 32)
        | .notice i => (6656 + 160 * i.val, 160)
        | .fault .severe => (22016, 48)
        | .fault .minor => (22064, 48)
      let a := s.win.windowBase.toNat + s.win.geometry.mirrorOffset + place.1
      let v := s.win.versions[id.index]
      let carried := if s.win.writeQ.any (·.target == .mirror id) = true then v else (v + 1) % 65536
      ∃ q, handMirror id s = { s with
          win := { s.win with writeQ := q, versions := put s.win.versions id.index carried } } ∧
        (mirrorBody s id).length + 2 = place.2 ∧
        PlacedIn
          ⟨.mirror id, [(a, mirrorBody s id), (a + place.2 - 2, leBytes 2 carried)], false⟩
          s.win.writeQ q)) ∧
  (∀ (s : State) (r : RunState) (c : StallCause), s.win.runState ≠ r → s.win.windowValid = true →
    let code := match r with | .stopped => 0 | .running => 1 | .stalled => 2
    PlacedIn ⟨.anchor .runEcho, [(s.win.windowBase.toNat + 77, [code])], false⟩ s.win.writeQ
      (setRunState r c s).win.writeQ) ∧
  ∀ (s : State) (w : WindowWrite) (rest : List WindowWrite), s.win.writeQ = w :: rest →
    ∃ t, exec .windowWriteSent s = .next t ∧
      t.hostMem = s.hostMem.writeParts w.parts ∧
      (∀ a : Nat, (∀ p ∈ w.parts, a < p.1 ∨ p.1 + p.2.length ≤ a) →
        t.hostMem.read a = s.hostMem.read a) ∧
      (∀ (p : Nat × List Byte) (k : Nat), w.parts = [p] → k < p.2.length →
        t.hostMem.read (p.1 + k) = p.2[k]?) ∧
      (∀ id, w.target = .mirror id →
        t.win.mirrorGen = (s.win.mirrorGen + 1) % 4294967296 ∧
          t.win.causes = { s.win.causes with mirror := true } ∧ t.win.flight = s.win.flight ∧
          t.win.takeMark = s.win.takeMark ∧
          (s.win.windowValid = false → t.win.writeQ = rest) ∧
          (s.win.windowValid = true →
            PlacedIn
              ⟨.anchor .mirrorGen,
                [(s.win.windowBase.toNat + 80, leBytes 4 t.win.mirrorGen)], false⟩
              rest t.win.writeQ)) ∧
      (∀ x, w.target = .anchor x → t.win = { s.win with writeQ := rest }) ∧
      (∀ f : Flight, w.target = .outcome → s.win.flight = some f →
        let refused := stopOnRefusal f.bytes && f.outcome.any (·.code.isRefusal)
        t.win.takeMark = (s.win.takeMark + 1) % 4294967296 ∧ t.win.heldOutcome = none ∧
          t.win.rewriting = false ∧
          (s.win.windowValid = true → WordPlaced .takeMark 64 (leBytes 4 t.win.takeMark) t) ∧
          t.win.causes = { s.win.causes with
            drained := s.win.causes.drained || decide (t.win.takeMark = s.win.publishMark) } ∧
          (s.win.runState = .stopped → s.win.stopping = false →
            t.win.runState = .stopped ∧ t.win.runBit = s.win.runBit ∧
              t.win.starting = s.win.starting ∧ t.win.flight = none ∧ t.reads = s.reads) ∧
          (refused = true → s.win.runState ≠ .stopped →
            t.win.runState = .stopped ∧ t.win.stallCause = .none ∧ t.win.runBit = false ∧
              t.win.flight = none) ∧
          (refused = false → s.win.runState = .stalled → s.win.rewriting = false →
            s.win.stopping = false →
            t.win.runState = .stalled ∧ t.win.stallCause = s.win.stallCause ∧
              t.win.runBit = s.win.runBit ∧ t.win.flight = none ∧ t.reads = s.reads) ∧
          (refused = false → s.win.runState = .running → s.win.stopping = true →
            t.win.runState = .stopped ∧ t.win.flight = none) ∧
          (refused = false → s.win.stopping = false →
            s.win.runState = .running ∧ s.win.rewriting = false ∨
              s.win.runState = .stalled ∧ s.win.rewriting = true →
            t.win.runState = .running ∧
              (s.win.runState = .stalled → t.win.stallCause = .none) ∧
              t.win.flight =
                (if t.win.takeMark = s.win.publishMark then none
                 else some { slot := t.win.takeMark % s.win.geometry.capacity }) ∧
              (t.win.takeMark ≠ s.win.publishMark →
                Outstanding ⟨.entry s.win.session,
                  s.win.windowBase.toNat + s.win.geometry.journalOffset +
                    64 * (t.win.takeMark % s.win.geometry.capacity), 64, false⟩ t)))

/-- WINDOW_WRITE_FAILED (R166): the first failure of a write only marks it for its second sending; the
second drops it with MEM_WRITE raised, and an outcome write dropped while RUNNING or STALLED leaves the
part STALLED, cause WRITE, with the outcome held. Host memory and the mirror generation stay. -/
def Obligations.FailedWritesRetryOnceAndDrop : Prop :=
  ∀ (s : State) (w : WindowWrite) (rest : List WindowWrite), s.win.writeQ = w :: rest →
    (w.retried = false →
      exec .windowWriteFailed s = .next { s with
        win := { s.win with writeQ := { w with retried := true } :: rest } }) ∧
    (w.retried = true →
      ∃ t, exec .windowWriteFailed s = .next t ∧ t.hostMem = s.hostMem ∧
        t.win.mirrorGen = s.win.mirrorGen ∧ t.win.takeMark = s.win.takeMark ∧
        Raised .windowInterface ⟨.memWrite, .none, noCapture⟩ s t ∧
        (w.target ≠ .outcome → t.win = { s.win with writeQ := rest }) ∧
        (∀ f : Flight, w.target = .outcome → s.win.flight = some f →
          s.win.runState = .running ∨ s.win.runState = .stalled → s.win.stopping = false →
          t.win.runState = .stalled ∧ t.win.stallCause = .write ∧ t.win.flight = some f ∧
            t.win.heldOutcome = f.outcome) ∧
        (∀ f : Flight, w.target = .outcome → s.win.flight = some f → s.win.stopping = true →
          t.win.runState = .stopped ∧ t.win.flight = none))

/-- MARK (R171): taken at the Window Interface with outcome DONE, the detail the low 16 bits of the
mirror generation; nothing else changes. -/
def Obligations.MarkCarriesTheMirrorGeneration : Prop :=
  ∀ (s : State) (f : Flight), HandedTo .mark f s →
    ∃ t, exec .mark s = .next t ∧ EndsWith .done (s.win.mirrorGen % 65536) f t ∧
      t = { s with win := { s.win with flight := t.win.flight, writeQ := t.win.writeQ } }

/-! ## CONFIGURE -/

/-- CONFIGURE (R169, R170): page, ranges and constraints are checked before any setting changes; a taken
entry writes the page's marked fields and hands each owner whose settings changed one settings
event, the outcome waiting for them where there are any. -/
def Obligations.ConfigureChecksBeforeItWrites : Prop :=
  ∀ (s : State) (f : Flight), HandedTo .configure f s →
    let body := entryBody f.bytes
    let page := fieldAt body 0 1
    let present := pageFields s.win.cfg page
    let left := mergeFields (fieldAt body 4 8) 1 present (readPacked (pageWidths page) (body.drop 12))
    let bad := (outOfRange 1 (pageRanges page) left).or (pageConstraint page left)
    ∃ t, exec .configure s = .next t ∧
      (3 < page → EndsWith .badField 0 f t ∧ t.win.cfg = s.win.cfg ∧
        t.win.settingsQ = s.win.settingsQ) ∧
      (∀ n, page ≤ 3 → bad = some n → EndsWith .badField n f t ∧ t.win.cfg = s.win.cfg ∧
        t.win.settingsQ = s.win.settingsQ) ∧
      (page ≤ 3 → bad = none →
        t.win.cfg = withPage s.win.cfg page left ∧
          t.win.settingsQ =
            s.win.settingsQ ++ (changedOwners s.win.cfg t.win.cfg).map fun o => (o, t.win.cfg)) ∧
      (page ≤ 3 → bad = none → changedOwners s.win.cfg t.win.cfg = [] →
        EndsWith .done (countChanged present left) f t) ∧
      (page ≤ 3 → bad = none → changedOwners s.win.cfg t.win.cfg ≠ [] →
        t.win.flight = some { f with
          taken := true, awaiting := changedOwners s.win.cfg t.win.cfg,
          changed := countChanged present left })

/-- SETTINGS_EVENT (R170): the owner takes the settings of its oldest event; the CONFIGURE that waited for
this owner alone ends DONE. At that event the Show Table counts the tally of every non-EMPTY show of a
changed band set again, in index order, each with its own SOLD_OUT request or clear, and changes no other
(R34, R36, R37); the Desk Line Controller sets or clears the paused flag by the intake queue as it stands,
with PAUSE or PAUSE(0) on every port (R66 to R68); the Notice Arbiter compares every display's top with
the takeover class (R108); the Stream Engine loads a changed seed, the default for 0 (R147). The model's
choice: takeover signals go in index order (log entry 46), and where both band sets change the shows of the
two go together in index order (log entry 81). -/
def Obligations.OwnersTakeTheirSettings : Prop :=
  ∀ (o : Owner) (c : Settings) (rest : List (Owner × Settings)) (s : State),
    s.win.settingsQ = (o, c) :: rest →
    ∃ t, exec (.settingsEvent o) s = .next t ∧ t.win.settingsQ = rest ∧ t.win.cfg = s.win.cfg ∧
      t.shows.cfg = (if o = .showTable then c.shows else s.shows.cfg) ∧
      t.arb.cfg = (if o = .noticeArbiter then c.notices else s.arb.cfg) ∧
      t.air.cfg = (if o = .airtimeScheduler then c.airtime else s.air.cfg) ∧
      t.displays.resumeLimit =
        (if o = .displayController then c.resumeLimit else s.displays.resumeLimit) ∧
      t.stream.cfg = (if o = .streamEngine then c.stream else s.stream.cfg) ∧
      t.stream.lfsr =
        (if o = .streamEngine ∧ c.lfsrSeed ≠ s.stream.cfg.lfsrSeed then
          if c.lfsrSeed = 0 then 0xACE1#16 else BitVec.ofNat 16 c.lfsrSeed
         else s.stream.lfsr) ∧
      t.desks.cfg = (if o = .deskLine then c.desks else s.desks.cfg) ∧
      (let again : ShowIx → Bool := fun i =>
        o = .showTable && s.shows.recs[i].state != .empty &&
          s.shows.cfg.bandSets[s.shows.recs[i].bandSet] != c.shows.bandSets[s.shows.recs[i].bandSet]
      (∀ i : ShowIx, t.shows.recs[i] =
        if again i = true then recounted c.shows s.shows.recs[i] s.shows.recs[i]
        else s.shows.recs[i]) ∧
      t.bus.toArbiter = s.bus.toArbiter ++ (List.finRange 64).flatMap fun i =>
        if again i = true then soldOutMsgs c.shows i s.shows.recs[i] s.shows.recs[i] else []) ∧
      (let ends : Bool := o = .deskLine && s.desks.paused &&
        (c.desks.pauseOn == 0 || s.desks.intake.length ≤ c.desks.pauseOff)
      let begins : Bool := o = .deskLine && !s.desks.paused &&
        (c.desks.pauseOn != 0 && c.desks.pauseOn ≤ s.desks.intake.length)
      t.desks.paused = (if ends = true then false else if begins = true then true else s.desks.paused) ∧
      t.desks.pauseTimer =
        (if ends = true then none
         else if begins = true then some (10 * max 1 (c.desks.pauseTime / 2))
         else s.desks.pauseTimer) ∧
      (∀ d : DeskIx, t.desks.ports[d] =
        if ends = true then pausePlaced 0 s.desks.ports[d]
        else if begins = true then pausePlaced c.desks.pauseTime s.desks.ports[d]
        else s.desks.ports[d])) ∧
      (o ≠ .noticeArbiter → t.arb = s.arb ∧ t.bus.signals = s.bus.signals) ∧
      (o = .noticeArbiter →
        t.arb.slots = s.arb.slots ∧
          (∀ d : DisplayIx, t.arb.recs[d] =
            { s.arb.recs[d] with takeover := overtaken c.notices.takeoverClass s d }) ∧
          t.bus.signals = s.bus.signals ++ (List.finRange 16).flatMap fun d =>
            takeoverMsgs s.arb.recs[d].takeover (overtaken c.notices.takeoverClass s d) d) ∧
      t.faults.cfg = (if o = .faultUnit then c.causes else s.faults.cfg) ∧
      (∀ f : Flight, s.win.flight = some f → f.awaiting = [o] → s.win.windowValid = true →
        (∀ x ∈ rest, x.1 ≠ o) → EndsWith .done f.changed f t)

/-! ## The Lobby Clock -/

/-- TICK (R2, R4, R97, R136, R154): part seconds rise, lobby seconds rise where set, both staying at
4294967295; the anchor's words lobby now, part now and clock-set flag are placed with the new values, and
no other write changes; what is due at or before the new lobby time leaves the due list as one catch-up; a
board or house dwell not suspended falls by one second. Expiries fall due, by the part seconds as they now
stand: of a dwell with one second left, of the cover timer of an ON display with a notice on air and one
pending, min_cover seconds after cover_start, and of an underrun episode, underrun_limit seconds after its
start. The model's choice: each is a mark, coverDue, dwellDue or underrunDue, that the expiry's own command
takes, and a dwell at its end stands at 1 (log entry 17). -/
def Obligations.TickRaisesTheCounts : Prop :=
  ∀ s : State, ∃ t, exec .tick s = .next t ∧
    t.clock.partSeconds =
      (if s.clock.partSeconds < 4294967295 then s.clock.partSeconds + 1 else s.clock.partSeconds) ∧
    t.clock.lobby =
      s.clock.lobby.map (fun n => if n < 4294967295 then n + 1 else n) ∧
    (s.clock.lobby = none → t.clock.dueList = s.clock.dueList ∧ t.bus = s.bus) ∧
    (∀ now, t.clock.lobby = some now →
      t.clock.dueList = s.clock.dueList.dropWhile (·.due ≤ now) ∧
      t.bus =
        if s.clock.dueList.takeWhile (·.due ≤ now) = [] then s.bus
        else { s.bus with
          fromClock :=
            s.bus.fromClock ++ [.catchUp now (s.clock.dueList.takeWhile (·.due ≤ now))] }) ∧
    (∀ d : DisplayIx, 1 < s.displays.recs[d].dwellLeft → s.displays.recs[d].suspended = false →
      s.displays.recs[d].segment = .board ∨ s.displays.recs[d].segment = .house →
      s.displays.recs[d].dwellDue = false →
      t.displays.recs[d] =
        { s.displays.recs[d] with dwellLeft := s.displays.recs[d].dwellLeft - 1 }) ∧
    (∀ d : DisplayIx, s.displays.recs[d].dwellLeft = 1 → s.displays.recs[d].suspended = false →
      s.displays.recs[d].segment = .board ∨ s.displays.recs[d].segment = .house →
      t.displays.recs[d] = { s.displays.recs[d] with dwellDue := true }) ∧
    (∀ d : DisplayIx,
      s.displays.recs[d].suspended = true ∨
        s.displays.recs[d].segment ≠ .board ∧ s.displays.recs[d].segment ≠ .house →
      t.displays.recs[d] = s.displays.recs[d]) ∧
    (∀ d : DisplayIx,
      let a := s.arb.recs[d]
      t.arb.recs[d] =
        if a.noticeState = .on ∧ a.stack ≠ [] ∧ a.pending ≠ [] ∧
            a.coverStart.any (fun c => c + s.arb.cfg.minCover ≤ t.clock.partSeconds) = true then
          { a with coverDue := true }
        else a) ∧
    (∀ d : DisplayIx,
      let r := s.stream.recs[d]
      t.stream.recs[d] =
        if r.inUnderrun = true ∧
            r.underrunStart.any
              (fun u => u + s.stream.cfg.underrunLimit ≤ t.clock.partSeconds) = true then
          { r with underrunDue := true }
        else r) ∧
    (s.win.windowValid = false → t.win = s.win) ∧
    (s.win.windowValid = true →
      WordPlaced .lobbyNow 68 (leBytes 4 (t.clock.lobby.getD 0)) t ∧
        WordPlaced .partNow 72 (leBytes 4 t.clock.partSeconds) t ∧
        WordPlaced .clockSet 76 [if t.clock.lobby.isSome = true then 1 else 0] t ∧
        let other (x : WindowWrite) : Bool :=
          x.target != .anchor .lobbyNow && x.target != .anchor .partNow &&
            x.target != .anchor .clockSet
        t.win = { s.win with writeQ := t.win.writeQ } ∧
          t.win.writeQ.filter other = s.win.writeQ.filter other)

/-- SCHEDULE_REQUEST and WITHDRAW_REQUEST (R3): the show's entry is the one scheduled, or none; where its
due time is at or before lobby seconds it goes to the Show Table at once; every other show's entry
stays. The model's choice: an older entry of the show leaves the list there too (log entry 66). -/
def Obligations.RequestsKeepOneEntryAShow : Prop :=
  ∀ (s : State) (rest : List ClockRequest),
    let others (i : ShowIx) (t : State) : Prop :=
      t.bus.toClock = rest ∧
        t.clock.dueList.filter (·.showIx != i) = s.clock.dueList.filter (·.showIx != i) ∧
        t.clock.lobby = s.clock.lobby ∧ t.clock.partSeconds = s.clock.partSeconds
    (∀ e : DueEntry, s.bus.toClock = .schedule e :: rest →
      ∃ t, exec .scheduleRequest s = .next t ∧ others e.showIx t ∧
        (s.clock.lobby.all (· < e.due) = true →
          t.clock.dueList.filter (·.showIx == e.showIx) = [e] ∧
            t.bus.fromClock = s.bus.fromClock) ∧
        (∀ now, s.clock.lobby = some now → e.due ≤ now →
          t.clock.dueList.filter (·.showIx == e.showIx) = [] ∧
            t.bus.fromClock = s.bus.fromClock ++ [.catchUp now [e]])) ∧
    (∀ i : ShowIx, s.bus.toClock = .withdraw i :: rest →
      ∃ t, exec .withdrawRequest s = .next t ∧ others i t ∧
        t.clock.dueList.filter (·.showIx == i) = [] ∧ t.bus.fromClock = s.bus.fromClock)

/-- CATCH_UP (R6, R7, R17, R18). Of one transition: one that is no longer the show's next is
discarded; a current one moves the state, or saved_state while HALTED, and schedules what follows;
one out of RUNNING closes the show. The Notice Arbiter is asked for the DOORS_OPEN card where the
show passes into SEATING with AUTO_DOORS set, not HALTED and with some of its seating lead left, for
that time, bound to the show; a show that ends CLOSED goes through its closing sequence behind that
request: its holds freed, the closure report, the clear of a SOLD_OUT notice asked for, and
soldout_asked clear; nothing else is asked. Of many: every show named by a current transition passes
all it has due, any other stays, and each show changed is reported once, with every field that
changed across its transitions. -/
def Obligations.CatchUpMovesCurrentShows : Prop :=
  ∀ (s : State) (time : Nat) (rest : List ClockMsg),
    (∀ entries : List DueEntry, s.bus.fromClock = .catchUp time entries :: rest →
      (entries.map (·.showIx)).Nodup → (∀ e ∈ entries, e.due ≤ time) →
      ∃ t, exec .catchUp s = .next t ∧ t.bus.fromClock = rest ∧ CaughtUp time entries s t ∧
        ∀ i : ShowIx,
          let fields := passedFields s.shows.recs[i] t.shows.recs[i]
          t.bus.showReports.filter (·.showIx == i) =
            s.bus.showReports.filter (·.showIx == i) ++
              if fields = [] then [] else [⟨i, fields, false⟩]) ∧
    ∀ e : DueEntry, s.bus.fromClock = .catchUp time [e] :: rest →
    let sh := s.shows.recs[e.showIx]
    let passed := statesPassed sh time 4 e.fromState
    let left := sh.seatingLead - (time - seatingTime sh)
    let doors : List ShowMsg :=
      if .seating ∈ passed ∧ sh.flags.autoDoors = true ∧ sh.state ≠ .halted ∧ 0 < left then
        [.auto (cardPost s.shows.cfg .doorsOpen e.showIx sh left)]
      else []
    ∃ t, exec .catchUp s = .next t ∧ t.bus.fromClock = rest ∧ OtherShowsStay e.showIx s t ∧
      (isCurrent sh e = false → t = { s with bus := { s.bus with fromClock := rest } }) ∧
      (∀ st due, (e.fromState, st) ∈
          [(ShowState.waiting, ShowState.selling), (.selling, .seating), (.seating, .running)] →
        isCurrent sh e = true → dueTime sh st = some due → time < due →
        t.bus.toClock = s.bus.toClock ++ [.schedule ⟨e.showIx, st, due⟩] ∧
          t.shows.recs[e.showIx] =
            if sh.state = .halted then { sh with savedState := some st }
            else { sh with state := st }) ∧
      (isCurrent sh e = true → e.fromState = .running →
        t.shows.recs[e.showIx].state = .closed ∧ t.shows.recs[e.showIx].savedState = none ∧
          ShowMsg.closure e.showIx .showClosed ∈ t.bus.toArbiter ∧
          t.bus.toClock = s.bus.toClock) ∧
      (isCurrent sh e = true → e.due ≤ time → .closed ∉ passed →
        t.bus.toArbiter = s.bus.toArbiter ++ doors ∧ t.shows.holds = s.shows.holds) ∧
      (isCurrent sh e = true → e.due ≤ time → .closed ∈ passed →
        ClosedAs { sh with state := .closed, savedState := none } .showClosed e.showIx doors [] s t)

/-- CLOCK_SET (R5, R10): at the Lobby Clock, lobby seconds take the value, and a forward set takes what it
brings due off the due list. At the Show Table, a set from UNSET places every show with CLOCK_WAIT by its
times; a backward one moves no show and hands no entry; a forward one takes what it brings due as one
catch-up and counts its transitions; the outcome carries the count, and the words lobby now and clock-set
flag are placed. The model's choice: with no catch-up waiting both halves are one command, and where one
waits the Show Table half waits behind it and is taken, with the outcome, by the CATCH_UP that finds it at
the head (log entry 7). -/
def Obligations.ClockSetPlacesWaitingShows : Prop :=
  (∀ (s : State) (f : Flight), HandedTo .clockSet f s → s.bus.fromClock ≠ [] →
    let value := fieldAt (entryBody f.bytes) 0 4
    let forward : Bool := s.clock.lobby.any (· ≤ value)
    exec .clockSet s = .next { s with
      win := { s.win with flight := some { f with taken := true } }
      clock := { s.clock with
        lobby := some value
        dueList :=
          if forward = true then s.clock.dueList.dropWhile (·.due ≤ value) else s.clock.dueList }
      bus := { s.bus with
        fromClock := s.bus.fromClock ++
          [.setHalf value s.clock.lobby.isNone
            (if forward = true then s.clock.dueList.takeWhile (·.due ≤ value) else [])] } }) ∧
  (∀ (s : State) (f : Flight) (value : Nat) (first : Bool) (due : List DueEntry)
    (rest : List ClockMsg), s.bus.fromClock = .setHalf value first due :: rest →
    s.win.flight = some f → s.win.windowValid = true →
    ∃ t, exec .catchUp s = .next t ∧ t.bus.fromClock = rest ∧ t.clock = s.clock ∧
      WordPlaced .lobbyNow 68 (leBytes 4 (s.clock.lobby.getD 0)) t ∧
      WordPlaced .clockSet 76 [if s.clock.lobby.isSome = true then 1 else 0] t ∧
      (first = true →
        EndsWith .done (min (((List.finRange 64).filter fun i => s.shows.recs[i].clockWait).length)
          65535) f t ∧
        ∀ i : ShowIx,
          (s.shows.recs[i].clockWait = false → t.shows.recs[i] = s.shows.recs[i]) ∧
          (s.shows.recs[i].clockWait = true →
            t.shows.recs[i].clockWait = false ∧
              t.shows.recs[i].state = placedState s.shows.recs[i] value)) ∧
      (first = false → due = [] → t.shows = s.shows ∧ EndsWith .done 0 f t) ∧
      (first = false → (due.map (·.showIx)).Nodup → (∀ e ∈ due, e.due ≤ value) →
        CaughtUp value due s t ∧ EndsWith .done (min (transitionsOf value due s) 65535) f t)) ∧
  ∀ (s : State) (f : Flight), HandedTo .clockSet f s → s.bus.fromClock = [] →
    let value := fieldAt (entryBody f.bytes) 0 4
    ∃ t, exec .clockSet s = .next t ∧ t.clock.lobby = some value ∧
      t.clock.partSeconds = s.clock.partSeconds ∧
      WordPlaced .lobbyNow 68 (leBytes 4 value) t ∧ WordPlaced .clockSet 76 [1] t ∧
      (s.clock.lobby = none → t.clock.dueList = s.clock.dueList ∧
        EndsWith .done (min (((List.finRange 64).filter fun i => s.shows.recs[i].clockWait).length)
          65535) f t ∧
        ∀ i : ShowIx,
          (s.shows.recs[i].clockWait = false → t.shows.recs[i] = s.shows.recs[i]) ∧
          (s.shows.recs[i].clockWait = true →
            t.shows.recs[i].clockWait = false ∧
              t.shows.recs[i].state = placedState s.shows.recs[i] value)) ∧
      (∀ old, s.clock.lobby = some old → value < old →
        t.shows = s.shows ∧ t.clock.dueList = s.clock.dueList ∧ EndsWith .done 0 f t) ∧
      (∀ old, s.clock.lobby = some old → old ≤ value → (s.clock.dueList.map (·.showIx)).Nodup →
        let due := s.clock.dueList.takeWhile (·.due ≤ value)
        t.clock.dueList = s.clock.dueList.dropWhile (·.due ≤ value) ∧ CaughtUp value due s t ∧
          EndsWith .done (min (transitionsOf value due s) 65535) f t)

/-! ## Shows -/

/-- SHOW_LOAD (R8, R9): the checks in their order, and a load that passes them fills the slot with the
entry's fields, its state by the clock, its tally counted from nothing sold, and reports all its
fields. The model's choice: the band of a house of at most last_on seats is the one R25 gives (log
entry 34). -/
def Obligations.ShowLoadFillsAnEmptySlot : Prop :=
  ∀ (s : State) (f : Flight), HandedTo .showLoad f s →
    let b := readShowBody (entryBody f.bytes)
    let new := amended (fun _ => true) b {}
    let checks := firstBad (showFieldChecks b b.saleOpenField b.start)
    ∃ t, exec .showLoad s = .next t ∧
      (64 ≤ b.index → (∃ d, EndsWith .badIndex d f t) ∧ t.shows = s.shows) ∧
      ∀ i : ShowIx, b.index = i.val →
        (s.shows.recs[i].state ≠ .empty → (∃ d, EndsWith .inUse d f t) ∧ t.shows = s.shows) ∧
        (∀ n, s.shows.recs[i].state = .empty → checks = some n →
          EndsWith .badField n f t ∧ t.shows = s.shows) ∧
        (∀ now, s.shows.recs[i].state = .empty → checks = none → s.clock.lobby = some now →
          closeTime new ≤ now → (∃ d, EndsWith .past d f t) ∧ t.shows = s.shows) ∧
        (s.shows.recs[i].state = .empty → checks = none →
          s.clock.lobby.all (· < closeTime new) = true →
          let st : ShowState := match s.clock.lobby with
            | some now => placedState new now
            | none => .waiting
          t.shows.recs[i] =
              tally s.shows.cfg.bandSets[new.bandSet] .openHouse
                { new with state := st, clockWait := s.clock.lobby.isNone } ∧
            EndsWith .done st.code f t ∧ OtherShowsStay i s t ∧ t.shows.holds = s.shows.holds ∧
            t.bus.showReports = s.bus.showReports ++ [⟨i, allReportFields, false⟩] ∧
            t.bus.toClock = s.bus.toClock ++
              (if s.clock.lobby.isNone then []
               else ((dueTime new st).map fun due => ClockRequest.schedule ⟨i, st, due⟩).toList))

/-- SHOW_HALT and SHOW_RESUME (R11, R12): a show on sale or running halts with its state saved, a halted
one resumes the saved state; any other state, and an index of 64 or more, is refused and no show changes.
The model's choice: the detail of a refusal is free where the manual states none (log entry 2). -/
def Obligations.HaltSavesTheStateResumeRestoresIt : Prop :=
  (∀ (s : State) (f : Flight),
    ∀ c ∈ [(EntryKind.showHalt, Instr.showHalt), (.showResume, .showResume)],
      HandedTo c.1 f s → 64 ≤ fieldAt (entryBody f.bytes) 0 1 →
      ∃ t, exec c.2 s = .next t ∧ t.shows = s.shows ∧ t.bus = s.bus ∧
        ∃ n, EndsWith .badIndex n f t) ∧
  ∀ (s : State) (f : Flight) (i : ShowIx), fieldAt (entryBody f.bytes) 0 1 = i.val →
    let sh := s.shows.recs[i]
    let runs : Prop := sh.state = .selling ∨ sh.state = .seating ∨ sh.state = .running
    (HandedTo .showHalt f s →
      ∃ t, exec .showHalt s = .next t ∧ OtherShowsStay i s t ∧ t.shows.holds = s.shows.holds ∧
        (runs → t.shows.recs[i] = { sh with state := .halted, savedState := some sh.state } ∧
          EndsWith .done 5 f t) ∧
        (¬ runs → t.shows = s.shows) ∧
        (sh.state = .empty → ∃ d, EndsWith .noRecord d f t) ∧
        (¬ runs → sh.state ≠ .empty → EndsWith .wrongState sh.state.code f t)) ∧
    (HandedTo .showResume f s →
      ∃ t, exec .showResume s = .next t ∧ OtherShowsStay i s t ∧ t.shows.holds = s.shows.holds ∧
        (∀ st, sh.state = .halted → sh.savedState = some st →
          t.shows.recs[i] = { sh with state := st, savedState := none } ∧
            EndsWith .done st.code f t) ∧
        (sh.state ≠ .halted → t.shows = s.shows) ∧
        (sh.state = .empty → ∃ d, EndsWith .noRecord d f t) ∧
        (sh.state ≠ .halted → sh.state ≠ .empty → ∃ d, EndsWith .wrongState d f t))

/-- SHOW_CANCEL and SHOW_DROP (R13, R14, R17, R18, R37, R54): a live show becomes CANCELLED, a
dropped slot EMPTY; in both, every hold of the show leaves the Hold List and its slot is free with
the next generation, every other hold stays, and the closure report, the clear of a SOLD_OUT notice
asked for, and the withdraw request are sent. A cancelled show's tally is counted once without its
holds and soldout_asked is clear; the CANCELLED card of 1800 s is asked for where AUTO_CANCEL is
set, behind the closing sequence, and nothing else is. A drop's show-changed report carries EMPTY and names
state, every other field the emptying changed, and, of a live show, every tally field that the freeing of
its holds changed, though the emptying set it back. A show that is not live asks nothing, and an index of 64 or more is refused BAD_INDEX. The
model's choice: the drop of a CLOSED or CANCELLED show sends no closure report, by R14 and against a
worked sequence beside R89 (log entry 78), and the detail of a refusal is free where the manual states
none (log entry 2). -/
def Obligations.CancelAndDropCloseTheShow : Prop :=
  (∀ (s : State) (f : Flight),
    ∀ c ∈ [(EntryKind.showCancel, Instr.showCancel), (.showDrop, .showDrop)],
      HandedTo c.1 f s → 64 ≤ fieldAt (entryBody f.bytes) 0 1 →
      ∃ t, exec c.2 s = .next t ∧ t.shows = s.shows ∧ t.bus = s.bus ∧
        ∃ n, EndsWith .badIndex n f t) ∧
  ∀ (s : State) (f : Flight) (i : ShowIx), fieldAt (entryBody f.bytes) 0 1 = i.val →
    let sh := s.shows.recs[i]
    (HandedTo .showCancel f s →
      ∃ t, exec .showCancel s = .next t ∧ OtherShowsStay i s t ∧
        (sh.state.isLive = true →
          ClosedAs { sh with state := .cancelled, savedState := none, clockWait := false } .showClosed i
              []
              (if sh.flags.autoCancel = true then
                [.auto (cardPost s.shows.cfg .cancelled i sh 1800)]
               else []) s t ∧
            t.bus.toClock = s.bus.toClock ++ [.withdraw i] ∧ EndsWith .done 7 f t) ∧
        (sh.state.isLive = false → t.shows = s.shows ∧ t.bus = s.bus) ∧
        (sh.state = .empty → ∃ d, EndsWith .noRecord d f t) ∧
        (sh.state = .closed ∨ sh.state = .cancelled → ∃ d, EndsWith .wrongState d f t)) ∧
    (HandedTo .showDrop f s →
      ∃ t, exec .showDrop s = .next t ∧ OtherShowsStay i s t ∧ t.shows.recs[i] = {} ∧
        EndsWith .done 0 f t ∧
        (sh.state ≠ .empty →
          let freed : ShowRec :=
            if sh.state.isLive = true then
              tally s.shows.cfg.bandSets[sh.bandSet] sh.band
                { sh with held := sh.held - seatsHeldFor s i }
            else sh
          let fields := allReportFields.filter fun x => fieldDiffers sh {} x || fieldDiffers sh freed x
          ReportField.state ∈ fields ∧
            t.bus.showReports = s.bus.showReports ++ [⟨i, fields, true⟩]) ∧
        (sh.state.isLive = true → HoldsLetGo i s t ∧
          t.bus.toArbiter = s.bus.toArbiter ++ closingMsgs .showDropped i sh ∧
          t.bus.toClock = s.bus.toClock ++ [.withdraw i]) ∧
        (sh.state.isLive = false → t.shows.holds = s.shows.holds ∧
          t.shows.holdList = s.shows.holdList ∧ t.bus.toClock = s.bus.toClock ∧
          t.bus.toArbiter = s.bus.toArbiter))

/-- SHOW_AMEND (R15, R16, R18, R33, R36, R37): the checks in their order. An amend that passes them
leaves the record with the marked fields written and no other. Where capacity or band set is marked
the tally is counted again, with soldout_asked set or cleared and the SOLD_OUT request or clear
sent. Where a schedule time (5 to 8) is marked and the clock is set, the show is placed by its new
times: its state, or saved_state while HALTED, CLOCK_WAIT clear, and the next transition scheduled;
one past its close time goes through the closing sequence to CLOSED, with a withdraw request. While
the clock is UNSET, and where no time is marked, the state stays and no request goes to the Lobby
Clock. A later start with AUTO_DELAY asks for the DELAYED card of 600 s. Nothing else is asked. An
index of 64 or more is refused BAD_INDEX. The model's choice: a time marked with the value it has places the
show too (log entry 31), and the detail of a refusal is free where the manual states none (log entry
2). -/
def Obligations.AmendWritesTheMarkedFields : Prop :=
  (∀ (s : State) (f : Flight), HandedTo .showAmend f s →
    64 ≤ (readShowBody (entryBody f.bytes)).index →
    ∃ t, exec .showAmend s = .next t ∧ t.shows = s.shows ∧ t.bus = s.bus ∧
      ∃ n, EndsWith .badIndex n f t) ∧
  ∀ (s : State) (f : Flight) (i : ShowIx), HandedTo .showAmend f s →
    let b := readShowBody (entryBody f.bytes)
    let m := marked b.mask
    let sh := s.shows.recs[i]
    let new := amended m b sh
    let times := m 5 || m 6 || m 7 || m 8
    let ends (now : ShowRec) : ShowRec :=
      if (m 9 || m 10) = true then recounted s.shows.cfg sh now else now
    let asks (now : ShowRec) : List ShowMsg :=
      if (m 9 || m 10) = true then soldOutMsgs s.shows.cfg i sh now else []
    let delayed : List ShowMsg :=
      if m 5 = true ∧ sh.start < new.start ∧ new.flags.autoDelay = true then
        [.auto (cardPost s.shows.cfg .delayed i new 600)]
      else []
    b.index = i.val →
    ∃ t, exec .showAmend s = .next t ∧ OtherShowsStay i s t ∧
      (sh.state = .empty → t.shows = s.shows ∧ ∃ d, EndsWith .noRecord d f t) ∧
      (sh.state = .closed ∨ sh.state = .cancelled →
        t.shows = s.shows ∧ ∃ d, EndsWith .wrongState d f t) ∧
      (∀ n, sh.state.isLive = true → firstBad (amendFieldChecks m b new) = some n →
        t.shows = s.shows ∧ EndsWith .badField n f t) ∧
      (∀ now, sh.state.isLive = true → firstBad (amendFieldChecks m b new) = none →
        s.clock.lobby = some now → m 5 || m 8 → closeTime new ≤ now →
        t.shows = s.shows ∧ ∃ d, EndsWith .past d f t) ∧
      (sh.state.isLive = true → firstBad (amendFieldChecks m b new) = none →
        times = false ∨ s.clock.lobby = none →
        t.shows.recs[i] = ends new ∧ t.shows.holds = s.shows.holds ∧
          t.bus.toClock = s.bus.toClock ∧
          t.bus.toArbiter = s.bus.toArbiter ++ delayed ++ asks new ∧
          EndsWith .done sh.state.code f t) ∧
      (∀ now, sh.state.isLive = true → firstBad (amendFieldChecks m b new) = none →
        s.clock.lobby = some now → times = true →
        ((m 5 || m 8) = true → now < closeTime new) →
        let st := amendedState new now
        let placed : ShowRec :=
          if sh.state = .halted then { new with clockWait := false, savedState := some st }
          else { new with clockWait := false, state := st }
        (st ≠ .closed →
          t.shows.recs[i] = ends placed ∧ t.shows.holds = s.shows.holds ∧
            t.bus.toClock = s.bus.toClock ++
              ((dueTime new st).map fun due => ClockRequest.schedule ⟨i, st, due⟩).toList ∧
            t.bus.toArbiter = s.bus.toArbiter ++ delayed ++ asks placed ∧
            EndsWith .done placed.state.code f t) ∧
        (st = .closed →
          ClosedAs { new with state := .closed, savedState := none, clockWait := false } .showClosed i
              [] delayed s t ∧
            t.bus.toClock = s.bus.toClock ++ [.withdraw i] ∧ EndsWith .done 6 f t))

/-! ## The tally -/

/-- fill is floor(1000 × (capacity − avail) / capacity) after every tally recomputation (R23): it uses
avail, an oversold show has fill 1000, and fill lies in 0..1000. -/
def Obligations.FillCountsTheHouseAsGone : Prop :=
  ∀ (bs : BandSet) (prev : Band) (sh : ShowRec), 1 ≤ sh.capacity →
    let t := tally bs prev sh
    t.fill = 1000 * (sh.capacity - t.avail) / sh.capacity ∧ t.fill ≤ 1000 ∧
      (t.oversold = true → t.fill = 1000) ∧
      t.fill = 1000 * min sh.capacity (sh.sold + sh.held + sh.blocked) / sh.capacity

/-- A taken REFUND lowers sold by its seats, to 0 and CLAMPED where more than are sold, in every
state but EMPTY; the tally is recomputed and no hold changes; the three refusals change nothing
(R31). The recount asks for the SOLD_OUT notice, or its clear, and sets or clears soldout_asked as
the band enters or leaves FULL (R36, R37). -/
def Obligations.RefundReturnsSeats : Prop :=
  ∀ (s : State) (f : Flight), HandedTo .refund f s →
    let index := fieldAt (entryBody f.bytes) 0 1
    let seats := fieldAt (entryBody f.bytes) 2 2
    ∃ t, exec .refund s = .next t ∧ t.shows.holds = s.shows.holds ∧
      t.shows.holdList = s.shows.holdList ∧
      (64 ≤ index → t.shows = s.shows ∧ EndsWith .badIndex 0 f t) ∧
      ∀ i : ShowIx, index = i.val →
        let sh := s.shows.recs[i]
        OtherShowsStay i s t ∧
        (sh.state = .empty → t.shows = s.shows ∧ EndsWith .noRecord 0 f t) ∧
        (sh.state ≠ .empty → seats = 0 → t.shows = s.shows ∧ EndsWith .badField 1 f t) ∧
        (sh.state ≠ .empty → seats ≠ 0 →
          let now : ShowRec := { sh with sold := if sh.sold < seats then 0 else sh.sold - seats }
          t.shows.recs[i] = recounted s.shows.cfg sh now ∧
          t.bus.toArbiter = s.bus.toArbiter ++ soldOutMsgs s.shows.cfg i sh now ∧
          EndsWith (if sh.sold < seats then .clamped else .done) t.shows.recs[i].avail f t)

/-- SALE and BLOCK (R29, R30, R32, R36, R37, R50): sold rises to at most 65535 and blocked moves
within 0..2000, both CLAMPED where cut short; a SALE that carries a live hold of its show frees it,
one of another show leaves it (HOLD_MISMATCH), and a reference not live is HOLD_GONE; a delta of 0
changes nothing. The record is the old one with those counts and its tally counted once: where the
band of a live show with AUTO_SOLDOUT enters FULL the SOLD_OUT card is asked for and soldout_asked
set, where it leaves FULL with soldout_asked set the clear is asked for and the flag cleared, and
otherwise nothing is asked. Each is refused, and changes and asks nothing, for an index of 64 or more
(BAD_INDEX), an EMPTY slot (NO_RECORD) and a CANCELLED show (WRONG_STATE), in that order, and a SALE then
for 0 seats (BAD_FIELD 1) and a bad present byte (BAD_FIELD 2). The model's choice: the detail of the first
two is 0, that of WRONG_STATE the show's avail (log entry 29). -/
def Obligations.SaleAndBlockCountSeats : Prop :=
  (∀ (s : State) (f : Flight),
    ∀ c ∈ [(EntryKind.sale, Instr.sale), (.block, .block)], HandedTo c.1 f s →
      let index := fieldAt (entryBody f.bytes) 0 1
      let refused (code : OutcomeCode) (detail : Nat) : Prop :=
        ∃ t, exec c.2 s = .next t ∧ t.shows = s.shows ∧ t.bus = s.bus ∧ EndsWith code detail f t
      (64 ≤ index → refused .badIndex 0) ∧
      ∀ i : ShowIx, index = i.val →
        let sh := s.shows.recs[i]
        (sh.state = .empty → refused .noRecord 0) ∧
        (sh.state = .cancelled → refused .wrongState sh.avail) ∧
        (c.1 = .sale → sh.state ≠ .empty → sh.state ≠ .cancelled →
          (readSaleBody (entryBody f.bytes)).seats = 0 → refused .badField 1)) ∧
  ∀ (s : State) (f : Flight) (i : ShowIx), fieldAt (entryBody f.bytes) 0 1 = i.val →
    let sh := s.shows.recs[i]
    let counted (held sold blocked : Nat) (t : State) : Prop :=
      let now : ShowRec := { sh with held := held, sold := sold, blocked := blocked }
      t.shows.recs[i] = recounted s.shows.cfg sh now ∧
        t.bus.toArbiter = s.bus.toArbiter ++ soldOutMsgs s.shows.cfg i sh now
    (HandedTo .sale f s →
      let b := readSaleBody (entryBody f.bytes)
      let sold := min (sh.sold + b.seats) 65535
      let code : OutcomeCode := if 65535 < sh.sold + b.seats then .clamped else .done
      sh.state ≠ .empty → sh.state ≠ .cancelled → b.seats ≠ 0 →
      ∃ t, exec .sale s = .next t ∧ OtherShowsStay i s t ∧
        (1 < b.present → t.shows = s.shows ∧ EndsWith .badField 2 f t) ∧
        (b.present = 0 → counted sh.held sold sh.blocked t ∧ t.shows.holds = s.shows.holds ∧
          EndsWith code t.shows.recs[i].avail f t) ∧
        (b.present = 1 → liveHold s b.ref = none →
          counted sh.held sold sh.blocked t ∧ t.shows.holds = s.shows.holds ∧
            EndsWith .holdGone t.shows.recs[i].avail f t) ∧
        (∀ k h, b.present = 1 → liveHold s b.ref = some (k, h) → h.showIx ≠ i →
          counted sh.held sold sh.blocked t ∧ t.shows.holds = s.shows.holds ∧
            EndsWith .holdMismatch t.shows.recs[i].avail f t) ∧
        (∀ k h, b.present = 1 → liveHold s b.ref = some (k, h) → h.showIx = i →
          counted (sh.held - h.seats) sold sh.blocked t ∧ OtherHoldsStay k s t ∧
            t.shows.holds[k] = ⟨(s.shows.holds[k].gen + 1) % 256, none⟩ ∧
            t.shows.holdList = s.shows.holdList.filter (· != k) ∧
            EndsWith code t.shows.recs[i].avail f t)) ∧
    (HandedTo .block f s →
      let delta := signedNat 2 (fieldAt (entryBody f.bytes) 2 2)
      let after := (sh.blocked : Int) + delta
      let blocked := (max 0 (min 2000 after)).toNat
      sh.state ≠ .empty → sh.state ≠ .cancelled →
      ∃ t, exec .block s = .next t ∧ OtherShowsStay i s t ∧ t.shows.holds = s.shows.holds ∧
        (delta = 0 → t.shows = s.shows ∧ t.bus = s.bus ∧ EndsWith .done sh.avail f t) ∧
        (delta ≠ 0 → counted sh.held sh.sold blocked t ∧
          EndsWith (if after < 0 ∨ 2000 < after then .clamped else .done)
            t.shows.recs[i].avail f t))

/-! ## Holds -/

/-- HOLD (R36, R44, R45): refused with the first reason that applies and no change but the reply;
otherwise the lowest free slot holds it, held rises by its seats, the tally is recomputed, with the
SOLD_OUT request and soldout_asked where the band enters FULL, and HOLD_OK carries the reference and
the time it has. The model's choice: that time is hold_expiry also where the expiry has saturated
(log entry 57). -/
def Obligations.HoldIsPlacedOrRefused : Prop :=
  ∀ (s : State) (e : IntakeEntry), requestInHand .hold s = some e → HasRoom s e.desk →
    let n := fieldAt e.body 0 1
    let seats := fieldAt e.body 1 1
    ∃ t, exec .hold s = .next t ∧ t.desks.inHand = none ∧
      (∀ r avail, holdRefusal s e.desk n seats = some (r, avail) →
        t.shows = s.shows ∧ Told e.desk e.seq (.holdRefused r n avail) s t) ∧
      (∀ (i : ShowIx) (k : HoldIx), n = i.val → holdRefusal s e.desk n seats = none →
        freeHoldSlot s = some k →
        let sh := s.shows.recs[i]
        OtherShowsStay i s t ∧ OtherHoldsStay k s t ∧
          t.shows.holds[k] =
            ⟨s.shows.holds[k].gen,
              some ⟨e.desk, i, seats,
                min (s.clock.partSeconds + s.shows.cfg.holdExpiry) 4294967295, 0,
                (s.shows.placementCounter + 1) % 4294967296⟩⟩ ∧
          t.shows.placementCounter = (s.shows.placementCounter + 1) % 4294967296 ∧
          k ∈ t.shows.holdList ∧
          t.shows.recs[i] = recounted s.shows.cfg sh { sh with held := sh.held + seats } ∧
          t.bus.toArbiter = s.bus.toArbiter ++
            soldOutMsgs s.shows.cfg i sh { sh with held := sh.held + seats } ∧
          Told e.desk e.seq
            (.holdOk (256 * s.shows.holds[k].gen + k.val) i.val sh.showCode seats
              s.shows.cfg.holdExpiry) s t)

/-- EXTEND (R46, R47): by its own desk and at most twice, a hold gets a whole new expiry and, by that
expiry, a new place in the Hold List, behind every hold that expires no later; any other EXTEND is
refused with its reason and no hold changes. The model's choice: EXTENDED carries hold_expiry also where
the expiry has saturated (log entry 57). -/
def Obligations.ExtendRenewsTheExpiry : Prop :=
  ∀ (s : State) (e : IntakeEntry), requestInHand .extend s = some e → HasRoom s e.desk →
    let ref := fieldAt e.body 0 2
    ∃ t, exec .extend s = .next t ∧ t.shows.recs = s.shows.recs ∧
      (liveHold s ref = none → t.shows = s.shows ∧
        Told e.desk e.seq (.extendRefused ref .notLive) s t) ∧
      ∀ k h, liveHold s ref = some (k, h) →
        OtherHoldsStay k s t ∧
        (h.desk ≠ e.desk → t.shows = s.shows ∧
          Told e.desk e.seq (.extendRefused ref .notOwner) s t) ∧
        (h.desk = e.desk → 2 ≤ h.extensionsUsed → t.shows = s.shows ∧
          Told e.desk e.seq (.extendRefused ref .limit) s t) ∧
        (h.desk = e.desk → h.extensionsUsed < 2 →
          t.shows.holds[k] =
            ⟨s.shows.holds[k].gen,
              some { h with
                expiry := min (s.clock.partSeconds + s.shows.cfg.holdExpiry) 4294967295
                extensionsUsed := h.extensionsUsed + 1
                placedSeq := (s.shows.placementCounter + 1) % 4294967296 }⟩ ∧
          t.shows.placementCounter = (s.shows.placementCounter + 1) % 4294967296 ∧
          t.shows.holdList = enterHold (expiryOf t) k (s.shows.holdList.filter (· != k)) ∧
          Told e.desk e.seq
            (.extended ref s.shows.cfg.holdExpiry (2 - (h.extensionsUsed + 1))) s t)

/-- RELEASE and HOLD_EXPIRY (R37, R43, R48, R49): the hold leaves the Hold List, its seats leave
held, the tally is recomputed, with the clear of the SOLD_OUT notice and soldout_asked clear where
the band leaves FULL; its slot is free with the next generation, and its desk is told; a release of
a reference not live or of another desk's hold is refused, and a hold not yet expired stays. The
model's choice: no mark ties the expiry to its tick (log entry 56). -/
def Obligations.ReleaseAndExpiryFreeTheHold : Prop :=
  ∀ s : State,
    let freed (k : HoldIx) (h : HoldRec) (t : State) : Prop :=
      OtherShowsStay h.showIx s t ∧ OtherHoldsStay k s t ∧
        t.shows.holds[k] = ⟨(s.shows.holds[k].gen + 1) % 256, none⟩ ∧
        t.shows.holdList = s.shows.holdList.filter (· != k) ∧
        let sh := s.shows.recs[h.showIx]
        t.shows.recs[h.showIx] = recounted s.shows.cfg sh { sh with held := sh.held - h.seats } ∧
          t.bus.toArbiter = s.bus.toArbiter ++
            soldOutMsgs s.shows.cfg h.showIx sh { sh with held := sh.held - h.seats }
    (∀ e : IntakeEntry, requestInHand .release s = some e → HasRoom s e.desk →
      let ref := fieldAt e.body 0 2
      ∃ t, exec .release s = .next t ∧ t.desks.inHand = none ∧
        (liveHold s ref = none → t.shows = s.shows ∧
          Told e.desk e.seq (.releaseRefused ref .unknownHold) s t) ∧
        ∀ k h, liveHold s ref = some (k, h) →
          (h.desk ≠ e.desk → t.shows = s.shows ∧
            Told e.desk e.seq (.releaseRefused ref .notOwner) s t) ∧
          (h.desk = e.desk → freed k h t ∧
            Told e.desk e.seq (.released ref h.showIx.val h.seats) s t)) ∧
    (∀ k h rest, s.shows.holdList = k :: rest → holdAt s k = some h → HasRoom s h.desk →
      (s.clock.partSeconds < h.expiry → exec .holdExpiry s = .next s) ∧
      (h.expiry ≤ s.clock.partSeconds →
        ∃ t, exec .holdExpiry s = .next t ∧ freed k h t ∧
          Told h.desk 0
            (.holdEnded (256 * s.shows.holds[k].gen + k.val) h.showIx.val
              s.shows.recs[h.showIx].showCode h.seats .expired) s t))

/-- ASK (R71): the answer is the show's status as it stands, all zeros beyond the table, and no state but
the hand and the desk's port changes. -/
def Obligations.AskAnswersTheShowStatus : Prop :=
  ∀ (s : State) (e : IntakeEntry), requestInHand .ask s = some e → HasRoom s e.desk →
    let n := fieldAt e.body 0 1
    ∃ t, exec .ask s = .next t ∧
      t = { s with desks := { s.desks with inHand := none, ports := t.desks.ports } } ∧
      (64 ≤ n → Told e.desk e.seq (.showStatus n 0 .empty 0 .openHouse 0 false false) s t) ∧
      ∀ i : ShowIx, n = i.val →
        let sh := s.shows.recs[i]
        Told e.desk e.seq
          (.showStatus n sh.showCode sh.state sh.avail sh.band sh.seatsShown sh.plusMarker
            sh.oversold) s t

/-! ## The desk line -/

/-- DESK_BYTE and LINE_IDLE (R60 to R64, R66, R69, R73): the start byte opens a frame; the bytes gather
until the length byte's count is complete, or the 157th has come. At the frame end a port that takes the
frame counts a bad one and raises DESK_FRAME, answers REJECTED to a kind or length it does not take, and
queues a good one and counts it taken, pausing the desks at pause_on, or drops it and answers BUSY where
the intake queue is full; a REJECTED that finds no room and an answer of a port that drains are lost,
and a BUSY that finds no room is not sent; a draining port is then DISABLED. A frame of a DISABLED port,
or one that began while it was, is dropped and counted. The model's choice: the implied end of a frame
of length byte 0 or 1 (log entry 25), and the count of one of length byte 153 or more that an idle line
ends (log entry 24). -/
def Obligations.BytesGatherIntoFrames : Prop :=
  ∀ (d : DeskIx) (b : Byte) (s : State),
    let p := s.desks.ports[d]
    let raw := p.rx ++ [b]
    let len := (byteAt raw 1).toNat
    let whole : Prop := 2 ≤ raw.length ∧ len < 153 ∧ len + 4 ≤ raw.length
    let only (q : Port) (t : State) : Prop := t.desks.ports = put s.desks.ports d q
    let up (n : Nat) : Nat := min (n + 1) 65535
    let ended (frame : List Byte) (idle : Bool) (next : RxPhase) (t : State) : Prop :=
      let counted (f : PortCounters → PortCounters) : Port :=
        { p with phase := next, rx := [], rxDisabled := false, counters := f p.counters }
      let closing (q : Port) : Port := if p.state = .draining then { q with state := .disabled } else q
      let takes : Prop := p.state ≠ .disabled ∧ p.rxDisabled = false
      let room : Prop := p.state = .enabled ∧ p.replyQ.length < 4
      let seq := byteAt frame 3
      let body := (frame.drop 4).take ((byteAt frame 1).toNat - 2)
      let refusal : Option Reason :=
        match deskKind (byteAt frame 2).toNat with
        | none => some .unknownKind
        | some k => if bodyGood k body.length then none else some .badLength
      let lostFault (m : DeskMsg) : Raiser × Raise :=
        (.deskLine, ⟨.deskReplyLost, .desk (d.val + 1), padTo 16 (deskFrameBytes ⟨seq, m⟩)⟩)
      let overflow : Raiser × Raise :=
        (.deskLine, ⟨.deskOverflow, .desk (d.val + 1), padTo 16 frame⟩)
      let pauses : Prop := s.desks.cfg.pauseOn ≠ 0 ∧ s.desks.paused = false ∧
        s.desks.cfg.pauseOn ≤ s.desks.intake.length + 1
      let good (k : DeskKind) : Prop := takes ∧ frameError frame idle = none ∧
        deskKind (byteAt frame 2).toNat = some k ∧ bodyGood k body.length = true
      (¬ takes →
        only (closing (counted fun c => { c with dropped := up c.dropped })) t ∧
          t.desks.intake = s.desks.intake ∧ t.bus = s.bus) ∧
      (∀ e, takes → frameError frame idle = some e →
        only (closing (counted (countError e))) t ∧ t.desks.intake = s.desks.intake ∧
          Raised .deskLine ⟨.deskFrame, .desk (d.val + 1), padTo 16 frame⟩ s t) ∧
      (∀ r, takes → frameError frame idle = none → refusal = some r →
        let m : DeskMsg := .rejected r (byteAt frame 2)
        t.desks.intake = s.desks.intake ∧
          (room →
            only ((counted fun c => { c with rejected := up c.rejected }).enqueue ⟨seq, m⟩) t ∧
              t.bus = s.bus) ∧
          (¬ room →
            only (closing (counted fun c =>
                { c with rejected := up c.rejected, lost := up c.lost })) t ∧
              t.bus.raises = s.bus.raises ++ [lostFault m])) ∧
      (∀ k, good k → s.desks.intake.length < 32 →
        let q := counted fun c => { c with framesTaken := up c.framesTaken }
        t.desks.intake = s.desks.intake ++ [⟨d, k, seq, body⟩] ∧
          (¬ pauses → only (closing q) t ∧ t.desks.paused = s.desks.paused ∧ t.bus = s.bus) ∧
          (pauses → t.desks.paused = true ∧
            t.desks.pauseTimer = some (10 * max 1 (s.desks.cfg.pauseTime / 2)) ∧
            t.desks.ports[d] = closing (pausePlaced s.desks.cfg.pauseTime q) ∧
            ∀ j : DeskIx, j ≠ d →
              t.desks.ports[j] = pausePlaced s.desks.cfg.pauseTime s.desks.ports[j])) ∧
      (∀ k, good k → 32 ≤ s.desks.intake.length →
        let q := counted fun c => { c with overflow := up c.overflow }
        t.desks.intake = s.desks.intake ∧
          (room → only (q.enqueue ⟨seq, .busy⟩) t ∧ t.bus.raises = s.bus.raises ++ [overflow]) ∧
          (p.state = .enabled → 4 ≤ p.replyQ.length →
            only q t ∧ t.bus.raises = s.bus.raises ++ [overflow]) ∧
          (p.state = .draining →
            only (closing (counted fun c =>
                { c with overflow := up c.overflow, lost := up c.lost })) t ∧
              t.bus.raises = s.bus.raises ++ [overflow, lostFault .busy]))
    (p.phase = .hunt → b ≠ 0x7E#8 → exec (.deskByte d b) s = .next s) ∧
    (p.phase = .hunt → b = 0x7E#8 →
      ∃ t, exec (.deskByte d b) s = .next t ∧ t.desks.intake = s.desks.intake ∧ t.bus = s.bus ∧
        only { p with phase := .inFrame, rx := [b], rxDisabled := p.state == .disabled } t) ∧
    (p.phase = .discard → exec (.deskByte d b) s = .next s) ∧
    (p.phase = .inFrame → ¬ whole → raw.length < 157 →
      ∃ t, exec (.deskByte d b) s = .next t ∧ t.desks.intake = s.desks.intake ∧ t.bus = s.bus ∧
        only { p with rx := raw } t) ∧
    (p.phase = .inFrame → whole →
      ∃ t, exec (.deskByte d b) s = .next t ∧ ended raw false .hunt t) ∧
    (p.phase = .inFrame → ¬ whole → 157 ≤ raw.length →
      ∃ t, exec (.deskByte d b) s = .next t ∧ ended raw false .discard t) ∧
    (p.phase = .hunt → exec (.lineIdle d) s = .next s) ∧
    (p.phase = .discard →
      ∃ t, exec (.lineIdle d) s = .next t ∧ t.desks.intake = s.desks.intake ∧
        only { p with phase := .hunt } t) ∧
    (p.phase = .inFrame → ∃ t, exec (.lineIdle d) s = .next t ∧ ended p.rx true .hunt t)

/-- INTAKE_HAND, DESK_TX_DONE and PAUSE_REFRESH_EXPIRY (R65, R67, R69, R70): the head of the intake queue
goes into an empty hand, and at pause_off the paused flag clears and PAUSE(0) goes to every ENABLED
port; a transmitter that is done takes the head of its queue; a refresh puts a PAUSE at the head of
every ENABLED port's queue and restarts the timer. -/
def Obligations.HandsAndTransmittersMoveOn : Prop :=
  ∀ s : State,
    (∀ e rest, s.desks.inHand = none → s.desks.intake = e :: rest →
      ∃ t, exec .intakeHand s = .next t ∧ t.desks.inHand = some e ∧ t.desks.intake = rest ∧
        t.desks.paused = (s.desks.paused && decide (s.desks.cfg.pauseOff < rest.length)) ∧
        (s.desks.paused = false ∨ s.desks.cfg.pauseOff < rest.length →
          t.desks.ports = s.desks.ports) ∧
        (s.desks.paused = true → rest.length ≤ s.desks.cfg.pauseOff →
          t.desks.pauseTimer = none ∧
            ∀ d : DeskIx, t.desks.ports[d] = pausePlaced 0 s.desks.ports[d])) ∧
    (s.desks.inHand.isSome = true → exec .intakeHand s = .next s) ∧
    (∀ (d : DeskIx) (f : DeskFrame) (rest : List DeskFrame), s.desks.ports[d].replyQ = f :: rest →
      s.desks.ports[d].state = .enabled →
      ∃ t, exec (.deskTxDone d) s = .next t ∧
        t.desks.ports = put s.desks.ports d { s.desks.ports[d] with tx := some f, replyQ := rest } ∧
        t.desks.intake = s.desks.intake) ∧
    (∀ d : DeskIx, s.desks.ports[d].replyQ = [] ∨ s.desks.ports[d].state ≠ .enabled →
      ∃ t, exec (.deskTxDone d) s = .next t ∧
        t.desks.ports = put s.desks.ports d { s.desks.ports[d] with tx := none } ∧
        t.desks.intake = s.desks.intake) ∧
    (s.desks.paused = true → s.desks.pauseTimer = some 0 →
      ∃ t, exec .pauseRefreshExpiry s = .next t ∧ t.desks.intake = s.desks.intake ∧
        t.desks.paused = true ∧
        t.desks.pauseTimer = some (10 * max 1 (s.desks.cfg.pauseTime / 2)) ∧
        ∀ d : DeskIx,
          t.desks.ports[d] = pausePlaced s.desks.cfg.pauseTime s.desks.ports[d] ∧
          (s.desks.ports[d].state ≠ .enabled → t.desks.ports[d] = s.desks.ports[d]) ∧
          (s.desks.ports[d].state = .enabled → s.desks.ports[d].replyQ = [] →
            let f : DeskFrame := ⟨0, .pause s.desks.cfg.pauseTime⟩
            t.desks.ports[d] =
              if s.desks.ports[d].tx = none then { s.desks.ports[d] with tx := some f }
              else { s.desks.ports[d] with replyQ := [f] }))

/-- DESK_PORT (R72 to R74): a bad desk, action or clear flag is refused and no port changes; otherwise the
port is left, enabled or disabled (draining where a frame is being taken, its queued replies counted
lost), the outcome is DONE with its state as detail and its record as the action leaves it to be
written back, and the counters are then cleared where that is asked. The model's choice: of a bad
action and a bad clear flag the action is named (log entry 43). -/
def Obligations.DeskPortActsOnOnePort : Prop :=
  ∀ (s : State) (x : Flight), HandedTo .deskPort x s →
    let body := entryBody x.bytes
    let action := fieldAt body 1 1
    let clear := fieldAt body 2 1
    ∃ t, exec .deskPort s = .next t ∧ t.desks.intake = s.desks.intake ∧
      (fieldAt body 0 1 = 0 ∨ 8 < fieldAt body 0 1 →
        t.desks = s.desks ∧ ∃ d, EndsWith .badIndex d x t) ∧
      ∀ d : DeskIx, fieldAt body 0 1 = d.val + 1 →
        let p := s.desks.ports[d]
        OtherPortsStay d s t ∧
        (2 < action → t.desks = s.desks ∧ EndsWith .badField 2 x t) ∧
        (action ≤ 2 → 1 < clear → t.desks = s.desks ∧ EndsWith .badField 3 x t) ∧
        (action ≤ 2 → clear ≤ 1 →
          let acted : State :=
            if action = 1 then enablePort d s else if action = 2 then disablePort d s else s
          let q := acted.desks.ports[d]
          let lost := (p.replyQ.filter (!·.isPause)).length
          q.state =
              (if action = 1 then .enabled
               else if action = 2 ∧ p.state = .enabled then
                 if p.phase = .inFrame then .draining else .disabled
               else p.state) ∧
            (action = 0 → q = p) ∧
            (action = 2 → p.state = .enabled → q.replyQ = [] ∧
              (p.counters.lost ≤ 65535 → q.counters =
                { p.counters with lost := min (p.counters.lost + lost) 65535 })) ∧
            (action ≠ 2 → s.desks.paused = false → q.counters = p.counters) ∧
            (action = 1 → p.state ≠ .enabled → s.desks.paused = true →
              q = pausePlaced s.desks.cfg.pauseTime { p with state := .enabled }.kick) ∧
            t.desks.ports[d] = (if clear = 1 then { q with counters := {} } else q) ∧
            t.desks.paused = s.desks.paused ∧
            t.win.flight = some { x with
              phase := .writing, taken := true, awaiting := [],
              outcome := some ⟨.done, q.state.code, portWriteBack acted d⟩ })

/-! ## Notices -/

/-- NOTICE_POST, DESK_NOTICE_POST and AUTO_NOTICE_REQUEST (R80 to R84, R102 to R104): a post of a live key
collapses onto its notice, which keeps its reference, mode, target and bound show; a new one takes the
lowest free slot, the next post_seq and the mode, target and bound show of its post. A new ALL notice
stands, pending or on air, at every display that takes notices and whose tag matches its target, and at no
other; a new ANY_ONE notice stands at the ON display of matching tag with the lowest level, then the fewest
pending notices, then the lowest index, all as they stood before, and is UNPLACED, standing nowhere, where
there is none. One bound to a show that is gone, or with no free slot, is refused and changes nothing. The
desk's post answers with the reference, its priority cut to the cap, marked TRUNCATED where its text is
longer than 120 bytes, or with NOTICE_REFUSED, reason BAD_FIELD, NO_SHOW or TABLE_FULL. The model's choice:
the record of a card so posted is marked too (log entry 26), a display is matched by the tag of its latest
enabled report (log entry 45), and one that is LINK_LOST takes a new ALL notice (log entry 60). -/
def Obligations.PostsCreateOrCollapse : Prop :=
  ∀ s : State, NoneGone s →
    let next := (s.arb.postCounter + 1) % 4294967296
    let matches_ (p : Post) (d : DisplayIx) : Prop :=
      matchesTarget p.target d s.arb.recs[d].tag = true
    let takes (d : DisplayIx) : Prop :=
      s.arb.recs[d].noticeState ∈ [DisplayState.starting, .on, .linkLost]
    let fits (p : Post) (d : DisplayIx) : Prop := s.arb.recs[d].noticeState = .on ∧ matches_ p d
    let posted (p : Post) (t : State) : Prop :=
      (∀ i, postResult p s = .created i →
        Stands p i next p.mode p.target p.bound s t ∧ t.arb.postCounter = next ∧
          (∀ j : NoticeIx, j ≠ i → SameNotice s t j) ∧
          ((∀ d, ¬ standsAt s i d) →
            (p.mode = .all → ∀ d, standsAt t i d ↔ takes d ∧ matches_ p d) ∧
            (p.mode = .anyOne → ∃ n, t.arb.slots[i].notice = some n ∧
              (∀ d, standsAt t i d ↔ n.placed = some d) ∧
              ((∀ e, ¬ fits p e) → n.placed = none) ∧
              (∀ e, fits p e → ∃ d, n.placed = some d ∧ fits p d ∧
                ∀ e', fits p e' → e' ≠ d → chosenBefore s d e')))) ∧
      (∀ i n, postResult p s = .collapsed i → s.arb.slots[i].notice = some n →
        Stands p i n.postSeq n.mode n.target n.bound s t ∧
          t.arb.postCounter = s.arb.postCounter ∧
          ∀ j : NoticeIx, j ≠ i → SameNotice s t j) ∧
      ((postResult p s).slot = none → t.arb = s.arb)
    (∀ x : Flight, HandedTo .noticePost x s →
      let body := entryBody x.bytes
      let b := readPostBody body
      let checks := badPostField ((2, decide (b.priority ≤ 63)) :: postFieldChecks b)
      let p := b.post .boxOffice b.priority x.text
        (b.contentKind == 0 && decide (120 < fieldAt body 10 1))
      ∃ t, exec .noticePost s = .next t ∧
        (∀ n, checks = some n → t.arb = s.arb ∧ EndsWith .badField n x t) ∧
        (checks = none → posted p t) ∧
        (∀ i, checks = none → (postResult p s).slot = some i →
          EndsWith (if p.truncated then .truncated else .done)
            (256 * s.arb.slots[i].gen + i.val) x t) ∧
        (∀ i, checks = none → postResult p s = .noShow i → EndsWith .noRecord i.val x t) ∧
        (∀ st, checks = none → postResult p s = .deadShow st → EndsWith .wrongState st.code x t) ∧
        (checks = none → postResult p s = .tableFull → EndsWith .tableFull 0 x t)) ∧
    (∀ e : IntakeEntry, requestInHand .noticePost s = some e → HasRoom s e.desk →
      let b := readPostBody e.body
      let checks := badPostField (postFieldChecks b)
      let cap := s.arb.cfg.deskPriorityCap
      let text := e.body.drop 10
      let p := b.post (.desk e.desk) (min b.priority cap) (text.take 120) (decide (120 < text.length))
      ∃ t, exec .deskNoticePost s = .next t ∧ t.desks.inHand = none ∧
        (∀ n, checks = some n →
          t.arb = s.arb ∧ Told e.desk e.seq (.noticeRefused .badField n) s t) ∧
        (checks = none → posted p t) ∧
        (∀ i, checks = none → postResult p s = .created i →
          Told e.desk e.seq
            (.noticeTaken (256 * s.arb.slots[i].gen + i.val) (min b.priority cap) false
              (decide (cap < b.priority)) p.truncated) s t) ∧
        (∀ i, checks = none → postResult p s = .collapsed i →
          Told e.desk e.seq
            (.noticeTaken (256 * s.arb.slots[i].gen + i.val) (min b.priority cap) true
              (decide (cap < b.priority)) p.truncated) s t) ∧
        (∀ i, checks = none → postResult p s = .noShow i →
          Told e.desk e.seq (.noticeRefused .noShow 0) s t) ∧
        (∀ st, checks = none → postResult p s = .deadShow st →
          Told e.desk e.seq (.noticeRefused .noShow 0) s t) ∧
        (checks = none → postResult p s = .tableFull →
          Told e.desk e.seq (.noticeRefused .tableFull 0) s t)) ∧
    (∀ p rest, s.bus.toArbiter = .auto p :: rest →
      ∃ t, exec .autoNoticeRequest s = .next t ∧ t.bus.toArbiter = rest ∧ posted p t)

/-- NOTICE_CLEAR, DESK_NOTICE_CLEAR, CLEAR_REQUEST, CLOSURE_REPORT and NOTICE_EXPIRY (R79, R85 to R89): the
notice named ends, its slot free with the next generation, and no other does while no notice's show
is gone; a closure report ends every live notice bound to its show; a reference not live, or not the
desk's own, is refused and ends none. The model's choice: no mark ties an expiry to its tick (log
entry 68). -/
def Obligations.NoticesEnd : Prop :=
  ∀ s : State,
    let only (i : NoticeIx) (t : State) : Prop :=
      NoticeEnded s t i ∧ (NoneGone s → ∀ j : NoticeIx, j ≠ i → SameNotice s t j)
    (∀ x : Flight, HandedTo .noticeClear x s →
      let ref := fieldAt (entryBody x.bytes) 0 2
      ∃ t, exec .noticeClear s = .next t ∧
        (liveNotice s ref = none → t.arb = s.arb ∧ EndsWith .noRecord ref x t) ∧
        (∀ i n, liveNotice s ref = some (i, n) → only i t ∧ EndsWith .done ref x t)) ∧
    (∀ e : IntakeEntry, requestInHand .noticeClear s = some e → HasRoom s e.desk →
      let ref := fieldAt e.body 0 2
      ∃ t, exec .deskNoticeClear s = .next t ∧ t.desks.inHand = none ∧
        (liveNotice s ref = none → t.arb = s.arb ∧
          Told e.desk e.seq (.noticeRefused .unknownNotice 0) s t) ∧
        (∀ i n, liveNotice s ref = some (i, n) → n.origin ≠ .desk e.desk →
          t.arb = s.arb ∧ Told e.desk e.seq (.noticeRefused .notOwner 0) s t) ∧
        (∀ i n, liveNotice s ref = some (i, n) → n.origin = .desk e.desk → only i t)) ∧
    (∀ b rest, s.bus.toArbiter = .clear b :: rest →
      (findKey s .schedule ((1 + 4 * b.val) % 256) = none →
        exec .clearRequest s = .next { s with bus := { s.bus with toArbiter := rest } }) ∧
      (∀ i, findKey s .schedule ((1 + 4 * b.val) % 256) = some i →
        ∃ t, exec .clearRequest s = .next t ∧ t.bus.toArbiter = rest ∧ only i t)) ∧
    (∀ b reason rest, s.bus.toArbiter = .closure b reason :: rest →
      ∃ t, exec .closureReport s = .next t ∧ t.bus.toArbiter = rest ∧
        ∀ i n, s.arb.slots[i].notice = some n →
          (i ∈ s.arb.order → n.bound = some b → NoticeEnded s t i) ∧
          (n.bound ≠ some b → boundGone s i = false → SameNotice s t i)) ∧
    ((∀ (i : NoticeIx) (n : Notice) (e : Nat), s.arb.slots[i].notice = some n → n.expiry = some e →
        s.clock.partSeconds < e) →
      exec .noticeExpiry s = .next s) ∧
    (∀ (i : NoticeIx) (n : Notice) (e : Nat), i ∈ s.arb.order → s.arb.slots[i].notice = some n →
      n.expiry = some e →
      e ≤ s.clock.partSeconds →
      (∀ (j : NoticeIx) (m : Notice) (e' : Nat), j ∈ s.arb.order → j ≠ i →
        s.arb.slots[j].notice = some m → m.expiry = some e' → e < e') →
      ∃ t, exec .noticeExpiry s = .next t ∧ only i t)

/-- The reports of the Display Controller (R93, R100, R102, R105 to R107) and COVER_TIMER_EXPIRY (R95, R97,
R98). notice_state or floor follows the report. A display that is enabled takes every ALL notice that
matches it, by the tag its report gives, which then stays. At a link up the display is evaluated, and
every UNPLACED notice that matches it is placed; one left by its notices has an empty stack, keeps
its ALL notices pending where its link is lost and none where it is draining or off, and its ANY_ONE
notices are placed again (R104, R105). At a cover timer's expiry a candidate that passes goes on top,
with a strip report. At the end every display's takeover flag says whether its top is of takeover class,
and a takeover begin or end has gone to each display whose flag has changed, to no other (R108). The
model's choice: a mark says that a tick has found a cover timer at its end (log entry 17); the enabled
report carries the tag (log entry 45); takeover signals go behind the
strip reports, in index order (log entry 46). -/
def Obligations.ReportsMoveTheArbitration : Prop :=
  ∀ (s : State) (d : DisplayIx) (rest : List DisplayReport),
    let stay (j : DisplayIx) (t : State) : Prop :=
      t.arb.recs[j].noticeState = s.arb.recs[j].noticeState ∧ t.arb.recs[j].tag = s.arb.recs[j].tag
    let compared (t : State) : Prop :=
      (∀ j : DisplayIx, t.arb.recs[j].takeover = overtaken s.arb.cfg.takeoverClass t j) ∧
      ∃ l, t.bus.signals = s.bus.signals ++ l ∧ ∀ j : DisplayIx,
        (.takeoverBegin j ∈ l ↔
          s.arb.recs[j].takeover = false ∧ t.arb.recs[j].takeover = true) ∧
        (.takeoverEnd j ∈ l ↔
          s.arb.recs[j].takeover = true ∧ t.arb.recs[j].takeover = false)
    let follows (st : DisplayState) (tag : Byte) (t : State) : Prop :=
      t.arb.recs[d].noticeState = st ∧ t.arb.recs[d].tag = tag ∧ t.bus.displayReports = rest ∧
        (∀ j : DisplayIx, j ≠ d → stay j t) ∧
        (∀ j : DisplayIx, t.arb.recs[j].floor = s.arb.recs[j].floor) ∧ compared t
    let onElse (e : DisplayIx) : Prop := e ≠ d ∧ s.arb.recs[e].noticeState = .on
    let left (st : DisplayState) (t : State) : Prop :=
      follows st s.arb.recs[d].tag t ∧ t.arb.recs[d].stack = [] ∧ t.arb.recs[d].coverStart = none ∧
        (NoneGone s → PlacedAgain (fun i _ => standsAt s i d) onElse s t)
    let modeAll (i : NoticeIx) : Prop := ∃ n, s.arb.slots[i].notice = some n ∧ n.mode = .all
    (∀ tag, s.bus.displayReports = .enabled d tag :: rest →
      ∃ t, exec .enabledReport s = .next t ∧ follows .starting tag t ∧
        ∀ i n, i ∈ s.arb.order → s.arb.slots[i].notice = some n → n.mode = .all →
          matchesTarget n.target d tag = true → standsAt t i d) ∧
    (s.bus.displayReports = .linkUp d :: rest →
      ∃ t, exec .linkUpReport s = .next t ∧ follows .on s.arb.recs[d].tag t ∧
        (NoneGone s →
          (∀ i, isCandidate s d i → passes s d i → i ∈ t.arb.recs[d].stack) ∧
          (∀ (i : NoticeIx) (n : Notice), i ∈ s.arb.order → s.arb.slots[i].notice = some n →
            n.mode = .anyOne → n.placed = none →
            matchesTarget n.target d s.arb.recs[d].tag = true →
            ∃ n' e, t.arb.slots[i].notice = some n' ∧ n'.placed = some e ∧
              t.arb.recs[e].noticeState = .on ∧
              matchesTarget n.target e s.arb.recs[e].tag = true ∧ standsAt t i e) ∧
          (s.arb.recs[d].pending = [] →
            PlacedAgain
              (fun _ n => n.placed = none ∧ matchesTarget n.target d s.arb.recs[d].tag = true)
              (fun e => e = d ∨ s.arb.recs[e].noticeState = .on) s t))) ∧
    (s.bus.displayReports = .linkLost d :: rest →
      ∃ t, exec .linkLostReport s = .next t ∧ left .linkLost t ∧
        (NoneGone s → ∀ i : NoticeIx,
          i ∈ t.arb.recs[d].pending ↔ standsAt s i d ∧ modeAll i)) ∧
    (s.bus.displayReports = .draining d :: rest →
      ∃ t, exec .drainingReport s = .next t ∧ left .draining t ∧ t.arb.recs[d].pending = []) ∧
    (s.bus.displayReports = .off d :: rest →
      ∃ t, exec .offReport s = .next t ∧ left .off t ∧ t.arb.recs[d].pending = []) ∧
    (∀ value, s.bus.displayReports = .floor d value :: rest →
      ∃ t, exec .floorReport s = .next t ∧ t.arb.recs[d].floor = value ∧
        t.bus.displayReports = rest ∧
        (∀ j : DisplayIx, j ≠ d → t.arb.recs[j].floor = s.arb.recs[j].floor) ∧
        (∀ j : DisplayIx, stay j t) ∧ compared t) ∧
    (s.arb.recs[d].coverDue = true → s.arb.recs[d].noticeState = .on →
      ∃ t, exec (.coverTimerExpiry d) s = .next t ∧ compared t ∧
        (∀ (i : NoticeIx) (n : Notice), isCandidate s d i → passes s d i → boundGone s i = false →
          s.arb.slots[i].notice = some n → 0 < s.arb.cfg.minCover →
          t.arb.recs[d].stack = i :: s.arb.recs[d].stack ∧
            t.arb.recs[d].pending = s.arb.recs[d].pending.filter (· != i) ∧
            t.arb.recs[d].coverStart = some s.clock.partSeconds ∧
            t.arb.slots[i].notice = some { n with aired := min (n.aired + 1) 65535 } ∧
            ∃ l, t.bus.signals = s.bus.signals ++
              .strip d (some (256 * s.arb.slots[i].gen + i.val, n.priority / 4, n.content)) :: l) ∧
        ((∀ i, isCandidate s d i → ¬ passes s d i) →
          t.arb.recs[d].stack = s.arb.recs[d].stack ∧
            t.arb.recs[d].pending = s.arb.recs[d].pending))

/-! ## Features and decisions -/

/-- FEATURE_LOAD, FEATURE_WEIGHT, FEATURE_DROP and AIRTIME_RESET (R110 to R112, R117 to R119): a load of a
slot that may take one begins its validation with the header read; a weight is written in any state but
EMPTY; a dropped slot is EMPTY but for validation_no, or DRAINING while it streams; a reset sets
every credit to 0. An index of 32 or more, a bad weight or location, and a slot in use, is refused and
changes no feature. The model's choice: that reset takes a DRAINING feature too (log entry 61), and the
detail of a refusal is free where the manual states none (log entry 2). -/
def Obligations.FeatureEntriesActOnOneSlot : Prop :=
  (∀ (s : State) (x : Flight),
    ∀ c ∈ [(EntryKind.featureLoad, Instr.featureLoad), (.featureWeight, .featureWeight),
        (.featureDrop, .featureDrop)],
      HandedTo c.1 x s → 32 ≤ fieldAt (entryBody x.bytes) 0 1 →
      ∃ t, exec c.2 s = .next t ∧ t.air = s.air ∧ t.bus = s.bus ∧ t.reads = s.reads ∧
        ∃ n, EndsWith .badIndex n x t) ∧
  ∀ (s : State) (x : Flight) (f : FeatureIx),
    let body := entryBody x.bytes
    let r := s.air.features[f]
    let w := fieldAt body 1 1
    let location := fieldAt body 8 8
    (HandedTo .featureLoad x s → fieldAt body 0 1 = f.val →
      ∃ t, exec .featureLoad s = .next t ∧ OtherFeaturesStay f s t ∧
        (mayLoad r = false → t.air = s.air ∧ EndsWith .inUse r.state.code x t) ∧
        (mayLoad r = true → 15 < w → t.air = s.air ∧ EndsWith .badField 1 x t) ∧
        (mayLoad r = true → w ≤ 15 → location % 16 ≠ 0 →
          t.air = s.air ∧ EndsWith .badField 2 x t) ∧
        (mayLoad r = true → w ≤ 15 → location % 16 = 0 →
          t.air.features[f] =
              { state := .validating, weight := w, clipLocation := location,
                validationNo := (r.validationNo + 1) % 256, validation := some {} } ∧
            (∀ d : DisplayIx, t.air.lastTrailer[d] ≠ some f) ∧
            Outstanding ⟨.header f ((r.validationNo + 1) % 256), location, 32, false⟩ t ∧
            EndsWith .accepted f.val x t)) ∧
    (HandedTo .featureWeight x s → fieldAt body 0 1 = f.val →
      ∃ t, exec .featureWeight s = .next t ∧ OtherFeaturesStay f s t ∧
        t.air.lastTrailer = s.air.lastTrailer ∧
        (r.state = .empty → t.air = s.air ∧ ∃ d, EndsWith .noRecord d x t) ∧
        (r.state ≠ .empty → 15 < w → t.air = s.air ∧ EndsWith .badField 1 x t) ∧
        (r.state ≠ .empty → w ≤ 15 →
          t.air.features[f] = { r with weight := w } ∧ EndsWith .done r.state.code x t)) ∧
    (HandedTo .featureDrop x s → fieldAt body 0 1 = f.val →
      ∃ t, exec .featureDrop s = .next t ∧ OtherFeaturesStay f s t ∧
        EndsWith .done t.air.features[f].state.code x t ∧
        (r.state = .validating ∨ r.state = .rejected ∨
            (r.state = .ready ∨ r.state = .faulted) ∧ r.streamingCount = 0 →
          t.air.features[f] = { validationNo := r.validationNo } ∧
            ∀ d : DisplayIx, t.air.lastTrailer[d] ≠ some f) ∧
        (r.state = .ready ∨ r.state = .faulted → r.streamingCount ≠ 0 →
          t.air.features[f] = { r with state := .draining } ∧
            t.bus.drainReqs = s.bus.drainReqs ++ [f]) ∧
        (r.state = .empty ∨ r.state = .draining → t.air = s.air ∧ t.bus = s.bus)) ∧
    (HandedTo .airtimeReset x s →
      ∃ t, exec .airtimeReset s = .next t ∧ EndsWith .done 0 x t ∧
        t.air.lastTrailer = s.air.lastTrailer ∧
        t.air.features[f] = { r with credit := 0 })

/-- The validation reads (R113 to R116): a header in range sets the four header fields and asks for the
first piece of the chunk list; one out of range, a short chunk, a duration out of 5..300 seconds, or
a read that fails to its limit rejects the feature with its reason; the last piece makes it READY
with its totals; a failed read waits and is issued again, in the same event where the wait drawn is 0;
a read of an older validation, completed or failed, does nothing but free its slot. -/
def Obligations.ValidationFollowsTheClip : Prop :=
  ∀ (slot : ReadSlot) (bytes : List Byte) (s : State) (f : FeatureIx) (no addr : Nat) (g : Bool),
    let r := s.air.features[f]
    let live : Prop := r.state = .validating ∧ r.validationNo = no
    let rejected (reason : RejectReason) (detail : Nat) (q : FeatureRec) (t : State) : Prop :=
      t.air.features[f] =
        { q with
          state := .rejected, rejectReason := reason, rejectDetail := detail, validation := none }
    (∀ len, bytes.length = 32 → s.reads.slots[slot] = some ⟨.header f no, addr, len, g⟩ →
      let h := readClipHeader bytes
      ∃ t, exec (.headerReadDone slot bytes) s = .next t ∧ OtherFeaturesStay f s t ∧
        (¬ live → t = freeRead slot s) ∧
        (live → headerCheck h ≠ 0 → rejected .headerRange (headerCheck h) r t) ∧
        (live → headerCheck h = 0 →
          t.air.features[f] =
              { r with
                formatClass := h.formatClass, chunkCount := h.chunkCount, byteRate := h.byteRate,
                validation := some { piece := some 0 } } ∧
            Outstanding
              ⟨.piece f no 0, r.clipLocation + 32, 16 * min 64 h.chunkCount, false⟩ t)) ∧
    (∀ first, 1 ≤ bytes.length → bytes.length ≤ 1024 → bytes.length % 16 = 0 →
      s.reads.slots[slot] = some ⟨.piece f no first, addr, bytes.length, g⟩ →
      let n := min 64 (r.chunkCount - first)
      let c := checkChunks r.chunkCount first (readDescriptors bytes n)
      let q : FeatureRec := { r with chunks := r.chunks ++ c.1, truncated := r.truncated || c.2.1 }
      let total := (q.chunks.map (·.len)).sum
      let seconds := (total + r.byteRate - 1) / r.byteRate
      ∃ t, exec (.chunkListPieceDone slot bytes) s = .next t ∧ OtherFeaturesStay f s t ∧
        (¬ live → t = freeRead slot s) ∧
        (∀ k, live → c.2.2 = some k → rejected .shortChunk k q t) ∧
        (live → c.2.2 = none → first + n < r.chunkCount →
          t.air.features[f] = { q with validation := some { piece := some (first + n) } } ∧
            Outstanding
              ⟨.piece f no (first + n), r.clipLocation + 32 + 16 * (first + n),
                16 * min 64 (r.chunkCount - (first + n)), false⟩ t) ∧
        (live → c.2.2 = none → r.chunkCount ≤ first + n → 5 ≤ seconds → seconds ≤ 300 →
          t.air.features[f] =
            { q with
              totalBytes := total, duration := seconds, state := .ready, credit := 0,
              validation := none }) ∧
        (live → c.2.2 = none → r.chunkCount ≤ first + n → seconds < 5 ∨ 300 < seconds →
          rejected .duration 0 { q with totalBytes := total, duration := seconds } t)) ∧
    (∀ len v id, id = .header f no ∨ (∃ first, id = .piece f no first) →
      s.reads.slots[slot] = some ⟨id, addr, len, g⟩ → live → r.validation = some v →
      let n := v.failures + 1
      let wait := s.stream.lfsr.toNat % 2 ^ min n s.air.cfg.retry.backoffCap
      ∃ t, exec (.validationReadFailed slot) s = .next t ∧ OtherFeaturesStay f s t ∧
        (n < s.air.cfg.retry.retryLimit →
          t.air.features[f] =
            { r with
              validation := some { v with
                failures := n, wait := if wait = 0 then none else some wait } } ∧
            (wait = 0 → v.piece = none →
              Outstanding ⟨.header f no, r.clipLocation, 32, false⟩ t) ∧
            ∀ first, wait = 0 → v.piece = some first →
              Outstanding
                ⟨.piece f no first, r.clipLocation + 32 + 16 * first,
                  16 * min 64 (r.chunkCount - first), false⟩ t) ∧
        (s.air.cfg.retry.retryLimit ≤ n →
          rejected .readFailed (v.piece.getD 0) r t ∧
            Raised .airtimeScheduler ⟨.memReadControl, .feature f.val, noCapture⟩ s t)) ∧
    (∀ len id, id = .header f no ∨ (∃ first, id = .piece f no first) →
      s.reads.slots[slot] = some ⟨id, addr, len, g⟩ → ¬ live →
      exec (.validationReadFailed slot) s = .next (freeRead slot s)) ∧
    (∀ v, r.state = .validating → r.validation = some v → v.wait = some 0 →
      ∃ t, exec (.validationRetryExpiry f) s = .next t ∧ OtherFeaturesStay f s t ∧
        t.air.features[f] = { r with validation := some { v with wait := none } } ∧
        (v.piece = none → Outstanding ⟨.header f r.validationNo, r.clipLocation, 32, false⟩ t) ∧
        ∀ first, v.piece = some first →
          Outstanding
            ⟨.piece f r.validationNo first, r.clipLocation + 32 + 16 * first,
              16 * min 64 (r.chunkCount - first), false⟩ t)

/-- DECISION and RELEASE_REPORT (R120 to R126). The effective weight of a feature is its weight times the
largest boost of the shows that name it, 0 where none does; a show's boost is 0 unless it is SELLING or
SEATING and not FULL, and else 1, with 2 more up to near_window before its start and 1 more up to three
times that, and with 0, 1, 2 and 1 more by the bands OPEN_HOUSE, FILLING, FEW and LAST. An empty
eligible set is answered BOARD with no credit changed; otherwise the eligible feature of highest credit
wins, ties to the lowest index, and where that is the display's last trailer and another is eligible, the
best of the others; every eligible credit is paid, the winner charged the sum and counted, each within
−4096 to 4095. A release lowers the streaming count, and ends the drain or marks the clip fault. The
model's choice: last_e of a DRAINING feature stays at a decision (log entry 48), and streaming_count
rises past 255 (log entry 49). -/
def Obligations.DecisionsPayAndCharge : Prop :=
  ∀ (s : State) (d : DisplayIx),
    (∀ (f : FeatureIx) (now : Nat), s.clock.lobby = some now →
      let window : Int := s.air.cfg.nearWindow
      let boost (sh : ShowRec) : Nat :=
        let left : Int := sh.start - now
        if (sh.state = .selling ∨ sh.state = .seating) ∧ sh.band ≠ .full then
          1 + (if left ≤ window then 2 else if left ≤ 3 * window then 1 else 0)
            + (match sh.band with | .openHouse | .full => 0 | .filling | .last => 1 | .few => 2)
        else 0
      ∃ m, effective s f = s.air.features[f].weight * m ∧
        (∀ i : ShowIx, s.shows.recs[i].feature = some f → boost s.shows.recs[i] ≤ m) ∧
        (m = 0 ∨
          ∃ i : ShowIx, s.shows.recs[i].feature = some f ∧ boost s.shows.recs[i] = m)) ∧
    (∀ f : FeatureIx,
      (∀ i : ShowIx, s.shows.recs[i].feature = some f →
        s.shows.recs[i].state ≠ .selling ∧ s.shows.recs[i].state ≠ .seating ∨
          s.shows.recs[i].band = .full) →
      effective s f = 0) ∧
    (∀ c : Int, clampCredit c = if c < -4096 then -4096 else if 4095 < c then 4095 else c) ∧
    (∀ (q : DecisionRequest) (rest : List DecisionRequest),
      s.bus.decisions = q :: rest → q.display = d →
      let e : List FeatureIx := (List.finRange 32).filter fun f =>
        s.air.features[f].state == .ready && 0 < effective s f &&
          q.formatMask.getLsbD s.air.features[f].formatClass
      let sum := (e.map fun f => effective s f).sum
      let paid (f : FeatureIx) : Int := clampCredit (s.air.features[f].credit + effective s f)
      let best (l : List FeatureIx) (w : FeatureIx) : Prop :=
        w ∈ l ∧ ∀ g ∈ l, paid g < paid w ∨ paid g = paid w ∧ w.val ≤ g.val
      ∃ t, exec (.decision d) s = .next t ∧ t.bus.decisions = rest ∧
        (∀ f : FeatureIx, s.air.features[f].state ≠ .empty → s.air.features[f].state ≠ .draining →
          t.air.features[f].lastE = effective s f) ∧
        (∀ f : FeatureIx, s.air.features[f].state = .draining →
          t.air.features[f] = s.air.features[f]) ∧
        (∀ f : FeatureIx, f ∉ e → t.air.features[f].credit = s.air.features[f].credit ∧
          t.air.features[f].plays = s.air.features[f].plays) ∧
        (e = [] → t.bus.replies = s.bus.replies ++ [⟨d, q.segmentNo, none⟩] ∧
          t.air.lastTrailer = s.air.lastTrailer) ∧
        (e ≠ [] → ∃ w ∈ e,
          t.bus.replies = s.bus.replies ++ [⟨d, q.segmentNo, some w⟩] ∧
          t.air.lastTrailer = put s.air.lastTrailer d (some w) ∧
          ((∃ g ∈ e, s.air.lastTrailer[d] ≠ some g) → s.air.lastTrailer[d] ≠ some w) ∧
          (∃ first, best e first ∧
            (s.air.lastTrailer[d] ≠ some first ∨ e = [first] → w = first) ∧
            (s.air.lastTrailer[d] = some first → e ≠ [first] →
              best (e.filter (· != first)) w)) ∧
          t.air.features[w].plays = min (s.air.features[w].plays + 1) 65535 ∧
          t.air.features[w].streamingCount = s.air.features[w].streamingCount + 1 ∧
          t.air.features[w].credit = clampCredit (paid w - sum) ∧
          ∀ f ∈ e, f ≠ w →
            t.air.features[f].credit = paid f ∧
              t.air.features[f].streamingCount = s.air.features[f].streamingCount)) ∧
    (∀ (x : Release) (rest : List Release) (sender : ReleaseSender),
      (sender = .streamEngine ∧ s.bus.streamReleases = x :: rest) ∨
        (sender = .displayController ∧ s.bus.displayReleases = x :: rest) →
      let r := s.air.features[x.feature]
      ∃ t, exec (.releaseReport sender) s = .next t ∧ OtherFeaturesStay x.feature s t ∧
        (r.streamingCount = 0 → t.air = s.air) ∧
        (r.state = .draining → r.streamingCount = 1 →
          t.air.features[x.feature] = { validationNo := r.validationNo }) ∧
        (r.streamingCount ≠ 0 → ¬ (r.state = .draining ∧ r.streamingCount = 1) →
          t.air.features[x.feature] =
            { r with
              streamingCount := r.streamingCount - 1
              state := if x.cause = .clipFault ∧ r.state = .ready then .faulted else r.state }))

/-! ## Displays -/

/-- DISPLAY_SETUP, DISPLAY_ENABLE and DISPLAY_DISABLE (R130 to R132, R134): a display index of 16 or more is
refused BAD_INDEX and changes no display; a setup with no bad field writes the marked fields, in any
state where only the mask and the floor are marked and else in OFF alone; enabling takes OFF to
STARTING, and its report carries the tag now in use; disabling turns a display OFF, or drains what is
on air. The model's choice: what `idle` says of the record once the segment has left the air, beside NONE
and not suspended: page_rows empty, page and pages as they were (log entry 28), dwell_left 0 (log entry
55), the marks of waiting drop reports gone (log entry 54), feature that of the last trailer (log entry
72); the report's tag (log entry 45); and BAD_INDEX with a free detail (log entry 2). -/
def Obligations.DisplayEntriesActOnOneDisplay : Prop :=
  ∀ (s : State) (x : Flight),
    let index := fieldAt (entryBody x.bytes) 0 1
    (∀ c ∈ [(EntryKind.displaySetup, Instr.displaySetup), (.displayEnable, .displayEnable),
        (.displayDisable, .displayDisable)],
      HandedTo c.1 x s → 16 ≤ index →
      ∃ t, exec c.2 s = .next t ∧ t.displays = s.displays ∧ t.stream = s.stream ∧ t.bus = s.bus ∧
        ∃ n, EndsWith .badIndex n x t) ∧
    ∀ d : DisplayIx, index = d.val →
    let r := s.displays.recs[d]
    let reports (l : List DisplayReport) (t : State) : Prop :=
      t.bus.displayReports = s.bus.displayReports ++ l
    (HandedTo .displaySetup x s →
      let b := readSetupBody (entryBody x.bytes)
      let m := marked b.mask
      let new := setUp m b r.setup
      ∃ t, exec .displaySetup s = .next t ∧ OtherDisplaysStay d s t ∧
        (marksOffField m = true → r.state ≠ .off →
          t.displays = s.displays ∧ EndsWith .wrongState r.state.code x t) ∧
        (∀ n, marksOffField m = false ∨ r.state = .off → badSetupField m b new = some n →
          t.displays = s.displays ∧ EndsWith .badField n x t) ∧
        (marksOffField m = false ∨ r.state = .off → badSetupField m b new = none →
          t.displays.recs[d] = { r with setup := new } ∧ EndsWith .done r.state.code x t ∧
            reports (if new.floor = r.setup.floor then [] else [.floor d new.floor]) t)) ∧
    (HandedTo .displayEnable x s →
      ∃ t, exec .displayEnable s = .next t ∧ OtherDisplaysStay d s t ∧
        (r.state = .off →
          t.displays.recs[d].state = .starting ∧ t.displays.recs[d].loopPos = 0 ∧
            t.displays.recs[d].page = none ∧ t.displays.recs[d].setup = r.setup ∧
            reports [.enabled d r.setup.tag] t ∧ EndsWith .done 1 x t) ∧
        (r.state = .starting ∨ r.state = .on ∨ r.state = .linkLost →
          t.displays = s.displays ∧ EndsWith .done r.state.code x t) ∧
        (r.state = .draining → t.displays = s.displays ∧ EndsWith .wrongState 4 x t)) ∧
    (HandedTo .displayDisable x s →
      ∃ t, exec .displayDisable s = .next t ∧ OtherDisplaysStay d s t ∧
        EndsWith .done t.displays.recs[d].state.code x t ∧
        (r.state = .off ∨ r.state = .draining → t.displays = s.displays ∧ t.bus = s.bus) ∧
        (r.state = .starting ∨ r.state = .linkLost ∨ r.state = .on ∧ r.segment.onAir = false →
          t.displays.recs[d] = { r.idle with state := .off } ∧ reports [.off d] t ∧
            PanelSent d .stripClear s t) ∧
        (r.state = .on → r.segment.onAir = true → r.suspended = false →
          t.displays.recs[d] = { r with state := .draining } ∧ reports [.draining d] t ∧
            PanelSent d .stripClear s t ∧
            t.bus.streamReqs = s.bus.streamReqs ++
              if r.segment = .trailer then [.finish d r.segmentNo] else []) ∧
        (r.state = .on → r.segment.onAir = true → r.suspended = true →
          t.displays.recs[d] = { r.idle with state := .off } ∧ reports [.off d] t ∧
            t.bus.streamReqs = s.bus.streamReqs ++
              if r.segment = .trailer then [.abandon d r.segmentNo] else []))

/-- LINK_UP, LINK_DOWN, DWELL_EXPIRY, DECISION_REPLY and END_REPORT (R133 to R139, R157): a link up starts
the loop at slot 0; a link down ends what is on air, empties the transmitter, and reports; a segment's
end moves the loop on and starts the next slot by its kind, or turns a draining display OFF with
STRIP_CLEAR; a decision's reply starts the trailer or a board page, and a stale one is released. A
HOUSE slot sends its card. A BOARD slot composes a page of the board list: the shows of the listed set
whose auditorium is in the mask, by start and then index; the page after the last one composed, of at
most rows_per_page rows, sent as PAGE_BEGIN and one ROW each; or HOUSE card 0 for an empty list, the page
unchanged. The model's choice: a mark says that a tick has found a dwell at its end (log entry 17); at a
BOARD reply segment_no advances and loop_pos stays, as R137 has it,
though R135 counts the reply among the segment ends (log entry 9); page and pages stay at a HOUSE slot
(log entry 28). -/
def Obligations.DisplaysFollowTheirLoop : Prop :=
  ∀ (s : State) (d : DisplayIx),
    let r := s.displays.recs[d]
    let slotStarts (pos : Nat) (link : PanelLink) (t : State) : Prop :=
      t.displays.recs[d].takeover = r.takeover ∧ SlotStarts d pos link s t
    let nextPos : Nat := if r.setup.loop.length ≤ r.loopPos + 1 then 0 else r.loopPos + 1
    let off (t : State) : Prop :=
      t.displays.recs[d].state = .off ∧ t.displays.recs[d].segment = .none ∧
        t.bus.displayReports = s.bus.displayReports ++ [.off d]
    (∃ t, exec (.linkUp d) s = .next t ∧ OtherDisplaysStay d s t ∧
      t.displays.recs[d].linkUp = true ∧
      (r.state = .starting ∨ r.state = .linkLost →
        t.displays.recs[d].state = .on ∧ slotStarts 0 s.stream.links[d].kick t ∧
          t.bus.displayReports = s.bus.displayReports ++ [.linkUp d]) ∧
      (r.state = .off ∨ r.state = .on ∨ r.state = .draining →
        t.displays.recs[d] = { r with linkUp := true } ∧ t.bus = s.bus)) ∧
    (∃ t, exec (.linkDown d) s = .next t ∧ OtherDisplaysStay d s t ∧
      t.displays.recs[d].linkUp = false ∧
      t.stream.links[d] = { s.stream.links[d] with control := [], clip := none, tx := none } ∧
      (r.state = .on →
        t.displays.recs[d].state = .linkLost ∧ t.displays.recs[d].segment = .none ∧
          t.bus.displayReports = s.bus.displayReports ++ [.linkLost d] ∧
          Raised .displayController ⟨.panelLinkLost, .display d.val, noCapture⟩ s t ∧
          t.bus.streamReqs = s.bus.streamReqs ++
            if r.segment = .trailer then [.abandon d r.segmentNo] else []) ∧
      (r.state = .draining → off t ∧
        Raised .displayController ⟨.panelLinkLost, .display d.val, noCapture⟩ s t) ∧
      (r.state = .off ∨ r.state = .starting ∨ r.state = .linkLost →
        t.displays.recs[d] = { r with linkUp := false } ∧ t.bus = s.bus)) ∧
    (r.dwellDue = true →
      ∃ t, exec (.dwellExpiry d) s = .next t ∧ OtherDisplaysStay d s t ∧
        (r.state = .on → slotStarts nextPos s.stream.links[d] t) ∧
        (r.state = .draining → off t ∧ PanelSent d .stripClear s t)) ∧
    (∀ (q : DecisionReply) (rest : List DecisionReply), s.bus.replies = q :: rest →
      q.display = d →
      let matched : Prop := r.state = .on ∧ r.segment = .deciding ∧ r.segmentNo = q.segmentNo
      ∃ t, exec (.decisionReply d) s = .next t ∧ OtherDisplaysStay d s t ∧ t.bus.replies = rest ∧
        (∀ f, q.choice = some f → matched →
          t.displays.recs[d].segment = .trailer ∧ t.displays.recs[d].feature = f ∧
            t.displays.recs[d].segmentNo = r.segmentNo ∧
            t.displays.recs[d].suspended = r.takeover ∧
            t.bus.streamReqs = s.bus.streamReqs ++
              [.start d f r.segmentNo r.setup.lowMark r.setup.highMark r.takeover]) ∧
        (q.choice = none → matched →
          t.displays.recs[d].segment = .board ∧
            t.displays.recs[d].dwellLeft = r.setup.boardDwell ∧
            t.displays.recs[d].loopPos = r.loopPos ∧
            t.displays.recs[d].segmentNo = (r.segmentNo + 1) % 256 ∧
            t.displays.recs[d].suspended = r.takeover ∧ OtherLinksStay d s t ∧
            PageComposed d s.stream.links[d] s t) ∧
        (∀ f, q.choice = some f → ¬ matched → t.displays = s.displays ∧
          t.bus.displayReleases = s.bus.displayReleases ++ [⟨f, .notStarted⟩]) ∧
        (q.choice = none → ¬ matched → t.displays = s.displays)) ∧
    (∀ (n : Nat) (rest : List EndNotice), s.bus.endReports = ⟨d, n⟩ :: rest →
      ∃ t, exec .endReport s = .next t ∧ OtherDisplaysStay d s t ∧ t.bus.endReports = rest ∧
        (r.segment = .trailer → r.segmentNo = n → r.state = .on →
          slotStarts nextPos s.stream.links[d] t) ∧
        (r.segment = .trailer → r.segmentNo = n → r.state = .draining →
          off t ∧ PanelSent d .stripClear s t) ∧
        (r.segment ≠ .trailer ∨ r.segmentNo ≠ n →
          t = { s with bus := { s.bus with endReports := rest } }))

/-- TAKEOVER_BEGIN, TAKEOVER_END, STRIP_REPORT and SHOW_CHANGED_REPORT (R140 to R143): in ON a takeover
suspends what is on air and its end resumes it within the limit, or past the limit ends it and starts
the next slot; a strip report sends its strip. A show-changed report for a row of a page on air that
has no ENDED mark sends ROW_UPDATE with state ENDED and marks the row where the show has left the listed
set, that of a dropped show too, whatever its slot holds by then; otherwise it sends the row's
present fields where it names state, start, title_code, auditorium, band, seats_shown or plus_marker,
and nothing where it names none of them. A report for any other row sends nothing. A row of a page
composed since the drop shows the slot's new show. The model's choice: nothing is sent for listed alone
of a show in the listed set (log entry 69); the fields of a row marked ENDED over a reloaded slot (log
entry 52), the count of drop reports that waited at the composition, lowered as each is taken (log entry 54);
and page and pages staying at a HOUSE slot that follows a takeover (log entry 28). -/
def Obligations.PanelsFollowTakeoversAndReports : Prop :=
  ∀ (s : State) (d : DisplayIx) (rest : List PanelSignal),
    let r := s.displays.recs[d]
    (s.bus.signals = .takeoverBegin d :: rest →
      ∃ t, exec .takeoverBegin s = .next t ∧ OtherDisplaysStay d s t ∧ t.bus.signals = rest ∧
        (r.state ≠ .on → t.displays.recs[d] = { r with takeover := true } ∧
          t.stream.links = s.stream.links) ∧
        (r.state = .on → PanelSent d .takeoverBegin s t ∧
          t.displays.recs[d].takeover = true ∧
          (r.segment.onAir = true →
            t.displays.recs[d].suspended = true ∧
              t.displays.recs[d].suspendStart = some s.clock.partSeconds ∧
              t.displays.recs[d].dwellLeft = r.dwellLeft ∧
              t.bus.streamReqs = s.bus.streamReqs ++
                if r.segment = .trailer then [.hold d r.segmentNo] else []) ∧
          (r.segment.onAir = false → t.displays.recs[d] = { r with takeover := true }))) ∧
    (s.bus.signals = .takeoverEnd d :: rest →
      ∃ t, exec .takeoverEnd s = .next t ∧ OtherDisplaysStay d s t ∧ t.bus.signals = rest ∧
        t.displays.recs[d].takeover = false ∧
        (r.state ≠ .on → t.displays.recs[d] = { r with takeover := false } ∧
          t.stream.links = s.stream.links) ∧
        (∀ start, r.state = .on → r.suspended = true → r.suspendStart = some start →
          s.clock.partSeconds - start < s.displays.resumeLimit →
          t.displays.recs[d] =
              { r with takeover := false, suspended := false, suspendStart := none } ∧
            PanelSent d .takeoverEnd s t ∧
            t.bus.streamReqs = s.bus.streamReqs ++
              if r.segment = .trailer then [.resume d r.segmentNo] else []) ∧
        (∀ start, r.state = .on → r.suspended = true → r.suspendStart = some start →
          s.displays.resumeLimit ≤ s.clock.partSeconds - start →
          SlotStarts d (if r.setup.loop.length ≤ r.loopPos + 1 then 0 else r.loopPos + 1)
              (handed r.linkUp [.takeoverEnd] s.stream.links[d]) s t ∧
            t.bus.streamReqs = s.bus.streamReqs ++
              if r.segment = .trailer then [.abandon d r.segmentNo] else [])) ∧
    (∀ top, s.bus.signals = .strip d top :: rest →
      ∃ t, exec .stripReport s = .next t ∧ t.bus.signals = rest ∧ t.displays = s.displays ∧
        (r.state = .on →
          PanelSent d
            (match top with
              | some (ref, cls, content) => .strip ref cls content
              | none => .stripClear) s t) ∧
        (r.state ≠ .on → t.stream = s.stream)) ∧
    (∀ (x : ShowReport) (others : List ShowReport), s.bus.showReports = x :: others →
      let passed (r : DisplayRec) : DisplayRec :=
        if x.dropped = true then { r with renewed := r.renewed.erase x.showIx } else r
      let gone : Prop := x.dropped = true ∧ x.showIx ∉ r.renewed ∨
        .listed ∈ x.fields ∧ ¬ InListedSet s.shows.recs[x.showIx]
      let displayed : List ReportField :=
        [.state, .start, .titleCode, .auditorium, .band, .seatsShown, .plusMarker]
      let onPage : Prop := r.segment = .board ∧ ⟨x.showIx, false⟩ ∈ r.pageRows
      ∃ t, exec .showChangedReport s = .next t ∧ t.bus.showReports = others ∧
        let sent (row : RowData) : Prop :=
          t.stream.links[d] = handed r.linkUp [.rowUpdate row] s.stream.links[d]
        let untouched : Prop :=
          t.displays.recs[d] = passed r ∧ t.stream.links[d] = s.stream.links[d]
        (¬ onPage → untouched) ∧
        (onPage → gone →
          sent { rowShown s x.showIx with stateCode := 8 } ∧
            t.displays.recs[d] = passed { r with
              pageRows := r.pageRows.map fun p =>
                if p.showIx = x.showIx then { p with ended := true } else p }) ∧
        (onPage → ¬ gone → (∃ f ∈ x.fields, f ∈ displayed) →
          sent (rowShown s x.showIx) ∧ t.displays.recs[d] = passed r) ∧
        (onPage → ¬ gone → (∀ f ∈ x.fields, f ∉ displayed) → untouched))

/-! ## Streams -/

/-- START_REQUEST, HOLD_REQUEST, RESUME_REQUEST, END_REQUEST, DRAIN_REQUEST and ABANDON_REQUEST (R148, R155,
R156): a start fills from the first byte of the clip, or is turned away with its reports while a
segment runs; hold, resume, end and abandon act on the segment they name and on no other; a marked
segment with no burst issued ends at once with both reports, at its start into a DRAINING feature
and at its resume too, an abandoned one with its release alone; a drain marks every segment of its feature, and
ends at once those with no burst issued and not held. The model's choice: the reports of several
displays that a drain ends go in index order (log entry 62); a held segment that
is marked keeps a burst in its retry wait (log entry 32), a start with pacing held of a DRAINING feature
waits for its resume or an abandon (log entry 75), and what `ended` says of the record beside
phase, buffer, burst and stream_no (log entry 51). -/
def Obligations.StreamRequestsActOnTheNamedSegment : Prop :=
  ∀ (s : State) (d : DisplayIx) (n : Nat) (rest : List StreamRequest),
    let r := s.stream.recs[d]
    let named : Prop := r.phase ≠ .idle ∧ r.segmentNo = n
    let popped : State := { s with bus := { s.bus with streamReqs := rest } }
    let finished (cause : ReleaseCause) (t : State) : Prop :=
      t.stream.recs[d] = r.ended ∧
        t.bus.streamReleases = s.bus.streamReleases ++ [⟨r.feature, cause⟩]
    let marked (t : State) : Prop :=
      (r.held = false → r.issued = false → finished .abandoned t ∧
        t.bus.endReports = s.bus.endReports ++ [⟨d, r.segmentNo⟩]) ∧
      (r.held = true ∨ r.issued = true →
        t.stream.recs[d] = { r with endMarked := true, requesting := false } ∧
          t.bus.endReports = s.bus.endReports)
    (∀ f low high held, s.bus.streamReqs = .start d f n low high held :: rest →
      ∃ t, exec .startRequest s = .next t ∧ OtherStreamsStay d s t ∧ t.bus.streamReqs = rest ∧
        (r.phase ≠ .idle → t.stream = s.stream ∧
          t.bus.endReports = s.bus.endReports ++ [⟨d, n⟩] ∧
          t.bus.streamReleases = s.bus.streamReleases ++ [⟨f, .abandoned⟩]) ∧
        (r.phase = .idle → s.air.features[f].state ≠ .draining → 0 < low → 0 < high →
          0 < s.air.features[f].totalBytes →
          t.stream.recs[d] =
            { r.ended with
              phase := .filling, segmentNo := n, feature := f, lowMark := 1024 * low,
              highMark := 1024 * high, chunkIx := 0, chunkOff := 0, bytesFetched := 0,
              bytesSent := 0, allowance := 0, carry := 0, held := held, requesting := true }) ∧
        (r.phase = .idle → s.air.features[f].state = .draining →
          (held = false →
            t.stream.recs[d].phase = .idle ∧ t.stream.recs[d].requesting = false ∧
              t.bus.endReports = s.bus.endReports ++ [⟨d, n⟩] ∧
              t.bus.streamReleases = s.bus.streamReleases ++ [⟨f, .abandoned⟩]) ∧
          (held = true →
            t.stream.recs[d].phase = .filling ∧ t.stream.recs[d].segmentNo = n ∧
              t.stream.recs[d].endMarked = true ∧ t.stream.recs[d].held = true ∧
              t.stream.recs[d].requesting = false ∧ t.bus.endReports = s.bus.endReports ∧
              t.bus.streamReleases = s.bus.streamReleases))) ∧
    (s.bus.streamReqs = .hold d n :: rest →
      (¬ named → exec .holdRequest s = .next popped) ∧
      (named → ∃ t, exec .holdRequest s = .next t ∧ OtherStreamsStay d s t ∧ t.bus = popped.bus ∧
        t.stream.recs[d] =
          { r with held := true, inUnderrun := false, underrunStart := none,
                   underrunDue := false })) ∧
    (s.bus.streamReqs = .resume d n :: rest →
      (¬ named → exec .resumeRequest s = .next popped) ∧
      (named → r.endMarked = false →
        ∃ t, exec .resumeRequest s = .next t ∧ OtherStreamsStay d s t ∧ t.bus = popped.bus ∧
          t.stream.recs[d] = { r with held := false, allowance := 0, carry := 0 }) ∧
      (named → r.endMarked = true →
        ∃ t, exec .resumeRequest s = .next t ∧ OtherStreamsStay d s t ∧ t.bus.streamReqs = rest ∧
          (r.issued = false →
            t.stream.recs[d] = { r.ended with allowance := 0, carry := 0 } ∧
              t.bus.streamReleases = s.bus.streamReleases ++ [⟨r.feature, .abandoned⟩] ∧
              t.bus.endReports = s.bus.endReports ++ [⟨d, r.segmentNo⟩]) ∧
          (r.issued = true → t.bus = popped.bus ∧
            t.stream.recs[d] = { r with held := false, allowance := 0, carry := 0 }))) ∧
    (s.bus.streamReqs = .finish d n :: rest →
      (¬ named → exec .endRequest s = .next popped) ∧
      (named → ∃ t, exec .endRequest s = .next t ∧ OtherStreamsStay d s t ∧
        t.bus.streamReqs = rest ∧ marked t)) ∧
    (s.bus.streamReqs = .abandon d n :: rest →
      (¬ named → exec .abandonRequest s = .next popped) ∧
      (named → ∃ t, exec .abandonRequest s = .next t ∧ OtherStreamsStay d s t ∧
        t.bus.streamReqs = rest ∧ finished .abandoned t ∧ t.bus.endReports = s.bus.endReports)) ∧
    (∀ f others, s.bus.drainReqs = f :: others →
      let ends (e : DisplayIx) : Bool :=
        s.stream.recs[e].phase != .idle && s.stream.recs[e].feature == f &&
          !s.stream.recs[e].held && !s.stream.recs[e].issued
      ∃ t, exec .drainRequest s = .next t ∧ t.bus.drainReqs = others ∧
        t.bus.endReports = s.bus.endReports ++
          ((List.finRange 16).filter ends).map (fun e => ⟨e, s.stream.recs[e].segmentNo⟩) ∧
        t.bus.streamReleases = s.bus.streamReleases ++
          ((List.finRange 16).filter ends).map (fun _ => ⟨f, .abandoned⟩) ∧
        (r.phase = .idle ∨ r.feature ≠ f → t.stream.recs[d] = r) ∧
        (r.phase ≠ .idle → r.feature = f →
          t.stream.recs[d] =
            if r.held = true ∨ r.issued = true then
              { r with endMarked := true, requesting := false }
            else r.ended))

/-- FETCH_GRANT, BURST_DONE, BURST_FAILED and BURST_RETRY_EXPIRY (R149 to R152): the next requesting
display after the last grant gets one burst, of at most 8,192 bytes, within its chunk and its buffer's
room; its bytes join the buffer and move the fetch position, and requesting is tested again: cleared
where the high mark or the clip's end is reached, set below the low mark, otherwise as it was (R149); a
failed burst waits and is read again, in the same event where the wait drawn is 0, and at the limit the
clip is given up; the failure of a marked segment not held ends it. The model's choice: the burst of a
held segment that is marked is read again all the same (log entry 32), and what `ended` says of the
record beside phase, buffer, burst and stream_no (log entry 51). -/
def Obligations.BurstsFillTheBuffer : Prop :=
  ∀ (s : State) (d : DisplayIx),
    let r := s.stream.recs[d]
    let f := s.air.features[r.feature]
    (∀ c : Chunk, nextGrant s = some d → f.chunks[r.chunkIx]? = some c →
      s.reads.queue.any (·.granted) = false →
      let size := min 8192 (min (131072 - r.buffer.length) (c.len - r.chunkOff))
      ∃ t, exec .fetchGrant s = .next t ∧ OtherStreamsStay d s t ∧ t.stream.lastGrant = d ∧
        t.stream.recs[d] = { r with burst := some ⟨c.addr + r.chunkOff, size, 0, none⟩ } ∧
        Outstanding ⟨.burst d r.streamNo, c.addr + r.chunkOff, size, true⟩ t) ∧
    (s.reads.queue.any (·.granted) = true ∨ nextGrant s = none →
      exec .fetchGrant s = .next s) ∧
    (∀ (slot : ReadSlot) (bytes : List Byte) (no addr : Nat) (g : Bool), 1 ≤ bytes.length →
      bytes.length ≤ 8192 →
      s.reads.slots[slot] = some ⟨.burst d no, addr, bytes.length, g⟩ →
      ∃ t, exec (.burstDone slot bytes) s = .next t ∧ OtherStreamsStay d s t ∧
        (no ≠ r.streamNo ∨ r.issued = false → t = freeRead slot s) ∧
        (no = r.streamNo → r.issued = true → r.endMarked = true → r.held = false →
          t.stream.recs[d] = r.ended ∧ t.bus.endReports = s.bus.endReports ++ [⟨d, r.segmentNo⟩] ∧
            t.bus.streamReleases = s.bus.streamReleases ++ [⟨r.feature, .abandoned⟩]) ∧
        (no = r.streamNo → r.issued = true → r.endMarked = false ∨ r.held = true →
          let q := t.stream.recs[d]
          q.buffer = r.buffer ++ bytes ∧ q.bytesFetched = r.bytesFetched + bytes.length ∧
            q.burst = none ∧ q.inUnderrun = false ∧ q.streamNo = r.streamNo ∧
            q.bytesSent = r.bytesSent ∧
            q.requesting =
              (if r.endMarked = true ∨ r.phase = .idle then false
               else if r.highMark ≤ r.buffer.length + bytes.length ∨
                 f.totalBytes ≤ r.bytesFetched + bytes.length then false
               else if r.buffer.length + bytes.length < r.lowMark then true
               else r.requesting) ∧
            (∀ c : Chunk, f.chunks[r.chunkIx]? = some c →
              (c.len ≤ r.chunkOff + bytes.length →
                q.chunkIx = r.chunkIx + 1 ∧ q.chunkOff = 0) ∧
              (r.chunkOff + bytes.length < c.len →
                q.chunkIx = r.chunkIx ∧ q.chunkOff = r.chunkOff + bytes.length)) ∧
            (q.phase = .playing ↔ r.phase = .playing ∨
              r.phase = .filling ∧ (r.highMark ≤ r.buffer.length + bytes.length ∨
                f.totalBytes ≤ r.bytesFetched + bytes.length)))) ∧
    (∀ (slot : ReadSlot) (b : Burst) (addr len : Nat) (g : Bool),
      s.reads.slots[slot] = some ⟨.burst d r.streamNo, addr, len, g⟩ → r.burst = some b →
      b.wait = none →
      let n := b.failures + 1
      let wait := s.stream.lfsr.toNat % 2 ^ min n s.stream.cfg.retry.backoffCap
      ∃ t, exec (.burstFailed slot) s = .next t ∧ OtherStreamsStay d s t ∧
        (r.endMarked = true → r.held = false →
          t.stream.recs[d] = r.ended ∧ t.bus.endReports = s.bus.endReports ++ [⟨d, r.segmentNo⟩] ∧
            t.bus.streamReleases = s.bus.streamReleases ++ [⟨r.feature, .abandoned⟩]) ∧
        (r.endMarked = false ∨ r.held = true → n < s.stream.cfg.retry.retryLimit →
          t.stream.recs[d] =
            { r with burst := some { b with
                failures := n, wait := if wait = 0 then none else some wait } } ∧
          t.bus = s.bus ∧
          (wait = 0 → Outstanding ⟨.burst d r.streamNo, b.addr, b.size, false⟩ t)) ∧
        (r.endMarked = false ∨ r.held = true → s.stream.cfg.retry.retryLimit ≤ n →
          t.stream.recs[d] = r.ended ∧
            t.bus.streamReleases = s.bus.streamReleases ++ [⟨r.feature, .clipFault⟩] ∧
            t.bus.endReports = s.bus.endReports ++ [⟨d, r.segmentNo⟩] ∧
            Raised .streamEngine ⟨.clipAbandoned, .feature r.feature.val, noCapture⟩ s t)) ∧
    (∀ b : Burst, r.burst = some b → b.wait = some 0 →
      ∃ t, exec (.burstRetryExpiry d) s = .next t ∧ OtherStreamsStay d s t ∧
        t.stream.recs[d] = { r with burst := some { b with wait := none } } ∧
        Outstanding ⟨.burst d r.streamNo, b.addr, b.size, false⟩ t)

/-- PACING_MILLISECOND, SEND, UNDERRUN_LIMIT and PANEL_TX_DONE (R115, R147, R152 to R154, R157, R163,
R165): the LFSR steps, every retry wait of a control read, a validation read or a burst is one
millisecond shorter, and an allowance grows by the byte rate, to at most 1,024, with the remainder
carried; a due send takes bytes from the head of the buffer and tests requesting again, set where
occupancy falls below the low mark with bytes still to fetch (R149), and the last of the clip ends the
segment; one that finds it empty begins an underrun episode and sends HOLD_FRAME; an episode at its
limit gives the clip up; a transmitter that is done sends its next frame, control frames first. The
model's choice: retry waits, the poll timer and the pause timer are milliseconds left, counted down here
(log entry 4), a mark says that an episode is at its limit (log entry 17), and what `ended` says of the
record beside phase, buffer, burst and stream_no (log entry 51). -/
def Obligations.SendsDrainTheBuffer : Prop :=
  ∀ (s : State) (d : DisplayIx),
    let r := s.stream.recs[d]
    let total := s.air.features[r.feature].totalBytes
    let rate := s.air.features[r.feature].byteRate
    let size := min 1024 (total - r.bytesSent)
    let due : Prop := r.phase = .playing ∧ r.held = false ∧ size ≤ r.allowance ∧
      s.stream.links[d].clip = none ∧ r.inUnderrun = false
    (∃ t, exec .pacingMillisecond s = .next t ∧ t.stream.lfsr = lfsrStep s.stream.lfsr ∧
      t.stream.recs[d].allowance =
        (if r.phase = .playing ∧ r.held = false ∧ r.inUnderrun = false then
          min 1024 (r.allowance + (rate + r.carry) / 1000)
         else r.allowance) ∧
      t.stream.recs[d].carry =
        (if r.phase = .playing ∧ r.held = false ∧ r.inUnderrun = false then
          if 1024 ≤ r.allowance + (rate + r.carry) / 1000 then 0 else (rate + r.carry) % 1000
         else r.carry) ∧
      t.stream.recs[d].buffer = r.buffer ∧ t.stream.recs[d].bytesSent = r.bytesSent ∧
      (let less (w : Option Nat) : Option Nat := w.map (· - 1)
      t.win = { s.win with
          pollTimer := less s.win.pollTimer
          anchorRead := s.win.anchorRead.map fun c => { c with wait := less c.wait }
          markRead := s.win.markRead.map fun c => { c with wait := less c.wait }
          flight := s.win.flight.map fun x => { x with wait := less x.wait } } ∧
        t.stream.recs[d].burst = r.burst.map (fun b => { b with wait := less b.wait }) ∧
        (∀ k : FeatureIx, t.air.features[k] =
          { s.air.features[k] with
            validation := s.air.features[k].validation.map fun v =>
              { v with wait := less v.wait } }) ∧
        t.desks = { s.desks with pauseTimer := less s.desks.pauseTimer })) ∧
    (¬ due → exec (.send d) s = .next s) ∧
    (due → ∃ t, exec (.send d) s = .next t ∧ OtherStreamsStay d s t ∧ OtherLinksStay d s t ∧
      (r.buffer = [] →
        t.stream.recs[d] =
            { r with
              inUnderrun := true, underrunStart := some s.clock.partSeconds,
              underrunCount := min (r.underrunCount + 1) 65535 } ∧
          t.stream.links[d] =
            (if s.displays.recs[d].linkUp = true then
              { s.stream.links[d] with clip := some (.holdFrame r.segmentNo r.bytesSent) }.kick
             else s.stream.links[d]) ∧
          Raised .streamEngine ⟨.streamUnderrun, .display d.val, noCapture⟩ s t) ∧
      (r.buffer ≠ [] →
        let n := min size r.buffer.length
        (s.displays.recs[d].linkUp = true →
          t.stream.links[d] = { s.stream.links[d] with
            clip := some (.clipData r.segmentNo (decide (total ≤ r.bytesSent + n)) r.bytesSent
              (r.buffer.take n)) }.kick) ∧
        (r.bytesSent + n < total →
          t.stream.recs[d].buffer = r.buffer.drop n ∧
            t.stream.recs[d].bytesSent = r.bytesSent + n ∧
            t.stream.recs[d].allowance = r.allowance - n ∧ t.bus = s.bus ∧
            t.stream.recs[d].requesting =
              (if r.endMarked = true then false
               else if r.highMark ≤ r.buffer.length - n ∨ total ≤ r.bytesFetched then false
               else if r.buffer.length - n < r.lowMark then true
               else r.requesting)) ∧
        (total ≤ r.bytesSent + n →
          t.stream.recs[d].phase = .idle ∧ t.stream.recs[d].buffer = [] ∧
            t.stream.recs[d].requesting = false ∧
            t.stream.recs[d].streamNo = (r.streamNo + 1) % 65536 ∧
            t.bus.endReports = s.bus.endReports ++ [⟨d, r.segmentNo⟩] ∧
            t.bus.streamReleases = s.bus.streamReleases ++ [⟨r.feature, .ended⟩]))) ∧
    (r.inUnderrun = true → r.underrunDue = true →
      ∃ t, exec (.underrunLimit d) s = .next t ∧ OtherStreamsStay d s t ∧
        t.stream.recs[d] = r.ended ∧
        t.bus.endReports = s.bus.endReports ++ [⟨d, r.segmentNo⟩] ∧
        t.bus.streamReleases = s.bus.streamReleases ++ [⟨r.feature, .abandoned⟩] ∧
        Raised .streamEngine ⟨.clipAbandoned, .display d.val, noCapture⟩ s t) ∧
    (r.inUnderrun = false → exec (.underrunLimit d) s = .next s) ∧
    (∃ t, exec (.panelTxDone d) s = .next t ∧ OtherLinksStay d s t ∧
      t.stream.recs = s.stream.recs ∧
      (∀ f more, s.stream.links[d].control = f :: more →
        t.stream.links[d] = { s.stream.links[d] with tx := some f, control := more }) ∧
      (∀ f, s.stream.links[d].control = [] → s.stream.links[d].clip = some f →
        t.stream.links[d] = { s.stream.links[d] with tx := some f, clip := none }) ∧
      (s.stream.links[d].control = [] → s.stream.links[d].clip = none →
        t.stream.links[d] = { s.stream.links[d] with tx := none }))

/-! ## Faults -/

/-- FAULT_RAISE (R174 to R176, R178): a raise whose cause is masked for detection changes nothing; otherwise
it fills the empty first record of its severity, or joins the next record's set and count; the
severity's STATUS bit is set unless the cause is masked for signalling; the other severity's records
and every setting stay. -/
def Obligations.RaisesAreRecorded : Prop :=
  ∀ (s : State) (who : Raiser) (x : Raise) (rest : List (Raiser × Raise)),
    s.bus.raises = (who, x) :: rest →
    let c := s.faults.cfg[x.cause.code]
    let before := s.faults.of c.severity
    ∃ t, exec (.faultRaise who) s = .next t ∧ t.bus = { s.bus with raises := rest } ∧
      t.faults.cfg = s.faults.cfg ∧
      (∀ other, other ≠ c.severity → t.faults.of other = s.faults.of other) ∧
      (c.detectMask = true → t.faults = s.faults ∧ t.win = s.win) ∧
      (c.detectMask = false →
        (before.first = none →
          t.faults.of c.severity =
            { before with
              first := some ⟨x.cause, x.source, s.clock.lobby.getD 0, x.capture⟩ }) ∧
        (before.first ≠ none →
          (t.faults.of c.severity).first = before.first ∧
            (t.faults.of c.severity).count = min (before.count + 1) 65535 ∧
            ∀ y, y ∈ (t.faults.of c.severity).causes ↔ y ∈ before.causes ∨ y = x.cause) ∧
        t.win.causes =
          (if c.signalMask = true then s.win.causes
           else if c.severity = .severe then { s.win.causes with severe := true }
           else { s.win.causes with minor := true }))

/-- FAULT_CLEAR carries the severity in field 1; any other value is refused BAD_FIELD with detail 1 and
nothing changes; a taken one empties that severity's first record and next record, with the next
record's count as detail, rewrites no mirror record where both were empty, and changes neither
STATUS, nor the other severity's records, nor any cause's settings (R177). -/
def Obligations.FaultClearEmptiesOneSeverity : Prop :=
  ∀ (s : State) (f : Flight), HandedTo .faultClear f s →
    let value := fieldAt (entryBody f.bytes) 0 1
    ∃ t, exec .faultClear s = .next t ∧
      readRegister t.win 0x08#12 = readRegister s.win 0x08#12 ∧ t.win.causes = s.win.causes ∧
      t.faults.cfg = s.faults.cfg ∧ t.bus = s.bus ∧
      (1 < value → t.faults = s.faults ∧ t.win.versions = s.win.versions ∧
        EndsWith .badField 1 f t) ∧
      ∀ sev : Severity, value = (match sev with | .severe => 0 | .minor => 1) →
        t.faults.of sev = {} ∧ EndsWith .done (s.faults.of sev).count f t ∧
          (∀ other, other ≠ sev → t.faults.of other = s.faults.of other) ∧
          (s.faults.of sev = {} → t.win.versions = s.win.versions ∧
            t.win.writeQ = placeIn (outcomeWrite s f ⟨.done, 0, []⟩) s.win.writeQ)
end

