-- ==== Sys2Proof/Laws/Memory.lean ====
section
/-! SUPPORT. Laws of host memory: a read after a write, and that every write keeps the canonical
form. -/

namespace Sys2Proof.Machine

@[simp] theorem Memory.read_write_same (m : Memory) (a : Nat) (b : Byte) :
    (m.write a b).read a = some b := by
  induction m with
  | nil => simp [Memory.write, Memory.read]
  | cons c rest ih =>
    simp only [Memory.write]
    split
    · simp [Memory.read]
    · split
      · simp [Memory.read]
      · rename_i _ h
        have : ¬ c.1 = a := fun e => h e.symm
        simp [Memory.read, this, ih]

theorem Memory.read_write_other (m : Memory) (a x : Nat) (b : Byte) (h : x ≠ a) :
    (m.write a b).read x = m.read x := by
  have ha : ¬ a = x := fun e => h e.symm
  induction m with
  | nil => simp [Memory.write, Memory.read, ha]
  | cons c rest ih =>
    simp only [Memory.write]
    split
    · simp [Memory.read, ha]
    · split
      · rename_i _ e
        subst e
        simp [Memory.read, ha]
      · simp [Memory.read, ih]

theorem Memory.read_writeBytes_outside (bs : List Byte) (m : Memory) (a x : Nat)
    (h : x < a ∨ a + bs.length ≤ x) : (m.writeBytes a bs).read x = m.read x := by
  induction bs generalizing m a with
  | nil => simp [Memory.writeBytes]
  | cons b rest ih =>
    simp only [List.length_cons] at h
    simp only [Memory.writeBytes]
    rw [ih _ _ (by omega), Memory.read_write_other _ _ _ _ (by omega)]

theorem Memory.read_writeBytes_inside (bs : List Byte) (m : Memory) (a k : Nat)
    (h : k < bs.length) : (m.writeBytes a bs).read (a + k) = some bs[k] := by
  induction bs generalizing m a k with
  | nil => simp at h
  | cons b rest ih =>
    simp only [Memory.writeBytes]
    cases k with
    | zero => rw [Memory.read_writeBytes_outside _ _ _ _ (by omega)]; simp
    | succ k =>
      have h' : k < rest.length := by simpa using h
      have := ih (m.write a b) (a + 1) k h'
      simpa [Nat.add_assoc, Nat.add_comm 1 k] using this

theorem Memory.risesFrom_write (m : Memory) (low : Option Nat) (a : Nat) (b : Byte)
    (hl : low.all (· < a) = true) (h : m.risesFrom low = true) :
    (m.write a b).risesFrom low = true := by
  induction m generalizing low with
  | nil => simpa [Memory.write, Memory.risesFrom] using hl
  | cons c rest ih =>
    simp only [Memory.risesFrom, Bool.and_eq_true] at h
    simp only [Memory.write]
    split
    · rename_i hc
      simp [Memory.risesFrom, hl, hc, h.2]
    · split
      · rename_i _ e
        subst e
        simp [Memory.risesFrom, hl, h.2]
      · rename_i h1 h2
        have : c.1 < a := by omega
        simp only [Memory.risesFrom, h.1, Bool.true_and]
        exact ih _ (by simpa using this) h.2

@[simp] theorem Memory.wf_write (m : Memory) (a : Nat) (b : Byte) (h : m.wf = true) :
    (m.write a b).wf = true :=
  Memory.risesFrom_write m none a b rfl h

@[simp] theorem Memory.wf_writeBytes (bs : List Byte) (m : Memory) (a : Nat) (h : m.wf = true) :
    (m.writeBytes a bs).wf = true := by
  induction bs generalizing m a with
  | nil => simpa [Memory.writeBytes] using h
  | cons b rest ih => exact ih _ _ (Memory.wf_write m a b h)

@[simp] theorem Memory.wf_writeParts (ps : List (Nat × List Byte)) (m : Memory) (h : m.wf = true) :
    (m.writeParts ps).wf = true := by
  induction ps generalizing m with
  | nil => simpa [Memory.writeParts] using h
  | cons p rest ih => exact ih _ (Memory.wf_writeBytes p.2 m p.1 h)

theorem Memory.read_writeParts_outside (ps : List (Nat × List Byte)) (m : Memory) (x : Nat)
    (h : ∀ p ∈ ps, x < p.1 ∨ p.1 + p.2.length ≤ x) : (m.writeParts ps).read x = m.read x := by
  induction ps generalizing m with
  | nil => simp [Memory.writeParts]
  | cons p rest ih =>
    simp only [Memory.writeParts]
    rw [ih _ fun q hq => h q (by simp [hq]), Memory.read_writeBytes_outside _ _ _ _ (h p (by simp))]

/-- The reset memory has the canonical form. -/
theorem reset_memory_wf : State.reset.hostMem.wf = true := by decide

end Sys2Proof.Machine
end

