-- ==== Sys2Proof/Laws/Frames.lean ====
section
/-! SUPPORT. Which blocks each shared operation leaves alone: one lemma per operation, whose parts are
all simp rules, so that no proof unfolds an operation to see that another block is untouched. -/

namespace Sys2Proof.Machine

@[simp] theorem foldl_pending {α : Type} (g : State → α → State) (h : ∀ s x, (g s x).pending = s.pending)
    (l : List α) (s : State) : (l.foldl g s).pending = s.pending := by
  induction l generalizing s with
  | nil => rfl
  | cons a l ih => simp [ih, h]

@[simp] theorem foldl_win {α : Type} (g : State → α → State) (h : ∀ s x, (g s x).win = s.win)
    (l : List α) (s : State) : (l.foldl g s).win = s.win := by
  induction l generalizing s with
  | nil => rfl
  | cons a l ih => simp [ih, h]

@[simp] theorem foldl_clock {α : Type} (g : State → α → State) (h : ∀ s x, (g s x).clock = s.clock)
    (l : List α) (s : State) : (l.foldl g s).clock = s.clock := by
  induction l generalizing s with
  | nil => rfl
  | cons a l ih => simp [ih, h]

@[simp] theorem foldl_shows {α : Type} (g : State → α → State) (h : ∀ s x, (g s x).shows = s.shows)
    (l : List α) (s : State) : (l.foldl g s).shows = s.shows := by
  induction l generalizing s with
  | nil => rfl
  | cons a l ih => simp [ih, h]

@[simp] theorem foldl_desks {α : Type} (g : State → α → State) (h : ∀ s x, (g s x).desks = s.desks)
    (l : List α) (s : State) : (l.foldl g s).desks = s.desks := by
  induction l generalizing s with
  | nil => rfl
  | cons a l ih => simp [ih, h]

@[simp] theorem foldl_arb {α : Type} (g : State → α → State) (h : ∀ s x, (g s x).arb = s.arb)
    (l : List α) (s : State) : (l.foldl g s).arb = s.arb := by
  induction l generalizing s with
  | nil => rfl
  | cons a l ih => simp [ih, h]

@[simp] theorem foldl_air {α : Type} (g : State → α → State) (h : ∀ s x, (g s x).air = s.air)
    (l : List α) (s : State) : (l.foldl g s).air = s.air := by
  induction l generalizing s with
  | nil => rfl
  | cons a l ih => simp [ih, h]

@[simp] theorem foldl_displays {α : Type} (g : State → α → State) (h : ∀ s x, (g s x).displays = s.displays)
    (l : List α) (s : State) : (l.foldl g s).displays = s.displays := by
  induction l generalizing s with
  | nil => rfl
  | cons a l ih => simp [ih, h]

@[simp] theorem foldl_stream {α : Type} (g : State → α → State) (h : ∀ s x, (g s x).stream = s.stream)
    (l : List α) (s : State) : (l.foldl g s).stream = s.stream := by
  induction l generalizing s with
  | nil => rfl
  | cons a l ih => simp [ih, h]

@[simp] theorem foldl_faults {α : Type} (g : State → α → State) (h : ∀ s x, (g s x).faults = s.faults)
    (l : List α) (s : State) : (l.foldl g s).faults = s.faults := by
  induction l generalizing s with
  | nil => rfl
  | cons a l ih => simp [ih, h]

@[simp] theorem foldl_reads {α : Type} (g : State → α → State) (h : ∀ s x, (g s x).reads = s.reads)
    (l : List α) (s : State) : (l.foldl g s).reads = s.reads := by
  induction l generalizing s with
  | nil => rfl
  | cons a l ih => simp [ih, h]

@[simp] theorem foldl_bus {α : Type} (g : State → α → State) (h : ∀ s x, (g s x).bus = s.bus)
    (l : List α) (s : State) : (l.foldl g s).bus = s.bus := by
  induction l generalizing s with
  | nil => rfl
  | cons a l ih => simp [ih, h]

@[simp] theorem foldl_hostMem {α : Type} (g : State → α → State) (h : ∀ s x, (g s x).hostMem = s.hostMem)
    (l : List α) (s : State) : (l.foldl g s).hostMem = s.hostMem := by
  induction l generalizing s with
  | nil => rfl
  | cons a l ih => simp [ih, h]

@[simp] theorem foldl_freeCount {α : Type} (g : State → α → State) (h : ∀ s x, (g s x).freeCount = s.freeCount)
    (l : List α) (s : State) : (l.foldl g s).freeCount = s.freeCount := by
  induction l generalizing s with
  | nil => rfl
  | cons a l ih => simp [ih, h]

@[simp] theorem raise_keeps (who : Raiser) (cause : FaultCause) (source : FaultSource) (capture : List Byte) (s : State) :
    (raise who cause source capture s).pending = s.pending ∧
      (raise who cause source capture s).win = s.win ∧
      (raise who cause source capture s).clock = s.clock ∧
      (raise who cause source capture s).shows = s.shows ∧
      (raise who cause source capture s).desks = s.desks ∧
      (raise who cause source capture s).arb = s.arb ∧
      (raise who cause source capture s).air = s.air ∧
      (raise who cause source capture s).displays = s.displays ∧
      (raise who cause source capture s).stream = s.stream ∧
      (raise who cause source capture s).faults = s.faults ∧
      (raise who cause source capture s).reads = s.reads ∧
      (raise who cause source capture s).hostMem = s.hostMem ∧
      (raise who cause source capture s).freeCount = s.freeCount := by
  simp only [raise]
  simp

@[simp] theorem placeWrite_keeps (w : WindowWrite) (s : State) :
    (placeWrite w s).pending = s.pending ∧
      (placeWrite w s).clock = s.clock ∧
      (placeWrite w s).shows = s.shows ∧
      (placeWrite w s).desks = s.desks ∧
      (placeWrite w s).arb = s.arb ∧
      (placeWrite w s).air = s.air ∧
      (placeWrite w s).displays = s.displays ∧
      (placeWrite w s).stream = s.stream ∧
      (placeWrite w s).faults = s.faults ∧
      (placeWrite w s).reads = s.reads ∧
      (placeWrite w s).bus = s.bus ∧
      (placeWrite w s).hostMem = s.hostMem ∧
      (placeWrite w s).freeCount = s.freeCount := by
  simp only [placeWrite]
  repeat' split
  all_goals simp

@[simp] theorem placeAnchor_keeps (a : AnchorWord) (s : State) :
    (placeAnchor a s).pending = s.pending ∧
      (placeAnchor a s).clock = s.clock ∧
      (placeAnchor a s).shows = s.shows ∧
      (placeAnchor a s).desks = s.desks ∧
      (placeAnchor a s).arb = s.arb ∧
      (placeAnchor a s).air = s.air ∧
      (placeAnchor a s).displays = s.displays ∧
      (placeAnchor a s).stream = s.stream ∧
      (placeAnchor a s).faults = s.faults ∧
      (placeAnchor a s).reads = s.reads ∧
      (placeAnchor a s).bus = s.bus ∧
      (placeAnchor a s).hostMem = s.hostMem ∧
      (placeAnchor a s).freeCount = s.freeCount := by
  simp only [placeAnchor]
  simp

@[simp] theorem handMirror_keeps (id : MirrorId) (s : State) :
    (handMirror id s).pending = s.pending ∧
      (handMirror id s).clock = s.clock ∧
      (handMirror id s).shows = s.shows ∧
      (handMirror id s).desks = s.desks ∧
      (handMirror id s).arb = s.arb ∧
      (handMirror id s).air = s.air ∧
      (handMirror id s).displays = s.displays ∧
      (handMirror id s).stream = s.stream ∧
      (handMirror id s).faults = s.faults ∧
      (handMirror id s).reads = s.reads ∧
      (handMirror id s).bus = s.bus ∧
      (handMirror id s).hostMem = s.hostMem ∧
      (handMirror id s).freeCount = s.freeCount := by
  simp only [handMirror]
  repeat' split
  all_goals simp

@[simp] theorem handAll_keeps (ids : List MirrorId) (s : State) :
    (handAll ids s).pending = s.pending ∧
      (handAll ids s).clock = s.clock ∧
      (handAll ids s).shows = s.shows ∧
      (handAll ids s).desks = s.desks ∧
      (handAll ids s).arb = s.arb ∧
      (handAll ids s).air = s.air ∧
      (handAll ids s).displays = s.displays ∧
      (handAll ids s).stream = s.stream ∧
      (handAll ids s).faults = s.faults ∧
      (handAll ids s).reads = s.reads ∧
      (handAll ids s).bus = s.bus ∧
      (handAll ids s).hostMem = s.hostMem ∧
      (handAll ids s).freeCount = s.freeCount := by
  simp only [handAll]
  simp

@[simp] theorem setRunState_keeps (r : RunState) (c : StallCause) (s : State) :
    (setRunState r c s).pending = s.pending ∧
      (setRunState r c s).clock = s.clock ∧
      (setRunState r c s).shows = s.shows ∧
      (setRunState r c s).desks = s.desks ∧
      (setRunState r c s).arb = s.arb ∧
      (setRunState r c s).air = s.air ∧
      (setRunState r c s).displays = s.displays ∧
      (setRunState r c s).stream = s.stream ∧
      (setRunState r c s).faults = s.faults ∧
      (setRunState r c s).reads = s.reads ∧
      (setRunState r c s).bus = s.bus ∧
      (setRunState r c s).hostMem = s.hostMem ∧
      (setRunState r c s).freeCount = s.freeCount := by
  simp only [setRunState]
  repeat' split
  all_goals simp

@[simp] theorem advanceSession_keeps (s : State) :
    (advanceSession s).pending = s.pending ∧
      (advanceSession s).clock = s.clock ∧
      (advanceSession s).shows = s.shows ∧
      (advanceSession s).desks = s.desks ∧
      (advanceSession s).arb = s.arb ∧
      (advanceSession s).air = s.air ∧
      (advanceSession s).displays = s.displays ∧
      (advanceSession s).stream = s.stream ∧
      (advanceSession s).faults = s.faults ∧
      (advanceSession s).reads = s.reads ∧
      (advanceSession s).bus = s.bus ∧
      (advanceSession s).hostMem = s.hostMem ∧
      (advanceSession s).freeCount = s.freeCount := by
  simp only [advanceSession]
  simp

@[simp] theorem issueRead_keeps (r : Read) (s : State) :
    (issueRead r s).pending = s.pending ∧
      (issueRead r s).win = s.win ∧
      (issueRead r s).clock = s.clock ∧
      (issueRead r s).shows = s.shows ∧
      (issueRead r s).desks = s.desks ∧
      (issueRead r s).arb = s.arb ∧
      (issueRead r s).air = s.air ∧
      (issueRead r s).displays = s.displays ∧
      (issueRead r s).stream = s.stream ∧
      (issueRead r s).faults = s.faults ∧
      (issueRead r s).bus = s.bus ∧
      (issueRead r s).hostMem = s.hostMem ∧
      (issueRead r s).freeCount = s.freeCount := by
  simp only [issueRead]
  repeat' split
  all_goals simp

@[simp] theorem freeRead_keeps (i : ReadSlot) (s : State) :
    (freeRead i s).pending = s.pending ∧
      (freeRead i s).win = s.win ∧
      (freeRead i s).clock = s.clock ∧
      (freeRead i s).shows = s.shows ∧
      (freeRead i s).desks = s.desks ∧
      (freeRead i s).arb = s.arb ∧
      (freeRead i s).air = s.air ∧
      (freeRead i s).displays = s.displays ∧
      (freeRead i s).stream = s.stream ∧
      (freeRead i s).faults = s.faults ∧
      (freeRead i s).bus = s.bus ∧
      (freeRead i s).hostMem = s.hostMem ∧
      (freeRead i s).freeCount = s.freeCount := by
  simp only [freeRead]
  simp

@[simp] theorem issueAnchorRead_keeps (s : State) :
    (issueAnchorRead s).pending = s.pending ∧
      (issueAnchorRead s).win = s.win ∧
      (issueAnchorRead s).clock = s.clock ∧
      (issueAnchorRead s).shows = s.shows ∧
      (issueAnchorRead s).desks = s.desks ∧
      (issueAnchorRead s).arb = s.arb ∧
      (issueAnchorRead s).air = s.air ∧
      (issueAnchorRead s).displays = s.displays ∧
      (issueAnchorRead s).stream = s.stream ∧
      (issueAnchorRead s).faults = s.faults ∧
      (issueAnchorRead s).bus = s.bus ∧
      (issueAnchorRead s).hostMem = s.hostMem ∧
      (issueAnchorRead s).freeCount = s.freeCount := by
  simp only [issueAnchorRead]
  simp

@[simp] theorem issueMarkRead_keeps (s : State) :
    (issueMarkRead s).pending = s.pending ∧
      (issueMarkRead s).win = s.win ∧
      (issueMarkRead s).clock = s.clock ∧
      (issueMarkRead s).shows = s.shows ∧
      (issueMarkRead s).desks = s.desks ∧
      (issueMarkRead s).arb = s.arb ∧
      (issueMarkRead s).air = s.air ∧
      (issueMarkRead s).displays = s.displays ∧
      (issueMarkRead s).stream = s.stream ∧
      (issueMarkRead s).faults = s.faults ∧
      (issueMarkRead s).bus = s.bus ∧
      (issueMarkRead s).hostMem = s.hostMem ∧
      (issueMarkRead s).freeCount = s.freeCount := by
  simp only [issueMarkRead]
  simp

@[simp] theorem issueEntryRead_keeps (f : Flight) (s : State) :
    (issueEntryRead f s).pending = s.pending ∧
      (issueEntryRead f s).win = s.win ∧
      (issueEntryRead f s).clock = s.clock ∧
      (issueEntryRead f s).shows = s.shows ∧
      (issueEntryRead f s).desks = s.desks ∧
      (issueEntryRead f s).arb = s.arb ∧
      (issueEntryRead f s).air = s.air ∧
      (issueEntryRead f s).displays = s.displays ∧
      (issueEntryRead f s).stream = s.stream ∧
      (issueEntryRead f s).faults = s.faults ∧
      (issueEntryRead f s).bus = s.bus ∧
      (issueEntryRead f s).hostMem = s.hostMem ∧
      (issueEntryRead f s).freeCount = s.freeCount := by
  simp only [issueEntryRead]
  simp

@[simp] theorem issueTextRead_keeps (f : Flight) (s : State) :
    (issueTextRead f s).pending = s.pending ∧
      (issueTextRead f s).win = s.win ∧
      (issueTextRead f s).clock = s.clock ∧
      (issueTextRead f s).shows = s.shows ∧
      (issueTextRead f s).desks = s.desks ∧
      (issueTextRead f s).arb = s.arb ∧
      (issueTextRead f s).air = s.air ∧
      (issueTextRead f s).displays = s.displays ∧
      (issueTextRead f s).stream = s.stream ∧
      (issueTextRead f s).faults = s.faults ∧
      (issueTextRead f s).bus = s.bus ∧
      (issueTextRead f s).hostMem = s.hostMem ∧
      (issueTextRead f s).freeCount = s.freeCount := by
  simp only [issueTextRead]
  simp

@[simp] theorem readNext_keeps (s : State) :
    (readNext s).pending = s.pending ∧
      (readNext s).clock = s.clock ∧
      (readNext s).shows = s.shows ∧
      (readNext s).desks = s.desks ∧
      (readNext s).arb = s.arb ∧
      (readNext s).air = s.air ∧
      (readNext s).displays = s.displays ∧
      (readNext s).stream = s.stream ∧
      (readNext s).faults = s.faults ∧
      (readNext s).bus = s.bus ∧
      (readNext s).hostMem = s.hostMem ∧
      (readNext s).freeCount = s.freeCount := by
  simp only [readNext]
  repeat' split
  all_goals simp

@[simp] theorem finishWith_keeps (o : EntryOutcome) (s : State) :
    (finishWith o s).pending = s.pending ∧
      (finishWith o s).clock = s.clock ∧
      (finishWith o s).shows = s.shows ∧
      (finishWith o s).desks = s.desks ∧
      (finishWith o s).arb = s.arb ∧
      (finishWith o s).air = s.air ∧
      (finishWith o s).displays = s.displays ∧
      (finishWith o s).stream = s.stream ∧
      (finishWith o s).faults = s.faults ∧
      (finishWith o s).reads = s.reads ∧
      (finishWith o s).bus = s.bus ∧
      (finishWith o s).hostMem = s.hostMem ∧
      (finishWith o s).freeCount = s.freeCount := by
  simp only [finishWith]
  repeat' split
  all_goals simp

@[simp] theorem finish_keeps (code : OutcomeCode) (detail : Nat) (s : State) :
    (finish code detail s).pending = s.pending ∧
      (finish code detail s).clock = s.clock ∧
      (finish code detail s).shows = s.shows ∧
      (finish code detail s).desks = s.desks ∧
      (finish code detail s).arb = s.arb ∧
      (finish code detail s).air = s.air ∧
      (finish code detail s).displays = s.displays ∧
      (finish code detail s).stream = s.stream ∧
      (finish code detail s).faults = s.faults ∧
      (finish code detail s).reads = s.reads ∧
      (finish code detail s).bus = s.bus ∧
      (finish code detail s).hostMem = s.hostMem ∧
      (finish code detail s).freeCount = s.freeCount := by
  simp only [finish]
  simp

@[simp] theorem finishOpen_keeps (code : OutcomeCode) (s : State) :
    (finishOpen code s).pending = s.pending ∧
      (finishOpen code s).clock = s.clock ∧
      (finishOpen code s).shows = s.shows ∧
      (finishOpen code s).desks = s.desks ∧
      (finishOpen code s).arb = s.arb ∧
      (finishOpen code s).air = s.air ∧
      (finishOpen code s).displays = s.displays ∧
      (finishOpen code s).stream = s.stream ∧
      (finishOpen code s).faults = s.faults ∧
      (finishOpen code s).reads = s.reads ∧
      (finishOpen code s).bus = s.bus ∧
      (finishOpen code s).hostMem = s.hostMem := by
  simp only [finishOpen]
  simp

@[simp] theorem takeEntry_pending (k : EntryKind) (act : Flight → State → State) (s : State)
    (h : ∀ f s, (act f s).pending = s.pending) :
    (takeEntry k act s).pending = s.pending := by
  simp only [takeEntry]
  repeat' split
  all_goals simp [h]

@[simp] theorem takeEntry_win (k : EntryKind) (act : Flight → State → State) (s : State)
    (h : ∀ f s, (act f s).win = s.win) :
    (takeEntry k act s).win = s.win := by
  simp only [takeEntry]
  repeat' split
  all_goals simp [h]

@[simp] theorem takeEntry_clock (k : EntryKind) (act : Flight → State → State) (s : State)
    (h : ∀ f s, (act f s).clock = s.clock) :
    (takeEntry k act s).clock = s.clock := by
  simp only [takeEntry]
  repeat' split
  all_goals simp [h]

@[simp] theorem takeEntry_shows (k : EntryKind) (act : Flight → State → State) (s : State)
    (h : ∀ f s, (act f s).shows = s.shows) :
    (takeEntry k act s).shows = s.shows := by
  simp only [takeEntry]
  repeat' split
  all_goals simp [h]

@[simp] theorem takeEntry_desks (k : EntryKind) (act : Flight → State → State) (s : State)
    (h : ∀ f s, (act f s).desks = s.desks) :
    (takeEntry k act s).desks = s.desks := by
  simp only [takeEntry]
  repeat' split
  all_goals simp [h]

@[simp] theorem takeEntry_arb (k : EntryKind) (act : Flight → State → State) (s : State)
    (h : ∀ f s, (act f s).arb = s.arb) :
    (takeEntry k act s).arb = s.arb := by
  simp only [takeEntry]
  repeat' split
  all_goals simp [h]

@[simp] theorem takeEntry_air (k : EntryKind) (act : Flight → State → State) (s : State)
    (h : ∀ f s, (act f s).air = s.air) :
    (takeEntry k act s).air = s.air := by
  simp only [takeEntry]
  repeat' split
  all_goals simp [h]

@[simp] theorem takeEntry_displays (k : EntryKind) (act : Flight → State → State) (s : State)
    (h : ∀ f s, (act f s).displays = s.displays) :
    (takeEntry k act s).displays = s.displays := by
  simp only [takeEntry]
  repeat' split
  all_goals simp [h]

@[simp] theorem takeEntry_stream (k : EntryKind) (act : Flight → State → State) (s : State)
    (h : ∀ f s, (act f s).stream = s.stream) :
    (takeEntry k act s).stream = s.stream := by
  simp only [takeEntry]
  repeat' split
  all_goals simp [h]

@[simp] theorem takeEntry_faults (k : EntryKind) (act : Flight → State → State) (s : State)
    (h : ∀ f s, (act f s).faults = s.faults) :
    (takeEntry k act s).faults = s.faults := by
  simp only [takeEntry]
  repeat' split
  all_goals simp [h]

@[simp] theorem takeEntry_reads (k : EntryKind) (act : Flight → State → State) (s : State)
    (h : ∀ f s, (act f s).reads = s.reads) :
    (takeEntry k act s).reads = s.reads := by
  simp only [takeEntry]
  repeat' split
  all_goals simp [h]

@[simp] theorem takeEntry_bus (k : EntryKind) (act : Flight → State → State) (s : State)
    (h : ∀ f s, (act f s).bus = s.bus) :
    (takeEntry k act s).bus = s.bus := by
  simp only [takeEntry]
  repeat' split
  all_goals simp [h]

@[simp] theorem takeEntry_hostMem (k : EntryKind) (act : Flight → State → State) (s : State)
    (h : ∀ f s, (act f s).hostMem = s.hostMem) :
    (takeEntry k act s).hostMem = s.hostMem := by
  simp only [takeEntry]
  repeat' split
  all_goals simp [h]

@[simp] theorem takeEntry_freeCount (k : EntryKind) (act : Flight → State → State) (s : State)
    (h : ∀ f s, (act f s).freeCount = s.freeCount) :
    (takeEntry k act s).freeCount = s.freeCount := by
  simp only [takeEntry]
  repeat' split
  all_goals simp [h]

@[simp] theorem withTaken_keeps (f : Flight) (s : State) :
    (withTaken f s).pending = s.pending ∧
      (withTaken f s).clock = s.clock ∧
      (withTaken f s).shows = s.shows ∧
      (withTaken f s).desks = s.desks ∧
      (withTaken f s).arb = s.arb ∧
      (withTaken f s).air = s.air ∧
      (withTaken f s).displays = s.displays ∧
      (withTaken f s).stream = s.stream ∧
      (withTaken f s).faults = s.faults ∧
      (withTaken f s).reads = s.reads ∧
      (withTaken f s).bus = s.bus ∧
      (withTaken f s).hostMem = s.hostMem ∧
      (withTaken f s).freeCount = s.freeCount := by
  simp only [withTaken]
  simp

@[simp] theorem withPort_keeps (d : DeskIx) (f : Port → Port) (s : State) :
    (withPort d f s).pending = s.pending ∧
      (withPort d f s).win = s.win ∧
      (withPort d f s).clock = s.clock ∧
      (withPort d f s).shows = s.shows ∧
      (withPort d f s).arb = s.arb ∧
      (withPort d f s).air = s.air ∧
      (withPort d f s).displays = s.displays ∧
      (withPort d f s).stream = s.stream ∧
      (withPort d f s).faults = s.faults ∧
      (withPort d f s).reads = s.reads ∧
      (withPort d f s).bus = s.bus ∧
      (withPort d f s).hostMem = s.hostMem ∧
      (withPort d f s).freeCount = s.freeCount := by
  simp only [withPort]
  simp

@[simp] theorem loseFrame_keeps (d : DeskIx) (f : DeskFrame) (s : State) :
    (loseFrame d f s).pending = s.pending ∧
      (loseFrame d f s).win = s.win ∧
      (loseFrame d f s).clock = s.clock ∧
      (loseFrame d f s).shows = s.shows ∧
      (loseFrame d f s).arb = s.arb ∧
      (loseFrame d f s).air = s.air ∧
      (loseFrame d f s).displays = s.displays ∧
      (loseFrame d f s).stream = s.stream ∧
      (loseFrame d f s).faults = s.faults ∧
      (loseFrame d f s).reads = s.reads ∧
      (loseFrame d f s).hostMem = s.hostMem ∧
      (loseFrame d f s).freeCount = s.freeCount := by
  simp only [loseFrame]
  simp

@[simp] theorem sendDesk_keeps (d : DeskIx) (seq : Byte) (m : DeskMsg) (s : State) :
    (sendDesk d seq m s).pending = s.pending ∧
      (sendDesk d seq m s).win = s.win ∧
      (sendDesk d seq m s).clock = s.clock ∧
      (sendDesk d seq m s).shows = s.shows ∧
      (sendDesk d seq m s).arb = s.arb ∧
      (sendDesk d seq m s).air = s.air ∧
      (sendDesk d seq m s).displays = s.displays ∧
      (sendDesk d seq m s).stream = s.stream ∧
      (sendDesk d seq m s).faults = s.faults ∧
      (sendDesk d seq m s).reads = s.reads ∧
      (sendDesk d seq m s).hostMem = s.hostMem ∧
      (sendDesk d seq m s).freeCount = s.freeCount := by
  simp only [sendDesk]
  repeat' split
  all_goals simp

@[simp] theorem sendBusy_keeps (d : DeskIx) (seq : Byte) (s : State) :
    (sendBusy d seq s).pending = s.pending ∧
      (sendBusy d seq s).win = s.win ∧
      (sendBusy d seq s).clock = s.clock ∧
      (sendBusy d seq s).shows = s.shows ∧
      (sendBusy d seq s).arb = s.arb ∧
      (sendBusy d seq s).air = s.air ∧
      (sendBusy d seq s).displays = s.displays ∧
      (sendBusy d seq s).stream = s.stream ∧
      (sendBusy d seq s).faults = s.faults ∧
      (sendBusy d seq s).reads = s.reads ∧
      (sendBusy d seq s).hostMem = s.hostMem ∧
      (sendBusy d seq s).freeCount = s.freeCount := by
  simp only [sendBusy]
  repeat' split
  all_goals simp

@[simp] theorem placePause_keeps (time : Nat) (d : DeskIx) (s : State) :
    (placePause time d s).pending = s.pending ∧
      (placePause time d s).win = s.win ∧
      (placePause time d s).clock = s.clock ∧
      (placePause time d s).shows = s.shows ∧
      (placePause time d s).arb = s.arb ∧
      (placePause time d s).air = s.air ∧
      (placePause time d s).displays = s.displays ∧
      (placePause time d s).stream = s.stream ∧
      (placePause time d s).faults = s.faults ∧
      (placePause time d s).reads = s.reads ∧
      (placePause time d s).hostMem = s.hostMem ∧
      (placePause time d s).freeCount = s.freeCount := by
  simp only [placePause]
  repeat' split
  all_goals simp

@[simp] theorem pauseAll_keeps (time : Nat) (s : State) :
    (pauseAll time s).pending = s.pending ∧
      (pauseAll time s).win = s.win ∧
      (pauseAll time s).clock = s.clock ∧
      (pauseAll time s).shows = s.shows ∧
      (pauseAll time s).arb = s.arb ∧
      (pauseAll time s).air = s.air ∧
      (pauseAll time s).displays = s.displays ∧
      (pauseAll time s).stream = s.stream ∧
      (pauseAll time s).faults = s.faults ∧
      (pauseAll time s).reads = s.reads ∧
      (pauseAll time s).hostMem = s.hostMem ∧
      (pauseAll time s).freeCount = s.freeCount := by
  simp only [pauseAll]
  simp

@[simp] theorem takeRequest_pending (k : DeskKind) (act : IntakeEntry → State → State) (s : State)
    (h : ∀ e s, (act e s).pending = s.pending) :
    (takeRequest k act s).pending = s.pending := by
  simp only [takeRequest]
  repeat' split
  all_goals simp [h]

@[simp] theorem takeRequest_win (k : DeskKind) (act : IntakeEntry → State → State) (s : State)
    (h : ∀ e s, (act e s).win = s.win) :
    (takeRequest k act s).win = s.win := by
  simp only [takeRequest]
  repeat' split
  all_goals simp [h]

@[simp] theorem takeRequest_clock (k : DeskKind) (act : IntakeEntry → State → State) (s : State)
    (h : ∀ e s, (act e s).clock = s.clock) :
    (takeRequest k act s).clock = s.clock := by
  simp only [takeRequest]
  repeat' split
  all_goals simp [h]

@[simp] theorem takeRequest_shows (k : DeskKind) (act : IntakeEntry → State → State) (s : State)
    (h : ∀ e s, (act e s).shows = s.shows) :
    (takeRequest k act s).shows = s.shows := by
  simp only [takeRequest]
  repeat' split
  all_goals simp [h]

@[simp] theorem takeRequest_arb (k : DeskKind) (act : IntakeEntry → State → State) (s : State)
    (h : ∀ e s, (act e s).arb = s.arb) :
    (takeRequest k act s).arb = s.arb := by
  simp only [takeRequest]
  repeat' split
  all_goals simp [h]

@[simp] theorem takeRequest_air (k : DeskKind) (act : IntakeEntry → State → State) (s : State)
    (h : ∀ e s, (act e s).air = s.air) :
    (takeRequest k act s).air = s.air := by
  simp only [takeRequest]
  repeat' split
  all_goals simp [h]

@[simp] theorem takeRequest_displays (k : DeskKind) (act : IntakeEntry → State → State) (s : State)
    (h : ∀ e s, (act e s).displays = s.displays) :
    (takeRequest k act s).displays = s.displays := by
  simp only [takeRequest]
  repeat' split
  all_goals simp [h]

@[simp] theorem takeRequest_stream (k : DeskKind) (act : IntakeEntry → State → State) (s : State)
    (h : ∀ e s, (act e s).stream = s.stream) :
    (takeRequest k act s).stream = s.stream := by
  simp only [takeRequest]
  repeat' split
  all_goals simp [h]

@[simp] theorem takeRequest_faults (k : DeskKind) (act : IntakeEntry → State → State) (s : State)
    (h : ∀ e s, (act e s).faults = s.faults) :
    (takeRequest k act s).faults = s.faults := by
  simp only [takeRequest]
  repeat' split
  all_goals simp [h]

@[simp] theorem takeRequest_reads (k : DeskKind) (act : IntakeEntry → State → State) (s : State)
    (h : ∀ e s, (act e s).reads = s.reads) :
    (takeRequest k act s).reads = s.reads := by
  simp only [takeRequest]
  repeat' split
  all_goals simp [h]

@[simp] theorem takeRequest_bus (k : DeskKind) (act : IntakeEntry → State → State) (s : State)
    (h : ∀ e s, (act e s).bus = s.bus) :
    (takeRequest k act s).bus = s.bus := by
  simp only [takeRequest]
  repeat' split
  all_goals simp [h]

@[simp] theorem takeRequest_hostMem (k : DeskKind) (act : IntakeEntry → State → State) (s : State)
    (h : ∀ e s, (act e s).hostMem = s.hostMem) :
    (takeRequest k act s).hostMem = s.hostMem := by
  simp only [takeRequest]
  repeat' split
  all_goals simp [h]

@[simp] theorem takeRequest_freeCount (k : DeskKind) (act : IntakeEntry → State → State) (s : State)
    (h : ∀ e s, (act e s).freeCount = s.freeCount) :
    (takeRequest k act s).freeCount = s.freeCount := by
  simp only [takeRequest]
  repeat' split
  all_goals simp [h]

@[simp] theorem withLink_keeps (d : DisplayIx) (f : PanelLink → PanelLink) (s : State) :
    (withLink d f s).pending = s.pending ∧
      (withLink d f s).win = s.win ∧
      (withLink d f s).clock = s.clock ∧
      (withLink d f s).shows = s.shows ∧
      (withLink d f s).desks = s.desks ∧
      (withLink d f s).arb = s.arb ∧
      (withLink d f s).air = s.air ∧
      (withLink d f s).displays = s.displays ∧
      (withLink d f s).faults = s.faults ∧
      (withLink d f s).reads = s.reads ∧
      (withLink d f s).bus = s.bus ∧
      (withLink d f s).hostMem = s.hostMem ∧
      (withLink d f s).freeCount = s.freeCount := by
  simp only [withLink]
  simp

@[simp] theorem sendPanel_keeps (d : DisplayIx) (f : PanelFrame) (s : State) :
    (sendPanel d f s).pending = s.pending ∧
      (sendPanel d f s).win = s.win ∧
      (sendPanel d f s).clock = s.clock ∧
      (sendPanel d f s).shows = s.shows ∧
      (sendPanel d f s).desks = s.desks ∧
      (sendPanel d f s).arb = s.arb ∧
      (sendPanel d f s).air = s.air ∧
      (sendPanel d f s).displays = s.displays ∧
      (sendPanel d f s).faults = s.faults ∧
      (sendPanel d f s).reads = s.reads ∧
      (sendPanel d f s).bus = s.bus ∧
      (sendPanel d f s).hostMem = s.hostMem ∧
      (sendPanel d f s).freeCount = s.freeCount := by
  simp only [sendPanel]
  repeat' split
  all_goals simp

@[simp] theorem sendPanels_keeps (d : DisplayIx) (fs : List PanelFrame) (s : State) :
    (sendPanels d fs s).pending = s.pending ∧
      (sendPanels d fs s).win = s.win ∧
      (sendPanels d fs s).clock = s.clock ∧
      (sendPanels d fs s).shows = s.shows ∧
      (sendPanels d fs s).desks = s.desks ∧
      (sendPanels d fs s).arb = s.arb ∧
      (sendPanels d fs s).air = s.air ∧
      (sendPanels d fs s).displays = s.displays ∧
      (sendPanels d fs s).faults = s.faults ∧
      (sendPanels d fs s).reads = s.reads ∧
      (sendPanels d fs s).bus = s.bus ∧
      (sendPanels d fs s).hostMem = s.hostMem ∧
      (sendPanels d fs s).freeCount = s.freeCount := by
  simp only [sendPanels]
  simp

@[simp] theorem sendClip_keeps (d : DisplayIx) (f : PanelFrame) (s : State) :
    (sendClip d f s).pending = s.pending ∧
      (sendClip d f s).win = s.win ∧
      (sendClip d f s).clock = s.clock ∧
      (sendClip d f s).shows = s.shows ∧
      (sendClip d f s).desks = s.desks ∧
      (sendClip d f s).arb = s.arb ∧
      (sendClip d f s).air = s.air ∧
      (sendClip d f s).displays = s.displays ∧
      (sendClip d f s).faults = s.faults ∧
      (sendClip d f s).reads = s.reads ∧
      (sendClip d f s).bus = s.bus ∧
      (sendClip d f s).hostMem = s.hostMem ∧
      (sendClip d f s).freeCount = s.freeCount := by
  simp only [sendClip]
  repeat' split
  all_goals simp

@[simp] theorem settleDisplay_keeps (before : State) (d : DisplayIx) (after : State) :
    (settleDisplay before d after).pending = after.pending ∧
      (settleDisplay before d after).clock = after.clock ∧
      (settleDisplay before d after).shows = after.shows ∧
      (settleDisplay before d after).desks = after.desks ∧
      (settleDisplay before d after).arb = after.arb ∧
      (settleDisplay before d after).air = after.air ∧
      (settleDisplay before d after).displays = after.displays ∧
      (settleDisplay before d after).stream = after.stream ∧
      (settleDisplay before d after).faults = after.faults ∧
      (settleDisplay before d after).reads = after.reads ∧
      (settleDisplay before d after).bus = after.bus ∧
      (settleDisplay before d after).hostMem = after.hostMem ∧
      (settleDisplay before d after).freeCount = after.freeCount := by
  simp only [settleDisplay]
  repeat' split
  all_goals simp

@[simp] theorem settleDisplays_keeps (before after : State) :
    (settleDisplays before after).pending = after.pending ∧
      (settleDisplays before after).clock = after.clock ∧
      (settleDisplays before after).shows = after.shows ∧
      (settleDisplays before after).desks = after.desks ∧
      (settleDisplays before after).arb = after.arb ∧
      (settleDisplays before after).air = after.air ∧
      (settleDisplays before after).displays = after.displays ∧
      (settleDisplays before after).stream = after.stream ∧
      (settleDisplays before after).faults = after.faults ∧
      (settleDisplays before after).reads = after.reads ∧
      (settleDisplays before after).bus = after.bus ∧
      (settleDisplays before after).hostMem = after.hostMem ∧
      (settleDisplays before after).freeCount = after.freeCount := by
  simp only [settleDisplays]
  simp

@[simp] theorem discardHeld_keeps (s : State) :
    (discardHeld s).pending = s.pending ∧
      (discardHeld s).clock = s.clock ∧
      (discardHeld s).shows = s.shows ∧
      (discardHeld s).desks = s.desks ∧
      (discardHeld s).arb = s.arb ∧
      (discardHeld s).air = s.air ∧
      (discardHeld s).displays = s.displays ∧
      (discardHeld s).stream = s.stream ∧
      (discardHeld s).faults = s.faults ∧
      (discardHeld s).reads = s.reads ∧
      (discardHeld s).bus = s.bus ∧
      (discardHeld s).hostMem = s.hostMem ∧
      (discardHeld s).freeCount = s.freeCount := by
  simp only [discardHeld]
  repeat' split
  all_goals simp

@[simp] theorem beginStart_keeps (s : State) :
    (beginStart s).pending = s.pending ∧
      (beginStart s).clock = s.clock ∧
      (beginStart s).shows = s.shows ∧
      (beginStart s).desks = s.desks ∧
      (beginStart s).arb = s.arb ∧
      (beginStart s).air = s.air ∧
      (beginStart s).displays = s.displays ∧
      (beginStart s).stream = s.stream ∧
      (beginStart s).faults = s.faults ∧
      (beginStart s).bus = s.bus ∧
      (beginStart s).hostMem = s.hostMem ∧
      (beginStart s).freeCount = s.freeCount := by
  simp only [beginStart]
  repeat' split
  all_goals simp

@[simp] theorem stopRun_keeps (s : State) :
    (stopRun s).pending = s.pending ∧
      (stopRun s).clock = s.clock ∧
      (stopRun s).shows = s.shows ∧
      (stopRun s).desks = s.desks ∧
      (stopRun s).arb = s.arb ∧
      (stopRun s).air = s.air ∧
      (stopRun s).displays = s.displays ∧
      (stopRun s).stream = s.stream ∧
      (stopRun s).faults = s.faults ∧
      (stopRun s).reads = s.reads ∧
      (stopRun s).bus = s.bus ∧
      (stopRun s).hostMem = s.hostMem ∧
      (stopRun s).freeCount = s.freeCount := by
  simp only [stopRun]
  repeat' split
  all_goals simp

@[simp] theorem recover_keeps (s : State) :
    (recover s).pending = s.pending ∧
      (recover s).clock = s.clock ∧
      (recover s).shows = s.shows ∧
      (recover s).desks = s.desks ∧
      (recover s).arb = s.arb ∧
      (recover s).air = s.air ∧
      (recover s).displays = s.displays ∧
      (recover s).stream = s.stream ∧
      (recover s).faults = s.faults ∧
      (recover s).bus = s.bus ∧
      (recover s).hostMem = s.hostMem ∧
      (recover s).freeCount = s.freeCount := by
  simp only [recover]
  simp

@[simp] theorem finishStart_keeps (bytes : List Byte) (s : State) :
    (finishStart bytes s).pending = s.pending ∧
      (finishStart bytes s).clock = s.clock ∧
      (finishStart bytes s).shows = s.shows ∧
      (finishStart bytes s).desks = s.desks ∧
      (finishStart bytes s).arb = s.arb ∧
      (finishStart bytes s).air = s.air ∧
      (finishStart bytes s).displays = s.displays ∧
      (finishStart bytes s).stream = s.stream ∧
      (finishStart bytes s).faults = s.faults ∧
      (finishStart bytes s).hostMem = s.hostMem ∧
      (finishStart bytes s).freeCount = s.freeCount := by
  simp only [finishStart]
  repeat' split
  all_goals simp

@[simp] theorem finishRecovery_keeps (bytes : List Byte) (s : State) :
    (finishRecovery bytes s).pending = s.pending ∧
      (finishRecovery bytes s).clock = s.clock ∧
      (finishRecovery bytes s).shows = s.shows ∧
      (finishRecovery bytes s).desks = s.desks ∧
      (finishRecovery bytes s).arb = s.arb ∧
      (finishRecovery bytes s).air = s.air ∧
      (finishRecovery bytes s).displays = s.displays ∧
      (finishRecovery bytes s).stream = s.stream ∧
      (finishRecovery bytes s).faults = s.faults ∧
      (finishRecovery bytes s).hostMem = s.hostMem ∧
      (finishRecovery bytes s).freeCount = s.freeCount := by
  simp only [finishRecovery]
  repeat' split
  all_goals simp

@[simp] theorem anchorDone_keeps (bytes : List Byte) (s : State) :
    (anchorDone bytes s).pending = s.pending ∧
      (anchorDone bytes s).clock = s.clock ∧
      (anchorDone bytes s).shows = s.shows ∧
      (anchorDone bytes s).desks = s.desks ∧
      (anchorDone bytes s).arb = s.arb ∧
      (anchorDone bytes s).air = s.air ∧
      (anchorDone bytes s).displays = s.displays ∧
      (anchorDone bytes s).stream = s.stream ∧
      (anchorDone bytes s).faults = s.faults ∧
      (anchorDone bytes s).hostMem = s.hostMem ∧
      (anchorDone bytes s).freeCount = s.freeCount := by
  simp only [anchorDone]
  repeat' split
  all_goals simp

@[simp] theorem requestMark_keeps (s : State) :
    (requestMark s).pending = s.pending ∧
      (requestMark s).clock = s.clock ∧
      (requestMark s).shows = s.shows ∧
      (requestMark s).desks = s.desks ∧
      (requestMark s).arb = s.arb ∧
      (requestMark s).air = s.air ∧
      (requestMark s).displays = s.displays ∧
      (requestMark s).stream = s.stream ∧
      (requestMark s).faults = s.faults ∧
      (requestMark s).bus = s.bus ∧
      (requestMark s).hostMem = s.hostMem ∧
      (requestMark s).freeCount = s.freeCount := by
  simp only [requestMark]
  repeat' split
  all_goals simp

@[simp] theorem markDone_keeps (v : Nat) (s : State) :
    (markDone v s).pending = s.pending ∧
      (markDone v s).clock = s.clock ∧
      (markDone v s).shows = s.shows ∧
      (markDone v s).desks = s.desks ∧
      (markDone v s).arb = s.arb ∧
      (markDone v s).air = s.air ∧
      (markDone v s).displays = s.displays ∧
      (markDone v s).stream = s.stream ∧
      (markDone v s).faults = s.faults ∧
      (markDone v s).hostMem = s.hostMem ∧
      (markDone v s).freeCount = s.freeCount := by
  simp only [markDone]
  repeat' split
  all_goals simp

@[simp] theorem handOver_keeps (s : State) (f : Flight) :
    (handOver s f).pending = s.pending ∧
      (handOver s f).clock = s.clock ∧
      (handOver s f).shows = s.shows ∧
      (handOver s f).desks = s.desks ∧
      (handOver s f).arb = s.arb ∧
      (handOver s f).air = s.air ∧
      (handOver s f).displays = s.displays ∧
      (handOver s f).stream = s.stream ∧
      (handOver s f).faults = s.faults ∧
      (handOver s f).reads = s.reads ∧
      (handOver s f).bus = s.bus ∧
      (handOver s f).hostMem = s.hostMem ∧
      (handOver s f).freeCount = s.freeCount := by
  simp only [handOver]
  simp

@[simp] theorem refuseEntry_keeps (code : OutcomeCode) (detail : Nat) (f : Flight) (s : State) :
    (refuseEntry code detail f s).pending = s.pending ∧
      (refuseEntry code detail f s).clock = s.clock ∧
      (refuseEntry code detail f s).shows = s.shows ∧
      (refuseEntry code detail f s).desks = s.desks ∧
      (refuseEntry code detail f s).arb = s.arb ∧
      (refuseEntry code detail f s).air = s.air ∧
      (refuseEntry code detail f s).displays = s.displays ∧
      (refuseEntry code detail f s).stream = s.stream ∧
      (refuseEntry code detail f s).faults = s.faults ∧
      (refuseEntry code detail f s).reads = s.reads ∧
      (refuseEntry code detail f s).bus = s.bus ∧
      (refuseEntry code detail f s).hostMem = s.hostMem ∧
      (refuseEntry code detail f s).freeCount = s.freeCount := by
  simp only [refuseEntry]
  simp

@[simp] theorem entryDone_keeps (f : Flight) (s : State) :
    (entryDone f s).pending = s.pending ∧
      (entryDone f s).clock = s.clock ∧
      (entryDone f s).shows = s.shows ∧
      (entryDone f s).desks = s.desks ∧
      (entryDone f s).arb = s.arb ∧
      (entryDone f s).air = s.air ∧
      (entryDone f s).displays = s.displays ∧
      (entryDone f s).stream = s.stream ∧
      (entryDone f s).faults = s.faults ∧
      (entryDone f s).hostMem = s.hostMem ∧
      (entryDone f s).freeCount = s.freeCount := by
  simp only [entryDone]
  repeat' split
  all_goals simp

@[simp] theorem giveUpControl_keeps (source : FaultSource) (s : State) :
    (giveUpControl source s).pending = s.pending ∧
      (giveUpControl source s).clock = s.clock ∧
      (giveUpControl source s).shows = s.shows ∧
      (giveUpControl source s).desks = s.desks ∧
      (giveUpControl source s).arb = s.arb ∧
      (giveUpControl source s).air = s.air ∧
      (giveUpControl source s).displays = s.displays ∧
      (giveUpControl source s).stream = s.stream ∧
      (giveUpControl source s).faults = s.faults ∧
      (giveUpControl source s).reads = s.reads ∧
      (giveUpControl source s).hostMem = s.hostMem ∧
      (giveUpControl source s).freeCount = s.freeCount := by
  simp only [giveUpControl]
  repeat' split
  all_goals simp

@[simp] theorem withFlight_keeps (f : Flight) (s : State) :
    (withFlight f s).pending = s.pending ∧
      (withFlight f s).clock = s.clock ∧
      (withFlight f s).shows = s.shows ∧
      (withFlight f s).desks = s.desks ∧
      (withFlight f s).arb = s.arb ∧
      (withFlight f s).air = s.air ∧
      (withFlight f s).displays = s.displays ∧
      (withFlight f s).stream = s.stream ∧
      (withFlight f s).faults = s.faults ∧
      (withFlight f s).reads = s.reads ∧
      (withFlight f s).bus = s.bus ∧
      (withFlight f s).hostMem = s.hostMem ∧
      (withFlight f s).freeCount = s.freeCount := by
  simp only [withFlight]
  simp

@[simp] theorem reissueEntry_keeps (f : Flight) (s : State) :
    (reissueEntry f s).pending = s.pending ∧
      (reissueEntry f s).win = s.win ∧
      (reissueEntry f s).clock = s.clock ∧
      (reissueEntry f s).shows = s.shows ∧
      (reissueEntry f s).desks = s.desks ∧
      (reissueEntry f s).arb = s.arb ∧
      (reissueEntry f s).air = s.air ∧
      (reissueEntry f s).displays = s.displays ∧
      (reissueEntry f s).stream = s.stream ∧
      (reissueEntry f s).faults = s.faults ∧
      (reissueEntry f s).bus = s.bus ∧
      (reissueEntry f s).hostMem = s.hostMem ∧
      (reissueEntry f s).freeCount = s.freeCount := by
  simp only [reissueEntry]
  repeat' split
  all_goals simp

@[simp] theorem anchorFailed_keeps (s : State) :
    (anchorFailed s).pending = s.pending ∧
      (anchorFailed s).clock = s.clock ∧
      (anchorFailed s).shows = s.shows ∧
      (anchorFailed s).desks = s.desks ∧
      (anchorFailed s).arb = s.arb ∧
      (anchorFailed s).air = s.air ∧
      (anchorFailed s).displays = s.displays ∧
      (anchorFailed s).stream = s.stream ∧
      (anchorFailed s).faults = s.faults ∧
      (anchorFailed s).hostMem = s.hostMem ∧
      (anchorFailed s).freeCount = s.freeCount := by
  simp only [anchorFailed]
  repeat' split
  all_goals simp

@[simp] theorem markFailed_keeps (s : State) :
    (markFailed s).pending = s.pending ∧
      (markFailed s).clock = s.clock ∧
      (markFailed s).shows = s.shows ∧
      (markFailed s).desks = s.desks ∧
      (markFailed s).arb = s.arb ∧
      (markFailed s).air = s.air ∧
      (markFailed s).displays = s.displays ∧
      (markFailed s).stream = s.stream ∧
      (markFailed s).faults = s.faults ∧
      (markFailed s).hostMem = s.hostMem ∧
      (markFailed s).freeCount = s.freeCount := by
  simp only [markFailed]
  repeat' split
  all_goals simp

@[simp] theorem entryFailed_keeps (s : State) :
    (entryFailed s).pending = s.pending ∧
      (entryFailed s).clock = s.clock ∧
      (entryFailed s).shows = s.shows ∧
      (entryFailed s).desks = s.desks ∧
      (entryFailed s).arb = s.arb ∧
      (entryFailed s).air = s.air ∧
      (entryFailed s).displays = s.displays ∧
      (entryFailed s).stream = s.stream ∧
      (entryFailed s).faults = s.faults ∧
      (entryFailed s).hostMem = s.hostMem ∧
      (entryFailed s).freeCount = s.freeCount := by
  simp only [entryFailed]
  repeat' split
  all_goals simp

@[simp] theorem mirrorSent_keeps (s : State) :
    (mirrorSent s).pending = s.pending ∧
      (mirrorSent s).clock = s.clock ∧
      (mirrorSent s).shows = s.shows ∧
      (mirrorSent s).desks = s.desks ∧
      (mirrorSent s).arb = s.arb ∧
      (mirrorSent s).air = s.air ∧
      (mirrorSent s).displays = s.displays ∧
      (mirrorSent s).stream = s.stream ∧
      (mirrorSent s).faults = s.faults ∧
      (mirrorSent s).reads = s.reads ∧
      (mirrorSent s).bus = s.bus ∧
      (mirrorSent s).hostMem = s.hostMem ∧
      (mirrorSent s).freeCount = s.freeCount := by
  simp only [mirrorSent]
  simp

@[simp] theorem outcomeSent_keeps (s : State) :
    (outcomeSent s).pending = s.pending ∧
      (outcomeSent s).clock = s.clock ∧
      (outcomeSent s).shows = s.shows ∧
      (outcomeSent s).desks = s.desks ∧
      (outcomeSent s).arb = s.arb ∧
      (outcomeSent s).air = s.air ∧
      (outcomeSent s).displays = s.displays ∧
      (outcomeSent s).stream = s.stream ∧
      (outcomeSent s).faults = s.faults ∧
      (outcomeSent s).bus = s.bus ∧
      (outcomeSent s).hostMem = s.hostMem ∧
      (outcomeSent s).freeCount = s.freeCount := by
  simp only [outcomeSent]
  repeat' split
  all_goals simp

@[simp] theorem outcomeDropped_keeps (s : State) :
    (outcomeDropped s).pending = s.pending ∧
      (outcomeDropped s).clock = s.clock ∧
      (outcomeDropped s).shows = s.shows ∧
      (outcomeDropped s).desks = s.desks ∧
      (outcomeDropped s).arb = s.arb ∧
      (outcomeDropped s).air = s.air ∧
      (outcomeDropped s).displays = s.displays ∧
      (outcomeDropped s).stream = s.stream ∧
      (outcomeDropped s).faults = s.faults ∧
      (outcomeDropped s).reads = s.reads ∧
      (outcomeDropped s).bus = s.bus ∧
      (outcomeDropped s).hostMem = s.hostMem ∧
      (outcomeDropped s).freeCount = s.freeCount := by
  simp only [outcomeDropped]
  repeat' split
  all_goals simp

@[simp] theorem signal_keeps (sev : Severity) (s : State) :
    (signal sev s).pending = s.pending ∧
      (signal sev s).clock = s.clock ∧
      (signal sev s).shows = s.shows ∧
      (signal sev s).desks = s.desks ∧
      (signal sev s).arb = s.arb ∧
      (signal sev s).air = s.air ∧
      (signal sev s).displays = s.displays ∧
      (signal sev s).stream = s.stream ∧
      (signal sev s).faults = s.faults ∧
      (signal sev s).reads = s.reads ∧
      (signal sev s).bus = s.bus ∧
      (signal sev s).hostMem = s.hostMem ∧
      (signal sev s).freeCount = s.freeCount := by
  simp only [signal]
  simp

@[simp] theorem takeRaise_keeps (x : Raise) (s : State) :
    (takeRaise x s).pending = s.pending ∧
      (takeRaise x s).clock = s.clock ∧
      (takeRaise x s).shows = s.shows ∧
      (takeRaise x s).desks = s.desks ∧
      (takeRaise x s).arb = s.arb ∧
      (takeRaise x s).air = s.air ∧
      (takeRaise x s).displays = s.displays ∧
      (takeRaise x s).stream = s.stream ∧
      (takeRaise x s).reads = s.reads ∧
      (takeRaise x s).bus = s.bus ∧
      (takeRaise x s).hostMem = s.hostMem ∧
      (takeRaise x s).freeCount = s.freeCount := by
  simp only [takeRaise]
  repeat' split
  all_goals simp

@[simp] theorem clearFaults_keeps (sev : Severity) (s : State) :
    (clearFaults sev s).pending = s.pending ∧
      (clearFaults sev s).clock = s.clock ∧
      (clearFaults sev s).shows = s.shows ∧
      (clearFaults sev s).desks = s.desks ∧
      (clearFaults sev s).arb = s.arb ∧
      (clearFaults sev s).air = s.air ∧
      (clearFaults sev s).displays = s.displays ∧
      (clearFaults sev s).stream = s.stream ∧
      (clearFaults sev s).reads = s.reads ∧
      (clearFaults sev s).bus = s.bus ∧
      (clearFaults sev s).hostMem = s.hostMem ∧
      (clearFaults sev s).freeCount = s.freeCount := by
  simp only [clearFaults]
  repeat' split
  all_goals simp

@[simp] theorem setShow_keeps (i : ShowIx) (sh : ShowRec) (s : State) :
    (setShow i sh s).pending = s.pending ∧
      (setShow i sh s).win = s.win ∧
      (setShow i sh s).clock = s.clock ∧
      (setShow i sh s).desks = s.desks ∧
      (setShow i sh s).arb = s.arb ∧
      (setShow i sh s).air = s.air ∧
      (setShow i sh s).displays = s.displays ∧
      (setShow i sh s).stream = s.stream ∧
      (setShow i sh s).faults = s.faults ∧
      (setShow i sh s).reads = s.reads ∧
      (setShow i sh s).bus = s.bus ∧
      (setShow i sh s).hostMem = s.hostMem ∧
      (setShow i sh s).freeCount = s.freeCount := by
  simp only [setShow]
  simp

@[simp] theorem sendClock_keeps (r : ClockRequest) (s : State) :
    (sendClock r s).pending = s.pending ∧
      (sendClock r s).win = s.win ∧
      (sendClock r s).clock = s.clock ∧
      (sendClock r s).shows = s.shows ∧
      (sendClock r s).desks = s.desks ∧
      (sendClock r s).arb = s.arb ∧
      (sendClock r s).air = s.air ∧
      (sendClock r s).displays = s.displays ∧
      (sendClock r s).stream = s.stream ∧
      (sendClock r s).faults = s.faults ∧
      (sendClock r s).reads = s.reads ∧
      (sendClock r s).hostMem = s.hostMem ∧
      (sendClock r s).freeCount = s.freeCount := by
  simp only [sendClock]
  simp

@[simp] theorem sendArbiter_keeps (m : ShowMsg) (s : State) :
    (sendArbiter m s).pending = s.pending ∧
      (sendArbiter m s).win = s.win ∧
      (sendArbiter m s).clock = s.clock ∧
      (sendArbiter m s).shows = s.shows ∧
      (sendArbiter m s).desks = s.desks ∧
      (sendArbiter m s).arb = s.arb ∧
      (sendArbiter m s).air = s.air ∧
      (sendArbiter m s).displays = s.displays ∧
      (sendArbiter m s).stream = s.stream ∧
      (sendArbiter m s).faults = s.faults ∧
      (sendArbiter m s).reads = s.reads ∧
      (sendArbiter m s).hostMem = s.hostMem ∧
      (sendArbiter m s).freeCount = s.freeCount := by
  simp only [sendArbiter]
  simp

@[simp] theorem schedule_keeps (i : ShowIx) (st : ShowState) (s : State) :
    (schedule i st s).pending = s.pending ∧
      (schedule i st s).win = s.win ∧
      (schedule i st s).clock = s.clock ∧
      (schedule i st s).shows = s.shows ∧
      (schedule i st s).desks = s.desks ∧
      (schedule i st s).arb = s.arb ∧
      (schedule i st s).air = s.air ∧
      (schedule i st s).displays = s.displays ∧
      (schedule i st s).stream = s.stream ∧
      (schedule i st s).faults = s.faults ∧
      (schedule i st s).reads = s.reads ∧
      (schedule i st s).hostMem = s.hostMem ∧
      (schedule i st s).freeCount = s.freeCount := by
  simp only [schedule]
  repeat' split
  all_goals simp

@[simp] theorem reportShow_keeps (i : ShowIx) (fields : List ReportField) (s : State) :
    (reportShow i fields s).pending = s.pending ∧
      (reportShow i fields s).win = s.win ∧
      (reportShow i fields s).clock = s.clock ∧
      (reportShow i fields s).shows = s.shows ∧
      (reportShow i fields s).desks = s.desks ∧
      (reportShow i fields s).arb = s.arb ∧
      (reportShow i fields s).air = s.air ∧
      (reportShow i fields s).displays = s.displays ∧
      (reportShow i fields s).stream = s.stream ∧
      (reportShow i fields s).faults = s.faults ∧
      (reportShow i fields s).reads = s.reads ∧
      (reportShow i fields s).hostMem = s.hostMem ∧
      (reportShow i fields s).freeCount = s.freeCount := by
  simp only [reportShow]
  repeat' split
  all_goals simp

@[simp] theorem commitShowAs_keeps (fields : ShowRec → ShowRec → List ReportField)
    (i : ShowIx) (before : ShowRec) (s : State) :
    (commitShowAs fields i before s).pending = s.pending ∧
      (commitShowAs fields i before s).clock = s.clock ∧
      (commitShowAs fields i before s).shows = s.shows ∧
      (commitShowAs fields i before s).desks = s.desks ∧
      (commitShowAs fields i before s).arb = s.arb ∧
      (commitShowAs fields i before s).air = s.air ∧
      (commitShowAs fields i before s).displays = s.displays ∧
      (commitShowAs fields i before s).stream = s.stream ∧
      (commitShowAs fields i before s).faults = s.faults ∧
      (commitShowAs fields i before s).reads = s.reads ∧
      (commitShowAs fields i before s).hostMem = s.hostMem ∧
      (commitShowAs fields i before s).freeCount = s.freeCount := by
  simp only [commitShowAs]
  repeat' split
  all_goals simp

@[simp] theorem commitShow_keeps (i : ShowIx) (before : ShowRec) (s : State) :
    (commitShow i before s).pending = s.pending ∧
      (commitShow i before s).clock = s.clock ∧
      (commitShow i before s).shows = s.shows ∧
      (commitShow i before s).desks = s.desks ∧
      (commitShow i before s).arb = s.arb ∧
      (commitShow i before s).air = s.air ∧
      (commitShow i before s).displays = s.displays ∧
      (commitShow i before s).stream = s.stream ∧
      (commitShow i before s).faults = s.faults ∧
      (commitShow i before s).reads = s.reads ∧
      (commitShow i before s).hostMem = s.hostMem ∧
      (commitShow i before s).freeCount = s.freeCount := by
  simp only [commitShow]
  simp

@[simp] theorem commitShows_keeps (fields : ShowRec → ShowRec → List ReportField)
    (before : Vector ShowRec 64) (s : State) :
    (commitShows fields before s).pending = s.pending ∧
      (commitShows fields before s).clock = s.clock ∧
      (commitShows fields before s).shows = s.shows ∧
      (commitShows fields before s).desks = s.desks ∧
      (commitShows fields before s).arb = s.arb ∧
      (commitShows fields before s).air = s.air ∧
      (commitShows fields before s).displays = s.displays ∧
      (commitShows fields before s).stream = s.stream ∧
      (commitShows fields before s).faults = s.faults ∧
      (commitShows fields before s).reads = s.reads ∧
      (commitShows fields before s).hostMem = s.hostMem ∧
      (commitShows fields before s).freeCount = s.freeCount := by
  simp only [commitShows]
  simp

@[simp] theorem requestAuto_keeps (k : CardKind) (i : ShowIx) (duration : Nat) (s : State) :
    (requestAuto k i duration s).pending = s.pending ∧
      (requestAuto k i duration s).win = s.win ∧
      (requestAuto k i duration s).clock = s.clock ∧
      (requestAuto k i duration s).shows = s.shows ∧
      (requestAuto k i duration s).desks = s.desks ∧
      (requestAuto k i duration s).arb = s.arb ∧
      (requestAuto k i duration s).air = s.air ∧
      (requestAuto k i duration s).displays = s.displays ∧
      (requestAuto k i duration s).stream = s.stream ∧
      (requestAuto k i duration s).faults = s.faults ∧
      (requestAuto k i duration s).reads = s.reads ∧
      (requestAuto k i duration s).hostMem = s.hostMem ∧
      (requestAuto k i duration s).freeCount = s.freeCount := by
  simp only [requestAuto]
  simp

@[simp] theorem freeHold_keeps (i : HoldIx) (s : State) :
    (freeHold i s).pending = s.pending ∧
      (freeHold i s).win = s.win ∧
      (freeHold i s).clock = s.clock ∧
      (freeHold i s).desks = s.desks ∧
      (freeHold i s).arb = s.arb ∧
      (freeHold i s).air = s.air ∧
      (freeHold i s).displays = s.displays ∧
      (freeHold i s).stream = s.stream ∧
      (freeHold i s).faults = s.faults ∧
      (freeHold i s).reads = s.reads ∧
      (freeHold i s).bus = s.bus ∧
      (freeHold i s).hostMem = s.hostMem ∧
      (freeHold i s).freeCount = s.freeCount := by
  simp only [freeHold]
  repeat' split
  all_goals simp

@[simp] theorem endHold_keeps (r : HoldEnd) (i : HoldIx) (s : State) :
    (endHold r i s).pending = s.pending ∧
      (endHold r i s).clock = s.clock ∧
      (endHold r i s).arb = s.arb ∧
      (endHold r i s).air = s.air ∧
      (endHold r i s).displays = s.displays ∧
      (endHold r i s).stream = s.stream ∧
      (endHold r i s).faults = s.faults ∧
      (endHold r i s).reads = s.reads ∧
      (endHold r i s).hostMem = s.hostMem ∧
      (endHold r i s).freeCount = s.freeCount := by
  simp only [endHold]
  repeat' split
  all_goals simp

@[simp] theorem retally_keeps (i : ShowIx) (prev : Band) (s : State) :
    (retally i prev s).pending = s.pending ∧
      (retally i prev s).win = s.win ∧
      (retally i prev s).clock = s.clock ∧
      (retally i prev s).desks = s.desks ∧
      (retally i prev s).arb = s.arb ∧
      (retally i prev s).air = s.air ∧
      (retally i prev s).displays = s.displays ∧
      (retally i prev s).stream = s.stream ∧
      (retally i prev s).faults = s.faults ∧
      (retally i prev s).reads = s.reads ∧
      (retally i prev s).bus = s.bus ∧
      (retally i prev s).hostMem = s.hostMem ∧
      (retally i prev s).freeCount = s.freeCount := by
  simp only [retally]
  simp

@[simp] theorem raiseOversold_keeps (i : ShowIx) (before : ShowRec) (capture : List Byte) (s : State) :
    (raiseOversold i before capture s).pending = s.pending ∧
      (raiseOversold i before capture s).win = s.win ∧
      (raiseOversold i before capture s).clock = s.clock ∧
      (raiseOversold i before capture s).shows = s.shows ∧
      (raiseOversold i before capture s).desks = s.desks ∧
      (raiseOversold i before capture s).arb = s.arb ∧
      (raiseOversold i before capture s).air = s.air ∧
      (raiseOversold i before capture s).displays = s.displays ∧
      (raiseOversold i before capture s).stream = s.stream ∧
      (raiseOversold i before capture s).faults = s.faults ∧
      (raiseOversold i before capture s).reads = s.reads ∧
      (raiseOversold i before capture s).hostMem = s.hostMem ∧
      (raiseOversold i before capture s).freeCount = s.freeCount := by
  simp only [raiseOversold]
  repeat' split
  all_goals simp

@[simp] theorem actOnFull_keeps (i : ShowIx) (before : ShowRec) (s : State) :
    (actOnFull i before s).pending = s.pending ∧
      (actOnFull i before s).win = s.win ∧
      (actOnFull i before s).clock = s.clock ∧
      (actOnFull i before s).desks = s.desks ∧
      (actOnFull i before s).arb = s.arb ∧
      (actOnFull i before s).air = s.air ∧
      (actOnFull i before s).displays = s.displays ∧
      (actOnFull i before s).stream = s.stream ∧
      (actOnFull i before s).faults = s.faults ∧
      (actOnFull i before s).reads = s.reads ∧
      (actOnFull i before s).hostMem = s.hostMem ∧
      (actOnFull i before s).freeCount = s.freeCount := by
  simp only [actOnFull]
  repeat' split
  all_goals simp

@[simp] theorem recompute_keeps (i : ShowIx) (before : ShowRec) (capture : List Byte) (s : State) :
    (recompute i before capture s).pending = s.pending ∧
      (recompute i before capture s).win = s.win ∧
      (recompute i before capture s).clock = s.clock ∧
      (recompute i before capture s).desks = s.desks ∧
      (recompute i before capture s).arb = s.arb ∧
      (recompute i before capture s).air = s.air ∧
      (recompute i before capture s).displays = s.displays ∧
      (recompute i before capture s).stream = s.stream ∧
      (recompute i before capture s).faults = s.faults ∧
      (recompute i before capture s).reads = s.reads ∧
      (recompute i before capture s).hostMem = s.hostMem ∧
      (recompute i before capture s).freeCount = s.freeCount := by
  simp only [recompute]
  simp

@[simp] theorem closeShow_keeps (i : ShowIx) (prev : Band) (reason : NoticeEnd) (s : State) :
    (closeShow i prev reason s).pending = s.pending ∧
      (closeShow i prev reason s).clock = s.clock ∧
      (closeShow i prev reason s).arb = s.arb ∧
      (closeShow i prev reason s).air = s.air ∧
      (closeShow i prev reason s).displays = s.displays ∧
      (closeShow i prev reason s).stream = s.stream ∧
      (closeShow i prev reason s).faults = s.faults ∧
      (closeShow i prev reason s).reads = s.reads ∧
      (closeShow i prev reason s).hostMem = s.hostMem ∧
      (closeShow i prev reason s).freeCount = s.freeCount := by
  simp only [closeShow]
  repeat' split
  all_goals simp

@[simp] theorem setDue_keeps (q : List DueEntry) (s : State) :
    (setDue q s).pending = s.pending ∧
      (setDue q s).win = s.win ∧
      (setDue q s).shows = s.shows ∧
      (setDue q s).desks = s.desks ∧
      (setDue q s).arb = s.arb ∧
      (setDue q s).air = s.air ∧
      (setDue q s).displays = s.displays ∧
      (setDue q s).stream = s.stream ∧
      (setDue q s).faults = s.faults ∧
      (setDue q s).reads = s.reads ∧
      (setDue q s).bus = s.bus ∧
      (setDue q s).hostMem = s.hostMem ∧
      (setDue q s).freeCount = s.freeCount := by
  simp only [setDue]
  simp

@[simp] theorem handClock_keeps (m : ClockMsg) (s : State) :
    (handClock m s).pending = s.pending ∧
      (handClock m s).win = s.win ∧
      (handClock m s).clock = s.clock ∧
      (handClock m s).shows = s.shows ∧
      (handClock m s).desks = s.desks ∧
      (handClock m s).arb = s.arb ∧
      (handClock m s).air = s.air ∧
      (handClock m s).displays = s.displays ∧
      (handClock m s).stream = s.stream ∧
      (handClock m s).faults = s.faults ∧
      (handClock m s).reads = s.reads ∧
      (handClock m s).hostMem = s.hostMem ∧
      (handClock m s).freeCount = s.freeCount := by
  simp only [handClock]
  simp

@[simp] theorem handDue_keeps (time : Nat) (s : State) :
    (handDue time s).pending = s.pending ∧
      (handDue time s).win = s.win ∧
      (handDue time s).shows = s.shows ∧
      (handDue time s).desks = s.desks ∧
      (handDue time s).arb = s.arb ∧
      (handDue time s).air = s.air ∧
      (handDue time s).displays = s.displays ∧
      (handDue time s).stream = s.stream ∧
      (handDue time s).faults = s.faults ∧
      (handDue time s).reads = s.reads ∧
      (handDue time s).hostMem = s.hostMem ∧
      (handDue time s).freeCount = s.freeCount := by
  simp only [handDue]
  repeat' split
  all_goals simp

@[simp] theorem riseClock_keeps (s : State) :
    (riseClock s).pending = s.pending ∧
      (riseClock s).win = s.win ∧
      (riseClock s).shows = s.shows ∧
      (riseClock s).desks = s.desks ∧
      (riseClock s).arb = s.arb ∧
      (riseClock s).air = s.air ∧
      (riseClock s).displays = s.displays ∧
      (riseClock s).stream = s.stream ∧
      (riseClock s).faults = s.faults ∧
      (riseClock s).reads = s.reads ∧
      (riseClock s).bus = s.bus ∧
      (riseClock s).hostMem = s.hostMem ∧
      (riseClock s).freeCount = s.freeCount := by
  simp only [riseClock]
  simp

@[simp] theorem tickTimers_keeps (s : State) :
    (tickTimers s).pending = s.pending ∧
      (tickTimers s).win = s.win ∧
      (tickTimers s).clock = s.clock ∧
      (tickTimers s).shows = s.shows ∧
      (tickTimers s).desks = s.desks ∧
      (tickTimers s).air = s.air ∧
      (tickTimers s).faults = s.faults ∧
      (tickTimers s).reads = s.reads ∧
      (tickTimers s).bus = s.bus ∧
      (tickTimers s).hostMem = s.hostMem ∧
      (tickTimers s).freeCount = s.freeCount := by
  simp only [tickTimers]
  simp

@[simp] theorem requestDoors_keeps (e : DueEntry) (time : Nat) (s : State) :
    (requestDoors e time s).pending = s.pending ∧
      (requestDoors e time s).win = s.win ∧
      (requestDoors e time s).clock = s.clock ∧
      (requestDoors e time s).shows = s.shows ∧
      (requestDoors e time s).desks = s.desks ∧
      (requestDoors e time s).arb = s.arb ∧
      (requestDoors e time s).air = s.air ∧
      (requestDoors e time s).displays = s.displays ∧
      (requestDoors e time s).stream = s.stream ∧
      (requestDoors e time s).faults = s.faults ∧
      (requestDoors e time s).reads = s.reads ∧
      (requestDoors e time s).hostMem = s.hostMem ∧
      (requestDoors e time s).freeCount = s.freeCount := by
  simp only [requestDoors]
  repeat' split
  all_goals simp

@[simp] theorem perform_keeps (e : DueEntry) (time : Nat) (s : State) :
    (perform e time s).1.pending = s.pending ∧
      (perform e time s).1.clock = s.clock ∧
      (perform e time s).1.arb = s.arb ∧
      (perform e time s).1.air = s.air ∧
      (perform e time s).1.displays = s.displays ∧
      (perform e time s).1.stream = s.stream ∧
      (perform e time s).1.faults = s.faults ∧
      (perform e time s).1.reads = s.reads ∧
      (perform e time s).1.hostMem = s.hostMem ∧
      (perform e time s).1.freeCount = s.freeCount := by
  simp only [perform]
  repeat' split
  all_goals simp

@[simp] theorem catchUpLoop_keeps (fuel time : Nat) (q : List DueEntry) (n : Nat) (s : State) :
    (catchUpLoop fuel time q n s).1.pending = s.pending ∧
      (catchUpLoop fuel time q n s).1.clock = s.clock ∧
      (catchUpLoop fuel time q n s).1.arb = s.arb ∧
      (catchUpLoop fuel time q n s).1.air = s.air ∧
      (catchUpLoop fuel time q n s).1.displays = s.displays ∧
      (catchUpLoop fuel time q n s).1.stream = s.stream ∧
      (catchUpLoop fuel time q n s).1.faults = s.faults ∧
      (catchUpLoop fuel time q n s).1.reads = s.reads ∧
      (catchUpLoop fuel time q n s).1.hostMem = s.hostMem ∧
      (catchUpLoop fuel time q n s).1.freeCount = s.freeCount := by
  induction fuel generalizing q n s with
  | zero => simp [catchUpLoop]
  | succ k ih =>
    simp only [catchUpLoop]
    repeat' split
    all_goals simp [ih]

@[simp] theorem catchUp_keeps (time : Nat) (entries : List DueEntry) (s : State) :
    (catchUp time entries s).1.pending = s.pending ∧
      (catchUp time entries s).1.clock = s.clock ∧
      (catchUp time entries s).1.arb = s.arb ∧
      (catchUp time entries s).1.air = s.air ∧
      (catchUp time entries s).1.displays = s.displays ∧
      (catchUp time entries s).1.stream = s.stream ∧
      (catchUp time entries s).1.faults = s.faults ∧
      (catchUp time entries s).1.reads = s.reads ∧
      (catchUp time entries s).1.hostMem = s.hostMem ∧
      (catchUp time entries s).1.freeCount = s.freeCount := by
  simp only [catchUp]
  simp

@[simp] theorem placeShow_keeps (now : Nat) (i : ShowIx) (s : State) :
    (placeShow now i s).pending = s.pending ∧
      (placeShow now i s).clock = s.clock ∧
      (placeShow now i s).arb = s.arb ∧
      (placeShow now i s).air = s.air ∧
      (placeShow now i s).displays = s.displays ∧
      (placeShow now i s).stream = s.stream ∧
      (placeShow now i s).faults = s.faults ∧
      (placeShow now i s).reads = s.reads ∧
      (placeShow now i s).hostMem = s.hostMem ∧
      (placeShow now i s).freeCount = s.freeCount := by
  simp only [placeShow]
  repeat' split
  all_goals simp

@[simp] theorem placeAll_keeps (now : Nat) (s : State) :
    (placeAll now s).1.pending = s.pending ∧
      (placeAll now s).1.clock = s.clock ∧
      (placeAll now s).1.arb = s.arb ∧
      (placeAll now s).1.air = s.air ∧
      (placeAll now s).1.displays = s.displays ∧
      (placeAll now s).1.stream = s.stream ∧
      (placeAll now s).1.faults = s.faults ∧
      (placeAll now s).1.reads = s.reads ∧
      (placeAll now s).1.hostMem = s.hostMem ∧
      (placeAll now s).1.freeCount = s.freeCount := by
  simp only [placeAll]
  simp

@[simp] theorem finishClockSet_keeps (time : Nat) (first : Bool) (entries : List DueEntry) (s : State) :
    (finishClockSet time first entries s).pending = s.pending ∧
      (finishClockSet time first entries s).clock = s.clock ∧
      (finishClockSet time first entries s).arb = s.arb ∧
      (finishClockSet time first entries s).air = s.air ∧
      (finishClockSet time first entries s).displays = s.displays ∧
      (finishClockSet time first entries s).stream = s.stream ∧
      (finishClockSet time first entries s).faults = s.faults ∧
      (finishClockSet time first entries s).reads = s.reads ∧
      (finishClockSet time first entries s).hostMem = s.hostMem ∧
      (finishClockSet time first entries s).freeCount = s.freeCount := by
  simp only [finishClockSet]
  repeat' split
  all_goals simp

@[simp] theorem setLobby_keeps (value : Nat) (s : State) :
    (setLobby value s).1.pending = s.pending ∧
      (setLobby value s).1.win = s.win ∧
      (setLobby value s).1.shows = s.shows ∧
      (setLobby value s).1.desks = s.desks ∧
      (setLobby value s).1.arb = s.arb ∧
      (setLobby value s).1.air = s.air ∧
      (setLobby value s).1.displays = s.displays ∧
      (setLobby value s).1.stream = s.stream ∧
      (setLobby value s).1.faults = s.faults ∧
      (setLobby value s).1.reads = s.reads ∧
      (setLobby value s).1.bus = s.bus ∧
      (setLobby value s).1.hostMem = s.hostMem ∧
      (setLobby value s).1.freeCount = s.freeCount := by
  simp only [setLobby]
  simp

@[simp] theorem finishShow_keeps (i : ShowIx) (s : State) :
    (finishShow i s).pending = s.pending ∧
      (finishShow i s).clock = s.clock ∧
      (finishShow i s).shows = s.shows ∧
      (finishShow i s).desks = s.desks ∧
      (finishShow i s).arb = s.arb ∧
      (finishShow i s).air = s.air ∧
      (finishShow i s).displays = s.displays ∧
      (finishShow i s).stream = s.stream ∧
      (finishShow i s).faults = s.faults ∧
      (finishShow i s).reads = s.reads ∧
      (finishShow i s).bus = s.bus ∧
      (finishShow i s).hostMem = s.hostMem ∧
      (finishShow i s).freeCount = s.freeCount := by
  simp only [finishShow]
  simp

@[simp] theorem loadShow_keeps (b : ShowBody) (i : ShowIx) (s : State) :
    (loadShow b i s).pending = s.pending ∧
      (loadShow b i s).clock = s.clock ∧
      (loadShow b i s).desks = s.desks ∧
      (loadShow b i s).arb = s.arb ∧
      (loadShow b i s).air = s.air ∧
      (loadShow b i s).displays = s.displays ∧
      (loadShow b i s).stream = s.stream ∧
      (loadShow b i s).faults = s.faults ∧
      (loadShow b i s).reads = s.reads ∧
      (loadShow b i s).hostMem = s.hostMem ∧
      (loadShow b i s).freeCount = s.freeCount := by
  simp only [loadShow]
  repeat' split
  all_goals simp

@[simp] theorem showLoad_keeps (b : ShowBody) (s : State) :
    (showLoad b s).pending = s.pending ∧
      (showLoad b s).clock = s.clock ∧
      (showLoad b s).desks = s.desks ∧
      (showLoad b s).arb = s.arb ∧
      (showLoad b s).air = s.air ∧
      (showLoad b s).displays = s.displays ∧
      (showLoad b s).stream = s.stream ∧
      (showLoad b s).faults = s.faults ∧
      (showLoad b s).reads = s.reads ∧
      (showLoad b s).hostMem = s.hostMem := by
  simp only [showLoad]
  repeat' split
  all_goals simp

@[simp] theorem withShow_pending (f : Flight) (act : ShowIx → State → State) (s : State)
    (h : ∀ i s, (act i s).pending = s.pending) :
    (withShow f act s).pending = s.pending := by
  simp only [withShow]
  repeat' split
  all_goals simp [h]

@[simp] theorem withShow_clock (f : Flight) (act : ShowIx → State → State) (s : State)
    (h : ∀ i s, (act i s).clock = s.clock) :
    (withShow f act s).clock = s.clock := by
  simp only [withShow]
  repeat' split
  all_goals simp [h]

@[simp] theorem withShow_shows (f : Flight) (act : ShowIx → State → State) (s : State)
    (h : ∀ i s, (act i s).shows = s.shows) :
    (withShow f act s).shows = s.shows := by
  simp only [withShow]
  repeat' split
  all_goals simp [h]

@[simp] theorem withShow_desks (f : Flight) (act : ShowIx → State → State) (s : State)
    (h : ∀ i s, (act i s).desks = s.desks) :
    (withShow f act s).desks = s.desks := by
  simp only [withShow]
  repeat' split
  all_goals simp [h]

@[simp] theorem withShow_arb (f : Flight) (act : ShowIx → State → State) (s : State)
    (h : ∀ i s, (act i s).arb = s.arb) :
    (withShow f act s).arb = s.arb := by
  simp only [withShow]
  repeat' split
  all_goals simp [h]

@[simp] theorem withShow_air (f : Flight) (act : ShowIx → State → State) (s : State)
    (h : ∀ i s, (act i s).air = s.air) :
    (withShow f act s).air = s.air := by
  simp only [withShow]
  repeat' split
  all_goals simp [h]

@[simp] theorem withShow_displays (f : Flight) (act : ShowIx → State → State) (s : State)
    (h : ∀ i s, (act i s).displays = s.displays) :
    (withShow f act s).displays = s.displays := by
  simp only [withShow]
  repeat' split
  all_goals simp [h]

@[simp] theorem withShow_stream (f : Flight) (act : ShowIx → State → State) (s : State)
    (h : ∀ i s, (act i s).stream = s.stream) :
    (withShow f act s).stream = s.stream := by
  simp only [withShow]
  repeat' split
  all_goals simp [h]

@[simp] theorem withShow_faults (f : Flight) (act : ShowIx → State → State) (s : State)
    (h : ∀ i s, (act i s).faults = s.faults) :
    (withShow f act s).faults = s.faults := by
  simp only [withShow]
  repeat' split
  all_goals simp [h]

@[simp] theorem withShow_reads (f : Flight) (act : ShowIx → State → State) (s : State)
    (h : ∀ i s, (act i s).reads = s.reads) :
    (withShow f act s).reads = s.reads := by
  simp only [withShow]
  repeat' split
  all_goals simp [h]

@[simp] theorem withShow_bus (f : Flight) (act : ShowIx → State → State) (s : State)
    (h : ∀ i s, (act i s).bus = s.bus) :
    (withShow f act s).bus = s.bus := by
  simp only [withShow]
  repeat' split
  all_goals simp [h]

@[simp] theorem withShow_hostMem (f : Flight) (act : ShowIx → State → State) (s : State)
    (h : ∀ i s, (act i s).hostMem = s.hostMem) :
    (withShow f act s).hostMem = s.hostMem := by
  simp only [withShow]
  repeat' split
  all_goals simp [h]

@[simp] theorem haltShow_keeps (i : ShowIx) (s : State) :
    (haltShow i s).pending = s.pending ∧
      (haltShow i s).clock = s.clock ∧
      (haltShow i s).desks = s.desks ∧
      (haltShow i s).arb = s.arb ∧
      (haltShow i s).air = s.air ∧
      (haltShow i s).displays = s.displays ∧
      (haltShow i s).stream = s.stream ∧
      (haltShow i s).faults = s.faults ∧
      (haltShow i s).reads = s.reads ∧
      (haltShow i s).hostMem = s.hostMem := by
  simp only [haltShow]
  repeat' split
  all_goals simp

@[simp] theorem resumeShow_keeps (i : ShowIx) (s : State) :
    (resumeShow i s).pending = s.pending ∧
      (resumeShow i s).clock = s.clock ∧
      (resumeShow i s).desks = s.desks ∧
      (resumeShow i s).arb = s.arb ∧
      (resumeShow i s).air = s.air ∧
      (resumeShow i s).displays = s.displays ∧
      (resumeShow i s).stream = s.stream ∧
      (resumeShow i s).faults = s.faults ∧
      (resumeShow i s).reads = s.reads ∧
      (resumeShow i s).hostMem = s.hostMem := by
  simp only [resumeShow]
  repeat' split
  all_goals simp

@[simp] theorem cancelShow_keeps (i : ShowIx) (s : State) :
    (cancelShow i s).pending = s.pending ∧
      (cancelShow i s).clock = s.clock ∧
      (cancelShow i s).arb = s.arb ∧
      (cancelShow i s).air = s.air ∧
      (cancelShow i s).displays = s.displays ∧
      (cancelShow i s).stream = s.stream ∧
      (cancelShow i s).faults = s.faults ∧
      (cancelShow i s).reads = s.reads ∧
      (cancelShow i s).hostMem = s.hostMem := by
  simp only [cancelShow]
  repeat' split
  all_goals simp

@[simp] theorem dropShow_keeps (i : ShowIx) (s : State) :
    (dropShow i s).pending = s.pending ∧
      (dropShow i s).clock = s.clock ∧
      (dropShow i s).arb = s.arb ∧
      (dropShow i s).air = s.air ∧
      (dropShow i s).displays = s.displays ∧
      (dropShow i s).stream = s.stream ∧
      (dropShow i s).faults = s.faults ∧
      (dropShow i s).reads = s.reads ∧
      (dropShow i s).hostMem = s.hostMem ∧
      (dropShow i s).freeCount = s.freeCount := by
  simp only [dropShow]
  repeat' split
  all_goals simp

@[simp] theorem amendTimes_keeps (i : ShowIx) (prev : Band) (now : Nat) (s : State) :
    (amendTimes i prev now s).pending = s.pending ∧
      (amendTimes i prev now s).clock = s.clock ∧
      (amendTimes i prev now s).arb = s.arb ∧
      (amendTimes i prev now s).air = s.air ∧
      (amendTimes i prev now s).displays = s.displays ∧
      (amendTimes i prev now s).stream = s.stream ∧
      (amendTimes i prev now s).faults = s.faults ∧
      (amendTimes i prev now s).reads = s.reads ∧
      (amendTimes i prev now s).hostMem = s.hostMem ∧
      (amendTimes i prev now s).freeCount = s.freeCount := by
  simp only [amendTimes]
  repeat' split
  all_goals simp

@[simp] theorem applyAmend_keeps (m : Nat → Bool) (b : ShowBody) (capture : List Byte) (i : ShowIx) (s : State) :
    (applyAmend m b capture i s).pending = s.pending ∧
      (applyAmend m b capture i s).clock = s.clock ∧
      (applyAmend m b capture i s).arb = s.arb ∧
      (applyAmend m b capture i s).air = s.air ∧
      (applyAmend m b capture i s).displays = s.displays ∧
      (applyAmend m b capture i s).stream = s.stream ∧
      (applyAmend m b capture i s).faults = s.faults ∧
      (applyAmend m b capture i s).reads = s.reads ∧
      (applyAmend m b capture i s).hostMem = s.hostMem ∧
      (applyAmend m b capture i s).freeCount = s.freeCount := by
  simp only [applyAmend]
  repeat' split
  all_goals simp

@[simp] theorem showAmend_keeps (b : ShowBody) (capture : List Byte) (s : State) :
    (showAmend b capture s).pending = s.pending ∧
      (showAmend b capture s).clock = s.clock ∧
      (showAmend b capture s).arb = s.arb ∧
      (showAmend b capture s).air = s.air ∧
      (showAmend b capture s).displays = s.displays ∧
      (showAmend b capture s).stream = s.stream ∧
      (showAmend b capture s).faults = s.faults ∧
      (showAmend b capture s).reads = s.reads ∧
      (showAmend b capture s).hostMem = s.hostMem := by
  simp only [showAmend]
  repeat' split
  all_goals simp

@[simp] theorem finishAvail_keeps (code : OutcomeCode) (i : ShowIx) (s : State) :
    (finishAvail code i s).pending = s.pending ∧
      (finishAvail code i s).clock = s.clock ∧
      (finishAvail code i s).shows = s.shows ∧
      (finishAvail code i s).desks = s.desks ∧
      (finishAvail code i s).arb = s.arb ∧
      (finishAvail code i s).air = s.air ∧
      (finishAvail code i s).displays = s.displays ∧
      (finishAvail code i s).stream = s.stream ∧
      (finishAvail code i s).faults = s.faults ∧
      (finishAvail code i s).reads = s.reads ∧
      (finishAvail code i s).bus = s.bus ∧
      (finishAvail code i s).hostMem = s.hostMem ∧
      (finishAvail code i s).freeCount = s.freeCount := by
  simp only [finishAvail]
  simp

@[simp] theorem endTally_keeps (code : OutcomeCode) (i : ShowIx) (before : ShowRec) (capture : List Byte) (s : State) :
    (endTally code i before capture s).pending = s.pending ∧
      (endTally code i before capture s).clock = s.clock ∧
      (endTally code i before capture s).desks = s.desks ∧
      (endTally code i before capture s).arb = s.arb ∧
      (endTally code i before capture s).air = s.air ∧
      (endTally code i before capture s).displays = s.displays ∧
      (endTally code i before capture s).stream = s.stream ∧
      (endTally code i before capture s).faults = s.faults ∧
      (endTally code i before capture s).reads = s.reads ∧
      (endTally code i before capture s).hostMem = s.hostMem ∧
      (endTally code i before capture s).freeCount = s.freeCount := by
  simp only [endTally]
  simp

@[simp] theorem applySale_keeps (b : SaleBody) (capture : List Byte) (i : ShowIx) (s : State) :
    (applySale b capture i s).pending = s.pending ∧
      (applySale b capture i s).clock = s.clock ∧
      (applySale b capture i s).desks = s.desks ∧
      (applySale b capture i s).arb = s.arb ∧
      (applySale b capture i s).air = s.air ∧
      (applySale b capture i s).displays = s.displays ∧
      (applySale b capture i s).stream = s.stream ∧
      (applySale b capture i s).faults = s.faults ∧
      (applySale b capture i s).reads = s.reads ∧
      (applySale b capture i s).hostMem = s.hostMem ∧
      (applySale b capture i s).freeCount = s.freeCount := by
  simp only [applySale]
  repeat' split
  all_goals simp

@[simp] theorem takeSale_keeps (b : SaleBody) (capture : List Byte) (s : State) :
    (takeSale b capture s).pending = s.pending ∧
      (takeSale b capture s).clock = s.clock ∧
      (takeSale b capture s).desks = s.desks ∧
      (takeSale b capture s).arb = s.arb ∧
      (takeSale b capture s).air = s.air ∧
      (takeSale b capture s).displays = s.displays ∧
      (takeSale b capture s).stream = s.stream ∧
      (takeSale b capture s).faults = s.faults ∧
      (takeSale b capture s).reads = s.reads ∧
      (takeSale b capture s).hostMem = s.hostMem ∧
      (takeSale b capture s).freeCount = s.freeCount := by
  simp only [takeSale]
  repeat' split
  all_goals simp

@[simp] theorem takeRefund_keeps (n seats : Nat) (capture : List Byte) (s : State) :
    (takeRefund n seats capture s).pending = s.pending ∧
      (takeRefund n seats capture s).clock = s.clock ∧
      (takeRefund n seats capture s).desks = s.desks ∧
      (takeRefund n seats capture s).arb = s.arb ∧
      (takeRefund n seats capture s).air = s.air ∧
      (takeRefund n seats capture s).displays = s.displays ∧
      (takeRefund n seats capture s).stream = s.stream ∧
      (takeRefund n seats capture s).faults = s.faults ∧
      (takeRefund n seats capture s).reads = s.reads ∧
      (takeRefund n seats capture s).hostMem = s.hostMem ∧
      (takeRefund n seats capture s).freeCount = s.freeCount := by
  simp only [takeRefund]
  repeat' split
  all_goals simp

@[simp] theorem takeBlock_keeps (n : Nat) (delta : Int) (capture : List Byte) (s : State) :
    (takeBlock n delta capture s).pending = s.pending ∧
      (takeBlock n delta capture s).clock = s.clock ∧
      (takeBlock n delta capture s).desks = s.desks ∧
      (takeBlock n delta capture s).arb = s.arb ∧
      (takeBlock n delta capture s).air = s.air ∧
      (takeBlock n delta capture s).displays = s.displays ∧
      (takeBlock n delta capture s).stream = s.stream ∧
      (takeBlock n delta capture s).faults = s.faults ∧
      (takeBlock n delta capture s).reads = s.reads ∧
      (takeBlock n delta capture s).hostMem = s.hostMem ∧
      (takeBlock n delta capture s).freeCount = s.freeCount := by
  simp only [takeBlock]
  repeat' split
  all_goals simp

@[simp] theorem placeHold_keeps (d : DeskIx) (seq : Byte) (i : ShowIx) (seats : Nat) (k : HoldIx) (s : State) :
    (placeHold d seq i seats k s).pending = s.pending ∧
      (placeHold d seq i seats k s).clock = s.clock ∧
      (placeHold d seq i seats k s).arb = s.arb ∧
      (placeHold d seq i seats k s).air = s.air ∧
      (placeHold d seq i seats k s).displays = s.displays ∧
      (placeHold d seq i seats k s).stream = s.stream ∧
      (placeHold d seq i seats k s).faults = s.faults ∧
      (placeHold d seq i seats k s).reads = s.reads ∧
      (placeHold d seq i seats k s).hostMem = s.hostMem ∧
      (placeHold d seq i seats k s).freeCount = s.freeCount := by
  simp only [placeHold]
  simp

@[simp] theorem takeHold_keeps (e : IntakeEntry) (s : State) :
    (takeHold e s).pending = s.pending ∧
      (takeHold e s).clock = s.clock ∧
      (takeHold e s).arb = s.arb ∧
      (takeHold e s).air = s.air ∧
      (takeHold e s).displays = s.displays ∧
      (takeHold e s).stream = s.stream ∧
      (takeHold e s).faults = s.faults ∧
      (takeHold e s).reads = s.reads ∧
      (takeHold e s).hostMem = s.hostMem ∧
      (takeHold e s).freeCount = s.freeCount := by
  simp only [takeHold]
  repeat' split
  all_goals simp

@[simp] theorem extendHold_keeps (e : IntakeEntry) (ref : Nat) (k : HoldIx) (h : HoldRec) (s : State) :
    (extendHold e ref k h s).pending = s.pending ∧
      (extendHold e ref k h s).clock = s.clock ∧
      (extendHold e ref k h s).arb = s.arb ∧
      (extendHold e ref k h s).air = s.air ∧
      (extendHold e ref k h s).displays = s.displays ∧
      (extendHold e ref k h s).stream = s.stream ∧
      (extendHold e ref k h s).faults = s.faults ∧
      (extendHold e ref k h s).reads = s.reads ∧
      (extendHold e ref k h s).hostMem = s.hostMem ∧
      (extendHold e ref k h s).freeCount = s.freeCount := by
  simp only [extendHold]
  simp

@[simp] theorem takeExtend_keeps (e : IntakeEntry) (s : State) :
    (takeExtend e s).pending = s.pending ∧
      (takeExtend e s).clock = s.clock ∧
      (takeExtend e s).arb = s.arb ∧
      (takeExtend e s).air = s.air ∧
      (takeExtend e s).displays = s.displays ∧
      (takeExtend e s).stream = s.stream ∧
      (takeExtend e s).faults = s.faults ∧
      (takeExtend e s).reads = s.reads ∧
      (takeExtend e s).hostMem = s.hostMem ∧
      (takeExtend e s).freeCount = s.freeCount := by
  simp only [takeExtend]
  repeat' split
  all_goals simp

@[simp] theorem freeAndCommit_keeps (k : HoldIx) (h : HoldRec) (s : State) :
    (freeAndCommit k h s).pending = s.pending ∧
      (freeAndCommit k h s).clock = s.clock ∧
      (freeAndCommit k h s).desks = s.desks ∧
      (freeAndCommit k h s).arb = s.arb ∧
      (freeAndCommit k h s).air = s.air ∧
      (freeAndCommit k h s).displays = s.displays ∧
      (freeAndCommit k h s).stream = s.stream ∧
      (freeAndCommit k h s).faults = s.faults ∧
      (freeAndCommit k h s).reads = s.reads ∧
      (freeAndCommit k h s).hostMem = s.hostMem ∧
      (freeAndCommit k h s).freeCount = s.freeCount := by
  simp only [freeAndCommit]
  simp

@[simp] theorem takeRelease_keeps (e : IntakeEntry) (s : State) :
    (takeRelease e s).pending = s.pending ∧
      (takeRelease e s).clock = s.clock ∧
      (takeRelease e s).arb = s.arb ∧
      (takeRelease e s).air = s.air ∧
      (takeRelease e s).displays = s.displays ∧
      (takeRelease e s).stream = s.stream ∧
      (takeRelease e s).faults = s.faults ∧
      (takeRelease e s).reads = s.reads ∧
      (takeRelease e s).hostMem = s.hostMem ∧
      (takeRelease e s).freeCount = s.freeCount := by
  simp only [takeRelease]
  repeat' split
  all_goals simp

@[simp] theorem countPort_keeps (d : DeskIx) (f : PortCounters → PortCounters) (s : State) :
    (countPort d f s).pending = s.pending ∧
      (countPort d f s).win = s.win ∧
      (countPort d f s).clock = s.clock ∧
      (countPort d f s).shows = s.shows ∧
      (countPort d f s).arb = s.arb ∧
      (countPort d f s).air = s.air ∧
      (countPort d f s).displays = s.displays ∧
      (countPort d f s).stream = s.stream ∧
      (countPort d f s).faults = s.faults ∧
      (countPort d f s).reads = s.reads ∧
      (countPort d f s).bus = s.bus ∧
      (countPort d f s).hostMem = s.hostMem ∧
      (countPort d f s).freeCount = s.freeCount := by
  simp only [countPort]
  simp

@[simp] theorem setPaused_keeps (s : State) :
    (setPaused s).pending = s.pending ∧
      (setPaused s).win = s.win ∧
      (setPaused s).clock = s.clock ∧
      (setPaused s).shows = s.shows ∧
      (setPaused s).arb = s.arb ∧
      (setPaused s).air = s.air ∧
      (setPaused s).displays = s.displays ∧
      (setPaused s).stream = s.stream ∧
      (setPaused s).faults = s.faults ∧
      (setPaused s).reads = s.reads ∧
      (setPaused s).hostMem = s.hostMem ∧
      (setPaused s).freeCount = s.freeCount := by
  simp only [setPaused]
  simp

@[simp] theorem clearPaused_keeps (s : State) :
    (clearPaused s).pending = s.pending ∧
      (clearPaused s).win = s.win ∧
      (clearPaused s).clock = s.clock ∧
      (clearPaused s).shows = s.shows ∧
      (clearPaused s).arb = s.arb ∧
      (clearPaused s).air = s.air ∧
      (clearPaused s).displays = s.displays ∧
      (clearPaused s).stream = s.stream ∧
      (clearPaused s).faults = s.faults ∧
      (clearPaused s).reads = s.reads ∧
      (clearPaused s).hostMem = s.hostMem ∧
      (clearPaused s).freeCount = s.freeCount := by
  simp only [clearPaused]
  simp

@[simp] theorem placeIntake_keeps (e : IntakeEntry) (raw : List Byte) (s : State) :
    (placeIntake e raw s).pending = s.pending ∧
      (placeIntake e raw s).win = s.win ∧
      (placeIntake e raw s).clock = s.clock ∧
      (placeIntake e raw s).shows = s.shows ∧
      (placeIntake e raw s).arb = s.arb ∧
      (placeIntake e raw s).air = s.air ∧
      (placeIntake e raw s).displays = s.displays ∧
      (placeIntake e raw s).stream = s.stream ∧
      (placeIntake e raw s).faults = s.faults ∧
      (placeIntake e raw s).reads = s.reads ∧
      (placeIntake e raw s).hostMem = s.hostMem ∧
      (placeIntake e raw s).freeCount = s.freeCount := by
  simp only [placeIntake]
  repeat' split
  all_goals simp

@[simp] theorem rejectFrame_keeps (d : DeskIx) (seq : Byte) (r : Reason) (kind : Byte) (s : State) :
    (rejectFrame d seq r kind s).pending = s.pending ∧
      (rejectFrame d seq r kind s).win = s.win ∧
      (rejectFrame d seq r kind s).clock = s.clock ∧
      (rejectFrame d seq r kind s).shows = s.shows ∧
      (rejectFrame d seq r kind s).arb = s.arb ∧
      (rejectFrame d seq r kind s).air = s.air ∧
      (rejectFrame d seq r kind s).displays = s.displays ∧
      (rejectFrame d seq r kind s).stream = s.stream ∧
      (rejectFrame d seq r kind s).faults = s.faults ∧
      (rejectFrame d seq r kind s).reads = s.reads ∧
      (rejectFrame d seq r kind s).hostMem = s.hostMem ∧
      (rejectFrame d seq r kind s).freeCount = s.freeCount := by
  simp only [rejectFrame]
  simp

@[simp] theorem checkFrame_keeps (d : DeskIx) (raw : List Byte) (idle : Bool) (s : State) :
    (checkFrame d raw idle s).pending = s.pending ∧
      (checkFrame d raw idle s).win = s.win ∧
      (checkFrame d raw idle s).clock = s.clock ∧
      (checkFrame d raw idle s).shows = s.shows ∧
      (checkFrame d raw idle s).arb = s.arb ∧
      (checkFrame d raw idle s).air = s.air ∧
      (checkFrame d raw idle s).displays = s.displays ∧
      (checkFrame d raw idle s).stream = s.stream ∧
      (checkFrame d raw idle s).faults = s.faults ∧
      (checkFrame d raw idle s).reads = s.reads ∧
      (checkFrame d raw idle s).hostMem = s.hostMem ∧
      (checkFrame d raw idle s).freeCount = s.freeCount := by
  simp only [checkFrame]
  repeat' split
  all_goals simp

@[simp] theorem endFrame_keeps (d : DeskIx) (raw : List Byte) (idle : Bool) (next : RxPhase) (s : State) :
    (endFrame d raw idle next s).pending = s.pending ∧
      (endFrame d raw idle next s).win = s.win ∧
      (endFrame d raw idle next s).clock = s.clock ∧
      (endFrame d raw idle next s).shows = s.shows ∧
      (endFrame d raw idle next s).arb = s.arb ∧
      (endFrame d raw idle next s).air = s.air ∧
      (endFrame d raw idle next s).displays = s.displays ∧
      (endFrame d raw idle next s).stream = s.stream ∧
      (endFrame d raw idle next s).faults = s.faults ∧
      (endFrame d raw idle next s).reads = s.reads ∧
      (endFrame d raw idle next s).hostMem = s.hostMem ∧
      (endFrame d raw idle next s).freeCount = s.freeCount := by
  simp only [endFrame]
  repeat' split
  all_goals simp

@[simp] theorem enablePort_keeps (d : DeskIx) (s : State) :
    (enablePort d s).pending = s.pending ∧
      (enablePort d s).win = s.win ∧
      (enablePort d s).clock = s.clock ∧
      (enablePort d s).shows = s.shows ∧
      (enablePort d s).arb = s.arb ∧
      (enablePort d s).air = s.air ∧
      (enablePort d s).displays = s.displays ∧
      (enablePort d s).stream = s.stream ∧
      (enablePort d s).faults = s.faults ∧
      (enablePort d s).reads = s.reads ∧
      (enablePort d s).hostMem = s.hostMem ∧
      (enablePort d s).freeCount = s.freeCount := by
  simp only [enablePort]
  repeat' split
  all_goals simp

@[simp] theorem disablePort_keeps (d : DeskIx) (s : State) :
    (disablePort d s).pending = s.pending ∧
      (disablePort d s).win = s.win ∧
      (disablePort d s).clock = s.clock ∧
      (disablePort d s).shows = s.shows ∧
      (disablePort d s).arb = s.arb ∧
      (disablePort d s).air = s.air ∧
      (disablePort d s).displays = s.displays ∧
      (disablePort d s).stream = s.stream ∧
      (disablePort d s).faults = s.faults ∧
      (disablePort d s).reads = s.reads ∧
      (disablePort d s).hostMem = s.hostMem ∧
      (disablePort d s).freeCount = s.freeCount := by
  simp only [disablePort]
  repeat' split
  all_goals simp

@[simp] theorem takePort_keeps (d : DeskIx) (action : Nat) (clear : Bool) (s : State) :
    (takePort d action clear s).pending = s.pending ∧
      (takePort d action clear s).clock = s.clock ∧
      (takePort d action clear s).shows = s.shows ∧
      (takePort d action clear s).arb = s.arb ∧
      (takePort d action clear s).air = s.air ∧
      (takePort d action clear s).displays = s.displays ∧
      (takePort d action clear s).stream = s.stream ∧
      (takePort d action clear s).faults = s.faults ∧
      (takePort d action clear s).reads = s.reads ∧
      (takePort d action clear s).hostMem = s.hostMem ∧
      (takePort d action clear s).freeCount = s.freeCount := by
  simp only [takePort]
  repeat' split
  all_goals simp

@[simp] theorem setNotice_keeps (i : NoticeIx) (n : Notice) (s : State) :
    (setNotice i n s).pending = s.pending ∧
      (setNotice i n s).win = s.win ∧
      (setNotice i n s).clock = s.clock ∧
      (setNotice i n s).shows = s.shows ∧
      (setNotice i n s).desks = s.desks ∧
      (setNotice i n s).air = s.air ∧
      (setNotice i n s).displays = s.displays ∧
      (setNotice i n s).stream = s.stream ∧
      (setNotice i n s).faults = s.faults ∧
      (setNotice i n s).reads = s.reads ∧
      (setNotice i n s).bus = s.bus ∧
      (setNotice i n s).hostMem = s.hostMem ∧
      (setNotice i n s).freeCount = s.freeCount := by
  simp only [setNotice]
  simp

@[simp] theorem withArb_keeps (d : DisplayIx) (f : ArbRec → ArbRec) (s : State) :
    (withArb d f s).pending = s.pending ∧
      (withArb d f s).win = s.win ∧
      (withArb d f s).clock = s.clock ∧
      (withArb d f s).shows = s.shows ∧
      (withArb d f s).desks = s.desks ∧
      (withArb d f s).air = s.air ∧
      (withArb d f s).displays = s.displays ∧
      (withArb d f s).stream = s.stream ∧
      (withArb d f s).faults = s.faults ∧
      (withArb d f s).reads = s.reads ∧
      (withArb d f s).bus = s.bus ∧
      (withArb d f s).hostMem = s.hostMem ∧
      (withArb d f s).freeCount = s.freeCount := by
  simp only [withArb]
  simp

@[simp] theorem signalPanel_keeps (g : PanelSignal) (s : State) :
    (signalPanel g s).pending = s.pending ∧
      (signalPanel g s).win = s.win ∧
      (signalPanel g s).clock = s.clock ∧
      (signalPanel g s).shows = s.shows ∧
      (signalPanel g s).desks = s.desks ∧
      (signalPanel g s).arb = s.arb ∧
      (signalPanel g s).air = s.air ∧
      (signalPanel g s).displays = s.displays ∧
      (signalPanel g s).stream = s.stream ∧
      (signalPanel g s).faults = s.faults ∧
      (signalPanel g s).reads = s.reads ∧
      (signalPanel g s).hostMem = s.hostMem ∧
      (signalPanel g s).freeCount = s.freeCount := by
  simp only [signalPanel]
  simp

@[simp] theorem reportStrip_keeps (d : DisplayIx) (s : State) :
    (reportStrip d s).pending = s.pending ∧
      (reportStrip d s).win = s.win ∧
      (reportStrip d s).clock = s.clock ∧
      (reportStrip d s).shows = s.shows ∧
      (reportStrip d s).desks = s.desks ∧
      (reportStrip d s).arb = s.arb ∧
      (reportStrip d s).air = s.air ∧
      (reportStrip d s).displays = s.displays ∧
      (reportStrip d s).stream = s.stream ∧
      (reportStrip d s).faults = s.faults ∧
      (reportStrip d s).reads = s.reads ∧
      (reportStrip d s).hostMem = s.hostMem ∧
      (reportStrip d s).freeCount = s.freeCount := by
  simp only [reportStrip]
  simp

@[simp] theorem enterPending_keeps (i : NoticeIx) (d : DisplayIx) (s : State) :
    (enterPending i d s).pending = s.pending ∧
      (enterPending i d s).win = s.win ∧
      (enterPending i d s).clock = s.clock ∧
      (enterPending i d s).shows = s.shows ∧
      (enterPending i d s).desks = s.desks ∧
      (enterPending i d s).air = s.air ∧
      (enterPending i d s).displays = s.displays ∧
      (enterPending i d s).stream = s.stream ∧
      (enterPending i d s).faults = s.faults ∧
      (enterPending i d s).reads = s.reads ∧
      (enterPending i d s).bus = s.bus ∧
      (enterPending i d s).hostMem = s.hostMem ∧
      (enterPending i d s).freeCount = s.freeCount := by
  simp only [enterPending]
  simp

@[simp] theorem removeAt_keeps (i : NoticeIx) (d : DisplayIx) (s : State) :
    (removeAt i d s).pending = s.pending ∧
      (removeAt i d s).win = s.win ∧
      (removeAt i d s).clock = s.clock ∧
      (removeAt i d s).shows = s.shows ∧
      (removeAt i d s).desks = s.desks ∧
      (removeAt i d s).air = s.air ∧
      (removeAt i d s).displays = s.displays ∧
      (removeAt i d s).stream = s.stream ∧
      (removeAt i d s).faults = s.faults ∧
      (removeAt i d s).reads = s.reads ∧
      (removeAt i d s).hostMem = s.hostMem ∧
      (removeAt i d s).freeCount = s.freeCount := by
  simp only [removeAt]
  repeat' split
  all_goals simp

@[simp] theorem removeEverywhere_keeps (i : NoticeIx) (s : State) :
    (removeEverywhere i s).pending = s.pending ∧
      (removeEverywhere i s).win = s.win ∧
      (removeEverywhere i s).clock = s.clock ∧
      (removeEverywhere i s).shows = s.shows ∧
      (removeEverywhere i s).desks = s.desks ∧
      (removeEverywhere i s).air = s.air ∧
      (removeEverywhere i s).displays = s.displays ∧
      (removeEverywhere i s).stream = s.stream ∧
      (removeEverywhere i s).faults = s.faults ∧
      (removeEverywhere i s).reads = s.reads ∧
      (removeEverywhere i s).hostMem = s.hostMem ∧
      (removeEverywhere i s).freeCount = s.freeCount := by
  simp only [removeEverywhere]
  simp

@[simp] theorem concludeEnding_keeps (r : NoticeEnd) (i : NoticeIx) (s : State) :
    (concludeEnding r i s).pending = s.pending ∧
      (concludeEnding r i s).win = s.win ∧
      (concludeEnding r i s).clock = s.clock ∧
      (concludeEnding r i s).shows = s.shows ∧
      (concludeEnding r i s).air = s.air ∧
      (concludeEnding r i s).displays = s.displays ∧
      (concludeEnding r i s).stream = s.stream ∧
      (concludeEnding r i s).faults = s.faults ∧
      (concludeEnding r i s).reads = s.reads ∧
      (concludeEnding r i s).hostMem = s.hostMem ∧
      (concludeEnding r i s).freeCount = s.freeCount := by
  simp only [concludeEnding]
  repeat' split
  all_goals simp

@[simp] theorem pushNotice_keeps (i : NoticeIx) (d : DisplayIx) (s : State) :
    (pushNotice i d s).pending = s.pending ∧
      (pushNotice i d s).win = s.win ∧
      (pushNotice i d s).clock = s.clock ∧
      (pushNotice i d s).shows = s.shows ∧
      (pushNotice i d s).desks = s.desks ∧
      (pushNotice i d s).air = s.air ∧
      (pushNotice i d s).displays = s.displays ∧
      (pushNotice i d s).stream = s.stream ∧
      (pushNotice i d s).faults = s.faults ∧
      (pushNotice i d s).reads = s.reads ∧
      (pushNotice i d s).hostMem = s.hostMem ∧
      (pushNotice i d s).freeCount = s.freeCount := by
  simp only [pushNotice]
  repeat' split
  all_goals simp

@[simp] theorem evaluate_keeps (n : Nat) (ds : List DisplayIx) (s : State) :
    (evaluate n ds s).pending = s.pending ∧
      (evaluate n ds s).win = s.win ∧
      (evaluate n ds s).clock = s.clock ∧
      (evaluate n ds s).shows = s.shows ∧
      (evaluate n ds s).air = s.air ∧
      (evaluate n ds s).displays = s.displays ∧
      (evaluate n ds s).stream = s.stream ∧
      (evaluate n ds s).faults = s.faults ∧
      (evaluate n ds s).reads = s.reads ∧
      (evaluate n ds s).hostMem = s.hostMem ∧
      (evaluate n ds s).freeCount = s.freeCount := by
  induction n generalizing ds s with
  | zero => simp [evaluate]
  | succ n ih =>
    cases ds with
    | nil => simp [evaluate]
    | cons d rest =>
      simp only [evaluate]
      repeat' split
      all_goals simp [ih]

@[simp] theorem evaluateAll_keeps (ds : List DisplayIx) (s : State) :
    (evaluateAll ds s).pending = s.pending ∧
      (evaluateAll ds s).win = s.win ∧
      (evaluateAll ds s).clock = s.clock ∧
      (evaluateAll ds s).shows = s.shows ∧
      (evaluateAll ds s).air = s.air ∧
      (evaluateAll ds s).displays = s.displays ∧
      (evaluateAll ds s).stream = s.stream ∧
      (evaluateAll ds s).faults = s.faults ∧
      (evaluateAll ds s).reads = s.reads ∧
      (evaluateAll ds s).hostMem = s.hostMem ∧
      (evaluateAll ds s).freeCount = s.freeCount := by
  simp only [evaluateAll]
  simp

@[simp] theorem endNotice_keeps (r : NoticeEnd) (i : NoticeIx) (s : State) :
    (endNotice r i s).pending = s.pending ∧
      (endNotice r i s).win = s.win ∧
      (endNotice r i s).clock = s.clock ∧
      (endNotice r i s).shows = s.shows ∧
      (endNotice r i s).air = s.air ∧
      (endNotice r i s).displays = s.displays ∧
      (endNotice r i s).stream = s.stream ∧
      (endNotice r i s).faults = s.faults ∧
      (endNotice r i s).reads = s.reads ∧
      (endNotice r i s).hostMem = s.hostMem ∧
      (endNotice r i s).freeCount = s.freeCount := by
  simp only [endNotice]
  repeat' split
  all_goals simp

@[simp] theorem withdrawPending_keeps (i : NoticeIx) (s : State) :
    (withdrawPending i s).pending = s.pending ∧
      (withdrawPending i s).win = s.win ∧
      (withdrawPending i s).clock = s.clock ∧
      (withdrawPending i s).shows = s.shows ∧
      (withdrawPending i s).desks = s.desks ∧
      (withdrawPending i s).air = s.air ∧
      (withdrawPending i s).displays = s.displays ∧
      (withdrawPending i s).stream = s.stream ∧
      (withdrawPending i s).faults = s.faults ∧
      (withdrawPending i s).reads = s.reads ∧
      (withdrawPending i s).bus = s.bus ∧
      (withdrawPending i s).hostMem = s.hostMem ∧
      (withdrawPending i s).freeCount = s.freeCount := by
  simp only [withdrawPending]
  simp

@[simp] theorem endNotices_keeps (r : NoticeEnd) (is : List NoticeIx) (s : State) :
    (endNotices r is s).pending = s.pending ∧
      (endNotices r is s).win = s.win ∧
      (endNotices r is s).clock = s.clock ∧
      (endNotices r is s).shows = s.shows ∧
      (endNotices r is s).air = s.air ∧
      (endNotices r is s).displays = s.displays ∧
      (endNotices r is s).stream = s.stream ∧
      (endNotices r is s).faults = s.faults ∧
      (endNotices r is s).reads = s.reads ∧
      (endNotices r is s).hostMem = s.hostMem ∧
      (endNotices r is s).freeCount = s.freeCount := by
  simp only [endNotices]
  simp

@[simp] theorem placeNotice_keeps (i : NoticeIx) (s : State) :
    (placeNotice i s).pending = s.pending ∧
      (placeNotice i s).win = s.win ∧
      (placeNotice i s).clock = s.clock ∧
      (placeNotice i s).shows = s.shows ∧
      (placeNotice i s).air = s.air ∧
      (placeNotice i s).displays = s.displays ∧
      (placeNotice i s).stream = s.stream ∧
      (placeNotice i s).faults = s.faults ∧
      (placeNotice i s).reads = s.reads ∧
      (placeNotice i s).hostMem = s.hostMem ∧
      (placeNotice i s).freeCount = s.freeCount := by
  simp only [placeNotice]
  repeat' split
  all_goals simp

@[simp] theorem placeNotices_keeps (is : List NoticeIx) (s : State) :
    (placeNotices is s).pending = s.pending ∧
      (placeNotices is s).win = s.win ∧
      (placeNotices is s).clock = s.clock ∧
      (placeNotices is s).shows = s.shows ∧
      (placeNotices is s).air = s.air ∧
      (placeNotices is s).displays = s.displays ∧
      (placeNotices is s).stream = s.stream ∧
      (placeNotices is s).faults = s.faults ∧
      (placeNotices is s).reads = s.reads ∧
      (placeNotices is s).hostMem = s.hostMem ∧
      (placeNotices is s).freeCount = s.freeCount := by
  simp only [placeNotices]
  simp

@[simp] theorem compareTakeover_keeps (d : DisplayIx) (s : State) :
    (compareTakeover d s).pending = s.pending ∧
      (compareTakeover d s).win = s.win ∧
      (compareTakeover d s).clock = s.clock ∧
      (compareTakeover d s).shows = s.shows ∧
      (compareTakeover d s).desks = s.desks ∧
      (compareTakeover d s).air = s.air ∧
      (compareTakeover d s).displays = s.displays ∧
      (compareTakeover d s).stream = s.stream ∧
      (compareTakeover d s).faults = s.faults ∧
      (compareTakeover d s).reads = s.reads ∧
      (compareTakeover d s).hostMem = s.hostMem ∧
      (compareTakeover d s).freeCount = s.freeCount := by
  simp only [compareTakeover]
  repeat' split
  all_goals simp

@[simp] theorem settleNotice_keeps (before : State) (extra : Option NoticeIx) (i : NoticeIx) (s : State) :
    (settleNotice before extra i s).pending = s.pending ∧
      (settleNotice before extra i s).clock = s.clock ∧
      (settleNotice before extra i s).shows = s.shows ∧
      (settleNotice before extra i s).desks = s.desks ∧
      (settleNotice before extra i s).arb = s.arb ∧
      (settleNotice before extra i s).air = s.air ∧
      (settleNotice before extra i s).displays = s.displays ∧
      (settleNotice before extra i s).stream = s.stream ∧
      (settleNotice before extra i s).faults = s.faults ∧
      (settleNotice before extra i s).reads = s.reads ∧
      (settleNotice before extra i s).bus = s.bus ∧
      (settleNotice before extra i s).hostMem = s.hostMem ∧
      (settleNotice before extra i s).freeCount = s.freeCount := by
  simp only [settleNotice]
  repeat' split
  all_goals simp

@[simp] theorem settleNotices_keeps (before : State) (extra : Option NoticeIx) (s : State) :
    (settleNotices before extra s).pending = s.pending ∧
      (settleNotices before extra s).clock = s.clock ∧
      (settleNotices before extra s).shows = s.shows ∧
      (settleNotices before extra s).desks = s.desks ∧
      (settleNotices before extra s).arb = s.arb ∧
      (settleNotices before extra s).air = s.air ∧
      (settleNotices before extra s).displays = s.displays ∧
      (settleNotices before extra s).stream = s.stream ∧
      (settleNotices before extra s).faults = s.faults ∧
      (settleNotices before extra s).reads = s.reads ∧
      (settleNotices before extra s).bus = s.bus ∧
      (settleNotices before extra s).hostMem = s.hostMem ∧
      (settleNotices before extra s).freeCount = s.freeCount := by
  simp only [settleNotices]
  simp

@[simp] theorem noticeEvent_pending (e : Option NoticeIx) (act : State → State) (s : State)
    (h : (act s).pending = s.pending) :
    (noticeEvent e act s).pending = s.pending := by
  simp [noticeEvent, h]

@[simp] theorem noticeEvent_clock (e : Option NoticeIx) (act : State → State) (s : State)
    (h : (act s).clock = s.clock) :
    (noticeEvent e act s).clock = s.clock := by
  simp [noticeEvent, h]

@[simp] theorem noticeEvent_shows (e : Option NoticeIx) (act : State → State) (s : State)
    (h : (act s).shows = s.shows) :
    (noticeEvent e act s).shows = s.shows := by
  simp [noticeEvent, h]

@[simp] theorem noticeEvent_desks (e : Option NoticeIx) (act : State → State) (s : State)
    (h : (act s).desks = s.desks) :
    (noticeEvent e act s).desks = s.desks := by
  simp [noticeEvent, h]

@[simp] theorem noticeEvent_air (e : Option NoticeIx) (act : State → State) (s : State)
    (h : (act s).air = s.air) :
    (noticeEvent e act s).air = s.air := by
  simp [noticeEvent, h]

@[simp] theorem noticeEvent_displays (e : Option NoticeIx) (act : State → State) (s : State)
    (h : (act s).displays = s.displays) :
    (noticeEvent e act s).displays = s.displays := by
  simp [noticeEvent, h]

@[simp] theorem noticeEvent_stream (e : Option NoticeIx) (act : State → State) (s : State)
    (h : (act s).stream = s.stream) :
    (noticeEvent e act s).stream = s.stream := by
  simp [noticeEvent, h]

@[simp] theorem noticeEvent_faults (e : Option NoticeIx) (act : State → State) (s : State)
    (h : (act s).faults = s.faults) :
    (noticeEvent e act s).faults = s.faults := by
  simp [noticeEvent, h]

@[simp] theorem noticeEvent_reads (e : Option NoticeIx) (act : State → State) (s : State)
    (h : (act s).reads = s.reads) :
    (noticeEvent e act s).reads = s.reads := by
  simp [noticeEvent, h]

@[simp] theorem noticeEvent_hostMem (e : Option NoticeIx) (act : State → State) (s : State)
    (h : (act s).hostMem = s.hostMem) :
    (noticeEvent e act s).hostMem = s.hostMem := by
  simp [noticeEvent, h]

@[simp] theorem noticeEvent_freeCount (e : Option NoticeIx) (act : State → State) (s : State)
    (h : (act s).freeCount = s.freeCount) :
    (noticeEvent e act s).freeCount = s.freeCount := by
  simp [noticeEvent, h]

@[simp] theorem createNotice_keeps (p : Post) (i : NoticeIx) (s : State) :
    (createNotice p i s).pending = s.pending ∧
      (createNotice p i s).win = s.win ∧
      (createNotice p i s).clock = s.clock ∧
      (createNotice p i s).shows = s.shows ∧
      (createNotice p i s).air = s.air ∧
      (createNotice p i s).displays = s.displays ∧
      (createNotice p i s).stream = s.stream ∧
      (createNotice p i s).faults = s.faults ∧
      (createNotice p i s).reads = s.reads ∧
      (createNotice p i s).hostMem = s.hostMem ∧
      (createNotice p i s).freeCount = s.freeCount := by
  simp only [createNotice]
  repeat' split
  all_goals simp

@[simp] theorem collapseAt_keeps (i : NoticeIx) (s : State) (d : DisplayIx) :
    (collapseAt i s d).pending = s.pending ∧
      (collapseAt i s d).win = s.win ∧
      (collapseAt i s d).clock = s.clock ∧
      (collapseAt i s d).shows = s.shows ∧
      (collapseAt i s d).air = s.air ∧
      (collapseAt i s d).displays = s.displays ∧
      (collapseAt i s d).stream = s.stream ∧
      (collapseAt i s d).faults = s.faults ∧
      (collapseAt i s d).reads = s.reads ∧
      (collapseAt i s d).hostMem = s.hostMem ∧
      (collapseAt i s d).freeCount = s.freeCount := by
  simp only [collapseAt]
  repeat' split
  all_goals simp

@[simp] theorem collapseWhereHeld_keeps (i : NoticeIx) (s : State) (d : DisplayIx) :
    (collapseWhereHeld i s d).pending = s.pending ∧
      (collapseWhereHeld i s d).win = s.win ∧
      (collapseWhereHeld i s d).clock = s.clock ∧
      (collapseWhereHeld i s d).shows = s.shows ∧
      (collapseWhereHeld i s d).air = s.air ∧
      (collapseWhereHeld i s d).displays = s.displays ∧
      (collapseWhereHeld i s d).stream = s.stream ∧
      (collapseWhereHeld i s d).faults = s.faults ∧
      (collapseWhereHeld i s d).reads = s.reads ∧
      (collapseWhereHeld i s d).hostMem = s.hostMem ∧
      (collapseWhereHeld i s d).freeCount = s.freeCount := by
  simp only [collapseWhereHeld]
  repeat' split
  all_goals simp

@[simp] theorem collapseNotice_keeps (p : Post) (i : NoticeIx) (s : State) :
    (collapseNotice p i s).pending = s.pending ∧
      (collapseNotice p i s).win = s.win ∧
      (collapseNotice p i s).clock = s.clock ∧
      (collapseNotice p i s).shows = s.shows ∧
      (collapseNotice p i s).air = s.air ∧
      (collapseNotice p i s).displays = s.displays ∧
      (collapseNotice p i s).stream = s.stream ∧
      (collapseNotice p i s).faults = s.faults ∧
      (collapseNotice p i s).reads = s.reads ∧
      (collapseNotice p i s).hostMem = s.hostMem ∧
      (collapseNotice p i s).freeCount = s.freeCount := by
  simp only [collapseNotice]
  repeat' split
  all_goals simp

@[simp] theorem applyPost_keeps (p : Post) (s : State) :
    (applyPost p s).pending = s.pending ∧
      (applyPost p s).clock = s.clock ∧
      (applyPost p s).shows = s.shows ∧
      (applyPost p s).air = s.air ∧
      (applyPost p s).displays = s.displays ∧
      (applyPost p s).stream = s.stream ∧
      (applyPost p s).faults = s.faults ∧
      (applyPost p s).reads = s.reads ∧
      (applyPost p s).hostMem = s.hostMem ∧
      (applyPost p s).freeCount = s.freeCount := by
  simp only [applyPost]
  repeat' split
  all_goals simp

@[simp] theorem finishPost_keeps (before : State) (r : PostResult) (truncated : Bool) (s : State) :
    (finishPost before r truncated s).pending = s.pending ∧
      (finishPost before r truncated s).clock = s.clock ∧
      (finishPost before r truncated s).shows = s.shows ∧
      (finishPost before r truncated s).desks = s.desks ∧
      (finishPost before r truncated s).arb = s.arb ∧
      (finishPost before r truncated s).air = s.air ∧
      (finishPost before r truncated s).displays = s.displays ∧
      (finishPost before r truncated s).stream = s.stream ∧
      (finishPost before r truncated s).faults = s.faults ∧
      (finishPost before r truncated s).reads = s.reads ∧
      (finishPost before r truncated s).bus = s.bus ∧
      (finishPost before r truncated s).hostMem = s.hostMem ∧
      (finishPost before r truncated s).freeCount = s.freeCount := by
  simp only [finishPost]
  repeat' split
  all_goals simp

@[simp] theorem takePost_keeps (f : Flight) (s : State) :
    (takePost f s).pending = s.pending ∧
      (takePost f s).clock = s.clock ∧
      (takePost f s).shows = s.shows ∧
      (takePost f s).air = s.air ∧
      (takePost f s).displays = s.displays ∧
      (takePost f s).stream = s.stream ∧
      (takePost f s).faults = s.faults ∧
      (takePost f s).reads = s.reads ∧
      (takePost f s).hostMem = s.hostMem ∧
      (takePost f s).freeCount = s.freeCount := by
  simp only [takePost]
  repeat' split
  all_goals simp

@[simp] theorem takeDeskPost_keeps (e : IntakeEntry) (s : State) :
    (takeDeskPost e s).pending = s.pending ∧
      (takeDeskPost e s).clock = s.clock ∧
      (takeDeskPost e s).shows = s.shows ∧
      (takeDeskPost e s).air = s.air ∧
      (takeDeskPost e s).displays = s.displays ∧
      (takeDeskPost e s).stream = s.stream ∧
      (takeDeskPost e s).faults = s.faults ∧
      (takeDeskPost e s).reads = s.reads ∧
      (takeDeskPost e s).hostMem = s.hostMem ∧
      (takeDeskPost e s).freeCount = s.freeCount := by
  simp only [takeDeskPost]
  repeat' split
  all_goals simp

@[simp] theorem takeClear_keeps (ref : Nat) (s : State) :
    (takeClear ref s).pending = s.pending ∧
      (takeClear ref s).clock = s.clock ∧
      (takeClear ref s).shows = s.shows ∧
      (takeClear ref s).air = s.air ∧
      (takeClear ref s).displays = s.displays ∧
      (takeClear ref s).stream = s.stream ∧
      (takeClear ref s).faults = s.faults ∧
      (takeClear ref s).reads = s.reads ∧
      (takeClear ref s).hostMem = s.hostMem ∧
      (takeClear ref s).freeCount = s.freeCount := by
  simp only [takeClear]
  repeat' split
  all_goals simp

@[simp] theorem takeDeskClear_keeps (e : IntakeEntry) (s : State) :
    (takeDeskClear e s).pending = s.pending ∧
      (takeDeskClear e s).clock = s.clock ∧
      (takeDeskClear e s).shows = s.shows ∧
      (takeDeskClear e s).air = s.air ∧
      (takeDeskClear e s).displays = s.displays ∧
      (takeDeskClear e s).stream = s.stream ∧
      (takeDeskClear e s).faults = s.faults ∧
      (takeDeskClear e s).reads = s.reads ∧
      (takeDeskClear e s).hostMem = s.hostMem := by
  simp only [takeDeskClear]
  repeat' split
  all_goals simp

@[simp] theorem popReport_keeps (s : State) :
    (popReport s).pending = s.pending ∧
      (popReport s).win = s.win ∧
      (popReport s).clock = s.clock ∧
      (popReport s).shows = s.shows ∧
      (popReport s).desks = s.desks ∧
      (popReport s).arb = s.arb ∧
      (popReport s).air = s.air ∧
      (popReport s).displays = s.displays ∧
      (popReport s).stream = s.stream ∧
      (popReport s).faults = s.faults ∧
      (popReport s).reads = s.reads ∧
      (popReport s).hostMem = s.hostMem ∧
      (popReport s).freeCount = s.freeCount := by
  simp only [popReport]
  simp

@[simp] theorem setNoticeState_keeps (st : DisplayState) (d : DisplayIx) (s : State) :
    (setNoticeState st d s).pending = s.pending ∧
      (setNoticeState st d s).win = s.win ∧
      (setNoticeState st d s).clock = s.clock ∧
      (setNoticeState st d s).shows = s.shows ∧
      (setNoticeState st d s).desks = s.desks ∧
      (setNoticeState st d s).air = s.air ∧
      (setNoticeState st d s).displays = s.displays ∧
      (setNoticeState st d s).stream = s.stream ∧
      (setNoticeState st d s).faults = s.faults ∧
      (setNoticeState st d s).reads = s.reads ∧
      (setNoticeState st d s).bus = s.bus ∧
      (setNoticeState st d s).hostMem = s.hostMem ∧
      (setNoticeState st d s).freeCount = s.freeCount := by
  simp only [setNoticeState]
  simp

@[simp] theorem displayEnabled_keeps (d : DisplayIx) (tag : Byte) (s : State) :
    (displayEnabled d tag s).pending = s.pending ∧
      (displayEnabled d tag s).win = s.win ∧
      (displayEnabled d tag s).clock = s.clock ∧
      (displayEnabled d tag s).shows = s.shows ∧
      (displayEnabled d tag s).desks = s.desks ∧
      (displayEnabled d tag s).air = s.air ∧
      (displayEnabled d tag s).displays = s.displays ∧
      (displayEnabled d tag s).stream = s.stream ∧
      (displayEnabled d tag s).faults = s.faults ∧
      (displayEnabled d tag s).reads = s.reads ∧
      (displayEnabled d tag s).bus = s.bus ∧
      (displayEnabled d tag s).hostMem = s.hostMem ∧
      (displayEnabled d tag s).freeCount = s.freeCount := by
  simp only [displayEnabled]
  simp

@[simp] theorem displayUp_keeps (d : DisplayIx) (s : State) :
    (displayUp d s).pending = s.pending ∧
      (displayUp d s).win = s.win ∧
      (displayUp d s).clock = s.clock ∧
      (displayUp d s).shows = s.shows ∧
      (displayUp d s).air = s.air ∧
      (displayUp d s).displays = s.displays ∧
      (displayUp d s).stream = s.stream ∧
      (displayUp d s).faults = s.faults ∧
      (displayUp d s).reads = s.reads ∧
      (displayUp d s).hostMem = s.hostMem ∧
      (displayUp d s).freeCount = s.freeCount := by
  simp only [displayUp]
  simp

@[simp] theorem leaveDisplay_keeps (st : DisplayState) (kept : List NoticeIx) (d : DisplayIx) (s : State) :
    (leaveDisplay st kept d s).pending = s.pending ∧
      (leaveDisplay st kept d s).win = s.win ∧
      (leaveDisplay st kept d s).clock = s.clock ∧
      (leaveDisplay st kept d s).shows = s.shows ∧
      (leaveDisplay st kept d s).air = s.air ∧
      (leaveDisplay st kept d s).displays = s.displays ∧
      (leaveDisplay st kept d s).stream = s.stream ∧
      (leaveDisplay st kept d s).faults = s.faults ∧
      (leaveDisplay st kept d s).reads = s.reads ∧
      (leaveDisplay st kept d s).hostMem = s.hostMem ∧
      (leaveDisplay st kept d s).freeCount = s.freeCount := by
  simp only [leaveDisplay]
  simp

@[simp] theorem displayLost_keeps (d : DisplayIx) (s : State) :
    (displayLost d s).pending = s.pending ∧
      (displayLost d s).win = s.win ∧
      (displayLost d s).clock = s.clock ∧
      (displayLost d s).shows = s.shows ∧
      (displayLost d s).air = s.air ∧
      (displayLost d s).displays = s.displays ∧
      (displayLost d s).stream = s.stream ∧
      (displayLost d s).faults = s.faults ∧
      (displayLost d s).reads = s.reads ∧
      (displayLost d s).hostMem = s.hostMem ∧
      (displayLost d s).freeCount = s.freeCount := by
  simp only [displayLost]
  simp

@[simp] theorem setFeature_keeps (f : FeatureIx) (r : FeatureRec) (s : State) :
    (setFeature f r s).pending = s.pending ∧
      (setFeature f r s).win = s.win ∧
      (setFeature f r s).clock = s.clock ∧
      (setFeature f r s).shows = s.shows ∧
      (setFeature f r s).desks = s.desks ∧
      (setFeature f r s).arb = s.arb ∧
      (setFeature f r s).displays = s.displays ∧
      (setFeature f r s).stream = s.stream ∧
      (setFeature f r s).faults = s.faults ∧
      (setFeature f r s).reads = s.reads ∧
      (setFeature f r s).bus = s.bus ∧
      (setFeature f r s).hostMem = s.hostMem ∧
      (setFeature f r s).freeCount = s.freeCount := by
  simp only [setFeature]
  simp

@[simp] theorem settleFeature_keeps (before : State) (f : FeatureIx) (s : State) :
    (settleFeature before f s).pending = s.pending ∧
      (settleFeature before f s).clock = s.clock ∧
      (settleFeature before f s).shows = s.shows ∧
      (settleFeature before f s).desks = s.desks ∧
      (settleFeature before f s).arb = s.arb ∧
      (settleFeature before f s).air = s.air ∧
      (settleFeature before f s).displays = s.displays ∧
      (settleFeature before f s).stream = s.stream ∧
      (settleFeature before f s).faults = s.faults ∧
      (settleFeature before f s).reads = s.reads ∧
      (settleFeature before f s).bus = s.bus ∧
      (settleFeature before f s).hostMem = s.hostMem ∧
      (settleFeature before f s).freeCount = s.freeCount := by
  simp only [settleFeature]
  repeat' split
  all_goals simp

@[simp] theorem settleFeatures_keeps (before s : State) :
    (settleFeatures before s).pending = s.pending ∧
      (settleFeatures before s).clock = s.clock ∧
      (settleFeatures before s).shows = s.shows ∧
      (settleFeatures before s).desks = s.desks ∧
      (settleFeatures before s).arb = s.arb ∧
      (settleFeatures before s).air = s.air ∧
      (settleFeatures before s).displays = s.displays ∧
      (settleFeatures before s).stream = s.stream ∧
      (settleFeatures before s).faults = s.faults ∧
      (settleFeatures before s).reads = s.reads ∧
      (settleFeatures before s).bus = s.bus ∧
      (settleFeatures before s).hostMem = s.hostMem ∧
      (settleFeatures before s).freeCount = s.freeCount := by
  simp only [settleFeatures]
  simp

@[simp] theorem forgetTrailer_keeps (f : FeatureIx) (s : State) :
    (forgetTrailer f s).pending = s.pending ∧
      (forgetTrailer f s).win = s.win ∧
      (forgetTrailer f s).clock = s.clock ∧
      (forgetTrailer f s).shows = s.shows ∧
      (forgetTrailer f s).desks = s.desks ∧
      (forgetTrailer f s).arb = s.arb ∧
      (forgetTrailer f s).displays = s.displays ∧
      (forgetTrailer f s).stream = s.stream ∧
      (forgetTrailer f s).faults = s.faults ∧
      (forgetTrailer f s).reads = s.reads ∧
      (forgetTrailer f s).bus = s.bus ∧
      (forgetTrailer f s).hostMem = s.hostMem ∧
      (forgetTrailer f s).freeCount = s.freeCount := by
  simp only [forgetTrailer]
  simp

@[simp] theorem emptyFeature_keeps (f : FeatureIx) (s : State) :
    (emptyFeature f s).pending = s.pending ∧
      (emptyFeature f s).win = s.win ∧
      (emptyFeature f s).clock = s.clock ∧
      (emptyFeature f s).shows = s.shows ∧
      (emptyFeature f s).desks = s.desks ∧
      (emptyFeature f s).arb = s.arb ∧
      (emptyFeature f s).displays = s.displays ∧
      (emptyFeature f s).stream = s.stream ∧
      (emptyFeature f s).faults = s.faults ∧
      (emptyFeature f s).reads = s.reads ∧
      (emptyFeature f s).bus = s.bus ∧
      (emptyFeature f s).hostMem = s.hostMem ∧
      (emptyFeature f s).freeCount = s.freeCount := by
  simp only [emptyFeature]
  simp

@[simp] theorem withFeature_pending (f : Flight) (act : FeatureIx → State → State) (s : State)
    (h : ∀ i s, (act i s).pending = s.pending) :
    (withFeature f act s).pending = s.pending := by
  simp only [withFeature]
  repeat' split
  all_goals simp [h]

@[simp] theorem withFeature_clock (f : Flight) (act : FeatureIx → State → State) (s : State)
    (h : ∀ i s, (act i s).clock = s.clock) :
    (withFeature f act s).clock = s.clock := by
  simp only [withFeature]
  repeat' split
  all_goals simp [h]

@[simp] theorem withFeature_shows (f : Flight) (act : FeatureIx → State → State) (s : State)
    (h : ∀ i s, (act i s).shows = s.shows) :
    (withFeature f act s).shows = s.shows := by
  simp only [withFeature]
  repeat' split
  all_goals simp [h]

@[simp] theorem withFeature_desks (f : Flight) (act : FeatureIx → State → State) (s : State)
    (h : ∀ i s, (act i s).desks = s.desks) :
    (withFeature f act s).desks = s.desks := by
  simp only [withFeature]
  repeat' split
  all_goals simp [h]

@[simp] theorem withFeature_arb (f : Flight) (act : FeatureIx → State → State) (s : State)
    (h : ∀ i s, (act i s).arb = s.arb) :
    (withFeature f act s).arb = s.arb := by
  simp only [withFeature]
  repeat' split
  all_goals simp [h]

@[simp] theorem withFeature_air (f : Flight) (act : FeatureIx → State → State) (s : State)
    (h : ∀ i s, (act i s).air = s.air) :
    (withFeature f act s).air = s.air := by
  simp only [withFeature]
  repeat' split
  all_goals simp [h]

@[simp] theorem withFeature_displays (f : Flight) (act : FeatureIx → State → State) (s : State)
    (h : ∀ i s, (act i s).displays = s.displays) :
    (withFeature f act s).displays = s.displays := by
  simp only [withFeature]
  repeat' split
  all_goals simp [h]

@[simp] theorem withFeature_stream (f : Flight) (act : FeatureIx → State → State) (s : State)
    (h : ∀ i s, (act i s).stream = s.stream) :
    (withFeature f act s).stream = s.stream := by
  simp only [withFeature]
  repeat' split
  all_goals simp [h]

@[simp] theorem withFeature_faults (f : Flight) (act : FeatureIx → State → State) (s : State)
    (h : ∀ i s, (act i s).faults = s.faults) :
    (withFeature f act s).faults = s.faults := by
  simp only [withFeature]
  repeat' split
  all_goals simp [h]

@[simp] theorem withFeature_reads (f : Flight) (act : FeatureIx → State → State) (s : State)
    (h : ∀ i s, (act i s).reads = s.reads) :
    (withFeature f act s).reads = s.reads := by
  simp only [withFeature]
  repeat' split
  all_goals simp [h]

@[simp] theorem withFeature_bus (f : Flight) (act : FeatureIx → State → State) (s : State)
    (h : ∀ i s, (act i s).bus = s.bus) :
    (withFeature f act s).bus = s.bus := by
  simp only [withFeature]
  repeat' split
  all_goals simp [h]

@[simp] theorem withFeature_hostMem (f : Flight) (act : FeatureIx → State → State) (s : State)
    (h : ∀ i s, (act i s).hostMem = s.hostMem) :
    (withFeature f act s).hostMem = s.hostMem := by
  simp only [withFeature]
  repeat' split
  all_goals simp [h]

@[simp] theorem issueHeaderRead_keeps (f : FeatureIx) (s : State) :
    (issueHeaderRead f s).pending = s.pending ∧
      (issueHeaderRead f s).win = s.win ∧
      (issueHeaderRead f s).clock = s.clock ∧
      (issueHeaderRead f s).shows = s.shows ∧
      (issueHeaderRead f s).desks = s.desks ∧
      (issueHeaderRead f s).arb = s.arb ∧
      (issueHeaderRead f s).air = s.air ∧
      (issueHeaderRead f s).displays = s.displays ∧
      (issueHeaderRead f s).stream = s.stream ∧
      (issueHeaderRead f s).faults = s.faults ∧
      (issueHeaderRead f s).bus = s.bus ∧
      (issueHeaderRead f s).hostMem = s.hostMem ∧
      (issueHeaderRead f s).freeCount = s.freeCount := by
  simp only [issueHeaderRead]
  simp

@[simp] theorem issuePieceRead_keeps (f : FeatureIx) (first : Nat) (s : State) :
    (issuePieceRead f first s).pending = s.pending ∧
      (issuePieceRead f first s).win = s.win ∧
      (issuePieceRead f first s).clock = s.clock ∧
      (issuePieceRead f first s).shows = s.shows ∧
      (issuePieceRead f first s).desks = s.desks ∧
      (issuePieceRead f first s).arb = s.arb ∧
      (issuePieceRead f first s).air = s.air ∧
      (issuePieceRead f first s).displays = s.displays ∧
      (issuePieceRead f first s).stream = s.stream ∧
      (issuePieceRead f first s).faults = s.faults ∧
      (issuePieceRead f first s).bus = s.bus ∧
      (issuePieceRead f first s).hostMem = s.hostMem ∧
      (issuePieceRead f first s).freeCount = s.freeCount := by
  simp only [issuePieceRead]
  simp

@[simp] theorem loadFeature_keeps (f : FeatureIx) (weight location : Nat) (s : State) :
    (loadFeature f weight location s).pending = s.pending ∧
      (loadFeature f weight location s).clock = s.clock ∧
      (loadFeature f weight location s).shows = s.shows ∧
      (loadFeature f weight location s).desks = s.desks ∧
      (loadFeature f weight location s).arb = s.arb ∧
      (loadFeature f weight location s).displays = s.displays ∧
      (loadFeature f weight location s).stream = s.stream ∧
      (loadFeature f weight location s).faults = s.faults ∧
      (loadFeature f weight location s).bus = s.bus ∧
      (loadFeature f weight location s).hostMem = s.hostMem ∧
      (loadFeature f weight location s).freeCount = s.freeCount := by
  simp only [loadFeature]
  simp

@[simp] theorem rejectFeature_keeps (f : FeatureIx) (reason : RejectReason) (detail : Nat) (s : State) :
    (rejectFeature f reason detail s).pending = s.pending ∧
      (rejectFeature f reason detail s).win = s.win ∧
      (rejectFeature f reason detail s).clock = s.clock ∧
      (rejectFeature f reason detail s).shows = s.shows ∧
      (rejectFeature f reason detail s).desks = s.desks ∧
      (rejectFeature f reason detail s).arb = s.arb ∧
      (rejectFeature f reason detail s).displays = s.displays ∧
      (rejectFeature f reason detail s).stream = s.stream ∧
      (rejectFeature f reason detail s).faults = s.faults ∧
      (rejectFeature f reason detail s).reads = s.reads ∧
      (rejectFeature f reason detail s).bus = s.bus ∧
      (rejectFeature f reason detail s).hostMem = s.hostMem ∧
      (rejectFeature f reason detail s).freeCount = s.freeCount := by
  simp only [rejectFeature]
  simp

@[simp] theorem headerDone_keeps (f : FeatureIx) (bytes : List Byte) (s : State) :
    (headerDone f bytes s).pending = s.pending ∧
      (headerDone f bytes s).clock = s.clock ∧
      (headerDone f bytes s).shows = s.shows ∧
      (headerDone f bytes s).desks = s.desks ∧
      (headerDone f bytes s).arb = s.arb ∧
      (headerDone f bytes s).displays = s.displays ∧
      (headerDone f bytes s).stream = s.stream ∧
      (headerDone f bytes s).faults = s.faults ∧
      (headerDone f bytes s).bus = s.bus ∧
      (headerDone f bytes s).hostMem = s.hostMem ∧
      (headerDone f bytes s).freeCount = s.freeCount := by
  simp only [headerDone]
  repeat' split
  all_goals simp

@[simp] theorem finishValidation_keeps (f : FeatureIx) (s : State) :
    (finishValidation f s).pending = s.pending ∧
      (finishValidation f s).win = s.win ∧
      (finishValidation f s).clock = s.clock ∧
      (finishValidation f s).shows = s.shows ∧
      (finishValidation f s).desks = s.desks ∧
      (finishValidation f s).arb = s.arb ∧
      (finishValidation f s).displays = s.displays ∧
      (finishValidation f s).stream = s.stream ∧
      (finishValidation f s).faults = s.faults ∧
      (finishValidation f s).reads = s.reads ∧
      (finishValidation f s).bus = s.bus ∧
      (finishValidation f s).hostMem = s.hostMem ∧
      (finishValidation f s).freeCount = s.freeCount := by
  simp only [finishValidation]
  repeat' split
  all_goals simp

@[simp] theorem pieceDone_keeps (f : FeatureIx) (first : Nat) (bytes : List Byte) (s : State) :
    (pieceDone f first bytes s).pending = s.pending ∧
      (pieceDone f first bytes s).clock = s.clock ∧
      (pieceDone f first bytes s).shows = s.shows ∧
      (pieceDone f first bytes s).desks = s.desks ∧
      (pieceDone f first bytes s).arb = s.arb ∧
      (pieceDone f first bytes s).displays = s.displays ∧
      (pieceDone f first bytes s).stream = s.stream ∧
      (pieceDone f first bytes s).faults = s.faults ∧
      (pieceDone f first bytes s).bus = s.bus ∧
      (pieceDone f first bytes s).hostMem = s.hostMem ∧
      (pieceDone f first bytes s).freeCount = s.freeCount := by
  simp only [pieceDone]
  repeat' split
  all_goals simp

@[simp] theorem reissueValidation_keeps (f : FeatureIx) (v : Validation) (s : State) :
    (reissueValidation f v s).pending = s.pending ∧
      (reissueValidation f v s).win = s.win ∧
      (reissueValidation f v s).clock = s.clock ∧
      (reissueValidation f v s).shows = s.shows ∧
      (reissueValidation f v s).desks = s.desks ∧
      (reissueValidation f v s).arb = s.arb ∧
      (reissueValidation f v s).air = s.air ∧
      (reissueValidation f v s).displays = s.displays ∧
      (reissueValidation f v s).stream = s.stream ∧
      (reissueValidation f v s).faults = s.faults ∧
      (reissueValidation f v s).bus = s.bus ∧
      (reissueValidation f v s).hostMem = s.hostMem ∧
      (reissueValidation f v s).freeCount = s.freeCount := by
  simp only [reissueValidation]
  repeat' split
  all_goals simp

@[simp] theorem setValidation_keeps (f : FeatureIx) (v : Validation) (s : State) :
    (setValidation f v s).pending = s.pending ∧
      (setValidation f v s).win = s.win ∧
      (setValidation f v s).clock = s.clock ∧
      (setValidation f v s).shows = s.shows ∧
      (setValidation f v s).desks = s.desks ∧
      (setValidation f v s).arb = s.arb ∧
      (setValidation f v s).displays = s.displays ∧
      (setValidation f v s).stream = s.stream ∧
      (setValidation f v s).faults = s.faults ∧
      (setValidation f v s).reads = s.reads ∧
      (setValidation f v s).bus = s.bus ∧
      (setValidation f v s).hostMem = s.hostMem ∧
      (setValidation f v s).freeCount = s.freeCount := by
  simp only [setValidation]
  simp

@[simp] theorem validationFailed_keeps (f : FeatureIx) (s : State) :
    (validationFailed f s).pending = s.pending ∧
      (validationFailed f s).clock = s.clock ∧
      (validationFailed f s).shows = s.shows ∧
      (validationFailed f s).desks = s.desks ∧
      (validationFailed f s).arb = s.arb ∧
      (validationFailed f s).displays = s.displays ∧
      (validationFailed f s).stream = s.stream ∧
      (validationFailed f s).faults = s.faults ∧
      (validationFailed f s).hostMem = s.hostMem ∧
      (validationFailed f s).freeCount = s.freeCount := by
  simp only [validationFailed]
  repeat' split
  all_goals simp

@[simp] theorem requestDrain_keeps (f : FeatureIx) (s : State) :
    (requestDrain f s).pending = s.pending ∧
      (requestDrain f s).win = s.win ∧
      (requestDrain f s).clock = s.clock ∧
      (requestDrain f s).shows = s.shows ∧
      (requestDrain f s).desks = s.desks ∧
      (requestDrain f s).arb = s.arb ∧
      (requestDrain f s).air = s.air ∧
      (requestDrain f s).displays = s.displays ∧
      (requestDrain f s).stream = s.stream ∧
      (requestDrain f s).faults = s.faults ∧
      (requestDrain f s).reads = s.reads ∧
      (requestDrain f s).hostMem = s.hostMem ∧
      (requestDrain f s).freeCount = s.freeCount := by
  simp only [requestDrain]
  simp

@[simp] theorem dropFeature_keeps (f : FeatureIx) (s : State) :
    (dropFeature f s).pending = s.pending ∧
      (dropFeature f s).win = s.win ∧
      (dropFeature f s).clock = s.clock ∧
      (dropFeature f s).shows = s.shows ∧
      (dropFeature f s).desks = s.desks ∧
      (dropFeature f s).arb = s.arb ∧
      (dropFeature f s).displays = s.displays ∧
      (dropFeature f s).stream = s.stream ∧
      (dropFeature f s).faults = s.faults ∧
      (dropFeature f s).reads = s.reads ∧
      (dropFeature f s).hostMem = s.hostMem ∧
      (dropFeature f s).freeCount = s.freeCount := by
  simp only [dropFeature]
  repeat' split
  all_goals simp

@[simp] theorem refreshE_keeps (s : State) :
    (refreshE s).pending = s.pending ∧
      (refreshE s).win = s.win ∧
      (refreshE s).clock = s.clock ∧
      (refreshE s).shows = s.shows ∧
      (refreshE s).desks = s.desks ∧
      (refreshE s).arb = s.arb ∧
      (refreshE s).displays = s.displays ∧
      (refreshE s).stream = s.stream ∧
      (refreshE s).faults = s.faults ∧
      (refreshE s).reads = s.reads ∧
      (refreshE s).bus = s.bus ∧
      (refreshE s).hostMem = s.hostMem ∧
      (refreshE s).freeCount = s.freeCount := by
  simp only [refreshE]
  simp

@[simp] theorem payAll_keeps (e : List FeatureIx) (s : State) :
    (payAll e s).pending = s.pending ∧
      (payAll e s).win = s.win ∧
      (payAll e s).clock = s.clock ∧
      (payAll e s).shows = s.shows ∧
      (payAll e s).desks = s.desks ∧
      (payAll e s).arb = s.arb ∧
      (payAll e s).displays = s.displays ∧
      (payAll e s).stream = s.stream ∧
      (payAll e s).faults = s.faults ∧
      (payAll e s).reads = s.reads ∧
      (payAll e s).bus = s.bus ∧
      (payAll e s).hostMem = s.hostMem ∧
      (payAll e s).freeCount = s.freeCount := by
  simp only [payAll]
  simp

@[simp] theorem chargeWinner_keeps (w : FeatureIx) (d : DisplayIx) (sum : Nat) (s : State) :
    (chargeWinner w d sum s).pending = s.pending ∧
      (chargeWinner w d sum s).win = s.win ∧
      (chargeWinner w d sum s).clock = s.clock ∧
      (chargeWinner w d sum s).shows = s.shows ∧
      (chargeWinner w d sum s).desks = s.desks ∧
      (chargeWinner w d sum s).arb = s.arb ∧
      (chargeWinner w d sum s).displays = s.displays ∧
      (chargeWinner w d sum s).stream = s.stream ∧
      (chargeWinner w d sum s).faults = s.faults ∧
      (chargeWinner w d sum s).reads = s.reads ∧
      (chargeWinner w d sum s).bus = s.bus ∧
      (chargeWinner w d sum s).hostMem = s.hostMem ∧
      (chargeWinner w d sum s).freeCount = s.freeCount := by
  simp only [chargeWinner]
  simp

@[simp] theorem replyDecision_keeps (r : DecisionRequest) (choice : Option FeatureIx) (s : State) :
    (replyDecision r choice s).pending = s.pending ∧
      (replyDecision r choice s).win = s.win ∧
      (replyDecision r choice s).clock = s.clock ∧
      (replyDecision r choice s).shows = s.shows ∧
      (replyDecision r choice s).desks = s.desks ∧
      (replyDecision r choice s).arb = s.arb ∧
      (replyDecision r choice s).air = s.air ∧
      (replyDecision r choice s).displays = s.displays ∧
      (replyDecision r choice s).stream = s.stream ∧
      (replyDecision r choice s).faults = s.faults ∧
      (replyDecision r choice s).reads = s.reads ∧
      (replyDecision r choice s).hostMem = s.hostMem ∧
      (replyDecision r choice s).freeCount = s.freeCount := by
  simp only [replyDecision]
  simp

@[simp] theorem takeDecision_keeps (r : DecisionRequest) (s : State) :
    (takeDecision r s).pending = s.pending ∧
      (takeDecision r s).clock = s.clock ∧
      (takeDecision r s).shows = s.shows ∧
      (takeDecision r s).desks = s.desks ∧
      (takeDecision r s).arb = s.arb ∧
      (takeDecision r s).displays = s.displays ∧
      (takeDecision r s).stream = s.stream ∧
      (takeDecision r s).faults = s.faults ∧
      (takeDecision r s).reads = s.reads ∧
      (takeDecision r s).hostMem = s.hostMem ∧
      (takeDecision r s).freeCount = s.freeCount := by
  simp only [takeDecision]
  repeat' split
  all_goals simp

@[simp] theorem takeReleaseReport_keeps (x : Release) (s : State) :
    (takeReleaseReport x s).pending = s.pending ∧
      (takeReleaseReport x s).clock = s.clock ∧
      (takeReleaseReport x s).shows = s.shows ∧
      (takeReleaseReport x s).desks = s.desks ∧
      (takeReleaseReport x s).arb = s.arb ∧
      (takeReleaseReport x s).displays = s.displays ∧
      (takeReleaseReport x s).stream = s.stream ∧
      (takeReleaseReport x s).faults = s.faults ∧
      (takeReleaseReport x s).reads = s.reads ∧
      (takeReleaseReport x s).bus = s.bus ∧
      (takeReleaseReport x s).hostMem = s.hostMem ∧
      (takeReleaseReport x s).freeCount = s.freeCount := by
  simp only [takeReleaseReport]
  repeat' split
  all_goals simp

@[simp] theorem withDisplay_keeps (d : DisplayIx) (f : DisplayRec → DisplayRec) (s : State) :
    (withDisplay d f s).pending = s.pending ∧
      (withDisplay d f s).win = s.win ∧
      (withDisplay d f s).clock = s.clock ∧
      (withDisplay d f s).shows = s.shows ∧
      (withDisplay d f s).desks = s.desks ∧
      (withDisplay d f s).arb = s.arb ∧
      (withDisplay d f s).air = s.air ∧
      (withDisplay d f s).stream = s.stream ∧
      (withDisplay d f s).faults = s.faults ∧
      (withDisplay d f s).reads = s.reads ∧
      (withDisplay d f s).bus = s.bus ∧
      (withDisplay d f s).hostMem = s.hostMem ∧
      (withDisplay d f s).freeCount = s.freeCount := by
  simp only [withDisplay]
  simp

@[simp] theorem reportDisplay_keeps (r : DisplayReport) (s : State) :
    (reportDisplay r s).pending = s.pending ∧
      (reportDisplay r s).win = s.win ∧
      (reportDisplay r s).clock = s.clock ∧
      (reportDisplay r s).shows = s.shows ∧
      (reportDisplay r s).desks = s.desks ∧
      (reportDisplay r s).arb = s.arb ∧
      (reportDisplay r s).air = s.air ∧
      (reportDisplay r s).displays = s.displays ∧
      (reportDisplay r s).stream = s.stream ∧
      (reportDisplay r s).faults = s.faults ∧
      (reportDisplay r s).reads = s.reads ∧
      (reportDisplay r s).hostMem = s.hostMem ∧
      (reportDisplay r s).freeCount = s.freeCount := by
  simp only [reportDisplay]
  simp

@[simp] theorem requestStream_keeps (r : StreamRequest) (s : State) :
    (requestStream r s).pending = s.pending ∧
      (requestStream r s).win = s.win ∧
      (requestStream r s).clock = s.clock ∧
      (requestStream r s).shows = s.shows ∧
      (requestStream r s).desks = s.desks ∧
      (requestStream r s).arb = s.arb ∧
      (requestStream r s).air = s.air ∧
      (requestStream r s).displays = s.displays ∧
      (requestStream r s).stream = s.stream ∧
      (requestStream r s).faults = s.faults ∧
      (requestStream r s).reads = s.reads ∧
      (requestStream r s).hostMem = s.hostMem ∧
      (requestStream r s).freeCount = s.freeCount := by
  simp only [requestStream]
  simp

@[simp] theorem requestDecision_keeps (r : DecisionRequest) (s : State) :
    (requestDecision r s).pending = s.pending ∧
      (requestDecision r s).win = s.win ∧
      (requestDecision r s).clock = s.clock ∧
      (requestDecision r s).shows = s.shows ∧
      (requestDecision r s).desks = s.desks ∧
      (requestDecision r s).arb = s.arb ∧
      (requestDecision r s).air = s.air ∧
      (requestDecision r s).displays = s.displays ∧
      (requestDecision r s).stream = s.stream ∧
      (requestDecision r s).faults = s.faults ∧
      (requestDecision r s).reads = s.reads ∧
      (requestDecision r s).hostMem = s.hostMem ∧
      (requestDecision r s).freeCount = s.freeCount := by
  simp only [requestDecision]
  simp

@[simp] theorem raiseLinkLost_keeps (d : DisplayIx) (s : State) :
    (raiseLinkLost d s).pending = s.pending ∧
      (raiseLinkLost d s).win = s.win ∧
      (raiseLinkLost d s).clock = s.clock ∧
      (raiseLinkLost d s).shows = s.shows ∧
      (raiseLinkLost d s).desks = s.desks ∧
      (raiseLinkLost d s).arb = s.arb ∧
      (raiseLinkLost d s).air = s.air ∧
      (raiseLinkLost d s).displays = s.displays ∧
      (raiseLinkLost d s).stream = s.stream ∧
      (raiseLinkLost d s).faults = s.faults ∧
      (raiseLinkLost d s).reads = s.reads ∧
      (raiseLinkLost d s).hostMem = s.hostMem ∧
      (raiseLinkLost d s).freeCount = s.freeCount := by
  simp only [raiseLinkLost]
  simp

@[simp] theorem composeBoard_keeps (d : DisplayIx) (s : State) :
    (composeBoard d s).pending = s.pending ∧
      (composeBoard d s).win = s.win ∧
      (composeBoard d s).clock = s.clock ∧
      (composeBoard d s).shows = s.shows ∧
      (composeBoard d s).desks = s.desks ∧
      (composeBoard d s).arb = s.arb ∧
      (composeBoard d s).air = s.air ∧
      (composeBoard d s).faults = s.faults ∧
      (composeBoard d s).reads = s.reads ∧
      (composeBoard d s).bus = s.bus ∧
      (composeBoard d s).hostMem = s.hostMem ∧
      (composeBoard d s).freeCount = s.freeCount := by
  simp only [composeBoard]
  repeat' split
  all_goals simp

@[simp] theorem startBoard_keeps (d : DisplayIx) (s : State) :
    (startBoard d s).pending = s.pending ∧
      (startBoard d s).win = s.win ∧
      (startBoard d s).clock = s.clock ∧
      (startBoard d s).shows = s.shows ∧
      (startBoard d s).desks = s.desks ∧
      (startBoard d s).arb = s.arb ∧
      (startBoard d s).air = s.air ∧
      (startBoard d s).faults = s.faults ∧
      (startBoard d s).reads = s.reads ∧
      (startBoard d s).bus = s.bus ∧
      (startBoard d s).hostMem = s.hostMem ∧
      (startBoard d s).freeCount = s.freeCount := by
  simp only [startBoard]
  simp

@[simp] theorem startSlot_keeps (d : DisplayIx) (s : State) :
    (startSlot d s).pending = s.pending ∧
      (startSlot d s).win = s.win ∧
      (startSlot d s).clock = s.clock ∧
      (startSlot d s).shows = s.shows ∧
      (startSlot d s).desks = s.desks ∧
      (startSlot d s).arb = s.arb ∧
      (startSlot d s).air = s.air ∧
      (startSlot d s).faults = s.faults ∧
      (startSlot d s).reads = s.reads ∧
      (startSlot d s).hostMem = s.hostMem ∧
      (startSlot d s).freeCount = s.freeCount := by
  simp only [startSlot]
  repeat' split
  all_goals simp

@[simp] theorem moveLoop_keeps (d : DisplayIx) (s : State) :
    (moveLoop d s).pending = s.pending ∧
      (moveLoop d s).win = s.win ∧
      (moveLoop d s).clock = s.clock ∧
      (moveLoop d s).shows = s.shows ∧
      (moveLoop d s).desks = s.desks ∧
      (moveLoop d s).arb = s.arb ∧
      (moveLoop d s).air = s.air ∧
      (moveLoop d s).faults = s.faults ∧
      (moveLoop d s).reads = s.reads ∧
      (moveLoop d s).hostMem = s.hostMem ∧
      (moveLoop d s).freeCount = s.freeCount := by
  simp only [moveLoop]
  simp

@[simp] theorem abandonSegment_keeps (d : DisplayIx) (s : State) :
    (abandonSegment d s).pending = s.pending ∧
      (abandonSegment d s).win = s.win ∧
      (abandonSegment d s).clock = s.clock ∧
      (abandonSegment d s).shows = s.shows ∧
      (abandonSegment d s).desks = s.desks ∧
      (abandonSegment d s).arb = s.arb ∧
      (abandonSegment d s).air = s.air ∧
      (abandonSegment d s).displays = s.displays ∧
      (abandonSegment d s).stream = s.stream ∧
      (abandonSegment d s).faults = s.faults ∧
      (abandonSegment d s).reads = s.reads ∧
      (abandonSegment d s).hostMem = s.hostMem ∧
      (abandonSegment d s).freeCount = s.freeCount := by
  simp only [abandonSegment]
  repeat' split
  all_goals simp

@[simp] theorem turnOff_keeps (d : DisplayIx) (s : State) :
    (turnOff d s).pending = s.pending ∧
      (turnOff d s).win = s.win ∧
      (turnOff d s).clock = s.clock ∧
      (turnOff d s).shows = s.shows ∧
      (turnOff d s).desks = s.desks ∧
      (turnOff d s).arb = s.arb ∧
      (turnOff d s).air = s.air ∧
      (turnOff d s).faults = s.faults ∧
      (turnOff d s).reads = s.reads ∧
      (turnOff d s).hostMem = s.hostMem ∧
      (turnOff d s).freeCount = s.freeCount := by
  simp only [turnOff]
  simp

@[simp] theorem endSegment_keeps (d : DisplayIx) (s : State) :
    (endSegment d s).pending = s.pending ∧
      (endSegment d s).win = s.win ∧
      (endSegment d s).clock = s.clock ∧
      (endSegment d s).shows = s.shows ∧
      (endSegment d s).desks = s.desks ∧
      (endSegment d s).arb = s.arb ∧
      (endSegment d s).air = s.air ∧
      (endSegment d s).faults = s.faults ∧
      (endSegment d s).reads = s.reads ∧
      (endSegment d s).hostMem = s.hostMem ∧
      (endSegment d s).freeCount = s.freeCount := by
  simp only [endSegment]
  repeat' split
  all_goals simp

@[simp] theorem beginLoop_keeps (d : DisplayIx) (s : State) :
    (beginLoop d s).pending = s.pending ∧
      (beginLoop d s).win = s.win ∧
      (beginLoop d s).clock = s.clock ∧
      (beginLoop d s).shows = s.shows ∧
      (beginLoop d s).desks = s.desks ∧
      (beginLoop d s).arb = s.arb ∧
      (beginLoop d s).air = s.air ∧
      (beginLoop d s).faults = s.faults ∧
      (beginLoop d s).reads = s.reads ∧
      (beginLoop d s).hostMem = s.hostMem ∧
      (beginLoop d s).freeCount = s.freeCount := by
  simp only [beginLoop]
  simp

@[simp] theorem withDisplayIndex_pending (f : Flight) (act : DisplayIx → State → State) (s : State)
    (h : ∀ i s, (act i s).pending = s.pending) :
    (withDisplayIndex f act s).pending = s.pending := by
  simp only [withDisplayIndex]
  repeat' split
  all_goals simp [h]

@[simp] theorem withDisplayIndex_clock (f : Flight) (act : DisplayIx → State → State) (s : State)
    (h : ∀ i s, (act i s).clock = s.clock) :
    (withDisplayIndex f act s).clock = s.clock := by
  simp only [withDisplayIndex]
  repeat' split
  all_goals simp [h]

@[simp] theorem withDisplayIndex_shows (f : Flight) (act : DisplayIx → State → State) (s : State)
    (h : ∀ i s, (act i s).shows = s.shows) :
    (withDisplayIndex f act s).shows = s.shows := by
  simp only [withDisplayIndex]
  repeat' split
  all_goals simp [h]

@[simp] theorem withDisplayIndex_desks (f : Flight) (act : DisplayIx → State → State) (s : State)
    (h : ∀ i s, (act i s).desks = s.desks) :
    (withDisplayIndex f act s).desks = s.desks := by
  simp only [withDisplayIndex]
  repeat' split
  all_goals simp [h]

@[simp] theorem withDisplayIndex_arb (f : Flight) (act : DisplayIx → State → State) (s : State)
    (h : ∀ i s, (act i s).arb = s.arb) :
    (withDisplayIndex f act s).arb = s.arb := by
  simp only [withDisplayIndex]
  repeat' split
  all_goals simp [h]

@[simp] theorem withDisplayIndex_air (f : Flight) (act : DisplayIx → State → State) (s : State)
    (h : ∀ i s, (act i s).air = s.air) :
    (withDisplayIndex f act s).air = s.air := by
  simp only [withDisplayIndex]
  repeat' split
  all_goals simp [h]

@[simp] theorem withDisplayIndex_displays (f : Flight) (act : DisplayIx → State → State) (s : State)
    (h : ∀ i s, (act i s).displays = s.displays) :
    (withDisplayIndex f act s).displays = s.displays := by
  simp only [withDisplayIndex]
  repeat' split
  all_goals simp [h]

@[simp] theorem withDisplayIndex_stream (f : Flight) (act : DisplayIx → State → State) (s : State)
    (h : ∀ i s, (act i s).stream = s.stream) :
    (withDisplayIndex f act s).stream = s.stream := by
  simp only [withDisplayIndex]
  repeat' split
  all_goals simp [h]

@[simp] theorem withDisplayIndex_faults (f : Flight) (act : DisplayIx → State → State) (s : State)
    (h : ∀ i s, (act i s).faults = s.faults) :
    (withDisplayIndex f act s).faults = s.faults := by
  simp only [withDisplayIndex]
  repeat' split
  all_goals simp [h]

@[simp] theorem withDisplayIndex_reads (f : Flight) (act : DisplayIx → State → State) (s : State)
    (h : ∀ i s, (act i s).reads = s.reads) :
    (withDisplayIndex f act s).reads = s.reads := by
  simp only [withDisplayIndex]
  repeat' split
  all_goals simp [h]

@[simp] theorem withDisplayIndex_bus (f : Flight) (act : DisplayIx → State → State) (s : State)
    (h : ∀ i s, (act i s).bus = s.bus) :
    (withDisplayIndex f act s).bus = s.bus := by
  simp only [withDisplayIndex]
  repeat' split
  all_goals simp [h]

@[simp] theorem withDisplayIndex_hostMem (f : Flight) (act : DisplayIx → State → State) (s : State)
    (h : ∀ i s, (act i s).hostMem = s.hostMem) :
    (withDisplayIndex f act s).hostMem = s.hostMem := by
  simp only [withDisplayIndex]
  repeat' split
  all_goals simp [h]

@[simp] theorem finishDisplay_keeps (d : DisplayIx) (s : State) :
    (finishDisplay d s).pending = s.pending ∧
      (finishDisplay d s).clock = s.clock ∧
      (finishDisplay d s).shows = s.shows ∧
      (finishDisplay d s).desks = s.desks ∧
      (finishDisplay d s).arb = s.arb ∧
      (finishDisplay d s).air = s.air ∧
      (finishDisplay d s).displays = s.displays ∧
      (finishDisplay d s).stream = s.stream ∧
      (finishDisplay d s).faults = s.faults ∧
      (finishDisplay d s).reads = s.reads ∧
      (finishDisplay d s).bus = s.bus ∧
      (finishDisplay d s).hostMem = s.hostMem ∧
      (finishDisplay d s).freeCount = s.freeCount := by
  simp only [finishDisplay]
  simp

@[simp] theorem setupDisplay_keeps (b : SetupBody) (d : DisplayIx) (s : State) :
    (setupDisplay b d s).pending = s.pending ∧
      (setupDisplay b d s).clock = s.clock ∧
      (setupDisplay b d s).shows = s.shows ∧
      (setupDisplay b d s).desks = s.desks ∧
      (setupDisplay b d s).arb = s.arb ∧
      (setupDisplay b d s).air = s.air ∧
      (setupDisplay b d s).stream = s.stream ∧
      (setupDisplay b d s).faults = s.faults ∧
      (setupDisplay b d s).reads = s.reads ∧
      (setupDisplay b d s).hostMem = s.hostMem ∧
      (setupDisplay b d s).freeCount = s.freeCount := by
  simp only [setupDisplay]
  repeat' split
  all_goals simp

@[simp] theorem enableDisplay_keeps (d : DisplayIx) (s : State) :
    (enableDisplay d s).pending = s.pending ∧
      (enableDisplay d s).clock = s.clock ∧
      (enableDisplay d s).shows = s.shows ∧
      (enableDisplay d s).desks = s.desks ∧
      (enableDisplay d s).arb = s.arb ∧
      (enableDisplay d s).air = s.air ∧
      (enableDisplay d s).stream = s.stream ∧
      (enableDisplay d s).faults = s.faults ∧
      (enableDisplay d s).reads = s.reads ∧
      (enableDisplay d s).hostMem = s.hostMem ∧
      (enableDisplay d s).freeCount = s.freeCount := by
  simp only [enableDisplay]
  repeat' split
  all_goals simp

@[simp] theorem beginDraining_keeps (d : DisplayIx) (s : State) :
    (beginDraining d s).pending = s.pending ∧
      (beginDraining d s).win = s.win ∧
      (beginDraining d s).clock = s.clock ∧
      (beginDraining d s).shows = s.shows ∧
      (beginDraining d s).desks = s.desks ∧
      (beginDraining d s).arb = s.arb ∧
      (beginDraining d s).air = s.air ∧
      (beginDraining d s).faults = s.faults ∧
      (beginDraining d s).reads = s.reads ∧
      (beginDraining d s).hostMem = s.hostMem ∧
      (beginDraining d s).freeCount = s.freeCount := by
  simp only [beginDraining]
  simp

@[simp] theorem disableDisplay_keeps (d : DisplayIx) (s : State) :
    (disableDisplay d s).pending = s.pending ∧
      (disableDisplay d s).win = s.win ∧
      (disableDisplay d s).clock = s.clock ∧
      (disableDisplay d s).shows = s.shows ∧
      (disableDisplay d s).desks = s.desks ∧
      (disableDisplay d s).arb = s.arb ∧
      (disableDisplay d s).air = s.air ∧
      (disableDisplay d s).faults = s.faults ∧
      (disableDisplay d s).reads = s.reads ∧
      (disableDisplay d s).hostMem = s.hostMem ∧
      (disableDisplay d s).freeCount = s.freeCount := by
  simp only [disableDisplay]
  repeat' split
  all_goals simp

@[simp] theorem releaseNotStarted_keeps (f : FeatureIx) (s : State) :
    (releaseNotStarted f s).pending = s.pending ∧
      (releaseNotStarted f s).win = s.win ∧
      (releaseNotStarted f s).clock = s.clock ∧
      (releaseNotStarted f s).shows = s.shows ∧
      (releaseNotStarted f s).desks = s.desks ∧
      (releaseNotStarted f s).arb = s.arb ∧
      (releaseNotStarted f s).air = s.air ∧
      (releaseNotStarted f s).displays = s.displays ∧
      (releaseNotStarted f s).stream = s.stream ∧
      (releaseNotStarted f s).faults = s.faults ∧
      (releaseNotStarted f s).reads = s.reads ∧
      (releaseNotStarted f s).hostMem = s.hostMem ∧
      (releaseNotStarted f s).freeCount = s.freeCount := by
  simp only [releaseNotStarted]
  simp

@[simp] theorem startTrailer_keeps (d : DisplayIx) (f : FeatureIx) (s : State) :
    (startTrailer d f s).pending = s.pending ∧
      (startTrailer d f s).win = s.win ∧
      (startTrailer d f s).clock = s.clock ∧
      (startTrailer d f s).shows = s.shows ∧
      (startTrailer d f s).desks = s.desks ∧
      (startTrailer d f s).arb = s.arb ∧
      (startTrailer d f s).air = s.air ∧
      (startTrailer d f s).stream = s.stream ∧
      (startTrailer d f s).faults = s.faults ∧
      (startTrailer d f s).reads = s.reads ∧
      (startTrailer d f s).hostMem = s.hostMem ∧
      (startTrailer d f s).freeCount = s.freeCount := by
  simp only [startTrailer]
  simp

@[simp] theorem takeReply_keeps (r : DecisionReply) (s : State) :
    (takeReply r s).pending = s.pending ∧
      (takeReply r s).clock = s.clock ∧
      (takeReply r s).shows = s.shows ∧
      (takeReply r s).desks = s.desks ∧
      (takeReply r s).arb = s.arb ∧
      (takeReply r s).air = s.air ∧
      (takeReply r s).faults = s.faults ∧
      (takeReply r s).reads = s.reads ∧
      (takeReply r s).hostMem = s.hostMem ∧
      (takeReply r s).freeCount = s.freeCount := by
  simp only [takeReply]
  repeat' split
  all_goals simp

@[simp] theorem updateRow_keeps (x : ShowReport) (d : DisplayIx) (s : State) :
    (updateRow x d s).pending = s.pending ∧
      (updateRow x d s).clock = s.clock ∧
      (updateRow x d s).shows = s.shows ∧
      (updateRow x d s).desks = s.desks ∧
      (updateRow x d s).arb = s.arb ∧
      (updateRow x d s).air = s.air ∧
      (updateRow x d s).faults = s.faults ∧
      (updateRow x d s).reads = s.reads ∧
      (updateRow x d s).bus = s.bus ∧
      (updateRow x d s).hostMem = s.hostMem ∧
      (updateRow x d s).freeCount = s.freeCount := by
  simp only [updateRow]
  repeat' split
  all_goals simp

@[simp] theorem updateRows_keeps (x : ShowReport) (s : State) :
    (updateRows x s).pending = s.pending ∧
      (updateRows x s).clock = s.clock ∧
      (updateRows x s).shows = s.shows ∧
      (updateRows x s).desks = s.desks ∧
      (updateRows x s).arb = s.arb ∧
      (updateRows x s).air = s.air ∧
      (updateRows x s).faults = s.faults ∧
      (updateRows x s).reads = s.reads ∧
      (updateRows x s).bus = s.bus ∧
      (updateRows x s).hostMem = s.hostMem ∧
      (updateRows x s).freeCount = s.freeCount := by
  simp only [updateRows]
  simp

@[simp] theorem popSignal_keeps (s : State) :
    (popSignal s).pending = s.pending ∧
      (popSignal s).win = s.win ∧
      (popSignal s).clock = s.clock ∧
      (popSignal s).shows = s.shows ∧
      (popSignal s).desks = s.desks ∧
      (popSignal s).arb = s.arb ∧
      (popSignal s).air = s.air ∧
      (popSignal s).displays = s.displays ∧
      (popSignal s).stream = s.stream ∧
      (popSignal s).faults = s.faults ∧
      (popSignal s).reads = s.reads ∧
      (popSignal s).hostMem = s.hostMem ∧
      (popSignal s).freeCount = s.freeCount := by
  simp only [popSignal]
  simp

@[simp] theorem beginTakeover_keeps (d : DisplayIx) (s : State) :
    (beginTakeover d s).pending = s.pending ∧
      (beginTakeover d s).win = s.win ∧
      (beginTakeover d s).clock = s.clock ∧
      (beginTakeover d s).shows = s.shows ∧
      (beginTakeover d s).desks = s.desks ∧
      (beginTakeover d s).arb = s.arb ∧
      (beginTakeover d s).air = s.air ∧
      (beginTakeover d s).faults = s.faults ∧
      (beginTakeover d s).reads = s.reads ∧
      (beginTakeover d s).hostMem = s.hostMem ∧
      (beginTakeover d s).freeCount = s.freeCount := by
  simp only [beginTakeover]
  repeat' split
  all_goals simp

@[simp] theorem endTakeover_keeps (d : DisplayIx) (s : State) :
    (endTakeover d s).pending = s.pending ∧
      (endTakeover d s).win = s.win ∧
      (endTakeover d s).clock = s.clock ∧
      (endTakeover d s).shows = s.shows ∧
      (endTakeover d s).desks = s.desks ∧
      (endTakeover d s).arb = s.arb ∧
      (endTakeover d s).air = s.air ∧
      (endTakeover d s).faults = s.faults ∧
      (endTakeover d s).reads = s.reads ∧
      (endTakeover d s).hostMem = s.hostMem ∧
      (endTakeover d s).freeCount = s.freeCount := by
  simp only [endTakeover]
  repeat' split
  all_goals simp

@[simp] theorem withStream_keeps (d : DisplayIx) (f : StreamRec → StreamRec) (s : State) :
    (withStream d f s).pending = s.pending ∧
      (withStream d f s).win = s.win ∧
      (withStream d f s).clock = s.clock ∧
      (withStream d f s).shows = s.shows ∧
      (withStream d f s).desks = s.desks ∧
      (withStream d f s).arb = s.arb ∧
      (withStream d f s).air = s.air ∧
      (withStream d f s).displays = s.displays ∧
      (withStream d f s).faults = s.faults ∧
      (withStream d f s).reads = s.reads ∧
      (withStream d f s).bus = s.bus ∧
      (withStream d f s).hostMem = s.hostMem ∧
      (withStream d f s).freeCount = s.freeCount := by
  simp only [withStream]
  simp

@[simp] theorem retestAt_keeps (d : DisplayIx) (s : State) :
    (retestAt d s).pending = s.pending ∧
      (retestAt d s).win = s.win ∧
      (retestAt d s).clock = s.clock ∧
      (retestAt d s).shows = s.shows ∧
      (retestAt d s).desks = s.desks ∧
      (retestAt d s).arb = s.arb ∧
      (retestAt d s).air = s.air ∧
      (retestAt d s).displays = s.displays ∧
      (retestAt d s).faults = s.faults ∧
      (retestAt d s).reads = s.reads ∧
      (retestAt d s).bus = s.bus ∧
      (retestAt d s).hostMem = s.hostMem ∧
      (retestAt d s).freeCount = s.freeCount := by
  simp only [retestAt]
  simp

@[simp] theorem reportEnd_keeps (d : DisplayIx) (segmentNo : Nat) (s : State) :
    (reportEnd d segmentNo s).pending = s.pending ∧
      (reportEnd d segmentNo s).win = s.win ∧
      (reportEnd d segmentNo s).clock = s.clock ∧
      (reportEnd d segmentNo s).shows = s.shows ∧
      (reportEnd d segmentNo s).desks = s.desks ∧
      (reportEnd d segmentNo s).arb = s.arb ∧
      (reportEnd d segmentNo s).air = s.air ∧
      (reportEnd d segmentNo s).displays = s.displays ∧
      (reportEnd d segmentNo s).stream = s.stream ∧
      (reportEnd d segmentNo s).faults = s.faults ∧
      (reportEnd d segmentNo s).reads = s.reads ∧
      (reportEnd d segmentNo s).hostMem = s.hostMem ∧
      (reportEnd d segmentNo s).freeCount = s.freeCount := by
  simp only [reportEnd]
  simp

@[simp] theorem releaseStream_keeps (f : FeatureIx) (c : ReleaseCause) (s : State) :
    (releaseStream f c s).pending = s.pending ∧
      (releaseStream f c s).win = s.win ∧
      (releaseStream f c s).clock = s.clock ∧
      (releaseStream f c s).shows = s.shows ∧
      (releaseStream f c s).desks = s.desks ∧
      (releaseStream f c s).arb = s.arb ∧
      (releaseStream f c s).air = s.air ∧
      (releaseStream f c s).displays = s.displays ∧
      (releaseStream f c s).stream = s.stream ∧
      (releaseStream f c s).faults = s.faults ∧
      (releaseStream f c s).reads = s.reads ∧
      (releaseStream f c s).hostMem = s.hostMem ∧
      (releaseStream f c s).freeCount = s.freeCount := by
  simp only [releaseStream]
  simp

@[simp] theorem endStream_keeps (d : DisplayIx) (c : ReleaseCause) (s : State) :
    (endStream d c s).pending = s.pending ∧
      (endStream d c s).win = s.win ∧
      (endStream d c s).clock = s.clock ∧
      (endStream d c s).shows = s.shows ∧
      (endStream d c s).desks = s.desks ∧
      (endStream d c s).arb = s.arb ∧
      (endStream d c s).air = s.air ∧
      (endStream d c s).displays = s.displays ∧
      (endStream d c s).faults = s.faults ∧
      (endStream d c s).reads = s.reads ∧
      (endStream d c s).hostMem = s.hostMem ∧
      (endStream d c s).freeCount = s.freeCount := by
  simp only [endStream]
  simp

@[simp] theorem endIfMarked_keeps (d : DisplayIx) (s : State) :
    (endIfMarked d s).pending = s.pending ∧
      (endIfMarked d s).win = s.win ∧
      (endIfMarked d s).clock = s.clock ∧
      (endIfMarked d s).shows = s.shows ∧
      (endIfMarked d s).desks = s.desks ∧
      (endIfMarked d s).arb = s.arb ∧
      (endIfMarked d s).air = s.air ∧
      (endIfMarked d s).displays = s.displays ∧
      (endIfMarked d s).faults = s.faults ∧
      (endIfMarked d s).reads = s.reads ∧
      (endIfMarked d s).hostMem = s.hostMem ∧
      (endIfMarked d s).freeCount = s.freeCount := by
  simp only [endIfMarked]
  repeat' split
  all_goals simp

@[simp] theorem popRequest_keeps (s : State) :
    (popRequest s).pending = s.pending ∧
      (popRequest s).win = s.win ∧
      (popRequest s).clock = s.clock ∧
      (popRequest s).shows = s.shows ∧
      (popRequest s).desks = s.desks ∧
      (popRequest s).arb = s.arb ∧
      (popRequest s).air = s.air ∧
      (popRequest s).displays = s.displays ∧
      (popRequest s).stream = s.stream ∧
      (popRequest s).faults = s.faults ∧
      (popRequest s).reads = s.reads ∧
      (popRequest s).hostMem = s.hostMem ∧
      (popRequest s).freeCount = s.freeCount := by
  simp only [popRequest]
  simp

@[simp] theorem startStream_keeps (d : DisplayIx) (f : FeatureIx) (segmentNo low high : Nat) (held : Bool) (s : State) :
    (startStream d f segmentNo low high held s).pending = s.pending ∧
      (startStream d f segmentNo low high held s).win = s.win ∧
      (startStream d f segmentNo low high held s).clock = s.clock ∧
      (startStream d f segmentNo low high held s).shows = s.shows ∧
      (startStream d f segmentNo low high held s).desks = s.desks ∧
      (startStream d f segmentNo low high held s).arb = s.arb ∧
      (startStream d f segmentNo low high held s).air = s.air ∧
      (startStream d f segmentNo low high held s).displays = s.displays ∧
      (startStream d f segmentNo low high held s).faults = s.faults ∧
      (startStream d f segmentNo low high held s).reads = s.reads ∧
      (startStream d f segmentNo low high held s).hostMem = s.hostMem ∧
      (startStream d f segmentNo low high held s).freeCount = s.freeCount := by
  simp only [startStream]
  simp

@[simp] theorem markEnd_keeps (d : DisplayIx) (s : State) :
    (markEnd d s).pending = s.pending ∧
      (markEnd d s).win = s.win ∧
      (markEnd d s).clock = s.clock ∧
      (markEnd d s).shows = s.shows ∧
      (markEnd d s).desks = s.desks ∧
      (markEnd d s).arb = s.arb ∧
      (markEnd d s).air = s.air ∧
      (markEnd d s).displays = s.displays ∧
      (markEnd d s).faults = s.faults ∧
      (markEnd d s).reads = s.reads ∧
      (markEnd d s).hostMem = s.hostMem ∧
      (markEnd d s).freeCount = s.freeCount := by
  simp only [markEnd]
  simp

@[simp] theorem issueBurst_keeps (d : DisplayIx) (b : Burst) (granted : Bool) (s : State) :
    (issueBurst d b granted s).pending = s.pending ∧
      (issueBurst d b granted s).win = s.win ∧
      (issueBurst d b granted s).clock = s.clock ∧
      (issueBurst d b granted s).shows = s.shows ∧
      (issueBurst d b granted s).desks = s.desks ∧
      (issueBurst d b granted s).arb = s.arb ∧
      (issueBurst d b granted s).air = s.air ∧
      (issueBurst d b granted s).displays = s.displays ∧
      (issueBurst d b granted s).faults = s.faults ∧
      (issueBurst d b granted s).bus = s.bus ∧
      (issueBurst d b granted s).hostMem = s.hostMem ∧
      (issueBurst d b granted s).freeCount = s.freeCount := by
  simp only [issueBurst]
  simp

@[simp] theorem joinBurst_keeps (d : DisplayIx) (bytes : List Byte) (s : State) :
    (joinBurst d bytes s).pending = s.pending ∧
      (joinBurst d bytes s).win = s.win ∧
      (joinBurst d bytes s).clock = s.clock ∧
      (joinBurst d bytes s).shows = s.shows ∧
      (joinBurst d bytes s).desks = s.desks ∧
      (joinBurst d bytes s).arb = s.arb ∧
      (joinBurst d bytes s).air = s.air ∧
      (joinBurst d bytes s).displays = s.displays ∧
      (joinBurst d bytes s).faults = s.faults ∧
      (joinBurst d bytes s).reads = s.reads ∧
      (joinBurst d bytes s).bus = s.bus ∧
      (joinBurst d bytes s).hostMem = s.hostMem ∧
      (joinBurst d bytes s).freeCount = s.freeCount := by
  simp only [joinBurst]
  simp

@[simp] theorem giveUpClip_keeps (d : DisplayIx) (s : State) :
    (giveUpClip d s).pending = s.pending ∧
      (giveUpClip d s).win = s.win ∧
      (giveUpClip d s).clock = s.clock ∧
      (giveUpClip d s).shows = s.shows ∧
      (giveUpClip d s).desks = s.desks ∧
      (giveUpClip d s).arb = s.arb ∧
      (giveUpClip d s).air = s.air ∧
      (giveUpClip d s).displays = s.displays ∧
      (giveUpClip d s).faults = s.faults ∧
      (giveUpClip d s).reads = s.reads ∧
      (giveUpClip d s).hostMem = s.hostMem ∧
      (giveUpClip d s).freeCount = s.freeCount := by
  simp only [giveUpClip]
  simp

@[simp] theorem burstFailed_keeps (d : DisplayIx) (b : Burst) (s : State) :
    (burstFailed d b s).pending = s.pending ∧
      (burstFailed d b s).win = s.win ∧
      (burstFailed d b s).clock = s.clock ∧
      (burstFailed d b s).shows = s.shows ∧
      (burstFailed d b s).desks = s.desks ∧
      (burstFailed d b s).arb = s.arb ∧
      (burstFailed d b s).air = s.air ∧
      (burstFailed d b s).displays = s.displays ∧
      (burstFailed d b s).faults = s.faults ∧
      (burstFailed d b s).hostMem = s.hostMem ∧
      (burstFailed d b s).freeCount = s.freeCount := by
  simp only [burstFailed]
  repeat' split
  all_goals simp

@[simp] theorem beginUnderrun_keeps (d : DisplayIx) (s : State) :
    (beginUnderrun d s).pending = s.pending ∧
      (beginUnderrun d s).win = s.win ∧
      (beginUnderrun d s).clock = s.clock ∧
      (beginUnderrun d s).shows = s.shows ∧
      (beginUnderrun d s).desks = s.desks ∧
      (beginUnderrun d s).arb = s.arb ∧
      (beginUnderrun d s).air = s.air ∧
      (beginUnderrun d s).displays = s.displays ∧
      (beginUnderrun d s).faults = s.faults ∧
      (beginUnderrun d s).reads = s.reads ∧
      (beginUnderrun d s).hostMem = s.hostMem ∧
      (beginUnderrun d s).freeCount = s.freeCount := by
  simp only [beginUnderrun]
  simp

@[simp] theorem sendBytes_keeps (d : DisplayIx) (s : State) :
    (sendBytes d s).pending = s.pending ∧
      (sendBytes d s).win = s.win ∧
      (sendBytes d s).clock = s.clock ∧
      (sendBytes d s).shows = s.shows ∧
      (sendBytes d s).desks = s.desks ∧
      (sendBytes d s).arb = s.arb ∧
      (sendBytes d s).air = s.air ∧
      (sendBytes d s).displays = s.displays ∧
      (sendBytes d s).faults = s.faults ∧
      (sendBytes d s).reads = s.reads ∧
      (sendBytes d s).hostMem = s.hostMem ∧
      (sendBytes d s).freeCount = s.freeCount := by
  simp only [sendBytes]
  repeat' split
  all_goals simp

@[simp] theorem resetBlocks_keeps (s : State) :
    (resetBlocks s).pending = s.pending ∧
      (resetBlocks s).faults = s.faults ∧
      (resetBlocks s).reads = s.reads ∧
      (resetBlocks s).hostMem = s.hostMem ∧
      (resetBlocks s).freeCount = s.freeCount := by
  simp only [resetBlocks]
  simp

@[simp] theorem clearStrip_keeps (before : State) (d : DisplayIx) (s : State) :
    (clearStrip before d s).pending = s.pending ∧
      (clearStrip before d s).win = s.win ∧
      (clearStrip before d s).clock = s.clock ∧
      (clearStrip before d s).shows = s.shows ∧
      (clearStrip before d s).desks = s.desks ∧
      (clearStrip before d s).arb = s.arb ∧
      (clearStrip before d s).air = s.air ∧
      (clearStrip before d s).displays = s.displays ∧
      (clearStrip before d s).faults = s.faults ∧
      (clearStrip before d s).reads = s.reads ∧
      (clearStrip before d s).bus = s.bus ∧
      (clearStrip before d s).hostMem = s.hostMem ∧
      (clearStrip before d s).freeCount = s.freeCount := by
  simp only [clearStrip]
  repeat' split
  all_goals simp

@[simp] theorem lobbyReset_keeps (s : State) :
    (lobbyReset s).pending = s.pending ∧
      (lobbyReset s).faults = s.faults ∧
      (lobbyReset s).reads = s.reads ∧
      (lobbyReset s).hostMem = s.hostMem ∧
      (lobbyReset s).freeCount = s.freeCount := by
  simp only [lobbyReset]
  simp

@[simp] theorem writeControl_keeps (w : BitVec 32) (s : State) :
    (writeControl w s).pending = s.pending ∧
      (writeControl w s).faults = s.faults ∧
      (writeControl w s).hostMem = s.hostMem ∧
      (writeControl w s).freeCount = s.freeCount := by
  simp only [writeControl]
  repeat' split
  all_goals simp

@[simp] theorem setBase_keeps (base : BitVec 64) (s : State) :
    (setBase base s).pending = s.pending ∧
      (setBase base s).clock = s.clock ∧
      (setBase base s).shows = s.shows ∧
      (setBase base s).desks = s.desks ∧
      (setBase base s).arb = s.arb ∧
      (setBase base s).air = s.air ∧
      (setBase base s).displays = s.displays ∧
      (setBase base s).stream = s.stream ∧
      (setBase base s).faults = s.faults ∧
      (setBase base s).reads = s.reads ∧
      (setBase base s).bus = s.bus ∧
      (setBase base s).hostMem = s.hostMem ∧
      (setBase base s).freeCount = s.freeCount := by
  simp only [setBase]
  repeat' split
  all_goals simp

@[simp] theorem applySettings_keeps (f : Flight) (c : Settings) (changed : Nat) (s : State) :
    (applySettings f c changed s).pending = s.pending ∧
      (applySettings f c changed s).clock = s.clock ∧
      (applySettings f c changed s).shows = s.shows ∧
      (applySettings f c changed s).desks = s.desks ∧
      (applySettings f c changed s).arb = s.arb ∧
      (applySettings f c changed s).air = s.air ∧
      (applySettings f c changed s).displays = s.displays ∧
      (applySettings f c changed s).stream = s.stream ∧
      (applySettings f c changed s).faults = s.faults ∧
      (applySettings f c changed s).reads = s.reads ∧
      (applySettings f c changed s).bus = s.bus ∧
      (applySettings f c changed s).hostMem = s.hostMem ∧
      (applySettings f c changed s).freeCount = s.freeCount := by
  simp only [applySettings]
  repeat' split
  all_goals simp

@[simp] theorem takeConfigure_keeps (f : Flight) (s : State) :
    (takeConfigure f s).pending = s.pending ∧
      (takeConfigure f s).clock = s.clock ∧
      (takeConfigure f s).shows = s.shows ∧
      (takeConfigure f s).desks = s.desks ∧
      (takeConfigure f s).arb = s.arb ∧
      (takeConfigure f s).air = s.air ∧
      (takeConfigure f s).displays = s.displays ∧
      (takeConfigure f s).stream = s.stream ∧
      (takeConfigure f s).faults = s.faults ∧
      (takeConfigure f s).reads = s.reads ∧
      (takeConfigure f s).bus = s.bus ∧
      (takeConfigure f s).hostMem = s.hostMem ∧
      (takeConfigure f s).freeCount = s.freeCount := by
  simp only [takeConfigure]
  repeat' split
  all_goals simp

@[simp] theorem rebandShow_keeps (old : ShowSettings) (i : ShowIx) (s : State) :
    (rebandShow old i s).pending = s.pending ∧
      (rebandShow old i s).clock = s.clock ∧
      (rebandShow old i s).desks = s.desks ∧
      (rebandShow old i s).arb = s.arb ∧
      (rebandShow old i s).air = s.air ∧
      (rebandShow old i s).displays = s.displays ∧
      (rebandShow old i s).stream = s.stream ∧
      (rebandShow old i s).faults = s.faults ∧
      (rebandShow old i s).reads = s.reads ∧
      (rebandShow old i s).hostMem = s.hostMem ∧
      (rebandShow old i s).freeCount = s.freeCount := by
  simp only [rebandShow]
  repeat' split
  all_goals simp

@[simp] theorem adoptShows_keeps (c : ShowSettings) (s : State) :
    (adoptShows c s).pending = s.pending ∧
      (adoptShows c s).clock = s.clock ∧
      (adoptShows c s).desks = s.desks ∧
      (adoptShows c s).arb = s.arb ∧
      (adoptShows c s).air = s.air ∧
      (adoptShows c s).displays = s.displays ∧
      (adoptShows c s).stream = s.stream ∧
      (adoptShows c s).faults = s.faults ∧
      (adoptShows c s).reads = s.reads ∧
      (adoptShows c s).hostMem = s.hostMem ∧
      (adoptShows c s).freeCount = s.freeCount := by
  simp only [adoptShows]
  simp

@[simp] theorem adoptDesks_keeps (c : DeskSettings) (s : State) :
    (adoptDesks c s).pending = s.pending ∧
      (adoptDesks c s).win = s.win ∧
      (adoptDesks c s).clock = s.clock ∧
      (adoptDesks c s).shows = s.shows ∧
      (adoptDesks c s).arb = s.arb ∧
      (adoptDesks c s).air = s.air ∧
      (adoptDesks c s).displays = s.displays ∧
      (adoptDesks c s).stream = s.stream ∧
      (adoptDesks c s).faults = s.faults ∧
      (adoptDesks c s).reads = s.reads ∧
      (adoptDesks c s).hostMem = s.hostMem ∧
      (adoptDesks c s).freeCount = s.freeCount := by
  simp only [adoptDesks]
  repeat' split
  all_goals simp

@[simp] theorem adoptStream_keeps (c : StreamSettings) (s : State) :
    (adoptStream c s).pending = s.pending ∧
      (adoptStream c s).win = s.win ∧
      (adoptStream c s).clock = s.clock ∧
      (adoptStream c s).shows = s.shows ∧
      (adoptStream c s).desks = s.desks ∧
      (adoptStream c s).arb = s.arb ∧
      (adoptStream c s).air = s.air ∧
      (adoptStream c s).displays = s.displays ∧
      (adoptStream c s).faults = s.faults ∧
      (adoptStream c s).reads = s.reads ∧
      (adoptStream c s).bus = s.bus ∧
      (adoptStream c s).hostMem = s.hostMem ∧
      (adoptStream c s).freeCount = s.freeCount := by
  simp only [adoptStream]
  simp

@[simp] theorem adopt_keeps (o : Owner) (c : Settings) (s : State) :
    (adopt o c s).pending = s.pending ∧
      (adopt o c s).clock = s.clock ∧
      (adopt o c s).reads = s.reads ∧
      (adopt o c s).hostMem = s.hostMem ∧
      (adopt o c s).freeCount = s.freeCount := by
  simp only [adopt]
  repeat' split
  all_goals simp

@[simp] theorem settleConfigure_keeps (o : Owner) (s : State) :
    (settleConfigure o s).pending = s.pending ∧
      (settleConfigure o s).clock = s.clock ∧
      (settleConfigure o s).shows = s.shows ∧
      (settleConfigure o s).desks = s.desks ∧
      (settleConfigure o s).arb = s.arb ∧
      (settleConfigure o s).air = s.air ∧
      (settleConfigure o s).displays = s.displays ∧
      (settleConfigure o s).stream = s.stream ∧
      (settleConfigure o s).faults = s.faults ∧
      (settleConfigure o s).reads = s.reads ∧
      (settleConfigure o s).bus = s.bus ∧
      (settleConfigure o s).hostMem = s.hostMem ∧
      (settleConfigure o s).freeCount = s.freeCount := by
  simp only [settleConfigure]
  repeat' split
  all_goals simp

end Sys2Proof.Machine
end

