-- ==== Sys2Proof/Laws/State.lean ====
section
/-! SUPPORT. One lemma for each field of the block that a named update writes: what it becomes, or
that it stays. That the other blocks stay is in Laws/Frames.lean. -/

namespace Sys2Proof.Machine

/-! ## Show Table -/

@[simp] theorem setShow_recs (i : ShowIx) (sh : ShowRec) (s : State) :
    (setShow i sh s).shows.recs = put s.shows.recs i sh := rfl
@[simp] theorem setShow_holds (i : ShowIx) (sh : ShowRec) (s : State) :
    (setShow i sh s).shows.holds = s.shows.holds := rfl
@[simp] theorem setShow_holdList (i : ShowIx) (sh : ShowRec) (s : State) :
    (setShow i sh s).shows.holdList = s.shows.holdList := rfl
@[simp] theorem setShow_counter (i : ShowIx) (sh : ShowRec) (s : State) :
    (setShow i sh s).shows.placementCounter = s.shows.placementCounter := rfl
@[simp] theorem setShow_cfg (i : ShowIx) (sh : ShowRec) (s : State) :
    (setShow i sh s).shows.cfg = s.shows.cfg := rfl

/-! ## Desk Line Controller -/

@[simp] theorem withPort_ports (d : DeskIx) (f : Port → Port) (s : State) :
    (withPort d f s).desks.ports = put s.desks.ports d (f s.desks.ports[d]) := rfl
@[simp] theorem withPort_intake (d : DeskIx) (f : Port → Port) (s : State) :
    (withPort d f s).desks.intake = s.desks.intake := rfl
@[simp] theorem withPort_inHand (d : DeskIx) (f : Port → Port) (s : State) :
    (withPort d f s).desks.inHand = s.desks.inHand := rfl
@[simp] theorem withPort_paused (d : DeskIx) (f : Port → Port) (s : State) :
    (withPort d f s).desks.paused = s.desks.paused := rfl
@[simp] theorem withPort_pauseTimer (d : DeskIx) (f : Port → Port) (s : State) :
    (withPort d f s).desks.pauseTimer = s.desks.pauseTimer := rfl
@[simp] theorem withPort_cfg (d : DeskIx) (f : Port → Port) (s : State) :
    (withPort d f s).desks.cfg = s.desks.cfg := rfl

/-! ## Notice Arbiter -/

@[simp] theorem withArb_recs (d : DisplayIx) (f : ArbRec → ArbRec) (s : State) :
    (withArb d f s).arb.recs = put s.arb.recs d (f s.arb.recs[d]) := rfl
@[simp] theorem withArb_slots (d : DisplayIx) (f : ArbRec → ArbRec) (s : State) :
    (withArb d f s).arb.slots = s.arb.slots := rfl
@[simp] theorem withArb_order (d : DisplayIx) (f : ArbRec → ArbRec) (s : State) :
    (withArb d f s).arb.order = s.arb.order := rfl
@[simp] theorem withArb_postCounter (d : DisplayIx) (f : ArbRec → ArbRec) (s : State) :
    (withArb d f s).arb.postCounter = s.arb.postCounter := rfl
@[simp] theorem withArb_cfg (d : DisplayIx) (f : ArbRec → ArbRec) (s : State) :
    (withArb d f s).arb.cfg = s.arb.cfg := rfl
@[simp] theorem withdrawPending_slots (i : NoticeIx) (s : State) :
    (withdrawPending i s).arb.slots = s.arb.slots := rfl
@[simp] theorem withdrawPending_order (i : NoticeIx) (s : State) :
    (withdrawPending i s).arb.order = s.arb.order := rfl
@[simp] theorem withdrawPending_postCounter (i : NoticeIx) (s : State) :
    (withdrawPending i s).arb.postCounter = s.arb.postCounter := rfl
@[simp] theorem withdrawPending_cfg (i : NoticeIx) (s : State) :
    (withdrawPending i s).arb.cfg = s.arb.cfg := rfl
@[simp] theorem setNotice_slots (i : NoticeIx) (n : Notice) (s : State) :
    (setNotice i n s).arb.slots = put s.arb.slots i { s.arb.slots[i] with notice := some n } := rfl
@[simp] theorem setNotice_recs (i : NoticeIx) (n : Notice) (s : State) :
    (setNotice i n s).arb.recs = s.arb.recs := rfl
@[simp] theorem setNotice_order (i : NoticeIx) (n : Notice) (s : State) :
    (setNotice i n s).arb.order = s.arb.order := rfl
@[simp] theorem setNotice_postCounter (i : NoticeIx) (n : Notice) (s : State) :
    (setNotice i n s).arb.postCounter = s.arb.postCounter := rfl
@[simp] theorem setNotice_cfg (i : NoticeIx) (n : Notice) (s : State) :
    (setNotice i n s).arb.cfg = s.arb.cfg := rfl

/-! ## Airtime Scheduler -/

@[simp] theorem setFeature_features (f : FeatureIx) (r : FeatureRec) (s : State) :
    (setFeature f r s).air.features = put s.air.features f r := rfl
@[simp] theorem setFeature_lastTrailer (f : FeatureIx) (r : FeatureRec) (s : State) :
    (setFeature f r s).air.lastTrailer = s.air.lastTrailer := rfl
@[simp] theorem setFeature_cfg (f : FeatureIx) (r : FeatureRec) (s : State) :
    (setFeature f r s).air.cfg = s.air.cfg := rfl

/-! ## Display Controller -/

@[simp] theorem withDisplay_recs (d : DisplayIx) (f : DisplayRec → DisplayRec) (s : State) :
    (withDisplay d f s).displays.recs = put s.displays.recs d (f s.displays.recs[d]) := rfl
@[simp] theorem withDisplay_resumeLimit (d : DisplayIx) (f : DisplayRec → DisplayRec) (s : State) :
    (withDisplay d f s).displays.resumeLimit = s.displays.resumeLimit := rfl

/-! ## Stream Engine -/

@[simp] theorem withStream_recs (d : DisplayIx) (f : StreamRec → StreamRec) (s : State) :
    (withStream d f s).stream.recs = put s.stream.recs d (f s.stream.recs[d]) := rfl
@[simp] theorem withStream_links (d : DisplayIx) (f : StreamRec → StreamRec) (s : State) :
    (withStream d f s).stream.links = s.stream.links := rfl
@[simp] theorem withStream_lastGrant (d : DisplayIx) (f : StreamRec → StreamRec) (s : State) :
    (withStream d f s).stream.lastGrant = s.stream.lastGrant := rfl
@[simp] theorem withStream_lfsr (d : DisplayIx) (f : StreamRec → StreamRec) (s : State) :
    (withStream d f s).stream.lfsr = s.stream.lfsr := rfl
@[simp] theorem withStream_cfg (d : DisplayIx) (f : StreamRec → StreamRec) (s : State) :
    (withStream d f s).stream.cfg = s.stream.cfg := rfl
@[simp] theorem withLink_links (d : DisplayIx) (f : PanelLink → PanelLink) (s : State) :
    (withLink d f s).stream.links = put s.stream.links d (f s.stream.links[d]) := rfl
@[simp] theorem withLink_recs (d : DisplayIx) (f : PanelLink → PanelLink) (s : State) :
    (withLink d f s).stream.recs = s.stream.recs := rfl
@[simp] theorem withLink_lastGrant (d : DisplayIx) (f : PanelLink → PanelLink) (s : State) :
    (withLink d f s).stream.lastGrant = s.stream.lastGrant := rfl
@[simp] theorem withLink_lfsr (d : DisplayIx) (f : PanelLink → PanelLink) (s : State) :
    (withLink d f s).stream.lfsr = s.stream.lfsr := rfl
@[simp] theorem withLink_cfg (d : DisplayIx) (f : PanelLink → PanelLink) (s : State) :
    (withLink d f s).stream.cfg = s.stream.cfg := rfl

/-! ## Fault Unit -/

@[simp] theorem replaced_of (u : FaultUnit) (sev : Severity) (r : SeverityRec) :
    (u.replaced sev r).of sev = r := by cases sev <;> rfl
@[simp] theorem replaced_cfg (u : FaultUnit) (sev : Severity) (r : SeverityRec) :
    (u.replaced sev r).cfg = u.cfg := by cases sev <;> rfl
theorem replaced_of_other (u : FaultUnit) (sev other : Severity) (r : SeverityRec) (h : other ≠ sev) :
    (u.replaced sev r).of other = u.of other := by
  cases sev <;> cases other <;> simp_all [FaultUnit.of, FaultUnit.replaced]

end Sys2Proof.Machine
end

