-- ==== Sys2Proof/Laws/Writes.lean ====
section
/-! SUPPORT. The operations that reach the Window Interface only to hand it a record or an anchor word
leave the entry in flight, window_valid, the settings and the settings events as they are (R166,
R167). -/

namespace Sys2Proof.Machine

@[simp] theorem foldl_win_flight {α : Type} (g : State → α → State)
    (h : ∀ s x, (g s x).win.flight = s.win.flight) (l : List α) (s : State) :
    (l.foldl g s).win.flight = s.win.flight := by
  induction l generalizing s with
  | nil => rfl
  | cons a l ih => simp [ih, h]

@[simp] theorem foldl_win_windowValid {α : Type} (g : State → α → State)
    (h : ∀ s x, (g s x).win.windowValid = s.win.windowValid) (l : List α) (s : State) :
    (l.foldl g s).win.windowValid = s.win.windowValid := by
  induction l generalizing s with
  | nil => rfl
  | cons a l ih => simp [ih, h]

@[simp] theorem foldl_win_cfg {α : Type} (g : State → α → State)
    (h : ∀ s x, (g s x).win.cfg = s.win.cfg) (l : List α) (s : State) :
    (l.foldl g s).win.cfg = s.win.cfg := by
  induction l generalizing s with
  | nil => rfl
  | cons a l ih => simp [ih, h]

@[simp] theorem foldl_win_settingsQ {α : Type} (g : State → α → State)
    (h : ∀ s x, (g s x).win.settingsQ = s.win.settingsQ) (l : List α) (s : State) :
    (l.foldl g s).win.settingsQ = s.win.settingsQ := by
  induction l generalizing s with
  | nil => rfl
  | cons a l ih => simp [ih, h]

@[simp] theorem foldl_win_runBit {α : Type} (g : State → α → State)
    (h : ∀ s x, (g s x).win.runBit = s.win.runBit) (l : List α) (s : State) :
    (l.foldl g s).win.runBit = s.win.runBit := by
  induction l generalizing s with
  | nil => rfl
  | cons a l ih => simp [ih, h]

@[simp] theorem foldl_win_alertAEn {α : Type} (g : State → α → State)
    (h : ∀ s x, (g s x).win.alertAEn = s.win.alertAEn) (l : List α) (s : State) :
    (l.foldl g s).win.alertAEn = s.win.alertAEn := by
  induction l generalizing s with
  | nil => rfl
  | cons a l ih => simp [ih, h]

@[simp] theorem foldl_win_alertBEn {α : Type} (g : State → α → State)
    (h : ∀ s x, (g s x).win.alertBEn = s.win.alertBEn) (l : List α) (s : State) :
    (l.foldl g s).win.alertBEn = s.win.alertBEn := by
  induction l generalizing s with
  | nil => rfl
  | cons a l ih => simp [ih, h]

@[simp] theorem foldl_win_causes {α : Type} (g : State → α → State)
    (h : ∀ s x, (g s x).win.causes = s.win.causes) (l : List α) (s : State) :
    (l.foldl g s).win.causes = s.win.causes := by
  induction l generalizing s with
  | nil => rfl
  | cons a l ih => simp [ih, h]

@[simp] theorem foldl_win_windowBase {α : Type} (g : State → α → State)
    (h : ∀ s x, (g s x).win.windowBase = s.win.windowBase) (l : List α) (s : State) :
    (l.foldl g s).win.windowBase = s.win.windowBase := by
  induction l generalizing s with
  | nil => rfl
  | cons a l ih => simp [ih, h]

@[simp] theorem foldl_win_runState {α : Type} (g : State → α → State)
    (h : ∀ s x, (g s x).win.runState = s.win.runState) (l : List α) (s : State) :
    (l.foldl g s).win.runState = s.win.runState := by
  induction l generalizing s with
  | nil => rfl
  | cons a l ih => simp [ih, h]

@[simp] theorem foldl_win_starting {α : Type} (g : State → α → State)
    (h : ∀ s x, (g s x).win.starting = s.win.starting) (l : List α) (s : State) :
    (l.foldl g s).win.starting = s.win.starting := by
  induction l generalizing s with
  | nil => rfl
  | cons a l ih => simp [ih, h]

@[simp] theorem foldl_win_stopping {α : Type} (g : State → α → State)
    (h : ∀ s x, (g s x).win.stopping = s.win.stopping) (l : List α) (s : State) :
    (l.foldl g s).win.stopping = s.win.stopping := by
  induction l generalizing s with
  | nil => rfl
  | cons a l ih => simp [ih, h]

@[simp] theorem foldl_win_stallCause {α : Type} (g : State → α → State)
    (h : ∀ s x, (g s x).win.stallCause = s.win.stallCause) (l : List α) (s : State) :
    (l.foldl g s).win.stallCause = s.win.stallCause := by
  induction l generalizing s with
  | nil => rfl
  | cons a l ih => simp [ih, h]

@[simp] theorem foldl_win_anchorCheck {α : Type} (g : State → α → State)
    (h : ∀ s x, (g s x).win.anchorCheck = s.win.anchorCheck) (l : List α) (s : State) :
    (l.foldl g s).win.anchorCheck = s.win.anchorCheck := by
  induction l generalizing s with
  | nil => rfl
  | cons a l ih => simp [ih, h]

@[simp] theorem foldl_win_session {α : Type} (g : State → α → State)
    (h : ∀ s x, (g s x).win.session = s.win.session) (l : List α) (s : State) :
    (l.foldl g s).win.session = s.win.session := by
  induction l generalizing s with
  | nil => rfl
  | cons a l ih => simp [ih, h]

@[simp] theorem foldl_win_geometry {α : Type} (g : State → α → State)
    (h : ∀ s x, (g s x).win.geometry = s.win.geometry) (l : List α) (s : State) :
    (l.foldl g s).win.geometry = s.win.geometry := by
  induction l generalizing s with
  | nil => rfl
  | cons a l ih => simp [ih, h]

@[simp] theorem foldl_win_takeMark {α : Type} (g : State → α → State)
    (h : ∀ s x, (g s x).win.takeMark = s.win.takeMark) (l : List α) (s : State) :
    (l.foldl g s).win.takeMark = s.win.takeMark := by
  induction l generalizing s with
  | nil => rfl
  | cons a l ih => simp [ih, h]

@[simp] theorem foldl_win_publishMark {α : Type} (g : State → α → State)
    (h : ∀ s x, (g s x).win.publishMark = s.win.publishMark) (l : List α) (s : State) :
    (l.foldl g s).win.publishMark = s.win.publishMark := by
  induction l generalizing s with
  | nil => rfl
  | cons a l ih => simp [ih, h]

@[simp] theorem foldl_win_heldOutcome {α : Type} (g : State → α → State)
    (h : ∀ s x, (g s x).win.heldOutcome = s.win.heldOutcome) (l : List α) (s : State) :
    (l.foldl g s).win.heldOutcome = s.win.heldOutcome := by
  induction l generalizing s with
  | nil => rfl
  | cons a l ih => simp [ih, h]

@[simp] theorem foldl_win_rewriting {α : Type} (g : State → α → State)
    (h : ∀ s x, (g s x).win.rewriting = s.win.rewriting) (l : List α) (s : State) :
    (l.foldl g s).win.rewriting = s.win.rewriting := by
  induction l generalizing s with
  | nil => rfl
  | cons a l ih => simp [ih, h]

@[simp] theorem foldl_win_startDone {α : Type} (g : State → α → State)
    (h : ∀ s x, (g s x).win.startDone = s.win.startDone) (l : List α) (s : State) :
    (l.foldl g s).win.startDone = s.win.startDone := by
  induction l generalizing s with
  | nil => rfl
  | cons a l ih => simp [ih, h]

@[simp] theorem foldl_win_pollTimer {α : Type} (g : State → α → State)
    (h : ∀ s x, (g s x).win.pollTimer = s.win.pollTimer) (l : List α) (s : State) :
    (l.foldl g s).win.pollTimer = s.win.pollTimer := by
  induction l generalizing s with
  | nil => rfl
  | cons a l ih => simp [ih, h]

@[simp] theorem foldl_win_anchorRead {α : Type} (g : State → α → State)
    (h : ∀ s x, (g s x).win.anchorRead = s.win.anchorRead) (l : List α) (s : State) :
    (l.foldl g s).win.anchorRead = s.win.anchorRead := by
  induction l generalizing s with
  | nil => rfl
  | cons a l ih => simp [ih, h]

@[simp] theorem foldl_win_markRead {α : Type} (g : State → α → State)
    (h : ∀ s x, (g s x).win.markRead = s.win.markRead) (l : List α) (s : State) :
    (l.foldl g s).win.markRead = s.win.markRead := by
  induction l generalizing s with
  | nil => rfl
  | cons a l ih => simp [ih, h]

@[simp] theorem foldl_win_mirrorGen {α : Type} (g : State → α → State)
    (h : ∀ s x, (g s x).win.mirrorGen = s.win.mirrorGen) (l : List α) (s : State) :
    (l.foldl g s).win.mirrorGen = s.win.mirrorGen := by
  induction l generalizing s with
  | nil => rfl
  | cons a l ih => simp [ih, h]

@[simp] theorem placeWrite_win (w : WindowWrite) (s : State) :
    (placeWrite w s).win.flight = s.win.flight ∧
      (placeWrite w s).win.windowValid = s.win.windowValid ∧
      (placeWrite w s).win.cfg = s.win.cfg ∧
      (placeWrite w s).win.settingsQ = s.win.settingsQ ∧
      (placeWrite w s).win.runBit = s.win.runBit ∧
      (placeWrite w s).win.alertAEn = s.win.alertAEn ∧
      (placeWrite w s).win.alertBEn = s.win.alertBEn ∧
      (placeWrite w s).win.causes = s.win.causes ∧
      (placeWrite w s).win.windowBase = s.win.windowBase ∧
      (placeWrite w s).win.runState = s.win.runState ∧
      (placeWrite w s).win.starting = s.win.starting ∧
      (placeWrite w s).win.stopping = s.win.stopping ∧
      (placeWrite w s).win.stallCause = s.win.stallCause ∧
      (placeWrite w s).win.anchorCheck = s.win.anchorCheck ∧
      (placeWrite w s).win.session = s.win.session ∧
      (placeWrite w s).win.geometry = s.win.geometry ∧
      (placeWrite w s).win.takeMark = s.win.takeMark ∧
      (placeWrite w s).win.publishMark = s.win.publishMark ∧
      (placeWrite w s).win.heldOutcome = s.win.heldOutcome ∧
      (placeWrite w s).win.rewriting = s.win.rewriting ∧
      (placeWrite w s).win.startDone = s.win.startDone ∧
      (placeWrite w s).win.pollTimer = s.win.pollTimer ∧
      (placeWrite w s).win.anchorRead = s.win.anchorRead ∧
      (placeWrite w s).win.markRead = s.win.markRead ∧
      (placeWrite w s).win.mirrorGen = s.win.mirrorGen := by
  simp only [placeWrite]
  repeat' split
  all_goals simp

@[simp] theorem placeAnchor_win (a : AnchorWord) (s : State) :
    (placeAnchor a s).win.flight = s.win.flight ∧
      (placeAnchor a s).win.windowValid = s.win.windowValid ∧
      (placeAnchor a s).win.cfg = s.win.cfg ∧
      (placeAnchor a s).win.settingsQ = s.win.settingsQ ∧
      (placeAnchor a s).win.runBit = s.win.runBit ∧
      (placeAnchor a s).win.alertAEn = s.win.alertAEn ∧
      (placeAnchor a s).win.alertBEn = s.win.alertBEn ∧
      (placeAnchor a s).win.causes = s.win.causes ∧
      (placeAnchor a s).win.windowBase = s.win.windowBase ∧
      (placeAnchor a s).win.runState = s.win.runState ∧
      (placeAnchor a s).win.starting = s.win.starting ∧
      (placeAnchor a s).win.stopping = s.win.stopping ∧
      (placeAnchor a s).win.stallCause = s.win.stallCause ∧
      (placeAnchor a s).win.anchorCheck = s.win.anchorCheck ∧
      (placeAnchor a s).win.session = s.win.session ∧
      (placeAnchor a s).win.geometry = s.win.geometry ∧
      (placeAnchor a s).win.takeMark = s.win.takeMark ∧
      (placeAnchor a s).win.publishMark = s.win.publishMark ∧
      (placeAnchor a s).win.heldOutcome = s.win.heldOutcome ∧
      (placeAnchor a s).win.rewriting = s.win.rewriting ∧
      (placeAnchor a s).win.startDone = s.win.startDone ∧
      (placeAnchor a s).win.pollTimer = s.win.pollTimer ∧
      (placeAnchor a s).win.anchorRead = s.win.anchorRead ∧
      (placeAnchor a s).win.markRead = s.win.markRead ∧
      (placeAnchor a s).win.mirrorGen = s.win.mirrorGen := by
  simp only [placeAnchor]
  simp

@[simp] theorem handMirror_win (id : MirrorId) (s : State) :
    (handMirror id s).win.flight = s.win.flight ∧
      (handMirror id s).win.windowValid = s.win.windowValid ∧
      (handMirror id s).win.cfg = s.win.cfg ∧
      (handMirror id s).win.settingsQ = s.win.settingsQ ∧
      (handMirror id s).win.runBit = s.win.runBit ∧
      (handMirror id s).win.alertAEn = s.win.alertAEn ∧
      (handMirror id s).win.alertBEn = s.win.alertBEn ∧
      (handMirror id s).win.causes = s.win.causes ∧
      (handMirror id s).win.windowBase = s.win.windowBase ∧
      (handMirror id s).win.runState = s.win.runState ∧
      (handMirror id s).win.starting = s.win.starting ∧
      (handMirror id s).win.stopping = s.win.stopping ∧
      (handMirror id s).win.stallCause = s.win.stallCause ∧
      (handMirror id s).win.anchorCheck = s.win.anchorCheck ∧
      (handMirror id s).win.session = s.win.session ∧
      (handMirror id s).win.geometry = s.win.geometry ∧
      (handMirror id s).win.takeMark = s.win.takeMark ∧
      (handMirror id s).win.publishMark = s.win.publishMark ∧
      (handMirror id s).win.heldOutcome = s.win.heldOutcome ∧
      (handMirror id s).win.rewriting = s.win.rewriting ∧
      (handMirror id s).win.startDone = s.win.startDone ∧
      (handMirror id s).win.pollTimer = s.win.pollTimer ∧
      (handMirror id s).win.anchorRead = s.win.anchorRead ∧
      (handMirror id s).win.markRead = s.win.markRead ∧
      (handMirror id s).win.mirrorGen = s.win.mirrorGen := by
  simp only [handMirror]
  repeat' split
  all_goals simp

@[simp] theorem handAll_win (ids : List MirrorId) (s : State) :
    (handAll ids s).win.flight = s.win.flight ∧
      (handAll ids s).win.windowValid = s.win.windowValid ∧
      (handAll ids s).win.cfg = s.win.cfg ∧
      (handAll ids s).win.settingsQ = s.win.settingsQ ∧
      (handAll ids s).win.runBit = s.win.runBit ∧
      (handAll ids s).win.alertAEn = s.win.alertAEn ∧
      (handAll ids s).win.alertBEn = s.win.alertBEn ∧
      (handAll ids s).win.causes = s.win.causes ∧
      (handAll ids s).win.windowBase = s.win.windowBase ∧
      (handAll ids s).win.runState = s.win.runState ∧
      (handAll ids s).win.starting = s.win.starting ∧
      (handAll ids s).win.stopping = s.win.stopping ∧
      (handAll ids s).win.stallCause = s.win.stallCause ∧
      (handAll ids s).win.anchorCheck = s.win.anchorCheck ∧
      (handAll ids s).win.session = s.win.session ∧
      (handAll ids s).win.geometry = s.win.geometry ∧
      (handAll ids s).win.takeMark = s.win.takeMark ∧
      (handAll ids s).win.publishMark = s.win.publishMark ∧
      (handAll ids s).win.heldOutcome = s.win.heldOutcome ∧
      (handAll ids s).win.rewriting = s.win.rewriting ∧
      (handAll ids s).win.startDone = s.win.startDone ∧
      (handAll ids s).win.pollTimer = s.win.pollTimer ∧
      (handAll ids s).win.anchorRead = s.win.anchorRead ∧
      (handAll ids s).win.markRead = s.win.markRead ∧
      (handAll ids s).win.mirrorGen = s.win.mirrorGen := by
  simp only [handAll]
  simp

@[simp] theorem settleDisplay_win (before : State) (d : DisplayIx) (after : State) :
    (settleDisplay before d after).win.flight = after.win.flight ∧
      (settleDisplay before d after).win.windowValid = after.win.windowValid ∧
      (settleDisplay before d after).win.cfg = after.win.cfg ∧
      (settleDisplay before d after).win.settingsQ = after.win.settingsQ := by
  simp only [settleDisplay]
  repeat' split
  all_goals simp

@[simp] theorem settleDisplays_win (before after : State) :
    (settleDisplays before after).win.flight = after.win.flight ∧
      (settleDisplays before after).win.windowValid = after.win.windowValid ∧
      (settleDisplays before after).win.cfg = after.win.cfg ∧
      (settleDisplays before after).win.settingsQ = after.win.settingsQ := by
  simp only [settleDisplays]
  simp

@[simp] theorem commitShowAs_win (fields : ShowRec → ShowRec → List ReportField)
    (i : ShowIx) (before : ShowRec) (s : State) :
    (commitShowAs fields i before s).win.flight = s.win.flight ∧
      (commitShowAs fields i before s).win.windowValid = s.win.windowValid ∧
      (commitShowAs fields i before s).win.cfg = s.win.cfg ∧
      (commitShowAs fields i before s).win.settingsQ = s.win.settingsQ := by
  simp only [commitShowAs]
  repeat' split
  all_goals simp

@[simp] theorem commitShow_win (i : ShowIx) (before : ShowRec) (s : State) :
    (commitShow i before s).win.flight = s.win.flight ∧
      (commitShow i before s).win.windowValid = s.win.windowValid ∧
      (commitShow i before s).win.cfg = s.win.cfg ∧
      (commitShow i before s).win.settingsQ = s.win.settingsQ := by
  simp only [commitShow]
  simp

@[simp] theorem commitShows_win (fields : ShowRec → ShowRec → List ReportField)
    (before : Vector ShowRec 64) (s : State) :
    (commitShows fields before s).win.flight = s.win.flight ∧
      (commitShows fields before s).win.windowValid = s.win.windowValid ∧
      (commitShows fields before s).win.cfg = s.win.cfg ∧
      (commitShows fields before s).win.settingsQ = s.win.settingsQ := by
  simp only [commitShows]
  simp

@[simp] theorem endHold_win (r : HoldEnd) (i : HoldIx) (s : State) :
    (endHold r i s).win.flight = s.win.flight ∧
      (endHold r i s).win.windowValid = s.win.windowValid ∧
      (endHold r i s).win.cfg = s.win.cfg ∧
      (endHold r i s).win.settingsQ = s.win.settingsQ := by
  simp only [endHold]
  repeat' split
  all_goals simp

@[simp] theorem closeShow_win (i : ShowIx) (prev : Band) (reason : NoticeEnd) (s : State) :
    (closeShow i prev reason s).win.flight = s.win.flight ∧
      (closeShow i prev reason s).win.windowValid = s.win.windowValid ∧
      (closeShow i prev reason s).win.cfg = s.win.cfg ∧
      (closeShow i prev reason s).win.settingsQ = s.win.settingsQ := by
  simp only [closeShow]
  repeat' split
  all_goals simp

@[simp] theorem perform_win (e : DueEntry) (time : Nat) (s : State) :
    (perform e time s).1.win.flight = s.win.flight ∧
      (perform e time s).1.win.windowValid = s.win.windowValid ∧
      (perform e time s).1.win.cfg = s.win.cfg ∧
      (perform e time s).1.win.settingsQ = s.win.settingsQ := by
  simp only [perform]
  repeat' split
  all_goals simp

@[simp] theorem catchUpLoop_win (fuel time : Nat) (q : List DueEntry) (n : Nat) (s : State) :
    (catchUpLoop fuel time q n s).1.win.flight = s.win.flight ∧
      (catchUpLoop fuel time q n s).1.win.windowValid = s.win.windowValid ∧
      (catchUpLoop fuel time q n s).1.win.cfg = s.win.cfg ∧
      (catchUpLoop fuel time q n s).1.win.settingsQ = s.win.settingsQ := by
  induction fuel generalizing q n s with
  | zero => simp [catchUpLoop]
  | succ k ih =>
    simp only [catchUpLoop]
    repeat' split
    all_goals simp [ih]

@[simp] theorem catchUp_win (time : Nat) (entries : List DueEntry) (s : State) :
    (catchUp time entries s).1.win.flight = s.win.flight ∧
      (catchUp time entries s).1.win.windowValid = s.win.windowValid ∧
      (catchUp time entries s).1.win.cfg = s.win.cfg ∧
      (catchUp time entries s).1.win.settingsQ = s.win.settingsQ := by
  simp only [catchUp]
  simp

@[simp] theorem placeShow_win (now : Nat) (i : ShowIx) (s : State) :
    (placeShow now i s).win.flight = s.win.flight ∧
      (placeShow now i s).win.windowValid = s.win.windowValid ∧
      (placeShow now i s).win.cfg = s.win.cfg ∧
      (placeShow now i s).win.settingsQ = s.win.settingsQ := by
  simp only [placeShow]
  repeat' split
  all_goals simp

@[simp] theorem placeAll_win (now : Nat) (s : State) :
    (placeAll now s).1.win.flight = s.win.flight ∧
      (placeAll now s).1.win.windowValid = s.win.windowValid ∧
      (placeAll now s).1.win.cfg = s.win.cfg ∧
      (placeAll now s).1.win.settingsQ = s.win.settingsQ := by
  simp only [placeAll]
  simp

@[simp] theorem amendTimes_win (i : ShowIx) (prev : Band) (now : Nat) (s : State) :
    (amendTimes i prev now s).win.flight = s.win.flight ∧
      (amendTimes i prev now s).win.windowValid = s.win.windowValid ∧
      (amendTimes i prev now s).win.cfg = s.win.cfg ∧
      (amendTimes i prev now s).win.settingsQ = s.win.settingsQ := by
  simp only [amendTimes]
  repeat' split
  all_goals simp

@[simp] theorem placeHold_win (d : DeskIx) (seq : Byte) (i : ShowIx) (seats : Nat) (k : HoldIx) (s : State) :
    (placeHold d seq i seats k s).win.flight = s.win.flight ∧
      (placeHold d seq i seats k s).win.windowValid = s.win.windowValid ∧
      (placeHold d seq i seats k s).win.cfg = s.win.cfg ∧
      (placeHold d seq i seats k s).win.settingsQ = s.win.settingsQ := by
  simp only [placeHold]
  simp

@[simp] theorem takeHold_win (e : IntakeEntry) (s : State) :
    (takeHold e s).win.flight = s.win.flight ∧
      (takeHold e s).win.windowValid = s.win.windowValid ∧
      (takeHold e s).win.cfg = s.win.cfg ∧
      (takeHold e s).win.settingsQ = s.win.settingsQ := by
  simp only [takeHold]
  repeat' split
  all_goals simp

@[simp] theorem extendHold_win (e : IntakeEntry) (ref : Nat) (k : HoldIx) (h : HoldRec) (s : State) :
    (extendHold e ref k h s).win.flight = s.win.flight ∧
      (extendHold e ref k h s).win.windowValid = s.win.windowValid ∧
      (extendHold e ref k h s).win.cfg = s.win.cfg ∧
      (extendHold e ref k h s).win.settingsQ = s.win.settingsQ := by
  simp only [extendHold]
  simp

@[simp] theorem takeExtend_win (e : IntakeEntry) (s : State) :
    (takeExtend e s).win.flight = s.win.flight ∧
      (takeExtend e s).win.windowValid = s.win.windowValid ∧
      (takeExtend e s).win.cfg = s.win.cfg ∧
      (takeExtend e s).win.settingsQ = s.win.settingsQ := by
  simp only [takeExtend]
  repeat' split
  all_goals simp

@[simp] theorem freeAndCommit_win (k : HoldIx) (h : HoldRec) (s : State) :
    (freeAndCommit k h s).win.flight = s.win.flight ∧
      (freeAndCommit k h s).win.windowValid = s.win.windowValid ∧
      (freeAndCommit k h s).win.cfg = s.win.cfg ∧
      (freeAndCommit k h s).win.settingsQ = s.win.settingsQ := by
  simp only [freeAndCommit]
  simp

@[simp] theorem takeRelease_win (e : IntakeEntry) (s : State) :
    (takeRelease e s).win.flight = s.win.flight ∧
      (takeRelease e s).win.windowValid = s.win.windowValid ∧
      (takeRelease e s).win.cfg = s.win.cfg ∧
      (takeRelease e s).win.settingsQ = s.win.settingsQ := by
  simp only [takeRelease]
  repeat' split
  all_goals simp

@[simp] theorem settleNotice_win (before : State) (extra : Option NoticeIx) (i : NoticeIx) (s : State) :
    (settleNotice before extra i s).win.flight = s.win.flight ∧
      (settleNotice before extra i s).win.windowValid = s.win.windowValid ∧
      (settleNotice before extra i s).win.cfg = s.win.cfg ∧
      (settleNotice before extra i s).win.settingsQ = s.win.settingsQ := by
  simp only [settleNotice]
  repeat' split
  all_goals simp

@[simp] theorem settleNotices_win (before : State) (extra : Option NoticeIx) (s : State) :
    (settleNotices before extra s).win.flight = s.win.flight ∧
      (settleNotices before extra s).win.windowValid = s.win.windowValid ∧
      (settleNotices before extra s).win.cfg = s.win.cfg ∧
      (settleNotices before extra s).win.settingsQ = s.win.settingsQ := by
  simp only [settleNotices]
  simp

@[simp] theorem noticeEvent_win_flight (e : Option NoticeIx) (act : State → State) (s : State)
    (h : (act s).win.flight = s.win.flight) : (noticeEvent e act s).win.flight = s.win.flight := by
  simp [noticeEvent, h]

@[simp] theorem noticeEvent_win_windowValid (e : Option NoticeIx) (act : State → State) (s : State)
    (h : (act s).win.windowValid = s.win.windowValid) : (noticeEvent e act s).win.windowValid = s.win.windowValid := by
  simp [noticeEvent, h]

@[simp] theorem noticeEvent_win_cfg (e : Option NoticeIx) (act : State → State) (s : State)
    (h : (act s).win.cfg = s.win.cfg) : (noticeEvent e act s).win.cfg = s.win.cfg := by
  simp [noticeEvent, h]

@[simp] theorem noticeEvent_win_settingsQ (e : Option NoticeIx) (act : State → State) (s : State)
    (h : (act s).win.settingsQ = s.win.settingsQ) : (noticeEvent e act s).win.settingsQ = s.win.settingsQ := by
  simp [noticeEvent, h]

@[simp] theorem applyPost_win (p : Post) (s : State) :
    (applyPost p s).win.flight = s.win.flight ∧
      (applyPost p s).win.windowValid = s.win.windowValid ∧
      (applyPost p s).win.cfg = s.win.cfg ∧
      (applyPost p s).win.settingsQ = s.win.settingsQ := by
  simp only [applyPost]
  repeat' split
  all_goals simp

@[simp] theorem takeDeskPost_win (e : IntakeEntry) (s : State) :
    (takeDeskPost e s).win.flight = s.win.flight ∧
      (takeDeskPost e s).win.windowValid = s.win.windowValid ∧
      (takeDeskPost e s).win.cfg = s.win.cfg ∧
      (takeDeskPost e s).win.settingsQ = s.win.settingsQ := by
  simp only [takeDeskPost]
  repeat' split
  all_goals simp

@[simp] theorem takeDeskClear_win (e : IntakeEntry) (s : State) :
    (takeDeskClear e s).win.flight = s.win.flight ∧
      (takeDeskClear e s).win.windowValid = s.win.windowValid ∧
      (takeDeskClear e s).win.cfg = s.win.cfg ∧
      (takeDeskClear e s).win.settingsQ = s.win.settingsQ := by
  simp only [takeDeskClear]
  repeat' split
  all_goals simp

@[simp] theorem settleFeature_win (before : State) (f : FeatureIx) (s : State) :
    (settleFeature before f s).win.flight = s.win.flight ∧
      (settleFeature before f s).win.windowValid = s.win.windowValid ∧
      (settleFeature before f s).win.cfg = s.win.cfg ∧
      (settleFeature before f s).win.settingsQ = s.win.settingsQ := by
  simp only [settleFeature]
  repeat' split
  all_goals simp

@[simp] theorem settleFeatures_win (before s : State) :
    (settleFeatures before s).win.flight = s.win.flight ∧
      (settleFeatures before s).win.windowValid = s.win.windowValid ∧
      (settleFeatures before s).win.cfg = s.win.cfg ∧
      (settleFeatures before s).win.settingsQ = s.win.settingsQ := by
  simp only [settleFeatures]
  simp

@[simp] theorem headerDone_win (f : FeatureIx) (bytes : List Byte) (s : State) :
    (headerDone f bytes s).win.flight = s.win.flight ∧
      (headerDone f bytes s).win.windowValid = s.win.windowValid ∧
      (headerDone f bytes s).win.cfg = s.win.cfg ∧
      (headerDone f bytes s).win.settingsQ = s.win.settingsQ := by
  simp only [headerDone]
  repeat' split
  all_goals simp

@[simp] theorem pieceDone_win (f : FeatureIx) (first : Nat) (bytes : List Byte) (s : State) :
    (pieceDone f first bytes s).win.flight = s.win.flight ∧
      (pieceDone f first bytes s).win.windowValid = s.win.windowValid ∧
      (pieceDone f first bytes s).win.cfg = s.win.cfg ∧
      (pieceDone f first bytes s).win.settingsQ = s.win.settingsQ := by
  simp only [pieceDone]
  repeat' split
  all_goals simp

@[simp] theorem validationFailed_win (f : FeatureIx) (s : State) :
    (validationFailed f s).win.flight = s.win.flight ∧
      (validationFailed f s).win.windowValid = s.win.windowValid ∧
      (validationFailed f s).win.cfg = s.win.cfg ∧
      (validationFailed f s).win.settingsQ = s.win.settingsQ := by
  simp only [validationFailed]
  repeat' split
  all_goals simp

@[simp] theorem takeDecision_win (r : DecisionRequest) (s : State) :
    (takeDecision r s).win.flight = s.win.flight ∧
      (takeDecision r s).win.windowValid = s.win.windowValid ∧
      (takeDecision r s).win.cfg = s.win.cfg ∧
      (takeDecision r s).win.settingsQ = s.win.settingsQ := by
  simp only [takeDecision]
  repeat' split
  all_goals simp

@[simp] theorem takeReleaseReport_win (x : Release) (s : State) :
    (takeReleaseReport x s).win.flight = s.win.flight ∧
      (takeReleaseReport x s).win.windowValid = s.win.windowValid ∧
      (takeReleaseReport x s).win.cfg = s.win.cfg ∧
      (takeReleaseReport x s).win.settingsQ = s.win.settingsQ := by
  simp only [takeReleaseReport]
  repeat' split
  all_goals simp

@[simp] theorem takeReply_win (r : DecisionReply) (s : State) :
    (takeReply r s).win.flight = s.win.flight ∧
      (takeReply r s).win.windowValid = s.win.windowValid ∧
      (takeReply r s).win.cfg = s.win.cfg ∧
      (takeReply r s).win.settingsQ = s.win.settingsQ := by
  simp only [takeReply]
  repeat' split
  all_goals simp

@[simp] theorem updateRow_win (x : ShowReport) (d : DisplayIx) (s : State) :
    (updateRow x d s).win.flight = s.win.flight ∧
      (updateRow x d s).win.windowValid = s.win.windowValid ∧
      (updateRow x d s).win.cfg = s.win.cfg ∧
      (updateRow x d s).win.settingsQ = s.win.settingsQ := by
  simp only [updateRow]
  repeat' split
  all_goals simp

@[simp] theorem rebandShow_win (old : ShowSettings) (i : ShowIx) (s : State) :
    (rebandShow old i s).win.flight = s.win.flight ∧
      (rebandShow old i s).win.windowValid = s.win.windowValid ∧
      (rebandShow old i s).win.cfg = s.win.cfg ∧
      (rebandShow old i s).win.settingsQ = s.win.settingsQ := by
  simp only [rebandShow]
  repeat' split
  all_goals simp

@[simp] theorem adoptShows_win (c : ShowSettings) (s : State) :
    (adoptShows c s).win.flight = s.win.flight ∧
      (adoptShows c s).win.windowValid = s.win.windowValid ∧
      (adoptShows c s).win.cfg = s.win.cfg ∧
      (adoptShows c s).win.settingsQ = s.win.settingsQ := by
  simp only [adoptShows]
  simp

@[simp] theorem adopt_win (o : Owner) (c : Settings) (s : State) :
    (adopt o c s).win.flight = s.win.flight ∧
      (adopt o c s).win.windowValid = s.win.windowValid ∧
      (adopt o c s).win.cfg = s.win.cfg ∧
      (adopt o c s).win.settingsQ = s.win.settingsQ := by
  simp only [adopt]
  repeat' split
  all_goals simp

/-! ## A change of run state (R161) -/

@[simp] theorem setRunState_runState (r : RunState) (c : StallCause) (s : State) :
    (setRunState r c s).win.runState = r := by
  unfold setRunState; split <;> simp_all
@[simp] theorem setRunState_stallCause (r : RunState) (c : StallCause) (s : State) :
    (setRunState r c s).win.stallCause = c := by
  unfold setRunState; split <;> simp_all
theorem setRunState_stopping (r : RunState) (c : StallCause) (s : State) :
    (setRunState r c s).win.stopping = if s.win.runState = r then s.win.stopping else false := by
  unfold setRunState; split <;> simp_all
theorem setRunState_pollTimer (r : RunState) (c : StallCause) (s : State) :
    (setRunState r c s).win.pollTimer =
      if s.win.runState = r then s.win.pollTimer
      else if r = .running then some s.win.cfg.window.pollInterval else none := by
  unfold setRunState; split <;> simp_all
@[simp] theorem setRunState_win (r : RunState) (c : StallCause) (s : State) :
    (setRunState r c s).win.flight = s.win.flight ∧
      (setRunState r c s).win.windowValid = s.win.windowValid ∧
      (setRunState r c s).win.cfg = s.win.cfg ∧
      (setRunState r c s).win.settingsQ = s.win.settingsQ ∧
      (setRunState r c s).win.runBit = s.win.runBit ∧
      (setRunState r c s).win.alertAEn = s.win.alertAEn ∧
      (setRunState r c s).win.alertBEn = s.win.alertBEn ∧
      (setRunState r c s).win.causes = s.win.causes ∧
      (setRunState r c s).win.windowBase = s.win.windowBase ∧
      (setRunState r c s).win.starting = s.win.starting ∧
      (setRunState r c s).win.anchorCheck = s.win.anchorCheck ∧
      (setRunState r c s).win.session = s.win.session ∧
      (setRunState r c s).win.geometry = s.win.geometry ∧
      (setRunState r c s).win.takeMark = s.win.takeMark ∧
      (setRunState r c s).win.publishMark = s.win.publishMark ∧
      (setRunState r c s).win.heldOutcome = s.win.heldOutcome ∧
      (setRunState r c s).win.rewriting = s.win.rewriting ∧
      (setRunState r c s).win.startDone = s.win.startDone ∧
      (setRunState r c s).win.anchorRead = s.win.anchorRead ∧
      (setRunState r c s).win.markRead = s.win.markRead ∧
      (setRunState r c s).win.mirrorGen = s.win.mirrorGen := by
  unfold setRunState; split <;> simp

end Sys2Proof.Machine
end

