-- ==== Sys2Proof/Laws/Ops.lean ====
section
/-! SUPPORT. One lemma for each shared operation that says what it does, so that proofs cite it and do
not unfold it: refusing terms, the write path, the read engine, entries and requests taken, outcomes,
messages to desks and panels. -/

namespace Sys2Proof.Machine

/-! ## Commands -/

theorem answer_next (c : Instr) (t : State) (h : c.wellFormed = true) : answer c t = .next t := by
  simp [answer, h]

theorem answer_eq_next {c : Instr} {t t' : State} (h : answer c t = .next t') : t' = t := by
  unfold answer at h; split at h <;> simp_all

/-- A meaning that always answers with a next state answers with this one. -/
theorem next_eq {t t' : State} (h : (Host.Outcome.next t : Host.Outcome State Fault Refusal) = .next t') :
    t' = t := by simp_all

/-! ## The write path -/

/-- A write placed replaces the first queued one of its target, or goes to the tail (R166). -/
theorem placeIn_placed (w : WindowWrite) (q : List WindowWrite) : PlacedIn w q (placeIn w q) := by
  constructor
  · intro before x after hq hx hb
    subst hq
    induction before with
    | nil => simp [placeIn, hx]
    | cons y l ih =>
      have hy : y.target ≠ w.target := hb y (List.mem_cons_self ..)
      simp [placeIn, hy, ih fun z hz => hb z (List.mem_cons_of_mem _ hz)]
  · intro h
    induction q with
    | nil => rfl
    | cons y l ih =>
      have hy : y.target ≠ w.target := h y (List.mem_cons_self ..)
      simp [placeIn, hy, ih fun z hz => h z (List.mem_cons_of_mem _ hz)]

/-- A write placed stands in the queue. -/
theorem mem_placeIn_self (w : WindowWrite) (q : List WindowWrite) : w ∈ placeIn w q := by
  induction q with
  | nil => simp [placeIn]
  | cons y l ih =>
    unfold placeIn
    split
    · exact List.mem_cons_self ..
    · exact List.mem_cons_of_mem _ ih

/-- A write of another target stays where it is. -/
theorem mem_placeIn_other {w x : WindowWrite} {q : List WindowWrite} (h : x.target ≠ w.target) :
    x ∈ placeIn w q ↔ x ∈ q := by
  induction q with
  | nil => simp only [placeIn, List.mem_singleton, List.not_mem_nil, iff_false]; rintro rfl; exact h rfl
  | cons y l ih =>
    unfold placeIn
    split
    · rename_i hy
      simp only [List.mem_cons]
      constructor
      · rintro (rfl | hx)
        · exact absurd rfl h
        · exact .inr hx
      · rintro (rfl | hx)
        · exact absurd hy h
        · exact .inr hx
    · simp only [List.mem_cons, ih]

/-- A write placed in the queue: the targets stay without repeats. -/
theorem placeIn_targets (w : WindowWrite) (q : List WindowWrite) :
    (placeIn w q).map (·.target) =
      if w.target ∈ q.map (·.target) then q.map (·.target) else q.map (·.target) ++ [w.target] := by
  induction q with
  | nil => simp [placeIn]
  | cons x rest ih =>
    by_cases h : x.target = w.target
    · simp [placeIn, h]
    · simp only [placeIn, h, if_false, List.map_cons, ih, List.mem_cons]
      have : ¬ w.target = x.target := fun e => h e.symm
      by_cases hm : w.target ∈ List.map (·.target) rest <;> simp [hm, this]

theorem placeIn_nodup (w : WindowWrite) (q : List WindowWrite) (h : (q.map (·.target)).Nodup) :
    ((placeIn w q).map (·.target)).Nodup := by
  rw [placeIn_targets]
  split
  · exact h
  · rename_i hm
    rw [List.nodup_append]
    refine ⟨h, by simp, ?_⟩
    rintro a ha b hb rfl
    simp only [List.mem_singleton] at hb
    exact hm (hb ▸ ha)

/-- A placed write changes nothing but the write queue. -/
theorem placeWrite_only (w : WindowWrite) (s : State) :
    placeWrite w s =
      { s with win := { s.win with
          writeQ := if s.win.windowValid then placeIn w s.win.writeQ else s.win.writeQ } } := by
  unfold placeWrite
  by_cases h : s.win.windowValid = true
  · rw [if_pos h, if_pos h]
  · rw [if_neg h, if_neg h]

/-- A record handed to the mirror writer changes nothing but the write queue and the versions. -/
theorem handMirror_only (id : MirrorId) (s : State) :
    ∃ q v, handMirror id s = { s with win := { s.win with writeQ := q, versions := v } } := by
  unfold handMirror; split
  · exact ⟨_, _, rfl⟩
  · exact ⟨_, _, rfl⟩

theorem handAll_only (ids : List MirrorId) (s : State) :
    ∃ q v, handAll ids s = { s with win := { s.win with writeQ := q, versions := v } } := by
  induction ids generalizing s with
  | nil => exact ⟨_, _, rfl⟩
  | cons id rest ih =>
    obtain ⟨q, v, h⟩ := handMirror_only id s
    obtain ⟨q', v', h'⟩ := ih (handMirror id s)
    refine ⟨q', v', ?_⟩
    have : handAll (id :: rest) s = handAll rest (handMirror id s) := rfl
    rw [this, h', h]

/-- A change of run state: the new state and cause, the poll timer, and nothing else but the write queue
and `stopping` (R161). -/
theorem setRunState_only (r : RunState) (c : StallCause) (s : State) :
    ∃ q, setRunState r c s = { s with win := { s.win with
      runState := r
      stallCause := c
      stopping := if s.win.runState = r then s.win.stopping else false
      pollTimer := if s.win.runState = r then s.win.pollTimer
        else if r = .running then some s.win.cfg.window.pollInterval else none
      writeQ := q } } := by
  unfold setRunState
  by_cases h : s.win.runState = r
  · subst h; exact ⟨s.win.writeQ, by simp⟩
  · simp only [if_neg h, placeAnchor, placeWrite_only]; exact ⟨_, rfl⟩

/-- A discarded outcome leaves everything of the Window Interface but itself, its entry and its write. -/
@[simp] theorem discardHeld_win (s : State) :
    (discardHeld s).win.runBit = s.win.runBit ∧
      (discardHeld s).win.alertAEn = s.win.alertAEn ∧
      (discardHeld s).win.alertBEn = s.win.alertBEn ∧
      (discardHeld s).win.causes = s.win.causes ∧
      (discardHeld s).win.windowBase = s.win.windowBase ∧
      (discardHeld s).win.runState = s.win.runState ∧
      (discardHeld s).win.starting = s.win.starting ∧
      (discardHeld s).win.stopping = s.win.stopping ∧
      (discardHeld s).win.stallCause = s.win.stallCause ∧
      (discardHeld s).win.anchorCheck = s.win.anchorCheck ∧
      (discardHeld s).win.windowValid = s.win.windowValid ∧
      (discardHeld s).win.session = s.win.session ∧
      (discardHeld s).win.geometry = s.win.geometry ∧
      (discardHeld s).win.takeMark = s.win.takeMark ∧
      (discardHeld s).win.publishMark = s.win.publishMark ∧
      (discardHeld s).win.startDone = s.win.startDone ∧
      (discardHeld s).win.pollTimer = s.win.pollTimer ∧
      (discardHeld s).win.anchorRead = s.win.anchorRead ∧
      (discardHeld s).win.markRead = s.win.markRead ∧
      (discardHeld s).win.versions = s.win.versions ∧
      (discardHeld s).win.mirrorGen = s.win.mirrorGen ∧
      (discardHeld s).win.cfg = s.win.cfg ∧
      (discardHeld s).win.settingsQ = s.win.settingsQ := by
  unfold discardHeld
  split <;> simp

/-- The entry of a held outcome goes with it; any other entry in flight stays (R162). -/
theorem discardHeld_flight (s : State) :
    (discardHeld s).win.heldOutcome = none ∧
      (discardHeld s).win.flight = if s.win.heldOutcome.isSome then none else s.win.flight := by
  unfold discardHeld
  split <;> simp_all

/-- The next entry is read, or nothing changes (R164). -/
theorem readNext_cases (s : State) :
    (s.win.runState = .running ∧ s.win.stopping = false ∧ s.win.flight = none ∧
        s.win.takeMark ≠ s.win.publishMark ∧
        let f : Flight := { slot := s.win.takeMark % s.win.geometry.capacity }
        readNext s = issueEntryRead f { s with win := { s.win with flight := some f } }) ∨
      (¬ (s.win.runState = .running ∧ s.win.stopping = false ∧ s.win.flight = none ∧
        s.win.takeMark ≠ s.win.publishMark) ∧ readNext s = s) := by
  unfold readNext
  split
  · rename_i h; exact .inl ⟨h.1, h.2.1, h.2.2.1, h.2.2.2, rfl⟩
  · rename_i h; exact .inr ⟨h, rfl⟩

/-! ## The read engine -/

theorem issueRead_free (r : Read) (s : State) (i : ReadSlot) (h : freeReadSlot s.reads = some i) :
    issueRead r s = { s with reads := { s.reads with slots := put s.reads.slots i (some r) } } := by
  simp [issueRead, h]

/-- A read request changes the read engine alone. -/
theorem issueRead_only (r : Read) (s : State) :
    issueRead r s = { s with reads := (issueRead r s).reads } := by
  cases h : freeReadSlot s.reads <;> simp [issueRead, h]

/-- A read request takes a free slot, or joins the wait queue where none is free (R146). -/
theorem issueRead_issued (r : Read) (s t : State) (h : t.reads = s.reads) :
    ReadIssued r s (issueRead r t) := by
  unfold issueRead
  rw [h]
  cases hf : freeReadSlot s.reads with
  | some i =>
    refine .inl ⟨i, ?_, rfl⟩
    simpa using List.find?_some hf
  | none =>
    refine .inr ⟨fun i => ?_, rfl⟩
    have := List.find?_eq_none.1 hf i (List.mem_finRange i)
    simpa using this

/-- A read requested stands in a read slot or in the wait queue, whatever is free (R146). -/
theorem issueRead_outstanding (r : Read) (s : State) : Outstanding r (issueRead r s) := by
  unfold issueRead Outstanding
  cases h : freeReadSlot s.reads with
  | none => right; simp
  | some i => left; exact ⟨i, by simp⟩

theorem freeRead_win (i : ReadSlot) (s : State) : (freeRead i s).win = s.win := rfl

/-! ## Entries and requests -/

theorem handedEntry_flight {k : EntryKind} {s : State} {f : Flight} (h : handedEntry k s = some f) :
    s.win.flight = some f := by
  unfold handedEntry at h
  cases hf : s.win.flight with
  | none => simp [hf] at h
  | some g => simp only [hf, Option.filter] at h; split at h <;> simp_all

theorem takeEntry_handed {k : EntryKind} {s : State} {f : Flight} (h : handedEntry k s = some f)
    (act : Flight → State → State) : takeEntry k act s = act f s := by
  simp [takeEntry, h]

theorem takeRequest_inHand {k : DeskKind} {s : State} {e : IntakeEntry}
    (h : requestInHand k s = some e) (act : IntakeEntry → State → State) :
    takeRequest k act s = act e { s with desks := { s.desks with inHand := none } } := by
  simp [takeRequest, h]

/-- An entry in flight that ends has its outcome, whatever its owner did before. -/
theorem finish_ends {f : Flight} {s : State} (code : OutcomeCode) (detail : Nat)
    (hf : s.win.flight = some f) (hv : s.win.windowValid = true) :
    EndsWith code detail f (finish code detail s) := by
  simp [EndsWith, finish, finishWith, hf, hv, placeWrite]

/-! ## Messages to desks -/

/-- Writing back what a row holds changes nothing. -/
theorem put_self {α : Type} {n : Nat} (v : Vector α n) (i : Fin n) : put v i v[i] = v := by
  apply Vector.ext
  intro j hj
  simp [put]

theorem sendDesk_room {d : DeskIx} {s : State} (h : HasRoom s d) (seq : Byte) (m : DeskMsg) :
    sendDesk d seq m s = withPort d (Port.enqueue ⟨seq, m⟩) s := by
  exact if_pos h

theorem sendDesk_told {d : DeskIx} {s : State} (h : HasRoom s d) (seq : Byte) (m : DeskMsg) :
    Told d seq m s (sendDesk d seq m s) := by
  simp [Told, sendDesk_room h]

/-- HasRoom speaks of the ports alone. -/
theorem hasRoom_congr {d : DeskIx} {s t : State} (h : t.desks.ports = s.desks.ports) :
    HasRoom t d ↔ HasRoom s d := by simp [HasRoom, h]

/-- A PAUSE placed changes its port as R70 says, and no other. -/
theorem placePause_ports (time : Nat) (d : DeskIx) (s : State) :
    (placePause time d s).desks.ports = put s.desks.ports d (pausePlaced time s.desks.ports[d]) := by
  simp only [placePause, pausePlaced]
  split
  · simp [-Fin.getElem_fin, put_self]
  · rename_i h
    cases hq : s.desks.ports[d].replyQ with
    | nil => simp [-Fin.getElem_fin, withPort]
    | cons f rest =>
      dsimp only
      split
      · simp [-Fin.getElem_fin, withPort]
      · split
        · rename_i h2; simp [-Fin.getElem_fin, withPort, replyCapacity] at h2 ⊢; simp [-Fin.getElem_fin, h2]
        · rename_i h2; simp [-Fin.getElem_fin, replyCapacity] at h2
          have : ¬ rest.length + 1 < 4 := by omega
          simp [-Fin.getElem_fin, loseFrame, raise, withPort, put_put_same, this, Port.kick, sat16, max16]
          split <;> simp_all

/-- A lost reply, a reply and a PAUSE leave everything of the desk line but the ports. -/
@[simp] theorem loseFrame_desks (d : DeskIx) (f : DeskFrame) (s : State) :
    (loseFrame d f s).desks.intake = s.desks.intake ∧
      (loseFrame d f s).desks.inHand = s.desks.inHand ∧
      (loseFrame d f s).desks.paused = s.desks.paused ∧
      (loseFrame d f s).desks.pauseTimer = s.desks.pauseTimer ∧
      (loseFrame d f s).desks.cfg = s.desks.cfg := ⟨rfl, rfl, rfl, rfl, rfl⟩

@[simp] theorem sendDesk_desks (d : DeskIx) (seq : Byte) (m : DeskMsg) (s : State) :
    (sendDesk d seq m s).desks.intake = s.desks.intake ∧
      (sendDesk d seq m s).desks.inHand = s.desks.inHand ∧
      (sendDesk d seq m s).desks.paused = s.desks.paused ∧
      (sendDesk d seq m s).desks.pauseTimer = s.desks.pauseTimer ∧
      (sendDesk d seq m s).desks.cfg = s.desks.cfg := by
  simp only [sendDesk]
  split <;> simp [withPort]

@[simp] theorem placePause_desks (time : Nat) (d : DeskIx) (s : State) :
    (placePause time d s).desks.intake = s.desks.intake ∧
      (placePause time d s).desks.inHand = s.desks.inHand ∧
      (placePause time d s).desks.paused = s.desks.paused ∧
      (placePause time d s).desks.pauseTimer = s.desks.pauseTimer ∧
      (placePause time d s).desks.cfg = s.desks.cfg := by
  simp only [placePause]
  repeat' split
  all_goals simp [withPort]

@[simp] theorem pauseAll_desks (time : Nat) (s : State) :
    (pauseAll time s).desks.intake = s.desks.intake ∧
      (pauseAll time s).desks.inHand = s.desks.inHand ∧
      (pauseAll time s).desks.paused = s.desks.paused ∧
      (pauseAll time s).desks.pauseTimer = s.desks.pauseTimer ∧
      (pauseAll time s).desks.cfg = s.desks.cfg := by
  unfold pauseAll
  generalize List.finRange 8 = l
  induction l generalizing s with
  | nil => simp
  | cons d l ih => simpa using ih (placePause time d s)

/-- What is done to each port in turn, changing that port alone, is done to every port named. -/
theorem foldl_ports (f : DeskIx → State → State) (g : Port → Port)
    (hf : ∀ d s, (f d s).desks.ports = put s.desks.ports d (g s.desks.ports[d])) :
    ∀ (l : List DeskIx) (s : State), l.Nodup → ∀ j : DeskIx,
      (l.foldl (fun s d => f d s) s).desks.ports[j] =
        if j ∈ l then g s.desks.ports[j] else s.desks.ports[j] := by
  intro l
  induction l with
  | nil => simp
  | cons d rest ih =>
    intro s hn j
    rw [List.foldl_cons, ih _ (List.nodup_cons.mp hn).2 j, hf]
    have hd := (List.nodup_cons.mp hn).1
    by_cases hj : j = d
    · subst hj; simp [-Fin.getElem_fin, hd, put_same]
    · simp [-Fin.getElem_fin, hj, put_other]

/-- A PAUSE placed on all ports is placed on each (R66, R67). -/
theorem pauseAll_ports (time : Nat) (s : State) (d : DeskIx) :
    (pauseAll time s).desks.ports[d] = pausePlaced time s.desks.ports[d] := by
  unfold pauseAll
  rw [foldl_ports (placePause time) (pausePlaced time) (placePause_ports time) _ _
    (List.nodup_finRange 8)]
  simp

/-! ## Frames to panels -/

theorem sendPanel_up {d : DisplayIx} {s : State} (h : s.displays.recs[d].linkUp = true)
    (f : PanelFrame) : sendPanel d f s = withLink d (PanelLink.enqueue f) s := by
  exact if_pos h

/-- A frame handed to a display's panel is queued at its link where that is up, and changes no other link
(R157). -/
theorem sendPanel_links (d : DisplayIx) (f : PanelFrame) (s : State) :
    (sendPanel d f s).stream.links =
      put s.stream.links d
        (if s.displays.recs[d].linkUp = true then s.stream.links[d].enqueue f
         else s.stream.links[d]) := by
  unfold sendPanel
  split <;> simp [-Fin.getElem_fin, put_self]

end Sys2Proof.Machine
end

