-- ==== Sys2Proof/Laws/Desk.lean ====
section
/-! SUPPORT. What the operations of the desk line's ports can do. -/

namespace Sys2Proof.Machine

/-- The PAUSE leaves the state of a port. -/
@[simp] theorem pausePlaced_state (time : Nat) (p : Port) : (pausePlaced time p).state = p.state := by
  simp only [pausePlaced, Port.kick]
  repeat' split
  all_goals simp_all

/-- Lost replies of a port are counted there and change nothing else of the desk line (R69). -/
theorem loseFrames_port (d : DeskIx) (l : List DeskFrame) : ∀ s : State,
    ∃ n, (l.foldl (fun s f => loseFrame d f s) s).desks =
        { s.desks with
          ports := put s.desks.ports d
            { s.desks.ports[d] with counters := { s.desks.ports[d].counters with lost := n } } } ∧
      (s.desks.ports[d].counters.lost ≤ 65535 →
        n = min (s.desks.ports[d].counters.lost + l.length) 65535) := by
  induction l with
  | nil =>
    exact fun s => ⟨s.desks.ports[d].counters.lost, by rw [put_self]; rfl, fun h => by simpa using h⟩
  | cons f l ih =>
    intro s
    obtain ⟨n, h, hn⟩ := ih (loseFrame d f s)
    refine ⟨n, ?_, fun hl => ?_⟩
    · rw [List.foldl_cons, h]
      simp [-Fin.getElem_fin, loseFrame, raise, withPort, put_put_same]
    · rw [hn (by simp [-Fin.getElem_fin, loseFrame, raise, withPort, sat16, max16])]
      simp [-Fin.getElem_fin, loseFrame, raise, withPort, sat16, max16]
      omega

/-- A port enabled (R72). -/
theorem enablePort_port (d : DeskIx) (s : State) :
    (enablePort d s).desks.ports[d] =
      if s.desks.ports[d].state = .enabled then s.desks.ports[d]
      else
        let p : Port := { s.desks.ports[d] with state := .enabled }.kick
        if s.desks.paused then pausePlaced s.desks.cfg.pauseTime p else p := by
  by_cases he : s.desks.ports[d].state = .enabled
  · have : enablePort d s = s := if_pos he
    simp only [this, he, if_true]
  · have : enablePort d s =
        let u := withPort d (fun p => { p with state := .enabled }.kick) s
        if u.desks.paused then placePause u.desks.cfg.pauseTime d u else u := if_neg he
    simp only [this, he, if_false]
    by_cases hp : s.desks.paused = true
    · simp only [withPort, hp, if_true, placePause_ports, put_same]
    · simp [-Fin.getElem_fin, withPort, hp]

/-- A port disabled: its replies are lost, and it drains the frame it is taking (R73). -/
theorem disablePort_desks (d : DeskIx) (s : State) (h : s.desks.ports[d].state = .enabled) :
    ∃ n, (disablePort d s).desks =
        { s.desks with
          ports := put s.desks.ports d
            { s.desks.ports[d] with
              replyQ := []
              state := if s.desks.ports[d].phase = .inFrame then .draining else .disabled
              counters := { s.desks.ports[d].counters with lost := n } } } ∧
      (s.desks.ports[d].counters.lost ≤ 65535 →
        n = min (s.desks.ports[d].counters.lost +
          (s.desks.ports[d].replyQ.filter (!·.isPause)).length) 65535) := by
  obtain ⟨n, hd, hn⟩ := loseFrames_port d (s.desks.ports[d].replyQ.filter (!·.isPause))
    (withPort d (fun p => { p with replyQ := [] }) s)
  refine ⟨n, ?_, fun hl => by
    simpa [-Fin.getElem_fin, withPort] using hn (by simpa [-Fin.getElem_fin, withPort] using hl)⟩
  have hD : disablePort d s = withPort d
      (fun p => { p with state := if p.phase = .inFrame then .draining else .disabled })
      ((s.desks.ports[d].replyQ.filter (!·.isPause)).foldl (fun s f => loseFrame d f s)
        (withPort d (fun p => { p with replyQ := [] }) s)) := if_neg (by simpa using h)
  rw [hD]
  unfold withPort at hd ⊢
  simp only [hd]
  simp [-Fin.getElem_fin, put_put_same]

end Sys2Proof.Machine
end

