-- ==== Sys2Proof/Laws/Display.lean ====
section
/-! SUPPORT. What a slot start,
    a board page's composition and a show-changed report can do at a display. -/

namespace Sys2Proof.Machine

/-- A show-changed report taken at one display leaves the other displays and their links alone. -/
theorem updateRow_other (x : ShowReport) {d j : DisplayIx} (h : j ≠ d) (s : State) :
    (updateRow x d s).displays.recs[j] = s.displays.recs[j] ∧
      (updateRow x d s).stream.links[j] = s.stream.links[j] := by
  unfold updateRow
  dsimp only
  split
  · split
    · exact ⟨rfl, rfl⟩
    · split <;> simp [-Fin.getElem_fin, sendPanel_links, h, put_other]
  · exact ⟨rfl, rfl⟩

/-- What a show-changed report does at a display rests on the shows,
    on that display and on its link. -/
theorem updateRow_congr (x : ShowReport) (d : DisplayIx) {s t : State} (hs : t.shows = s.shows)
    (hr : t.displays.recs[d] = s.displays.recs[d]) (hl : t.stream.links[d] = s.stream.links[d]) :
    (updateRow x d t).displays.recs[d] = (updateRow x d s).displays.recs[d] ∧
      (updateRow x d t).stream.links[d] = (updateRow x d s).stream.links[d] := by
  have hu : rowUpdate t d x = rowUpdate s d x := by 
    unfold rowUpdate leftListed rowOf; rw [hs, hr]
  by_cases hc : s.displays.recs[d].segment = .board ∧
      s.displays.recs[d].pageRows.contains ⟨x.showIx, false⟩
  · have ht := hr.symm ▸ hc
    unfold updateRow
    dsimp only
    rw [if_pos ht, if_pos hc, hu]
    cases rowUpdate s d x with
    | none => exact ⟨hr, hl⟩
    | some p =>
      obtain ⟨row, ended⟩ := p
      cases ended <;> simp [-Fin.getElem_fin, sendPanel_links, hr, hl, put_same]
  · have ht := hr.symm ▸ hc
    unfold updateRow
    dsimp only
    rw [if_neg ht, if_neg hc]
    exact ⟨hr, hl⟩

/-- A show-changed report taken at every display does at each what it does there alone (R140). -/
theorem updateRows_at (x : ShowReport) (s : State) (d : DisplayIx) :
    (updateRows x s).displays.recs[d] = (updateRow x d s).displays.recs[d].passDrop x ∧
      (updateRows x s).stream.links[d] = (updateRow x d s).stream.links[d] := by
  have step : ∀ (j : DisplayIx) (t : State), j ≠ d →
      (withDisplay j (DisplayRec.passDrop x) (updateRow x j t)).displays.recs[d] = t.displays.recs[d] ∧
        (withDisplay j (DisplayRec.passDrop x) (updateRow x j t)).stream.links[d] =
          t.stream.links[d] ∧
        (withDisplay j (DisplayRec.passDrop x) (updateRow x j t)).shows = t.shows := by
    intro j t h
    obtain ⟨h1, h2⟩ := updateRow_other x (Ne.symm h) t
    simp [-Fin.getElem_fin, put_other _ _ _ _ (Ne.symm h), h1, h2]
  have rest : ∀ (l : List DisplayIx) (t : State), d ∉ l →
      (l.foldl (fun s d => withDisplay d (DisplayRec.passDrop x) (updateRow x d s)) t).displays.recs[d] =
          t.displays.recs[d] ∧
        (l.foldl (fun s d => withDisplay d (DisplayRec.passDrop x) (updateRow x d s)) t).stream.links[d] =
          t.stream.links[d] ∧
        (l.foldl (fun s d => withDisplay d (DisplayRec.passDrop x) (updateRow x d s)) t).shows =
          t.shows := by
    intro l
    induction l with
    | nil => simp
    | cons j l ih =>
      intro t h
      simp only [List.mem_cons, not_or] at h
      obtain ⟨a, b, c⟩ := ih (withDisplay j (DisplayRec.passDrop x) (updateRow x j t)) h.2
      obtain ⟨a', b', c'⟩ := step j t (Ne.symm h.1)
      rw [List.foldl_cons]
      exact ⟨a.trans a', b.trans b', c.trans c'⟩
  obtain ⟨l, m, hl⟩ := List.append_of_mem (List.mem_finRange d)
  have hn := hl ▸ List.nodup_finRange 16
  simp only [List.nodup_append, List.nodup_cons] at hn
  have hd : d ∉ l := fun h => hn.2.2 d h d (by simp) rfl
  unfold updateRows
  rw [hl, List.foldl_append, List.foldl_cons]
  obtain ⟨a, b, c⟩ := rest l s hd
  obtain ⟨a', b', -⟩ := rest m (withDisplay d (DisplayRec.passDrop x) (updateRow x d _)) hn.2.1.1
  rw [a', b']
  obtain ⟨p, q⟩ := updateRow_congr x d c a b
  exact ⟨by simp [-Fin.getElem_fin, put_same, p], by simp [-Fin.getElem_fin, q]⟩

/-! ## Board pages and slot starts -/

/-- The order of a board list (R139). -/
def rowBefore (s : State) (i j : ShowIx) : Prop :=
  s.shows.recs[i].start < s.shows.recs[j].start ∨ s.shows.recs[i].start = s.shows.recs[j].start ∧ i < j

theorem insertRow_mem (s : State) (i k : ShowIx) (l : List ShowIx) :
    k ∈ insertRow s i l ↔ k = i ∨ k ∈ l := by
  induction l with
  | nil => simp [insertRow]
  | cons j l ih =>
    simp only [insertRow]
    split
    · simp
    · simp only [List.mem_cons, ih]; exact or_left_comm

/-- A show of a higher index than all of a sorted list takes its place in it. -/
theorem insertRow_sorted (s : State) (i : ShowIx) (l : List ShowIx) (hl : l.Pairwise (rowBefore s))
    (hi : ∀ j ∈ l, j < i) : (insertRow s i l).Pairwise (rowBefore s) := by
  induction l with
  | nil => simp [insertRow]
  | cons j l ih =>
    obtain ⟨h1, h2⟩ := List.pairwise_cons.1 hl
    simp only [insertRow]
    split
    · rename_i hlt
      refine List.pairwise_cons.2 ⟨fun k hk => ?_, hl⟩
      rcases List.mem_cons.1 hk with rfl | hk
      · exact .inl hlt
      · rcases h1 k hk with h | h
        · exact .inl (hlt.trans h)
        · exact .inl (h.1 ▸ hlt)
    · rename_i hge
      refine List.pairwise_cons.2 ⟨fun k hk => ?_,
          ih h2 fun k hk => hi k (List.mem_cons_of_mem _ hk)⟩
      rcases (insertRow_mem s i k l).1 hk with rfl | hk
      · rcases Nat.lt_or_eq_of_le (Nat.le_of_not_lt hge) with h | h
        · exact .inl h
        · exact .inr ⟨h, hi j (List.mem_cons_self ..)⟩
      · exact h1 k hk

/-- The model's board list is the one R139 describes. -/
theorem boardList_spec (s : State) (mask : BitVec 24) : IsBoardList s mask (boardList s mask) := by
  have key : ∀ (m l : List ShowIx), l.Pairwise (rowBefore s) → m.Pairwise (· < ·) →
      (∀ j ∈ l, ∀ i ∈ m, j < i) →
      (m.foldl (fun l i => insertRow s i l) l).Pairwise (rowBefore s) ∧
        ∀ k, k ∈ m.foldl (fun l i => insertRow s i l) l ↔ k ∈ l ∨ k ∈ m := by
    intro m
    induction m with
    | nil => exact fun l hl _ _ => ⟨hl, by simp⟩
    | cons i m ih =>
      intro l hl hm hlm
      obtain ⟨h1, h2⟩ := List.pairwise_cons.1 hm
      obtain ⟨a, b⟩ := ih (insertRow s i l)
        (insertRow_sorted s i l hl fun j hj => hlm j hj i (List.mem_cons_self ..)) h2 (by
          intro j hj k hk
          rcases (insertRow_mem s i j l).1 hj with rfl | hj
          · exact h1 k hk
          · exact hlm j hj k (List.mem_cons_of_mem _ hk))
      refine ⟨a, fun k => ?_⟩
      rw [List.foldl_cons, b, insertRow_mem, List.mem_cons]
      tauto
  obtain ⟨a, b⟩ := key ((List.finRange 64).filter fun i =>
    isListed s.shows.recs[i] && mask.getLsbD s.shows.recs[i].auditorium) [] .nil
    ((List.pairwise_lt_finRange 64).filter _) (by simp)
  refine ⟨a.imp ?_, fun i => ?_, a⟩
  · rintro i j h rfl
    rcases h with h | h
    · exact absurd h (Nat.lt_irrefl _)
    · exact absurd h.2 (Fin.lt_irrefl _)
  · refine (b i).trans ?_
    simp [isListed, InListedSet, and_assoc, or_assoc]


/-- Frames handed to a panel link change that link alone (R143, R157). -/
theorem sendPanels_effect (d : DisplayIx) (fs : List PanelFrame) (s : State) :
    let t := sendPanels d fs s
    t.displays = s.displays ∧ t.bus = s.bus ∧
      t.stream.links =
        put s.stream.links d (handed s.displays.recs[d].linkUp fs s.stream.links[d]) := by
  have one : ∀ (f : PanelFrame) (s : State),
      (sendPanel d f s).displays = s.displays ∧ (sendPanel d f s).bus = s.bus := fun f s => by
    unfold sendPanel; split <;> exact ⟨rfl, rfl⟩
  induction fs generalizing s with
  | nil =>
    refine ⟨rfl, rfl, ?_⟩
    rw [show handed s.displays.recs[d].linkUp [] s.stream.links[d] = s.stream.links[d] by
      unfold handed; split <;> rfl]
    exact (put_self _ _).symm
  | cons f fs ih =>
    obtain ⟨a, b, c⟩ := ih (sendPanel d f s)
    refine ⟨a.trans (one f s).1, b.trans (one f s).2, ?_⟩
    have e : sendPanels d (f :: fs) s = sendPanels d fs (sendPanel d f s) := rfl
    rw [e, c, (one f s).1, sendPanel_links]
    unfold handed
    cases s.displays.recs[d].linkUp <;> simp [-Fin.getElem_fin, put_same, put_put_same]

/-- What composing a page does (R139). -/
theorem composeBoard_effect (d : DisplayIx) (s : State) :
    let t := composeBoard d s
    PageComposed d s.stream.links[d] s t ∧ OtherLinksStay d s t ∧ OtherDisplaysStay d s t ∧
      t.bus = s.bus ∧
      ∃ page pages rows renewed, t.displays.recs[d] =
        { s.displays.recs[d] with
          page := page, pages := pages, pageRows := rows, renewed := renewed } := by
  intro t
  by_cases hl : boardList s s.displays.recs[d].setup.auditoriumMask = []
  · obtain ⟨f, hf⟩ : ∃ f : DisplayRec → DisplayRec, f = fun r => { r with
        pageRows := [], renewed := waitingDrops s } := ⟨_, rfl⟩
    have ht : t = sendPanels d [.house 0] (withDisplay d f s) := by
      simp only [t, composeBoard, hl, hf]; rfl
    obtain ⟨a, b, c⟩ := sendPanels_effect d [.house 0] (withDisplay d f s)
    rw [← ht] at a b c
    have hr : t.displays.recs[d] = f s.displays.recs[d] :=
      (congrArg (fun x : DisplayCtl => x.recs[d]) a).trans (put_same ..)
    have hu : (withDisplay d f s).displays.recs[d] = f s.displays.recs[d] := put_same ..
    rw [hu] at c
    refine ⟨⟨_, boardList_spec s _, fun _ => ?_, fun h => absurd hl h⟩, fun j hj => ?_,
        fun j hj => ?_, b, ?_⟩
    · rw [hr, hf]
      refine ⟨rfl, rfl, rfl, ?_⟩
      rw [c, put_same, hf]; rfl
    · rw [c]; exact put_other _ _ _ _ hj
    · rw [a]; exact put_other _ _ _ _ hj
    · rw [hr, hf]; exact ⟨_, _, _, _, rfl⟩
  · obtain ⟨l, hll⟩ : ∃ l, l = boardList s s.displays.recs[d].setup.auditoriumMask := ⟨_, rfl⟩
    obtain ⟨n, hn⟩ : ∃ n, n = s.displays.recs[d].setup.rowsPerPage := ⟨_, rfl⟩
    obtain ⟨p, hp⟩ : ∃ p, p = nextPage s.displays.recs[d].page n l.length := ⟨_, rfl⟩
    obtain ⟨rows, hrows⟩ : ∃ rows, rows = (l.drop (p.1 * n)).take n := ⟨_, rfl⟩
    obtain ⟨f, hf⟩ : ∃ f : DisplayRec → DisplayRec, f = fun r => { r with
      page := some p.1, pages := p.2, pageRows := rows.map fun i => ⟨i, false⟩
      renewed := waitingDrops s } := ⟨_, rfl⟩
    obtain ⟨fs, hfs⟩ : ∃ fs,
        fs = PanelFrame.pageBegin p.1 p.2 rows.length :: rows.map fun i => .row (rowShown s i) :=
        ⟨_, rfl⟩
    have ht : t = sendPanels d fs (withDisplay d f s) := by
      simp only [t, composeBoard, if_neg hl]
      rw [hfs, hf, hrows, hp, hn, hll]; rfl
    obtain ⟨a, b, c⟩ := sendPanels_effect d fs (withDisplay d f s)
    rw [← ht] at a b c
    have hr : t.displays.recs[d] = f s.displays.recs[d] :=
      (congrArg (fun x : DisplayCtl => x.recs[d]) a).trans (put_same ..)
    have hu : (withDisplay d f s).displays.recs[d] = f s.displays.recs[d] := put_same ..
    rw [hu] at c
    have hp2 : p.2 = (l.length + n - 1) / n := by rw [hp]; unfold nextPage; split <;> rfl
    refine ⟨⟨l, hll ▸ boardList_spec s _, fun h => absurd (hll ▸ h) hl, fun _ => ⟨p.1, ?_⟩⟩,
        fun j hj => ?_, fun j hj => ?_, b, ?_⟩
    · have h1 : t.displays.recs[d].page = some p.1 := by rw [hr, hf]
      have h2 : t.displays.recs[d].pages = p.2 := by rw [hr, hf]
      rw [h1, h2, ← hn]
      refine ⟨rfl, hp2, fun h => ?_, fun q h h' => ?_, fun q h h' => ?_, ?_⟩
      · rw [hp, h]; rfl
      · rw [hp2] at h'; rw [hp, h]; simp only [nextPage]; rw [if_pos h']
      · rw [hp2] at h'; rw [hp, h]; simp only [nextPage]; rw [if_neg (Nat.not_le.2 h')]
      · rw [← hrows]; dsimp only; rw [← hfs]
        refine ⟨by rw [hr, hf], ?_⟩
        rw [c, put_same, hr]; rfl
    · rw [c]; exact put_other _ _ _ _ hj
    · rw [a]; exact put_other _ _ _ _ hj
    · rw [hr, hf]; exact ⟨_, _, _, _, rfl⟩

/-- A page composed after a change of what it does not read. -/
theorem PageComposed.of_eq {d : DisplayIx} {link : PanelLink} {s w t : State}
    (hs : w.shows = s.shows)
    (hr : w.displays.recs[d].setup = s.displays.recs[d].setup)
    (hp : w.displays.recs[d].page = s.displays.recs[d].page)
    (hq : w.displays.recs[d].pages = s.displays.recs[d].pages)
    (h : PageComposed d link w t) : PageComposed d link s t := by
  unfold PageComposed IsBoardList rowShown at *
  dsimp only at h ⊢
  rw [hs, hr, hp, hq] at h
  exact h

/-- A segment that starts, suspended where takeover is set (R135). -/
theorem suspendIfTaken_effect (now : Nat) (r : DisplayRec) (hr : r.suspended = false) :
    ∃ b since, suspendIfTaken now r = { r with suspended := b, suspendStart := since } ∧
      b = r.takeover ∧ (b = true → since = some now) := by
  unfold suspendIfTaken
  cases h : r.takeover
  · exact ⟨false, r.suspendStart, by cases r; simp_all, rfl, by simp⟩
  · exact ⟨true, some now, rfl, rfl, fun _ => rfl⟩

/-- What a BOARD segment's start does (R135, R139). -/
theorem startBoard_effect (d : DisplayIx) (s : State) :
    let t := startBoard d s
    let r := s.displays.recs[d]
    let r' := t.displays.recs[d]
    r'.loopPos = r.loopPos ∧ r'.segmentNo = r.segmentNo ∧ r'.setup = r.setup ∧
      r'.linkUp = r.linkUp ∧ r'.takeover = r.takeover ∧ r'.state = r.state ∧
      r'.suspended = r.takeover ∧ (r'.suspended = true → r'.suspendStart = some s.clock.partSeconds) ∧
      OtherDisplaysStay d s t ∧ OtherLinksStay d s t ∧ t.bus = s.bus ∧
      r'.segment = .board ∧ r'.dwellLeft = r.setup.boardDwell ∧
      PageComposed d s.stream.links[d] s t := by
  intro t r r'
  obtain ⟨b, since, h1, h2, h3⟩ := suspendIfTaken_effect s.clock.partSeconds
    { r.idle with segment := .board, dwellLeft := r.setup.boardDwell } rfl
  obtain ⟨w, hw⟩ : ∃ w, w = withDisplay d (fun r =>
      suspendIfTaken s.clock.partSeconds
        { r.idle with segment := .board, dwellLeft := r.setup.boardDwell }) s := ⟨_, rfl⟩
  have ht : t = composeBoard d w := by rw [hw]; rfl
  have hwd : w.displays.recs[d] = { r.idle with
      segment := .board, dwellLeft := r.setup.boardDwell, suspended := b
      suspendStart := since } := by
    rw [hw]; exact (put_same _ _ _).trans h1
  have ho : OtherDisplaysStay d s w := fun j hj => by rw [hw]; exact put_other _ _ _ _ hj
  have hs : w.shows = s.shows := by rw [hw]; rfl
  have hl : w.stream = s.stream := by rw [hw]; rfl
  have hb : w.bus = s.bus := by rw [hw]; rfl
  obtain ⟨c1, c2, c3, c4, pg, pgs, rows, rn, c5⟩ := composeBoard_effect d w
  rw [← ht] at c1 c2 c3 c4 c5
  rw [hwd] at c5
  have e : r' = _ := c5
  refine ⟨by rw [e]; rfl, by rw [e]; rfl, by rw [e]; rfl, by rw [e]; rfl, by rw [e]; rfl,
      by rw [e]; rfl, by rw [e]; exact h2, fun h => ?_, fun j hj => (c3 j hj).trans (ho j hj),
      fun j hj => (c2 j hj).trans (by rw [hl]), c4.trans hb, by rw [e], by rw [e], ?_⟩
  · rw [e] at h ⊢; exact h3 h
  · rw [hl] at c1
    exact c1.of_eq hs (by rw [hwd]; rfl) (by rw [hwd]; rfl) (by rw [hwd]; rfl)

/-- What starting the slot at loop_pos does (R135), with the segment's number as it stands. -/
theorem startSlot_effect (d : DisplayIx) (s : State) :
    let t := startSlot d s
    let r := s.displays.recs[d]
    let r' := t.displays.recs[d]
    r'.loopPos = r.loopPos ∧ r'.segmentNo = r.segmentNo ∧ r'.setup = r.setup ∧
      r'.linkUp = r.linkUp ∧ r'.takeover = r.takeover ∧ r'.state = r.state ∧
      r'.suspended = (r'.takeover && r'.segment != .deciding) ∧
      (r'.suspended = true → r'.suspendStart = some s.clock.partSeconds) ∧
      OtherDisplaysStay d s t ∧ OtherLinksStay d s t ∧
      t.bus.displayReports = s.bus.displayReports ∧ t.bus.streamReqs = s.bus.streamReqs ∧
      (r.setup.loop[r.loopPos]? = some .board ∨ r.setup.loop[r.loopPos]? = none →
        r'.segment = .board ∧ r'.dwellLeft = r.setup.boardDwell ∧
          PageComposed d s.stream.links[d] s t) ∧
      (∀ card, r.setup.loop[r.loopPos]? = some (.house card) →
        r'.segment = .house ∧ r'.dwellLeft = r.setup.houseDwell ∧ r'.page = r.page ∧
          r'.pages = r.pages ∧
          t.stream.links[d] = handed r'.linkUp [.house card] s.stream.links[d]) ∧
      (r.setup.loop[r.loopPos]? = some .trailer →
        r'.segment = .deciding ∧ t.stream.links[d] = s.stream.links[d] ∧
          t.bus.decisions = s.bus.decisions ++ [⟨d, r.setup.formatMask, r.segmentNo⟩]) := by
  intro t r r'
  by_cases hk : r.setup.loop[r.loopPos]? = some .board ∨ r.setup.loop[r.loopPos]? = none
  · have ht : t = startBoard d s := by
      simp only [t, startSlot]; rcases hk with hk | hk <;> rw [hk]
    obtain ⟨c1, c2, c3, c4, c5, c6, c7, c8, c9, c10, c11, c12, c13, c14⟩ := startBoard_effect d s
    rw [← ht] at c1 c2 c3 c4 c5 c6 c7 c8 c9 c10 c11 c12 c13 c14
    refine ⟨c1, c2, c3, c4, c5, c6, by rw [c12, c5, c7]; simp, c8, c9, c10, by rw [c11],
        by rw [c11],
      fun _ => ⟨c12, c13, c14⟩, fun card h => ?_, fun h => ?_⟩ <;>
    rcases hk with hk | hk <;> rw [hk] at h <;> cases h
  cases hm : r.setup.loop[r.loopPos]? with
  | none => exact absurd (.inr ‹_›) hk
  | some k =>
    cases k with
    | board => exact absurd (.inl ‹_›) hk
    | house card =>
      obtain ⟨b, since, h1, h2, h3⟩ := suspendIfTaken_effect s.clock.partSeconds
        { r.idle with segment := .house, dwellLeft := r.setup.houseDwell } rfl
      obtain ⟨w, hw⟩ : ∃ w, w = withDisplay d (fun r =>
          suspendIfTaken s.clock.partSeconds
            { r.idle with segment := .house, dwellLeft := r.setup.houseDwell }) s := ⟨_, rfl⟩
      have ht : t = sendPanels d [.house card] w := by simp only [t, startSlot]; rw [hm, hw]; rfl
      have hwd : w.displays.recs[d] = { r.idle with
          segment := .house, dwellLeft := r.setup.houseDwell, suspended := b
          suspendStart := since } := by
        rw [hw]; exact (put_same _ _ _).trans h1
      have ho : OtherDisplaysStay d s w := fun j hj => by rw [hw]; exact put_other _ _ _ _ hj
      have hl : w.stream = s.stream := by rw [hw]; rfl
      have hb : w.bus = s.bus := by rw [hw]; rfl
      obtain ⟨c1, c2, c3⟩ := sendPanels_effect d [.house card] w
      rw [← ht] at c1 c2 c3
      rw [hwd, hl] at c3
      have e : r' = _ := (congrArg (fun x : DisplayCtl => x.recs[d]) c1).trans hwd
      refine ⟨by rw [e]; rfl, by rw [e]; rfl, by rw [e]; rfl, by rw [e]; rfl, by rw [e]; rfl,
          by rw [e]; rfl, by rw [e]; simp [h2], fun h => ?_,
          fun j hj => (by rw [c1]; exact ho j hj),
          fun j hj => (by rw [c3]; exact put_other _ _ _ _ hj), by rw [c2, hb], by rw [c2, hb],
          by simp, fun card' h => ?_, by simp⟩
      · rw [e] at h ⊢; exact h3 h
      · cases h
        rw [c3, put_same, e]
        exact ⟨rfl, rfl, rfl, rfl, rfl⟩
    | trailer =>
      obtain ⟨w, hw⟩ : ∃ w, w = withDisplay d (fun r => { r.idle with segment := .deciding }) s :=
        ⟨_, rfl⟩
      have ht : t = requestDecision ⟨d, r.setup.formatMask, r.segmentNo⟩ w := by
        simp only [t, startSlot]
        rw [hm, hw]
      have hwd : w.displays.recs[d] = { r.idle with segment := .deciding } := by
        rw [hw]; exact put_same _ _ _
      have e : r' = { r.idle with segment := .deciding } := by
        have : t.displays = w.displays := by rw [ht]; rfl
        exact (congrArg (fun x : DisplayCtl => x.recs[d]) this).trans hwd
      refine ⟨by rw [e]; rfl, by rw [e]; rfl, by rw [e]; rfl, by rw [e]; rfl, by rw [e]; rfl,
          by rw [e]; rfl, by rw [e]; simp [DisplayRec.idle], fun h => ?_,
          fun j hj => (by rw [ht, hw]; exact put_other _ _ _ _ hj),
          fun j hj => (by rw [ht, hw]; rfl), by rw [ht, hw]; rfl, by rw [ht, hw]; rfl,
          by simp, by simp, fun _ => ⟨by rw [e], by rw [ht, hw]; rfl, by rw [ht, hw]; rfl⟩⟩
      rw [e] at h; cases h
end Sys2Proof.Machine
end

