-- ==== Sys2Proof/Laws/Shows.lean ====
section
/-! SUPPORT. What the shared operations of the Show Table do: freeing holds, recomputing a tally, closing a
show, ending an event. -/

namespace Sys2Proof.Machine

/-- Two message sets that differ in raises alone. -/
def SameButRaises (s t : State) : Prop := { t.bus with raises := s.bus.raises } = s.bus

theorem SameButRaises.refl (s : State) : SameButRaises s s := rfl
theorem SameButRaises.trans {s t u : State} (h : SameButRaises s t) (h' : SameButRaises t u) :
    SameButRaises s u := by
  unfold SameButRaises at *
  rw [← h, ← h']

theorem loseFrame_raises (d : DeskIx) (f : DeskFrame) (s : State) :
    SameButRaises s (loseFrame d f s) := rfl

theorem sendDesk_raises (d : DeskIx) (seq : Byte) (m : DeskMsg) (s : State) :
    SameButRaises s (sendDesk d seq m s) := by
  simp only [sendDesk]
  split
  · rfl
  · exact loseFrame_raises _ _ _

/-- What ending the hold of one slot does to the Show Table (R43). -/
theorem endHold_effect (r : HoldEnd) (k : HoldIx) (s : State) (i : ShowIx)
    (hi : ∀ h, holdAt s k = some h → h.showIx = i) :
    OtherShowsStay i s (endHold r k s) ∧
    (endHold r k s).shows.recs[i] =
      { s.shows.recs[i] with
        held := s.shows.recs[i].held - ((holdAt s k).map (·.seats)).getD 0 } ∧
    (∀ j : HoldIx, (endHold r k s).shows.holds[j] =
      if j = k ∧ (holdAt s k).isSome then ⟨(s.shows.holds[k].gen + 1) % 256, none⟩
      else s.shows.holds[j]) ∧
    (endHold r k s).shows.holdList =
      (if (holdAt s k).isSome then s.shows.holdList.filter (· != k) else s.shows.holdList) ∧
    (endHold r k s).shows.cfg = s.shows.cfg ∧
    (endHold r k s).shows.placementCounter = s.shows.placementCounter ∧
    SameButRaises s (endHold r k s) := by
  cases hk : holdAt s k with
  | none => simp [endHold, hk, OtherShowsStay, SameButRaises]
  | some h =>
    have e := hi h hk
    subst e
    have hs : (endHold r k s).shows = (freeHold k s).shows := by simp [endHold, hk]
    rw [OtherShowsStay, hs]
    simp only [freeHold, hk]
    refine ⟨fun j hj => put_other _ _ _ _ hj, put_same _ _ _, fun j => ?_, by simp, by simp, by simp, ?_⟩
    · rw [put_get]; simp
    · simp only [endHold, hk]
      refine SameButRaises.trans ?_ (sendDesk_raises _ _ _ _)
      simp [SameButRaises]

/-- A sum over every index is one term more than the sum that leaves that term out. -/
theorem sum_with_term {n : Nat} (k : Fin n) (f g : Fin n → Nat) (hk : g k = 0)
    (h : ∀ j, j ≠ k → f j = g j) :
    ((List.finRange n).map f).sum = f k + ((List.finRange n).map g).sum := by
  rw [← Fin.sum_univ_def, ← Fin.sum_univ_def]
  have e : ∀ j, f j = (if j = k then f k else 0) + g j := by
    intro j
    by_cases hj : j = k
    · subst hj; simp [hk]
    · simp [hj, h j hj]
  rw [Finset.sum_congr rfl fun j _ => e j, Finset.sum_add_distrib]
  simp

/-- A sum of nothing but zeros. -/
theorem sum_of_zeros {n : Nat} : ((List.finRange n).map fun _ => 0).sum = 0 := by simp

/-- The seats of the holds in the slots of a list, each slot counted once. -/
def seatsIn (s : State) (l : List HoldIx) : Nat :=
  ((List.finRange 192).map fun k =>
    if l.contains k then ((holdAt s k).map (·.seats)).getD 0 else 0).sum

theorem seatsIn_nil (s : State) : seatsIn s [] = 0 := sum_of_zeros

theorem seatsIn_cons {s t : State} (k : HoldIx) (rest : List HoldIx)
    (h : ∀ j, holdAt t j = if j = k then none else holdAt s j) :
    seatsIn s (k :: rest) = ((holdAt s k).map (·.seats)).getD 0 + seatsIn t rest := by
  have e := sum_with_term k
    (fun j => if (k :: rest).contains j then ((holdAt s j).map HoldRec.seats).getD 0 else 0)
    (fun j => if rest.contains j then ((holdAt t j).map HoldRec.seats).getD 0 else 0)
    (by simp [h]) (by intro j hj; simp [h, hj])
  refine e.trans (congrArg (· + seatsIn t rest) ?_)
  simp

/-- Holds ended one after another, all of one show (R17). -/
theorem endHolds_effect (r : HoldEnd) (i : ShowIx) (l : List HoldIx) (s : State)
    (hi : ∀ k ∈ l, ∀ h, holdAt s k = some h → h.showIx = i) :
    let t := l.foldl (fun s k => endHold r k s) s
    OtherShowsStay i s t ∧
    t.shows.recs[i] =
      { s.shows.recs[i] with
        held := s.shows.recs[i].held - seatsIn s l } ∧
    (∀ j : HoldIx, t.shows.holds[j] =
      if j ∈ l ∧ (holdAt s j).isSome then ⟨(s.shows.holds[j].gen + 1) % 256, none⟩
      else s.shows.holds[j]) ∧
    t.shows.holdList =
      s.shows.holdList.filter (fun j => !(l.contains j && (holdAt s j).isSome)) ∧
    t.shows.cfg = s.shows.cfg ∧ SameButRaises s t := by
  induction l generalizing s with
  | nil => exact ⟨fun _ _ => rfl, by rw [seatsIn_nil]; rfl, by simp, by simp, rfl, rfl⟩
  | cons k rest ih =>
    obtain ⟨h1, h2, h3, h4, h5, -, h6⟩ :=
      endHold_effect r k s i (hi k (by simp))
    have hat : ∀ j, holdAt (endHold r k s) j = if j = k then none else holdAt s j := by
      intro j
      have e := h3 j
      unfold holdAt at e ⊢
      rw [e]
      by_cases hj : j = k
      · subst hj
        by_cases hh : s.shows.holds[j].hold.isSome = true
        · rw [if_pos ⟨rfl, hh⟩, if_pos rfl]
        · rw [if_neg (fun x => hh x.2), if_pos rfl]; simpa using hh
      · rw [if_neg (fun x => hj x.1), if_neg hj]
    obtain ⟨g1, g2, g3, g4, g5, g6⟩ := ih (endHold r k s) (by
      intro j hj h hh
      rw [hat] at hh
      split at hh
      · simp at hh
      · exact hi j (by simp [hj]) h hh)
    refine ⟨fun j hj => (g1 j hj).trans (h1 j hj), ?_, ?_, ?_, g5.trans h5, h6.trans g6⟩
    · simp only [List.foldl_cons]
      rw [g2, h2, Nat.sub_sub, seatsIn_cons k rest hat]
    · intro j
      simp only [List.foldl_cons]
      rw [g3 j, h3 j, hat j]
      by_cases hj : j = k
      · subst hj; simp
      · simp [hj]
    · simp only [List.foldl_cons]
      rw [g4, h4]
      by_cases hk : (holdAt s k).isSome = true
      · simp only [hk, if_true, List.filter_filter]
        congr 1; funext j; rw [hat j]
        by_cases hj : j = k
        · subst hj; simp [hk]
        · simp [hj]
      · simp only [hk]
        congr 1; funext j; rw [hat j]
        by_cases hj : j = k
        · subst hj; simp at hk; simp [hk]
        · simp [hj]

theorem tally_congr {c c' : ShowSettings} {sh sh' : ShowRec} (prev : Band) (hc : c = c')
    (hs : sh = sh') :
    tally c.bandSets[sh.bandSet] prev sh = tally c'.bandSets[sh'.bandSet] prev sh' := by
  subst hc hs; rfl

/-- What a closing does to the Show Table and the Notice Arbiter's requests (R17): the show keeps every field
of its schedule half, its holds are freed and their seats leave held, its tally is recomputed,
soldout_asked is clear, and the closure report and any SOLD_OUT clear are sent. -/
theorem closeShow_effect (i : ShowIx) (prev : Band) (reason : NoticeEnd) (s : State) :
    let t := closeShow i prev reason s
    OtherShowsStay i s t ∧ HoldsLetGo i s t ∧
    t.shows.recs[i] =
      { tally s.shows.cfg.bandSets[s.shows.recs[i].bandSet] prev
          { s.shows.recs[i] with held := s.shows.recs[i].held - seatsHeldFor s i } with
        soldoutAsked := false } ∧
    t.shows.cfg = s.shows.cfg ∧
    t.bus.toArbiter = s.bus.toArbiter ++ closingMsgs reason i s.shows.recs[i] ∧
    { t.bus with raises := s.bus.raises, toArbiter := s.bus.toArbiter } = s.bus := by
  have hh : ∀ k ∈ holdsOn s i, ∀ h, holdAt s k = some h → h.showIx = i := by
    intro k hk h e
    simp only [holdsOn, List.mem_filter] at hk
    simpa [e] using hk.2
  obtain ⟨g1, g2, g3, g4, g5, g6⟩ := endHolds_effect (closingHoldEnd reason) i (holdsOn s i) s hh
  have hmem : ∀ j, holdsFor s i j = ((holdsOn s i).contains j && (holdAt s j).isSome) := by
    intro j
    rw [Bool.eq_iff_iff]
    simp only [holdsOn, holdsFor, Bool.and_eq_true, List.contains_iff_mem, List.mem_filter]
    change _ ∧ Option.any _ (holdAt s j) = true ↔ _
    cases holdAt s j <;> simp
  have hsum : seatsIn s (holdsOn s i) = seatsHeldFor s i := by
    unfold seatsHeldFor seatsIn
    congr 1
    apply List.map_congr_left
    intro k _
    rw [hmem k]
    change _ = if _ then ((holdAt s k).map HoldRec.seats).getD 0 else 0
    cases holdAt s k <;> simp
  rw [hsum] at g2
  intro t
  let u := (holdsOn s i).foldl (fun s k => endHold (closingHoldEnd reason) k s) s
  have ht : t = closeShow i prev reason s := rfl
  have hg6 : { u.bus with raises := s.bus.raises } = s.bus := g6
  have hu : u.shows.recs[i] =
      { s.shows.recs[i] with held := s.shows.recs[i].held - seatsHeldFor s i } := g2
  have hasked : u.shows.recs[i].soldoutAsked = s.shows.recs[i].soldoutAsked := by rw [hu]
  let v := sendArbiter (.closure i reason) (retally i prev u)
  have hv : v.shows.recs[i] =
      tally u.shows.cfg.bandSets[u.shows.recs[i].bandSet] prev u.shows.recs[i] := put_same _ _ _
  have hva : v.shows.recs[i].soldoutAsked = s.shows.recs[i].soldoutAsked := by rw [hv]; exact hasked
  have htv : t = if v.shows.recs[i].soldoutAsked = true then
      setShow i { v.shows.recs[i] with soldoutAsked := false } (sendArbiter (.clear i) v)
    else v := rfl
  have hsh : t.shows.recs = put u.shows.recs i
      { tally u.shows.cfg.bandSets[u.shows.recs[i].bandSet] prev u.shows.recs[i] with
        soldoutAsked := false } ∧ t.shows.holds = u.shows.holds ∧
      t.shows.holdList = u.shows.holdList ∧ t.shows.cfg = u.shows.cfg ∧
      t.bus = { u.bus with
        toArbiter := u.bus.toArbiter ++ closingMsgs reason i s.shows.recs[i] } := by
    unfold closingMsgs
    rw [← hva, htv]
    by_cases h : v.shows.recs[i].soldoutAsked = true
    · rw [if_pos h, if_pos h]
      refine ⟨?_, rfl, rfl, rfl, ?_⟩
      · rw [hv]; exact put_put_same _ _ _ _
      · simp [v, setShow, sendArbiter, retally]
    · rw [if_neg h, if_neg h]
      refine ⟨?_, rfl, rfl, rfl, rfl⟩
      have e : v.shows.recs[i] = { v.shows.recs[i] with soldoutAsked := false } := by
        have : v.shows.recs[i].soldoutAsked = false := by simpa using h
        rw [← this]
      rw [hv] at e
      rw [← e]; rfl
  obtain ⟨e1, e2, e3, e4, e5⟩ := hsh
  refine ⟨fun j hj => ?_, ⟨fun j => ?_, ?_⟩, ?_, e4.trans g5, ?_, ?_⟩
  · rw [e1, put_other _ _ _ _ hj]; exact g1 j hj
  · rw [e2]; simp only [u]; rw [g3 j, hmem j]
    simp only [Bool.and_eq_true, List.contains_iff_mem]
  · exact e3.trans (g4.trans (congrArg (s.shows.holdList.filter ·)
      (funext fun j => congrArg (! ·) (hmem j).symm)))
  · rw [e1, put_same]
    exact congrArg (fun x : ShowRec => { x with soldoutAsked := false })
      (tally_congr prev (show u.shows.cfg = s.shows.cfg from g5) hu)
  · rw [e5]
    have : u.bus.toArbiter = s.bus.toArbiter := by rw [← hg6]
    exact congrArg (· ++ closingMsgs reason i s.shows.recs[i]) this
  · rw [e5, ← hg6]

/-- What a tally recomputation does to the Show Table and the Notice Arbiter's requests (R26, R36, R37): the
record is the one its counts call for, the SOLD_OUT request or clear is sent where the band enters or
leaves FULL, and nothing else of the table changes. -/
theorem recompute_effect (i : ShowIx) (before : ShowRec) (capture : List Byte) (s : State) :
    (recompute i before capture s).shows =
      { s.shows with
        recs := put s.shows.recs i (recounted s.shows.cfg before s.shows.recs[i]) } ∧
    (recompute i before capture s).bus.toArbiter =
      s.bus.toArbiter ++ soldOutMsgs s.shows.cfg i before s.shows.recs[i] := by
  unfold recompute
  have hr : (raiseOversold i before capture (retally i before.band s)).shows =
      { s.shows with
        recs := put s.shows.recs i
          (tally s.shows.cfg.bandSets[s.shows.recs[i].bandSet] before.band s.shows.recs[i]) } ∧
      (raiseOversold i before capture (retally i before.band s)).bus.toArbiter =
        s.bus.toArbiter := by
    simp only [raiseOversold]; split <;> exact ⟨rfl, rfl⟩
  obtain ⟨hr, hb⟩ := hr
  generalize raiseOversold i before capture (retally i before.band s) = u at hr hb
  have hu : u.shows.recs[i] =
      tally s.shows.cfg.bandSets[s.shows.recs[i].bandSet] before.band s.shows.recs[i] := by
    rw [hr]; exact put_same _ _ _
  have set (x : ShowRec) : ({ u.shows with recs := put u.shows.recs i x } : ShowTable) =
      { s.shows with recs := put s.shows.recs i x } := by
    rw [hr]; simp only [put_put_same]
  have hc : u.shows.cfg = s.shows.cfg := by rw [hr]
  simp only [recounted, soldOutMsgs]
  rw [← hu]
  simp only [actOnFull]
  by_cases ha : asksSoldOut before u.shows.recs[i] = true
  · have hcl : clearsSoldOut before u.shows.recs[i] = false := by
      simp only [asksSoldOut, clearsSoldOut, Bool.and_eq_true, bne_iff_ne] at ha ⊢
      simp [ha.1.1.1]
    have h1 : u.shows.recs[i].band = .full ∧ before.band ≠ .full ∧
        u.shows.recs[i].state.isLive = true ∧ u.shows.recs[i].flags.autoSoldout = true := by
      simp only [asksSoldOut, Bool.and_eq_true, bne_iff_ne, beq_iff_eq] at ha
      exact ⟨ha.1.1.2, ha.1.1.1, ha.1.2, ha.2⟩
    rw [if_pos h1]
    simp only [ha, hcl, if_true, Bool.or_true, Bool.not_false, Bool.and_true]
    refine ⟨set _, ?_⟩
    rw [← hb]
    simp only [requestAuto, sendArbiter, setShow, autoPost, cardPost, hc, autoTopic, CardKind.code,
      autoPriority]
    rfl
  · have h1 : ¬ (u.shows.recs[i].band = .full ∧ before.band ≠ .full ∧
        u.shows.recs[i].state.isLive = true ∧ u.shows.recs[i].flags.autoSoldout = true) := by
      rintro ⟨a, b, c, d⟩
      exact ha (by simp [asksSoldOut, a, b, c, d, -Fin.getElem_fin])
    rw [if_neg h1]
    have ha' : asksSoldOut before u.shows.recs[i] = false := by simpa using ha
    by_cases hcl : clearsSoldOut before u.shows.recs[i] = true
    · have h2 : before.band = .full ∧ u.shows.recs[i].band ≠ .full ∧
          u.shows.recs[i].soldoutAsked = true := by
        simp only [clearsSoldOut, Bool.and_eq_true, bne_iff_ne, beq_iff_eq] at hcl
        exact ⟨hcl.1.1, hcl.1.2, hcl.2⟩
      rw [if_pos h2]
      simp only [ha', hcl, if_true, Bool.not_true, Bool.and_false]
      refine ⟨set _, ?_⟩
      rw [← hb]; rfl
    · have h2 : ¬ (before.band = .full ∧ u.shows.recs[i].band ≠ .full ∧
          u.shows.recs[i].soldoutAsked = true) := by
        rintro ⟨a, b, c⟩
        exact hcl (by simp [clearsSoldOut, a, b, c, -Fin.getElem_fin])
      rw [if_neg h2]
      have hcl' : clearsSoldOut before u.shows.recs[i] = false := by simpa using hcl
      simp only [ha', hcl', Bool.or_false, Bool.not_false, Bool.and_true]
      refine ⟨?_, by simp [hb]⟩
      rw [hu]; exact hr

/-- A tally recomputation sends nothing but auto-notice and clear requests and raises (R26). -/
theorem recompute_bus (i : ShowIx) (before : ShowRec) (capture : List Byte) (s : State) :
    { (recompute i before capture s).bus with
      toArbiter := s.bus.toArbiter, raises := s.bus.raises } = s.bus := by
  simp only [recompute, actOnFull, raiseOversold]
  repeat' split
  all_goals rfl

/-- The end of an event sends nothing but show-changed reports (R19). -/
theorem commitShowAs_bus (fields : ShowRec → ShowRec → List ReportField) (i : ShowIx)
    (before : ShowRec) (s : State) :
    { (commitShowAs fields i before s).bus with showReports := s.bus.showReports } = s.bus := by
  simp only [commitShowAs, reportShow]
  repeat' split
  all_goals simp

/-- The one report that the end of an event sends, where the record changed and a field is named (R19). -/
theorem commitShowAs_reports (fields : ShowRec → ShowRec → List ReportField) (i : ShowIx)
    (before : ShowRec) (s : State) :
    (commitShowAs fields i before s).bus.showReports = s.bus.showReports ++
      if s.shows.recs[i] = before ∨ fields before s.shows.recs[i] = [] then []
      else [⟨i, fields before s.shows.recs[i], s.shows.recs[i].state == .empty⟩] := by
  simp only [commitShowAs, reportShow, handMirror_keeps]
  by_cases h : s.shows.recs[i] = before
  · simp only [h, true_or, if_true, List.append_nil]
  · by_cases h' : fields before s.shows.recs[i] = []
    · simp only [h, h', or_true, if_true, if_false, List.append_nil, handMirror_keeps]
    · simp only [h, h', or_self, if_false]

theorem commitShow_bus (i : ShowIx) (before : ShowRec) (s : State) :
    { (commitShow i before s).bus with showReports := s.bus.showReports } = s.bus :=
  commitShowAs_bus changedFields i before s

/-- The end of an event leaves the requests to the Lobby Clock and the Notice Arbiter as they are (R19). -/
@[simp] theorem commitShowAs_requests (fields : ShowRec → ShowRec → List ReportField) (i : ShowIx)
    (before : ShowRec) (s : State) :
    (commitShowAs fields i before s).bus.toClock = s.bus.toClock ∧
      (commitShowAs fields i before s).bus.toArbiter = s.bus.toArbiter := by
  have h := commitShowAs_bus fields i before s
  exact ⟨by rw [← h], by rw [← h]⟩

@[simp] theorem commitShow_requests (i : ShowIx) (before : ShowRec) (s : State) :
    (commitShow i before s).bus.toClock = s.bus.toClock ∧
      (commitShow i before s).bus.toArbiter = s.bus.toArbiter :=
  commitShowAs_requests changedFields i before s

/-- What the end of an event that counts a show's tally again does (R26, R36, R37). -/
theorem commitRecount_effect (i : ShowIx) (before : ShowRec) (capture : List Byte) (s : State) :
    let t := commitShow i before (recompute i before capture s)
    t.shows =
        { s.shows with
          recs := put s.shows.recs i (recounted s.shows.cfg before s.shows.recs[i]) } ∧
      t.bus.toArbiter = s.bus.toArbiter ++ soldOutMsgs s.shows.cfg i before s.shows.recs[i] ∧
      t.bus.toClock = s.bus.toClock ∧ t.win.flight = s.win.flight ∧
      t.win.windowValid = s.win.windowValid ∧ t.desks = s.desks := by
  obtain ⟨h, h'⟩ := recompute_effect i before capture s
  have hb := recompute_bus i before capture s
  refine ⟨by simpa using h, by simpa using h', ?_, by simp, by simp, by simp⟩
  rw [(commitShow_requests _ _ _).1, ← hb]

/-- The end of an event for every show, likewise. -/
@[simp] theorem commitShows_requests (fields : ShowRec → ShowRec → List ReportField)
    (before : Vector ShowRec 64) (s : State) :
    (commitShows fields before s).bus.toClock = s.bus.toClock ∧
      (commitShows fields before s).bus.toArbiter = s.bus.toArbiter := by
  unfold commitShows
  generalize List.finRange 64 = l
  induction l generalizing s with
  | nil => exact ⟨rfl, rfl⟩
  | cons i rest ih =>
    rw [List.foldl_cons, (ih _).1, (ih _).2]
    exact commitShowAs_requests fields i before[i] s

end Sys2Proof.Machine
end

