-- ==== Sys2Proof/Laws/Notice.lean ====
section
/-! SUPPORT. What the end of an event of the Notice Arbiter does: the takeover comparisons (R108). -/

namespace Sys2Proof.Machine

/-- The top of a display is of takeover class by the class in force (R108). -/
theorem topTakesOver_eq (s : State) (d : DisplayIx) :
    topTakesOver s d = overtaken s.arb.cfg.takeoverClass s d := by
  unfold topTakesOver overtaken classAt noticeAt classOf
  cases s.arb.recs[d].stack with
  | nil => rfl
  | cons i _ => rw [List.head?_cons, Option.any_some]

/-- One takeover comparison sets the flag of its display to what the top is, and sends what the change
calls for (R108). -/
theorem compareTakeover_effect (d : DisplayIx) (s : State) :
    let now := overtaken s.arb.cfg.takeoverClass s d
    (compareTakeover d s).arb =
        { s.arb with recs := put s.arb.recs d { s.arb.recs[d] with takeover := now } } ∧
      (compareTakeover d s).bus =
        { s.bus with
          signals := s.bus.signals ++ takeoverMsgs s.arb.recs[d].takeover now d } := by
  intro now
  have same (h : s.arb.recs[d].takeover = now) :
      { s.arb with recs := put s.arb.recs d { s.arb.recs[d] with takeover := now } } = s.arb := by
    rw [← h, put_self]
  simp only [compareTakeover, topTakesOver_eq]
  change (if (now && !s.arb.recs[d].takeover) = true then _ else _ : State).arb = _ ∧
    (if (now && !s.arb.recs[d].takeover) = true then _ else _ : State).bus = _
  generalize ht : s.arb.recs[d].takeover = b at same ⊢
  generalize hn : now = n at same ⊢
  have hn' : overtaken s.arb.cfg.takeoverClass s d = n := hn
  cases b <;> cases n <;>
    simp [takeoverMsgs, signalPanel, withArb, hn', -Fin.getElem_fin] at same ⊢ <;>
    exact same.symm

/-- Takeover comparisons of several displays, one after another (R108). -/
theorem compareTakeovers_effect (l : List DisplayIx) (hl : l.Nodup) (v : State) :
    let t := l.foldl (fun s d => compareTakeover d s) v
    let now := overtaken v.arb.cfg.takeoverClass v
    t.arb.slots = v.arb.slots ∧ t.arb.cfg = v.arb.cfg ∧ t.arb.order = v.arb.order ∧
      (∀ d : DisplayIx, t.arb.recs[d] =
        if d ∈ l then { v.arb.recs[d] with takeover := now d } else v.arb.recs[d]) ∧
      t.bus =
        { v.bus with
          signals := v.bus.signals ++
            l.flatMap fun d => takeoverMsgs v.arb.recs[d].takeover (now d) d } := by
  induction l generalizing v with
  | nil => simp
  | cons k l ih =>
    obtain ⟨hk, hl⟩ := List.nodup_cons.1 hl
    obtain ⟨c1, c2⟩ := compareTakeover_effect k v
    obtain ⟨i1, i2, i3, i4, i5⟩ := ih hl (compareTakeover k v)
    have hrec : ∀ d : DisplayIx, d ≠ k →
        (compareTakeover k v).arb.recs[d] = v.arb.recs[d] := fun d hd =>
      (congrArg (fun a : Arbiter => a.recs[d]) c1).trans (put_other _ _ _ _ hd)
    have hrecs : (compareTakeover k v).arb.recs[k] =
        { v.arb.recs[k] with takeover := overtaken v.arb.cfg.takeoverClass v k } :=
      (congrArg (fun a : Arbiter => a.recs[k]) c1).trans (put_same _ _ _)
    have h1 : (compareTakeover k v).arb.cfg = v.arb.cfg := by rw [c1]
    have h2 : (compareTakeover k v).arb.slots = v.arb.slots := by rw [c1]
    have h3 : (compareTakeover k v).arb.order = v.arb.order := by rw [c1]
    have hover : ∀ d : DisplayIx,
        overtaken (compareTakeover k v).arb.cfg.takeoverClass (compareTakeover k v) d =
          overtaken v.arb.cfg.takeoverClass v d := fun d => by
      have hs : (compareTakeover k v).arb.recs[d].stack = v.arb.recs[d].stack := by
        by_cases hd : d = k
        · rw [hd, hrecs]
        · rw [hrec d hd]
      simp only [overtaken, hs, h1, h2]
    intro t now
    change (l.foldl (fun s d => compareTakeover d s) (compareTakeover k v)).arb.slots = _ ∧ _
    refine ⟨i1.trans h2, i2.trans h1, i3.trans h3, fun d => (i4 d).trans ?_, i5.trans ?_⟩
    · rw [hover d]
      by_cases hd : d = k
      · subst hd
        rw [if_neg hk, if_pos (List.mem_cons_self ..)]; exact hrecs
      · rw [hrec d hd]; simp [hd, now, -Fin.getElem_fin]
    · rw [c2, List.flatMap_cons]
      simp only [List.append_assoc]
      congr 3
      apply List.flatMap_congr
      intro d hd
      have : d ≠ k := fun e => hk (e ▸ hd)
      rw [hrec d this, hover d]

/-- The takeover comparisons at the end of an event of the Notice Arbiter (R108): every display's flag follows
its top, and the signals the changes call for go in index order behind what the event sent. -/
theorem noticeEvent_effect (extra : Option NoticeIx) (act : State → State) (s : State) :
    let u := act s
    let now := overtaken u.arb.cfg.takeoverClass u
    let t := noticeEvent extra act s
    t.arb.slots = u.arb.slots ∧ t.arb.cfg = u.arb.cfg ∧ t.arb.order = u.arb.order ∧
      (∀ d : DisplayIx, t.arb.recs[d] = { u.arb.recs[d] with takeover := now d }) ∧
      t.bus =
        { u.bus with
          signals := u.bus.signals ++
            (List.finRange 16).flatMap fun d => takeoverMsgs u.arb.recs[d].takeover (now d) d } := by
  intro u now t
  obtain ⟨g1, g2, g3, g4, g5⟩ :=
    compareTakeovers_effect (List.finRange 16) (List.nodup_finRange 16) u
  have ht : t = settleDisplays s (settleNotices s extra
    ((List.finRange 16).foldl (fun s d => compareTakeover d s) u)) := rfl
  rw [ht]
  generalize (List.finRange 16).foldl (fun s d => compareTakeover d s) u = w at g1 g2 g3 g4 g5 ⊢
  simp only [settleDisplays_keeps, settleNotices_keeps]
  exact ⟨g1, g2, g3, fun d => (g4 d).trans (if_pos (List.mem_finRange d)), g5⟩

/-! ## What an event does before the comparisons -/

/-- Between `s` and `t` no display's state, floor, takeover flag or tag has changed at the Notice Arbiter, and
what has been sent the Display Controller is strip reports. -/
structure Quiet (s t : State) : Prop where
  cfg : t.arb.cfg = s.arb.cfg
  kept : ∀ d : DisplayIx, t.arb.recs[d].noticeState = s.arb.recs[d].noticeState ∧
    t.arb.recs[d].floor = s.arb.recs[d].floor ∧
    t.arb.recs[d].takeover = s.arb.recs[d].takeover ∧ t.arb.recs[d].tag = s.arb.recs[d].tag
  reports : t.bus.displayReports = s.bus.displayReports
  signals : ∃ l, t.bus.signals = s.bus.signals ++ l ∧ ∀ g ∈ l, ∃ d top, g = .strip d top

theorem Quiet.refl (s : State) : Quiet s s :=
  ⟨rfl, fun _ => ⟨rfl, rfl, rfl, rfl⟩, rfl, [], by simp, by simp⟩

theorem Quiet.trans {s t u : State} (h : Quiet s t) (h' : Quiet t u) : Quiet s u := by
  obtain ⟨l, hl, hs⟩ := h.signals
  obtain ⟨l', hl', hs'⟩ := h'.signals
  refine ⟨h'.cfg.trans h.cfg, fun d => ?_, h'.reports.trans h.reports, l ++ l', ?_, ?_⟩
  · obtain ⟨a, b, c, e⟩ := h.kept d
    obtain ⟨a', b', c', e'⟩ := h'.kept d
    exact ⟨a'.trans a, b'.trans b, c'.trans c, e'.trans e⟩
  · rw [hl', hl, List.append_assoc]
  · intro g hg
    rcases List.mem_append.1 hg with hg | hg
    · exact hs g hg
    · exact hs' g hg

theorem Quiet.foldl {α : Type} (g : State → α → State) (h : ∀ s a, Quiet s (g s a)) (l : List α)
    (s : State) : Quiet s (l.foldl g s) := by
  induction l generalizing s with
  | nil => exact .refl s
  | cons a l ih => exact (h s a).trans (ih (g s a))

theorem withArb_quiet (d : DisplayIx) (f : ArbRec → ArbRec) (s : State)
    (hf : ∀ a, (f a).noticeState = a.noticeState ∧ (f a).floor = a.floor ∧
      (f a).takeover = a.takeover ∧ (f a).tag = a.tag) : Quiet s (withArb d f s) := by
  refine ⟨rfl, fun j => ?_, rfl, [], by simp [withArb], by simp⟩
  simp only [withArb]
  by_cases hj : j = d
  · subst hj; rw [put_same]; exact hf _
  · rw [put_other _ _ _ _ hj]; exact ⟨rfl, rfl, rfl, rfl⟩

theorem setNotice_quiet (i : NoticeIx) (n : Notice) (s : State) : Quiet s (setNotice i n s) :=
  ⟨rfl, fun _ => ⟨rfl, rfl, rfl, rfl⟩, rfl, [], by simp [setNotice], by simp⟩

theorem reportStrip_quiet (d : DisplayIx) (s : State) : Quiet s (reportStrip d s) :=
  ⟨rfl, fun _ => ⟨rfl, rfl, rfl, rfl⟩, rfl, [.strip d (topNotice s d)], rfl, by simp⟩

theorem pushNotice_quiet (i : NoticeIx) (d : DisplayIx) (s : State) : Quiet s (pushNotice i d s) := by
  unfold pushNotice
  refine Quiet.trans ?_ (reportStrip_quiet d _)
  split
  · refine Quiet.trans (withArb_quiet d _ s ?_) (setNotice_quiet _ _ _)
    exact fun _ => ⟨rfl, rfl, rfl, rfl⟩
  · refine withArb_quiet d _ s ?_
    exact fun _ => ⟨rfl, rfl, rfl, rfl⟩

theorem removeAt_quiet (i : NoticeIx) (d : DisplayIx) (s : State) : Quiet s (removeAt i d s) := by
  simp only [removeAt]
  split
  · refine Quiet.trans (withArb_quiet d _ s ?_) (reportStrip_quiet d _)
    exact fun _ => ⟨rfl, rfl, rfl, rfl⟩
  · refine withArb_quiet d _ s ?_
    exact fun _ => ⟨rfl, rfl, rfl, rfl⟩

theorem removeEverywhere_quiet (i : NoticeIx) (s : State) : Quiet s (removeEverywhere i s) :=
  Quiet.foldl _ (fun s d => removeAt_quiet i d s) _ s

theorem concludeEnding_quiet (r : NoticeEnd) (i : NoticeIx) (s : State) :
    Quiet s (concludeEnding r i s) := by
  have hd : ∀ (d : DeskIx) (seq : Byte) (m : DeskMsg) (u : State), Quiet u (sendDesk d seq m u) := by
    intro d seq m u
    have h := sendDesk_raises d seq m u
    unfold SameButRaises at h
    have ha : (sendDesk d seq m u).arb = u.arb := by simp
    exact ⟨by rw [ha], fun j => by rw [ha]; exact ⟨rfl, rfl, rfl, rfl⟩, by rw [← h],
      [], by rw [← h]; simp, by simp⟩
  have hr : ∀ (w : Raiser) (c : FaultCause) (x : FaultSource) (b : List Byte) (u : State),
      Quiet u (raise w c x b u) := fun _ _ _ _ _ =>
    ⟨rfl, fun _ => ⟨rfl, rfl, rfl, rfl⟩, rfl, [], by simp [raise], by simp⟩
  have hq : ∀ (u : State) (x : Arbiter), x.cfg = u.arb.cfg → x.recs = u.arb.recs →
      Quiet u { u with arb := x } := fun u x h1 h2 =>
    ⟨h1, fun d => by
      have h : x.recs[d] = u.arb.recs[d] := by rw [h2]
      simp [h, -Fin.getElem_fin], rfl, [], by simp, by simp⟩
  unfold concludeEnding
  split
  · exact .refl s
  · refine Quiet.trans ?_ (hq _ _ rfl rfl)
    have h1 : ∀ n : Notice, Quiet s (match n.origin with
        | .desk d => sendDesk d 0 (.noticeEnded (noticeRef s i) n.topic r n.aired) s
        | .boxOffice | .schedule => s) := fun n => by
      split
      · exact hd _ _ _ _
      · exact .refl _
      · exact .refl _
    split
    · exact (h1 _).trans (hr _ _ _ _ _)
    · exact h1 _

/-- An evaluation pushes and ends notices, and changes no display's state, floor, flag or tag (R95). -/
theorem evaluate_quiet (fuel : Nat) (ds : List DisplayIx) (s : State) :
    Quiet s (evaluate fuel ds s) := by
  induction fuel generalizing ds s with
  | zero => exact .refl s
  | succ n ih =>
    cases ds with
    | nil => exact .refl s
    | cons d rest =>
      simp only [evaluate]
      split
      · exact ih _ _
      · split
        · exact ih _ _
        · split
          · exact ih _ _
          · split
            · exact ((removeEverywhere_quiet _ _).trans (ih _ _)).trans
                ((concludeEnding_quiet _ _ _).trans (ih _ _))
            · exact (pushNotice_quiet _ _ _).trans (ih _ _)

theorem enterPending_quiet (i : NoticeIx) (d : DisplayIx) (s : State) :
    Quiet s (enterPending i d s) := by
  refine withArb_quiet d _ s fun a => ?_
  split <;> exact ⟨rfl, rfl, rfl, rfl⟩

theorem placeNotice_quiet (i : NoticeIx) (s : State) : Quiet s (placeNotice i s) := by
  unfold placeNotice
  split
  · exact .refl s
  · split
    · exact setNotice_quiet _ _ _
    · exact ((setNotice_quiet _ _ _).trans (enterPending_quiet _ _ _)).trans (evaluate_quiet _ _ _)

theorem placeNotices_quiet (is : List NoticeIx) (s : State) : Quiet s (placeNotices is s) :=
  Quiet.foldl _ (fun s i => placeNotice_quiet i s) _ s

/-! ## Candidates and pushes -/

theorem classAt_eq (s : State) (i : NoticeIx) : classAt s i = priorityIn s i / 4 := by
  unfold classAt priorityIn noticeAt classOf
  cases s.arb.slots[i].notice <;> simp

theorem levelOf_eq (s : State) (d : DisplayIx) : levelOf s d = levelAt s d := by
  unfold levelOf levelAt
  cases s.arb.recs[d].stack with
  | nil => simp
  | cons i _ => simp [classAt_eq]

/-- The highest of a list has none before it as high and none after it higher (R94). -/
theorem highest_split (s : State) (l : List NoticeIx) (i : NoticeIx) :
    highest s l = some i ↔ ∃ a b, l = a ++ i :: b ∧ (∀ j ∈ a, priorityIn s j < priorityIn s i) ∧
      ∀ j ∈ b, priorityIn s j ≤ priorityIn s i := by
  have hp : ∀ j, priorityAt s j = priorityIn s j := fun _ => rfl
  induction l generalizing i with
  | nil => simp [highest]
  | cons x l ih =>
    simp only [highest]
    cases hh : highest s l with
    | none =>
      have hl : l = [] := by
        cases l with
        | nil => rfl
        | cons y l =>
          simp only [highest] at hh
          split at hh
          · simp at hh
          · split at hh <;> simp at hh
      subst hl
      simp only [Option.some.injEq]
      constructor
      · rintro rfl; exact ⟨[], [], rfl, by simp, by simp⟩
      · rintro ⟨a, b, h, -, -⟩
        cases a with
        | nil => simpa using congrArg List.head? h
        | cons y a => simp at h
    | some j =>
      obtain ⟨a, b, rfl, h1, h2⟩ := (ih j).1 hh
      simp only [hp]
      constructor
      · intro h
        by_cases hx : priorityIn s j ≤ priorityIn s x
        · rw [if_pos hx] at h
          obtain rfl : x = i := by simpa using h
          refine ⟨[], a ++ j :: b, rfl, by simp, fun k hk => ?_⟩
          rcases List.mem_append.1 hk with hk | hk
          · exact ((h1 k hk).trans_le hx).le
          · rcases List.mem_cons.1 hk with rfl | hk
            · exact hx
            · exact (h2 k hk).trans hx
        · rw [if_neg hx] at h
          obtain rfl : j = i := by simpa using h
          refine ⟨x :: a, b, rfl, fun k hk => ?_, h2⟩
          rcases List.mem_cons.1 hk with rfl | hk
          · omega
          · exact h1 k hk
      · rintro ⟨a', b', he, h3, h4⟩
        cases a' with
        | nil =>
          simp only [List.nil_append, List.cons.injEq] at he
          obtain ⟨rfl, rfl⟩ := he
          rw [if_pos (h4 j (by simp))]
        | cons y a' =>
          simp only [List.cons_append, List.cons.injEq] at he
          obtain ⟨rfl, he⟩ := he
          have hi : highest s (a ++ j :: b) = some i :=
            (ih i).2 ⟨a', b', he, fun k hk => h3 k (by simp [hk]), h4⟩
          rw [hh] at hi
          obtain rfl : j = i := by simpa using hi
          rw [if_neg (by have := h3 x (by simp); omega)]

/-- The candidate the model finds is the one R94 says. -/
theorem candidateOf_iff (s : State) (d : DisplayIx) (i : NoticeIx) :
    candidateOf s d = some i ↔ isCandidate s d i := by
  unfold candidateOf isCandidate
  rw [highest_split]
  have mem : ∀ k, (s.arb.recs[d].pending.contains k) = true ↔ k ∈ s.arb.recs[d].pending :=
    fun k => List.contains_iff_mem
  constructor
  · rintro ⟨a, b, h, h1, h2⟩
    obtain ⟨a', b', ho, rfl, hb⟩ := List.filter_eq_append_iff.1 h
    obtain ⟨c, e, rfl, hc, hi, rfl⟩ := List.filter_eq_cons_iff.1 hb
    refine ⟨(mem i).1 hi, a' ++ c, e, by simp [ho], fun j hj hp => ?_, fun j hj hp => ?_⟩
    · rcases List.mem_append.1 hj with hj | hj
      · exact h1 j (List.mem_filter.2 ⟨hj, (mem j).2 hp⟩)
      · exact absurd ((mem j).2 hp) (hc j hj)
    · exact h2 j (List.mem_filter.2 ⟨hj, (mem j).2 hp⟩)
  · rintro ⟨hi, a, b, ho, h1, h2⟩
    refine ⟨a.filter (s.arb.recs[d].pending.contains ·),
      b.filter (s.arb.recs[d].pending.contains ·), ?_, fun j hj => ?_, fun j hj => ?_⟩
    · rw [ho, List.filter_append, List.filter_cons, if_pos ((mem i).2 hi)]
    · obtain ⟨hj, hp⟩ := List.mem_filter.1 hj; exact h1 j hj ((mem j).1 hp)
    · obtain ⟨hj, hp⟩ := List.mem_filter.1 hj; exact h2 j hj ((mem j).1 hp)

/-- Conditions 1 to 3 as the model tests them (R95). -/
theorem mayPush_iff (s : State) (d : DisplayIx) (i : NoticeIx) :
    mayPush s d i = true ↔ passes s d i := by
  simp only [mayPush, passes, levelOf_eq, classAt_eq, stackCapacity, Bool.and_eq_true,
    decide_eq_true_eq, Bool.or_eq_true, List.isEmpty_iff, and_assoc]
  cases s.arb.recs[d].coverStart <;> simp <;> intros <;> exact decide_eq_true_iff

/-- Between `s` and `t` notices have been pushed at displays of `ds` that are ON, and nothing else has
happened to the table or the stacks (R98). -/
structure OnlyPushed (ds : List DisplayIx) (s t : State) : Prop where
  shows : t.shows = s.shows
  order : t.arb.order = s.arb.order
  notice : ∀ i : NoticeIx, t.arb.slots[i].gen = s.arb.slots[i].gen ∧
    t.arb.slots[i].notice.map (fun n => { n with aired := 0 }) =
      s.arb.slots[i].notice.map (fun n => { n with aired := 0 })
  holds : ∀ (d : DisplayIx) (i : NoticeIx), standsAt t i d ↔ standsAt s i d
  grows : ∀ d : DisplayIx, s.arb.recs[d].stack <:+ t.arb.recs[d].stack
  elsewhere : ∀ d : DisplayIx, d ∉ ds ∨ s.arb.recs[d].noticeState ≠ .on →
    t.arb.recs[d] = s.arb.recs[d]
  states : ∀ d : DisplayIx, t.arb.recs[d].noticeState = s.arb.recs[d].noticeState

theorem OnlyPushed.refl (ds : List DisplayIx) (s : State) : OnlyPushed ds s s :=
  ⟨rfl, rfl, fun _ => ⟨rfl, rfl⟩, fun _ _ => Iff.rfl, fun _ => List.suffix_rfl, fun _ _ => rfl,
    fun _ => rfl⟩

theorem OnlyPushed.trans {ds : List DisplayIx} {s t u : State} (h : OnlyPushed ds s t)
    (h' : OnlyPushed ds t u) : OnlyPushed ds s u :=
  ⟨h'.shows.trans h.shows, h'.order.trans h.order,
    fun i => ⟨(h'.notice i).1.trans (h.notice i).1, (h'.notice i).2.trans (h.notice i).2⟩,
    fun d i => (h'.holds d i).trans (h.holds d i),
    fun d => (h.grows d).trans (h'.grows d),
    fun d hd => (h'.elsewhere d (by rw [h.states d]; exact hd)).trans (h.elsewhere d hd),
    fun d => (h'.states d).trans (h.states d)⟩

theorem OnlyPushed.more {ds es : List DisplayIx} {s t : State} (h : OnlyPushed ds s t)
    (he : ∀ d ∈ ds, d ∈ es) : OnlyPushed es s t :=
  ⟨h.shows, h.order, h.notice, h.holds, h.grows, fun d hd => h.elsewhere d (by
    rcases hd with hd | hd
    · exact .inl fun hm => hd (he d hm)
    · exact .inr hd), h.states⟩

/-- A show that is gone stays the ground of no candidate while notices are only pushed. -/
theorem OnlyPushed.noneGone {ds : List DisplayIx} {s t : State} (h : OnlyPushed ds s t)
    (hs : NoneGone s) : NoneGone t := by
  intro i
  have hi := hs i
  have hn : (t.arb.slots[i].notice.map Notice.bound) = s.arb.slots[i].notice.map Notice.bound := by
    have := congrArg (Option.map Notice.bound) (h.notice i).2
    simpa [Function.comp_def] using this
  unfold boundGone noticeAt at *
  rw [h.shows]
  generalize s.arb.slots[i].notice = a at hi hn
  generalize t.arb.slots[i].notice = b at hn ⊢
  cases a <;> cases b <;> simp at hn hi ⊢
  rw [hn]; exact hi

/-- A candidate pushed (R98). -/
theorem pushNotice_only (i : NoticeIx) (d : DisplayIx) (s : State)
    (hi : i ∈ s.arb.recs[d].pending) (hd : s.arb.recs[d].noticeState = .on) :
    OnlyPushed [d] s (pushNotice i d s) ∧
      (pushNotice i d s).arb.recs[d] =
        { s.arb.recs[d] with
          pending := s.arb.recs[d].pending.filter (· != i)
          stack := i :: s.arb.recs[d].stack
          coverStart := some s.clock.partSeconds } := by
  have hrecs : (pushNotice i d s).arb.recs = put s.arb.recs d
      { s.arb.recs[d] with
        pending := s.arb.recs[d].pending.filter (· != i)
        stack := i :: s.arb.recs[d].stack
        coverStart := some s.clock.partSeconds } := by
    simp only [pushNotice, reportStrip, signalPanel]
    split <;> rfl
  have hother : ∀ j : DisplayIx, j ≠ d → (pushNotice i d s).arb.recs[j] = s.arb.recs[j] :=
    fun j hj => (congrArg (·[j]) hrecs).trans (put_other _ _ _ _ hj)
  have hsame := (congrArg (·[d]) hrecs).trans (put_same s.arb.recs d _)
  have hslots : (pushNotice i d s).arb.slots = match noticeAt s i with
      | some n => put s.arb.slots i
          { s.arb.slots[i] with notice := some { n with aired := sat16 (n.aired + 1) } }
      | none => s.arb.slots := by
    simp only [pushNotice, reportStrip, signalPanel]
    have : noticeAt (withArb d (fun a => { a with
      pending := a.pending.filter (· != i), stack := i :: a.stack,
      coverStart := some s.clock.partSeconds }) s) i = noticeAt s i := rfl
    rw [this]
    cases noticeAt s i <;> rfl
  refine ⟨⟨by simp, ?_, fun j => ?_, fun j k => ?_, fun j => ?_, fun j hj => ?_, fun j => ?_⟩, hsame⟩
  · simp only [pushNotice, reportStrip, signalPanel]
    split <;> rfl
  · rw [hslots]
    cases hn : noticeAt s i with
    | none => exact ⟨rfl, rfl⟩
    | some n =>
      by_cases hj : j = i
      · subst hj
        simp only [put_same]
        refine ⟨trivial, ?_⟩
        have : s.arb.slots[j].notice = some n := hn
        rw [this]; rfl
      · simp only [put_other _ _ _ _ hj]; exact ⟨trivial, trivial⟩
  · unfold standsAt
    by_cases hj : j = d
    · subst hj
      rw [hsame]
      simp only [List.mem_filter, bne_iff_ne, ne_eq, List.mem_cons]
      by_cases hk : k = i
      · subst hk; simp [hi, -Fin.getElem_fin]
      · simp [hk, -Fin.getElem_fin]
    · rw [hother j hj]
  · by_cases hj : j = d
    · subst hj; rw [hsame]; exact List.suffix_cons _ _
    · rw [hother j hj]
  · refine hother j fun e => ?_
    subst e
    rcases hj with hj | hj
    · simp at hj
    · exact hj hd
  · by_cases hj : j = d
    · subst hj; rw [hsame]
    · rw [hother j hj]

/-- Where no live notice is bound to a show that is gone, an evaluation only pushes (R95, R96). -/
theorem evaluate_only (fuel : Nat) (ds : List DisplayIx) (s : State) (hs : NoneGone s) :
    OnlyPushed ds s (evaluate fuel ds s) := by
  induction fuel generalizing ds s with
  | zero => exact .refl _ _
  | succ n ih =>
    cases ds with
    | nil => exact .refl _ _
    | cons d rest =>
      have more : ∀ k ∈ rest, k ∈ d :: rest := fun k hk => List.mem_cons_of_mem _ hk
      simp only [evaluate]
      split
      · exact (ih rest s hs).more more
      · rename_i hon
        split
        · exact (ih rest s hs).more more
        · rename_i i hc
          split
          · exact (ih rest s hs).more more
          · rw [if_neg (by simp [hs i])]
            have hp := ((candidateOf_iff s d i).1 hc).1
            have h := (pushNotice_only i d s hp (by simpa using hon)).1.more
              (es := d :: rest) (by simp)
            exact h.trans (ih _ _ (h.noneGone hs))

/-- A candidate that passes at an ON display is pushed at its evaluation (R95). -/
theorem evaluateAll_pushes (d : DisplayIx) (s : State) (i : NoticeIx) (hs : NoneGone s)
    (hd : s.arb.recs[d].noticeState = .on) (hc : isCandidate s d i) (hp : passes s d i) :
    i ∈ (evaluateAll [d] s).arb.recs[d].stack := by
  have e : evaluateAll [d] s = evaluate 3999 [d] (pushNotice i d s) := by
    unfold evaluateAll
    rw [show (4000 : Nat) = 3999 + 1 from rfl, evaluate]
    simp [hd, (candidateOf_iff s d i).2 hc, (mayPush_iff s d i).2 hp, hs i, -Fin.getElem_fin]
  obtain ⟨h, hr⟩ := pushNotice_only i d s hc.1 hd
  rw [e]
  refine (evaluate_only 3999 [d] _ (h.noneGone hs)).grows d |>.subset ?_
  rw [hr]; simp

end Sys2Proof.Machine
end

