-- ==== Sys2Proof/Laws/Mirror.lean ====
section
/-! SUPPORT. What a step can do to the mirror records: each shared operation either leaves a record's bytes,
its version and its queued write as they are, or names the record among those it owes a handing, or
places it with its version (R166, R167, R182). -/

namespace Sys2Proof.Machine

/-! ## Records and versions -/

/-- Two records never share a version. -/
theorem MirrorId.index_inj {a b : MirrorId} (h : a.index = b.index) : a = b := by
  have := congrArg Fin.val h
  cases a with
  | fault x => cases b with
    | fault y => cases x <;> cases y <;> simp_all [MirrorId.index]
    | _ j => cases x <;> simp [MirrorId.index] at this <;> omega
  | _ i =>
    cases b with
    | fault y => cases y <;> simp [MirrorId.index] at this <;> omega
    | _ j =>
      simp only [MirrorId.index] at this
      first
        | (congr 1; exact Fin.ext (by omega))
        | (exfalso; omega)

/-- A record's bytes rest on its own block alone. -/
theorem mirrorBody_congr {s t : State} (id : MirrorId) (h : t.shows = s.shows) (ha : t.arb = s.arb)
    (hf : t.air = s.air) (hd : t.displays = s.displays) (hr : t.stream = s.stream)
    (hu : t.faults = s.faults) : mirrorBody t id = mirrorBody s id := by
  cases id with
  | showRec i => simp only [mirrorBody, h]
  | hold i => simp only [mirrorBody, h]
  | feature i => simp only [mirrorBody, hf]
  | display i => unfold mirrorBody displayMirror noticeRef; rw [ha, hd, hr]
  | notice i => simp only [mirrorBody, ha]
  | fault x => cases x <;> simp only [mirrorBody, hu]

theorem mirrorBody_win (s : State) (w : WindowIf) (id : MirrorId) :
    mirrorBody { s with win := w } id = mirrorBody s id :=
  mirrorBody_congr id rfl rfl rfl rfl rfl rfl

theorem isQueued_iff (t : WriteTarget) (q : List WindowWrite) :
    isQueued t q = true ↔ ∃ x ∈ q, x.target = t := by
  simp [isQueued]

/-- The version and any queued write of record `id` are the same in `t` as in `s`. -/
structure Untouched (id : MirrorId) (s t : State) : Prop where
  version : t.win.versions[id.index] = s.win.versions[id.index]
  queue : ∀ x : WindowWrite, x.target = .mirror id → (x ∈ t.win.writeQ ↔ x ∈ s.win.writeQ)

theorem Untouched.isQueued {id : MirrorId} {s t : State} (h : Untouched id s t) :
    isQueued (.mirror id) t.win.writeQ = isQueued (.mirror id) s.win.writeQ := by
  rw [Bool.eq_iff_iff, isQueued_iff, isQueued_iff]
  exact exists_congr fun x => and_congr_left fun hx => h.queue x hx

theorem Untouched.nextVersion {id : MirrorId} {s t : State} (h : Untouched id s t) :
    nextVersion id t = nextVersion id s := by
  unfold Machine.nextVersion
  rw [h.isQueued, h.version]

theorem RecordPlaced.queued {id : MirrorId} {t : State} (h : RecordPlaced id t) :
    isQueued (.mirror id) t.win.writeQ = true := (isQueued_iff _ _).2 ⟨_, h, rfl⟩

/-- Between `s` and `t` the records of `D` may have changed and have not been handed; every other record is
as it was, or is placed as it stands in `t` with the version that one handing gives it (R167). -/
structure Mirrored (D : MirrorId → Prop) (s t : State) : Prop where
  valid : t.win.windowValid = s.win.windowValid
  base : t.win.windowBase = s.win.windowBase
  geometry : t.win.geometry = s.win.geometry
  record : s.win.windowValid = true → ∀ id,
    Untouched id s t ∧ (D id ∨ mirrorBody t id = mirrorBody s id) ∨
    ¬ D id ∧ RecordPlaced id t ∧ t.win.versions[id.index] = nextVersion id s

/-- What a step that owes nothing has done to a record whose bytes have changed. -/
theorem Mirrored.placed {s t : State} (h : Mirrored (fun _ => False) s t)
    (hv : s.win.windowValid = true) {id : MirrorId} (hb : mirrorBody t id ≠ mirrorBody s id) :
    RecordPlaced id t ∧ t.win.versions[id.index] = nextVersion id s := by
  rcases h.record hv id with ⟨-, hd | he⟩ | ⟨-, hp⟩
  · exact hd.elim
  · exact absurd he hb
  · exact hp

/-- A step that leaves the Window Interface's own side of the records as it is, and every record's bytes
outside `D`. -/
theorem Mirrored.of {D : MirrorId → Prop} {s t : State}
    (hv : t.win.windowValid = s.win.windowValid) (hb : t.win.windowBase = s.win.windowBase)
    (hg : t.win.geometry = s.win.geometry) (hn : t.win.versions = s.win.versions)
    (hq : ∀ (x : WindowWrite) (id : MirrorId), x.target = .mirror id →
      (x ∈ t.win.writeQ ↔ x ∈ s.win.writeQ))
    (h : ∀ id, D id ∨ mirrorBody t id = mirrorBody s id) : Mirrored D s t :=
  ⟨hv, hb, hg, fun _ id => .inl ⟨⟨by rw [hn], fun x => hq x id⟩, h id⟩⟩

theorem Mirrored.of_win {D : MirrorId → Prop} {s t : State} (hw : t.win = s.win)
    (h : ∀ id, D id ∨ mirrorBody t id = mirrorBody s id) : Mirrored D s t :=
  .of (by rw [hw]) (by rw [hw]) (by rw [hw]) (by rw [hw]) (fun _ _ _ => by rw [hw]) h

/-- A step that changes no block with a mirror record, and nothing of the Window Interface. -/
theorem Mirrored.blocks {D : MirrorId → Prop} {s t : State} (hw : t.win = s.win)
    (h : t.shows = s.shows) (ha : t.arb = s.arb) (hf : t.air = s.air) (hd : t.displays = s.displays)
    (hr : t.stream = s.stream) (hu : t.faults = s.faults) : Mirrored D s t :=
  .of_win hw fun id => .inr (mirrorBody_congr id h ha hf hd hr hu)

theorem Mirrored.refl (D : MirrorId → Prop) (s : State) : Mirrored D s s :=
  .of_win rfl fun _ => .inr rfl

theorem Mirrored.trans {D : MirrorId → Prop} {s t u : State} (h : Mirrored D s t)
    (h' : Mirrored D t u) : Mirrored D s u := by
  refine ⟨h'.valid.trans h.valid, h'.base.trans h.base, h'.geometry.trans h.geometry, fun hv id => ?_⟩
  rcases h.record hv id with ⟨hu, hb⟩ | ⟨hd, hp, hn⟩ <;>
    rcases h'.record (h.valid.trans hv) id with ⟨hu', hb'⟩ | ⟨hd', hp', hn'⟩
  · refine .inl ⟨⟨hu'.version.trans hu.version, fun x hx => (hu'.queue x hx).trans (hu.queue x hx)⟩, ?_⟩
    rcases hb with hb | hb
    · exact .inl hb
    · exact hb'.imp_right fun e => e.trans hb
  · exact .inr ⟨hd', hp', hn'.trans hu.nextVersion⟩
  · refine .inr ⟨hd, ?_, hu'.version.trans hn⟩
    unfold RecordPlaced at hp ⊢
    simp only [h'.base, h'.geometry, hb'.resolve_left hd, hu'.version]
    exact (hu'.queue _ rfl).2 hp
  · refine .inr ⟨hd, hp', hn'.trans ?_⟩
    rw [nextVersion, if_pos hp.queued, hn]

/-- A step taken after one that changes no block with a mirror record. -/
theorem Mirrored.after {D : MirrorId → Prop} {s t u : State} (h : Mirrored D t u) (hw : t.win = s.win)
    (hs : t.shows = s.shows) (ha : t.arb = s.arb) (hf : t.air = s.air) (hd : t.displays = s.displays)
    (hr : t.stream = s.stream) (hu : t.faults = s.faults) : Mirrored D s u :=
  (Mirrored.blocks hw hs ha hf hd hr hu).trans h

/-- Several steps of one kind, one after another. -/
theorem Mirrored.foldl {α : Type} {D : MirrorId → Prop} (g : State → α → State)
    (l : List α) (h : ∀ s, ∀ a ∈ l, Mirrored D s (g s a)) (s : State) : Mirrored D s (l.foldl g s) := by
  induction l generalizing s with
  | nil => exact .refl D s
  | cons a l ih =>
    exact (h s a (List.mem_cons_self ..)).trans (ih (fun s b hb => h s b (List.mem_cons_of_mem _ hb)) _)

/-- What handing a record does: it is placed with its version, and every other stays as it is (R167). -/
theorem handMirror_effect (id : MirrorId) (s : State) :
    (handMirror id s).win.windowValid = s.win.windowValid ∧
      (handMirror id s).win.windowBase = s.win.windowBase ∧
      (handMirror id s).win.geometry = s.win.geometry ∧
      (∀ j, mirrorBody (handMirror id s) j = mirrorBody s j) ∧
      (∀ j, j ≠ id → Untouched j s (handMirror id s)) ∧
      (s.win.windowValid = true →
        RecordPlaced id (handMirror id s) ∧
          (handMirror id s).win.versions[id.index] = nextVersion id s) := by
  by_cases hv : s.win.windowValid = true
  · obtain ⟨w, hw⟩ : ∃ w : WindowWrite, w = ⟨.mirror id,
        [(windowBase s + s.win.geometry.mirrorOffset + id.offset, mirrorBody s id),
          (windowBase s + s.win.geometry.mirrorOffset + id.offset + id.size - 2,
            leBytes 2 (nextVersion id s))], false⟩ := ⟨_, rfl⟩
    have e : handMirror id s = { s with win := { s.win with
        writeQ := placeIn w s.win.writeQ
        versions := put s.win.versions id.index (nextVersion id s) } } := by
      unfold handMirror; rw [if_pos hv, hw]
    rw [e]
    refine ⟨rfl, rfl, rfl, fun j => mirrorBody_win _ _ _, fun j hj => ⟨?_, fun x hx => ?_⟩,
      fun _ => ⟨?_, put_same _ _ _⟩⟩
    · exact put_other _ _ _ _ fun h => hj (MirrorId.index_inj h)
    · exact mem_placeIn_other (by rw [hx, hw]; exact fun h => hj (WriteTarget.mirror.inj h))
    · unfold RecordPlaced
      simp only [mirrorBody_win, put_same]
      have := mem_placeIn_self w s.win.writeQ
      rwa [hw] at this ⊢
  · have e : handMirror id s = s := by unfold handMirror; rw [if_neg hv]
    rw [e]
    exact ⟨rfl, rfl, rfl, fun _ => rfl, fun _ _ => ⟨rfl, fun _ _ => Iff.rfl⟩, fun h => absurd h hv⟩

/-- A record owed is owed no longer once it is handed. -/
theorem Mirrored.hand {D E : MirrorId → Prop} {s t : State} (h : Mirrored D s t) (id : MirrorId)
    (hd : ∀ j, D j → j = id ∨ E j) (he : ∀ j, E j → D j ∧ j ≠ id) :
    Mirrored E s (handMirror id t) := by
  obtain ⟨h1, h2, h3, hb, ho, hp⟩ := handMirror_effect id t
  refine ⟨h1.trans h.valid, h2.trans h.base, h3.trans h.geometry, fun hv j => ?_⟩
  obtain ⟨hp, hn⟩ := hp (h.valid.trans hv)
  by_cases hj : j = id
  · subst hj
    refine .inr ⟨fun x => (he j x).2 rfl, hp, hn.trans ?_⟩
    rcases h.record hv j with ⟨hu, -⟩ | ⟨-, hq, hv'⟩
    · exact hu.nextVersion
    · rw [nextVersion, if_pos hq.queued, hv']
  · have hu := ho j hj
    rcases h.record hv j with ⟨hu', hb'⟩ | ⟨hd', hp', hn'⟩
    · refine .inl ⟨⟨hu.version.trans hu'.version, fun x hx => (hu.queue x hx).trans (hu'.queue x hx)⟩, ?_⟩
      exact hb'.imp (fun x => (hd j x).resolve_left hj) fun x => (hb j).trans x
    · refine .inr ⟨fun x => hd' (he j x).1, ?_, hu.version.trans hn'⟩
      unfold RecordPlaced at hp' ⊢
      simp only [h2, h3, hb j, hu.version]
      exact (hu.queue _ rfl).2 hp'

/-- A record owed is owed no longer where its bytes are what they were. -/
theorem Mirrored.less {D E : MirrorId → Prop} {s t : State} (h : Mirrored D s t)
    (hd : ∀ j, D j → E j ∨ mirrorBody t j = mirrorBody s j) (he : ∀ j, E j → D j) :
    Mirrored E s t := by
  refine ⟨h.valid, h.base, h.geometry, fun hv j => ?_⟩
  rcases h.record hv j with ⟨hu, hb⟩ | ⟨hq, hp⟩
  · exact .inl ⟨hu, hb.elim (hd j) .inr⟩
  · exact .inr ⟨fun x => hq (he j x), hp⟩

/-- What handing several records does: each is placed with its version, and every other stays as it is
(R167). -/
theorem handAll_effect (ids : List MirrorId) (hn : ids.Nodup) (s : State)
    (hv : s.win.windowValid = true) :
    (∀ id ∈ ids, RecordPlaced id (handAll ids s) ∧
      (handAll ids s).win.versions[id.index] = nextVersion id s) ∧
    ∀ id, id ∉ ids → Untouched id s (handAll ids s) := by
  induction ids generalizing s with
  | nil => exact ⟨by simp, fun _ _ => ⟨rfl, fun _ _ => Iff.rfl⟩⟩
  | cons k l ih =>
    obtain ⟨hk, hl⟩ := List.nodup_cons.1 hn
    obtain ⟨h1, h2, h3, hb, ho, hp⟩ := handMirror_effect k s
    obtain ⟨hp, hv'⟩ := hp hv
    obtain ⟨i1, i2⟩ := ih hl (handMirror k s) (h1.trans hv)
    have e : handAll (k :: l) s = handAll l (handMirror k s) := rfl
    obtain ⟨q, v, hq⟩ := handAll_only l (handMirror k s)
    rw [e]
    refine ⟨fun id hid => ?_, fun id hid => ?_⟩
    · rcases List.mem_cons.1 hid with rfl | hid
      · have hu := i2 id hk
        refine ⟨?_, hu.version.trans hv'⟩
        have hq' := hu.queue _ (id := id) rfl |>.2 hp
        unfold RecordPlaced
        simp only [hu.version]
        rw [hq] at hq' ⊢
        simp only [mirrorBody_win]
        exact hq'
      · have hne : id ≠ k := fun h => hk (h ▸ hid)
        obtain ⟨a, b⟩ := i1 id hid
        exact ⟨a, b.trans (ho id hne).nextVersion⟩
    · have hu := i2 id fun h => hid (List.mem_cons_of_mem _ h)
      have hu' := ho id fun h => hid (h ▸ List.mem_cons_self ..)
      exact ⟨hu.version.trans hu'.version, fun x hx => (hu.queue x hx).trans (hu'.queue x hx)⟩

/-- Records of one kind settled one after another, each owed until its own turn, with what holds throughout
(`P`). -/
theorem Mirrored.settleAll {n : Nat} {s t : State} {E : MirrorId → Prop} (mk : Fin n → MirrorId)
    (inj : ∀ i j, mk i = mk j → i = j) (P : State → Prop) (g : State → Fin n → State)
    (hE : ∀ i, ¬ E (mk i))
    (hg : ∀ (D' E' : MirrorId → Prop) (i : Fin n) (u : State), P u → Mirrored D' s u →
      (∀ j, D' j → j = mk i ∨ E' j) → (∀ j, E' j → D' j ∧ j ≠ mk i) →
      Mirrored E' s (g u i) ∧ P (g u i))
    (h : Mirrored (fun j => E j ∨ ∃ i, j = mk i) s t) (hp : P t) :
    Mirrored E s ((List.finRange n).foldl g t) ∧ P ((List.finRange n).foldl g t) := by
  have key : ∀ (l : List (Fin n)), l.Nodup → ∀ u, P u →
      Mirrored (fun j => E j ∨ ∃ i ∈ l, j = mk i) s u →
      Mirrored E s (l.foldl g u) ∧ P (l.foldl g u) := by
    intro l
    induction l with
    | nil => exact fun _ u hp h => ⟨h.less (fun j hj => .inl (by simpa using hj)) fun _ => .inl, hp⟩
    | cons i l ih =>
      intro hl u hp h
      obtain ⟨hi, hl⟩ := List.nodup_cons.1 hl
      obtain ⟨h', hp'⟩ := hg _ (fun j => E j ∨ ∃ i ∈ l, j = mk i) i u hp h (by
        rintro j (hj | ⟨k, hk, rfl⟩)
        · exact .inr (.inl hj)
        · rcases List.mem_cons.1 hk with rfl | hk
          · exact .inl rfl
          · exact .inr (.inr ⟨k, hk, rfl⟩)) (by
        rintro j (hj | ⟨k, hk, rfl⟩)
        · exact ⟨.inl hj, fun e => hE i (e ▸ hj)⟩
        · exact ⟨.inr ⟨k, List.mem_cons_of_mem _ hk, rfl⟩, fun e => hi (inj _ _ e ▸ hk)⟩)
      exact ih hl _ hp' h'
  exact key _ (List.nodup_finRange n) t hp
    (h.less (fun j hj => .inl (hj.imp_right fun ⟨i, e⟩ => ⟨i, List.mem_finRange i, e⟩))
      fun j hj => hj.imp_right fun ⟨i, _, e⟩ => ⟨i, e⟩)

/-- The full write carries every record, once (R167). -/
theorem mem_allMirrors (id : MirrorId) : id ∈ allMirrors := by
  cases id with
  | fault x => cases x <;> simp [allMirrors]
  | _ i => simp [allMirrors]

theorem allMirrors_nodup : allMirrors.Nodup :=
  have h : (allMirrors.map fun id => id.index.val).Nodup := by decide +kernel
  List.Nodup.of_map _ h

/-- A lobby reset hands every record but the fault records (R167). -/
theorem mem_resetMirrors (id : MirrorId) : id ∈ resetMirrors ↔ ∀ sev, id ≠ .fault sev := by
  cases id <;> simp [resetMirrors]

theorem resetMirrors_nodup : resetMirrors.Nodup :=
  have h : (resetMirrors.map fun id => id.index.val).Nodup := by decide +kernel
  List.Nodup.of_map _ h

/-! ## The window, the desks and the entries -/

/-- A write placed that is no record's touches no record. -/
theorem placeWrite_mirrored {D : MirrorId → Prop} (w : WindowWrite) (s : State)
    (hw : ∀ id, w.target ≠ .mirror id) : Mirrored D s (placeWrite w s) := by
  rw [placeWrite_only]
  refine .of rfl rfl rfl rfl (fun x id hx => ?_) fun id => .inr (mirrorBody_win _ _ _)
  dsimp only
  split
  · exact mem_placeIn_other (by rw [hx]; exact (hw id).symm)
  · exact Iff.rfl

theorem placeAnchor_mirrored {D : MirrorId → Prop} (a : AnchorWord) (s : State) :
    Mirrored D s (placeAnchor a s) := placeWrite_mirrored _ _ fun _ h => nomatch h

/-- A change of the Window Interface's entry in flight, settings and settings events touches no record. -/
theorem setFlight_mirrored {D : MirrorId → Prop} (f : Option Flight) (c : Settings)
    (q : List (Owner × Settings)) (s : State) :
    Mirrored D s { s with win := { s.win with flight := f, cfg := c, settingsQ := q } } :=
  .of rfl rfl rfl rfl (fun _ _ _ => Iff.rfl) fun _ => .inr (mirrorBody_win _ _ _)

theorem finishWith_mirrored {D : MirrorId → Prop} (o : EntryOutcome) (s : State) :
    Mirrored D s (finishWith o s) := by
  unfold finishWith
  split
  · exact .refl D s
  · split
    · exact (setFlight_mirrored _ s.win.cfg s.win.settingsQ s).trans
        (placeWrite_mirrored _ _ fun _ h => nomatch h)
    · exact setFlight_mirrored none s.win.cfg s.win.settingsQ s

theorem finish_mirrored {D : MirrorId → Prop} (code : OutcomeCode) (n : Nat) (s : State) :
    Mirrored D s (finish code n s) := finishWith_mirrored _ _

theorem finishOpen_mirrored {D : MirrorId → Prop} (code : OutcomeCode) (s : State) :
    Mirrored D s (finishOpen code s) :=
  (finish_mirrored code _ { s with freeCount := s.freeCount + 1 }).after rfl rfl rfl rfl rfl rfl rfl

theorem sendDesk_mirrored {D : MirrorId → Prop} (d : DeskIx) (seq : Byte) (m : DeskMsg) (s : State) :
    Mirrored D s (sendDesk d seq m s) := by apply Mirrored.blocks <;> simp

theorem takeEntry_mirrored {D : MirrorId → Prop} (k : EntryKind) (act : Flight → State → State)
    (s : State) (h : ∀ f, Mirrored D s (act f s)) : Mirrored D s (takeEntry k act s) := by
  unfold takeEntry
  split
  · exact h _
  · exact .refl D s

theorem takeRequest_mirrored {D : MirrorId → Prop} (k : DeskKind) (act : IntakeEntry → State → State)
    (s : State) (h : ∀ e t, Mirrored D t (act e t)) : Mirrored D s (takeRequest k act s) := by
  unfold takeRequest
  split
  · exact (h _ _).after rfl rfl rfl rfl rfl rfl rfl
  · exact .refl D s

/-! ## The Show Table -/

/-- A step that leaves every show and hold outside `D`, and every other block with a mirror record. -/
theorem Mirrored.of_shows {D : MirrorId → Prop} {s t : State} (hw : t.win = s.win)
    (ha : t.arb = s.arb) (hf : t.air = s.air) (hd : t.displays = s.displays)
    (hr : t.stream = s.stream) (hu : t.faults = s.faults)
    (h : ∀ i : ShowIx, D (.showRec i) ∨ t.shows.recs[i] = s.shows.recs[i])
    (hh : ∀ k : HoldIx, D (.hold k) ∨ t.shows.holds[k] = s.shows.holds[k]) : Mirrored D s t := by
  refine .of_win hw fun id => ?_
  cases id with
  | showRec i => exact (h i).imp_right fun e => by simp only [mirrorBody, e]
  | hold k => exact (hh k).imp_right fun e => by simp only [mirrorBody, e]
  | feature i => right; simp only [mirrorBody, hf]
  | display i => right; unfold mirrorBody displayMirror noticeRef; rw [ha, hd, hr]
  | notice i => right; simp only [mirrorBody, ha]
  | fault x => right; cases x <;> simp only [mirrorBody, hu]

theorem setShow_mirrored {D : MirrorId → Prop} (i : ShowIx) (sh : ShowRec) (s : State)
    (hd : D (.showRec i)) : Mirrored D s (setShow i sh s) := by
  refine .of_shows rfl rfl rfl rfl rfl rfl (fun j => ?_) fun _ => .inr rfl
  by_cases hj : j = i
  · exact .inl (hj ▸ hd)
  · exact .inr (put_other _ _ _ _ hj)

theorem freeHold_mirrored {D : MirrorId → Prop} (k : HoldIx) (s : State) (hk : D (.hold k))
    (hd : ∀ h, holdAt s k = some h → D (.showRec h.showIx)) : Mirrored D s (freeHold k s) := by
  unfold freeHold
  split
  · exact .refl D s
  · rename_i h hh
    refine .of_shows rfl rfl rfl rfl rfl rfl (fun j => ?_) fun j => ?_
    · by_cases hj : j = h.showIx
      · exact .inl (hj ▸ hd h hh)
      · exact .inr (put_other _ _ _ _ hj)
    · by_cases hj : j = k
      · exact .inl (hj ▸ hk)
      · exact .inr (put_other _ _ _ _ hj)

/-- A hold freed and handed owes its show's record alone (R43). -/
theorem freeHold_handed {D : MirrorId → Prop} (k : HoldIx) (s : State) (hk : ¬ D (.hold k))
    (hd : ∀ h, holdAt s k = some h → D (.showRec h.showIx)) :
    Mirrored D s (handMirror (.hold k) (freeHold k s)) :=
  (freeHold_mirrored (D := fun j => j = .hold k ∨ D j) k s (.inl rfl) fun h e => .inr (hd h e)).hand _
    (fun _ => id) fun _ h => ⟨.inr h, fun e => hk (e ▸ h)⟩

theorem endHold_mirrored {D : MirrorId → Prop} (r : HoldEnd) (k : HoldIx) (s : State)
    (hk : ¬ D (.hold k)) (hd : ∀ h, holdAt s k = some h → D (.showRec h.showIx)) :
    Mirrored D s (endHold r k s) := by
  unfold endHold
  split
  · exact .refl D s
  · exact (freeHold_handed k s hk hd).trans (sendDesk_mirrored _ _ _ _)

/-- Ending a hold frees its slot and no other (R43). -/
theorem endHold_holdAt (r : HoldEnd) (k j : HoldIx) (s : State) :
    holdAt (endHold r k s) j = if j = k then none else holdAt s j := by
  cases hk : holdAt s k with
  | none =>
    have e : endHold r k s = s := by simp only [endHold, hk]
    rw [e]
    split
    · rename_i h; rw [h, hk]
    · rfl
  | some h =>
    have e := (endHold_effect r k s h.showIx (by rw [hk]; rintro _ ⟨⟩; rfl)).2.2.1 j
    unfold holdAt at e hk ⊢
    rw [e]
    by_cases hj : j = k
    · subst hj; rw [if_pos rfl, hk, if_pos ⟨rfl, rfl⟩]
    · rw [if_neg (fun x => hj x.1), if_neg hj]

theorem endHolds_mirrored {D : MirrorId → Prop} (r : HoldEnd) (l : List HoldIx) (s : State)
    (hk : ∀ k, ¬ D (.hold k)) (hd : ∀ k ∈ l, ∀ h, holdAt s k = some h → D (.showRec h.showIx)) :
    Mirrored D s (l.foldl (fun s k => endHold r k s) s) := by
  induction l generalizing s with
  | nil => exact .refl D s
  | cons k l ih =>
    refine (endHold_mirrored r k s (hk k) (hd k (List.mem_cons_self ..))).trans
      (ih _ fun j hj h e => ?_)
    rw [endHold_holdAt] at e
    split at e
    · cases e
    · exact hd j (List.mem_cons_of_mem _ hj) h e

/-- A closing owes the mirror writer its show's record alone (R17). -/
theorem closeShow_mirrored {D : MirrorId → Prop} (i : ShowIx) (prev : Band) (r : NoticeEnd) (s : State)
    (hk : ∀ k, ¬ D (.hold k)) (hd : D (.showRec i)) : Mirrored D s (closeShow i prev r s) := by
  unfold closeShow
  have h1 := endHolds_mirrored (closingHoldEnd r) (holdsOn s i) s hk fun k hk h e => by
    have : h.showIx = i := by simpa [e] using (List.mem_filter.1 hk).2
    exact this ▸ hd
  have h2 : ∀ t : State, Mirrored D t (sendArbiter (.closure i r) (retally i prev t)) := fun t =>
    (setShow_mirrored i _ t hd).trans (.blocks rfl rfl rfl rfl rfl rfl rfl)
  refine (h1.trans (h2 _)).trans ?_
  dsimp only
  split
  · exact (setShow_mirrored i _ _ hd).after rfl rfl rfl rfl rfl rfl rfl
  · exact .refl D _

theorem recompute_mirrored {D : MirrorId → Prop} (i : ShowIx) (before : ShowRec) (capture : List Byte)
    (s : State) (hd : D (.showRec i)) : Mirrored D s (recompute i before capture s) := by
  refine .of_shows (by simp) (by simp) (by simp) (by simp) (by simp) (by simp) (fun j => ?_) fun k => ?_
  · by_cases hj : j = i
    · exact .inl (hj ▸ hd)
    · right; rw [(recompute_effect _ _ _ _).1]; exact put_other _ _ _ _ hj
  · right; rw [(recompute_effect _ _ _ _).1]

/-- The end of an event that owes the record of show `i`: it is handed where it has changed (R1, R26). -/
theorem Mirrored.commit {D E : MirrorId → Prop} {s t : State} (h : Mirrored D s t)
    (fields : ShowRec → ShowRec → List ReportField) (i : ShowIx) (before : ShowRec)
    (hb : s.shows.recs[i] = before) (hd : ∀ j, D j → j = .showRec i ∨ E j)
    (he : ∀ j, E j → D j ∧ j ≠ .showRec i) : Mirrored E s (commitShowAs fields i before t) := by
  unfold commitShowAs
  dsimp only
  split
  · rename_i hc
    refine h.less (fun j hj => (hd j hj).symm.imp_right ?_) fun j hj => (he j hj).1
    rintro rfl
    simp only [mirrorBody, hc, hb]
  · refine (h.hand _ hd he).trans (.blocks ?_ ?_ ?_ ?_ ?_ ?_ ?_) <;> simp

/-- The end of an event for every show (R6, R19). -/
theorem commitShows_mirrored {s t : State} (fields : ShowRec → ShowRec → List ReportField)
    (h : Mirrored (fun j => ∃ i, j = .showRec i) s t) :
    Mirrored (fun _ => False) s (commitShows fields s.shows.recs t) :=
  (Mirrored.settleAll MirrorId.showRec (fun _ _ => MirrorId.showRec.inj) (fun _ => True)
    (fun u i => commitShowAs fields i s.shows.recs[i] u) (fun _ => id)
    (fun _ _ i _ _ h hd he => ⟨h.commit fields i _ rfl hd he, trivial⟩)
    (h.less (fun _ => .inl ∘ .inr) fun _ => Or.rec False.elim id) trivial).1

/-! ## The Feature Table -/

/-- A step that leaves every feature outside `D`, and every other block with a mirror record. -/
theorem Mirrored.of_air {D : MirrorId → Prop} {s t : State} (hw : t.win = s.win)
    (hs : t.shows = s.shows) (ha : t.arb = s.arb) (hd : t.displays = s.displays)
    (hr : t.stream = s.stream) (hu : t.faults = s.faults)
    (h : ∀ f : FeatureIx, D (.feature f) ∨
      featureMirror t.air.features[f] = featureMirror s.air.features[f]) : Mirrored D s t := by
  refine .of_win hw fun id => ?_
  cases id with
  | showRec i => right; simp only [mirrorBody, hs]
  | hold k => right; simp only [mirrorBody, hs]
  | feature i => exact h i
  | display i => right; unfold mirrorBody displayMirror noticeRef; rw [ha, hd, hr]
  | notice i => right; simp only [mirrorBody, ha]
  | fault x => right; cases x <;> simp only [mirrorBody, hu]

theorem setFeature_mirrored {D : MirrorId → Prop} (f : FeatureIx) (r : FeatureRec) (s : State)
    (hd : D (.feature f) ∨ featureMirror r = featureMirror s.air.features[f]) :
    Mirrored D s (setFeature f r s) := by
  refine .of_air rfl rfl rfl rfl rfl rfl fun j => ?_
  by_cases hj : j = f
  · subst hj
    refine hd.imp_right fun e => ?_
    rw [← e]; exact congrArg _ (put_same _ _ _)
  · exact .inr (congrArg _ (put_other _ _ _ _ hj))

theorem emptyFeature_mirrored {D : MirrorId → Prop} (f : FeatureIx) (s : State)
    (hd : D (.feature f)) : Mirrored D s (emptyFeature f s) :=
  (setFeature_mirrored f _ s (.inl hd)).trans
    (.of_air rfl rfl rfl rfl rfl rfl fun _ => .inr rfl)

/-- The end of an event that may have changed any feature (R110). -/
theorem settleFeatures_mirrored {s t : State} (h : Mirrored (fun j => ∃ f, j = .feature f) s t) :
    Mirrored (fun _ => False) s (settleFeatures s t) := by
  refine (Mirrored.settleAll MirrorId.feature (fun _ _ => MirrorId.feature.inj) (fun _ => True)
    (fun u f => settleFeature s f u) (fun _ => id) (fun D' E' f u _ h hd he => ⟨?_, trivial⟩)
    (h.less (fun _ => .inl ∘ .inr) fun _ => Or.rec False.elim id) trivial).1
  unfold settleFeature
  split
  · exact h.hand _ hd he
  · rename_i hc
    refine h.less (fun j hj => (hd j hj).symm.imp_right ?_) fun j hj => (he j hj).1
    rintro rfl
    simp only [mirrorBody, not_not.1 hc]

/-! ## The displays and the streams -/

/-- The reference of a display's top notice. -/
def topRef (s : State) (d : DisplayIx) : Option Nat :=
  s.arb.recs[d].stack.head?.map (noticeRef s)

/-- A display's record rests on these of its fields (R182). -/
theorem displayMirror_congr {s t : State} {d : DisplayIx} (h1 : t.displays.recs[d] = s.displays.recs[d])
    (h2 : t.arb.recs[d].stack = s.arb.recs[d].stack) (h3 : t.arb.recs[d].pending = s.arb.recs[d].pending)
    (h4 : t.arb.recs[d].takeover = s.arb.recs[d].takeover)
    (h5 : t.stream.recs[d].phase = s.stream.recs[d].phase)
    (h6 : t.stream.recs[d].underrunCount = s.stream.recs[d].underrunCount)
    (h7 : t.stream.links[d].dropped = s.stream.links[d].dropped) (h8 : topRef t d = topRef s d) :
    displayMirror t d = displayMirror s d := by
  unfold topRef at h8
  unfold displayMirror
  dsimp only
  rw [h8, h1, h2, h3, h4, h5, h6, h7]

/-- A step that changes the records of displays of `D` and their streams and links alone. -/
theorem Mirrored.of_displays {D : MirrorId → Prop} {s t : State} (hw : t.win = s.win)
    (hs : t.shows = s.shows) (ha : t.arb = s.arb) (hf : t.air = s.air) (hu : t.faults = s.faults)
    (h : ∀ d : DisplayIx, D (.display d) ∨ displayMirror t d = displayMirror s d) :
    Mirrored D s t := by
  refine .of_win hw fun id => ?_
  cases id with
  | showRec i => right; simp only [mirrorBody, hs]
  | hold k => right; simp only [mirrorBody, hs]
  | feature i => right; simp only [mirrorBody, hf]
  | display d => exact h d
  | notice i => right; simp only [mirrorBody, ha]
  | fault x => right; cases x <;> simp only [mirrorBody, hu]

/-- The end of an event that owes the record of display `d` (R92, R129, R145). -/
theorem Mirrored.settle {D E : MirrorId → Prop} {s t : State} (h : Mirrored D s t) (d : DisplayIx)
    (hr : s.arb.recs[d].stack = t.arb.recs[d].stack → topRef t d = topRef s d)
    (hd : ∀ j, D j → j = .display d ∨ E j) (he : ∀ j, E j → D j ∧ j ≠ .display d) :
    Mirrored E s (settleDisplay s d t) := by
  unfold settleDisplay
  split
  · exact h.hand _ hd he
  · rename_i hc
    refine h.less (fun j hj => (hd j hj).symm.imp_right ?_) fun j hj => (he j hj).1
    rintro rfl
    simp only [displayChanged, Bool.or_eq_true, not_or, bne_iff_ne, ne_eq, not_not] at hc
    obtain ⟨⟨⟨⟨⟨⟨h1, h2⟩, h3⟩, h4⟩, h5⟩, h6⟩, h7⟩ := hc
    exact displayMirror_congr h1.symm h2.symm h3.symm h4.symm h5.symm h6.symm h7.symm (hr h2)

/-- The end of an event at one display. -/
theorem settleDisplay_mirrored {s t : State} (d : DisplayIx) (ha : t.arb = s.arb)
    (h : Mirrored (fun j => j = .display d) s t) :
    Mirrored (fun _ => False) s (settleDisplay s d t) :=
  h.settle d (fun _ => by unfold topRef noticeRef; rw [ha]) (fun _ => .inl) fun _ => False.elim

/-- The end of an event that may have changed any display. -/
theorem settleDisplays_mirrored {s t : State}
    (hr : ∀ d : DisplayIx, s.arb.recs[d].stack = t.arb.recs[d].stack → topRef t d = topRef s d)
    (h : Mirrored (fun j => ∃ d, j = .display d) s t) :
    Mirrored (fun _ => False) s (settleDisplays s t) := by
  refine (Mirrored.settleAll MirrorId.display (fun _ _ => MirrorId.display.inj)
    (fun u => u.arb = t.arb) (fun u d => settleDisplay s d u) (fun _ => id)
    (fun D' E' d u hu h hd he => ⟨h.settle d ?_ hd he, by simpa using hu⟩)
    (h.less (fun _ => .inl ∘ .inr) fun _ => Or.rec False.elim id) rfl).1
  intro e
  have := hr d (by rw [e, hu])
  unfold topRef noticeRef at this ⊢
  rw [hu]; exact this

/-! ## The Notice Arbiter -/

/-- A slot that holds a notice, or stands on a display. -/
def Lives (s : State) (i : NoticeIx) : Prop :=
  s.arb.slots[i].notice ≠ none ∨ ∃ d, standsAt s i d

/-- Between `s` and `t` no slot comes to life, and none that lives in `t` has changed its generation: the
reference of a notice that stands on a display is what it was (R76, R79). -/
def KeepsRefs (s t : State) : Prop :=
  ∀ i, Lives t i → Lives s i ∧ t.arb.slots[i].gen = s.arb.slots[i].gen

/-- Between `s` and `t` no notice has come to stand at a display. -/
def NoneStands (s t : State) : Prop := ∀ i d, standsAt t i d → standsAt s i d

theorem KeepsRefs.trans {s t u : State} (h : KeepsRefs s t) (h' : KeepsRefs t u) : KeepsRefs s u :=
  fun i hi => ⟨(h i (h' i hi).1).1, (h' i hi).2.trans (h i (h' i hi).1).2⟩

theorem KeepsRefs.foldl {α : Type} (g : State → α → State) (l : List α)
    (h : ∀ s, ∀ a ∈ l, KeepsRefs s (g s a)) (s : State) : KeepsRefs s (l.foldl g s) := by
  induction l generalizing s with
  | nil => exact fun _ hi => ⟨hi, rfl⟩
  | cons a l ih =>
    exact (h s a (List.mem_cons_self ..)).trans (ih (fun s b hb => h s b (List.mem_cons_of_mem _ hb)) _)

theorem KeepsRefs.of_arb {s t : State} (h : t.arb = s.arb) : KeepsRefs s t := fun i hi => by
  unfold Lives standsAt at *
  rw [h] at hi ⊢
  exact ⟨hi, rfl⟩

theorem NoneStands.of_arb {s t : State} (h : t.arb = s.arb) : NoneStands s t := fun i d hi => by
  unfold standsAt at *
  rwa [h] at hi

/-- One arbitration record changed: what stands there after it lives before it. -/
theorem withArb_refs (d : DisplayIx) (f : ArbRec → ArbRec) (s : State)
    (h : ∀ i, i ∈ (f s.arb.recs[d]).pending ∨ i ∈ (f s.arb.recs[d]).stack → Lives s i) :
    KeepsRefs s (withArb d f s) := by
  intro i hi
  refine ⟨?_, rfl⟩
  rcases hi with hi | ⟨e, hi⟩
  · exact .inl hi
  · by_cases he : e = d
    · subst he
      refine h i ?_
      have := put_same s.arb.recs e (f s.arb.recs[e])
      unfold standsAt withArb at hi
      rwa [this] at hi
    · refine .inr ⟨e, ?_⟩
      have := put_other s.arb.recs d e (f s.arb.recs[d]) he
      unfold standsAt withArb at hi
      rwa [this] at hi

theorem withArb_stands (d : DisplayIx) (f : ArbRec → ArbRec) (s : State)
    (h : ∀ i, i ∈ (f s.arb.recs[d]).pending ∨ i ∈ (f s.arb.recs[d]).stack → standsAt s i d) :
    NoneStands s (withArb d f s) := by
  intro i e hi
  by_cases he : e = d
  · subst he
    refine h i ?_
    have := put_same s.arb.recs e (f s.arb.recs[e])
    unfold standsAt withArb at hi
    rwa [this] at hi
  · have := put_other s.arb.recs d e (f s.arb.recs[d]) he
    unfold standsAt withArb at hi
    rwa [this] at hi

/-- A notice record replaced, of a slot that lives. -/
theorem setNotice_refs (i : NoticeIx) (n : Notice) (s : State) (h : Lives s i) :
    KeepsRefs s (setNotice i n s) := by
  intro j hj
  by_cases e : j = i
  · subst e
    refine ⟨h, ?_⟩
    unfold setNotice
    dsimp only
    rw [put_same]
  · have := put_other s.arb.slots i j { s.arb.slots[i] with notice := some n } e
    unfold Lives standsAt setNotice at hj
    unfold Lives standsAt setNotice
    simp only [this] at hj ⊢
    exact ⟨hj, trivial⟩

/-- A notice removed from one display stands there no longer, and nothing else comes to stand (R99). -/
theorem removeAt_stands (i : NoticeIx) (d : DisplayIx) (s : State) :
    NoneStands s (removeAt i d s) ∧ ¬ standsAt (removeAt i d s) i d := by
  obtain ⟨c, hc⟩ : ∃ c : ArbRec → Option Nat, (removeAt i d s).arb = (withArb d (fun a => { a with
      pending := a.pending.filter (· != i), stack := a.stack.filter (· != i), coverStart := c a }) s).arb := by
    unfold removeAt
    dsimp only
    split
    · exact ⟨fun a => if a.stack.filter (· != i) = [] then none else some s.clock.partSeconds, rfl⟩
    · exact ⟨ArbRec.coverStart, rfl⟩
  constructor
  · intro j e h
    refine withArb_stands d _ s (fun k hk => ?_) j e ((NoneStands.of_arb hc) j e h)
    exact hk.imp (fun x => (List.mem_filter.1 x).1) fun x => (List.mem_filter.1 x).1
  · intro h
    have h := (NoneStands.of_arb hc) i d h
    unfold standsAt withArb at h
    dsimp only at h
    rw [put_same] at h
    simp at h

theorem removeAt_refs (i : NoticeIx) (d : DisplayIx) (s : State) : KeepsRefs s (removeAt i d s) := by
  intro j hj
  have hs : (removeAt i d s).arb.slots = s.arb.slots := by
    unfold removeAt; dsimp only; split <;> rfl
  rw [hs]
  refine ⟨hj.imp (fun h => hs ▸ h) fun ⟨e, h⟩ => ⟨e, (removeAt_stands i d s).1 j e h⟩, rfl⟩

/-- A notice removed from every display stands nowhere (R79). -/
theorem removeEverywhere_stands (i : NoticeIx) (s : State) :
    NoneStands s (removeEverywhere i s) ∧ ∀ d, ¬ standsAt (removeEverywhere i s) i d := by
  have key : ∀ (l : List DisplayIx) (t : State),
      NoneStands t (l.foldl (fun s d => removeAt i d s) t) ∧
        ∀ d ∈ l, ¬ standsAt (l.foldl (fun s d => removeAt i d s) t) i d := by
    intro l
    induction l with
    | nil => exact fun t => ⟨fun _ _ h => h, by simp⟩
    | cons d l ih =>
      intro t
      obtain ⟨a, b⟩ := ih (removeAt i d t)
      obtain ⟨a', b'⟩ := removeAt_stands i d t
      refine ⟨fun j e h => a' j e (a j e h), fun e he h => ?_⟩
      rcases List.mem_cons.1 he with rfl | he
      · exact b' (a _ _ h)
      · exact b e he h
  obtain ⟨a, b⟩ := key (holders s i) s
  refine ⟨a, fun d h => b d ?_ h⟩
  have := a i d h
  exact List.mem_filter.2 ⟨List.mem_finRange d, by
    simpa [holdsNotice, standsAt] using this⟩

theorem removeEverywhere_refs (i : NoticeIx) (s : State) : KeepsRefs s (removeEverywhere i s) :=
  KeepsRefs.foldl _ _ (fun s d _ => removeAt_refs i d s) s

/-- The end of an ending changes the slot and the order alone (R79). -/
theorem concludeEnding_arb (r : NoticeEnd) (i : NoticeIx) (s : State) :
    (concludeEnding r i s).arb = if noticeAt s i = none then s.arb else { s.arb with
      slots := put s.arb.slots i ⟨(s.arb.slots[i].gen + 1) % 256, none⟩
      order := s.arb.order.filter (· != i) } := by
  unfold concludeEnding
  split
  · rename_i h; rw [if_pos h]
  · rename_i n h
    rw [if_neg (by simp [h])]
    repeat' split
    all_goals simp

theorem concludeEnding_refs (r : NoticeEnd) (i : NoticeIx) (s : State) (h : ∀ d, ¬ standsAt s i d) :
    KeepsRefs s (concludeEnding r i s) ∧ NoneStands s (concludeEnding r i s) := by
  have e := concludeEnding_arb r i s
  by_cases hn : noticeAt s i = none
  · rw [if_pos hn] at e
    exact ⟨.of_arb e, .of_arb e⟩
  · rw [if_neg hn] at e
    have hst : NoneStands s (concludeEnding r i s) := fun j d hj => by
      unfold standsAt at *
      rwa [e] at hj
    refine ⟨fun j hj => ?_, hst⟩
    by_cases hji : j = i
    · subst hji
      rcases hj with hj | ⟨d, hj⟩
      · rw [e] at hj
        exact absurd (congrArg NoticeSlot.notice (put_same ..)) hj
      · exact absurd (hst j d hj) (h d)
    · have := put_other s.arb.slots i j ⟨(s.arb.slots[i].gen + 1) % 256, none⟩ hji
      rw [e]
      dsimp only
      rw [this]
      refine ⟨hj.imp (fun x => ?_) fun ⟨d, x⟩ => ⟨d, hst j d x⟩, rfl⟩
      rw [e] at x
      dsimp only at x
      rwa [this] at x

theorem pushNotice_refs (i : NoticeIx) (d : DisplayIx) (s : State) (h : i ∈ s.arb.recs[d].pending) :
    KeepsRefs s (pushNotice i d s) ∧ NoneStands s (pushNotice i d s) := by
  obtain ⟨u, hu⟩ : ∃ u, u = withArb d (fun a => { a with
      pending := a.pending.filter (· != i), stack := i :: a.stack
      coverStart := some s.clock.partSeconds }) s := ⟨_, rfl⟩
  have stand : ∀ j, j ∈ s.arb.recs[d].pending.filter (· != i) ∨ j ∈ i :: s.arb.recs[d].stack →
      standsAt s j d := by
    rintro j (hj | hj)
    · exact .inl (List.mem_filter.1 hj).1
    · rcases List.mem_cons.1 hj with rfl | hj
      · exact .inl h
      · exact .inr hj
  have h1 : KeepsRefs s u := hu ▸ withArb_refs d _ s fun j hj => .inr ⟨d, stand j hj⟩
  have h2 : NoneStands s u := hu ▸ withArb_stands d _ s stand
  unfold pushNotice
  rw [← hu]
  dsimp only
  split
  · rename_i n hn
    have hl : Lives u i := .inl (by rw [show u.arb.slots[i].notice = some n from hn]; simp)
    exact ⟨(h1.trans (setNotice_refs i _ u hl)).trans (.of_arb rfl), fun j e hj => h2 j e hj⟩
  · exact ⟨h1.trans (.of_arb rfl), fun j e hj => h2 j e hj⟩

/-- An evaluation pushes and ends notices: nothing comes to stand, and what lives keeps its reference
(R95 to R98). -/
theorem evaluate_refs (fuel : Nat) (ds : List DisplayIx) (s : State) :
    KeepsRefs s (evaluate fuel ds s) ∧ NoneStands s (evaluate fuel ds s) := by
  have refl : KeepsRefs s s ∧ NoneStands s s := ⟨.of_arb rfl, fun _ _ h => h⟩
  induction fuel generalizing ds s with
  | zero => exact refl
  | succ n ih =>
    have ih' : ∀ ds t, KeepsRefs t (evaluate n ds t) ∧ NoneStands t (evaluate n ds t) :=
      fun ds t => ih ds t ⟨.of_arb rfl, fun _ _ h => h⟩
    cases ds with
    | nil => exact refl
    | cons d rest =>
      simp only [evaluate]
      split
      · exact ih' _ _
      · split
        · exact ih' _ _
        · rename_i i hc
          split
          · exact ih' _ _
          · split
            · obtain ⟨a1, a2⟩ := removeEverywhere_stands i s
              obtain ⟨b1, b2⟩ := ih' (holders s i) (removeEverywhere i s)
              obtain ⟨c1, c2⟩ := concludeEnding_refs .showClosed i _ fun d h => a2 d (b2 i d h)
              obtain ⟨d1, d2⟩ := ih' (d :: rest) (concludeEnding .showClosed i
                (evaluate n (holders s i) (removeEverywhere i s)))
              exact ⟨(((removeEverywhere_refs i s).trans b1).trans c1).trans d1,
                fun j e h => a1 j e (b2 j e (c2 j e (d2 j e h)))⟩
            · obtain ⟨a1, a2⟩ := pushNotice_refs i d s ((candidateOf_iff s d i).1 hc).1
              obtain ⟨b1, b2⟩ := ih' (d :: rest) (pushNotice i d s)
              exact ⟨a1.trans b1, fun j e h => a2 j e (b2 j e h)⟩

theorem evaluateAll_refs (ds : List DisplayIx) (s : State) : KeepsRefs s (evaluateAll ds s) :=
  (evaluate_refs _ ds s).1

/-- A notice ended, after the displays that held it have been evaluated (R79). -/
theorem conclude_refs (r : NoticeEnd) (i : NoticeIx) (ds : List DisplayIx) (s : State) :
    KeepsRefs s (concludeEnding r i (evaluateAll ds (removeEverywhere i s))) := by
  obtain ⟨a1, a2⟩ := removeEverywhere_stands i s
  obtain ⟨b1, b2⟩ := evaluate_refs 4000 ds (removeEverywhere i s)
  exact ((removeEverywhere_refs i s).trans b1).trans
    (concludeEnding_refs r i _ fun d h => a2 d (b2 i d h)).1

theorem endNotice_refs (r : NoticeEnd) (i : NoticeIx) (s : State) : KeepsRefs s (endNotice r i s) := by
  unfold endNotice
  split
  · exact .of_arb rfl
  · exact conclude_refs r i _ s

theorem withdrawPending_refs (i : NoticeIx) (s : State) : KeepsRefs s (withdrawPending i s) := by
  intro j hj
  refine ⟨hj.imp id fun ⟨d, h⟩ => ⟨d, ?_⟩, rfl⟩
  have : (withdrawPending i s).arb.recs[d] = { s.arb.recs[d] with
      pending := s.arb.recs[d].pending.filter (· != i) } := Vector.getElem_map ..
  unfold standsAt at *
  rw [this] at h
  exact h.imp (fun x => (List.mem_filter.1 x).1) id

theorem endNotices_refs (r : NoticeEnd) (is : List NoticeIx) (s : State) :
    KeepsRefs s (endNotices r is s) :=
  (KeepsRefs.foldl _ _ (fun t i _ => withdrawPending_refs i t) s).trans
    (KeepsRefs.foldl (fun t i => concludeEnding r i (evaluateAll (holders s i) (removeEverywhere i t))) _
      (fun t i _ => conclude_refs r i _ t) _)

/-- What lives where a notice has entered a pending set lived before, but for that notice (R98, R102). -/
theorem enterPending_lives {i j : NoticeIx} {d : DisplayIx} {s : State}
    (h : Lives (enterPending i d s) j) : Lives s j ∨ j = i := by
  rcases h with h | ⟨e, h⟩
  · exact .inl (.inl h)
  · by_cases he : e = d
    · subst he
      unfold standsAt enterPending withArb at h
      dsimp only at h
      rw [put_same] at h
      split at h
      · exact .inl (.inr ⟨e, h⟩)
      · rcases h with h | h
        · rcases List.mem_append.1 h with h | h
          · exact .inl (.inr ⟨e, .inl h⟩)
          · exact .inr (List.mem_singleton.1 h)
        · exact .inl (.inr ⟨e, .inr h⟩)
    · unfold standsAt enterPending withArb at h
      dsimp only at h
      rw [put_other _ _ _ _ he] at h
      exact .inl (.inr ⟨e, h⟩)

theorem enterPending_refs (i : NoticeIx) (d : DisplayIx) (s : State) (h : Lives s i) :
    KeepsRefs s (enterPending i d s) := fun _ hj =>
  ⟨(enterPending_lives hj).elim id fun e => e ▸ h, rfl⟩

/-- Notices in use that enter pending sets, one after another. -/
theorem enterPendings_refs (l : List (NoticeIx × DisplayIx)) (s : State)
    (h : ∀ p ∈ l, s.arb.slots[p.1].notice ≠ none) :
    KeepsRefs s (l.foldl (fun s p => enterPending p.1 p.2 s) s) := by
  induction l generalizing s with
  | nil => exact .of_arb rfl
  | cons p l ih =>
    exact (enterPending_refs p.1 p.2 s (.inl (h p (List.mem_cons_self ..)))).trans
      (ih (enterPending p.1 p.2 s) fun q hq => h q (List.mem_cons_of_mem _ hq))

theorem placeNotice_refs (i : NoticeIx) (s : State) : KeepsRefs s (placeNotice i s) := by
  unfold placeNotice
  split
  · exact .of_arb rfl
  · rename_i n hn
    have hl : Lives s i := .inl (by rw [show s.arb.slots[i].notice = some n from hn]; simp)
    split
    · exact setNotice_refs i _ s hl
    · refine ((setNotice_refs i _ s hl).trans (enterPending_refs i _ _ (.inl ?_))).trans
        (evaluateAll_refs _ _)
      rw [show (setNotice i _ s).arb.slots[i] = _ from put_same ..]
      simp

theorem placeNotices_refs (is : List NoticeIx) (s : State) : KeepsRefs s (placeNotices is s) :=
  KeepsRefs.foldl _ _ (fun s i _ => placeNotice_refs i s) s

/-! ## The end of an event of the Notice Arbiter -/

/-- A step that changes the Notice Arbiter alone of the blocks with a mirror record. -/
theorem Mirrored.of_arb {s t : State} (hw : t.win = s.win) (hs : t.shows = s.shows)
    (hf : t.air = s.air) (hu : t.faults = s.faults) :
    Mirrored (fun j => (∃ d, j = .display d) ∨ ∃ i, j = .notice i) s t := by
  refine .of_win hw fun id => ?_
  cases id with
  | showRec i => right; simp only [mirrorBody, hs]
  | hold k => right; simp only [mirrorBody, hs]
  | feature i => right; simp only [mirrorBody, hf]
  | display d => exact .inl (.inl ⟨d, rfl⟩)
  | notice i => exact .inl (.inr ⟨i, rfl⟩)
  | fault x => right; cases x <;> simp only [mirrorBody, hu]

/-- An event of the Notice Arbiter hands every record it changed (R76, R92): a slot that stands at a
display after it must have had its generation before. -/
theorem noticeEvent_mirrored (extra : Option NoticeIx) (act : State → State) (s : State)
    (hw : (act s).win = s.win) (hs : (act s).shows = s.shows) (hf : (act s).air = s.air)
    (hu : (act s).faults = s.faults)
    (hg : ∀ i d, standsAt (act s) i d → (act s).arb.slots[i].gen = s.arb.slots[i].gen) :
    Mirrored (fun _ => False) s (noticeEvent extra act s) := by
  obtain ⟨u, hu'⟩ : ∃ u, u = act s := ⟨_, rfl⟩
  rw [← hu'] at hw hs hf hu hg
  obtain ⟨g1, -, -, g4, -⟩ := compareTakeovers_effect (List.finRange 16) (List.nodup_finRange 16) u
  obtain ⟨t, ht⟩ : ∃ t, t = (List.finRange 16).foldl (fun s d => compareTakeover d s) u := ⟨_, rfl⟩
  have e : noticeEvent extra act s = settleDisplays s (settleNotices s extra t) := by
    unfold noticeEvent; rw [← hu', ← ht]
  rw [e]
  rw [← ht] at g1 g4
  have h0 : Mirrored (fun j => (∃ d, j = .display d) ∨ ∃ i, j = .notice i) s t := by
    refine .of_arb ?_ ?_ ?_ ?_ <;> rw [ht] <;> simp [hw, hs, hf, hu]
  obtain ⟨h1, ha⟩ := Mirrored.settleAll MirrorId.notice (fun _ _ => MirrorId.notice.inj)
    (fun u => u.arb = t.arb) (fun u i => settleNotice s extra i u) (by simp)
    (fun D' E' i u hu h hd he => ⟨by
      unfold settleNotice
      split
      · exact h.hand _ hd he
      · rename_i hc
        refine h.less (fun j hj => (hd j hj).symm.imp_right ?_) fun j hj => (he j hj).1
        rintro rfl
        rw [not_or, not_not] at hc
        simp only [mirrorBody, hc.1], by simpa using hu⟩) h0 rfl
  have hst : (settleNotices s extra t).arb = t.arb := ha
  refine settleDisplays_mirrored (fun d hd => ?_) h1
  unfold topRef noticeRef
  rw [hst] at hd ⊢
  rw [← hd]
  cases hh : s.arb.recs[d].stack.head? with
  | none => simp only [Option.map_none]
  | some i =>
    have hm : i ∈ s.arb.recs[d].stack := List.mem_of_head? hh
    have hgen := hg i d (.inr (by
      have := g4 d
      rw [if_pos (List.mem_finRange d)] at this
      rw [hd, this] at hm
      exact hm))
    simp only [Option.map_some, g1, hgen]

/-- The same, where what the event does brings no slot to life. -/
theorem noticeEvent_of_refs (extra : Option NoticeIx) (act : State → State) (s : State)
    (hw : (act s).win = s.win) (hs : (act s).shows = s.shows) (hf : (act s).air = s.air)
    (hu : (act s).faults = s.faults) (h : KeepsRefs s (act s)) :
    Mirrored (fun _ => False) s (noticeEvent extra act s) :=
  noticeEvent_mirrored extra act s hw hs hf hu fun i d hi => (h i (.inr ⟨d, hi⟩)).2

end Sys2Proof.Machine
end

