-- ==== Sys2Proof/Laws/PerInstr.lean ====
section
/-! SUPPORT. Facts of every command as syntax, one lemma per constructor. -/

namespace Sys2Proof.Laws.Formed

/-- The rows whose operands the manual restricts: the CONTROL writes by their bits (R160), the other
register writes by their offset, and the completed reads by their length (R146). -/
def restricted : Instr → Bool
  | .lobbyReset _ | .start _ | .stop _ | .recovery _ | .alertAEn _ | .alertBEn _ | .registerWriteOther _ _
  | .anchorReadDone _ _ | .publishMarkReadDone _ _ | .entryReadDone _ _ | .textReadDone _ _
  | .headerReadDone _ _ | .chunkListPieceDone _ _ | .burstDone _ _ => true
  | _ => false

/-- A command of a row that is not restricted is well-formed whatever its operands. -/
def Statement (c : Instr) : Prop := restricted c = false → c.wellFormed = true

theorem powerOnReset : ∀ a, Statement (.powerOnReset a) := fun _ => fun _ => rfl
theorem lobbyReset : ∀ a, Statement (.lobbyReset a) := fun _ => fun h => nomatch h
theorem start : ∀ a, Statement (.start a) := fun _ => fun h => nomatch h
theorem stop : ∀ a, Statement (.stop a) := fun _ => fun h => nomatch h
theorem recovery : ∀ a, Statement (.recovery a) := fun _ => fun h => nomatch h
theorem alertAEn : ∀ a, Statement (.alertAEn a) := fun _ => fun h => nomatch h
theorem alertBEn : ∀ a, Statement (.alertBEn a) := fun _ => fun h => nomatch h
theorem statusWrite : ∀ a, Statement (.statusWrite a) := fun _ => fun _ => rfl
theorem attention : ∀ a, Statement (.attention a) := fun _ => fun _ => rfl
theorem windowLow : ∀ a, Statement (.windowLow a) := fun _ => fun _ => rfl
theorem windowHigh : ∀ a, Statement (.windowHigh a) := fun _ => fun _ => rfl
theorem registerWriteOther : ∀ a b, Statement (.registerWriteOther a b) :=
  fun _ _ => fun h => nomatch h
theorem anchorReadDone : ∀ a b, Statement (.anchorReadDone a b) := fun _ _ => fun h => nomatch h
theorem pollTimerExpiry : Statement .pollTimerExpiry := fun _ => rfl
theorem publishMarkReadDone : ∀ a b, Statement (.publishMarkReadDone a b) :=
  fun _ _ => fun h => nomatch h
theorem entryReadDone : ∀ a b, Statement (.entryReadDone a b) := fun _ _ => fun h => nomatch h
theorem textReadDone : ∀ a b, Statement (.textReadDone a b) := fun _ _ => fun h => nomatch h
theorem controlReadFailed : ∀ a, Statement (.controlReadFailed a) := fun _ => fun _ => rfl
theorem controlReadRetryExpiry : ∀ a, Statement (.controlReadRetryExpiry a) := fun _ => fun _ => rfl
theorem windowWriteSent : Statement .windowWriteSent := fun _ => rfl
theorem windowWriteFailed : Statement .windowWriteFailed := fun _ => rfl
theorem configure : Statement .configure := fun _ => rfl
theorem settingsEvent : ∀ a, Statement (.settingsEvent a) := fun _ => fun _ => rfl
theorem mark : Statement .mark := fun _ => rfl
theorem clockSet : Statement .clockSet := fun _ => rfl
theorem tick : Statement .tick := fun _ => rfl
theorem scheduleRequest : Statement .scheduleRequest := fun _ => rfl
theorem withdrawRequest : Statement .withdrawRequest := fun _ => rfl
theorem catchUp : Statement .catchUp := fun _ => rfl
theorem showLoad : Statement .showLoad := fun _ => rfl
theorem showAmend : Statement .showAmend := fun _ => rfl
theorem showHalt : Statement .showHalt := fun _ => rfl
theorem showResume : Statement .showResume := fun _ => rfl
theorem showCancel : Statement .showCancel := fun _ => rfl
theorem showDrop : Statement .showDrop := fun _ => rfl
theorem sale : Statement .sale := fun _ => rfl
theorem refund : Statement .refund := fun _ => rfl
theorem block : Statement .block := fun _ => rfl
theorem hold : Statement .hold := fun _ => rfl
theorem extend : Statement .extend := fun _ => rfl
theorem release : Statement .release := fun _ => rfl
theorem ask : Statement .ask := fun _ => rfl
theorem holdExpiry : Statement .holdExpiry := fun _ => rfl
theorem deskByte : ∀ a b, Statement (.deskByte a b) := fun _ _ => fun _ => rfl
theorem lineIdle : ∀ a, Statement (.lineIdle a) := fun _ => fun _ => rfl
theorem intakeHand : Statement .intakeHand := fun _ => rfl
theorem pauseRefreshExpiry : Statement .pauseRefreshExpiry := fun _ => rfl
theorem deskTxDone : ∀ a, Statement (.deskTxDone a) := fun _ => fun _ => rfl
theorem deskPort : Statement .deskPort := fun _ => rfl
theorem noticePost : Statement .noticePost := fun _ => rfl
theorem deskNoticePost : Statement .deskNoticePost := fun _ => rfl
theorem autoNoticeRequest : Statement .autoNoticeRequest := fun _ => rfl
theorem noticeClear : Statement .noticeClear := fun _ => rfl
theorem deskNoticeClear : Statement .deskNoticeClear := fun _ => rfl
theorem clearRequest : Statement .clearRequest := fun _ => rfl
theorem closureReport : Statement .closureReport := fun _ => rfl
theorem noticeExpiry : Statement .noticeExpiry := fun _ => rfl
theorem enabledReport : Statement .enabledReport := fun _ => rfl
theorem linkUpReport : Statement .linkUpReport := fun _ => rfl
theorem linkLostReport : Statement .linkLostReport := fun _ => rfl
theorem drainingReport : Statement .drainingReport := fun _ => rfl
theorem offReport : Statement .offReport := fun _ => rfl
theorem floorReport : Statement .floorReport := fun _ => rfl
theorem coverTimerExpiry : ∀ a, Statement (.coverTimerExpiry a) := fun _ => fun _ => rfl
theorem featureLoad : Statement .featureLoad := fun _ => rfl
theorem featureWeight : Statement .featureWeight := fun _ => rfl
theorem featureDrop : Statement .featureDrop := fun _ => rfl
theorem airtimeReset : Statement .airtimeReset := fun _ => rfl
theorem headerReadDone : ∀ a b, Statement (.headerReadDone a b) := fun _ _ => fun h => nomatch h
theorem chunkListPieceDone : ∀ a b, Statement (.chunkListPieceDone a b) :=
  fun _ _ => fun h => nomatch h
theorem validationReadFailed : ∀ a, Statement (.validationReadFailed a) := fun _ => fun _ => rfl
theorem validationRetryExpiry : ∀ a, Statement (.validationRetryExpiry a) := fun _ => fun _ => rfl
theorem decision : ∀ a, Statement (.decision a) := fun _ => fun _ => rfl
theorem releaseReport : ∀ a, Statement (.releaseReport a) := fun _ => fun _ => rfl
theorem displaySetup : Statement .displaySetup := fun _ => rfl
theorem displayEnable : Statement .displayEnable := fun _ => rfl
theorem displayDisable : Statement .displayDisable := fun _ => rfl
theorem linkUp : ∀ a, Statement (.linkUp a) := fun _ => fun _ => rfl
theorem linkDown : ∀ a, Statement (.linkDown a) := fun _ => fun _ => rfl
theorem dwellExpiry : ∀ a, Statement (.dwellExpiry a) := fun _ => fun _ => rfl
theorem decisionReply : ∀ a, Statement (.decisionReply a) := fun _ => fun _ => rfl
theorem endReport : Statement .endReport := fun _ => rfl
theorem showChangedReport : Statement .showChangedReport := fun _ => rfl
theorem takeoverBegin : Statement .takeoverBegin := fun _ => rfl
theorem takeoverEnd : Statement .takeoverEnd := fun _ => rfl
theorem stripReport : Statement .stripReport := fun _ => rfl
theorem startRequest : Statement .startRequest := fun _ => rfl
theorem holdRequest : Statement .holdRequest := fun _ => rfl
theorem resumeRequest : Statement .resumeRequest := fun _ => rfl
theorem endRequest : Statement .endRequest := fun _ => rfl
theorem drainRequest : Statement .drainRequest := fun _ => rfl
theorem abandonRequest : Statement .abandonRequest := fun _ => rfl
theorem fetchGrant : Statement .fetchGrant := fun _ => rfl
theorem burstDone : ∀ a b, Statement (.burstDone a b) := fun _ _ => fun h => nomatch h
theorem burstFailed : ∀ a, Statement (.burstFailed a) := fun _ => fun _ => rfl
theorem burstRetryExpiry : ∀ a, Statement (.burstRetryExpiry a) := fun _ => fun _ => rfl
theorem pacingMillisecond : Statement .pacingMillisecond := fun _ => rfl
theorem send : ∀ a, Statement (.send a) := fun _ => fun _ => rfl
theorem underrunLimit : ∀ a, Statement (.underrunLimit a) := fun _ => fun _ => rfl
theorem panelTxDone : ∀ a, Statement (.panelTxDone a) := fun _ => fun _ => rfl
theorem faultRaise : ∀ a, Statement (.faultRaise a) := fun _ => fun _ => rfl
theorem faultClear : Statement .faultClear := fun _ => rfl

end Sys2Proof.Laws.Formed
end

