-- ==== Sys2Proof/Tests/Slice0.lean ====
section
/-! SUPPORT. The model's own tests: the well-formedness smoke tests, one-step checks against the manual's
worked sequences, and for every statement with hypotheses the witnesses that meet them. -/

namespace Sys2Proof.Tests

set_option Elab.async false

open Sys2Proof Sys2Proof.Machine

/-! ## Helpers -/

/-- The state a command leaves, or the state it found where it stops. -/
def after (c : Instr) (s : State) : State :=
  match exec c s with
  | .next t => t
  | .fault _ | .refused _ => s

/-- A command answers a next state. -/
def runs (c : Instr) (s : State) : Bool :=
  match exec c s with
  | .next _ => true
  | .fault _ | .refused _ => false

/-- The part RUNNING on a window of 4 MiB with a journal of 16 entries at offset 256. -/
def running : State :=
  { ({} : State) with
    win := { runBit := true, runState := .running, windowValid := true, startDone := true,
             geometry := ⟨4194304, 256, 16, 4096⟩ } }

/-- An entry's 64 bytes from its kind code and its body. -/
def entryBytes (kind : Nat) (body : List Byte) : List Byte :=
  BitVec.ofNat 8 kind :: List.replicate 11 0 ++ padTo 52 body

/-- An entry handed to its owner. -/
def handed (kind : Nat) (body : List Byte) : Flight :=
  { slot := 0, phase := .handed, bytes := entryBytes kind body }

/-- A state with an entry handed to its owner. -/
def give (kind : Nat) (body : List Byte) (s : State) : State :=
  { s with win := { s.win with flight := some (handed kind body) } }

/-- A request in hand from `d`, whose port is ENABLED. -/
def ask (d : DeskIx) (k : DeskKind) (body : List Byte) (s : State) : State :=
  { s with
    desks := { s.desks with
      inHand := some ⟨d, k, 9, body⟩, ports := put s.desks.ports d { state := .enabled } } }

/-- A state with a show record. -/
def withShowRec (i : ShowIx) (sh : ShowRec) (s : State) : State := setShow i sh s

/-- A state with a read in slot 0. -/
def reading (id : ReadId) (addr len : Nat) (s : State) : State :=
  { s with reads := { s.reads with slots := put s.reads.slots 0 (some ⟨id, addr, len, false⟩) } }

/-- The outcome of the entry in flight, as code and detail. -/
def outcome (s : State) : Option (Nat × Nat) :=
  (s.win.flight.bind (·.outcome)).map fun o => (o.code.code, o.detail)

/-- avail, band code, seats_shown and plus_marker of a show. -/
def board (s : State) (i : ShowIx) : Nat × Nat × Nat × Bool :=
  let sh := s.shows.recs[i]
  (sh.avail, sh.band.code, sh.seatsShown, sh.plusMarker)

/-- Show 5 of "A house of 180 seats" with counts, as its last recomputation left it. -/
def house (sold held blocked : Nat) (prev : Band) : ShowRec :=
  tally {} prev
    { state := .selling, showCode := 55, start := 80000, lateWindow := 600, capacity := 180,
      flags := ⟨true, false, true, false, false⟩, sold := sold, held := held, blocked := blocked }

/-! ## Well-formed commands -/

theorem test_wf_lobbyReset : (Instr.lobbyReset 0x1#32).wellFormed = false := by decide
theorem test_wf_start : (Instr.start 0x0#32).wellFormed = false := by decide
theorem test_wf_start_reset : (Instr.start 0x3#32).wellFormed = false := by decide
theorem test_wf_stop : (Instr.stop 0x1#32).wellFormed = false := by decide
theorem test_wf_recovery : (Instr.recovery 0x0#32).wellFormed = false := by decide
theorem test_wf_alertA : (Instr.alertAEn 0x6#32).wellFormed = false := by decide
theorem test_wf_alertB : (Instr.alertBEn 0xA#32).wellFormed = false := by decide
theorem test_wf_registerWriteOther :
    (Instr.registerWriteOther 0x0C#12 0#32).wellFormed = false := by decide
theorem test_wf_anchorReadDone :
    (Instr.anchorReadDone 0 (List.replicate 255 0)).wellFormed = false := by decide +kernel
theorem test_wf_publishMarkReadDone :
    (Instr.publishMarkReadDone 0 [1, 2, 3]).wellFormed = false := by decide
theorem test_wf_entryReadDone :
    (Instr.entryReadDone 0 (List.replicate 63 0)).wellFormed = false := by decide +kernel
theorem test_wf_textReadDone : (Instr.textReadDone 0 []).wellFormed = false := by decide
theorem test_wf_headerReadDone :
    (Instr.headerReadDone 0 (List.replicate 31 0)).wellFormed = false := by decide +kernel
theorem test_wf_chunkListPieceDone :
    (Instr.chunkListPieceDone 0 (List.replicate 17 0)).wellFormed = false := by decide +kernel
theorem test_wf_burstDone : (Instr.burstDone 0 []).wellFormed = false := by decide

/-- A term that is no command is refused by name and changes nothing. -/
theorem test_ill_formed_is_refused :
    runs (.textReadDone 0 []) running = false ∧ runs (.start 0x0#32) running = false := by
  decide +kernel

/-- No row of the table has bits, so no word spells a command. -/
theorem test_decode_none : decodeTableWord 0 0 = none ∧ decodeTableWord 32 5 = none := by decide

/-! ## CRC, LFSR, layouts -/

/-- The check value of the CRC of The Desk Line, over "123456789". -/
theorem test_crc_check :
    crc16 [0x31, 0x32, 0x33, 0x34, 0x35, 0x36, 0x37, 0x38, 0x39] = 0x29B1#16 := by decide +kernel

/-- The first step of the LFSR from its seed (R147). -/
theorem test_lfsr_first_step : lfsrStep 0xACE1#16 = 0x5670#16 := by decide +kernel

/-- The SALE entry of Record and Frame Formats: show 14, present 1, seats 4, reference 0x0C02. -/
theorem test_sale_layout :
    readSaleBody (entryBody (entryBytes 9 [14, 1, 4, 0, 0x02, 0x0C])) = ⟨14, 1, 4, 0x0C02⟩ := by
  decide +kernel

/-- The addressing example of Notices and Their Addressing: CLUSTER 0x33 and FLAT 0x02. -/
theorem test_addressing :
    matchesTarget ⟨.cluster, 0x33#8⟩ 0 0x31#8 = true ∧
      matchesTarget ⟨.cluster, 0x33#8⟩ 2 0x34#8 = false ∧
      matchesTarget ⟨.cluster, 0x54#8⟩ 3 0x52#8 = false ∧
      matchesTarget ⟨.flat, 0x02#8⟩ 3 0x52#8 = true ∧
      matchesTarget ⟨.physical, 2#8⟩ 2 0x34#8 = true := by decide +kernel

/-! ## Seat tally: "A house of 180 seats", "An oversell and its unwinding" -/

theorem test_sale_150 :
    board (after .sale (give 9 [5, 0, 150, 0] (withShowRec 5 (house 0 0 0 .openHouse) running))) 5 =
      (30, 2, 30, true) := by decide +kernel

theorem test_block_2 :
    board (after .block (give 11 [5, 0, 2, 0] (withShowRec 5 (house 150 0 0 .few) running))) 5 =
      (28, 2, 20, true) := by decide +kernel

theorem test_hold_4 :
    board (after .hold (ask 4 .hold [5, 4] (withShowRec 5 (house 150 6 2 .few) running))) 5 =
      (18, 2, 18, false) := by decide +kernel

theorem test_refund_leaves_last :
    board (after .refund (give 10 [5, 0, 2, 0] (withShowRec 5 (house 155 10 2 .last) running))) 5 =
      (15, 2, 15, false) := by decide +kernel

theorem test_refund_keeps_full :
    board (after .refund (give 10 [5, 0, 1, 0] (withShowRec 5 (house 168 10 2 .full) running))) 5 =
      (1, 4, 0, false) := by decide +kernel

theorem test_oversell :
    let t := after .sale (give 9 [5, 0, 5, 0] (withShowRec 5 (house 166 10 2 .last) running))
    outcome t = some (1, 0) ∧ t.shows.recs[5].oversold = true ∧
      t.bus.raises.map (fun x => x.2.source) = [.showSlot 5] := by decide +kernel

/-! ## Airtime: "Ten decisions", "The no-repeat rule" -/

/-- Three READY features of the worked sequence, with their credits and weights set so that e is 6, 3
and 1: each is linked to one SELLING show with boost 1. -/
def threeFeatures (a b c : Int) : State :=
  let feature (w : Nat) (credit : Int) : FeatureRec :=
    { state := .ready, weight := w, credit := credit }
  let linked (f : FeatureIx) : ShowRec :=
    { state := .selling, start := 100000, capacity := 10, feature := some f }
  let s := setFeature 0 (feature 6 a) (setFeature 1 (feature 3 b) (setFeature 2 (feature 1 c) running))
  withShowRec 0 (linked 0) (withShowRec 1 (linked 1) (withShowRec 2 (linked 2) s))

/-- A decision request of display `d` waits. -/
def asking (d : DisplayIx) (s : State) : State :=
  { s with bus := { s.bus with decisions := [⟨d, 1, 7⟩] } }

/-- The credits of the three features. -/
def credits (s : State) : Int × Int × Int :=
  (s.air.features[0].credit, s.air.features[1].credit, s.air.features[2].credit)

theorem test_decision_2 :
    let t := after (.decision 1) (asking 1 (threeFeatures (-4) 3 1))
    credits t = (2, -4, 2) ∧ t.bus.replies = [⟨1, 7, some 1⟩] := by decide +kernel

theorem test_decision_4_tie :
    credits (after (.decision 3) (asking 3 (threeFeatures (-2) (-1) 3))) = (-6, 2, 4) := by
  decide +kernel

theorem test_no_repeat :
    let s := threeFeatures 2 (-4) 2
    let t := after (.decision 4)
      (asking 4 { s with air := { s.air with lastTrailer := put s.air.lastTrailer 4 (some 0) } })
    credits t = (8, -1, -7) ∧ t.air.lastTrailer[4] = some 2 := by decide +kernel

/-! ## Shows: "A forward clock jump", and reports of a catch-up and a drop -/

/-- A listed show of 100 seats. -/
def screening (st : ShowState) (saved : Option ShowState) (start lead late : Nat) : ShowRec :=
  tally {} .openHouse
    { state := st, savedState := saved, start := start, seatingLead := lead, lateWindow := late,
      capacity := 100, flags := { listed := true, autoDoors := true } }

/-- The three shows of the worked sequence, with the clock at 70000. -/
def beforeJump : State :=
  withShowRec 3 (screening .selling none 72000 1200 900)
    (withShowRec 7 (screening .selling none 71400 0 600)
      (withShowRec 12 (screening .halted (some .seating) 70500 600 300)
        { running with
          clock := ⟨9, some 70000, [⟨12, .seating, 70500⟩, ⟨3, .selling, 70800⟩, ⟨7, .selling, 71400⟩]⟩ }))

theorem test_forward_jump :
    let t := after .clockSet (give 2 (leBytes 4 72000) beforeJump)
    outcome t = some (1, 7) ∧ t.clock.dueList = [] ∧
      [t.shows.recs[3].state, t.shows.recs[7].state, t.shows.recs[12].state] =
        [.running, .closed, .closed] ∧
      t.bus.toClock = [.schedule ⟨3, .running, 72900⟩] := by decide +kernel

/-- R6: a show that a catch-up takes from WAITING to CLOSED enters and leaves the listed set. -/
theorem test_catch_up_names_listed :
    let s := withShowRec 5
      { screening .waiting none 1000 100 60 with saleOpen := some 500 }
      { running with bus := { running.bus with fromClock := [.catchUp 2000 [⟨5, .waiting, 500⟩]] } }
    (after .catchUp s).bus.showReports = [⟨5, [.state, .listed], false⟩] := by decide +kernel

/-- R14: the report of a drop carries EMPTY, so that a page takes it as leaving the listed set although its
slot holds a listed show again. -/
theorem test_drop_report :
    let s := withShowRec 5 (house 0 0 0 .openHouse) running
    ((after .showDrop (give 8 [5] s)).bus.showReports.map (·.dropped)) = [true] ∧
      (rowUpdate s 0 ⟨5, [.state], true⟩).map (fun x => (x.1.stateCode, x.2)) = some (8, true) := by
  decide +kernel

/-- R17: of a show of 10 seats, all held, the freeing sets avail and seats_shown from 0 to 10 and the emptying
sets them back: the report of the drop names both. -/
theorem test_drop_names_freed :
    let s := withShowRec 5
      (tally {} .openHouse { state := .selling, start := 80000, capacity := 10, held := 10 }) running
    let u := { s with shows := { s.shows with
      holds := put s.shows.holds 3 ⟨1, some ⟨2, 5, 10, 300, 0, 1⟩⟩, holdList := [3] } }
    s.shows.recs[5].avail = 0 ∧ s.shows.recs[5].band = .full ∧
      (after .showDrop (give 8 [5] u)).bus.showReports =
        [⟨5, [.state, .start, .avail, .band, .seatsShown], true⟩] := by decide +kernel

/-- R140, composition first: a page composed from the reloaded slot, and then the report of the drop before
it, sends the row's present fields and ends no row. -/
theorem test_composition_before_drop_report :
    let s := withShowRec 5 (house 0 0 0 .openHouse) { running with
      bus := { running.bus with showReports := [⟨5, [.state, .listed], true⟩] }
      displays := { running.displays with
        recs := put running.displays.recs 3 { state := .on, segment := .board, linkUp := true } } }
    let t := after .showChangedReport (composeBoard 3 s)
    (t.displays.recs[3].pageRows, t.displays.recs[3].renewed) = ([⟨5, false⟩], []) ∧
      t.stream.links[3].control.getLast? = some (.rowUpdate (rowOf s 5)) := by decide +kernel

/-! ## Notices -/

/-- R89: a closure report ends the bound notices oldest first with its own reason, though a display holds
both pending. -/
theorem test_closure_ends_bound_notices :
    let n (topic : Nat) : NoticeSlot :=
      ⟨0, some ⟨.desk 2, topic, 20, .all, ⟨.flat, 255⟩, some 5, .text [72], false, 0, none, topic, none, 0⟩⟩
    let s : State := { running with
      arb := { running.arb with
        slots := put (put running.arb.slots 0 (n 1)) 1 (n 2), order := [0, 1]
        recs := put running.arb.recs 0 { noticeState := .on, pending := [0, 1] } }
      desks := { running.desks with ports := put running.desks.ports 2 { state := .enabled } }
      bus := { running.bus with toArbiter := [.closure 5 .showDropped] } }
    let p := (after .closureReport s).desks.ports[2]
    (p.tx.map (·.msg), p.replyQ.map (·.msg)) =
      (some (.noticeEnded 0 1 .showDropped 0), [.noticeEnded 1 2 .showDropped 0]) := by decide +kernel

/-- R89 and R79 over a slot that holds a live show again: the older notice's ending uncovers the display for
the younger one, which airs once before its own turn. -/
theorem test_late_closure_report :
    let n (topic aired : Nat) : NoticeSlot :=
      ⟨0, some ⟨.desk 2, topic, 20, .all, ⟨.flat, 255⟩, some 5, .text [72], false, 0, none, topic, none,
        aired⟩⟩
    let s : State := withShowRec 5 (house 0 0 0 .openHouse) { running with
      arb := { running.arb with
        slots := put (put running.arb.slots 0 (n 1 1)) 1 (n 2 0), order := [0, 1]
        recs := put running.arb.recs 0
          { noticeState := .on, stack := [0], pending := [1], coverStart := some 0 } }
      desks := { running.desks with ports := put running.desks.ports 2 { state := .enabled } }
      bus := { running.bus with toArbiter := [.closure 5 .showDropped] } }
    let t := after .closureReport s
    (t.desks.ports[2].tx.map (·.msg), t.desks.ports[2].replyQ.map (·.msg), t.bus.raises) =
      (some (.noticeEnded 0 1 .showDropped 1), [.noticeEnded 1 2 .showDropped 1], []) := by
  decide +kernel

/-- R131: a tag set up while OFF is matched from the enabled report on, and not before. -/
theorem test_tag_from_next_enable :
    let s : State := { running with
      arb := { running.arb with recs := put running.arb.recs 3 { tag := 0x31#8 } }
      displays := { running.displays with recs := put running.displays.recs 3 { setup := { tag := 0x52#8 } } } }
    let cluster (tag : Byte) (s : State) := displayMatches s ⟨.cluster, tag⟩ 3
    let t := after .enabledReport (after .displayEnable (give 17 [3] s))
    (cluster 0x33#8 s, cluster 0x53#8 s) = (true, false) ∧
      t.arb.recs[3].tag = 0x52#8 ∧ t.arb.recs[3].noticeState = .starting := by decide +kernel

/-- R81: a desk's post of more than 120 bytes is marked TRUNCATED, a card too. -/
theorem test_long_desk_card_is_truncated :
    let body (n : Nat) : List Byte :=
      [7, 20, 0, 1, 0xFF, 255, 1, 5, 60, 0] ++ List.replicate n 65
    let told (n : Nat) := (after .deskNoticePost (ask 2 .noticePost (body n) running)).desks.ports[2].tx
    told 121 = some ⟨9, .noticeTaken 0 20 false false true⟩ ∧
      told 120 = some ⟨9, .noticeTaken 0 20 false false false⟩ := by decide +kernel

/-! ## One step of each block -/

/-- R2: both counts rise by one tick. -/
theorem test_tick :
    let t := after .tick { running with clock := ⟨41, some 99, []⟩ }
    (t.clock.partSeconds, t.clock.lobby) = (42, some 100) := by decide +kernel

/-- R2: a count at its top stays there. -/
theorem test_tick_top :
    (after .tick { running with clock := ⟨4294967295, none, []⟩ }).clock.partSeconds =
      4294967295 := by decide +kernel

/-- R160: the low 12 bits of WINDOW_LOW are ignored. -/
theorem test_window_low :
    (after (.windowLow 0x12345FFF#32) {}).win.windowBase = 0x12345000#64 := by decide +kernel

/-- R168: a 1 written clears, a 0 leaves. -/
theorem test_status_write :
    (after (.statusWrite 0x100#32)
      { running with win := { running.win with causes := ⟨true, true, false, true⟩ } }).win.causes =
      ⟨false, true, false, true⟩ := by decide +kernel

/-- R162: a capacity that is no power of two fails check 2. -/
theorem test_anchor_check_2 :
    startCheck ⟨4194304, 256, 17, 4096, 0, 0⟩ = 2 ∧ startCheck ⟨4194304, 256, 16, 4096, 16, 0⟩ = 0 ∧
      startCheck ⟨4194304, 256, 16, 4096, 17, 0⟩ = 5 := by decide +kernel

/-- R164: an unknown kind is refused BAD_KIND, code 18. -/
theorem test_bad_kind :
    let s := reading (.entry 0) 256 64 { running with
      win := { running.win with flight := some { slot := 0 } } }
    outcome (after (.entryReadDone 0 (entryBytes 24 [])) s) = some (18, 0) := by decide +kernel

/-- R171: the detail of a MARK is the low 16 bits of the mirror generation. -/
theorem test_mark :
    outcome (after .mark (give 23 [] { running with
      win := { running.win with mirrorGen := 0x12345 } })) = some (1, 0x2345) := by decide +kernel

/-- R169: a field out of its range is refused with its number: backoff_cap, field 9, is 0..10. -/
theorem test_configure_range :
    outcome (after .configure
      (give 1 ([0, 0, 0, 0, 0, 1, 0, 0, 0, 0, 0, 0] ++ List.replicate 11 0 ++ [11]) running)) =
      some (17, 9) := by decide +kernel

/-- R11: SHOW_HALT saves the state. -/
theorem test_halt :
    let t := after .showHalt (give 5 [5] (withShowRec 5 (house 0 0 0 .openHouse) running))
    (t.shows.recs[5].state, t.shows.recs[5].savedState, outcome t) =
      (.halted, some .selling, some (1, 5)) := by decide +kernel

/-- R65: a HOLD of a show that is not there is refused NO_SHOW. -/
theorem test_hold_no_show :
    (after .hold (ask 0 .hold [64, 1] running)).desks.ports[0].tx =
      some ⟨9, .holdRefused .noShow 64 0⟩ := by decide +kernel

/-- R71: ASK of an index beyond the table answers zeros. -/
theorem test_ask_beyond :
    (after .ask (ask 0 .ask [200] running)).desks.ports[0].tx =
      some ⟨9, .showStatus 200 0 .empty 0 .openHouse 0 false false⟩ := by decide +kernel

/-- R60: the start byte opens a frame. -/
theorem test_start_byte :
    let t := after (.deskByte 2 0x7E#8) running
    (t.desks.ports[2].phase, t.desks.ports[2].rx) = (.inFrame, [0x7E#8]) := by decide +kernel

/-- R175, R176: the first raise fills the first record, the second goes to the next record. -/
theorem test_two_raises :
    let x : Raise := ⟨.panelLinkLost, .display 3, noCapture⟩
    let s := { running with
      bus := { running.bus with raises := [(.displayController, x), (.displayController, x)] } }
    let t := after (.faultRaise .displayController) (after (.faultRaise .displayController) s)
    (t.faults.minor.first.map (·.source), t.faults.minor.count, t.win.causes.minor) =
      (some (.display 3), 1, true) := by decide +kernel

/-- R157: while its link is down a panel discards the frame without count. -/
theorem test_link_down_discards :
    (sendPanel 0 .stripClear running).stream.links[0] = {} := by decide +kernel

end Sys2Proof.Tests
end

