-- ==== Sys2Proof/Tests/Witnesses.lean ====
section
/-! SUPPORT. For every statement with hypotheses, and for each of its clauses, concrete states and operands
that meet them, at the ends of their ranges where a clause has a range. -/

namespace Sys2Proof.Tests

set_option Elab.async false

open Sys2Proof Sys2Proof.Machine

/-! ## The queue and the invariants -/

theorem witness_CommandsAnswerAndLeaveTheQueue :
    Instr.tick.wellFormed = true ∧ (Instr.start 0x2#32).wellFormed = false := by decide

theorem witness_CommandsKeepToTheirParts :
    exec (.registerWriteOther 0x20#12 1#32) running = .next running ∧
      Part.win ∉ mayChange (.registerWriteOther 0x20#12 1#32) := ⟨rfl, by decide⟩

/-- A show on sale with one hold of 6 seats, and a step to take. -/
def sound : State :=
  let s := withShowRec 5 (house 150 6 2 .few) running
  { s with
    pending := [.tick]
    shows := { s.shows with
      holds := put s.shows.holds 3 ⟨1, some ⟨2, 5, 6, 300, 0, 1⟩⟩, holdList := [3] } }

theorem sound_steps : (step sound) = .next (after .tick { sound with pending := [] }) := rfl

theorem witness_StepsKeepTheShowTableSound : ShowsSound sound where
  tallies := by decide +kernel
  empty := by decide +kernel
  saved := by
    intro i st h
    have : ∀ i : ShowIx, sound.shows.recs[i].savedState = none := by decide +kernel
    rw [this i] at h; cases h
  holds := by
    intro k h hk
    have : ∀ k : HoldIx, (sound.shows.holds[k].hold).all (fun h =>
        sound.shows.holdList.contains k && sound.shows.recs[h.showIx].state.isLive) = true := by
      decide +kernel
    have := this k
    rw [hk] at this
    simpa using this

/-- Two holds of one expiry and two entries due at one time, in order. -/
theorem witness_lists_in_order :
    let s : State := { sound with
      clock := ⟨0, some 9, [⟨4, .selling, 50⟩, ⟨5, .selling, 50⟩, ⟨0, .selling, 51⟩]⟩
      shows := { sound.shows with
        holds := put sound.shows.holds 191 ⟨0, some ⟨2, 5, 0, 300, 0, 2⟩⟩, holdList := [3, 191] } }
    ListsInOrder s ∧ step s = .next (after .tick { s with pending := [] }) :=
  ⟨⟨by decide +kernel, by decide +kernel, by decide +kernel, by decide +kernel, by decide +kernel⟩, rfl⟩

theorem witness_StepsKeepCapacities : WithinCapacity sound where
  intake := by decide +kernel
  replies := by decide +kernel
  control := by decide +kernel
  onAir := by decide +kernel

theorem witness_StepsKeepTheWritePathSound : WritePathSound sound where
  oneOfEach := by decide +kernel
  memory := by decide +kernel
  aligned := by decide +kernel

/-! ## Registers -/

/-- Every slot of the read engine in use. -/
def readsFull (s : State) : State :=
  { s with reads := { s.reads with slots := Vector.replicate 32 (some ⟨.header 0 0, 64, 32, false⟩) } }

/-- A read slot free, and none. -/
theorem witness_read_slots :
    running.reads.slots[(31 : ReadSlot)] = none ∧
      (∀ i : ReadSlot, (readsFull running).reads.slots[i] ≠ none) := by decide +kernel

/-- CONTROL with LOBBY_RESET alone; the window known and not known, with a write of a mirror record, of a
fault record, of an anchor word and of an outcome queued; a display not OFF whose link is up, its
transmitter idle and not. -/
theorem witness_LobbyResetEmptiesTheTables :
    let q : List WindowWrite :=
      [⟨.mirror (.hold 191), [], false⟩, ⟨.mirror (.fault .minor), [], false⟩,
        ⟨.anchor .lobbyNow, [], true⟩, ⟨.outcome, [], false⟩]
    let s : State := { running with win := { running.win with writeQ := q } }
    let d : DisplayRec := { state := .draining, linkUp := true }
    controlLobbyReset 0x2#32 = true ∧ (s.win.windowValid = true ∧ State.reset.win.windowValid = false) ∧
      (s.win.writeQ.any (·.target == .mirror (.hold 191)) = true ∧
        s.win.writeQ.any (·.target == .mirror (.hold 190)) = false ∧
        (q.filter (·.target != .outcome)).length = 3) ∧
      (d.state ≠ .off ∧ d.linkUp = true ∧ ({} : PanelLink).tx = none ∧
        ({ tx := some .stripClear } : PanelLink).tx ≠ none) := by decide +kernel

/-- CONTROL written as it stands while STOPPED, and with RUN set while RUNNING. -/
theorem witness_AlertEnablesFollowControl :
    (controlLobbyReset 0xC#32 = false ∧ controlRun 0xC#32 = State.reset.win.runBit) ∧
      controlLobbyReset 0xD#32 = false ∧ controlRun 0xD#32 = running.win.runBit ∧
      running.win.runState ≠ .stalled := by decide +kernel

/-- A read of the publish mark outstanding. -/
def marking : State := { running with win := { running.win with markRead := some {} } }

theorem witness_AttentionReadsThePublishMark :
    State.reset.win.runState = .stopped ∧
      (marking.win.runState = .running ∧ marking.win.markRead.isSome = true) ∧
      running.win.markRead = none := by decide +kernel

theorem witness_WindowBaseTakenWhileStopped :
    State.reset.win.runState = .stopped ∧ State.reset.win.runBit = false := by decide +kernel

theorem witness_IgnoredRegisterWrites :
    0x00#12 ∉ writableOffsets ∧ 0xFFF#12 ∉ writableOffsets ∧ running.win.runState ≠ .stopped := by
  decide +kernel

theorem witness_StartReadsTheAnchor :
    controlLobbyReset 0x1#32 = false ∧ controlRun 0x1#32 = true ∧ State.reset.win.runBit = false ∧
      State.reset.win.runState = .stopped := by decide +kernel

/-- The part STALLED with RUN set. -/
def stalled : State :=
  { running with win := { running.win with runState := .stalled, stallCause := .read } }

/-- A start in progress. -/
def starting : State :=
  reading (.anchor 1) 0 256
    { ({} : State) with
      win := { runBit := true, starting := true, session := 1, anchorRead := some {} } }

theorem witness_StopByRunState :
    (controlLobbyReset 0x0#32 = false ∧ controlRun 0x0#32 = false ∧ running.win.runBit = true) ∧
      (running.win.runState = .running ∧ running.win.starting = false ∧
        running.win.flight = none) ∧
      (give 23 [] running).win.flight = some (handed 23 []) ∧
      (stalled.win.runState = .stalled ∧ stalled.win.starting = false ∧ stalled.win.runBit = true) ∧
      starting.win.runState = .stopped ∧ starting.win.starting = true ∧
      starting.win.runBit = true := by decide +kernel

theorem witness_RecoveryReadsTheAnchor :
    stalled.win.runState = .stalled ∧ controlLobbyReset 0x1#32 = false ∧ controlRun 0x1#32 = true ∧ stalled.win.runBit = true := by
  decide +kernel

/-! ## The window -/

/-- The bytes of an anchor: five words of the host, 44 bytes, the take mark, and the rest. -/
def anchor (length journal capacity mirror publish take : Nat) : List Byte :=
  padTo 256 (leBytes 4 length ++ leBytes 4 journal ++ leBytes 4 capacity ++ leBytes 4 mirror
    ++ leBytes 4 publish ++ List.replicate 44 0 ++ leBytes 4 take)

/-- All five checks passed with the marks equal, and with the journal full; check 5 failed by one; the window
not known, with a write of a record queued and with none, and known. -/
theorem witness_AnchorReadStartsOrStops :
    (starting.reads.slots[(0 : ReadSlot)] = some ⟨.anchor starting.win.session, 0, 256, false⟩ ∧
      starting.win.starting = true ∧ starting.win.runState = .stopped ∧
      starting.win.flight = none) ∧
      (anchor 4194304 256 16 4096 7 7).length = 256 ∧
      startCheck (readAnchor (anchor 4194304 256 16 4096 7 7)) = 0 ∧
      startCheck (readAnchor (anchor 4194304 256 16 4096 16 0)) = 0 ∧
      startCheck (readAnchor (anchor 4194304 256 16 4096 17 0)) = 5 ∧
      (starting.win.windowValid = false ∧
        ({ starting.win with windowValid := true } : WindowIf).windowValid = true) ∧
      (let q : List WindowWrite := [⟨.mirror (.fault .minor), [(64, [1, 2])], false⟩];
        q.any (·.target == .mirror (.fault .minor)) = true ∧
          q.any (·.target == .mirror (.showRec 0)) = false) := by decide +kernel

/-- A recovery's anchor read, with a held outcome or none. -/
def recovering (c : StallCause) (flight : Option Flight) (held : Option EntryOutcome) : State :=
  reading (.anchor 0) 0 256
    { stalled with
      win := { stalled.win with
        stallCause := c, takeMark := 7, anchorRead := some {}, flight := flight
        heldOutcome := held } }

/-- Recoveries that read a changed geometry, an inconsistent mark with and without an outcome held, a mark
at the capacity and one equal to the take mark; by cause WRITE with an outcome held, by cause READ with
an entry handed and with none; and one with no start completed. -/
theorem witness_recoveries_end :
    let s := recovering .write (some (handed 23 [])) (some ⟨.done, 5, []⟩)
    let u := recovering .read none none
    let a (journal publish : Nat) := readAnchor (anchor 4194304 journal 16 4096 publish 0)
    (s.reads.slots[(0 : ReadSlot)] = some ⟨.anchor s.win.session, 0, 256, false⟩ ∧
      u.reads.slots[(0 : ReadSlot)] = some ⟨.anchor u.win.session, 0, 256, false⟩) ∧
      (s.win.starting = false ∧ s.win.runState = .stalled ∧ s.win.startDone = true ∧
        s.win.stallCause = .write ∧ s.win.flight = some (handed 23 []) ∧
        s.win.heldOutcome = some ⟨.done, 5, []⟩ ∧ s.win.windowValid = true) ∧
      (u.win.stallCause ≠ .write ∧ u.win.flight = none ∧ u.win.heldOutcome = none ∧
        u.win.takeMark = 7 ∧
        (recovering .read (some (handed 23 [])) none).win.flight = some (handed 23 [])) ∧
      ((a 256 7).geometry = s.win.geometry ∧ (a 320 7).geometry ≠ s.win.geometry ∧
        (a 256 7).publishMark = 7 ∧ (a 256 23).publishMark ≠ 7) ∧
      (diff32 (a 256 23).publishMark 7 ≤ s.win.geometry.capacity ∧
        diff32 (a 256 7).publishMark 7 ≤ s.win.geometry.capacity ∧
        ¬ diff32 (a 256 24).publishMark 7 ≤ s.win.geometry.capacity ∧
        ¬ diff32 (a 256 6).publishMark 7 ≤ s.win.geometry.capacity) ∧
      ({ u.win with startDone := false } : WindowIf).startDone = false := by decide +kernel

/-- The poll timer run out, with no read of the mark outstanding and with one; a mark at the capacity and
one past it, with an entry being read, one handed and none. -/
theorem witness_PublishMarkReadAndTaken :
    (let s := { running with win := { running.win with pollTimer := some 0 } };
      s.win.runState = .running ∧ s.win.pollTimer = some 0 ∧ s.win.markRead = none) ∧
      (let s := { marking with win := { marking.win with pollTimer := some 0 } };
        s.win.runState = .running ∧ s.win.pollTimer = some 0 ∧ s.win.markRead.isSome = true) ∧
      ((some { slot := 3 } : Option Flight).any unread = true ∧
        (some (handed 23 [])).any unread = false ∧ (none : Option Flight).any unread = false) ∧
      (let s := reading (.publishMark 0) 16 4 marking;
        s.reads.slots[(0 : ReadSlot)] = some ⟨.publishMark s.win.session, 16, 4, false⟩ ∧
          diff32 (leNat [16, 0, 0, 0]) s.win.takeMark ≤ s.win.geometry.capacity ∧
          s.win.geometry.capacity < diff32 (leNat [17, 0, 0, 0]) s.win.takeMark ∧
          s.win.flight = none ∧ s.win.stopping = false ∧
          s.win.takeMark ≠ leNat [16, 0, 0, 0]) := by decide +kernel

/-- An entry being read, and one whose text is being read. -/
def readingEntry (phase : FlightPhase) : State :=
  { running with win := { running.win with flight := some { slot := 3, phase := phase } } }

/-- An unknown kind, bad flags, an entry handed, a text of no length, one of 121 bytes, one that ends at the
window's end and one past it. -/
theorem witness_EntriesAreCheckedAndHandedOver :
    let post (off : Nat) (n : Nat) : List Byte :=
      entryBytes 19 ([1, 10, 0, 1, 0xFF, 255, 0, 0, 60, 0, BitVec.ofNat 8 n, 0] ++ leBytes 4 off)
    let s := reading (.entry 0) 448 64 (readingEntry .reading)
    let u := reading (.text 0) 8192 120 (readingEntry .text)
    (s.reads.slots[(0 : ReadSlot)] = some ⟨.entry s.win.session, 448, 64, false⟩ ∧
      s.win.windowValid = true) ∧
      (entryKind (byteAt (entryBytes 0 []) 0).toNat = none ∧ (entryBytes 0 []).length = 64) ∧
      (entryKind (byteAt (entryBytes 23 []) 0).toNat = some .mark ∧
        byteAt (entryBytes 23 []) 1 &&& 0xFE#8 = 0#8 ∧
        byteAt (23 :: 2 :: List.replicate 62 0) 1 &&& 0xFE#8 ≠ 0#8) ∧
      (fieldAt (entryBody (post 4194304 0)) 10 1 = 0 ∧
        fieldAt (entryBody (post 4194184 120)) 12 4 + 120 = s.win.geometry.windowLength ∧
        s.win.geometry.windowLength < fieldAt (entryBody (post 4194185 120)) 12 4 + 120 ∧
        fieldAt (entryBody (post 8192 121)) 10 1 ≠ 0 ∧
        min (fieldAt (entryBody (post 8192 121)) 10 1) 120 = 120) ∧
      u.reads.slots[(0 : ReadSlot)] = some ⟨.text u.win.session, 8192, 120, false⟩ := by
  decide +kernel

/-- Reads of session 255 completing in session 0. -/
theorem witness_StaleControlReadsAreDiscarded :
    255 ≠ running.win.session ∧
      (reading (.anchor 255) 0 256 running).reads.slots[(0 : ReadSlot)] =
        some ⟨.anchor 255, 0, 256, false⟩ ∧
      (reading (.publishMark 255) 16 4 running).reads.slots[(0 : ReadSlot)] =
        some ⟨.publishMark 255, 16, 4, false⟩ ∧
      (reading (.entry 255) 256 64 running).reads.slots[(0 : ReadSlot)] =
        some ⟨.entry 255, 256, 64, false⟩ ∧
      (reading (.text 255) 900 1 running).reads.slots[(0 : ReadSlot)] =
        some ⟨.text 255, 900, 1, false⟩ := by decide +kernel

/-- Failures one below the retry limit, and at it; a wait of 0 and one of 1; with a stop waiting, with an
outcome held, and with neither. -/
theorem witness_FailedControlReadsRetry :
    running.win.cfg.retry.retryLimit = 8 ∧ running.win.heldOutcome = none ∧
      running.win.stopping = false ∧ running.win.starting = false ∧
      (0xACE0#16).toNat % 2 ^ min 1 running.win.cfg.retry.backoffCap = 0 ∧
      running.stream.lfsr.toNat % 2 ^ min 1 running.win.cfg.retry.backoffCap = 1 ∧
      ({ running.win with stopping := true } : WindowIf).stopping = true ∧
      ({ running.win with heldOutcome := some ⟨.done, 0, []⟩ } : WindowIf).heldOutcome.isSome = true ∧
      ({ running.win with runState := .stalled } : WindowIf).runState ≠ .running ∧
      (starting.reads.slots[(0 : ReadSlot)] = some ⟨.anchor starting.win.session, 0, 256, false⟩ ∧
        starting.win.anchorRead = some ⟨0, none⟩) ∧
      (let s := { reading (.publishMark 0) 16 4 running with
          win := { running.win with markRead := some ⟨7, none⟩ } };
        s.reads.slots[(0 : ReadSlot)] = some ⟨.publishMark s.win.session, 16, 4, false⟩ ∧
          s.win.markRead = some ⟨7, none⟩ ∧ s.win.runState = .running) ∧
      (let s := reading (.entry 0) 448 64 (readingEntry .reading);
        s.win.flight = some { slot := 3, phase := .reading } ∧
          unread { slot := 3, phase := .reading } = true) ∧
      (let s := reading (.text 0) 900 64 (readingEntry .text);
        s.reads.slots[(0 : ReadSlot)] = some ⟨.text s.win.session, 900, 64, false⟩ ∧
          unread { slot := 3, phase := .text } = true) := by decide +kernel

/-- R165: the failure of an anchor read with a wait of 0 leaves the read issued again. -/
theorem test_wait_of_zero_reissues :
    let s := { starting with stream := { starting.stream with lfsr := 0xACE0#16 } }
    let t := after (.controlReadFailed 0) s
    (t.win.anchorRead, t.reads.slots[(0 : ReadSlot)]) =
      (some ⟨1, none⟩, some ⟨.anchor 1, 0, 256, false⟩) := by decide +kernel

/-- R162: a start over an outcome held discards it, and the entry is read again from the take mark
loaded. -/
theorem test_start_discards_held_outcome :
    let s : State := { running with
      win := { running.win with
        runBit := false, runState := .stalled, stallCause := .write
        flight := some { slot := 9, phase := .handed }, heldOutcome := some ⟨.done, 0, []⟩ } }
    let t := after (.anchorReadDone 0 (anchor 4194304 256 16 4096 8 7)) (after (.start 1#32) s)
    (t.win.runState, t.win.heldOutcome, t.win.flight) =
      (.running, none, some { slot := 7 }) := by decide +kernel

theorem witness_RetryExpiryIssuesTheReadAgain :
    ({ running.win with anchorRead := some ⟨1, some 0⟩ } : WindowIf).anchorRead =
        some ⟨1, some 0⟩ ∧
      ({ running.win with markRead := some ⟨1, some 0⟩ } : WindowIf).markRead = some ⟨1, some 0⟩ ∧
      (let f : Flight := { slot := 3, wait := some 0 };
        f.wait = some 0 ∧ f.phase = .reading) ∧
      (let f : Flight := { slot := 3, phase := .text, wait := some 0 };
        f.wait = some 0 ∧ f.phase = .text) := by decide +kernel

/-- A write of the queue at its head. -/
def queued (w : WindowWrite) (s : State) : State :=
  { s with win := { s.win with writeQ := [w] } }

/-- A mirror write, an anchor write, and an outcome write of an entry in flight, refused with
STOP_ON_REFUSAL and not, while RUNNING and written again while STALLED. -/
theorem witness_SentWritesReachHostMemory :
    let w (t : WriteTarget) : WindowWrite := ⟨t, [(64, [1, 2])], false⟩
    let f : Flight :=
      { slot := 0, bytes := 10 :: 1 :: List.replicate 62 0, phase := .writing,
        outcome := some ⟨.badField, 1, []⟩ }
    (queued (w (.anchor .takeMark)) running).win.writeQ = w (.anchor .takeMark) :: [] ∧
      (queued (w (.mirror (.hold 191))) running).win.writeQ = w (.mirror (.hold 191)) :: [] ∧
      (queued (w .outcome) (give 23 [] running)).win.flight = some (handed 23 []) ∧
      (stopOnRefusal f.bytes && f.outcome.any (·.code.isRefusal)) = true ∧
      (stopOnRefusal (handed 23 []).bytes && (handed 23 []).outcome.any (·.code.isRefusal)) =
        false ∧ (running.win.rewriting = false ∧ running.win.stopping = false) ∧
      (let s := queued (w .outcome)
          (recovering .write (some (handed 23 [])) (some ⟨.done, 5, []⟩));
        s.win.runState = .stalled ∧ s.win.flight = some (handed 23 []) ∧
          ({ s.win with rewriting := true } : WindowIf).rewriting = true ∧
          s.win.stopping = false) := by
  decide +kernel

/-- A record changed with the window not known, known and its write queued, and known with none queued;
a run state that changes; an outcome sent while STOPPED, and while STALLED and not written again. -/
theorem witness_write_path :
    let w (t : WriteTarget) : WindowWrite := ⟨t, [(64, [1, 2])], false⟩
    let s := queued (w (.mirror (.hold 191))) running
    (State.reset.win.windowValid = false ∧ s.win.windowValid = true) ∧
      (s.win.writeQ.any (·.target == .mirror (.hold 191)) = true ∧
        s.win.writeQ.any (·.target == .mirror (.fault .minor)) = false) ∧
      (s.win.writeQ = [] ++ w (.mirror (.hold 191)) :: [] ∧
        ∀ y ∈ s.win.writeQ, y.target ≠ .anchor .runEcho) ∧
      running.win.runState ≠ .stalled ∧
      (let s := queued (w .outcome) (recovering .read (some (handed 23 [])) none);
        s.win.writeQ = w .outcome :: [] ∧ s.win.flight = some (handed 23 []) ∧
          s.win.runState = .stalled ∧ s.win.rewriting = false ∧ s.win.stopping = false) ∧
      (State.reset.win.runState = .stopped ∧ State.reset.win.stopping = false) := by decide +kernel

/-- A SALE of the show of the first record and of the last, with a write of the record queued and with none;
a HOLD, which changes its hold's record and its show's. -/
theorem witness_commands_change_records :
    let sell (i : ShowIx) (q : List WindowWrite) : State :=
      give 9 [BitVec.ofNat 8 i, 0, 1, 0]
        (withShowRec i (house 150 0 0 .few) { running with win := { running.win with writeQ := q } })
    let queue : List WindowWrite := [⟨.mirror (.showRec 63), [(64, [1, 2])], false⟩]
    let holds : State := ask 4 .hold [5, 4] (withShowRec 5 (house 150 6 2 .few) running)
    let changes (c : Instr) (s : State) (id : MirrorId) : Bool :=
      s.win.windowValid && runs c s && (after c s).win.windowValid &&
        mirrorBody (after c s) id != mirrorBody s id
    changes .sale (sell 0 []) (.showRec 0) = true ∧ changes .sale (sell 63 []) (.showRec 63) = true ∧
      changes .sale (sell 63 queue) (.showRec 63) = true ∧
      (sell 63 queue).win.writeQ.any (·.target == .mirror (.showRec 63)) = true ∧
      (sell 63 []).win.writeQ.any (·.target == .mirror (.showRec 63)) = false ∧
      changes .hold holds (.showRec 5) = true ∧
      changes .hold holds (.hold 0) = true := by decide +kernel

theorem witness_FailedWritesRetryOnceAndDrop :
    let w (r : Bool) : WindowWrite := ⟨.outcome, [(64, [1, 2])], r⟩
    let s := queued (w true) (give 23 [] running)
    (queued (w false) running).win.writeQ = w false :: [] ∧ s.win.writeQ = w true :: [] ∧
      (s.win.flight = some (handed 23 []) ∧ s.win.runState = .running ∧ s.win.stopping = false) ∧
      ({ s.win with stopping := true } : WindowIf).stopping = true ∧
      (recovering .write (some (handed 23 [])) none).win.runState = .stalled := by decide +kernel

theorem witness_MarkCarriesTheMirrorGeneration :
    HandedTo .mark (handed 23 []) (give 23 [] running) := by decide +kernel

/-- Page 4, a value out of its range, a change of nothing, and a change of hold_expiry. -/
theorem witness_ConfigureChecksBeforeItWrites :
    let left (b : List Byte) : List Nat :=
      mergeFields (fieldAt b 4 8) 1 (pageFields {} 0) (readPacked (pageWidths 0) (b.drop 12))
    let bad (b : List Byte) : Option Nat :=
      (outOfRange 1 (pageRanges 0) (left b)).or (pageConstraint 0 (left b))
    let body (v : Nat) : List Byte := padTo 52 ([0, 0, 0, 0, 2, 0, 0, 0, 0, 0, 0, 0, 0, 0] ++ leBytes 2 v)
    HandedTo .configure (handed 1 [4]) (give 1 [4] running) ∧
      fieldAt (entryBody (handed 1 [4]).bytes) 0 1 = 4 ∧
      (bad (body 29) = some 2 ∧ bad (body 30) = none ∧ bad (body 1800) = none ∧
        bad (body 1801) = some 2) ∧
      changedOwners {} (withPage {} 0 (left (padTo 52 []))) = [] ∧
      changedOwners {} (withPage {} 0 (left (body 30))) = [.showTable] := by decide +kernel

/-- A settings event for the owner a CONFIGURE waits for. -/
theorem witness_OwnersTakeTheirSettings :
    let s := { running with
      win := { running.win with
        settingsQ := [(.deskLine, {})]
        flight := some { handed 1 [] with taken := true, awaiting := [.deskLine] } } }
    s.win.settingsQ = (.deskLine, {}) :: [] ∧
      (s.win.flight.map (·.awaiting)) = some [.deskLine] ∧ s.win.windowValid = true := by
  decide +kernel

/-- A band set changed under a show that reads it; pause levels under which a paused line resumes and
an unpaused one pauses; a top notice that a new takeover class takes over, and one it no longer does. -/
theorem witness_what_owners_do :
    let few : BandSet := { ({} : BandSet) with lastOn := 180 }
    let sh := house 0 0 0 .openHouse
    let n : Notice := ⟨.desk 2, 7, 20, .all, ⟨.flat, 255⟩, none, .text [72], false, 60, none, 1, none, 0⟩
    let top : State := { running with
      arb := { running.arb with
        slots := put running.arb.slots 0 ⟨1, some n⟩, order := [0]
        recs := put running.arb.recs 15 { noticeState := .on, stack := [0] } } }
    (sh.state != .empty && ({} : BandSet) != few) = true ∧
      (recounted { ({} : ShowSettings) with bandSets := Vector.replicate 4 few } sh sh).band ≠ sh.band ∧
      (let d : DeskLine := { ({} : DeskLine) with paused := true };
        (d.paused && d.intake.length ≤ 4) = true) ∧
      (let d : DeskLine := { ({} : DeskLine) with
          intake := List.replicate 5 ⟨2, .ask, 9, []⟩ };
        (!d.paused && (5 != 0 && 5 ≤ d.intake.length)) = true) ∧
      (overtaken 5 top 15 = true ∧ overtaken 6 top 15 = false ∧
        takeoverMsgs false true 15 = [.takeoverBegin 15] ∧
        takeoverMsgs true false 15 = [.takeoverEnd 15]) := by decide +kernel

/-! ## The clock -/

/-- A board dwell of two seconds and of one, unsuspended, and a suspended one; a trailer. -/
theorem witness_TickRaisesTheCounts :
    let d : DisplayRec := { segment := .board, dwellLeft := 2 }
    (1 < d.dwellLeft ∧ d.suspended = false ∧ d.segment = .board ∧ d.dwellDue = false) ∧
      ({ d with suspended := true } : DisplayRec).suspended = true ∧
      ({ d with dwellLeft := 1 } : DisplayRec).dwellLeft = 1 ∧
      (Segment.trailer ≠ .board ∧ Segment.trailer ≠ .house) ∧
      (running.win.windowValid = true ∧ State.reset.win.windowValid = false) ∧
      (after .tick { running with clock := ⟨0, some 9, []⟩ }).clock.lobby = some 10 ∧
      running.clock.lobby = none := by decide +kernel

/-- A cover timer and an underrun episode that end at this tick, and that end at the next. -/
theorem witness_timers_end :
    let a : ArbRec := { noticeState := .on, stack := [0], pending := [1], coverStart := some 98 }
    (a.noticeState = .on ∧ a.stack ≠ [] ∧ a.pending ≠ []) ∧
      (a.coverStart.any (fun c => c + ({} : NoticeSettings).minCover ≤ 100) = true ∧
        a.coverStart.any (fun c => c + ({} : NoticeSettings).minCover ≤ 99) = false) ∧
      (let r : StreamRec := { phase := .playing, inUnderrun := true, underrunStart := some 98 };
        r.inUnderrun = true ∧
          r.underrunStart.any (fun u => u + ({} : StreamSettings).underrunLimit ≤ 100) = true ∧
          r.underrunStart.any (fun u => u + ({} : StreamSettings).underrunLimit ≤ 99) = false) := by
  decide +kernel

/-- A schedule request before, at and after its due time, and a withdraw request. -/
theorem witness_RequestsKeepOneEntryAShow :
    let e : DueEntry := ⟨5, .selling, 100⟩
    let s (l : Option Nat) (r : ClockRequest) : State :=
      { running with
        clock := ⟨0, l, [⟨5, .waiting, 50⟩]⟩, bus := { running.bus with toClock := [r] } }
    ((s none (.schedule e)).bus.toClock = .schedule e :: [] ∧
      (s none (.schedule e)).clock.lobby.all (· < e.due) = true ∧
      (s (some 99) (.schedule e)).clock.lobby.all (· < e.due) = true) ∧
      ((s (some 100) (.schedule e)).clock.lobby = some 100 ∧ e.due ≤ 100) ∧
      (s none (.withdraw 5)).bus.toClock = .withdraw 5 :: [] := by decide +kernel

/-- A stale transition, a current one of a show on sale, and the close of a running show. -/
theorem witness_CatchUpMovesCurrentShows :
    let sh : ShowRec := { state := .selling, start := 1000, seatingLead := 100, lateWindow := 60 }
    let s : State := { running with
      bus := { running.bus with fromClock := [.catchUp 900 [⟨5, .selling, 900⟩]] } }
    s.bus.fromClock = .catchUp 900 [⟨5, .selling, 900⟩] :: [] ∧
      isCurrent sh ⟨5, .selling, 899⟩ = false ∧
      (isCurrent sh ⟨5, .selling, 900⟩ = true ∧ dueTime sh .seating = some 1000 ∧ 900 < 1000) ∧
      isCurrent { sh with state := .running } ⟨5, .running, 1060⟩ = true ∧
      (statesPassed sh 900 4 .selling = [.seating] ∧
        statesPassed { sh with state := .running } 1060 4 .running = [.closed]) ∧
      (sh.seatingLead - (900 - seatingTime sh) = 100 ∧
        sh.seatingLead - (999 - seatingTime sh) = 1 ∧
        sh.seatingLead - (1000 - seatingTime sh) = 0) := by decide +kernel

/-- A catch-up of three shows: one halted that closes, one that is due at its very time and stops before the
next, one that closes; and a stale entry. -/
theorem witness_catch_up_of_many :
    let entries : List DueEntry :=
      [⟨12, .seating, 70500⟩, ⟨3, .selling, 70800⟩, ⟨7, .selling, 71400⟩, ⟨8, .running, 0⟩]
    let passed (i : ShowIx) (st : ShowState) := statesPassed beforeJump.shows.recs[i] 72000 4 st
    (entries.map (·.showIx)).Nodup ∧ (∀ e ∈ entries, e.due ≤ 72000) ∧
      (entries.map fun e => isCurrent beforeJump.shows.recs[e.showIx] e) =
        [true, true, true, false] ∧
      passed 12 .seating = [.running, .closed] ∧ passed 3 .selling = [.seating, .running] ∧
      passed 7 .selling = [.seating, .running, .closed] ∧
      transitionsOf 72000 entries beforeJump = 7 := by decide +kernel

/-- The first CLOCK_SET with a show waiting, and a set one second back. -/
theorem witness_ClockSetPlacesWaitingShows :
    let body : List Byte := leBytes 4 999
    let s := withShowRec 5 { (house 0 0 0 .openHouse) with state := .waiting, clockWait := true }
      running
    HandedTo .clockSet (handed 2 body) (give 2 body s) ∧ s.bus.fromClock = [] ∧
      (s.clock.lobby = none ∧ s.shows.recs[(5 : ShowIx)].clockWait = true ∧
        s.shows.recs[(4 : ShowIx)].clockWait = false) ∧
      fieldAt (entryBody (handed 2 body).bytes) 0 4 = 999 ∧ 999 < 1000 := by decide +kernel

/-- A CLOCK_SET that finds a catch-up waiting, before its value and past it, and from UNSET; its half at the
head of the queue, of the first set, of a backward and of a forward one. -/
theorem witness_clock_set_waits :
    let body : List Byte := leBytes 4 72000
    let m : ClockMsg := .catchUp 70000 [⟨12, .seating, 70000⟩]
    let s := give 2 body { beforeJump with bus := { beforeJump.bus with fromClock := [m] } }
    let half (first : Bool) (due : List DueEntry) : State :=
      { s with bus := { s.bus with fromClock := [.setHalf 72000 first due] } }
    (HandedTo .clockSet (handed 2 body) s ∧ s.bus.fromClock ≠ []) ∧
      (s.clock.lobby.any (· ≤ 72000) = true ∧ s.clock.lobby.any (· ≤ 69999) = false ∧
        running.clock.lobby.any (· ≤ 72000) = false) ∧
      ((half true []).bus.fromClock = .setHalf 72000 true [] :: [] ∧
        (half true []).win.flight = some (handed 2 body) ∧ (half true []).win.windowValid = true) ∧
      (half false []).bus.fromClock = .setHalf 72000 false [] :: [] ∧
      (let due := beforeJump.clock.dueList.takeWhile (·.due ≤ 72000);
        (half false due).bus.fromClock = .setHalf 72000 false due :: [] ∧
          (due.map (·.showIx)).Nodup ∧ due.length = 3 ∧ ∀ e ∈ due, e.due ≤ 72000) := by
  decide +kernel

/-- The forward jump of the worked sequence, and a set to the same value. -/
theorem witness_forward_clock_set :
    let give_ (v : Nat) := give 2 (leBytes 4 v) beforeJump
    HandedTo .clockSet (handed 2 (leBytes 4 72000)) (give_ 72000) ∧
      (give_ 72000).bus.fromClock = [] ∧ beforeJump.clock.lobby = some 70000 ∧
      fieldAt (entryBody (handed 2 (leBytes 4 72000)).bytes) 0 4 = 72000 ∧
      fieldAt (entryBody (handed 2 (leBytes 4 70000)).bytes) 0 4 = 70000 ∧
      (beforeJump.clock.dueList.map (·.showIx)).Nodup ∧
      (beforeJump.clock.dueList.takeWhile (·.due ≤ 72000)).length = 3 ∧
      beforeJump.clock.dueList.takeWhile (·.due ≤ 70000) = [] := by decide +kernel

/-! ## Shows -/

/-- The body of a SHOW_LOAD or SHOW_AMEND of slot 5: no feature, no sale_open, target FLAT 0xFF. -/
def showBody (mask start capacity : Nat) : List Byte :=
  [5, 0] ++ leBytes 2 mask ++ leBytes 4 77 ++ [3, 0] ++ leBytes 2 9 ++ leBytes 4 start
    ++ leBytes 4 0 ++ leBytes 2 600 ++ leBytes 2 300 ++ leBytes 2 capacity ++ [0, 1, 1, 0xFF]

/-- An index past the table, a slot in use, a capacity of 0, a close time reached, and a load taken
with the clock unset and one second before its close. -/
theorem witness_ShowLoadFillsAnEmptySlot :
    let b := readShowBody (showBody 0 1000 180)
    HandedTo .showLoad (handed 3 (showBody 0 1000 180)) (give 3 (showBody 0 1000 180) running) ∧
      (readShowBody (entryBody (handed 3 [64]).bytes)).index = 64 ∧
      b.index = (5 : ShowIx).val ∧
      (withShowRec 5 (house 0 0 0 .openHouse) running).shows.recs[(5 : ShowIx)].state ≠ .empty ∧
      (running.shows.recs[(5 : ShowIx)].state = .empty ∧
        firstBad (showFieldChecks (readShowBody (showBody 0 1000 0)) none 1000) = some 9) ∧
      firstBad (showFieldChecks b b.saleOpenField b.start) = none ∧
      closeTime (amended (fun _ => true) b {}) = 1300 ∧
      (some 1299).all (· < closeTime (amended (fun _ => true) b {})) = true := by decide +kernel

/-- A show that sells, one that waits, an EMPTY one, a halted one, and an index past the table. -/
theorem witness_HaltSavesTheStateResumeRestoresIt :
    let sh := house 0 0 0 .openHouse
    fieldAt (entryBody (handed 5 [5]).bytes) 0 1 = (5 : ShowIx).val ∧
      HandedTo .showHalt (handed 5 [5]) (give 5 [5] (withShowRec 5 sh running)) ∧
      HandedTo .showResume (handed 6 [5]) (give 6 [5] (withShowRec 5 sh running)) ∧
      (HandedTo .showHalt (handed 5 [64]) (give 5 [64] running) ∧
        64 ≤ fieldAt (entryBody (handed 5 [64]).bytes) 0 1) ∧
      sh.state = .selling ∧ ({ sh with state := .waiting } : ShowRec).state = .waiting ∧
      running.shows.recs[(5 : ShowIx)].state = .empty ∧
      (let h : ShowRec := { sh with state := .halted, savedState := some .seating };
        h.state = .halted ∧ h.savedState = some .seating) := by decide +kernel

theorem witness_CancelAndDropCloseTheShow :
    (fieldAt (entryBody (handed 7 [5]).bytes) 0 1 = (5 : ShowIx).val ∧
      HandedTo .showCancel (handed 7 [5]) (give 7 [5] sound)) ∧
      (fieldAt (entryBody (handed 8 [5]).bytes) 0 1 = (5 : ShowIx).val ∧
        HandedTo .showDrop (handed 8 [5]) (give 8 [5] sound)) ∧
      sound.shows.recs[(5 : ShowIx)].state.isLive = true ∧
      (running.shows.recs[(5 : ShowIx)].state.isLive = false ∧
        running.shows.recs[(5 : ShowIx)].state = .empty) ∧
      (HandedTo .showDrop (handed 8 [64]) (give 8 [64] sound) ∧
        64 ≤ fieldAt (entryBody (handed 8 [64]).bytes) 0 1) ∧
      ({ house 0 0 0 .openHouse with state := .closed } : ShowRec).state = .closed ∧
      sound.shows.recs[(5 : ShowIx)].state ≠ .empty := by
  decide +kernel

/-- An amend of no time, of the capacity, to a capacity of 0, of the start, and to a start whose close
time has come. -/
theorem witness_AmendWritesTheMarkedFields :
    let sh := house 0 0 0 .openHouse
    let b (mask start capacity : Nat) := readShowBody (showBody mask start capacity)
    let new (mask start capacity : Nat) := amended (marked mask) (b mask start capacity) sh
    let checks (mask start capacity : Nat) :=
      firstBad (amendFieldChecks (marked mask) (b mask start capacity) (new mask start capacity))
    HandedTo .showAmend (handed 4 (showBody 1 0 0))
        (give 4 (showBody 1 0 0) (withShowRec 5 sh running)) ∧
      (HandedTo .showAmend (handed 4 [64]) (give 4 [64] running) ∧
        64 ≤ (readShowBody (entryBody (handed 4 [64]).bytes)).index) ∧
      (b 1 0 0).index = (5 : ShowIx).val ∧ sh.state.isLive = true ∧
      (checks 1 0 0 = none ∧ (marked 1 5 || marked 1 6 || marked 1 7 || marked 1 8) = false ∧
        (marked 1 9 || marked 1 10) = false) ∧
      (checks 256 0 2000 = none ∧ marked 256 9 = true ∧ checks 256 0 0 = some 9 ∧
        checks 256 0 2001 = some 9) ∧
      (checks 16 90000 0 = none ∧ marked 16 5 = true ∧ closeTime (new 16 90000 0) = 90600 ∧
        amendedState (new 16 90000 0) 90599 = .running ∧ 90599 < 90600) := by decide +kernel

/-- An amend to a close time that has come with start and late_window as they were, one that leaves the show
open, and a later start; the flags that ask for a DELAYED card. -/
theorem witness_amend_places_the_show :
    let sh : ShowRec := { house 0 0 0 .openHouse with
      flags := { (house 0 0 0 .openHouse).flags with autoDelay := true } }
    let b := readShowBody (showBody 64 0 0)
    let new := amended (marked 64) b sh
    let later := amended (marked 16) (readShowBody (showBody 16 90000 0)) sh
    (b.index = (5 : ShowIx).val ∧ sh.state.isLive = true ∧
      firstBad (amendFieldChecks (marked 64) b new) = none ∧
      (marked 64 5 || marked 64 6 || marked 64 7 || marked 64 8) = true ∧
      (marked 64 5 || marked 64 8) = false) ∧
      (amendedState new (closeTime new) = .closed ∧ amendedState new (closeTime new - 1) ≠ .closed) ∧
      (sh.start < later.start ∧ later.flags.autoDelay = true) := by decide +kernel

/-- A sale that fills a house of AUTO_SOLDOUT and one that does not, a refund out of FULL with soldout_asked set
and clear, a band that stays. -/
theorem witness_sold_out_requests :
    let sh (sold : Nat) : ShowRec := { house sold 0 0 .last with
      flags := { (house 0 0 0 .openHouse).flags with autoSoldout := true } }
    let full := recounted {} (sh 170) { sh 170 with sold := 180 }
    (asksSoldOut (sh 170) full = true ∧ full.soldoutAsked = true ∧
      (soldOutMsgs {} 5 (sh 170) { sh 170 with sold := 180 }).length = 1) ∧
      soldOutMsgs {} 5 (sh 170) { sh 170 with sold := 171 } = [] ∧
      (soldOutMsgs {} 5 full { full with sold := 100 } = [.clear 5] ∧
        (recounted {} full { full with sold := 100 }).soldoutAsked = false) ∧
      soldOutMsgs {} 5 { full with soldoutAsked := false }
        { full with sold := 100, soldoutAsked := false } = [] := by decide +kernel

/-! ## The tally and holds -/

theorem witness_FillCountsTheHouseAsGone :
    1 ≤ (house 0 0 0 .openHouse).capacity ∧
      (tally {} .last (house 173 10 2 .last)).oversold = true := by decide +kernel

/-- Index 63 and 64, no seats, one seat more than sold, and as many as sold. -/
theorem witness_RefundReturnsSeats :
    let s := withShowRec 63 (house 7 0 0 .openHouse) running
    HandedTo .refund (handed 10 [63, 0, 8, 0]) (give 10 [63, 0, 8, 0] s) ∧
      fieldAt (entryBody (handed 10 [64, 0, 8, 0]).bytes) 0 1 = 64 ∧
      fieldAt (entryBody (handed 10 [63, 0, 8, 0]).bytes) 0 1 = (63 : ShowIx).val ∧
      fieldAt (entryBody (handed 10 [63, 0, 0, 0]).bytes) 2 2 = 0 ∧
      (s.shows.recs[(63 : ShowIx)].state ≠ .empty ∧ s.shows.recs[(63 : ShowIx)].sold = 7) ∧
      s.shows.recs[(62 : ShowIx)].state = .empty := by decide +kernel

/-- A sale with no reference, with present 2, with the live hold's reference, with one of an older
generation, and on another show; a block of 0, one that ends at 2000 and one past it. -/
theorem witness_SaleAndBlockCountSeats :
    let sale (i p : Byte) (gen : Byte) : List Byte := [i, p, 6, 0, 3, gen]
    (fieldAt (entryBody (handed 9 (sale 5 0 0)).bytes) 0 1 = (5 : ShowIx).val ∧
      HandedTo .sale (handed 9 (sale 5 0 0)) (give 9 (sale 5 0 0) sound) ∧
      sound.shows.recs[(5 : ShowIx)].state = .selling) ∧
      (readSaleBody (sale 5 0 0)).seats ≠ 0 ∧ 1 < (readSaleBody (sale 5 2 0)).present ∧
      ((liveHold sound (readSaleBody (sale 5 1 1)).ref).map (·.1) = some 3 ∧
        (liveHold sound (readSaleBody (sale 5 1 1)).ref).map (·.2.showIx) = some 5) ∧
      liveHold sound (readSaleBody (sale 5 1 0)).ref = none ∧
      (fieldAt (entryBody (handed 11 [5, 0, 0, 0]).bytes) 0 1 = (5 : ShowIx).val ∧
        HandedTo .block (handed 11 [5, 0, 0, 0]) (give 11 [5, 0, 0, 0] sound)) ∧
      sound.shows.recs[(5 : ShowIx)].blocked = 2 ∧
      signedNat 2 (fieldAt [5, 0, 0xCE, 0x07] 2 2) = 1998 ∧
      signedNat 2 (fieldAt [5, 0, 0xCF, 0x07] 2 2) = 1999 ∧
      signedNat 2 (fieldAt [5, 0, 0xFD, 0xFF] 2 2) = -3 := by decide +kernel

/-- A SALE and a BLOCK of an index past the table, of an EMPTY and of a CANCELLED show; a SALE for no seats. -/
theorem witness_sale_and_block_refused :
    let cancelled : ShowRec := { house 0 0 0 .openHouse with state := .cancelled }
    (HandedTo .sale (handed 9 [64, 0, 1, 0]) (give 9 [64, 0, 1, 0] sound) ∧
      HandedTo .block (handed 11 [64, 0, 1, 0]) (give 11 [64, 0, 1, 0] sound) ∧
      64 ≤ fieldAt (entryBody (handed 9 [64, 0, 1, 0]).bytes) 0 1) ∧
      fieldAt (entryBody (handed 9 [63, 0, 0, 0]).bytes) 0 1 = (63 : ShowIx).val ∧
      (readSaleBody (entryBody (handed 9 [63, 0, 0, 0]).bytes)).seats = 0 ∧
      sound.shows.recs[(63 : ShowIx)].state = .empty ∧ cancelled.state = .cancelled ∧
      (house 0 0 0 .openHouse).state ≠ .empty ∧ (house 0 0 0 .openHouse).state ≠ .cancelled := by
  decide +kernel

/-- A request in hand of desk index 2 over the state `sound`. -/
def asks (k : DeskKind) (body : List Byte) : State := ask 2 k body sound

/-- The intake entry of `asks`. -/
def entryOf (k : DeskKind) (body : List Byte) : IntakeEntry := ⟨2, k, 9, body⟩

/-- A hold of all 20 seats the settings allow, of 21, and of a show that is not there. -/
theorem witness_HoldIsPlacedOrRefused :
    (requestInHand .hold (asks .hold [5, 20]) = some (entryOf .hold [5, 20]) ∧
      HasRoom (asks .hold [5, 20]) 2) ∧
      holdRefusal (asks .hold [5, 20]) 2 5 20 = none ∧
      freeHoldSlot (asks .hold [5, 20]) = some 0 ∧
      holdRefusal (asks .hold [5, 21]) 2 5 21 = some (.badSize, 22) ∧
      holdRefusal (asks .hold [64, 1]) 2 64 1 = some (.noShow, 0) := by decide +kernel

/-- The hold's own desk with its extensions unused and used up, another desk, and a dead reference. -/
theorem witness_ExtendRenewsTheExpiry :
    (requestInHand .extend (asks .extend [3, 1]) = some (entryOf .extend [3, 1]) ∧
      HasRoom (asks .extend [3, 1]) 2) ∧
      fieldAt (entryOf .extend [3, 1]).body 0 2 = 259 ∧
      liveHold sound 259 = some (3, ⟨2, 5, 6, 300, 0, 1⟩) ∧
      liveHold sound 3 = none ∧
      (requestInHand .extend (ask 1 .extend [3, 1] sound)).map (·.desk) = some 1 ∧
      (let s := { sound with
          shows := { sound.shows with
            holds := put sound.shows.holds 3 ⟨1, some ⟨2, 5, 6, 300, 2, 1⟩⟩ } };
        liveHold s 259 = some (3, ⟨2, 5, 6, 300, 2, 1⟩)) := by decide +kernel

/-- The hold released by its desk; its expiry one second off, and come. -/
theorem witness_ReleaseAndExpiryFreeTheHold :
    (requestInHand .release (asks .release [3, 1]) = some (entryOf .release [3, 1]) ∧
      HasRoom (asks .release [3, 1]) 2 ∧ liveHold (asks .release [3, 1]) 259 =
        some (3, ⟨2, 5, 6, 300, 0, 1⟩)) ∧
      liveHold sound 3 = none ∧
      ((asks .release [3, 1]).shows.holdList = 3 :: [] ∧
        holdAt (asks .release [3, 1]) 3 = some ⟨2, 5, 6, 300, 0, 1⟩) ∧
      ({ sound with clock := ⟨299, none, []⟩ } : State).clock.partSeconds < 300 ∧
      300 ≤ ({ sound with clock := ⟨300, none, []⟩ } : State).clock.partSeconds := by decide +kernel

theorem witness_AskAnswersTheShowStatus :
    requestInHand .ask (asks .ask [64]) = some (entryOf .ask [64]) ∧ HasRoom (asks .ask [64]) 2 ∧
      fieldAt (entryOf .ask [64]).body 0 1 = 64 ∧
      fieldAt (entryOf .ask [63]).body 0 1 = (63 : ShowIx).val := by decide +kernel

end Sys2Proof.Tests
end

