-- ==== Sys2Proof/Tests/WitnessesUnits.lean ====
section
/-! SUPPORT. Witnesses for the statements about the desk line, notices, features, displays, streams and
faults: concrete states and operands that meet the hypotheses of each clause. -/

namespace Sys2Proof.Tests

set_option Elab.async false

open Sys2Proof Sys2Proof.Machine

/-! ## The desk line -/

/-- A frame of bytes closed with its CRC. -/
def frame (kind seq : Byte) (body : List Byte) : List Byte :=
  let inner := BitVec.ofNat 8 (body.length + 2) :: kind :: seq :: body
  0x7E#8 :: inner ++ leBytes 2 (crc16 inner).toNat

/-- A good HOLD; length bytes of 1, 152 and 153; a frame one byte short; the three port states. -/
theorem witness_BytesGatherIntoFrames :
    let good := frame 1 9 [5, 4]
    let long (n : Byte) : List Byte := 0x7E#8 :: n :: List.replicate 154 0
    (running.desks.ports[(0 : DeskIx)].phase = .hunt ∧ 0x7F#8 ≠ 0x7E#8) ∧
      (frameError good false = none ∧ good.length = 8 ∧ (byteAt good 1).toNat + 4 = 8 ∧
        deskKind (byteAt good 2).toNat = some .hold ∧ bodyGood .hold 2 = true ∧
        running.desks.intake.length + 1 < running.desks.cfg.pauseOn) ∧
      (frameError (0x7E#8 :: 1 :: [0, 0, 0]) false = some .runt ∧
        frameError (good.take 7) true = some .runt ∧
        frameError (long 153) true = some .runt ∧
        frameError (long 153 ++ [0]) false = some .long ∧ (byteAt (long 152) 1).toNat < 153 ∧
        frameError (good.take 7 ++ [0]) false = some .crc) := by decide +kernel

/-- A frame whose 157th byte comes with no count complete; a port that takes the frame and one that does not;
an unknown kind and a bad length; a full and a not full intake, with the pause trigger one short and
met; a reply queue of 3 and of 4, and a port that drains. -/
theorem witness_every_frame_end :
    let start (n : Nat) : List Byte := 0x7E#8 :: 153 :: List.replicate n 0
    let good := frame 1 9 [5, 4]
    let port (st : PortState) (n : Nat) (dis : Bool) : Port :=
      { state := st, phase := .inFrame, rx := good.take 7, rxDisabled := dis,
        replyQ := List.replicate n ⟨0, .busy⟩ }
    let filled (n : Nat) : DeskLine :=
      { running.desks with intake := List.replicate n ⟨0, .hold, 9, [5, 4]⟩ }
    ((start 155).length = 157 ∧ ¬ (byteAt (start 155) 1).toNat < 153) ∧
      (good.take 7 ++ good.drop 7 = good ∧ good.length = 8) ∧
      ((port .draining 0 false).state ≠ .disabled ∧ (port .enabled 0 true).rxDisabled = true) ∧
      (frameError (frame 0x77 9 []) false = none ∧ deskKind 0x77 = none ∧
        frameError (frame 1 9 [5]) false = none ∧ deskKind 1 = some .hold ∧ bodyGood .hold 1 = false) ∧
      ((port .enabled 3 false).replyQ.length < 4 ∧ 4 ≤ (port .enabled 4 false).replyQ.length) ∧
      ((filled 31).intake.length < 32 ∧ 32 ≤ (filled 32).intake.length) ∧
      (running.desks.cfg.pauseOn ≠ 0 ∧ running.desks.paused = false ∧
        running.desks.cfg.pauseOn ≤ (filled (running.desks.cfg.pauseOn - 1)).intake.length + 1 ∧
        ¬ running.desks.cfg.pauseOn ≤ (filled (running.desks.cfg.pauseOn - 2)).intake.length + 1) := by
  decide +kernel

/-- A queue of one entry with the paused flag set and pause_off at 0; a port with a reply waiting, one
with none; the refresh timer run out. -/
theorem witness_HandsAndTransmittersMoveOn :
    let s := { running with
      desks := { running.desks with
        intake := [⟨0, .hold, 9, [5, 4]⟩], paused := true, pauseTimer := some 0
        ports := put running.desks.ports 0
          { state := .enabled, replyQ := [⟨0, .busy⟩], tx := some ⟨1, .busy⟩ } } }
    (s.desks.inHand = none ∧ s.desks.intake = ⟨0, .hold, 9, [5, 4]⟩ :: []) ∧
      (ask 0 .ask [0] running).desks.inHand.isSome = true ∧
      (s.desks.ports[(0 : DeskIx)].replyQ = ⟨0, .busy⟩ :: [] ∧
        s.desks.ports[(0 : DeskIx)].state = .enabled) ∧
      s.desks.ports[(1 : DeskIx)].replyQ = [] ∧
      s.desks.paused = true ∧ s.desks.pauseTimer = some 0 ∧
      (ask 0 .ask [0] s).desks.ports[(0 : DeskIx)].replyQ = [] ∧
      ([] : List IntakeEntry).length ≤ s.desks.cfg.pauseOff := by decide +kernel

/-- Desks 0, 1, 8 and 9; actions 2 and 3; clear flags 1 and 2. -/
theorem witness_DeskPortActsOnOnePort :
    let b (desk action clear : Byte) := entryBody (handed 21 [desk, action, clear]).bytes
    HandedTo .deskPort (handed 21 [8, 2, 1]) (give 21 [8, 2, 1] running) ∧
      fieldAt (b 0 0 0) 0 1 = 0 ∧ fieldAt (b 1 0 0) 0 1 = (0 : DeskIx).val + 1 ∧
      fieldAt (b 8 0 0) 0 1 = (7 : DeskIx).val + 1 ∧ 8 < fieldAt (b 9 0 0) 0 1 ∧
      (fieldAt (b 8 2 1) 1 1 ≤ 2 ∧ 2 < fieldAt (b 8 3 1) 1 1) ∧
      (fieldAt (b 8 2 1) 2 1 ≤ 1 ∧ 1 < fieldAt (b 8 2 2) 2 1) := by decide +kernel

/-- An ENABLED port disabled with replies waiting and a lost counter at its top; a DISABLED port enabled while
the desks are paused. -/
theorem witness_port_actions :
    let p : Port :=
      { state := .enabled, replyQ := [⟨0, .pause 9⟩, ⟨1, .busy⟩], counters := { lost := 65535 } }
    let paused : State := { running with desks := { running.desks with paused := true } }
    (p.state = .enabled ∧ p.counters.lost ≤ 65535 ∧ (p.replyQ.filter (!·.isPause)).length = 1) ∧
      fieldAt (entryBody (handed 21 [8, 1, 0]).bytes) 1 1 = 1 ∧
      paused.desks.ports[(7 : DeskIx)].state ≠ .enabled ∧ paused.desks.paused = true ∧
      running.desks.paused = false := by decide +kernel

/-! ## Notices -/

/-- A text notice for all displays. -/
def notice (o : Origin) (topic : Nat) (bound : Option ShowIx) (expiry : Option Nat) : Notice :=
  ⟨o, topic, 20, .all, ⟨.flat, 255⟩, bound, .text [72], false, 60, expiry, 1, none, 0⟩

/-- Slots 0 and 95 in use, by desk index 2 under topic 7 and by the schedule for show 5. -/
def posted : State :=
  { sound with
    clock := ⟨100, none, []⟩
    arb := { sound.arb with
      slots := put (put sound.arb.slots 0 ⟨1, some (notice (.desk 2) 7 none (some 100))⟩) 95
        ⟨0, some (notice .schedule 21 (some 5) (some 101))⟩
      order := [0, 95] } }

theorem posted_noneGone : NoneGone posted := by decide +kernel

/-- A post on a new key and on a live one, one bound to an EMPTY show, to a CLOSED one, one with a priority
of 64, and one with the table full. -/
theorem witness_PostsCreateOrCollapse :
    let body (topic priority bound : Byte) : List Byte :=
      [topic, priority, 0, 1, 0xFF, bound, 0, 0, 60, 0]
    let p (o : Origin) (topic bound : Byte) := (readPostBody (body topic 20 bound)).post o 20 [72] false
    let closed := withShowRec 4 { house 0 0 0 .openHouse with state := .closed } posted
    let full := { posted with
      arb := { posted.arb with
        slots := Vector.replicate 96 ⟨0, some (notice .boxOffice 1 none none)⟩, order := [0] } }
    HandedTo .noticePost (handed 19 (body 7 63 5)) (give 19 (body 7 63 5) posted) ∧
      (requestInHand .noticePost (ask 2 .noticePost (body 7 255 5) posted) =
          some ⟨2, .noticePost, 9, body 7 255 5⟩ ∧
        HasRoom (ask 2 .noticePost (body 7 255 5) posted) 2) ∧
      (let b (v : Byte) := readPostBody (body 7 v 5);
        badPostField ((2, decide ((b 63).priority ≤ 63)) :: postFieldChecks (b 63)) = none ∧
          badPostField ((2, decide ((b 64).priority ≤ 63)) :: postFieldChecks (b 64)) = some 2) ∧
      badPostField (postFieldChecks (readPostBody (body 7 255 64))) = some 6 ∧
      postResult (p .boxOffice 7 5) posted = .created 1 ∧
      postResult (p (.desk 2) 7 255) posted = .collapsed 0 ∧
      postResult (p .boxOffice 7 63) posted = .noShow 63 ∧
      postResult (p .boxOffice 7 4) closed = .deadShow .closed ∧
      postResult (p .boxOffice 7 5) full = .tableFull := by decide +kernel

theorem witness_full_noneGone :
    NoneGone { posted with
      arb := { posted.arb with
        slots := Vector.replicate 96 ⟨0, some (notice .boxOffice 1 none none)⟩, order := [0] } } := by
  decide +kernel

/-- A new notice ALL and a new one ANY_ONE in slot 1, which stands nowhere yet: a display of each state that
takes an ALL notice and one that takes none, and one of another tag; a display that fits an ANY_ONE
notice and one chosen before another by its level, and none that fits. -/
theorem witness_new_notices_placed :
    let p (mode : NoticeMode) (a : Byte) : Post :=
      { origin := .boxOffice, topic := 7, priority := 20, mode := mode, target := ⟨.cluster, a⟩,
        bound := none, content := .text [72], truncated := false, duration := 0 }
    let at_ (st : DisplayState) (floor : Nat) : ArbRec := { noticeState := st, tag := 0x31, floor := floor }
    let s : State := { posted with
      arb := { posted.arb with
        recs := put (put posted.arb.recs 14 (at_ .on 3)) 15 (at_ .on 2) } }
    NoneGone s ∧ (postResult (p .all 0x33) s = .created 1 ∧ postResult (p .anyOne 0x33) s = .created 1) ∧
      (∀ d : DisplayIx, (1 : NoticeIx) ∉ s.arb.recs[d].pending ∧ (1 : NoticeIx) ∉ s.arb.recs[d].stack) ∧
      (DisplayState.starting ∈ [DisplayState.starting, .on, .linkLost] ∧
        DisplayState.draining ∉ [DisplayState.starting, .on, .linkLost]) ∧
      (matchesTarget ⟨.cluster, 0x33⟩ 15 0x31#8 = true ∧
        matchesTarget ⟨.cluster, 0x33⟩ 15 0x34#8 = false) ∧
      (s.arb.recs[(15 : DisplayIx)].noticeState = .on ∧ s.arb.recs[(0 : DisplayIx)].noticeState = .off) ∧
      levelAt s 15 < levelAt s 14 := by decide +kernel

/-- The reference of slot 0 live and of an older generation; the notice of desk 2 and of no desk; the key of a
clear request live and not; one notice expired at its second, and none one second before. -/
theorem witness_NoticesEnd :
    (liveNotice posted 256).map (·.1) = some 0 ∧ liveNotice posted 0 = none ∧
      (liveNotice posted 95).map (·.2.origin) = some .schedule ∧
      HandedTo .noticeClear (handed 20 [0, 1]) (give 20 [0, 1] posted) ∧
      (requestInHand .noticeClear (ask 2 .noticeClear [0, 1] posted) =
          some ⟨2, .noticeClear, 9, [0, 1]⟩ ∧ HasRoom (ask 2 .noticeClear [0, 1] posted) 2) ∧
      fieldAt (entryBody (handed 20 [0, 1]).bytes) 0 2 = 256 ∧
      findKey posted .schedule ((1 + 4 * (5 : ShowIx).val) % 256) = some 95 ∧
      findKey posted .schedule ((1 + 4 * (6 : ShowIx).val) % 256) = none ∧
      (∀ i ∈ posted.arb.order, boundGone posted i = false) ∧
      (posted.arb.slots[(95 : NoticeIx)].notice.bind (·.bound)) = some 5 ∧
      (posted.arb.slots[(0 : NoticeIx)].notice.bind (·.bound)) ≠ some 5 ∧
      (posted.arb.slots[(0 : NoticeIx)].notice.bind (·.expiry)) = some 100 ∧
      (posted.arb.slots[(95 : NoticeIx)].notice.bind (·.expiry)) = some 101 ∧
      posted.clock.partSeconds = 100 := by decide +kernel

theorem witness_none_expired :
    ∀ i : NoticeIx, (({ posted with clock := ⟨99, none, []⟩ } : State).arb.slots[i].notice.bind
      (·.expiry)).all (99 < ·) = true := by decide +kernel

/-- Each report at the head of the queue; a cover timer run out with a candidate that may be pushed, with one
of a class too low, and with none. -/
theorem witness_ReportsMoveTheArbitration :
    let at_ (a : ArbRec) : State :=
      { posted with arb := { posted.arb with recs := put posted.arb.recs 15 a } }
    let due : ArbRec := { noticeState := .on, pending := [0], coverDue := true }
    ([DisplayReport.enabled 15 0x31#8, .linkUp 15, .linkLost 15, .draining 15, .off 15,
        .floor 15 16].all fun x =>
      ({ posted with bus := { posted.bus with displayReports := [x] } } : State).bus.displayReports
        == x :: []) = true ∧
      (posted.arb.slots[(0 : NoticeIx)].notice.map (·.mode)) = some .all ∧
      matchesTarget ⟨.flat, 255⟩ 15 0x31#8 = true ∧
      ((at_ due).arb.recs[(15 : DisplayIx)].coverDue = true ∧
        (at_ due).arb.recs[(15 : DisplayIx)].noticeState = .on) ∧
      (candidateOf (at_ due) 15 = some 0 ∧ mayPush (at_ due) 15 0 = true ∧
        boundGone (at_ due) 0 = false ∧ 0 < posted.arb.cfg.minCover) ∧
      mayPush (at_ { due with floor := 6 }) 15 0 = false ∧
      mayPush (at_ { due with floor := 5 }) 15 0 = true ∧
      candidateOf (at_ { due with pending := [] }) 15 = none := by decide +kernel

/-- A candidate that passes and that does not, as the manual's conditions put it; a display that comes up with
an UNPLACED notice for it; and two displays of which one is chosen first, by its empty stack. -/
theorem witness_placement :
    let due (floor : Nat) : State := { posted with
      arb := { posted.arb with
        recs := put posted.arb.recs 15
          { noticeState := .on, pending := [0], coverDue := true, floor := floor } } }
    let one (p : Option DisplayIx) : Notice :=
      { notice (.desk 2) 7 none none with mode := .anyOne, placed := p }
    let away (p : Option DisplayIx) : State := { posted with
      arb := { posted.arb with
        slots := put posted.arb.slots 0 ⟨1, some (one p)⟩, order := [0]
        recs := put (put posted.arb.recs 14 { noticeState := .on }) 15
          { noticeState := .on, pending := if p = none then [] else [0] } } }
    ((∃ older newer, (due 5).arb.order = older ++ (0 : NoticeIx) :: newer ∧ older = []) ∧
      (0 : NoticeIx) ∈ (due 5).arb.recs[(15 : DisplayIx)].pending ∧
      priorityIn (due 5) 0 = 20 ∧ levelAt (due 5) 15 ≤ priorityIn (due 5) 0 / 4 ∧
      ¬ levelAt (due 6) 15 ≤ priorityIn (due 6) 0 / 4) ∧
      ((away none).arb.slots[(0 : NoticeIx)].notice = some (one none) ∧
        (one none).placed = none ∧ matchesTarget (one none).target 15 0#8 = true ∧
        (away none).arb.recs[(15 : DisplayIx)].pending = []) ∧
      ((0 : NoticeIx) ∈ (away (some 15)).arb.recs[(15 : DisplayIx)].pending ∧
        (away (some 15)).arb.recs[(14 : DisplayIx)].noticeState = .on ∧
        boundGone (away (some 15)) 0 = false) := by
  refine ⟨⟨⟨[], [95], ?_, rfl⟩, ?_⟩, ?_⟩ <;> decide +kernel

/-! ## Features and decisions -/

/-- Slot 31 EMPTY, READY idle, READY streaming, VALIDATING; weights 15 and 16; locations 16 and 17. -/
theorem witness_FeatureEntriesActOnOneSlot :
    let b (w l : Byte) : List Byte := [31, w, 0, 0, 0, 0, 0, 0, l]
    let e (w l : Byte) := entryBody (handed 12 (b w l)).bytes
    (HandedTo .featureLoad (handed 12 (b 15 16)) (give 12 (b 15 16) running) ∧
      HandedTo .featureWeight (handed 13 [31, 15]) (give 13 [31, 15] running) ∧
      HandedTo .featureDrop (handed 14 [31]) (give 14 [31] running) ∧
      HandedTo .airtimeReset (handed 15 []) (give 15 [] running)) ∧
      fieldAt (e 15 16) 0 1 = (31 : FeatureIx).val ∧
      (HandedTo .featureDrop (handed 14 [32]) (give 14 [32] running) ∧
        32 ≤ fieldAt (entryBody (handed 14 [32]).bytes) 0 1) ∧
      (fieldAt (e 15 16) 1 1 ≤ 15 ∧ 15 < fieldAt (e 16 16) 1 1) ∧
      (fieldAt (e 15 16) 8 8 % 16 = 0 ∧ fieldAt (e 15 17) 8 8 % 16 ≠ 0) ∧
      (mayLoad {} = true ∧ mayLoad { state := .ready } = true ∧
        mayLoad { state := .ready, streamingCount := 1 } = false ∧
        mayLoad { state := .validating } = false) := by decide +kernel

/-- A header of 1 and of 257 chunks, chunks of 512 and 511 bytes before the last, totals of 5 and of 300
seconds and one byte more, failures one below the limit and at it, and a wait run out. -/
theorem witness_ValidationFollowsTheClip :
    let header (n rate : Nat) : List Byte :=
      padTo 32 ([1, 0] ++ leBytes 2 n ++ leBytes 4 rate)
    let list (l : List Nat) : List Byte := (l.map fun n => padTo 16 (leBytes 8 64 ++ leBytes 4 n)).flatten
    let s := setFeature 31 { state := .validating, validationNo := 255, validation := some {} } running
    let r := s.air.features[(31 : FeatureIx)]
    (reading (.header 31 255) 64 32 s).reads.slots[(0 : ReadSlot)] =
        some ⟨.header 31 255, 64, 32, false⟩ ∧
      (r.state = .validating ∧ r.validationNo = 255 ∧ r.validation = some {} ∧ r.validationNo ≠ 254) ∧
      (reading (.header 31 254) 64 32 s).reads.slots[(0 : ReadSlot)] =
        some ⟨.header 31 254, 64, 32, false⟩ ∧
      ((header 256 1000).length = 32 ∧ headerCheck (readClipHeader (header 256 1000)) = 0 ∧
        headerCheck (readClipHeader (header 257 1000)) = 3 ∧
        headerCheck (readClipHeader (header 256 999)) = 4) ∧
      ((list [512, 1]).length = 32 ∧
        (checkChunks 2 0 (readDescriptors (list [512, 1]) 2)).2.2 = none ∧
        (checkChunks 2 0 (readDescriptors (list [511, 1]) 2)).2.2 = some 0 ∧
        (checkChunks 2 0 (readDescriptors (list [512, 0]) 2)).2.2 = some 1) ∧
      ((4001 + 1000 - 1) / 1000 = 5 ∧ (4000 + 1000 - 1) / 1000 = 4 ∧
        (300000 + 1000 - 1) / 1000 = 300 ∧ (300001 + 1000 - 1) / 1000 = 301) ∧
      s.air.cfg.retry.retryLimit = 8 ∧
      ({ wait := some 0 } : Validation).wait = some 0 := by decide +kernel

/-- A request with three eligible features and one with none; releases of a drain's last stream, of the
last stream of a READY feature, and of one that streams nothing. -/
theorem witness_DecisionsPayAndCharge :
    let s := asking 1 (threeFeatures 0 0 0)
    (s.bus.decisions = ⟨1, 1, 7⟩ :: [] ∧
      ((List.finRange 32).filter fun f : FeatureIx =>
        s.air.features[f].state == .ready && 0 < effective s f &&
          (1#8).getLsbD s.air.features[f].formatClass) = [0, 1, 2]) ∧
      ((List.finRange 32).filter fun f : FeatureIx =>
        running.air.features[f].state == .ready && 0 < effective running f &&
          (1#8).getLsbD running.air.features[f].formatClass) = [] ∧
      (let release (st : FeatureState) : State :=
          setFeature 31 { state := st, streamingCount := 1 }
            { running with bus := { running.bus with streamReleases := [⟨31, .clipFault⟩] } };
        (release .draining).bus.streamReleases = ⟨31, .clipFault⟩ :: [] ∧
          (release .draining).air.features[(31 : FeatureIx)].state = .draining ∧
          (release .ready).bus.streamReleases = ⟨31, .clipFault⟩ :: [] ∧
          (release .ready).air.features[(31 : FeatureIx)].state = .ready ∧
          (release .ready).air.features[(31 : FeatureIx)].streamingCount = 1) ∧
      ({ running with bus := { running.bus with displayReleases := [⟨0, .notStarted⟩] } } :
        State).bus.displayReleases = ⟨0, .notStarted⟩ :: [] ∧
      running.air.features[(0 : FeatureIx)].streamingCount = 0 := by decide +kernel

/-- Shows that name feature 31, at the borders of near_window and of three times it, past their start, of
each band, FULL, and of no state with a boost; no show that names it; credits at the ends of their range and
one past them. -/
theorem witness_effective_weight :
    let naming (left : Int) (b : Band) (st : ShowState) : State :=
      withShowRec 63 { state := st, start := (100000 + left).toNat, capacity := 10, band := b,
                       feature := some 31 }
        (setFeature 31 { state := .ready, weight := 63 }
          { running with clock := { running.clock with lobby := some 100000 } })
    let w : Int := running.air.cfg.nearWindow
    let times (left : Int) (b : Band) (st : ShowState) : Nat := effective (naming left b st) 31 / 63
    ((naming w .few .selling).clock.lobby = some 100000 ∧
      (naming w .few .selling).shows.recs[(63 : ShowIx)].feature = some 31) ∧
      [times w .openHouse .selling, times (w + 1) .openHouse .selling, times (3 * w) .filling .seating,
        times (3 * w + 1) .few .seating, times (-1) .last .selling] = [3, 2, 3, 3, 4] ∧
      [times w .full .selling, times w .few .running, effective running 31] = [0, 0, 0] ∧
      (∀ i : ShowIx, running.shows.recs[i].feature ≠ some 31) ∧
      [clampCredit (-4097), clampCredit (-4096), clampCredit 4095, clampCredit 4096] =
        [-4096, -4096, 4095, 4095] := by decide +kernel

/-- The richest of the three is the last trailer and gives way, and the one eligible feature does not; a
DRAINING feature. -/
theorem witness_decision_winner :
    let paid (s : State) (f : FeatureIx) : Int := clampCredit (s.air.features[f].credit + effective s f)
    let e (s : State) : List FeatureIx := (List.finRange 32).filter fun f : FeatureIx =>
      s.air.features[f].state == .ready && 0 < effective s f &&
        (1#8).getLsbD s.air.features[f].formatClass
    let last (f : FeatureIx) (s : State) : State :=
      { s with air := { s.air with lastTrailer := put s.air.lastTrailer 1 (some f) } }
    let s := last 0 (threeFeatures 0 3 5)
    let one := setFeature 1 { state := .draining, streamingCount := 1 } (setFeature 2 {} s)
    (e s = [0, 1, 2] ∧ (e s).map (paid s) = [6, 6, 6] ∧
      s.air.lastTrailer[(1 : DisplayIx)] = some 0 ∧ e s ≠ [0]) ∧
      (e one = [0] ∧ one.air.features[(1 : FeatureIx)].state = .draining) := by decide +kernel

/-! ## Displays -/

/-- A display with a segment. -/
def display (st : DisplayState) (g : Segment) : DisplayRec :=
  { state := st, linkUp := true, segment := g, segmentNo := 255,
    setup := { loop := [.board, .trailer, .house 3] } }

/-- A state with display 15. -/
def shown (r : DisplayRec) (s : State) : State :=
  { s with displays := { s.displays with recs := put s.displays.recs 15 r } }

/-- A setup that marks floor alone at 16 and 17, one that marks the tag in ON; a display of each state. -/
theorem witness_DisplayEntriesActOnOneDisplay :
    let b (mask floor : Byte) : List Byte :=
      padTo 52 ([15, 0, mask, 0] ++ List.replicate 8 0 ++ [floor])
    let setup (mask floor : Byte) := readSetupBody (entryBody (handed 16 (b mask floor)).bytes)
    let bad (mask floor : Byte) :=
      badSetupField (marked (setup mask floor).mask) (setup mask floor)
        (setUp (marked (setup mask floor).mask) (setup mask floor) {})
    let s (g : Segment) : State := shown (display .on g) running
    (HandedTo .displaySetup (handed 16 (b 64 16)) (give 16 (b 64 16) (s .board)) ∧
      HandedTo .displayEnable (handed 17 [15]) (give 17 [15] (s .board)) ∧
      HandedTo .displayDisable (handed 18 [15]) (give 18 [15] (s .board))) ∧
      fieldAt (entryBody (handed 16 (b 64 16)).bytes) 0 1 = (15 : DisplayIx).val ∧
      (HandedTo .displayDisable (handed 18 [16]) (give 18 [16] (s .board)) ∧
        16 ≤ fieldAt (entryBody (handed 18 [16]).bytes) 0 1) ∧
      (marksOffField (marked (setup 64 16).mask) = false ∧ bad 64 16 = none ∧
        bad 64 17 = some 7) ∧
      (marksOffField (marked (setup 1 0).mask) = true ∧
        (s .board).displays.recs[(15 : DisplayIx)].state = .on) ∧
      running.displays.recs[(15 : DisplayIx)].state = .off ∧
      ((s .trailer).displays.recs[(15 : DisplayIx)].segment.onAir = true ∧
        (s .deciding).displays.recs[(15 : DisplayIx)].segment.onAir = false) ∧
      (s .trailer).displays.recs[(15 : DisplayIx)].suspended = false := by
  decide +kernel

/-- A STARTING display whose link comes up, one ON whose dwell has run out at the last loop slot, one that
decides and its reply, and one that plays a trailer, ON and DRAINING, and its end report. -/
theorem witness_DisplaysFollowTheirLoop :
    let up := shown { display .starting .none with linkUp := false } running
    let dwelt := shown { display .on .board with dwellDue := true, loopPos := 2 } running
    let deciding := shown (display .on .deciding)
      { running with bus := { running.bus with replies := [⟨15, 255, some 31⟩] } }
    let playing (st : DisplayState) := shown (display st .trailer)
      { running with bus := { running.bus with endReports := [⟨15, 255⟩] } }
    up.displays.recs[(15 : DisplayIx)].state = .starting ∧
      ((display .on .board).setup.loop[0]? = some .board ∧
        (display .on .board).setup.loop[1]? = some .trailer ∧
        (display .on .board).setup.loop[2]? = some (.house 3)) ∧
      (dwelt.displays.recs[(15 : DisplayIx)].dwellDue = true ∧
        dwelt.displays.recs[(15 : DisplayIx)].setup.loop.length ≤ 2 + 1 ∧
        ¬ dwelt.displays.recs[(15 : DisplayIx)].setup.loop.length ≤ 1 + 1) ∧
      (deciding.bus.replies = ⟨15, 255, some 31⟩ :: [] ∧
        deciding.displays.recs[(15 : DisplayIx)].state = .on ∧
        deciding.displays.recs[(15 : DisplayIx)].segment = .deciding ∧
        deciding.displays.recs[(15 : DisplayIx)].segmentNo = 255) ∧
      ((playing .on).bus.endReports = ⟨15, 255⟩ :: [] ∧
        (playing .on).displays.recs[(15 : DisplayIx)].segment = .trailer ∧
        (playing .draining).displays.recs[(15 : DisplayIx)].state = .draining) := by
  decide +kernel

/-- A display that decides and its BOARD reply, and a stale one; a link down in each state, on a BOARD page and
in a trailer. -/
theorem witness_board_reply_and_link_down :
    let s (no : Nat) := shown (display .on .deciding)
      { running with bus := { running.bus with replies := [⟨15, no, none⟩] } }
    ((s 255).bus.replies = ⟨15, 255, none⟩ :: [] ∧
      (s 255).displays.recs[(15 : DisplayIx)].state = .on ∧
      (s 255).displays.recs[(15 : DisplayIx)].segment = .deciding ∧
      (s 255).displays.recs[(15 : DisplayIx)].segmentNo = 255 ∧ (254 : Nat) ≠ 255) ∧
      ([DisplayState.off, .starting, .on, .linkLost, .draining].all fun st =>
        (shown (display st .board) running).displays.recs[(15 : DisplayIx)].state == st) = true ∧
      (shown (display .on .trailer) running).displays.recs[(15 : DisplayIx)].segment = .trailer := by
  decide +kernel

/-- A board list of the two shows of auditorium 0 and none under an empty mask; the first page of a display
that has none, the next, and the wrap; a HOUSE slot. -/
theorem witness_pages :
    let s := withShowRec 9 { house 0 0 0 .openHouse with start := 70000 }
      (withShowRec 5 (house 0 0 0 .openHouse) running)
    boardList s 1#24 = [9, 5] ∧ boardList s 2#24 = [] ∧
      ((display .on .board).page = none ∧
        ({ display .on .board with page := some 1 } : DisplayRec).page = some 1) ∧
      ((2 + 1 - 1) / 1 = 2 ∧ 2 ≤ 1 + 1 ∧ 0 + 1 < 2) ∧
      (display .on .board).setup.loop[2]? = some (.house 3) := by decide +kernel

/-- A display ON with a trailer, suspended 59 and 60 seconds of a limit of 60; a page on air with show 5,
and reports that it is listed no more, that its start moved, and of its avail alone. -/
theorem witness_PanelsFollowTakeoversAndReports :
    let r : DisplayRec :=
      { display .on .trailer with suspended := true, suspendStart := some 40, takeover := true }
    let s (now : Nat) (g : PanelSignal) : State :=
      shown r { running with
        clock := ⟨now, none, []⟩, bus := { running.bus with signals := [g] } }
    let page : State := shown { display .on .board with pageRows := [⟨5, false⟩] }
      (withShowRec 5 { house 0 0 0 .openHouse with flags := {} }
        { running with bus := { running.bus with showReports := [⟨5, [.listed], false⟩] } })
    ((s 99 (.takeoverEnd 15)).bus.signals = .takeoverEnd 15 :: [] ∧
      (s 99 (.takeoverEnd 15)).displays.recs[(15 : DisplayIx)] = r ∧ r.state = .on ∧
      r.suspended = true ∧ r.suspendStart = some 40) ∧
      ((s 99 (.takeoverEnd 15)).clock.partSeconds - 40 <
          (s 99 (.takeoverEnd 15)).displays.resumeLimit ∧
        (s 100 (.takeoverEnd 15)).displays.resumeLimit ≤
          (s 100 (.takeoverEnd 15)).clock.partSeconds - 40) ∧
      (s 0 (.takeoverBegin 15)).bus.signals = .takeoverBegin 15 :: [] ∧
      (s 0 (.strip 15 none)).bus.signals = .strip 15 none :: [] ∧
      ((display .on .trailer).segment.onAir = true ∧ (display .on .trailer).suspended = false) ∧
      (page.bus.showReports = ⟨5, [.listed], false⟩ :: [] ∧
        page.displays.recs[(15 : DisplayIx)].segment = .board ∧
        ⟨5, false⟩ ∈ page.displays.recs[(15 : DisplayIx)].pageRows) ∧
      (page.shows.recs[(5 : ShowIx)].flags.listed = false ∧
        ReportField.listed ∉ [ReportField.start] ∧ ReportField.avail ∉ [ReportField.start]) ∧
      ((⟨5, [.state], true⟩ : ShowReport).dropped = true ∧
        (5 : ShowIx) ∉ page.displays.recs[(15 : DisplayIx)].renewed) ∧
      (let s := shown { display .on .board with pageRows := [⟨5, false⟩], renewed := [5] }
          (withShowRec 5 (house 0 0 0 .openHouse) running);
        (5 : ShowIx) ∈ s.displays.recs[(15 : DisplayIx)].renewed ∧
          s.shows.recs[(5 : ShowIx)].flags.listed = true ∧
          s.shows.recs[(5 : ShowIx)].state = .selling) ∧
      (r.state = .on ∧ r.segment.onAir = true ∧ r.suspended = true) := by decide +kernel

/-! ## Streams -/

/-- A feature of one chunk of 9000 bytes, and display 15 streaming it. -/
def streaming (r : StreamRec) : State :=
  let s := setFeature 31
    { state := .ready, byteRate := 1000, chunkCount := 1, chunks := [⟨4096, 9000⟩], totalBytes := 9000 }
    running
  { s with stream := { s.stream with recs := put s.stream.recs 15 r } }

/-- A segment of display 15. -/
def segment (p : StreamPhase) : StreamRec := { phase := p, segmentNo := 7, feature := 31 }

/-- Each request for segment 7 at the head of the queue, on a display that is IDLE, that fills, and that plays
held and not, with a burst issued and in its wait; a start into a DRAINING feature; a resume of a marked
segment; and a drain of its feature. -/
theorem witness_StreamRequestsActOnTheNamedSegment :
    let s (r : StreamRec) (x : StreamRequest) : State :=
      { streaming r with bus := { running.bus with streamReqs := [x], drainReqs := [31] } }
    let playing := segment .playing
    ([StreamRequest.start 15 31 7 64 112 false, .hold 15 7, .resume 15 7, .finish 15 7,
        .abandon 15 7].all fun x => (s playing x).bus.streamReqs == x :: []) = true ∧
      ((s (segment .idle) (.hold 15 7)).stream.recs[(15 : DisplayIx)].phase = .idle ∧
        (s (segment .idle) (.hold 15 7)).air.features[(31 : FeatureIx)].state ≠ .draining ∧
        0 < (s (segment .idle) (.hold 15 7)).air.features[(31 : FeatureIx)].totalBytes) ∧
      ((s playing (.hold 15 7)).stream.recs[(15 : DisplayIx)].phase ≠ .idle ∧
        (s playing (.hold 15 7)).stream.recs[(15 : DisplayIx)].segmentNo = 7 ∧
        (s playing (.hold 15 8)).stream.recs[(15 : DisplayIx)].segmentNo ≠ 8) ∧
      (playing.held = false ∧ playing.issued = false ∧ playing.endMarked = false) ∧
      (setFeature 31 { state := .draining } (s (segment .idle) (.start 15 31 7 64 112 true))).air.features[
          (31 : FeatureIx)].state = .draining ∧
      ({ playing with held := true, endMarked := true } : StreamRec).endMarked = true ∧
      ({ playing with burst := some ⟨4096, 8192, 0, none⟩ } : StreamRec).issued = true ∧
      ({ playing with burst := some ⟨4096, 8192, 1, some 3⟩ } : StreamRec).issued = false ∧
      ((s playing (.hold 15 7)).bus.drainReqs = 31 :: [] ∧
        (s playing (.hold 15 7)).stream.recs[(15 : DisplayIx)].feature = 31) := by decide +kernel

/-- A drain of feature 31 that ends one segment, marks one that is held, and leaves one of another feature. -/
theorem witness_drain_ends_and_marks :
    let s0 := streaming (segment .filling)
    let s : State := { s0 with
      stream := { s0.stream with
        recs := put (put s0.stream.recs 14 { segment .playing with held := true }) 13
          { segment .playing with feature := 30 } }
      bus := { s0.bus with drainReqs := [31] } }
    let ends (e : DisplayIx) : Bool :=
      s.stream.recs[e].phase != .idle && s.stream.recs[e].feature == 31 &&
        !s.stream.recs[e].held && !s.stream.recs[e].issued
    s.bus.drainReqs = 31 :: [] ∧ (List.finRange 16).filter ends = [15] ∧
      (s.stream.recs[(14 : DisplayIx)].phase ≠ .idle ∧ s.stream.recs[(14 : DisplayIx)].feature = 31 ∧
        s.stream.recs[(14 : DisplayIx)].held = true) ∧
      s.stream.recs[(13 : DisplayIx)].feature ≠ 31 := by decide +kernel

/-- A burst of the whole 8,192 bytes, one of the 808 left, its last byte; failures; a wait run out. -/
theorem witness_BurstsFillTheBuffer :
    let s := streaming { segment .filling with requesting := true }
    let b : Burst := ⟨4096, 8192, 7, none⟩
    nextGrant s = some 15 ∧ nextGrant running = none ∧
      s.air.features[(31 : FeatureIx)].chunks[0]? = some ⟨4096, 9000⟩ ∧
      s.reads.queue.any (·.granted) = false ∧
      (min 8192 (min (131072 - 0) (9000 - 0)) = 8192 ∧
        min 8192 (min (131072 - 8192) (9000 - 8192)) = 808 ∧ 9000 ≤ 8192 + 808) ∧
      ({ segment .filling with burst := some b } : StreamRec).issued = true ∧
      b.failures + 1 = s.stream.cfg.retry.retryLimit ∧
      (6 + 1 < s.stream.cfg.retry.retryLimit ∧ (0xAC80#16).toNat % 2 ^ min 7 10 = 0) ∧
      (reading (.burst 15 0) 4096 8192 s).reads.slots[(0 : ReadSlot)] =
        some ⟨.burst 15 0, 4096, 8192, false⟩ ∧
      ({ b with wait := some 0 } : Burst).wait = some 0 ∧
      (let r : StreamRec := { segment .filling with burst := some b, endMarked := true };
        r.endMarked = true ∧ r.held = false ∧ ({ r with held := true } : StreamRec).held = true) ∧
      (let r : StreamRec := { segment .filling with lowMark := 8193, highMark := 16384 };
        0 + 8192 < r.lowMark ∧ ¬ r.highMark ≤ 0 + 8192 ∧ r.highMark ≤ 8192 + 8192 ∧
          ¬ 9000 ≤ 0 + 8192) := by
  decide +kernel

/-- A send due with an allowance of 1,024 on an empty buffer and on one of 1,024 bytes; the last 808 bytes
of the clip; an underrun episode at its limit. -/
theorem witness_SendsDrainTheBuffer :
    let r : StreamRec := { segment .playing with allowance := 1024 }
    let s := streaming r
    (r.phase = .playing ∧ r.held = false ∧ min 1024 (9000 - r.bytesSent) ≤ r.allowance ∧
      s.stream.links[(15 : DisplayIx)].clip = none ∧ r.inUnderrun = false) ∧
      (r.buffer = [] ∧ ({ r with buffer := [1] } : StreamRec).buffer ≠ []) ∧
      (min 1024 (9000 - 8192) = 808 ∧ 9000 ≤ 8192 + 808 ∧ 8192 + 807 < 9000) ∧
      ({ r with inUnderrun := true, underrunDue := true } : StreamRec).underrunDue = true ∧
      (1024 ≤ 1023 + (1000 + r.carry) / 1000 ∧ ¬ 1024 ≤ 1022 + (1000 + r.carry) / 1000) ∧
      ((some 1 : Option Nat).map (· - 1) = some 0 ∧
        (some ⟨4096, 8192, 1, some 3⟩ : Option Burst).map (·.wait) = some (some 3)) ∧
      ({ r with allowance := 1023 } : StreamRec).allowance < min 1024 (9000 - r.bytesSent) ∧
      (let q : StreamRec := { r with lowMark := 4096, highMark := 8192, bytesFetched := 8192 };
        5119 - 1024 < q.lowMark ∧ ¬ 5120 - 1024 < q.lowMark ∧ ¬ 9000 ≤ q.bytesFetched ∧
          q.endMarked = false) := by
  decide +kernel

/-! ## Faults -/

/-- A raise of a cause masked for detection, of one that is not, and of each severity; an empty first record
and a full one with a count at its top. -/
theorem witness_RaisesAreRecorded :
    let x : Raise := ⟨.panelLinkLost, .display 15, noCapture⟩
    ({ running with bus := { running.bus with raises := [(.displayController, x)] } } : State).bus.raises =
        (.displayController, x) :: [] ∧
      running.faults.cfg[x.cause.code].detectMask = false ∧
      running.faults.cfg[x.cause.code].severity = .minor ∧
      (put running.faults.cfg x.cause.code ⟨.severe, true, true⟩)[x.cause.code].detectMask = true ∧
      (running.faults.of .minor).first = none ∧
      (⟨some ⟨.panelLinkLost, .none, 0, []⟩, [], 65535⟩ : SeverityRec).first ≠ none := by
  decide +kernel

/-- Values 0, 1 and 2, records empty and filled. -/
theorem witness_FaultClearEmptiesOneSeverity :
    let value (b : Byte) := fieldAt (entryBody (handed 22 [b]).bytes) 0 1
    HandedTo .faultClear (handed 22 [1]) (give 22 [1] running) ∧
      (value 0 = 0 ∧ value 1 = 1 ∧ 1 < value 2) ∧ running.faults.of .severe = {} ∧
      ({ first := some ⟨.anchorBad, .none, 0, []⟩ } : SeverityRec) ≠ {} := by decide +kernel

end Sys2Proof.Tests
end

/-! SUPPORT. The seat tally: fill counts the seats gone from avail (R23), and a REFUND lowers sold and counts
the show again (R31). -/

namespace Sys2Proof.Machine

/-! ## fill -/

/-- The seats that avail counts as gone: all that are sold, held or blocked, and never more than there
are (R22). -/
theorem capacity_sub_availOf (sh : ShowRec) :
    sh.capacity - availOf sh = min sh.capacity (sh.sold + sh.held + sh.blocked) := by
  unfold availOf
  omega

theorem fillOf_le (capacity avail : Nat) : fillOf capacity avail ≤ 1000 := by
  refine Nat.div_le_of_le_mul ?_
  rw [Nat.mul_comm capacity]
  exact Nat.mul_le_mul_left 1000 (Nat.sub_le capacity avail)

theorem fillOf_availOf (sh : ShowRec) :
    fillOf sh.capacity (availOf sh) =
      1000 * min sh.capacity (sh.sold + sh.held + sh.blocked) / sh.capacity := by
  rw [fillOf, capacity_sub_availOf]

theorem fillOf_eq_1000_of_oversold {sh : ShowRec} (hc : 1 ≤ sh.capacity)
    (ho : oversoldOf sh = true) : fillOf sh.capacity (availOf sh) = 1000 := by
  have gone : sh.capacity < sh.sold + sh.held + sh.blocked := by simpa [oversoldOf] using ho
  rw [fillOf_availOf, Nat.min_eq_left gone.le]
  exact Nat.mul_div_cancel 1000 hc

/-! ## Show indices -/

theorem indexOf?_val {n : Nat} (i : Fin n) : indexOf? n i.val = some i := by
  simp [indexOf?]

theorem indexOf?_of_le {n k : Nat} (h : n ≤ k) : indexOf? n k = none := by
  simp [indexOf?, h]

/-! ## The end of a tally entry -/

/-- A tally entry that sets the record of show `i` to `now` ends with that record counted again, and
writes nothing else of the Show Table (R26). -/
theorem endTally_shows (code : OutcomeCode) (i : ShowIx) (before now : ShowRec)
    (capture : List Byte) (s : State) :
    (endTally code i before capture (setShow i now s)).shows =
      { s.shows with recs := put s.shows.recs i (recounted s.shows.cfg before now) } := by
  obtain ⟨hshows, -⟩ := commitRecount_effect i before capture (setShow i now s)
  simpa [endTally, finishAvail, setShow, put_put_same] using hshows

/-- The recount of a tally entry asks for the SOLD_OUT notice or its clear, and nothing else
(R36, R37). -/
theorem endTally_toArbiter (code : OutcomeCode) (i : ShowIx) (before now : ShowRec)
    (capture : List Byte) (s : State) :
    (endTally code i before capture (setShow i now s)).bus.toArbiter =
      s.bus.toArbiter ++ soldOutMsgs s.shows.cfg i before now := by
  obtain ⟨-, hbus, -⟩ := commitRecount_effect i before capture (setShow i now s)
  simpa [endTally, finishAvail] using hbus

/-- The outcome of a tally entry carries the avail of the record as counted. -/
theorem endTally_ends {f : Flight} {s : State} (code : OutcomeCode) (i : ShowIx)
    (before : ShowRec) (capture : List Byte)
    (hf : s.win.flight = some f) (hv : s.win.windowValid = true) :
    EndsWith code (endTally code i before capture s).shows.recs[i].avail f
      (endTally code i before capture s) := by
  obtain ⟨-, -, -, hflight, hvalid, -⟩ := commitRecount_effect i before capture s
  have hends := finish_ends code
    (commitShow i before (recompute i before capture s)).shows.recs[i].avail
    (hflight.trans hf) (hvalid.trans hv)
  simpa [endTally, finishAvail] using hends

/-! ## REFUND -/

theorem takeRefund_of_le {n : Nat} (h : 64 ≤ n) (seats : Nat) (capture : List Byte) (s : State) :
    takeRefund n seats capture s = finish .badIndex 0 s := by
  simp only [takeRefund, indexOf?_of_le h]

theorem takeRefund_of_empty {i : ShowIx} {s : State} (h : s.shows.recs[i].state = .empty)
    (seats : Nat) (capture : List Byte) :
    takeRefund i.val seats capture s = finish .noRecord 0 s := by
  simp only [takeRefund, indexOf?_val, if_pos h]

theorem takeRefund_of_noSeats {i : ShowIx} {s : State} (h : s.shows.recs[i].state ≠ .empty)
    (capture : List Byte) : takeRefund i.val 0 capture s = finish .badField 1 s := by
  simp only [takeRefund, indexOf?_val, if_neg h, if_true]

theorem takeRefund_of_seats {i : ShowIx} {s : State} {seats : Nat}
    (h : s.shows.recs[i].state ≠ .empty) (hseats : seats ≠ 0) (capture : List Byte) :
    takeRefund i.val seats capture s =
      endTally (if s.shows.recs[i].sold < seats then .clamped else .done) i s.shows.recs[i] capture
        (setShow i { s.shows.recs[i] with sold := s.shows.recs[i].sold - seats } s) := by
  simp only [takeRefund, indexOf?_val, if_neg h, if_neg hseats]

/-- A REFUND leaves the Show Table as it is, or writes the record of the show it names and nothing else:
no hold and no Hold List entry (R31). -/
theorem takeRefund_shows (n seats : Nat) (capture : List Byte) (s : State) :
    (takeRefund n seats capture s).shows = s.shows ∨
      ∃ (i : ShowIx) (now : ShowRec), n = i.val ∧
        (takeRefund n seats capture s).shows =
          { s.shows with recs := put s.shows.recs i now } := by
  by_cases hn : 64 ≤ n
  · exact .inl (by simp [takeRefund_of_le hn])
  obtain ⟨i, rfl⟩ : ∃ i : ShowIx, n = i.val := ⟨⟨n, Nat.lt_of_not_le hn⟩, rfl⟩
  by_cases hempty : s.shows.recs[i].state = .empty
  · exact .inl (by simp [takeRefund_of_empty hempty])
  by_cases hseats : seats = 0
  · subst hseats
    exact .inl (by simp [takeRefund_of_noSeats hempty])
  · exact .inr ⟨i, _, rfl, by rw [takeRefund_of_seats hempty hseats, endTally_shows]⟩

theorem takeRefund_holds (n seats : Nat) (capture : List Byte) (s : State) :
    (takeRefund n seats capture s).shows.holds = s.shows.holds ∧
      (takeRefund n seats capture s).shows.holdList = s.shows.holdList := by
  obtain h | ⟨i, now, -, h⟩ := takeRefund_shows n seats capture s <;> rw [h] <;> exact ⟨rfl, rfl⟩

theorem takeRefund_otherShowsStay (i : ShowIx) (seats : Nat) (capture : List Byte) (s : State) :
    OtherShowsStay i s (takeRefund i.val seats capture s) := by
  intro j hj
  obtain h | ⟨i', now, hi, h⟩ := takeRefund_shows i.val seats capture s
  · rw [h]
  · obtain rfl : i = i' := Fin.ext hi
    rw [h]
    exact put_other s.shows.recs i j now hj

/-- A REFUND handed over is taken by its body's show index and seats (R31). -/
theorem exec_refund_handed {s : State} {f : Flight} (h : handedEntry .refund s = some f) :
    exec .refund s = .next (takeRefund (fieldAt (entryBody f.bytes) 0 1)
      (fieldAt (entryBody f.bytes) 2 2) (f.bytes.take 16) s) :=
  congrArg Host.Outcome.next (takeEntry_handed h _)

/-- sold less the seats of a REFUND is 0 where more than are sold come back (R31). -/
theorem sub_eq_clamped (sold seats : Nat) :
    sold - seats = if sold < seats then 0 else sold - seats := by
  split <;> omega

/-! ## The statements -/

/-- Settles O37: avail counts as gone the smaller of the capacity and the seats sold, held and blocked, so
fill is at most 1000 and is 1000 where the house is oversold. -/
theorem fillCountsTheHouseAsGone : Obligations.FillCountsTheHouseAsGone := by
  intro bs prev sh hc
  exact ⟨rfl, fillOf_le _ _, fillOf_eq_1000_of_oversold hc, fillOf_availOf sh⟩

/-- Settles O38, by the checks of a REFUND in order; the recount is that of every tally entry. -/
theorem refundReturnsSeats : Obligations.RefundReturnsSeats := by
  intro s f ⟨hf, hv⟩ index seats
  have hflight : s.win.flight = some f := handedEntry_flight hf
  have refused (code : OutcomeCode) (detail : Nat) :
      (finish code detail s).shows = s.shows ∧ EndsWith code detail f (finish code detail s) :=
    ⟨by simp, finish_ends code detail hflight hv⟩
  obtain ⟨hholds, hlist⟩ := takeRefund_holds index seats (f.bytes.take 16) s
  refine ⟨_, exec_refund_handed hf, hholds, hlist, fun hn => ?badIndex, fun i hi => ?named⟩
  case badIndex =>
    rw [takeRefund_of_le hn]
    exact refused .badIndex 0
  case named =>
    rw [show fieldAt (entryBody f.bytes) 0 1 = i.val from hi]
    refine ⟨takeRefund_otherShowsStay i _ _ s, fun hempty => ?empty, fun hempty hseats => ?noSeats,
      fun hempty hseats => ?taken⟩
    case empty =>
      rw [takeRefund_of_empty hempty]
      exact refused .noRecord 0
    case noSeats =>
      rw [show fieldAt (entryBody f.bytes) 2 2 = 0 from hseats, takeRefund_of_noSeats hempty]
      exact refused .badField 1
    case taken =>
      rw [takeRefund_of_seats hempty hseats, ← sub_eq_clamped]
      refine ⟨?_, endTally_toArbiter _ _ _ _ _ _, endTally_ends _ _ _ _ hflight hv⟩
      rw [endTally_shows]
      exact put_same s.shows.recs i _

end Sys2Proof.Machine

/-! SUPPORT. Control reads: each carries the session at its issue, and one that ends in another session
frees its read slot and does nothing else (R159). -/

namespace Sys2Proof.Machine

/-! ## The text read -/

theorem textTaken_le_maxText (f : Flight) : textTaken f ≤ maxText :=
  Nat.min_le_right _ _

/-! ## Stale completions -/

section
variable {slot : ReadSlot} {bytes : List Byte} {s : State} {session addr len : Nat} {g : Bool}

theorem execAnchorReadDone_stale (hstale : session ≠ s.win.session)
    (hread : s.reads.slots[slot] = some ⟨.anchor session, addr, len, g⟩)
    (hlen : bytes.length = 256) :
    execAnchorReadDone slot bytes s = .next (freeRead slot s) := by
  rw [execAnchorReadDone, hread, answer_next _ _ (by simp [Instr.wellFormed, hlen])]
  exact congrArg Host.Outcome.next (if_neg hstale)

theorem execPublishMarkReadDone_stale (hstale : session ≠ s.win.session)
    (hread : s.reads.slots[slot] = some ⟨.publishMark session, addr, len, g⟩)
    (hlen : bytes.length = 4) :
    execPublishMarkReadDone slot bytes s = .next (freeRead slot s) := by
  rw [execPublishMarkReadDone, hread, answer_next _ _ (by simp [Instr.wellFormed, hlen])]
  exact congrArg Host.Outcome.next (if_neg hstale)

/-- The entry in flight, if any, is not the one that a stale entry read was for: it stays as it is. -/
theorem execEntryReadDone_stale (hstale : session ≠ s.win.session)
    (hread : s.reads.slots[slot] = some ⟨.entry session, addr, len, g⟩)
    (hlen : bytes.length = 64) :
    execEntryReadDone slot bytes s = .next (freeRead slot s) := by
  rw [execEntryReadDone, hread, answer_next _ _ (by simp [Instr.wellFormed, hlen])]
  cases hf : s.win.flight with
  | none => simp [hf]
  | some f => simp [hf, hstale]

/-- The entry in flight, if any, does not get the text of a stale text read. -/
theorem execTextReadDone_stale (hstale : session ≠ s.win.session)
    (hread : s.reads.slots[slot] = some ⟨.text session, addr, bytes.length, g⟩)
    (hpos : 1 ≤ bytes.length) (hmax : bytes.length ≤ 120) :
    execTextReadDone slot bytes s = .next (freeRead slot s) := by
  rw [execTextReadDone, hread, answer_next _ _ (by simp [Instr.wellFormed, hpos, hmax])]
  cases hf : s.win.flight with
  | none => simp [hf]
  | some f => simp [hf, hstale]

/-- A stale failure is not counted, whichever control read it was. -/
theorem execControlReadFailed_stale (hstale : session ≠ s.win.session) {id : ReadId}
    (hid : id ∈ [.anchor session, .publishMark session, .entry session, .text session])
    (hread : s.reads.slots[slot] = some ⟨id, addr, len, g⟩) :
    execControlReadFailed slot s = .next (freeRead slot s) := by
  rw [execControlReadFailed, hread]
  simp only [List.mem_cons, List.not_mem_nil, or_false] at hid
  obtain rfl | rfl | rfl | rfl := hid <;> exact congrArg Host.Outcome.next (if_neg hstale)

end

/-! ## The statement -/

/-- Settles O21: each control read is a read request that names the session it is issued in, and the
completion of one of another session frees its slot. -/
theorem staleControlReadsAreDiscarded : Obligations.StaleControlReadsAreDiscarded := by
  refine ⟨fun s f => ⟨?anchor, ?publishMark, ?entry, ?text⟩, ?stale⟩
  case anchor => exact issueRead_outstanding _ s
  case publishMark => exact issueRead_outstanding _ s
  case entry => exact issueRead_outstanding _ s
  case text => exact ⟨textTaken f, textTaken_le_maxText f, issueRead_outstanding _ s⟩
  case stale =>
    intro slot bytes s session addr g len hstale
    exact ⟨execAnchorReadDone_stale hstale, execPublishMarkReadDone_stale hstale,
      execEntryReadDone_stale hstale, execTextReadDone_stale hstale,
      fun _ => execControlReadFailed_stale hstale⟩

end Sys2Proof.Machine

/-! SUPPORT. FAULT_CLEAR: its field 1 names the severity whose records it empties (R177). -/

namespace Sys2Proof.Machine

/-! ## The end of an entry with the window valid -/

/-- An entry in flight that ends while the window is valid gets its outcome, its outcome write is
placed, and nothing else changes (R164). -/
theorem finish_inFlight {f : Flight} {s : State} (code : OutcomeCode) (detail : Nat)
    (hf : s.win.flight = some f) (hv : s.win.windowValid = true) :
    finish code detail s = { s with win := { s.win with
      flight := some { f with
        phase := .writing, taken := true, awaiting := [], outcome := some ⟨code, detail, []⟩ }
      writeQ := placeIn (outcomeWrite s f ⟨code, detail, []⟩) s.win.writeQ } } := by
  simp [finish, finishWith, hf, placeWrite_only, hv]

/-! ## The records of a severity -/

theorem replaced_self (u : FaultUnit) (sev : Severity) : u.replaced sev (u.of sev) = u := by
  cases sev <;> rfl

theorem clearFaults_of_empty {s : State} {sev : Severity} (h : s.faults.of sev = {}) :
    clearFaults sev s = finish .done 0 s := if_pos h

theorem clearFaults_of_filled {s : State} {sev : Severity} (h : s.faults.of sev ≠ {}) :
    clearFaults sev s = finish .done (s.faults.of sev).count
      (handMirror (.fault sev) { s with faults := s.faults.replaced sev {} }) := if_neg h

/-- A clear empties the records of its severity and ends the entry in flight with the count of the
next record as it stood, and changes nothing else but the write queue and the versions (R177). -/
theorem clearFaults_only {f : Flight} {s : State} (sev : Severity)
    (hf : s.win.flight = some f) (hv : s.win.windowValid = true) :
    ∃ q v, clearFaults sev s = { s with
      faults := s.faults.replaced sev {}
      win := { s.win with
        flight := some { f with
          phase := .writing, taken := true, awaiting := []
          outcome := some ⟨.done, (s.faults.of sev).count, []⟩ }
        writeQ := q
        versions := v } } := by
  by_cases h : s.faults.of sev = {}
  · have hstays : s.faults.replaced sev {} = s.faults := h ▸ replaced_self s.faults sev
    rw [clearFaults_of_empty h, finish_inFlight _ _ hf hv, hstays, h]
    exact ⟨_, _, rfl⟩
  · obtain ⟨q, v, hand⟩ :=
      handMirror_only (.fault sev) { s with faults := s.faults.replaced sev {} }
    rw [clearFaults_of_filled h, hand]
    exact ⟨_, _, finish_inFlight _ _ hf hv⟩

/-- A clear of empty records places the outcome write and no mirror write (R177). -/
theorem clearFaults_noMirror {f : Flight} {s : State} {sev : Severity}
    (hf : s.win.flight = some f) (hv : s.win.windowValid = true) (h : s.faults.of sev = {}) :
    (clearFaults sev s).win.versions = s.win.versions ∧
      (clearFaults sev s).win.writeQ =
        placeIn (outcomeWrite s f ⟨.done, 0, []⟩) s.win.writeQ := by
  rw [clearFaults_of_empty h, finish_inFlight _ _ hf hv]
  exact ⟨rfl, rfl⟩

/-! ## The severity an entry names -/

theorem severityCode_injective : Function.Injective severityCode := by
  intro a b h
  cases a <;> cases b
  case severe.severe | minor.minor => rfl
  case severe.minor | minor.severe => exact absurd h (by decide)

theorem le_one_iff_severityCode {n : Nat} : n ≤ 1 ↔ ∃ sev, n = severityCode sev := by
  rw [Nat.le_one_iff_eq_zero_or_eq_one]
  constructor
  · rintro (rfl | rfl)
    · exact ⟨.severe, rfl⟩
    · exact ⟨.minor, rfl⟩
  · rintro ⟨_ | _, rfl⟩
    · exact .inl rfl
    · exact .inr rfl

theorem exec_faultClear_severity {s : State} {f : Flight} {sev : Severity}
    (h : handedEntry .faultClear s = some f)
    (hsev : fieldAt (entryBody f.bytes) 0 1 = severityCode sev) :
    exec .faultClear s = .next (clearFaults sev s) := by
  refine congrArg Host.Outcome.next ((takeEntry_handed h _).trans ?_)
  cases sev <;> simp only [hsev, severityCode]

theorem exec_faultClear_badField {s : State} {f : Flight}
    (h : handedEntry .faultClear s = some f) (hbad : 1 < fieldAt (entryBody f.bytes) 0 1) :
    exec .faultClear s = .next (finish .badField 1 s) := by
  refine congrArg Host.Outcome.next ((takeEntry_handed h _).trans ?_)
  split
  · omega
  · omega
  · rfl

/-! ## The statement -/

/-- Settles O60, by the value of field 1: above 1 the entry is refused, else it is the code of the
one severity that is cleared. -/
theorem faultClearEmptiesOneSeverity : Obligations.FaultClearEmptiesOneSeverity := by
  intro s f ⟨hf, hv⟩ value
  have hflight : s.win.flight = some f := handedEntry_flight hf
  obtain hbad | hle := Nat.lt_or_ge 1 value
  case inl =>
    refine ⟨_, exec_faultClear_badField hf hbad, ?_⟩
    rw [finish_inFlight _ _ hflight hv]
    refine ⟨rfl, rfl, rfl, rfl, fun _ => ⟨rfl, rfl, rfl⟩, fun sev hsev => ?_⟩
    exact absurd (le_one_iff_severityCode.mpr ⟨sev, hsev⟩) hbad.not_ge
  case inr =>
    obtain ⟨sev, hcode⟩ := le_one_iff_severityCode.mp hle
    refine ⟨_, exec_faultClear_severity hf hcode, ?_⟩
    obtain ⟨q, v, hclear⟩ := clearFaults_only sev hflight hv
    have hempty := clearFaults_noMirror (sev := sev) hflight hv
    rw [hclear] at hempty ⊢
    refine ⟨rfl, rfl, replaced_cfg _ _ _, rfl, fun hbad => absurd hle hbad.not_ge,
      fun sev' hsev => ?_⟩
    obtain rfl : sev = sev' := severityCode_injective (hcode.symm.trans hsev)
    exact ⟨replaced_of _ _ _, rfl, fun other => replaced_of_other _ _ other _, hempty⟩

end Sys2Proof.Machine

/-! SUPPORT. What every answer of a command meets, and the write path through every command: one write a
target, host memory in form, the base aligned (R160, R166). -/

namespace Sys2Proof.Machine

/-! ## What a command answers -/

/-- Every next state that an outcome gives meets `P`. -/
def Answers (P : State → Prop) (o : Host.Outcome State Fault Refusal) : Prop :=
  ∀ t, o = .next t → P t

@[simp] theorem answers_next {P : State → Prop} {t : State} : Answers P (.next t) ↔ P t := by
  simp [Answers]

@[simp] theorem answers_answer {P : State → Prop} {c : Instr} {t : State} :
    Answers P (answer c t) ↔ (c.wellFormed = true → P t) := by
  simp only [Answers, answer]
  split <;> simp_all

/-! ## One write a target, and the base aligned -/

/-- No two writes of the write queue have one target, and the window base is a multiple of 4,096 (R160,
R166). -/
def WriteSafe (w : WindowIf) : Prop :=
  (w.writeQ.map (·.target)).Nodup ∧ w.windowBase.toNat % 4096 = 0

section
variable {w : WindowIf} {x : WindowWrite} {q : List WindowWrite}

theorem WriteSafe.tail (h : WriteSafe w) (hq : w.writeQ = x :: q) :
    WriteSafe { w with writeQ := q } :=
  ⟨(List.nodup_cons.mp (by simpa [hq] using h.1)).2, h.2⟩

theorem WriteSafe.retried (h : WriteSafe w) (hq : w.writeQ = x :: q) (b : Bool) :
    WriteSafe { w with writeQ := { x with retried := b } :: q } :=
  ⟨by simpa [hq] using h.1, h.2⟩

theorem WriteSafe.filter (h : WriteSafe w) (p : WindowWrite → Bool) :
    WriteSafe { w with writeQ := w.writeQ.filter p } :=
  ⟨List.Nodup.sublist (List.filter_sublist.map _) h.1, h.2⟩

theorem WriteSafe.placeIn (h : WriteSafe w) (x : WindowWrite) :
    WriteSafe { w with writeQ := placeIn x w.writeQ } := ⟨placeIn_nodup x _ h.1, h.2⟩

end

theorem WriteSafe.congr {s t : State} (e : t.win = s.win) (h : WriteSafe s.win) : WriteSafe t.win :=
  e ▸ h

section
variable {s : State}

theorem foldl_safe {α : Type} {g : State → α → State}
    (hg : ∀ s a, WriteSafe s.win → WriteSafe (g s a).win) (l : List α)
    (h : WriteSafe s.win) : WriteSafe (l.foldl g s).win := by
  induction l generalizing s with
  | nil => exact h
  | cons a l ih => exact ih (hg s a h)

/-! ### The write path and the run state -/

@[simp] theorem placeWrite_safe (w : WindowWrite) (h : WriteSafe s.win) :
    WriteSafe (placeWrite w s).win := by
  unfold placeWrite; split
  · exact h.placeIn w
  · exact h

@[simp] theorem placeAnchor_safe (a : AnchorWord) (h : WriteSafe s.win) :
    WriteSafe (placeAnchor a s).win := placeWrite_safe _ h

@[simp] theorem handMirror_safe (id : MirrorId) (h : WriteSafe s.win) :
    WriteSafe (handMirror id s).win := by
  unfold handMirror; split
  · exact h.placeIn _
  · exact h

@[simp] theorem handAll_safe (ids : List MirrorId) (h : WriteSafe s.win) :
    WriteSafe (handAll ids s).win := foldl_safe (fun _ _ => handMirror_safe _) ids h

@[simp] theorem setRunState_safe (r : RunState) (c : StallCause) (h : WriteSafe s.win) :
    WriteSafe (setRunState r c s).win := by
  unfold setRunState; split
  · exact h
  · exact placeAnchor_safe _ h

@[simp] theorem advanceSession_safe (h : WriteSafe s.win) : WriteSafe (advanceSession s).win := h

@[simp] theorem readNext_safe (h : WriteSafe s.win) : WriteSafe (readNext s).win := by
  unfold readNext; split
  · simpa [WriteSafe] using h
  · exact h

@[simp] theorem discardHeld_safe (h : WriteSafe s.win) :
    WriteSafe (discardHeld s).win := by
  unfold discardHeld; split
  · exact h.filter _
  · exact h

@[simp] theorem finishWith_safe (o : EntryOutcome) (h : WriteSafe s.win) :
    WriteSafe (finishWith o s).win := by
  unfold finishWith
  split
  · exact h
  · split
    · exact placeWrite_safe _ h
    · exact h

@[simp] theorem finish_safe (code : OutcomeCode) (n : Nat) (h : WriteSafe s.win) :
    WriteSafe (finish code n s).win := finishWith_safe _ h

@[simp] theorem finishOpen_safe (code : OutcomeCode) (h : WriteSafe s.win) :
    WriteSafe (finishOpen code s).win := finish_safe _ _ h

@[simp] theorem takeEntry_safe {k : EntryKind} {act : Flight → State → State}
    (h : WriteSafe s.win) (ha : ∀ f, WriteSafe (act f s).win) :
    WriteSafe (takeEntry k act s).win := by
  unfold takeEntry; split
  · exact ha _
  · exact h

@[simp] theorem takeRequest_safe {k : DeskKind} {act : IntakeEntry → State → State}
    (h : WriteSafe s.win) (ha : ∀ e {t : State}, WriteSafe t.win → WriteSafe (act e t).win) :
    WriteSafe (takeRequest k act s).win := by
  unfold takeRequest; split
  · exact ha _ h
  · exact h

/-! ### Records handed at the end of an event -/

@[simp] theorem settleDisplay_safe (before : State) (d : DisplayIx) (h : WriteSafe s.win) :
    WriteSafe (settleDisplay before d s).win := by
  unfold settleDisplay; split
  · exact handMirror_safe _ h
  · exact h

@[simp] theorem settleDisplays_safe (before : State) (h : WriteSafe s.win) :
    WriteSafe (settleDisplays before s).win := by
  unfold settleDisplays
  exact foldl_safe (fun _ _ => settleDisplay_safe _ _) _ h

@[simp] theorem commitShowAs_safe (fields : ShowRec → ShowRec → List ReportField) (i : ShowIx)
    (before : ShowRec) (h : WriteSafe s.win) :
    WriteSafe (commitShowAs fields i before s).win := by
  unfold commitShowAs; dsimp only; split
  · exact h
  · simp [h]

@[simp] theorem commitShow_safe (i : ShowIx) (before : ShowRec) (h : WriteSafe s.win) :
    WriteSafe (commitShow i before s).win := commitShowAs_safe _ _ _ h

@[simp] theorem commitShows_safe (fields : ShowRec → ShowRec → List ReportField)
    (before : Vector ShowRec 64) (h : WriteSafe s.win) :
    WriteSafe (commitShows fields before s).win := by
  unfold commitShows
  exact foldl_safe (fun _ _ => commitShowAs_safe _ _ _) _ h

@[simp] theorem settleNotices_safe (before : State) (extra : Option NoticeIx)
    (h : WriteSafe s.win) : WriteSafe (settleNotices before extra s).win := by
  unfold settleNotices
  refine foldl_safe (fun s i h => ?_) _ h
  unfold settleNotice; split
  · exact handMirror_safe _ h
  · exact h

@[simp] theorem noticeEvent_safe (extra : Option NoticeIx) {act : State → State}
    (h : WriteSafe (act s).win) : WriteSafe (noticeEvent extra act s).win := by
  simp only [noticeEvent]
  exact settleDisplays_safe _ (settleNotices_safe _ _ (.congr (by simp) h))

@[simp] theorem settleFeatures_safe (before : State) (h : WriteSafe s.win) :
    WriteSafe (settleFeatures before s).win := by
  unfold settleFeatures
  refine foldl_safe (fun s i h => ?_) _ h
  unfold settleFeature; split
  · exact handMirror_safe _ h
  · exact h

/-! ### Shows and holds -/

@[simp] theorem endHold_safe (r : HoldEnd) (k : HoldIx) (h : WriteSafe s.win) :
    WriteSafe (endHold r k s).win := by
  unfold endHold; split
  · exact h
  · simp [h]

@[simp] theorem closeShow_safe (i : ShowIx) (prev : Band) (r : NoticeEnd)
    (h : WriteSafe s.win) : WriteSafe (closeShow i prev r s).win := by
  have ended := foldl_safe (fun _ k => endHold_safe (closingHoldEnd r) k) (holdsOn s i) h
  unfold closeShow; dsimp only; split <;> simpa using ended

@[simp] theorem perform_safe (e : DueEntry) (time : Nat) (h : WriteSafe s.win) :
    WriteSafe (perform e time s).1.win := by
  simp only [perform]
  repeat' split
  all_goals simp [h]

@[simp] theorem catchUpLoop_safe (fuel time : Nat) (q : List DueEntry) (n : Nat)
    (h : WriteSafe s.win) : WriteSafe (catchUpLoop fuel time q n s).1.win := by
  induction fuel generalizing q n s with
  | zero => exact h
  | succ fuel ih =>
    unfold catchUpLoop
    repeat' split
    · exact h
    · exact ih _ _ (perform_safe _ _ h)
    · exact ih _ _ h

@[simp] theorem catchUp_safe (time : Nat) (entries : List DueEntry) (h : WriteSafe s.win) :
    WriteSafe (catchUp time entries s).1.win := by
  simp [catchUp, h]

@[simp] theorem placeShow_safe (now : Nat) (i : ShowIx) (h : WriteSafe s.win) :
    WriteSafe (placeShow now i s).win := by
  simp only [placeShow]
  repeat' split
  all_goals simp [h]

@[simp] theorem placeAll_safe (now : Nat) (h : WriteSafe s.win) :
    WriteSafe (placeAll now s).1.win := by
  have placed := foldl_safe (fun _ i => placeShow_safe now i) (List.finRange 64) h
  simp [placeAll, placed]

@[simp] theorem finishClockSet_safe (time : Nat) (first : Bool) (entries : List DueEntry)
    (h : WriteSafe s.win) : WriteSafe (finishClockSet time first entries s).win := by
  cases first <;> simp only [finishClockSet, Bool.false_eq_true, if_false, if_true]
  · exact finish_safe _ _ (placeAnchor_safe _ (placeAnchor_safe _ (catchUp_safe _ _ h)))
  · exact finish_safe _ _ (placeAnchor_safe _ (placeAnchor_safe _ (placeAll_safe _ h)))

@[simp] theorem amendTimes_safe (i : ShowIx) (prev : Band) (now : Nat)
    (h : WriteSafe s.win) : WriteSafe (amendTimes i prev now s).win := by
  unfold amendTimes; dsimp only; split <;> simp [h]

@[simp] theorem endTally_safe (code : OutcomeCode) (i : ShowIx) (before : ShowRec)
    (capture : List Byte) (h : WriteSafe s.win) :
    WriteSafe (endTally code i before capture s).win := by
  simp [endTally, finishAvail, h]

@[simp] theorem freeAndCommit_safe (k : HoldIx) (r : HoldRec) (h : WriteSafe s.win) :
    WriteSafe (freeAndCommit k r s).win := by
  simp [freeAndCommit, h]

@[simp] theorem rebandShow_safe (old : ShowSettings) (i : ShowIx) (h : WriteSafe s.win) :
    WriteSafe (rebandShow old i s).win := by
  unfold rebandShow; dsimp only; split <;> simp [h]

/-! ### Notices, displays, settings -/

@[simp] theorem applyPost_safe (p : Post) (h : WriteSafe s.win) :
    WriteSafe (applyPost p s).win := by
  unfold applyPost; split <;> simp [h]

@[simp] theorem updateRows_safe (x : ShowReport) (h : WriteSafe s.win) :
    WriteSafe (updateRows x s).win := by
  unfold updateRows
  refine foldl_safe (fun s d h => ?_) _ h
  simp only [updateRow, withDisplay_keeps]
  repeat' split
  all_goals simp [h]

@[simp] theorem adopt_safe (o : Owner) (c : Settings) (h : WriteSafe s.win) :
    WriteSafe (adopt o c s).win := by
  cases o
  case showTable =>
    have adopted := foldl_safe (s := { s with shows := { s.shows with cfg := c.shows } })
      (fun _ i => rebandShow_safe s.shows.cfg i) (List.finRange 64) h
    simpa [adopt, adoptShows] using adopted
  all_goals simp [adopt, h]

@[simp] theorem settleConfigure_safe (o : Owner) (h : WriteSafe s.win) :
    WriteSafe (settleConfigure o s).win := by
  simp only [settleConfigure]
  repeat' split
  all_goals first | exact h | exact finish_safe _ _ h

/-! ### CONTROL -/

@[simp] theorem lobbyReset_safe (h : WriteSafe s.win) :
    WriteSafe (lobbyReset s).win := by
  have cleared := foldl_safe (s := resetBlocks s) (g := fun t d => clearStrip s d t)
    (fun t d => .congr (by simp)) (List.finRange 16) (h.filter _)
  simp only [lobbyReset]
  exact placeAnchor_safe _ (handAll_safe _ cleared)

/-! ### Starting, recovering, reading -/

@[simp] theorem beginStart_safe (h : WriteSafe s.win) :
    WriteSafe (beginStart s).win := by
  have discarded := discardHeld_safe
    (s := advanceSession { s with win := { s.win with runBit := true } }) h
  simp only [beginStart, issueAnchorRead_keeps]
  split
  · exact setRunState_safe _ _ discarded
  · exact discarded

@[simp] theorem stopRun_safe (h : WriteSafe s.win) : WriteSafe (stopRun s).win := by
  simp only [stopRun]
  repeat' split
  all_goals first | exact h | exact setRunState_safe _ _ h
                  | exact setRunState_safe _ _ (discardHeld_safe h)

@[simp] theorem recover_safe (h : WriteSafe s.win) : WriteSafe (recover s).win := by
  simp only [recover, issueAnchorRead_keeps]
  exact h

@[simp] theorem finishStart_safe (bytes : List Byte) (h : WriteSafe s.win) :
    WriteSafe (finishStart bytes s).win := by
  have discarded := discardHeld_safe h
  simp only [finishStart]
  split
  · simp only [raise_keeps]
    exact setRunState_safe _ _ discarded
  · refine readNext_safe ?_
    split
    · exact handAll_safe _ (setRunState_safe _ _ discarded)
    · exact setRunState_safe _ _ discarded

@[simp] theorem finishRecovery_safe (bytes : List Byte) (h : WriteSafe s.win) :
    WriteSafe (finishRecovery bytes s).win := by
  simp only [finishRecovery]
  split
  · exact h
  · split
    · simp only [raise_keeps]
      exact setRunState_safe _ _ h
    · split
      · exact placeWrite_safe _ h
      · refine readNext_safe ?_
        exact setRunState_safe _ _ h

@[simp] theorem anchorDone_safe (bytes : List Byte) (h : WriteSafe s.win) :
    WriteSafe (anchorDone bytes s).win := by
  simp only [anchorDone]
  repeat' split
  · exact finishStart_safe _ h
  · exact finishRecovery_safe _ h
  · exact finishStart_safe _ h
  · exact h

@[simp] theorem requestMark_safe (h : WriteSafe s.win) : WriteSafe (requestMark s).win := by
  unfold requestMark; split
  · exact h
  · simpa [WriteSafe] using h

@[simp] theorem markDone_safe (v : Nat) (h : WriteSafe s.win) :
    WriteSafe (markDone v s).win := by
  simp only [markDone]
  split
  · exact h
  · split
    · refine readNext_safe ?_
      exact h
    · simp only [raise_keeps]
      refine setRunState_safe _ _ ?_
      split <;> exact h

@[simp] theorem handOver_safe (f : Flight) (h : WriteSafe s.win) : WriteSafe (handOver s f).win := h

@[simp] theorem refuseEntry_safe (code : OutcomeCode) (n : Nat) (f : Flight)
    (h : WriteSafe s.win) : WriteSafe (refuseEntry code n f s).win :=
  finish_safe _ _ h

@[simp] theorem entryDone_safe (f : Flight) (h : WriteSafe s.win) :
    WriteSafe (entryDone f s).win := by
  simp only [entryDone]
  repeat' split
  case isTrue.isFalse.isFalse => simpa [WriteSafe] using h
  all_goals simp [h]

@[simp] theorem giveUpControl_safe (source : FaultSource) (h : WriteSafe s.win) :
    WriteSafe (giveUpControl source s).win := by
  simp only [giveUpControl]
  split <;> exact setRunState_safe _ _ h

@[simp] theorem anchorFailed_safe (h : WriteSafe s.win) :
    WriteSafe (anchorFailed s).win := by
  simp only [anchorFailed]
  repeat' split
  all_goals first | exact giveUpControl_safe _ h | simpa [WriteSafe] using h

@[simp] theorem markFailed_safe (h : WriteSafe s.win) :
    WriteSafe (markFailed s).win := by
  simp only [markFailed]
  repeat' split
  all_goals first | exact giveUpControl_safe _ h | simpa [WriteSafe] using h

@[simp] theorem entryFailed_safe (h : WriteSafe s.win) :
    WriteSafe (entryFailed s).win := by
  simp only [entryFailed]
  repeat' split
  all_goals first | exact giveUpControl_safe _ h | simpa [WriteSafe, withFlight] using h

/-! ### Writes sent and failed -/

@[simp] theorem outcomeSent_safe (h : WriteSafe s.win) :
    WriteSafe (outcomeSent s).win := by
  cases hf : s.win.flight with
  | none => simpa [outcomeSent, hf] using h
  | some f =>
    simp only [outcomeSent, hf]
    generalize hu : placeAnchor .takeMark _ = u
    have placed : WriteSafe u.win := hu ▸ placeAnchor_safe _ h
    repeat' split
    all_goals first | exact setRunState_safe _ _ placed | exact readNext_safe placed
                    | exact readNext_safe (setRunState_safe _ _ placed)

@[simp] theorem outcomeDropped_safe (h : WriteSafe s.win) :
    WriteSafe (outcomeDropped s).win := by
  simp only [outcomeDropped]
  repeat' split
  all_goals first | exact h | exact setRunState_safe _ _ h

/-! ### Entries of the shows -/

@[simp] theorem withShow_safe (f : Flight) {act : ShowIx → State → State}
    (h : WriteSafe s.win) (ha : ∀ i, WriteSafe (act i s).win) :
    WriteSafe (withShow f act s).win := by
  unfold withShow; split
  · exact finishOpen_safe _ h
  · exact ha _

@[simp] theorem finishShow_safe (i : ShowIx) (h : WriteSafe s.win) :
    WriteSafe (finishShow i s).win := finish_safe _ _ h

@[simp] theorem showLoad_safe (b : ShowBody) (h : WriteSafe s.win) :
    WriteSafe (showLoad b s).win := by
  simp only [showLoad, loadShow]
  repeat' split
  all_goals simp [h]

@[simp] theorem haltShow_safe (i : ShowIx) (h : WriteSafe s.win) :
    WriteSafe (haltShow i s).win := by
  simp only [haltShow]
  split <;> simp [h]

@[simp] theorem resumeShow_safe (i : ShowIx) (h : WriteSafe s.win) :
    WriteSafe (resumeShow i s).win := by
  simp only [resumeShow]
  split <;> simp [h]

@[simp] theorem cancelShow_safe (i : ShowIx) (h : WriteSafe s.win) :
    WriteSafe (cancelShow i s).win := by
  have closed (sh : ShowRec) (b : Bool) :
      WriteSafe (if b = true then requestAuto .cancelled i 1800 (closeShow i s.shows.recs[i].band
        .showClosed (sendClock (.withdraw i) (setShow i sh s))) else closeShow i s.shows.recs[i].band
        .showClosed (sendClock (.withdraw i) (setShow i sh s))).win := by
    cases b <;> exact closeShow_safe _ _ _ h
  cases hs : s.shows.recs[i].state <;> simp only [cancelShow, hs]
  case empty | closed | cancelled => exact finishOpen_safe _ h
  all_goals exact finishShow_safe _ (commitShow_safe _ _ (closed _ _))

@[simp] theorem dropShow_safe (i : ShowIx) (h : WriteSafe s.win) :
    WriteSafe (dropShow i s).win := by
  have closed := closeShow_safe i s.shows.recs[i].band .showDropped h
  simp only [dropShow]
  split
  · exact finishShow_safe _ (commitShowAs_safe _ _ _ closed)
  · exact finishShow_safe _ (commitShowAs_safe _ _ _ h)

@[simp] theorem applyAmend_safe (m : Nat → Bool) (b : ShowBody) (capture : List Byte)
    (i : ShowIx) (h : WriteSafe s.win) :
    WriteSafe (applyAmend m b capture i s).win := by
  have timed (now : Nat) : WriteSafe (amendTimes i s.shows.recs[i].band now
      (setShow i (amended m b s.shows.recs[i]) s)).win := amendTimes_safe _ _ _ h
  simp only [Fin.getElem_fin] at timed
  simp only [applyAmend]
  refine finishShow_safe _ (commitShow_safe _ _ ?_)
  repeat' split
  all_goals simp [h, timed]

@[simp] theorem showAmend_safe (b : ShowBody) (capture : List Byte) (h : WriteSafe s.win) :
    WriteSafe (showAmend b capture s).win := by
  simp only [showAmend]
  repeat' split
  all_goals simp [h]

/-! ### Tally entries and holds -/

@[simp] theorem takeSale_safe (b : SaleBody) (capture : List Byte) (h : WriteSafe s.win) :
    WriteSafe (takeSale b capture s).win := by
  simp only [takeSale, applySale, finishAvail]
  repeat' split
  all_goals simp [h]

@[simp] theorem takeRefund_safe (n seats : Nat) (capture : List Byte)
    (h : WriteSafe s.win) : WriteSafe (takeRefund n seats capture s).win := by
  simp only [takeRefund]
  repeat' split
  all_goals simp [h]

@[simp] theorem takeBlock_safe (n : Nat) (delta : Int) (capture : List Byte)
    (h : WriteSafe s.win) : WriteSafe (takeBlock n delta capture s).win := by
  simp only [takeBlock, finishAvail]
  repeat' split
  all_goals simp [h]

@[simp] theorem takeHold_safe (e : IntakeEntry) (h : WriteSafe s.win) :
    WriteSafe (takeHold e s).win := by
  simp only [takeHold, placeHold]
  split <;> simp [h]

@[simp] theorem takeExtend_safe (e : IntakeEntry) (h : WriteSafe s.win) :
    WriteSafe (takeExtend e s).win := by
  simp only [takeExtend, extendHold]
  repeat' split
  all_goals simp [h]

@[simp] theorem takeRelease_safe (e : IntakeEntry) (h : WriteSafe s.win) :
    WriteSafe (takeRelease e s).win := by
  simp only [takeRelease]
  repeat' split
  all_goals simp [h]

/-! ### Ports and notices -/

@[simp] theorem takePort_safe (d : DeskIx) (action : Nat) (clear : Bool)
    (h : WriteSafe s.win) : WriteSafe (takePort d action clear s).win := by
  simp only [takePort]
  refine finishWith_safe _ (.congr ?_ h)
  repeat' split
  all_goals simp [countPort]

@[simp] theorem takePost_safe (f : Flight) (h : WriteSafe s.win) :
    WriteSafe (takePost f s).win := by
  simp only [takePost, finishPost]
  repeat' split
  all_goals simp [h]

@[simp] theorem takeDeskPost_safe (e : IntakeEntry) (h : WriteSafe s.win) :
    WriteSafe (takeDeskPost e s).win := by
  simp only [takeDeskPost]
  split <;> simp [h]

@[simp] theorem takeClear_safe (ref : Nat) (h : WriteSafe s.win) :
    WriteSafe (takeClear ref s).win := by
  simp only [takeClear]
  split <;> simp [h]

@[simp] theorem takeDeskClear_safe (e : IntakeEntry) (h : WriteSafe s.win) :
    WriteSafe (takeDeskClear e s).win := by
  simp only [takeDeskClear]
  repeat' split
  all_goals simp [h]

/-! ### Features, displays, faults, settings -/

@[simp] theorem withFeature_safe (f : Flight) {act : FeatureIx → State → State}
    (h : WriteSafe s.win) (ha : ∀ i, WriteSafe (act i s).win) :
    WriteSafe (withFeature f act s).win := by
  unfold withFeature; split
  · exact finishOpen_safe _ h
  · exact ha _

@[simp] theorem headerDone_safe (f : FeatureIx) (bytes : List Byte) (h : WriteSafe s.win) :
    WriteSafe (headerDone f bytes s).win := by
  simp only [headerDone]
  split <;> simp [h]

@[simp] theorem pieceDone_safe (f : FeatureIx) (first : Nat) (bytes : List Byte)
    (h : WriteSafe s.win) : WriteSafe (pieceDone f first bytes s).win := by
  simp only [pieceDone]
  repeat' split
  all_goals simp [h]

@[simp] theorem validationFailed_safe (f : FeatureIx) (h : WriteSafe s.win) :
    WriteSafe (validationFailed f s).win := by
  simp only [validationFailed]
  repeat' split
  all_goals simp [h]

@[simp] theorem takeDecision_safe (r : DecisionRequest) (h : WriteSafe s.win) :
    WriteSafe (takeDecision r s).win := by
  simp only [takeDecision]
  split <;> simp [h]

@[simp] theorem takeReleaseReport_safe (x : Release) (h : WriteSafe s.win) :
    WriteSafe (takeReleaseReport x s).win := by
  simp only [takeReleaseReport]
  repeat' split
  all_goals simp [h]

@[simp] theorem withDisplayIndex_safe (f : Flight) {act : DisplayIx → State → State}
    (h : WriteSafe s.win) (ha : ∀ i, WriteSafe (act i s).win) :
    WriteSafe (withDisplayIndex f act s).win := by
  unfold withDisplayIndex; split
  · exact finishOpen_safe _ h
  · exact ha _

@[simp] theorem finishDisplay_safe (d : DisplayIx) (h : WriteSafe s.win) :
    WriteSafe (finishDisplay d s).win := finish_safe _ _ h

@[simp] theorem setupDisplay_safe (b : SetupBody) (d : DisplayIx) (h : WriteSafe s.win) :
    WriteSafe (setupDisplay b d s).win := by
  simp only [setupDisplay]
  repeat' split
  all_goals simp [h]

@[simp] theorem enableDisplay_safe (d : DisplayIx) (h : WriteSafe s.win) :
    WriteSafe (enableDisplay d s).win := by
  simp only [enableDisplay]
  split <;> simp [h]

@[simp] theorem takeReply_safe (r : DecisionReply) (h : WriteSafe s.win) :
    WriteSafe (takeReply r s).win := by
  simp only [takeReply]
  repeat' split
  all_goals simp [h]

@[simp] theorem signal_safe (sev : Severity) (h : WriteSafe s.win) : WriteSafe (signal sev s).win := h

@[simp] theorem takeRaise_safe (x : Raise) (h : WriteSafe s.win) :
    WriteSafe (takeRaise x s).win := by
  simp only [takeRaise]
  repeat' split
  all_goals simp [h]

@[simp] theorem clearFaults_safe (sev : Severity) (h : WriteSafe s.win) :
    WriteSafe (clearFaults sev s).win := by
  simp only [clearFaults]
  split <;> simp [h]

@[simp] theorem takeConfigure_safe (f : Flight) (h : WriteSafe s.win) :
    WriteSafe (takeConfigure f s).win := by
  simp only [takeConfigure, applySettings]
  repeat' split
  · exact finish_safe _ _ h
  · exact finish_safe _ _ h
  · exact finish_safe _ _ h
  · exact h

@[simp] theorem writeControl_safe (w : BitVec 32) (h : WriteSafe s.win) :
    WriteSafe (writeControl w s).win := by
  simp only [writeControl]
  split
  · exact lobbyReset_safe h
  · split
    · exact beginStart_safe h
    · exact stopRun_safe h
    · split
      · exact recover_safe h
      · exact h
    · exact h

theorem setBase_safe {base : BitVec 64} (hb : base.toNat % 4096 = 0) (h : WriteSafe s.win) :
    WriteSafe (setBase base s).win := by
  unfold setBase; split
  · exact ⟨h.1, hb⟩
  · exact h

/-- A window base is its high half and its low half (R160). -/
theorem toNat_halves (high low : BitVec 32) :
    BitVec.toNat (high ++ low : BitVec 64) = 2 ^ 32 * high.toNat + low.toNat := by
  rw [BitVec.toNat_append, Nat.shiftLeft_eq, Nat.mul_comm,
    ← Nat.two_pow_add_eq_or_of_lt (BitVec.isLt _)]

/-- A base whose low half is written with its low 12 bits clear is aligned (R160). -/
theorem windowLow_aligned (high w : BitVec 32) :
    BitVec.toNat (high ++ (w &&& 0xFFFFF000#32) : BitVec 64) % 4096 = 0 := by
  have low : (w &&& 0xFFFFF000#32).toNat % 4096 = 0 := by
    have cleared : (w &&& 0xFFFFF000#32).setWidth 12 = 0#12 := by simp [BitVec.setWidth_and]
    exact congrArg BitVec.toNat cleared
  rw [toNat_halves]
  omega

/-- A base whose high half is written stays aligned (R160). -/
theorem windowHigh_aligned (w : BitVec 32) {base : BitVec 64} (h : base.toNat % 4096 = 0) :
    BitVec.toNat (w ++ base.setWidth 32 : BitVec 64) % 4096 = 0 := by
  rw [toNat_halves, BitVec.toNat_setWidth]
  omega

/-! ### Every command -/

theorem execFeatureWeight_safe (h : WriteSafe s.win) :
    Answers (WriteSafe ·.win) (execFeatureWeight s) := by
  refine answers_next.mpr (takeEntry_safe h fun f => withFeature_safe f h fun i => ?_)
  dsimp only
  repeat' split
  all_goals simp [h]

theorem execFeatureLoad_safe (h : WriteSafe s.win) :
    Answers (WriteSafe ·.win) (execFeatureLoad s) := by
  refine answers_next.mpr (takeEntry_safe h fun f => withFeature_safe f h fun i => ?_)
  simp only [loadFeature]
  repeat' split
  all_goals simp [h]

theorem execFeatureDrop_safe (h : WriteSafe s.win) :
    Answers (WriteSafe ·.win) (execFeatureDrop s) :=
  answers_next.mpr (takeEntry_safe h fun f => withFeature_safe f h fun _ =>
    finish_safe _ _ (settleFeatures_safe _ (.congr (by simp) h)))

theorem execClockSet_safe (h : WriteSafe s.win) :
    Answers (WriteSafe ·.win) (execClockSet s) := by
  refine answers_next.mpr (takeEntry_safe h fun f => ?_)
  dsimp only
  split
  · exact finishClockSet_safe _ _ _ h
  · exact h

theorem execDeskPort_safe (h : WriteSafe s.win) :
    Answers (WriteSafe ·.win) (execDeskPort s) := by
  refine answers_next.mpr (takeEntry_safe h fun f => ?_)
  dsimp only
  repeat' split
  all_goals simp [h]

theorem execFaultClear_safe (h : WriteSafe s.win) :
    Answers (WriteSafe ·.win) (execFaultClear s) := by
  refine answers_next.mpr (takeEntry_safe h fun f => ?_)
  split <;> simp [h]

theorem execWindowWriteSent_safe (h : WriteSafe s.win) :
    Answers (WriteSafe ·.win) (execWindowWriteSent s) := by
  refine answers_next.mpr ?_
  cases hq : s.win.writeQ with
  | nil => simpa [hq] using h
  | cons w rest =>
    have left := WriteSafe.tail h hq
    cases hw : w.target <;> simp only [hw, mirrorSent]
    · exact placeAnchor_safe _ left
    · exact left
    · exact outcomeSent_safe left

theorem execWindowWriteFailed_safe (h : WriteSafe s.win) :
    Answers (WriteSafe ·.win) (execWindowWriteFailed s) := by
  refine answers_next.mpr ?_
  cases hq : s.win.writeQ with
  | nil => simpa [hq] using h
  | cons w rest =>
    have left := WriteSafe.tail h hq
    dsimp only
    split
    · cases hw : w.target <;> simp [left]
    · exact h.retried hq true

theorem execTick_safe (h : WriteSafe s.win) :
    Answers (WriteSafe ·.win) (execTick s) := by
  have placed := placeAnchor_safe .clockSet (placeAnchor_safe .partNow
    (placeAnchor_safe .lobbyNow (s := tickTimers (riseClock s)) h))
  refine answers_next.mpr ?_
  dsimp only
  split
  · exact .congr (by simp) placed
  · exact placed

theorem execControlReadRetryExpiry_safe (which : ControlRead) (h : WriteSafe s.win) :
    Answers (WriteSafe ·.win) (execControlReadRetryExpiry which s) := by
  simp only [execControlReadRetryExpiry, answers_next]
  repeat' split
  all_goals first | exact h | simpa [WriteSafe, withFlight] using h

theorem execPollTimerExpiry_safe (h : WriteSafe s.win) :
    Answers (WriteSafe ·.win) (execPollTimerExpiry s) := by
  refine answers_next.mpr ?_
  split
  · exact requestMark_safe h
  · exact h

theorem execSettingsEvent_safe (o : Owner) (h : WriteSafe s.win) :
    Answers (WriteSafe ·.win) (execSettingsEvent o s) := by
  refine answers_next.mpr ?_
  split
  · exact settleConfigure_safe o (adopt_safe o _ h)
  · exact h

/-- No command puts two writes of one target in the write queue (R166) or moves the window base off its
alignment (R160). The commands named reach the write path in a way of their own; any other places what it
places by the operations above. -/
theorem exec_safe (c : Instr) (h : WriteSafe s.win) :
    Answers (WriteSafe ·.win) (exec c s) := by
  cases c
  case powerOnReset => exact answers_next.mpr ⟨List.nodup_nil, rfl⟩
  case windowWriteSent => exact execWindowWriteSent_safe h
  case windowWriteFailed => exact execWindowWriteFailed_safe h
  case controlReadRetryExpiry which =>
    exact execControlReadRetryExpiry_safe which h
  case windowLow w => exact answers_next.mpr (setBase_safe (windowLow_aligned _ _) h)
  case windowHigh w => exact answers_next.mpr (setBase_safe (windowHigh_aligned _ h.2) h)
  case tick => exact execTick_safe h
  case pollTimerExpiry => exact execPollTimerExpiry_safe h
  case settingsEvent o => exact execSettingsEvent_safe o h
  case pacingMillisecond => exact answers_next.mpr h
  case clockSet => exact execClockSet_safe h
  case hold => exact answers_next.mpr (takeRequest_safe h fun e _ => takeHold_safe e)
  case extend => exact answers_next.mpr (takeRequest_safe h fun e _ => takeExtend_safe e)
  case release => exact answers_next.mpr (takeRequest_safe h fun e _ => takeRelease_safe e)
  case deskNoticePost => exact answers_next.mpr (takeRequest_safe h fun e _ => takeDeskPost_safe e)
  case deskNoticeClear => exact answers_next.mpr (takeRequest_safe h fun e _ => takeDeskClear_safe e)
  case showHalt =>
    exact answers_next.mpr (takeEntry_safe h fun f => withShow_safe f h (haltShow_safe · h))
  case showResume =>
    exact answers_next.mpr (takeEntry_safe h fun f => withShow_safe f h (resumeShow_safe · h))
  case showCancel =>
    exact answers_next.mpr (takeEntry_safe h fun f => withShow_safe f h (cancelShow_safe · h))
  case showDrop =>
    exact answers_next.mpr (takeEntry_safe h fun f => withShow_safe f h (dropShow_safe · h))
  case featureLoad => exact execFeatureLoad_safe h
  case featureWeight => exact execFeatureWeight_safe h
  case featureDrop => exact execFeatureDrop_safe h
  case airtimeReset =>
    exact answers_next.mpr (takeEntry_safe h fun _ =>
      finish_safe _ _ (settleFeatures_safe _ h))
  case deskPort => exact execDeskPort_safe h
  case displaySetup =>
    exact answers_next.mpr (takeEntry_safe h fun f =>
      withDisplayIndex_safe f h (setupDisplay_safe _ · h))
  case displayEnable =>
    exact answers_next.mpr (takeEntry_safe h fun f =>
      withDisplayIndex_safe f h (enableDisplay_safe · h))
  case displayDisable =>
    exact answers_next.mpr (takeEntry_safe h fun f => withDisplayIndex_safe f h fun d =>
      finishDisplay_safe d (settleDisplay_safe _ d (.congr (by simp) h)))
  case faultClear => exact execFaultClear_safe h
  all_goals simp only [exec, answers_next, answers_answer, execLobbyReset, execStart, execStop,
    execRecovery, execAlertAEn, execAlertBEn, execStatusWrite,
    execAttention, execRegisterWriteOther, execAnchorReadDone,
    execPublishMarkReadDone, execEntryReadDone, execTextReadDone,
    execControlReadFailed, execConfigure, execMark, execScheduleRequest,
    execWithdrawRequest, execCatchUp, execShowLoad, execShowAmend, execSale, execRefund,
    execBlock, execAsk, execHoldExpiry, execDeskByte, execLineIdle, execIntakeHand,
    execPauseRefreshExpiry, execDeskTxDone, execNoticePost, execAutoNoticeRequest,
    execNoticeClear, execClearRequest, execClosureReport, execNoticeExpiry, execEnabledReport,
    execLinkUpReport, execLinkLostReport, execDrainingReport, execOffReport, execFloorReport,
    execCoverTimerExpiry, execHeaderReadDone, execChunkListPieceDone, execValidationReadFailed,
    execValidationRetryExpiry, execDecision, execReleaseReport, execLinkUp, execLinkDown,
    execDwellExpiry, execDecisionReply, execEndReport, execShowChangedReport, execTakeoverBegin,
    execTakeoverEnd, execStripReport, execStartRequest, execHoldRequest, execResumeRequest,
    execEndRequest, execDrainRequest, execAbandonRequest, execFetchGrant, execBurstDone,
    execBurstFailed, execBurstRetryExpiry, execSend, execUnderrunLimit, execPanelTxDone,
    execFaultRaise]
  all_goals repeat' split
  all_goals first | simp [h] | exact h
end

end Sys2Proof.Machine

/-! SUPPORT. The parts that each command keeps (Block overview), and with them the write path sound after
every step. -/

namespace Sys2Proof.Machine

/-! ## The parts a command keeps -/

/-- `t` differs from `s` in none but the parts listed, and the queue of commands is the same. -/
def Keeps (l : List Part) (s t : State) : Prop :=
  t.pending = s.pending ∧ ∀ p, p ∉ l → agreeOn s t p

/-- A command answers a state that keeps all but the command's own parts. -/
def KeepsItsParts (c : Instr) (s : State) : Prop :=
  ∃ t, exec c s = answer c t ∧ (c.wellFormed = true → Keeps (mayChange c) s t)

section
variable {s : State}

theorem Keeps.refl (l : List Part) (s : State) : Keeps l s s :=
  ⟨rfl, fun p _ => by cases p <;> rfl⟩

theorem Keeps.trans {l : List Part} {s t u : State} (h : Keeps l s t) (h' : Keeps l t u) :
    Keeps l s u :=
  ⟨h'.1.trans h.1, fun p hp => by
    have := h.2 p hp
    have := h'.2 p hp
    cases p <;> simp_all [agreeOn]⟩

theorem Keeps.mono {l l' : List Part} {s t : State} (h : Keeps l s t) (hl : l ⊆ l') :
    Keeps l' s t := ⟨h.1, fun p hp => h.2 p fun hm => hp (hl hm)⟩

theorem takeEntry_keepsAll {l : List Part} {k : EntryKind} {act : Flight → State → State}
    (ha : ∀ f, Keeps l s (act f s)) : Keeps l s (takeEntry k act s) := by
  unfold takeEntry; split
  · exact ha _
  · exact .refl _ _

/-! ## The rows of CONTROL -/

/-- The alert enables as a word of CONTROL writes them (R160). -/
def setAlerts (w : BitVec 32) (s : State) : State :=
  { s with win := { s.win with alertAEn := controlAlertA w, alertBEn := controlAlertB w } }

theorem setAlerts_keeps (w : BitVec 32) : Keeps [.win] s (setAlerts w s) :=
  ⟨rfl, fun p hp => by cases p <;> simp [agreeOn, setAlerts] at hp ⊢⟩

theorem writeControl_reset {w : BitVec 32} (hw : controlLobbyReset w = true) :
    writeControl w s = lobbyReset (setAlerts w s) := if_pos hw

/-- A word of CONTROL with no reset (R160, R161): RUN as it was written before and as it is written now. -/
theorem writeControl_run {w : BitVec 32} (hw : controlLobbyReset w = false) :
    writeControl w s = match s.win.runBit, controlRun w with
      | false, true => beginStart (setAlerts w s)
      | true, false => stopRun (setAlerts w s)
      | true, true => if s.win.runState = .stalled then recover (setAlerts w s) else setAlerts w s
      | false, false => setAlerts w s :=
  if_neg (by simp [hw])

theorem writeControl_keeps_reset {w : BitVec 32} (hw : controlLobbyReset w = true) :
    Keeps (mayChange (.lobbyReset w)) s (writeControl w s) := by
  rw [writeControl_reset hw]
  exact ⟨by simp [setAlerts], fun p hp => by cases p <;> simp [agreeOn, setAlerts, mayChange] at hp ⊢⟩

theorem writeControl_keeps_run {w : BitVec 32} (hw : controlLobbyReset w = false) :
    Keeps [.win, .reads] s (writeControl w s) := by
  rw [writeControl_run hw]
  refine .trans ((setAlerts_keeps w).mono (by simp)) ?_
  repeat' split
  all_goals exact ⟨by simp, fun p hp => by cases p <;> simp [agreeOn] at hp ⊢⟩

theorem writeControl_keeps_stop {w : BitVec 32} (hw : controlLobbyReset w = false)
    (hrun : controlRun w = false) : Keeps [.win] s (writeControl w s) := by
  rw [writeControl_run hw, hrun]
  refine .trans (setAlerts_keeps w) ?_
  split
  · contradiction
  · exact ⟨by simp, fun p hp => by cases p <;> simp [agreeOn] at hp ⊢⟩
  · contradiction
  · exact .refl _ _

/-! ## Every command -/

theorem clockSet_keepsItsParts : KeepsItsParts .clockSet s := by
  refine ⟨_, rfl, fun _ => takeEntry_keepsAll fun f => ?_⟩
  dsimp only
  split <;> exact ⟨by simp, fun p hp => by cases p <;> simp [agreeOn, mayChange] at hp ⊢⟩

theorem deskPort_keepsItsParts : KeepsItsParts .deskPort s := by
  refine ⟨_, rfl, fun _ => takeEntry_keepsAll fun f => ?_⟩
  dsimp only
  repeat' split
  all_goals exact ⟨by simp, fun p hp => by cases p <;> simp [agreeOn, mayChange] at hp ⊢⟩

theorem faultClear_keepsItsParts : KeepsItsParts .faultClear s := by
  refine ⟨_, rfl, fun _ => takeEntry_keepsAll fun f => ?_⟩
  split <;> exact ⟨by simp, fun p hp => by cases p <;> simp [agreeOn, mayChange] at hp ⊢⟩

theorem withFeature_keepsAll {l : List Part} (f : Flight) {act : FeatureIx → State → State}
    (hw : .win ∈ l) (hf : .freeCount ∈ l) (ha : ∀ i, Keeps l s (act i s)) :
    Keeps l s (withFeature f act s) := by
  unfold withFeature; split
  · refine ⟨by simp, fun p hp => ?_⟩
    cases p <;> simp [agreeOn]
    · exact absurd hw hp
    · exact absurd hf hp
  · exact ha _

theorem featureLoad_keepsItsParts : KeepsItsParts .featureLoad s := by
  refine ⟨_, rfl, fun _ => takeEntry_keepsAll fun f =>
    withFeature_keepsAll f (by decide) (by decide) fun i => ?_⟩
  dsimp only
  repeat' split
  all_goals exact ⟨by simp, fun p hp => by cases p <;> simp [agreeOn, mayChange] at hp ⊢⟩

theorem featureWeight_keepsItsParts : KeepsItsParts .featureWeight s := by
  refine ⟨_, rfl, fun _ => takeEntry_keepsAll fun f =>
    withFeature_keepsAll f (by decide) (by decide) fun i => ?_⟩
  dsimp only
  repeat' split
  all_goals exact ⟨by simp, fun p hp => by cases p <;> simp [agreeOn, mayChange] at hp ⊢⟩

/-! The commands that name parts of their own choose what they do behind an entry or by the bits of a
CONTROL word; of any other, what each operation keeps decides. -/

/-- The commands that use the read engine. -/
theorem reading_keepsItsParts {c : Instr} (hc : Part.reads ∈ mayChange c) (s : State) :
    KeepsItsParts c s := by
  cases c <;> simp only [mayChange, List.mem_cons, List.not_mem_nil, reduceCtorEq, or_self] at hc
  case start w | recovery w =>
    refine ⟨_, rfl, fun hw => ?_⟩
    obtain ⟨-, hreset⟩ : controlRun w = true ∧ controlLobbyReset w = false := by
      simpa [Instr.wellFormed] using hw
    exact writeControl_keeps_run hreset
  case alertAEn w | alertBEn w =>
    exact ⟨_, rfl, fun hw => writeControl_keeps_run (by simpa [Instr.wellFormed] using hw)⟩
  case featureLoad => exact featureLoad_keepsItsParts
  all_goals
    refine ⟨_, rfl, fun _ => ⟨?_, fun p hp => ?_⟩⟩
    · try dsimp only
      repeat' split
      all_goals simp
    · cases p <;> simp [mayChange] at hp
      all_goals simp only [agreeOn]
      all_goals repeat' split
      all_goals simp

/-- The commands of the displays and their streams that leave the read engine alone. -/
theorem streaming_keepsItsParts {c : Instr} (hc : Part.stream ∈ mayChange c)
    (hr : Part.reads ∉ mayChange c) (s : State) : KeepsItsParts c s := by
  cases c <;> simp [mayChange] at hc hr
  case lobbyReset w => exact ⟨_, rfl, writeControl_keeps_reset⟩
  all_goals
    refine ⟨_, rfl, fun _ => ⟨?_, fun p hp => ?_⟩⟩
    · try dsimp only
      repeat' split
      all_goals simp
    · cases p <;> simp [mayChange] at hp
      all_goals simp only [agreeOn]
      all_goals repeat' split
      all_goals simp

/-- The commands of the other blocks. -/
theorem others_keepsItsParts {c : Instr} (hc : Part.stream ∉ mayChange c)
    (hr : Part.reads ∉ mayChange c) (s : State) : KeepsItsParts c s := by
  cases c <;> simp [mayChange] at hc hr
  case stop w =>
    refine ⟨_, rfl, fun hw => ?_⟩
    obtain ⟨hrun, hreset⟩ : controlRun w = false ∧ controlLobbyReset w = false := by
      simpa [Instr.wellFormed] using hw
    exact writeControl_keeps_stop hreset hrun
  case clockSet => exact clockSet_keepsItsParts
  case deskPort => exact deskPort_keepsItsParts
  case featureWeight => exact featureWeight_keepsItsParts
  case faultClear => exact faultClear_keepsItsParts
  all_goals
    refine ⟨_, rfl, fun _ => ⟨?_, fun p hp => ?_⟩⟩
    · try dsimp only
      repeat' split
      all_goals simp
    · cases p <;> simp [mayChange] at hp
      all_goals simp only [agreeOn]
      all_goals repeat' split
      all_goals simp

theorem exec_keepsItsParts (c : Instr) (s : State) : KeepsItsParts c s := by
  by_cases hr : Part.reads ∈ mayChange c
  · exact reading_keepsItsParts hr s
  · by_cases hc : Part.stream ∈ mayChange c
    · exact streaming_keepsItsParts hc hr s
    · exact others_keepsItsParts hc hr s

end

/-- Settles O1: `step` is defined so. -/
theorem stepRunsTheFrontCommand : Obligations.StepRunsTheFrontCommand :=
  fun _ _ _ => rfl

/-- Settles O2: every command answers by `answer`, which refuses what is not well-formed. -/
theorem commandsAnswerAndLeaveTheQueue : Obligations.CommandsAnswerAndLeaveTheQueue := by
  intro c s
  obtain ⟨t, he, hk⟩ := exec_keepsItsParts c s
  refine ⟨fun hw => ⟨t, ?_, (hk hw).1⟩, fun hw => ?_⟩
  · rw [he, answer_next c t hw]
  · simp [he, answer, hw]

/-- Settles O3, by the parts that each command keeps. -/
theorem commandsKeepToTheirParts : Obligations.CommandsKeepToTheirParts := by
  intro c s t p ht hp
  obtain ⟨u, he, hk⟩ := exec_keepsItsParts c s
  obtain rfl := answer_eq_next (he ▸ ht)
  refine (hk ?_).2 p hp
  by_contra hw
  simp [he, answer, hw] at ht

/-! ## The write path after every step -/

/-- What every command keeps and the queue of commands has no part in, every step keeps. -/
theorem step_keeps {P : State → Prop} (hq : ∀ s q, P s → P { s with pending := q })
    (hc : ∀ c s, P s → Answers P (exec c s)) {s t : State} (hs : P s) (ht : step s = .next t) :
    P t := by
  unfold step at ht; split at ht
  · exact next_eq ht ▸ hs
  · exact hc _ _ (hq _ _ hs) t ht

/-- Host memory stays in form: only WINDOW_WRITE_SENT writes it (R166). -/
theorem exec_hostMem_wf {s : State} (c : Instr) (h : s.hostMem.wf = true) :
    Answers (·.hostMem.wf = true) (exec c s) := by
  by_cases hp : Part.hostMem ∈ mayChange c
  · obtain rfl : c = .windowWriteSent := by cases c <;> simp [mayChange] at hp ⊢
    refine answers_next.mpr ?_
    repeat' split
    all_goals simp [h]
  · intro t ht
    rw [← show s.hostMem = t.hostMem from commandsKeepToTheirParts c s t .hostMem ht hp]
    exact h

/-- Settles O6: no command puts two writes of one target in the queue or moves the base off its
alignment, and host memory is written only by writes that are sent. -/
theorem stepsKeepTheWritePathSound : Obligations.StepsKeepTheWritePathSound := by
  intro s t hs ht
  refine step_keeps (fun _ _ h => ⟨h.oneOfEach, h.memory, h.aligned⟩) (fun c s h t ht => ?_) hs ht
  obtain ⟨hone, hbase⟩ := exec_safe c ⟨h.oneOfEach, h.aligned⟩ t ht
  exact ⟨hone, exec_hostMem_wf c h.memory t ht, hbase⟩

end Sys2Proof.Machine

/-! SUPPORT. Register writes: CONTROL row by row, ATTENTION, the window base (R160 to R163, R165, R168). -/

namespace Sys2Proof.Machine

section
variable {s : State} {w : BitVec 32}

/-! ## The rows of CONTROL as they answer -/

theorem exec_start (hreset : controlLobbyReset w = false) (hrun : controlRun w = true)
    (hbit : s.win.runBit = false) : exec (.start w) s = .next (beginStart (setAlerts w s)) := by
  have hw : (Instr.start w).wellFormed = true := by simp [Instr.wellFormed, hreset, hrun]
  rw [exec, execStart, answer_next _ _ hw, writeControl_run hreset, hbit, hrun]

theorem exec_stop (hreset : controlLobbyReset w = false) (hrun : controlRun w = false)
    (hbit : s.win.runBit = true) : exec (.stop w) s = .next (stopRun (setAlerts w s)) := by
  have hw : (Instr.stop w).wellFormed = true := by simp [Instr.wellFormed, hreset, hrun]
  rw [exec, execStop, answer_next _ _ hw, writeControl_run hreset, hbit, hrun]

theorem exec_recovery (hreset : controlLobbyReset w = false) (hrun : controlRun w = true)
    (hbit : s.win.runBit = true) (hstalled : s.win.runState = .stalled) :
    exec (.recovery w) s = .next (recover (setAlerts w s)) := by
  have hw : (Instr.recovery w).wellFormed = true := by simp [Instr.wellFormed, hreset, hrun]
  rw [exec, execRecovery, answer_next _ _ hw, writeControl_run hreset, hbit, hrun]
  simp only [if_pos hstalled]

theorem exec_lobbyReset (hreset : controlLobbyReset w = true) :
    exec (.lobbyReset w) s = .next (lobbyReset (setAlerts w s)) := by
  have hw : (Instr.lobbyReset w).wellFormed = true := by simp [Instr.wellFormed, hreset]
  rw [exec, execLobbyReset, answer_next _ _ hw, writeControl_reset hreset]

/-- A CONTROL word that asks for nothing writes the two enables (R160). -/
theorem writeControl_alerts (hreset : controlLobbyReset w = false)
    (hrun : controlRun w = s.win.runBit)
    (hbit : s.win.runBit = true → s.win.runState ≠ .stalled) :
    writeControl w s = setAlerts w s := by
  rw [writeControl_run hreset, hrun]
  cases hb : s.win.runBit
  · rfl
  · exact if_neg (hbit hb)

/-! ## Recovery -/

/-- A recovery reads the anchor in a new session and keeps the run state with its cause (R165). -/
theorem recover_reads (s t : State) (hreads : t.reads = s.reads) :
    (recover t).win.runState = t.win.runState ∧ (recover t).win.stallCause = t.win.stallCause ∧
      (recover t).win.session = (t.win.session + 1) % 256 ∧ (recover t).win.anchorRead = some {} ∧
      (recover t).win.markRead = none ∧
      ReadIssued ⟨.anchor (recover t).win.session, t.win.windowBase.toNat, 256, false⟩ s
        (recover t) := by
  refine ⟨by simp [recover, advanceSession], by simp [recover, advanceSession],
    by simp [recover, advanceSession], by simp [recover], by simp [recover, advanceSession], ?_⟩
  simp only [recover, issueAnchorRead_keeps]
  exact issueRead_issued _ s _ hreads

end

/-! ## The halves of the window base -/

theorem low_of_halves (high low : BitVec 32) :
    BitVec.setWidth 32 (high ++ low : BitVec 64) = low := by
  apply BitVec.eq_of_toNat_eq
  rw [BitVec.toNat_setWidth, toNat_halves]
  omega

theorem high_of_halves (high low : BitVec 32) :
    BitVec.setWidth 32 ((high ++ low : BitVec 64) >>> 32) = high := by
  apply BitVec.eq_of_toNat_eq
  rw [BitVec.toNat_setWidth, BitVec.toNat_ushiftRight, toNat_halves, Nat.shiftRight_eq_div_pow]
  omega

/-! ## The statements -/

/-- Settles O10: such a write asks for nothing but the enables. -/
theorem alertEnablesFollowControl : Obligations.AlertEnablesFollowControl := by
  intro w s hreset hrun hbit
  have ha : (Instr.alertAEn w).wellFormed = true := by simp [Instr.wellFormed, hreset]
  have hb : (Instr.alertBEn w).wellFormed = true := by simp [Instr.wellFormed, hreset]
  have := writeControl_alerts hreset hrun hbit
  exact ⟨by rw [exec, execAlertAEn, answer_next _ _ ha, this]; rfl,
    by rw [exec, execAlertBEn, answer_next _ _ hb, this]; rfl⟩

/-- Settles O11: the bits kept are those not written as 1. -/
theorem statusWriteClearsCauses : Obligations.StatusWriteClearsCauses := fun _ _ => rfl

/-- Settles O12, by the run state and what is outstanding. -/
theorem attentionReadsThePublishMark : Obligations.AttentionReadsThePublishMark := by
  intro w s
  have running (hs : s.win.runState = .running) : exec (.attention w) s = .next (requestMark s) := by
    rw [exec, execAttention, hs]
  refine ⟨fun hs => by rw [exec, execAttention, hs], fun hs hm => ?outstanding, fun hs hm => ?read⟩
  case outstanding => rw [running hs, requestMark, if_pos hm]
  case read =>
    rw [running hs, requestMark, if_neg (by simp [hm])]
    exact ⟨_, rfl, issueRead_only _ _, issueRead_issued _ s _ rfl⟩

/-- Settles O13: the half not written keeps its bits. -/
theorem windowBaseTakenWhileStopped : Obligations.WindowBaseTakenWhileStopped := by
  intro w s hs hb
  have taken (base : BitVec 64) : setBase base s =
      { s with win := { s.win with windowBase := base, windowValid := false } } := if_pos ⟨hs, hb⟩
  refine ⟨⟨_, congrArg Host.Outcome.next (taken _), rfl, ?_, ?_⟩,
    ⟨_, congrArg Host.Outcome.next (taken _), rfl, ?_, ?_⟩⟩
  all_goals simp [readRegister, low_of_halves, high_of_halves]

/-- Settles O14. -/
theorem ignoredRegisterWrites : Obligations.IgnoredRegisterWrites := by
  intro w s
  refine ⟨fun o ho => answer_next _ _ (by simpa [Instr.wellFormed] using ho), fun hs => ?_⟩
  have ignored (base : BitVec 64) : setBase base s = s := if_neg (by rintro ⟨h, h'⟩; simp_all)
  exact ⟨congrArg Host.Outcome.next (ignored _), congrArg Host.Outcome.next (ignored _)⟩

/-- Settles O15: with the part STOPPED a start changes no run state. -/
theorem startReadsTheAnchor : Obligations.StartReadsTheAnchor := by
  intro w s hreset hrun hbit hs
  refine ⟨_, exec_start hreset hrun hbit, ?_⟩
  simp [beginStart, setAlerts, hs, advanceSession]
  exact issueRead_issued _ s _ (by simp)

/-- Settles O16, by the run state, the start and the entry in flight. -/
theorem stopByRunState : Obligations.StopByRunState := by
  intro w s hreset hrun hbit
  refine ⟨fun hs hst hf => ⟨_, exec_stop hreset hrun hbit, ?_⟩, fun f hs hst hf => ?_,
    fun hs hst => ⟨_, exec_stop hreset hrun hbit, ?_⟩, fun hs hst => ⟨_, exec_stop hreset hrun hbit, ?_⟩⟩
  · simp [stopRun, setAlerts, hs, hst, hf, setRunState_pollTimer]
  · rw [exec_stop hreset hrun hbit]
    simp [stopRun, setAlerts, hs, hst, hf]
  · simp [stopRun, setAlerts, hs, hst, discardHeld_flight, advanceSession]
  · simp [stopRun, setAlerts, hs, hst, advanceSession]

/-- Settles O17: ATTENTION and RECOVERY both recover; the enables a CONTROL word writes have no part in it. -/
theorem recoveryReadsTheAnchor : Obligations.RecoveryReadsTheAnchor := by
  intro w s hs
  refine ⟨⟨recover s, ?_, hs ▸ recover_reads s s rfl⟩, fun hreset hrun hbit =>
    ⟨_, exec_recovery hreset hrun hbit hs, hs ▸ recover_reads s (setAlerts w s) rfl⟩⟩
  simp only [exec, execAttention, hs]

/-- Settles O26. -/
theorem markCarriesTheMirrorGeneration : Obligations.MarkCarriesTheMirrorGeneration := by
  intro s f ⟨hf, hv⟩
  have hflight := handedEntry_flight hf
  refine ⟨_, congrArg Host.Outcome.next (takeEntry_handed hf _), finish_ends _ _ hflight hv, ?_⟩
  rw [finish_inFlight _ _ hflight hv]

end Sys2Proof.Machine

/-! SUPPORT. The state after power-on reset and after the lobby reset (R1, R2, R21, R40, R41, R55, R59, R75, R91,
R92, R110, R128, R129, R144, R145, R157, R160, R172, R178). -/

namespace Sys2Proof.Machine

/-! ## Power-on reset -/

theorem reset_showRec (i : ShowIx) : State.reset.shows.recs[i] = {} := by
  simp [State.reset]

theorem reset_hold (k : HoldIx) : State.reset.shows.holds[k] = ⟨0, none⟩ := by
  simp [State.reset]

/-- Settles O7: each of the tables is empty. -/
theorem resetMeetsTheInvariants : Obligations.ResetMeetsTheInvariants := by
  refine ⟨⟨fun i => ?_, fun i _ => reset_showRec i, fun i st h => ?_, fun k h hh => ?_⟩,
    ⟨fun _ h => ?_, .nil, .nil, .nil, .nil⟩, ⟨by decide, fun d => ?_, fun d => ?_, fun d => ?_⟩,
    ⟨.nil, rfl, rfl⟩⟩
  · rw [reset_showRec]
    decide
  · rw [reset_showRec] at h
    cases h
  · rw [reset_hold] at hh
    cases hh
  · cases h
  all_goals simp [State.reset, replyCapacity, controlCapacity, stackCapacity]

/-- Settles O8, block by block. -/
theorem powerOnValues : Obligations.PowerOnValues := by
  intro links s
  refine ⟨_, rfl, ?settings, ?window, ⟨rfl, rfl, rfl⟩, ?shows, ?holds, ?desks, ?notices, ?air, ?displays,
    ?stream, ⟨rfl, rfl⟩, ?reads⟩
  case settings => exact ⟨rfl, rfl, rfl, rfl, rfl, rfl, rfl, rfl⟩
  case displays => exact fun d => by simp [State.reset, mapAll]
  all_goals simp [State.reset]

/-! ## Writes handed -/

/-- Handing records leaves every write of another target as it is. -/
theorem mem_handAll_other {ids : List MirrorId} {s : State} {x : WindowWrite}
    (h : ∀ id ∈ ids, x.target ≠ .mirror id) :
    x ∈ (handAll ids s).win.writeQ ↔ x ∈ s.win.writeQ := by
  induction ids generalizing s with
  | nil => rfl
  | cons id ids ih =>
    have hid : x ∈ (handMirror id s).win.writeQ ↔ x ∈ s.win.writeQ := by
      unfold handMirror; split
      · exact mem_placeIn_other (h id (by simp))
      · rfl
    exact (ih fun j hj => h j (by simp [hj])).trans hid

/-- While window_valid is clear no record is queued (R167). -/
theorem handAll_invalid (ids : List MirrorId) {s : State} (h : s.win.windowValid = false) :
    handAll ids s = s := by
  induction ids with
  | nil => rfl
  | cons id ids ih =>
    have : handMirror id s = s := if_neg (by simp [h])
    simpa [handAll, this] using ih

theorem placeAnchor_invalid (a : AnchorWord) {s : State} (h : s.win.windowValid = false) :
    placeAnchor a s = s := if_neg (by simp [h])

/-- An anchor word placed while window_valid is set stands on the write path (R166). -/
theorem placeAnchor_placed (a : AnchorWord) {s : State} (h : s.win.windowValid = true) :
    WordPlaced a a.offset (anchorBytes s a) (placeAnchor a s) := by
  simp only [WordPlaced, placeAnchor, placeWrite_only, h, if_true]
  exact mem_placeIn_self _ _

/-- An anchor word placed leaves every write of another target as it is. -/
theorem mem_placeAnchor_other {a : AnchorWord} {s : State} {x : WindowWrite}
    (h : x.target ≠ .anchor a) : x ∈ (placeAnchor a s).win.writeQ ↔ x ∈ s.win.writeQ := by
  simp only [placeAnchor, placeWrite_only]
  split
  · exact mem_placeIn_other h
  · rfl

theorem placeAnchor_recordPlaced {a : AnchorWord} {s : State} {id : MirrorId}
    (h : RecordPlaced id s) : RecordPlaced id (placeAnchor a s) := by
  simp only [RecordPlaced, placeAnchor, placeWrite_only] at h ⊢
  split
  · exact (mem_placeIn_other (by simp)).mpr h
  · exact h

/-! ## The lobby reset -/

/-- A panel link of the lobby reset: STRIP_CLEAR goes to the panel of a display that was not OFF and whose
link is up (R144). -/
def clearedLink (r : DisplayRec) (l : PanelLink) : PanelLink :=
  if r.state = .off then l else if r.linkUp then l.enqueue .stripClear else l

theorem clearStrip_only (before : State) (d : DisplayIx) (s : State)
    (h : s.displays.recs[d].linkUp = before.displays.recs[d].linkUp) :
    clearStrip before d s = { s with stream := { s.stream with
      links := put s.stream.links d (clearedLink before.displays.recs[d] s.stream.links[d]) } } := by
  simp only [clearStrip, clearedLink]
  split
  · rw [put_self]
  · simp only [sendPanel, h]
    split
    · rfl
    · rw [put_self]

theorem clearStrips_only (before : State) (l : List DisplayIx) (hn : l.Nodup) (s : State)
    (h : ∀ d : DisplayIx, s.displays.recs[d].linkUp = before.displays.recs[d].linkUp) :
    ∃ links, l.foldl (fun t d => clearStrip before d t) s =
        { s with stream := { s.stream with links := links } } ∧
      ∀ d : DisplayIx, links[d] =
        if d ∈ l then clearedLink before.displays.recs[d] s.stream.links[d] else s.stream.links[d] := by
  induction l generalizing s with
  | nil => exact ⟨_, rfl, by simp⟩
  | cons a l ih =>
    obtain ⟨ha, hl⟩ := List.nodup_cons.mp hn
    obtain ⟨links, heq, hlinks⟩ := ih hl (clearStrip before a s) (by rw [clearStrip_only _ _ _ (h a)]; exact h)
    refine ⟨links, ?_, fun d => ?_⟩
    · rw [List.foldl_cons, heq, clearStrip_only _ _ _ (h a)]
    · rw [hlinks d, clearStrip_only _ _ _ (h a)]
      simp only [put_get, List.mem_cons]
      by_cases hd : d = a
      · subst hd
        simp [ha]
      · simp [hd]

/-- The lobby reset: every block reset, the panel links, and the writes it hands (R144, R172). -/
theorem lobbyReset_blocks (s : State) :
    ∃ u : State, lobbyReset s = placeAnchor .runEcho (handAll resetMirrors u) ∧
      u = { resetBlocks s with stream := { resetStream s.stream with links := u.stream.links } } ∧
      ∀ d : DisplayIx, u.stream.links[d] =
        clearedLink s.displays.recs[d] { tx := s.stream.links[d].tx } := by
  obtain ⟨links, heq, hlinks⟩ := clearStrips_only s (List.finRange 16) (List.nodup_finRange 16)
    (resetBlocks s) (fun d => by simp [resetBlocks, resetDisplay])
  refine ⟨_, rfl, ?_, fun d => ?_⟩
  · rw [heq]
    rfl
  · rw [heq]
    simpa [resetBlocks, resetStream, resetLink] using hlinks d

/-- Behind an idle or a busy transmitter STRIP_CLEAR is the only frame that a reset leaves to send. -/
theorem clearedLink_eq (r : DisplayRec) (tx : Option PanelFrame) :
    clearedLink r { tx := tx } =
      if r.state = .off ∨ r.linkUp = false then { tx := tx }
      else if tx = none then { tx := some .stripClear } else { tx := tx, control := [.stripClear] } := by
  unfold clearedLink
  by_cases hoff : r.state = .off
  · simp [hoff]
  cases hup : r.linkUp <;> cases tx <;>
    simp [hoff, PanelLink.enqueue, controlCapacity, PanelLink.kick]

/-- What a lobby reset changes beside the write queue and the versions. -/
theorem lobbyReset_only (s : State) :
    ∃ q v links, lobbyReset s = { resetBlocks s with
        win := { resetWindow s.win with writeQ := q, versions := v }
        stream := { resetStream s.stream with links := links } } ∧
      ∀ d : DisplayIx, links[d] = clearedLink s.displays.recs[d] { tx := s.stream.links[d].tx } := by
  obtain ⟨u, he, hu, hlinks⟩ := lobbyReset_blocks s
  obtain ⟨q, v, hq⟩ := handAll_only resetMirrors u
  rw [he, hq, placeAnchor, placeWrite_only, hu]
  exact ⟨_, _, _, rfl, hlinks⟩

/-- While window_valid is clear a lobby reset queues nothing (R166, R167). -/
theorem lobbyReset_unseen {s : State} (h : s.win.windowValid = false) :
    (lobbyReset s).win = resetWindow s.win := by
  obtain ⟨u, he, hu, -⟩ := lobbyReset_blocks s
  have hv : u.win.windowValid = false := by rw [hu]; exact h
  rw [he, handAll_invalid _ hv, placeAnchor_invalid _ hv, hu]
  rfl

/-- While window_valid is set a lobby reset hands every record but the two of faults, and the run echo, and
keeps every other write but the outcome (R167, R172, R178). -/
theorem lobbyReset_writes {s : State} (h : s.win.windowValid = true) :
    let t := lobbyReset s
    (∀ id : MirrorId, (∀ sev, id ≠ .fault sev) → RecordPlaced id t ∧
      t.win.versions[id.index] =
        if s.win.writeQ.any (·.target == .mirror id) = true then s.win.versions[id.index]
        else (s.win.versions[id.index] + 1) % 65536) ∧
    (∀ sev : Severity, t.win.versions[(MirrorId.fault sev).index] =
      s.win.versions[(MirrorId.fault sev).index]) ∧
    WordPlaced .runEcho 77 [0] t ∧ (∀ x ∈ t.win.writeQ, x.target ≠ .outcome) ∧
    ∀ x ∈ s.win.writeQ,
      (∃ a, a ≠ .runEcho ∧ x.target = .anchor a) ∨ (∃ sev, x.target = .mirror (.fault sev)) →
      x ∈ t.win.writeQ := by
  intro t
  obtain ⟨u, he, hu, -⟩ := lobbyReset_blocks s
  have hwin : u.win = resetWindow s.win := by rw [hu]; rfl
  have hv : u.win.windowValid = true := by rw [hwin]; exact h
  have hqueue : u.win.writeQ = s.win.writeQ.filter (·.target != .outcome) := by rw [hwin]; rfl
  have hversions : t.win.versions = (handAll resetMirrors u).win.versions := by
    rw [show t = _ from he, placeAnchor, placeWrite_only]
  obtain ⟨placed, others⟩ := handAll_effect resetMirrors resetMirrors_nodup u hv
  refine ⟨fun id hid => ?records, fun sev => ?faults, ?echo, fun x hx => ?outcome, fun x hx hk => ?kept⟩
  case records =>
    obtain ⟨hp, hn⟩ := placed id ((mem_resetMirrors id).mpr hid)
    refine ⟨by rw [show t = _ from he]; exact placeAnchor_recordPlaced hp, ?_⟩
    have hany : isQueued (.mirror id) u.win.writeQ = isQueued (.mirror id) s.win.writeQ := by
      rw [Bool.eq_iff_iff, isQueued_iff, isQueued_iff, hqueue]
      grind
    rw [hversions, hn, nextVersion, hany, hwin]
    rfl
  case faults =>
    have hid : MirrorId.fault sev ∉ resetMirrors := fun hm => (mem_resetMirrors _).mp hm sev rfl
    rw [hversions, (others _ hid).version, hwin]
    rfl
  case echo =>
    rw [show t = _ from he]
    have := placeAnchor_placed .runEcho (s := handAll resetMirrors u) (by simpa using hv)
    simpa [anchorBytes, show u.win.runState = .stopped by rw [hwin]; rfl, RunState.code, leBytes,
      AnchorWord.offset] using this
  case outcome =>
    intro ho
    rw [show t = _ from he, mem_placeAnchor_other (by simp [ho]),
      mem_handAll_other (by simp [ho]), hqueue] at hx
    simp [ho] at hx
  case kept =>
    rw [show t = _ from he]
    rcases hk with ⟨a, ha, hx'⟩ | ⟨sev, hx'⟩
    · rw [mem_placeAnchor_other (by simp [hx', ha]), mem_handAll_other (by simp [hx']), hqueue]
      simp [hx, hx']
    · have hid : ∀ id ∈ resetMirrors, x.target ≠ .mirror id := fun id hm e =>
        (mem_resetMirrors id).mp hm sev (WriteTarget.mirror.inj (e.symm.trans hx'))
      rw [mem_placeAnchor_other (by simp [hx']), mem_handAll_other hid, hqueue]
      simp [hx, hx']

/-- Settles O9: the blocks as they are reset, the panel links, and the writes that are handed. -/
theorem lobbyResetEmptiesTheTables : Obligations.LobbyResetEmptiesTheTables := by
  intro w s hreset
  refine ⟨_, exec_lobbyReset hreset, ?_⟩
  obtain ⟨q, v, links, he, hlinks⟩ := lobbyReset_only (setAlerts w s)
  have unseen := lobbyReset_unseen (s := setAlerts w s)
  have writes := lobbyReset_writes (s := setAlerts w s)
  generalize lobbyReset (setAlerts w s) = t at he unseen writes ⊢
  subst he
  refine ⟨?window, ?kept, fun d => ?links, fun h => ?unseen, writes, ?registers, ?clock, fun i => ?shows,
    rfl, fun k => ?holds, fun i => ?notices, fun d => ?arbitration, fun d => ?ports, rfl, fun f => ?features,
    fun d => ?displays, fun d => ?streams, rfl, rfl⟩
  case window => exact ⟨rfl, rfl, rfl, rfl, rfl, rfl, rfl, rfl, rfl, rfl, rfl, rfl, rfl, rfl, rfl⟩
  case kept => simp [resetBlocks, resetWindow, resetShows, resetArbiter, resetAirtime, resetStream,
    resetDesks, setAlerts]
  case links => exact (hlinks d).trans (clearedLink_eq _ _)
  case unseen =>
    have hw := unseen h
    exact ⟨(congrArg WindowIf.versions hw :), (congrArg WindowIf.writeQ hw :)⟩
  case registers => exact ⟨rfl, rfl, rfl, rfl, rfl, rfl, rfl⟩
  case clock => exact ⟨rfl, rfl, rfl⟩
  all_goals simp [resetBlocks, resetShows, resetArbiter, resetAirtime, resetStream, resetDesks,
    resetDisplay, setAlerts]

end Sys2Proof.Machine

/-! SUPPORT. The reads of the Window Interface: the publish mark, the entry and its text, a control read that
fails (R146, R163 to R165). -/

namespace Sys2Proof.Machine

section
variable {s : State}

/-! ## Raises -/

theorem raise_raised {s t : State} (who : Raiser) (cause : FaultCause) (source : FaultSource)
    (capture : List Byte) (h : t.bus = s.bus) :
    Raised who ⟨cause, source, capture⟩ s (raise who cause source capture t) := by
  simp [raise, h]

/-! ## The next entry -/

/-- The entry in flight once the next has been read (R164). -/
def nextFlight (s : State) : Option Flight :=
  if s.win.runState = .running ∧ s.win.stopping = false ∧ s.win.flight = none ∧
      s.win.takeMark ≠ s.win.publishMark then
    some { slot := s.win.takeMark % s.win.geometry.capacity }
  else s.win.flight

@[simp] theorem readNext_win (s : State) :
    (readNext s).win = { s.win with flight := nextFlight s } := by
  unfold readNext nextFlight
  split <;> simp

/-- The read of the next entry is outstanding (R164). -/
theorem readNext_outstanding (hrun : s.win.runState = .running) (hstop : s.win.stopping = false)
    (hf : s.win.flight = none) (hm : s.win.takeMark ≠ s.win.publishMark) :
    Outstanding ⟨.entry s.win.session,
      s.win.windowBase.toNat + s.win.geometry.journalOffset +
        64 * (s.win.takeMark % s.win.geometry.capacity), 64, false⟩ (readNext s) := by
  rw [readNext, if_pos ⟨hrun, hstop, hf, hm⟩]
  exact issueRead_outstanding _ _

theorem nextFlight_read (hrun : s.win.runState = .running) (hstop : s.win.stopping = false)
    (hf : s.win.flight = none) (hm : s.win.takeMark ≠ s.win.publishMark) :
    nextFlight s = some { slot := s.win.takeMark % s.win.geometry.capacity } :=
  if_pos ⟨hrun, hstop, hf, hm⟩

theorem nextFlight_stays (h : s.win.flight ≠ none ∨ s.win.takeMark = s.win.publishMark) :
    nextFlight s = s.win.flight := if_neg (by tauto)

/-! ## Completions of the present session -/

variable {slot : ReadSlot} {bytes : List Byte} {addr len : Nat} {g : Bool}

theorem exec_anchorReadDone (hlen : bytes.length = 256)
    (hread : s.reads.slots[slot] = some ⟨.anchor s.win.session, addr, len, g⟩) :
    exec (.anchorReadDone slot bytes) s = .next (anchorDone bytes (freeRead slot s)) := by
  rw [exec, execAnchorReadDone, hread, answer_next _ _ (by simp [Instr.wellFormed, hlen])]
  exact congrArg Host.Outcome.next (if_pos rfl)

theorem exec_publishMarkReadDone (hlen : bytes.length = 4)
    (hread : s.reads.slots[slot] = some ⟨.publishMark s.win.session, addr, len, g⟩) :
    exec (.publishMarkReadDone slot bytes) s = .next (markDone (leNat bytes) (freeRead slot s)) := by
  rw [exec, execPublishMarkReadDone, hread, answer_next _ _ (by simp [Instr.wellFormed, hlen])]
  exact congrArg Host.Outcome.next (if_pos rfl)

theorem exec_entryReadDone {f : Flight} (hf : s.win.flight = some f) (hphase : f.phase = .reading)
    (hlen : bytes.length = 64)
    (hread : s.reads.slots[slot] = some ⟨.entry s.win.session, addr, len, g⟩) :
    exec (.entryReadDone slot bytes) s =
      .next (entryDone { f with bytes := bytes, failures := 0, wait := none } (freeRead slot s)) := by
  rw [exec, execEntryReadDone, hread, answer_next _ _ (by simp [Instr.wellFormed, hlen])]
  simp [hf, hphase]

theorem exec_textReadDone {f : Flight} (hf : s.win.flight = some f) (hphase : f.phase = .text)
    (hpos : 1 ≤ bytes.length) (hmax : bytes.length ≤ 120)
    (hread : s.reads.slots[slot] = some ⟨.text s.win.session, addr, bytes.length, g⟩) :
    exec (.textReadDone slot bytes) s =
      .next (handOver (freeRead slot s) { f with text := bytes, failures := 0, wait := none }) := by
  rw [exec, execTextReadDone, hread, answer_next _ _ (by simp [Instr.wellFormed, hpos, hmax])]
  simp [hf, hphase]

/-! ## The publish mark -/

theorem exec_pollTimerExpiry (hrun : s.win.runState = .running) (htimer : s.win.pollTimer = some 0) :
    exec .pollTimerExpiry s =
      .next (requestMark
        { s with win := { s.win with pollTimer := some s.win.cfg.window.pollInterval } }) :=
  congrArg Host.Outcome.next (if_pos ⟨hrun, htimer⟩)

/-- A publish mark within the capacity is taken (R163). -/
theorem markDone_taken {v : Nat} (hrun : s.win.runState = .running)
    (hv : diff32 v s.win.takeMark ≤ s.win.geometry.capacity) :
    markDone v s = readNext { s with win := { s.win with markRead := none, publishMark := v } } := by
  simp [markDone, hrun, hv]

/-- Any other stalls the part (R163). -/
theorem markDone_refused {v : Nat} (hrun : s.win.runState = .running)
    (hv : s.win.geometry.capacity < diff32 v s.win.takeMark) :
    markDone v s = raise .windowInterface .journalMark .none noCapture (setRunState .stalled .mark
      (if s.win.flight.any unread = true then
        advanceSession { s with win := { s.win with markRead := none } }
      else { s with win := { s.win with markRead := none } })) := by
  simp [markDone, hrun, Nat.not_le.mpr hv]

end

/-- Settles O19, by the mark read and what is in flight. -/
theorem publishMarkReadAndTaken : Obligations.PublishMarkReadAndTaken := by
  intro s hrun
  refine ⟨fun ht hm => ?read, fun ht hm => ?outstanding, fun slot bytes addr len g hlen hread => ?done⟩
  case read =>
    refine ⟨_, exec_pollTimerExpiry hrun ht, ?_⟩
    rw [requestMark, if_neg (by simp [hm])]
    exact ⟨issueRead_only _ _, issueRead_issued _ s _ rfl⟩
  case outstanding => rw [exec_pollTimerExpiry hrun ht, requestMark, if_pos hm]
  case done =>
    refine ⟨_, exec_publishMarkReadDone hlen hread, ?_⟩
    by_cases hv : diff32 (leNat bytes) s.win.takeMark ≤ s.win.geometry.capacity
    · rw [markDone_taken (by exact hrun) (by exact hv)]
      refine ⟨by simp, by simp, fun _ => ⟨by simpa using hrun, by simp, by simp, fun hf hst hm => ⟨?_, ?_⟩, fun h => ?_⟩, fun h => by omega⟩
      · rw [readNext_win]
        exact nextFlight_read hrun hst hf hm
      · exact readNext_outstanding (s := { freeRead slot s with win := { s.win with markRead := none, publishMark := leNat bytes } }) hrun hst hf hm
      · rw [readNext_win]
        exact nextFlight_stays h
    · rw [markDone_refused (by exact hrun) (by simpa using hv)]
      cases hany : s.win.flight.any unread
      · simp [hany, hv]
        exact fun _ => raise_raised _ _ _ _ (by simp)
      · have hf : s.win.flight.filter (!unread ·) = none := by
          cases hf : s.win.flight <;> simp_all
        simp [hany, hv, advanceSession, hf]
        exact fun _ => raise_raised _ _ _ _ (by simp)

/-! ## Taking an entry -/

/-- An entry refused before it is handed carries the time of its refusal (R164). -/
theorem refuseEntry_ends (f : Flight) (code : OutcomeCode) (detail : Nat) {s : State}
    (hv : s.win.windowValid = true) :
    EndsWith code detail { f with phase := .handed, stamp := lobbyStamp s }
      (refuseEntry code detail f s) :=
  finish_ends code detail rfl hv

theorem refuseEntry_bus (code : OutcomeCode) (detail : Nat) (f : Flight) (s : State) :
    (refuseEntry code detail f s).bus = s.bus := by
  simp [refuseEntry, handOver]

theorem entryDone_badKind {f : Flight} (s : State)
    (hk : entryKind (byteAt f.bytes 0).toNat = none) :
    entryDone f s = refuseEntry .badKind 0 f
      (raise .windowInterface .journalEntry (.journalSlot f.slot) (f.bytes.take 16) s) := by
  simp only [entryDone, hk]

theorem entryDone_badFlags {f : Flight} {k : EntryKind} (s : State)
    (hk : entryKind (byteAt f.bytes 0).toNat = some k) (hflags : byteAt f.bytes 1 &&& 0xFE#8 ≠ 0#8) :
    entryDone f s = refuseEntry .badField 0 f s := by
  simp only [entryDone, hk, if_pos hflags]

/-- A text entry of the journal: a NOTICE_POST whose content is text (R80). -/
theorem entryDone_handed {f : Flight} {k : EntryKind} (s : State)
    (hk : entryKind (byteAt f.bytes 0).toNat = some k) (hflags : byteAt f.bytes 1 &&& 0xFE#8 = 0#8)
    (htext : k ≠ .noticePost ∨ fieldAt (entryBody f.bytes) 6 1 ≠ 0) :
    entryDone f s = handOver s f := by
  have : ¬ (k = .noticePost ∧ (readPostBody (entryBody f.bytes)).contentKind = 0) := by
    rintro ⟨h, h'⟩
    exact htext.elim (· h) (· h')
  simp only [entryDone, hk, hflags, ne_eq, not_true_eq_false, if_false, this]

theorem entryDone_text {f : Flight} (s : State)
    (hk : entryKind (byteAt f.bytes 0).toNat = some .noticePost)
    (hflags : byteAt f.bytes 1 &&& 0xFE#8 = 0#8) (htext : fieldAt (entryBody f.bytes) 6 1 = 0) :
    entryDone f s =
      if s.win.geometry.windowLength < postTextOffset (entryBody f.bytes) + textTaken f then
        refuseEntry .badField 10 f s
      else if textTaken f = 0 then handOver s f
      else issueTextRead f { s with win := { s.win with flight := some { f with phase := .text } } } := by
  have : (readPostBody (entryBody f.bytes)).contentKind = 0 := htext
  simp only [entryDone, hk, hflags, ne_eq, not_true_eq_false, if_false, this, and_self, if_true]

/-- Only a bad kind is raised (R164). -/
theorem entryDone_bus {f : Flight} {k : EntryKind} (s : State)
    (hk : entryKind (byteAt f.bytes 0).toNat = some k) : (entryDone f s).bus = s.bus := by
  simp only [entryDone, hk]
  repeat' split
  all_goals simp [refuseEntry, handOver]

/-- Settles O20, by the header checks in order. -/
theorem entriesAreCheckedAndHandedOver : Obligations.EntriesAreCheckedAndHandedOver := by
  intro slot bytes s f addr len g hf hv
  refine ⟨fun hlen hphase hread => ?_,
    fun hpos hmax hphase hread => ⟨_, exec_textReadDone hf hphase hpos hmax hread, rfl, rfl⟩⟩
  intro f' h body
  refine ⟨_, exec_entryReadDone hf hphase hlen hread, ?_⟩
  have refused (code : OutcomeCode) (detail : Nat) :
      EndsWith code detail h (refuseEntry code detail f' (freeRead slot s)) :=
    refuseEntry_ends f' code detail hv
  refine ⟨fun hk => ?badKind, fun k hk => ⟨?bus, fun hflags => ?badFlags, fun hflags =>
    ⟨fun htext => ?handed, fun hpost htext => ⟨fun hout => ?badOffset, fun hin => ?taken⟩⟩⟩⟩
  case badKind =>
    rw [entryDone_badKind _ hk]
    refine ⟨refuseEntry_ends f' .badKind 0 hv, ?_⟩
    rw [Raised, refuseEntry_bus]
    rfl
  case bus => exact entryDone_bus _ hk
  case badFlags =>
    rw [entryDone_badFlags _ hk hflags]
    exact refused .badField 0
  case handed =>
    rw [entryDone_handed _ hk hflags htext]
    rfl
  case badOffset =>
    subst hpost
    rw [entryDone_text _ hk hflags htext, if_pos (by exact hout)]
    exact refused .badField 10
  case taken =>
    subst hpost
    rw [entryDone_text _ hk hflags htext, if_neg (by exact Nat.not_lt.mpr hin)]
    by_cases hzero : fieldAt body 10 1 = 0
    · have : textTaken f' = 0 := by simp [textTaken, postTextLength, f', hzero, body] at hzero ⊢
      rw [if_pos this, if_pos hzero]
      exact ⟨rfl, absurd hzero⟩
    · have : textTaken f' ≠ 0 := by simp [textTaken, postTextLength, f', body, maxText] at hzero ⊢; omega
      rw [if_neg this, if_neg hzero]
      exact ⟨by simp [issueTextRead, f'], fun _ => issueRead_outstanding _ _⟩

end Sys2Proof.Machine

/-! SUPPORT. A control read that fails: it waits by the LFSR and is issued again, or is given up (R163, R165); a
window write that fails (R166). -/

namespace Sys2Proof.Machine

section
variable {s : State}

/-! ## The wait before a control read is issued again -/

/-- The wait that the LFSR gives the n-th failure of a control read (R165). -/
def failureWait (n : Nat) (s : State) : Nat :=
  s.stream.lfsr.toNat % 2 ^ min n s.win.cfg.retry.backoffCap

/-- The wait as a read's record holds it: none where the read stands issued again. -/
def waitLeft (n : Nat) (s : State) : Option Nat :=
  if failureWait n s = 0 then none else some (failureWait n s)

theorem controlWait_retried {n : Nat} (h : n < s.win.cfg.retry.retryLimit) :
    controlWait n s = some (failureWait n s) := if_pos h

theorem controlWait_givenUp {n : Nat} (h : s.win.cfg.retry.retryLimit ≤ n) :
    controlWait n s = none := if_neg (Nat.not_lt.mpr h)

/-! ## Failures of the present session -/

variable {slot : ReadSlot} {addr len : Nat} {g : Bool}

theorem exec_anchorFailed
    (hread : s.reads.slots[slot] = some ⟨.anchor s.win.session, addr, len, g⟩) :
    exec (.controlReadFailed slot) s = .next (anchorFailed (freeRead slot s)) := by
  rw [exec, execControlReadFailed, hread]
  exact congrArg Host.Outcome.next (if_pos rfl)

theorem exec_markFailed
    (hread : s.reads.slots[slot] = some ⟨.publishMark s.win.session, addr, len, g⟩) :
    exec (.controlReadFailed slot) s = .next (markFailed (freeRead slot s)) := by
  rw [exec, execControlReadFailed, hread]
  exact congrArg Host.Outcome.next (if_pos rfl)

theorem exec_entryFailed
    (hread : s.reads.slots[slot] = some ⟨.entry s.win.session, addr, len, g⟩ ∨
      s.reads.slots[slot] = some ⟨.text s.win.session, addr, len, g⟩) :
    exec (.controlReadFailed slot) s = .next (entryFailed (freeRead slot s)) := by
  rw [exec, execControlReadFailed]
  obtain hread | hread := hread <;> rw [hread] <;> exact congrArg Host.Outcome.next (if_pos rfl)

/-- A control read given up (R165). -/
theorem giveUpControl_effect (source : FaultSource) (s : State) :
    let t := giveUpControl source s
    t.win.session = (s.win.session + 1) % 256 ∧ t.win.anchorRead = none ∧ t.win.markRead = none ∧
      t.win.flight = s.win.flight.filter (!unread ·) ∧ t.win.heldOutcome = s.win.heldOutcome ∧
      Raised .windowInterface ⟨.memReadControl, source, noCapture⟩ s t ∧
      (s.win.stopping = true → s.win.starting = false →
        t.win.runState = .stopped ∧ t.win.stallCause = .none) ∧
      (s.win.stopping = false ∨ s.win.starting = true →
        t.win.runState = .stalled ∧ t.win.starting = false ∧
          t.win.stallCause = if s.win.heldOutcome.isSome = true then .write else .read) := by
  intro t
  by_cases hstop : s.win.stopping = true ∧ s.win.starting = false
  · have : t = setRunState .stopped .none
        (advanceSession (raise .windowInterface .memReadControl source noCapture s)) :=
      if_pos (by simpa [advanceSession] using hstop)
    rw [this]
    simp [advanceSession, hstop, Raised, raise]
  · have : t = setRunState .stalled _ _ := if_neg (by simpa [advanceSession] using hstop)
    rw [this]
    refine ⟨?_, ?_, ?_, ?_, ?_, ?_, fun h h' => absurd ⟨h, h'⟩ hstop, fun _ => ⟨?_, ?_, ?_⟩⟩
    case refine_9 => rw [setRunState_stallCause]; rfl
    all_goals simp [advanceSession, Raised, raise]

/-- A failed anchor read to be retried waits, or stands issued again at once (R165). -/
theorem anchorFailed_retried {r : CtlRead} (hr : s.win.anchorRead = some r)
    (hn : r.failures + 1 < s.win.cfg.retry.retryLimit) :
    anchorFailed s =
      let t := { s with win := { s.win with
        anchorRead := some ⟨r.failures + 1, waitLeft (r.failures + 1) s⟩ } }
      if failureWait (r.failures + 1) s = 0 then issueAnchorRead t else t := by
  simp only [anchorFailed, hr, controlWait_retried hn, waitLeft]
  cases failureWait (r.failures + 1) s <;> rfl

/-- A failed read of the publish mark, while RUNNING. -/
theorem markFailed_retried {r : CtlRead} (hrun : s.win.runState = .running)
    (hr : s.win.markRead = some r) (hn : r.failures + 1 < s.win.cfg.retry.retryLimit) :
    markFailed s =
      let t := { s with win := { s.win with
        markRead := some ⟨r.failures + 1, waitLeft (r.failures + 1) s⟩ } }
      if failureWait (r.failures + 1) s = 0 then issueMarkRead t else t := by
  simp only [markFailed, hr, hrun, controlWait_retried hn, waitLeft]
  cases failureWait (r.failures + 1) s <;> rfl

/-- A failed read of the entry in flight, or of its text. -/
theorem entryFailed_retried {f : Flight} (hf : s.win.flight = some f) (hu : unread f = true)
    (hn : f.failures + 1 < s.win.cfg.retry.retryLimit) :
    entryFailed s =
      let f' := { f with failures := f.failures + 1, wait := waitLeft (f.failures + 1) s }
      if failureWait (f.failures + 1) s = 0 then reissueEntry f' (withFlight f' s)
      else withFlight f' s := by
  simp only [entryFailed, hf, Option.filter_some, hu, if_true, controlWait_retried hn, waitLeft]
  cases failureWait (f.failures + 1) s <;> rfl

end

/-- Settles O23. -/
theorem retryExpiryIssuesTheReadAgain : Obligations.RetryExpiryIssuesTheReadAgain := by
  intro s n issued base
  refine ⟨fun h => ?anchor, fun h => ?mark, fun f hf hw => ⟨fun hp => ?entry, fun hp => ?text⟩⟩
  case anchor =>
    refine ⟨_, by rw [exec, execControlReadRetryExpiry, h], by simp, ?_⟩
    exact ⟨issueRead_issued _ s _ rfl, by simp⟩
  case mark =>
    refine ⟨_, by rw [exec, execControlReadRetryExpiry, h], by simp, ?_⟩
    exact ⟨issueRead_issued _ s _ rfl, by simp⟩
  case entry =>
    refine ⟨reissueEntry { f with wait := none } (withFlight { f with wait := none } s), ?_, ?_, ?_⟩
    · simp [exec, execControlReadRetryExpiry, hf, hw, hp, unread]
    · simp [reissueEntry, hp, withFlight]
    · rw [reissueEntry, if_neg (by simp [hp])]
      exact ⟨issueRead_issued _ s _ rfl, by simp [withFlight]⟩
  case text =>
    refine ⟨reissueEntry { f with wait := none } (withFlight { f with wait := none } s), ?_, ?_, ?_⟩
    · simp [exec, execControlReadRetryExpiry, hf, hw, hp, unread]
    · simp [reissueEntry, hp, withFlight]
    · rw [reissueEntry, if_pos (by simp [hp])]
      exact ⟨issueRead_issued _ s _ rfl, by simp [withFlight]⟩

/-- Settles O22, by the failures counted and the wait drawn. -/
theorem failedControlReadsRetry : Obligations.FailedControlReadsRetry := by
  intro slot s r addr len g limit base wait drawn again givenUp
  refine ⟨fun hread hr => ⟨_, exec_anchorFailed hread, fun hn => ?anchor, fun hn => ?anchorUp⟩,
    fun hread hr => ⟨_, exec_markFailed hread, fun hs => ?markOff, fun hs hn => ?mark, fun hs hn => ?markUp⟩,
    fun f hf hu hread => ⟨_, exec_entryFailed hread, fun hn => ?entry, fun hn => ?entryUp⟩⟩
  case anchorUp =>
    have : anchorFailed (freeRead slot s) = giveUpControl .none (freeRead slot s) := by
      simp [anchorFailed, hr, controlWait_givenUp (s := freeRead slot s) hn]
    rw [this]
    exact giveUpControl_effect _ _
  case markUp =>
    have : markFailed (freeRead slot s) = giveUpControl .none (freeRead slot s) := by
      simp [markFailed, hr, hs, controlWait_givenUp (s := freeRead slot s) hn]
    rw [this]
    exact giveUpControl_effect _ _
  case entryUp =>
    have : entryFailed (freeRead slot s) = giveUpControl (.journalSlot f.slot) (freeRead slot s) := by
      simp [entryFailed, hf, hu, Option.filter_some, controlWait_givenUp (s := freeRead slot s) hn]
    rw [this]
    exact giveUpControl_effect _ _
  case markOff =>
    simp [markFailed, hr, hs]
  case anchor =>
    rw [anchorFailed_retried (by exact hr) (by exact hn)]
    dsimp only
    split
    · exact ⟨by simp; rfl, by simp, by simp, by simp, fun _ => issueRead_outstanding _ _⟩
    · exact ⟨rfl, rfl, rfl, rfl, fun h => absurd h ‹_›⟩
  case mark =>
    rw [markFailed_retried (by exact hs) (by exact hr) (by exact hn)]
    dsimp only
    split
    · exact ⟨by simp; rfl, by simp, by simp, by simp, fun _ => issueRead_outstanding _ _⟩
    · exact ⟨rfl, rfl, rfl, rfl, fun h => absurd h ‹_›⟩
  case entry =>
    rw [entryFailed_retried (by exact hf) hu (by exact hn)]
    dsimp only
    split
    · refine ⟨by simp [withFlight]; rfl, fun hp => ?_, fun hp => ?_⟩
      · rw [reissueEntry, if_neg (by simp [hp])]
        exact ⟨by simp [withFlight], by simp [withFlight], by simp [withFlight], fun _ => issueRead_outstanding _ _⟩
      · rw [reissueEntry, if_pos (by simp [hp])]
        exact ⟨by simp [withFlight], by simp [withFlight], by simp [withFlight], fun _ => issueRead_outstanding _ _⟩
    · exact ⟨rfl, fun _ => ⟨rfl, rfl, rfl, fun h => absurd h ‹_›⟩, fun _ => ⟨rfl, rfl, rfl, fun h => absurd h ‹_›⟩⟩

/-! ## Window writes that fail -/

theorem exec_windowWriteFailed_first {s : State} {w : WindowWrite} {rest : List WindowWrite}
    (hq : s.win.writeQ = w :: rest) (hr : w.retried = false) :
    exec .windowWriteFailed s =
      .next { s with win := { s.win with writeQ := { w with retried := true } :: rest } } := by
  simp [exec, execWindowWriteFailed, hq, hr]

/-- The state once the write at the head has been dropped, with MEM_WRITE raised (R166). -/
def headDropped (rest : List WindowWrite) (s : State) : State :=
  raise .windowInterface .memWrite .none noCapture { s with win := { s.win with writeQ := rest } }

/-- A write dropped: an outcome write leaves its outcome to be seen to. -/
theorem exec_windowWriteFailed_dropped {s : State} {w : WindowWrite} {rest : List WindowWrite}
    (hq : s.win.writeQ = w :: rest) (hr : w.retried = true) :
    exec .windowWriteFailed s = .next
      (if w.target = .outcome then outcomeDropped (headDropped rest s) else headDropped rest s) := by
  rw [exec, execWindowWriteFailed, hq]
  cases hw : w.target <;> simp [hr, hw, headDropped]

theorem outcomeDropped_parts (s : State) :
    (outcomeDropped s).win.mirrorGen = s.win.mirrorGen ∧
      (outcomeDropped s).win.takeMark = s.win.takeMark := by
  unfold outcomeDropped
  repeat' split
  all_goals simp

/-- Settles O25, by the failures of the write at the head. -/
theorem failedWritesRetryOnceAndDrop : Obligations.FailedWritesRetryOnceAndDrop := by
  intro s w rest hq
  refine ⟨exec_windowWriteFailed_first hq, fun hr => ⟨_, exec_windowWriteFailed_dropped hq hr, ?_⟩⟩
  split
  case isFalse ho =>
    exact ⟨rfl, rfl, rfl, rfl, fun _ => rfl, fun _ h => absurd h ho, fun _ h => absurd h ho⟩
  case isTrue ho =>
    obtain ⟨hgen, htake⟩ := outcomeDropped_parts (headDropped rest s)
    refine ⟨by simp [headDropped], hgen, htake, ?raised, fun h => absurd ho h,
      fun f _ hf hrun hstop => ?held, fun f _ hf hstop => ?stopped⟩
    case raised => simp [Raised, headDropped, raise]
    case held =>
      have : s.win.runState ≠ .stopped := by rintro h; simp [h] at hrun
      simp [outcomeDropped, headDropped, hf, hstop, this]
    case stopped => simp [outcomeDropped, headDropped, hf, hstop]

end Sys2Proof.Machine

/-! SUPPORT. What an anchor read comes to: a start by its five checks, or a recovery by the geometry, the mark and
the cause (R162, R165, R167). -/

namespace Sys2Proof.Machine

section
variable {s : State}

/-! ## The write queue through a change of run state -/

theorem mem_setRunState_other {r : RunState} {c : StallCause} {x : WindowWrite}
    (h : x.target ≠ .anchor .runEcho) :
    x ∈ (setRunState r c s).win.writeQ ↔ x ∈ s.win.writeQ := by
  unfold setRunState; split
  · rfl
  · exact mem_placeAnchor_other h

theorem mem_discardHeld_other {x : WindowWrite} (h : x.target ≠ .outcome) :
    x ∈ (discardHeld s).win.writeQ ↔ x ∈ s.win.writeQ := by
  unfold discardHeld; split
  · simp [h]
  · rfl

theorem setRunState_versions (r : RunState) (c : StallCause) (s : State) :
    (setRunState r c s).win.versions = s.win.versions := by
  obtain ⟨q, h⟩ := setRunState_only r c s
  rw [h]

/-- Reading the next entry has no part in what stands on the write path. -/
theorem readNext_recordPlaced {id : MirrorId} (h : RecordPlaced id s) :
    RecordPlaced id (readNext s) := by
  have hbody : mirrorBody (readNext s) id = mirrorBody s id :=
    mirrorBody_congr id (by simp) (by simp) (by simp) (by simp) (by simp) (by simp)
  simpa only [RecordPlaced, hbody, readNext_win] using h

/-! ## A start -/

/-- The Window Interface with what a good anchor gives it, before the part is RUNNING (R162). -/
def startWindow (a : AnchorBody) (w : WindowIf) : WindowIf :=
  { w with
    geometry := a.geometry
    takeMark := a.takeMark
    publishMark := a.publishMark
    windowValid := true
    starting := false
    stopping := false
    startDone := true
    anchorCheck := 0 }

/-- The part RUNNING by the anchor, its records not yet handed. -/
def startRunning (a : AnchorBody) (s : State) : State :=
  setRunState .running .none { discardHeld s with win := startWindow a (discardHeld s).win }

theorem finishStart_refused {bytes : List Byte} (h : startCheck (readAnchor bytes) ≠ 0) :
    finishStart bytes s = raise .windowInterface .anchorBad .none (bytes.take 16)
      (setRunState .stopped .none { discardHeld s with win := { (discardHeld s).win with
        runBit := false, starting := false, anchorCheck := startCheck (readAnchor bytes) } }) :=
  if_pos h

theorem finishStart_taken {bytes : List Byte} (h : startCheck (readAnchor bytes) = 0) :
    finishStart bytes s =
      readNext (if s.win.windowValid = true then startRunning (readAnchor bytes) s
        else handAll allMirrors (startRunning (readAnchor bytes) s)) := by
  simp only [finishStart, h, ne_eq, not_true_eq_false, if_false, discardHeld_win, startRunning,
    startWindow]
  cases s.win.windowValid <;> simp only [Bool.not_true, Bool.not_false, Bool.false_eq_true, if_true, if_false]

theorem startRunning_win (a : AnchorBody) (s : State) :
    (startRunning a s).win.windowBase = s.win.windowBase ∧
      (startRunning a s).win.geometry = a.geometry ∧ (startRunning a s).win.takeMark = a.takeMark ∧
      (startRunning a s).win.publishMark = a.publishMark ∧
      (startRunning a s).win.windowValid = true ∧ (startRunning a s).win.starting = false ∧
      (startRunning a s).win.stopping = false ∧ (startRunning a s).win.startDone = true ∧
      (startRunning a s).win.anchorCheck = 0 ∧ (startRunning a s).win.runState = .running ∧
      (startRunning a s).win.stallCause = .none ∧
      (startRunning a s).win.flight = (discardHeld s).win.flight ∧
      (startRunning a s).win.session = s.win.session ∧
      (startRunning a s).win.anchorRead = s.win.anchorRead ∧
      (startRunning a s).win.versions = s.win.versions ∧ (startRunning a s).bus = s.bus := by
  simp [startRunning, startWindow, setRunState_versions, setRunState_stopping]

/-- A record's queued write stays through a start, but for the outcome and the run echo (log entry 71). -/
theorem startRunning_isQueued (a : AnchorBody) (id : MirrorId) :
    isQueued (.mirror id) (startRunning a s).win.writeQ = isQueued (.mirror id) s.win.writeQ := by
  have mem (x : WindowWrite) (hx : x.target = .mirror id) :
      x ∈ (startRunning a s).win.writeQ ↔ x ∈ s.win.writeQ := by
    rw [startRunning, mem_setRunState_other (by simp [hx])]
    exact mem_discardHeld_other (by simp [hx])
  rw [Bool.eq_iff_iff, isQueued_iff, isQueued_iff]
  grind

/-- Records handed at a start with no window known: each placed with its version one more, or the version of
the write it takes the place of (R167). -/
theorem startRunning_handAll (a : AnchorBody) {ids : List MirrorId} (hids : ids.Nodup)
    {id : MirrorId} (hid : id ∈ ids) :
    let t := readNext (handAll ids (startRunning a s))
    RecordPlaced id t ∧ t.win.versions[id.index] =
      if s.win.writeQ.any (·.target == .mirror id) = true then s.win.versions[id.index]
      else (s.win.versions[id.index] + 1) % 65536 := by
  obtain ⟨-, -, -, -, hv, -, -, -, -, -, -, -, -, -, hn, -⟩ := startRunning_win a s
  obtain ⟨placed, -⟩ := handAll_effect ids hids (startRunning a s) hv
  obtain ⟨hp, hversion⟩ := placed id hid
  refine ⟨readNext_recordPlaced hp, ?_⟩
  rw [readNext_win]
  refine hversion.trans ?_
  rw [nextVersion, startRunning_isQueued, hn]
  rfl

/-- The part RUNNING by the anchor with records handed or not, its next entry read (R162, R164). -/
theorem startRunning_readNext (a : AnchorBody) (hf : s.win.flight = none) {v : State}
    (hv : ∃ q n, v = { startRunning a s with
      win := { (startRunning a s).win with writeQ := q, versions := n } }) :
    let t := readNext v
    t.win.starting = false ∧ t.win.anchorCheck = 0 ∧ t.win.stallCause = .none ∧
      t.win.runState = .running ∧ t.win.windowValid = true ∧ t.win.startDone = true ∧
      t.win.geometry = a.geometry ∧ t.win.takeMark = a.takeMark ∧ t.win.publishMark = a.publishMark ∧
      t.win.anchorRead = s.win.anchorRead ∧
      t.win.flight = (if a.takeMark = a.publishMark then none
        else some { slot := a.takeMark % a.capacity }) ∧
      (a.takeMark ≠ a.publishMark →
        Outstanding ⟨.entry s.win.session,
          s.win.windowBase.toNat + a.journalOffset + 64 * (a.takeMark % a.capacity), 64, false⟩ t) ∧
      t.bus = s.bus := by
  obtain ⟨q, n, rfl⟩ := hv
  obtain ⟨hbase, hgeom, htake, hmark, hvalid, hst, hstop, hdone, hcheck, hrun, hcause, hflight, hsess,
    hread, -, hbus⟩ := startRunning_win a s
  have hnone : (startRunning a s).win.flight = none := by
    rw [hflight, (discardHeld_flight s).2, hf, ite_self]
  refine ⟨?_, ?_, ?_, ?_, ?_, ?_, ?_, ?_, ?_, ?_, ?_, fun hne => ?_, by simpa using hbus⟩
  case refine_11 =>
    rw [readNext_win]
    split
    case isTrue he => exact (nextFlight_stays (.inr (by simpa [htake, hmark] using he))).trans hnone
    case isFalse he =>
      refine (nextFlight_read hrun hstop hnone (by simpa [htake, hmark] using he)).trans ?_
      simp [htake, hgeom, AnchorBody.geometry]
  case refine_12 =>
    have := readNext_outstanding (s := { startRunning a s with
      win := { (startRunning a s).win with writeQ := q, versions := n } }) hrun hstop hnone
      (by simpa [htake, hmark] using hne)
    simpa [htake, hgeom, hsess, hbase, AnchorBody.geometry] using this
  all_goals rw [readNext_win]; assumption

/-! ## A recovery -/

theorem finishRecovery_geometry {bytes : List Byte}
    (h : (readAnchor bytes).geometry ≠ s.win.geometry) :
    finishRecovery bytes s = raise .windowInterface .anchorBad .none (bytes.take 16)
      { s with win := { s.win with anchorCheck := 0 } } := if_pos h

theorem finishRecovery_mark {bytes : List Byte} (hs : s.win.runState = .stalled)
    (h : (readAnchor bytes).geometry = s.win.geometry)
    (hm : ¬ diff32 (readAnchor bytes).publishMark s.win.takeMark ≤ s.win.geometry.capacity) :
    finishRecovery bytes s = raise .windowInterface .journalMark .none noCapture
      { s with win := { s.win with
        stallCause := if s.win.heldOutcome.isSome then .write else .mark } } := by
  simp only [finishRecovery, h, hm, ne_eq, not_true_eq_false, if_false, not_false_eq_true, if_true,
    setRunState, hs]

/-- A recovery with a consistent mark: a held outcome is written again (R165). -/
theorem finishRecovery_rewritten {bytes : List Byte} {f : Flight} {o : EntryOutcome}
    (h : (readAnchor bytes).geometry = s.win.geometry)
    (hm : diff32 (readAnchor bytes).publishMark s.win.takeMark ≤ s.win.geometry.capacity)
    (hcause : s.win.stallCause = .write) (hf : s.win.flight = some f)
    (ho : s.win.heldOutcome = some o) :
    finishRecovery bytes s = placeWrite (outcomeWrite s f o) { s with win := { s.win with
      publishMark := (readAnchor bytes).publishMark, rewriting := true } } := by
  simp only [finishRecovery, h, hm, ne_eq, not_true_eq_false, if_false, hcause, hf, ho]
  rfl

/-- Otherwise the part is RUNNING. -/
theorem finishRecovery_running {bytes : List Byte}
    (h : (readAnchor bytes).geometry = s.win.geometry)
    (hm : diff32 (readAnchor bytes).publishMark s.win.takeMark ≤ s.win.geometry.capacity)
    (hcause : s.win.stallCause ≠ .write) :
    finishRecovery bytes s = readNext (setRunState .running .none
      { s with win := { s.win with publishMark := (readAnchor bytes).publishMark } }) := by
  cases hc : s.win.stallCause <;>
    first
      | exact absurd hc hcause
      | simp only [finishRecovery, h, hm, ne_eq, not_true_eq_false, if_false, hc]

/-- The part RUNNING by a recovery: an entry kept in flight finishes, and otherwise the entry at T is read
(R165). -/
theorem recovered_readNext (mark : Nat) (hs : s.win.runState = .stalled) :
    let t := readNext (setRunState .running .none { s with win := { s.win with publishMark := mark } })
    t.win.runState = .running ∧ t.win.stallCause = .none ∧
      (∀ f : Flight, s.win.flight = some f → t.win.flight = some f) ∧
      (s.win.flight = none → s.win.takeMark = mark → t.win.flight = none) ∧
      (s.win.flight = none → s.win.takeMark ≠ mark →
        t.win.flight = some { slot := s.win.takeMark % s.win.geometry.capacity } ∧
          Outstanding ⟨.entry s.win.session,
            s.win.windowBase.toNat + s.win.geometry.journalOffset +
              64 * (s.win.takeMark % s.win.geometry.capacity), 64, false⟩ t) := by
  generalize hu : setRunState .running .none { s with win := { s.win with publishMark := mark } } = u
  have hrun : u.win.runState = .running := by simp [← hu]
  have hstop : u.win.stopping = false := by simp [← hu, setRunState_stopping, hs]
  obtain ⟨hflight, htake, hmark, hbase, hgeom, hsess⟩ : u.win.flight = s.win.flight ∧
      u.win.takeMark = s.win.takeMark ∧ u.win.publishMark = mark ∧
      u.win.windowBase = s.win.windowBase ∧ u.win.geometry = s.win.geometry ∧
      u.win.session = s.win.session := by simp [← hu]
  simp only [readNext_win]
  refine ⟨hrun, by simp [← hu], fun f hf => ?_, fun hf he => ?_, fun hf hne => ⟨?_, ?_⟩⟩
  · exact (nextFlight_stays (.inl (by simp [hflight, hf]))).trans (hflight.trans hf)
  · exact (nextFlight_stays (.inr (by rw [htake, hmark, he]))).trans (hflight.trans hf)
  · rw [nextFlight_read hrun hstop (hflight.trans hf) (by rwa [htake, hmark]), htake, hgeom]
  · have := readNext_outstanding hrun hstop (hflight.trans hf) (by rwa [htake, hmark])
    rwa [hsess, hbase, hgeom, htake] at this

/-- In both the publish mark is taken, and neither the take mark nor the geometry changes. -/
theorem finishRecovery_marks {bytes : List Byte}
    (h : (readAnchor bytes).geometry = s.win.geometry)
    (hm : diff32 (readAnchor bytes).publishMark s.win.takeMark ≤ s.win.geometry.capacity) :
    let t := finishRecovery bytes s
    t.win.takeMark = s.win.takeMark ∧ t.win.geometry = s.win.geometry ∧
      t.win.publishMark = (readAnchor bytes).publishMark ∧ t.bus = s.bus := by
  intro t
  simp only [t, finishRecovery, h, hm, ne_eq, not_true_eq_false, if_false]
  split <;> simp

end

/-! ## What an anchor read comes to -/

/-- The state once the anchor read in a slot has come in, before what it calls for. -/
def anchorTaken (slot : ReadSlot) (s : State) : State :=
  { freeRead slot s with win := { s.win with anchorRead := none } }

section
variable {slot : ReadSlot} {bytes : List Byte} {s : State}

theorem anchorDone_start (h : s.win.starting = true ∨ s.win.starting = false ∧
      s.win.runState = .stalled ∧ s.win.startDone = false) :
    anchorDone bytes (freeRead slot s) = finishStart bytes (anchorTaken slot s) := by
  rcases h with h | ⟨h, hs, hd⟩
  · simp [anchorDone, anchorTaken, h]
  · simp [anchorDone, anchorTaken, h, hs, hd]

theorem anchorDone_recovery (h : s.win.starting = false) (hs : s.win.runState = .stalled)
    (hd : s.win.startDone = true) :
    anchorDone bytes (freeRead slot s) = finishRecovery bytes (anchorTaken slot s) := by
  simp [anchorDone, anchorTaken, h, hs, hd]

theorem finishStart_anchorRead (bytes : List Byte) (s : State) :
    (finishStart bytes s).win.anchorRead = s.win.anchorRead := by
  by_cases h : startCheck (readAnchor bytes) = 0
  · rw [finishStart_taken h, readNext_win]
    split <;> simp [startRunning_win]
  · rw [finishStart_refused h]
    simp

theorem finishRecovery_anchorRead (bytes : List Byte) (s : State) :
    (finishRecovery bytes s).win.anchorRead = s.win.anchorRead := by
  simp only [finishRecovery]
  repeat' split
  all_goals simp

/-- No anchor read is outstanding once it has come in. -/
theorem anchorDone_anchorRead (bytes : List Byte) (s : State) :
    (anchorDone bytes s).win.anchorRead = none := by
  simp only [anchorDone]
  repeat' split
  all_goals simp [finishStart_anchorRead, finishRecovery_anchorRead]

end

/-- Settles O18: a start by its five checks, a recovery by the geometry, the mark and the cause. -/
theorem anchorReadStartsOrStops : Obligations.AnchorReadStartsOrStops := by
  intro slot bytes s addr len g hlen hread a
  refine ⟨_, exec_anchorReadDone hlen hread, anchorDone_anchorRead _ _, fun hstart hf => ?start,
    fun hst hs hd => ?recovery⟩
  case start =>
    rw [anchorDone_start (hstart.imp And.left id)]
    by_cases hc : startCheck a = 0
    · rw [finishStart_taken hc]
      have hf' : (anchorTaken slot s).win.flight = none := hf
      have hv' : (anchorTaken slot s).win.windowValid = s.win.windowValid := rfl
      have hnodup := allMirrors_nodup
      have hall := mem_allMirrors
      generalize allMirrors = ids at hnodup hall ⊢
      rw [hv']
      cases hv : s.win.windowValid
      · obtain ⟨hst, hcheck, hcause, hrun, hvalid, hdone, hgeom, htake, hmark, -, hflight, hread, hbus⟩ :=
          startRunning_readNext a hf' (handAll_only ids _)
        have full := fun id => startRunning_handAll (s := anchorTaken slot s) a hnodup (hall id)
        rw [if_neg Bool.false_ne_true]
        exact ⟨hst, hcheck.trans hc.symm, hcause, fun h => absurd hc h, fun _ =>
          ⟨hrun, hvalid, hdone, hgeom, htake, hmark, hflight, hread, hbus, (nomatch ·),
            fun _ id => full id⟩⟩
      · obtain ⟨hst, hcheck, hcause, hrun, hvalid, hdone, hgeom, htake, hmark, -, hflight, hread, hbus⟩ :=
          startRunning_readNext a hf' (v := startRunning a (anchorTaken slot s)) ⟨_, _, rfl⟩
        rw [if_pos rfl]
        refine ⟨hst, hcheck.trans hc.symm, hcause, fun h => absurd hc h, fun _ =>
          ⟨hrun, hvalid, hdone, hgeom, htake, hmark, hflight, hread, hbus, fun _ => ?_, (nomatch ·)⟩⟩
        rw [readNext_win]
        simp [startRunning_win, anchorTaken]
    · rw [finishStart_refused hc]
      refine ⟨?_, ?_, ?_, fun _ => ⟨?_, ?_, ?_, ?_⟩, fun h => absurd h hc⟩
      all_goals simp [Raised, raise, anchorTaken]
      all_goals rfl
  case recovery =>
    rw [anchorDone_recovery hst hs hd]
    by_cases hg : a.geometry = s.win.geometry
    · by_cases hm : diff32 a.publishMark s.win.takeMark ≤ s.win.geometry.capacity
      · obtain ⟨htake, hgeom, hmark, hbus⟩ := finishRecovery_marks (s := anchorTaken slot s) hg hm
        refine ⟨htake, hgeom, fun h => absurd hg h, fun _ h => absurd hm h, fun _ _ =>
          ⟨hmark, hbus, fun f o hcause hf ho hv => ?rewritten, fun hcause => ?running⟩⟩
        case rewritten =>
          rw [finishRecovery_rewritten (s := anchorTaken slot s) hg hm hcause hf ho, placeWrite_only]
          refine ⟨hs, hcause, hf, ho, rfl, outcomeWrite (anchorTaken slot s) f o, ?_, rfl, rfl⟩
          simp only [anchorTaken, hv, if_true]
          exact mem_placeIn_self _ _
        case running =>
          rw [finishRecovery_running (s := anchorTaken slot s) hg hm hcause]
          exact recovered_readNext (s := anchorTaken slot s) a.publishMark hs
      · rw [finishRecovery_mark (by exact hs) (by exact hg) (by exact hm)]
        refine ⟨rfl, rfl, fun h => absurd hg h, fun _ _ => ⟨?_, rfl⟩, fun _ h => absurd h hm⟩
        cases hh : s.win.heldOutcome <;> simp [raise, anchorTaken, hh]
    · rw [finishRecovery_geometry (by exact hg)]
      exact ⟨rfl, rfl, fun _ => ⟨rfl, rfl⟩, fun h => absurd h hg, fun h => absurd h hg⟩

end Sys2Proof.Machine

/-! SUPPORT. The desk line through every command: the intake queue and the reply queues keep to their capacities
(R64, R69, R70). -/

namespace Sys2Proof.Machine

/-- The intake queue holds at most 32 entries (R64), each reply queue at most 4 frames (R69). -/
def DesksFit (l : DeskLine) : Prop :=
  l.intake.length ≤ intakeCapacity ∧ ∀ d : DeskIx, l.ports[d].replyQ.length ≤ replyCapacity

section
variable {s : State}

theorem DesksFit.congr {t : State} (e : t.desks = s.desks) (h : DesksFit s.desks) :
    DesksFit t.desks := e ▸ h

theorem foldl_desksFit {α : Type} {g : State → α → State}
    (hg : ∀ s a, DesksFit s.desks → DesksFit (g s a).desks) (l : List α) (h : DesksFit s.desks) :
    DesksFit (l.foldl g s).desks := by
  induction l generalizing s with
  | nil => exact h
  | cons a l ih => exact ih (hg s a h)

/-! ## Ports -/

theorem Port.kick_replyQ (p : Port) : p.kick.replyQ.length ≤ p.replyQ.length := by
  unfold Port.kick
  split <;> simp_all

theorem withPort_desksFit {d : DeskIx} {f : Port → Port} (h : DesksFit s.desks)
    (hf : (f s.desks.ports[d]).replyQ.length ≤ replyCapacity) : DesksFit (withPort d f s).desks := by
  refine ⟨h.1, fun j => ?_⟩
  rw [withPort_ports, put_get]
  split
  · exact hf
  · exact h.2 j

@[simp] theorem countPort_desksFit (d : DeskIx) (f : PortCounters → PortCounters)
    (h : DesksFit s.desks) : DesksFit (countPort d f s).desks := withPort_desksFit h (h.2 d)

@[simp] theorem loseFrame_desksFit (d : DeskIx) (f : DeskFrame) (h : DesksFit s.desks) :
    DesksFit (loseFrame d f s).desks := by
  simp only [loseFrame, raise_keeps]
  exact withPort_desksFit h (h.2 d)

@[simp] theorem sendDesk_desksFit (d : DeskIx) (seq : Byte) (m : DeskMsg) (h : DesksFit s.desks) :
    DesksFit (sendDesk d seq m s).desks := by
  simp only [sendDesk]
  split
  case isTrue hroom =>
    refine withPort_desksFit h ((Port.kick_replyQ _).trans ?_)
    simpa using hroom.2
  case isFalse => exact loseFrame_desksFit d _ h

@[simp] theorem sendBusy_desksFit (d : DeskIx) (seq : Byte) (h : DesksFit s.desks) :
    DesksFit (sendBusy d seq s).desks := by
  simp only [sendBusy]
  split
  · exact h
  · exact sendDesk_desksFit _ _ _ h

theorem pausePlaced_replyQ (time : Nat) {p : Port} (h : p.replyQ.length ≤ replyCapacity) :
    (pausePlaced time p).replyQ.length ≤ replyCapacity := by
  simp only [pausePlaced, replyCapacity] at h ⊢
  split
  · exact h
  · split
    · exact (Port.kick_replyQ _).trans (by simp)
    · split
      · exact (Port.kick_replyQ _).trans (by simp_all)
      · split <;> exact (Port.kick_replyQ _).trans (by simp_all)

@[simp] theorem placePause_desksFit (time : Nat) (d : DeskIx) (h : DesksFit s.desks) :
    DesksFit (placePause time d s).desks := by
  refine ⟨by simpa using h.1, fun j => ?_⟩
  rw [placePause_ports, put_get]
  split
  · exact pausePlaced_replyQ time (h.2 d)
  · exact h.2 j

@[simp] theorem pauseAll_desksFit (time : Nat) (h : DesksFit s.desks) :
    DesksFit (pauseAll time s).desks :=
  foldl_desksFit (fun _ _ => placePause_desksFit time _) _ h

@[simp] theorem setPaused_desksFit (h : DesksFit s.desks) : DesksFit (setPaused s).desks := by
  have paused := pauseAll_desksFit s.desks.cfg.pauseTime h
  unfold setPaused
  generalize pauseAll _ s = t at paused ⊢
  exact paused

@[simp] theorem clearPaused_desksFit (h : DesksFit s.desks) : DesksFit (clearPaused s).desks := by
  have paused := pauseAll_desksFit 0 h
  unfold clearPaused
  generalize pauseAll _ s = t at paused ⊢
  exact paused

/-! ## Frames -/

@[simp] theorem placeIntake_desksFit (e : IntakeEntry) (raw : List Byte) (h : DesksFit s.desks) :
    DesksFit (placeIntake e raw s).desks := by
  simp only [placeIntake]
  split
  case isTrue hroom =>
    have placed : DesksFit { s.desks with intake := s.desks.intake ++ [e] } :=
      ⟨by simpa using hroom, h.2⟩
    split
    · exact setPaused_desksFit (countPort_desksFit _ _ placed)
    · exact countPort_desksFit _ _ placed
  case isFalse =>
    refine sendBusy_desksFit _ _ ?_
    simp only [raise_keeps]
    exact countPort_desksFit _ _ h

@[simp] theorem rejectFrame_desksFit (d : DeskIx) (seq : Byte) (r : Reason) (kind : Byte)
    (h : DesksFit s.desks) : DesksFit (rejectFrame d seq r kind s).desks :=
  sendDesk_desksFit _ _ _ (countPort_desksFit _ _ h)

@[simp] theorem checkFrame_desksFit (d : DeskIx) (raw : List Byte) (idle : Bool)
    (h : DesksFit s.desks) : DesksFit (checkFrame d raw idle s).desks := by
  simp only [checkFrame]
  repeat' split
  all_goals simp [h]

@[simp] theorem endFrame_desksFit (d : DeskIx) (raw : List Byte) (idle : Bool) (next : RxPhase)
    (h : DesksFit s.desks) : DesksFit (endFrame d raw idle next s).desks := by
  have hunted : DesksFit
      (withPort d (fun p => { p with phase := next, rx := [], rxDisabled := false }) s).desks :=
    withPort_desksFit h (h.2 d)
  have drained {t : State} (ht : DesksFit t.desks) : DesksFit (withPort d endDraining t).desks :=
    withPort_desksFit ht (by unfold endDraining; split <;> exact ht.2 d)
  simp only [endFrame]
  split
  · exact drained (countPort_desksFit _ _ hunted)
  · exact drained (checkFrame_desksFit _ _ _ hunted)

/-! ## DESK_PORT -/

@[simp] theorem enablePort_desksFit (d : DeskIx) (h : DesksFit s.desks) :
    DesksFit (enablePort d s).desks := by
  have enabled : DesksFit (withPort d (fun p => { p with state := .enabled }.kick) s).desks :=
    withPort_desksFit h ((Port.kick_replyQ _).trans (h.2 d))
  simp only [enablePort]
  repeat' split
  · exact h
  · exact placePause_desksFit _ d enabled
  · exact enabled

@[simp] theorem disablePort_desksFit (d : DeskIx) (h : DesksFit s.desks) :
    DesksFit (disablePort d s).desks := by
  simp only [disablePort]
  split
  · exact h
  · have emptied : DesksFit (withPort d (fun p => { p with replyQ := [] }) s).desks :=
      withPort_desksFit h (Nat.zero_le _)
    have lost := foldl_desksFit (fun t f => loseFrame_desksFit d f)
      (s.desks.ports[d].replyQ.filter (!·.isPause)) emptied
    exact withPort_desksFit lost (lost.2 d)

@[simp] theorem takePort_desksFit (d : DeskIx) (action : Nat) (clear : Bool) (h : DesksFit s.desks) :
    DesksFit (takePort d action clear s).desks := by
  simp only [takePort, finishWith_keeps]
  repeat' split
  all_goals simp [h]

/-! ## Entries, requests, shows -/

theorem takeEntry_desksFit {k : EntryKind} {act : Flight → State → State}
    (h : DesksFit s.desks) (ha : ∀ f, DesksFit (act f s).desks) :
    DesksFit (takeEntry k act s).desks := by
  unfold takeEntry; split
  · exact ha _
  · exact h

theorem takeRequest_desksFit {k : DeskKind} {act : IntakeEntry → State → State}
    (h : DesksFit s.desks) (ha : ∀ e {t : State}, DesksFit t.desks → DesksFit (act e t).desks) :
    DesksFit (takeRequest k act s).desks := by
  unfold takeRequest; split
  · exact ha _ h
  · exact h

theorem withShow_desksFit (f : Flight) {act : ShowIx → State → State}
    (h : DesksFit s.desks) (ha : ∀ i, DesksFit (act i s).desks) :
    DesksFit (withShow f act s).desks := by
  unfold withShow; split
  · exact .congr (by simp) h
  · exact ha _

@[simp] theorem endHold_desksFit (r : HoldEnd) (k : HoldIx) (h : DesksFit s.desks) :
    DesksFit (endHold r k s).desks := by
  unfold endHold; split
  · exact h
  · simp [h]

@[simp] theorem closeShow_desksFit (i : ShowIx) (prev : Band) (r : NoticeEnd)
    (h : DesksFit s.desks) : DesksFit (closeShow i prev r s).desks := by
  have ended := foldl_desksFit (fun _ k => endHold_desksFit (closingHoldEnd r) k) (holdsOn s i) h
  unfold closeShow; dsimp only; split <;> simpa using ended

@[simp] theorem perform_desksFit (e : DueEntry) (time : Nat) (h : DesksFit s.desks) :
    DesksFit (perform e time s).1.desks := by
  simp only [perform]
  repeat' split
  all_goals simp [h]

@[simp] theorem catchUpLoop_desksFit (fuel time : Nat) (q : List DueEntry) (n : Nat)
    (h : DesksFit s.desks) : DesksFit (catchUpLoop fuel time q n s).1.desks := by
  induction fuel generalizing q n s with
  | zero => exact h
  | succ fuel ih =>
    unfold catchUpLoop
    repeat' split
    · exact h
    · exact ih _ _ (perform_desksFit _ _ h)
    · exact ih _ _ h

@[simp] theorem catchUp_desksFit (time : Nat) (entries : List DueEntry) (h : DesksFit s.desks) :
    DesksFit (catchUp time entries s).1.desks := by
  simp [catchUp, h]

@[simp] theorem placeShow_desksFit (now : Nat) (i : ShowIx) (h : DesksFit s.desks) :
    DesksFit (placeShow now i s).desks := by
  simp only [placeShow]
  repeat' split
  all_goals simp [h]

@[simp] theorem placeAll_desksFit (now : Nat) (h : DesksFit s.desks) :
    DesksFit (placeAll now s).1.desks := by
  have placed := foldl_desksFit (fun _ i => placeShow_desksFit now i) (List.finRange 64) h
  simp [placeAll, placed]

@[simp] theorem finishClockSet_desksFit (time : Nat) (first : Bool) (entries : List DueEntry)
    (h : DesksFit s.desks) : DesksFit (finishClockSet time first entries s).desks := by
  cases first <;> simp [finishClockSet, h]

@[simp] theorem amendTimes_desksFit (i : ShowIx) (prev : Band) (now : Nat) (h : DesksFit s.desks) :
    DesksFit (amendTimes i prev now s).desks := by
  unfold amendTimes; dsimp only; split <;> simp [h]

@[simp] theorem applyAmend_desksFit (m : Nat → Bool) (b : ShowBody) (capture : List Byte)
    (i : ShowIx) (h : DesksFit s.desks) : DesksFit (applyAmend m b capture i s).desks := by
  simp only [applyAmend, finishShow_keeps, commitShow_keeps]
  repeat' split
  all_goals simp [h]

@[simp] theorem showAmend_desksFit (b : ShowBody) (capture : List Byte) (h : DesksFit s.desks) :
    DesksFit (showAmend b capture s).desks := by
  simp only [showAmend]
  repeat' split
  all_goals simp [h]

@[simp] theorem cancelShow_desksFit (i : ShowIx) (h : DesksFit s.desks) :
    DesksFit (cancelShow i s).desks := by
  simp only [cancelShow]
  repeat' split
  all_goals simp [h]

@[simp] theorem dropShow_desksFit (i : ShowIx) (h : DesksFit s.desks) :
    DesksFit (dropShow i s).desks := by
  simp only [dropShow]
  split <;> simp [h]

@[simp] theorem takeHold_desksFit (e : IntakeEntry) (h : DesksFit s.desks) :
    DesksFit (takeHold e s).desks := by
  simp only [takeHold, placeHold]
  split <;> simp [h]

@[simp] theorem takeExtend_desksFit (e : IntakeEntry) (h : DesksFit s.desks) :
    DesksFit (takeExtend e s).desks := by
  simp only [takeExtend, extendHold]
  repeat' split
  all_goals simp [h]

@[simp] theorem takeRelease_desksFit (e : IntakeEntry) (h : DesksFit s.desks) :
    DesksFit (takeRelease e s).desks := by
  simp only [takeRelease]
  repeat' split
  all_goals simp [h]

/-! ## Notices -/

@[simp] theorem concludeEnding_desksFit (r : NoticeEnd) (i : NoticeIx) (h : DesksFit s.desks) :
    DesksFit (concludeEnding r i s).desks := by
  simp only [concludeEnding]
  repeat' split
  all_goals simp [h]

@[simp] theorem evaluate_desksFit (fuel : Nat) (ds : List DisplayIx) (h : DesksFit s.desks) :
    DesksFit (evaluate fuel ds s).desks := by
  induction fuel generalizing ds s with
  | zero => exact h
  | succ fuel ih =>
    cases ds with
    | nil => exact h
    | cons d rest =>
      unfold evaluate
      repeat' split
      · exact ih rest h
      · exact ih rest h
      · exact ih rest h
      · exact ih _ (concludeEnding_desksFit _ _ (ih _ (.congr (by simp) h)))
      · exact ih _ (.congr (by simp) h)

@[simp] theorem evaluateAll_desksFit (ds : List DisplayIx) (h : DesksFit s.desks) :
    DesksFit (evaluateAll ds s).desks := evaluate_desksFit 4000 ds h

@[simp] theorem endNotice_desksFit (r : NoticeEnd) (i : NoticeIx) (h : DesksFit s.desks) :
    DesksFit (endNotice r i s).desks := by
  unfold endNotice; split <;> simp [h]

@[simp] theorem endNotices_desksFit (r : NoticeEnd) (is : List NoticeIx) (h : DesksFit s.desks) :
    DesksFit (endNotices r is s).desks := by
  unfold endNotices
  refine foldl_desksFit (fun t i ht => ?_) is (foldl_desksFit (fun t i ht => .congr (by simp) ht) _ h)
  exact concludeEnding_desksFit _ _ (evaluateAll_desksFit _ (.congr (by simp) ht))

@[simp] theorem placeNotice_desksFit (i : NoticeIx) (h : DesksFit s.desks) :
    DesksFit (placeNotice i s).desks := by
  unfold placeNotice
  repeat' split
  all_goals simp [h]

@[simp] theorem placeNotices_desksFit (is : List NoticeIx) (h : DesksFit s.desks) :
    DesksFit (placeNotices is s).desks := foldl_desksFit (fun _ _ => placeNotice_desksFit _) is h

@[simp] theorem createNotice_desksFit (p : Post) (i : NoticeIx) (h : DesksFit s.desks) :
    DesksFit (createNotice p i s).desks := by
  simp only [createNotice]
  split
  · exact evaluateAll_desksFit _ (foldl_desksFit (fun t d ht => .congr (by simp) ht) _ h)
  · exact placeNotice_desksFit _ h

@[simp] theorem collapseAt_desksFit (i : NoticeIx) (d : DisplayIx) (h : DesksFit s.desks) :
    DesksFit (collapseAt i s d).desks := by
  simp only [collapseAt]
  repeat' split
  all_goals simp [h]

@[simp] theorem collapseNotice_desksFit (p : Post) (i : NoticeIx) (h : DesksFit s.desks) :
    DesksFit (collapseNotice p i s).desks := by
  unfold collapseNotice
  split
  · exact h
  · refine foldl_desksFit (fun t d ht => ?_) _ (.congr (by simp) h)
    unfold collapseWhereHeld
    split
    · exact collapseAt_desksFit i d ht
    · exact ht

theorem noticeEvent_desksFit (extra : Option NoticeIx) {act : State → State}
    (h : DesksFit (act s).desks) : DesksFit (noticeEvent extra act s).desks := by
  simp only [noticeEvent]
  exact .congr (by simp) h

@[simp] theorem applyPost_desksFit (p : Post) (h : DesksFit s.desks) :
    DesksFit (applyPost p s).desks := by
  unfold applyPost
  split
  · exact noticeEvent_desksFit _ (collapseNotice_desksFit p _ h)
  · exact noticeEvent_desksFit _ (createNotice_desksFit p _ h)
  all_goals exact h

@[simp] theorem takePost_desksFit (f : Flight) (h : DesksFit s.desks) :
    DesksFit (takePost f s).desks := by
  simp only [takePost, finishPost]
  repeat' split
  all_goals simp [h]

@[simp] theorem takeDeskPost_desksFit (e : IntakeEntry) (h : DesksFit s.desks) :
    DesksFit (takeDeskPost e s).desks := by
  simp only [takeDeskPost]
  split <;> simp [h]

@[simp] theorem takeClear_desksFit (ref : Nat) (h : DesksFit s.desks) :
    DesksFit (takeClear ref s).desks := by
  unfold takeClear
  split
  · simp [h]
  · simp only [finish_keeps]
    exact noticeEvent_desksFit none (endNotice_desksFit .cleared _ h)

@[simp] theorem takeDeskClear_desksFit (e : IntakeEntry) (h : DesksFit s.desks) :
    DesksFit (takeDeskClear e s).desks := by
  simp only [takeDeskClear]
  repeat' split
  · simp [h]
  · simp [h]
  · exact noticeEvent_desksFit _ (endNotice_desksFit _ _ (sendDesk_desksFit _ _ _ h))

@[simp] theorem displayUp_desksFit (d : DisplayIx) (h : DesksFit s.desks) :
    DesksFit (displayUp d s).desks := by
  simp [displayUp, h]

@[simp] theorem leaveDisplay_desksFit (st : DisplayState) (kept : List NoticeIx) (d : DisplayIx)
    (h : DesksFit s.desks) : DesksFit (leaveDisplay st kept d s).desks := by
  simp [leaveDisplay, h]

/-! ## Resets and settings -/

theorem resetDesks_fit (l : DeskLine) : DesksFit (resetDesks l) :=
  ⟨Nat.zero_le _, fun d => by simp [resetDesks, replyCapacity]⟩

@[simp] theorem lobbyReset_desksFit (s : State) : DesksFit (lobbyReset s).desks := by
  obtain ⟨q, v, links, he, -⟩ := lobbyReset_only s
  rw [he]
  exact resetDesks_fit s.desks

@[simp] theorem adopt_desksFit (o : Owner) (c : Settings) (h : DesksFit s.desks) :
    DesksFit (adopt o c s).desks := by
  cases o
  case deskLine =>
    have taken : DesksFit { s.desks with cfg := c.desks } := h
    simp only [adopt, adoptDesks]
    repeat' split
    · exact clearPaused_desksFit taken
    · exact taken
    · exact setPaused_desksFit taken
    · exact taken
  all_goals exact .congr (by simp [adopt]) h

theorem writeControl_desksFit {w : BitVec 32} (hw : controlLobbyReset w = true) :
    DesksFit (writeControl w s).desks :=
  writeControl_reset hw ▸ lobbyReset_desksFit _

/-! ## Every command -/

theorem execDeskPort_desksFit (h : DesksFit s.desks) : Answers (DesksFit ·.desks) (execDeskPort s) := by
  refine answers_next.mpr (takeEntry_desksFit h fun f => ?_)
  dsimp only
  repeat' split
  all_goals simp [h]

theorem execClockSet_desksFit (h : DesksFit s.desks) : Answers (DesksFit ·.desks) (execClockSet s) := by
  refine answers_next.mpr (takeEntry_desksFit h fun f => ?_)
  dsimp only
  split
  · exact finishClockSet_desksFit _ _ _ h
  · exact h

theorem execIntakeHand_desksFit (h : DesksFit s.desks) :
    Answers (DesksFit ·.desks) (execIntakeHand s) := by
  refine answers_next.mpr ?_
  split
  case h_1 e rest _ hq =>
    have handed : DesksFit { s.desks with intake := rest, inHand := some e } :=
      ⟨(Nat.le_succ _).trans (by simpa [hq] using h.1), h.2⟩
    dsimp only
    split
    · exact clearPaused_desksFit handed
    · exact handed
  case h_2 => exact h

theorem execPauseRefreshExpiry_desksFit (h : DesksFit s.desks) :
    Answers (DesksFit ·.desks) (execPauseRefreshExpiry s) := by
  have paused := pauseAll_desksFit s.desks.cfg.pauseTime h
  refine answers_next.mpr ?_
  split
  · generalize pauseAll _ s = t at paused ⊢
    exact paused
  · exact h

theorem execAsk_desksFit (h : DesksFit s.desks) : Answers (DesksFit ·.desks) (execAsk s) :=
  answers_next.mpr (takeRequest_desksFit h fun _ _ ht => sendDesk_desksFit _ _ _ ht)

theorem execDeskByte_desksFit (d : DeskIx) (b : Byte) (h : DesksFit s.desks) :
    Answers (DesksFit ·.desks) (execDeskByte d b s) := by
  refine answers_next.mpr ?_
  dsimp only
  repeat' split
  all_goals first
    | exact h
    | exact withPort_desksFit h (h.2 d)
    | exact endFrame_desksFit _ _ _ _ h

theorem execLineIdle_desksFit (d : DeskIx) (h : DesksFit s.desks) :
    Answers (DesksFit ·.desks) (execLineIdle d s) := by
  refine answers_next.mpr ?_
  dsimp only
  split
  · exact h
  · exact endFrame_desksFit _ _ _ _ h
  · exact withPort_desksFit h (h.2 d)

theorem execFloorReport_desksFit (h : DesksFit s.desks) :
    Answers (DesksFit ·.desks) (execFloorReport s) := by
  refine answers_next.mpr ?_
  split
  · exact noticeEvent_desksFit _ (evaluateAll_desksFit _ h)
  · exact h

/-- No command takes the desk line beyond its capacities. -/
theorem exec_desksFit (c : Instr) (h : DesksFit s.desks) : Answers (DesksFit ·.desks) (exec c s) := by
  by_cases hp : Part.desks ∈ mayChange c
  · cases c <;> simp only [mayChange, List.mem_cons, List.not_mem_nil, reduceCtorEq, or_self] at hp
    case powerOnReset =>
      exact answers_next.mpr ⟨Nat.zero_le _, fun d => by simp [State.reset, replyCapacity]⟩
    case clockSet => exact execClockSet_desksFit h
    case deskPort => exact execDeskPort_desksFit h
    case intakeHand => exact execIntakeHand_desksFit h
    case pauseRefreshExpiry => exact execPauseRefreshExpiry_desksFit h
    case ask => exact execAsk_desksFit h
    case deskByte d b => exact execDeskByte_desksFit d b h
    case lineIdle d => exact execLineIdle_desksFit d h
    case floorReport => exact execFloorReport_desksFit h
    case deskTxDone d =>
      exact answers_next.mpr (withPort_desksFit h ((Port.kick_replyQ _).trans (h.2 d)))
    case pacingMillisecond => exact answers_next.mpr h
    case hold => exact answers_next.mpr (takeRequest_desksFit h fun e _ => takeHold_desksFit e)
    case extend => exact answers_next.mpr (takeRequest_desksFit h fun e _ => takeExtend_desksFit e)
    case release => exact answers_next.mpr (takeRequest_desksFit h fun e _ => takeRelease_desksFit e)
    case deskNoticePost =>
      exact answers_next.mpr (takeRequest_desksFit h fun e _ => takeDeskPost_desksFit e)
    case deskNoticeClear =>
      exact answers_next.mpr (takeRequest_desksFit h fun e _ => takeDeskClear_desksFit e)
    case noticePost => exact answers_next.mpr (takeEntry_desksFit h fun f => takePost_desksFit f h)
    case noticeClear => exact answers_next.mpr (takeEntry_desksFit h fun f => takeClear_desksFit _ h)
    case showAmend =>
      exact answers_next.mpr (takeEntry_desksFit h fun f => showAmend_desksFit _ _ h)
    case showCancel =>
      exact answers_next.mpr (takeEntry_desksFit h fun f => withShow_desksFit f h (cancelShow_desksFit · h))
    case showDrop =>
      exact answers_next.mpr (takeEntry_desksFit h fun f => withShow_desksFit f h (dropShow_desksFit · h))
    case lobbyReset w => exact answers_answer.mpr (writeControl_desksFit)
    case settingsEvent o =>
      refine answers_next.mpr ?_
      split
      · rename_i x rest _
        have adopted := adopt_desksFit
          (s := { s with win := { s.win with settingsQ := rest } }) o x.2 h
        exact .congr (by simp) adopted
      · exact h
    case catchUp =>
      refine answers_next.mpr ?_
      split
      · exact catchUp_desksFit _ _ h
      · exact finishClockSet_desksFit _ _ _ h
      · exact h
    case holdExpiry =>
      refine answers_next.mpr ?_
      repeat' split
      all_goals simp [h]
    case clearRequest =>
      refine answers_next.mpr ?_
      dsimp only
      repeat' split
      · exact noticeEvent_desksFit _ (endNotice_desksFit _ _ h)
      all_goals exact h
    case closureReport =>
      refine answers_next.mpr ?_
      split
      · exact noticeEvent_desksFit _ (endNotices_desksFit _ _ h)
      · exact h
    case noticeExpiry =>
      refine answers_next.mpr ?_
      split
      · exact noticeEvent_desksFit _ (endNotice_desksFit _ _ h)
      · exact h
    case autoNoticeRequest =>
      refine answers_next.mpr ?_
      split
      · exact applyPost_desksFit _ h
      · exact h
    case coverTimerExpiry d =>
      refine answers_next.mpr ?_
      split
      · exact noticeEvent_desksFit _ (evaluateAll_desksFit _ h)
      · exact h
    all_goals
      refine answers_next.mpr ?_
      split
      · exact noticeEvent_desksFit _ (by simp [displayLost, h])
      · exact h
  · intro t ht
    exact .congr (show s.desks = t.desks from commandsKeepToTheirParts c s t .desks ht hp).symm h

end

end Sys2Proof.Machine

/-! SUPPORT. The panel links through every command: the queue of control frames keeps to its capacity
(R157). -/

namespace Sys2Proof.Machine

/-- The control queue of each panel link holds at most its capacity (R157). -/
def LinksFit (e : StreamEngine) : Prop :=
  ∀ d : DisplayIx, e.links[d].control.length ≤ controlCapacity

section
variable {s : State}

theorem LinksFit.congr {t : State} (e : t.stream = s.stream) (h : LinksFit s.stream) :
    LinksFit t.stream := e ▸ h

theorem foldl_linksFit {α : Type} {g : State → α → State}
    (hg : ∀ s a, LinksFit s.stream → LinksFit (g s a).stream) (l : List α)
    (h : LinksFit s.stream) : LinksFit (l.foldl g s).stream := by
  induction l generalizing s with
  | nil => exact h
  | cons a l ih => exact ih (hg s a h)

/-! ## The links -/

theorem PanelLink.kick_control (l : PanelLink) : l.kick.control.length ≤ l.control.length := by
  unfold PanelLink.kick
  split <;> simp_all

theorem PanelLink.enqueue_control {f : PanelFrame} {l : PanelLink}
    (h : l.control.length ≤ controlCapacity) :
    (l.enqueue f).control.length ≤ controlCapacity := by
  unfold PanelLink.enqueue
  split
  case isTrue hroom => exact (PanelLink.kick_control _).trans (by simpa using hroom)
  case isFalse => exact h

theorem withLink_linksFit {d : DisplayIx} {f : PanelLink → PanelLink} (h : LinksFit s.stream)
    (hf : (f s.stream.links[d]).control.length ≤ controlCapacity) :
    LinksFit (withLink d f s).stream := by
  intro j
  rw [withLink_links, put_get]
  split
  · exact hf
  · exact h j

@[simp] theorem sendPanel_linksFit (d : DisplayIx) (f : PanelFrame) (h : LinksFit s.stream) :
    LinksFit (sendPanel d f s).stream := by
  unfold sendPanel
  split
  · exact withLink_linksFit h (PanelLink.enqueue_control (h d))
  · exact h

@[simp] theorem sendPanels_linksFit (d : DisplayIx) (fs : List PanelFrame) (h : LinksFit s.stream) :
    LinksFit (sendPanels d fs s).stream :=
  foldl_linksFit (fun _ f h => sendPanel_linksFit d f h) fs h

@[simp] theorem sendClip_linksFit (d : DisplayIx) (f : PanelFrame) (h : LinksFit s.stream) :
    LinksFit (sendClip d f s).stream := by
  unfold sendClip
  split
  · exact withLink_linksFit h ((PanelLink.kick_control _).trans (h d))
  · exact h

@[simp] theorem withStream_linksFit (d : DisplayIx) (f : StreamRec → StreamRec)
    (h : LinksFit s.stream) : LinksFit (withStream d f s).stream := h

/-! ## The Display Controller -/

@[simp] theorem composeBoard_linksFit (d : DisplayIx) (h : LinksFit s.stream) :
    LinksFit (composeBoard d s).stream := by
  simp only [composeBoard]
  split
  · exact sendPanel_linksFit d _ h
  · exact sendPanels_linksFit d _ h

@[simp] theorem startBoard_linksFit (d : DisplayIx) (h : LinksFit s.stream) :
    LinksFit (startBoard d s).stream := composeBoard_linksFit d h

@[simp] theorem startSlot_linksFit (d : DisplayIx) (h : LinksFit s.stream) :
    LinksFit (startSlot d s).stream := by
  simp only [startSlot]
  split
  · exact sendPanel_linksFit d _ h
  · exact .congr (by simp) h
  all_goals exact startBoard_linksFit d h

@[simp] theorem moveLoop_linksFit (d : DisplayIx) (h : LinksFit s.stream) :
    LinksFit (moveLoop d s).stream := startSlot_linksFit d h

@[simp] theorem turnOff_linksFit (d : DisplayIx) (h : LinksFit s.stream) :
    LinksFit (turnOff d s).stream := .congr (by simp [turnOff]) (sendPanel_linksFit d .stripClear
      (s := withDisplay d (fun r => { r.idle with state := .off }) s) h)

@[simp] theorem endSegment_linksFit (d : DisplayIx) (h : LinksFit s.stream) :
    LinksFit (endSegment d s).stream := by
  unfold endSegment
  split
  · exact moveLoop_linksFit d h
  · exact turnOff_linksFit d h
  all_goals exact h

@[simp] theorem beginLoop_linksFit (d : DisplayIx) (h : LinksFit s.stream) :
    LinksFit (beginLoop d s).stream := by
  simp [beginLoop, h]

@[simp] theorem beginDraining_linksFit (d : DisplayIx) (h : LinksFit s.stream) :
    LinksFit (beginDraining d s).stream := by
  simp [beginDraining, h]

@[simp] theorem disableDisplay_linksFit (d : DisplayIx) (h : LinksFit s.stream) :
    LinksFit (disableDisplay d s).stream := by
  simp only [disableDisplay]
  repeat' split
  all_goals simp [h]

@[simp] theorem takeReply_linksFit (r : DecisionReply) (h : LinksFit s.stream) :
    LinksFit (takeReply r s).stream := by
  simp only [takeReply]
  repeat' split
  all_goals simp [h]

@[simp] theorem updateRow_linksFit (x : ShowReport) (d : DisplayIx) (h : LinksFit s.stream) :
    LinksFit (updateRow x d s).stream := by
  simp only [updateRow]
  repeat' split
  all_goals simp [h]

@[simp] theorem updateRows_linksFit (x : ShowReport) (h : LinksFit s.stream) :
    LinksFit (updateRows x s).stream :=
  foldl_linksFit (fun _ d h => by simp [h]) _ h

@[simp] theorem beginTakeover_linksFit (d : DisplayIx) (h : LinksFit s.stream) :
    LinksFit (beginTakeover d s).stream := by
  simp only [beginTakeover]
  repeat' split
  all_goals simp [h]

@[simp] theorem endTakeover_linksFit (d : DisplayIx) (h : LinksFit s.stream) :
    LinksFit (endTakeover d s).stream := by
  simp only [endTakeover]
  repeat' split
  all_goals simp [h]

/-! ## The Stream Engine -/

@[simp] theorem endStream_linksFit (d : DisplayIx) (c : ReleaseCause) (h : LinksFit s.stream) :
    LinksFit (endStream d c s).stream := by
  simp [endStream, h]

@[simp] theorem endIfMarked_linksFit (d : DisplayIx) (h : LinksFit s.stream) :
    LinksFit (endIfMarked d s).stream := by
  simp only [endIfMarked]
  split <;> simp [h]

@[simp] theorem markEnd_linksFit (d : DisplayIx) (h : LinksFit s.stream) :
    LinksFit (markEnd d s).stream := by
  simp [markEnd, h]

@[simp] theorem retestAt_linksFit (d : DisplayIx) (h : LinksFit s.stream) :
    LinksFit (retestAt d s).stream := h

@[simp] theorem startStream_linksFit (d : DisplayIx) (f : FeatureIx) (segmentNo low high : Nat)
    (held : Bool) (h : LinksFit s.stream) :
    LinksFit (startStream d f segmentNo low high held s).stream :=
  endIfMarked_linksFit d h

@[simp] theorem issueBurst_linksFit (d : DisplayIx) (b : Burst) (granted : Bool)
    (h : LinksFit s.stream) : LinksFit (issueBurst d b granted s).stream := by
  simp [issueBurst, h]

@[simp] theorem joinBurst_linksFit (d : DisplayIx) (bytes : List Byte) (h : LinksFit s.stream) :
    LinksFit (joinBurst d bytes s).stream := h

@[simp] theorem giveUpClip_linksFit (d : DisplayIx) (h : LinksFit s.stream) :
    LinksFit (giveUpClip d s).stream := by
  simp [giveUpClip, h]

@[simp] theorem burstFailed_linksFit (d : DisplayIx) (b : Burst) (h : LinksFit s.stream) :
    LinksFit (burstFailed d b s).stream := by
  simp only [burstFailed]
  repeat' split
  all_goals simp [h]

@[simp] theorem beginUnderrun_linksFit (d : DisplayIx) (h : LinksFit s.stream) :
    LinksFit (beginUnderrun d s).stream := by
  simp [beginUnderrun, h]

@[simp] theorem sendBytes_linksFit (d : DisplayIx) (h : LinksFit s.stream) :
    LinksFit (sendBytes d s).stream := by
  simp only [sendBytes]
  split
  · exact endStream_linksFit d _ (sendClip_linksFit d _ h)
  · exact sendClip_linksFit d _ h

/-! ## Lobby reset and settings -/

theorem resetStream_fit (e : StreamEngine) : LinksFit (resetStream e) := fun d => by
  simp [resetStream, resetLink]

@[simp] theorem lobbyReset_linksFit (s : State) : LinksFit (lobbyReset s).stream := by
  have cleared := foldl_linksFit (s := resetBlocks s) (g := fun t d => clearStrip s d t)
    (fun t d h => by
      unfold clearStrip
      split
      · exact h
      · exact sendPanel_linksFit d _ h) (List.finRange 16) (resetStream_fit s.stream)
  unfold lobbyReset
  generalize (List.finRange 16).foldl _ (resetBlocks s) = t at cleared ⊢
  exact .congr (by simp) cleared

theorem writeControl_linksFit {w : BitVec 32} (hw : controlLobbyReset w = true) :
    LinksFit (writeControl w s).stream :=
  writeControl_reset hw ▸ lobbyReset_linksFit _

@[simp] theorem adopt_linksFit (o : Owner) (c : Settings) (h : LinksFit s.stream) :
    LinksFit (adopt o c s).stream := by
  cases o
  case streamEngine => exact h
  all_goals exact .congr (by simp [adopt]) h

/-! ## Every command -/

theorem takeEntry_linksFit {k : EntryKind} {act : Flight → State → State}
    (h : LinksFit s.stream) (ha : ∀ f, LinksFit (act f s).stream) :
    LinksFit (takeEntry k act s).stream := by
  unfold takeEntry; split
  · exact ha _
  · exact h

theorem withDisplayIndex_linksFit (f : Flight) {act : DisplayIx → State → State}
    (h : LinksFit s.stream) (ha : ∀ d, LinksFit (act d s).stream) :
    LinksFit (withDisplayIndex f act s).stream := by
  unfold withDisplayIndex; split
  · exact .congr (by simp) h
  · exact ha _

/-- No command takes a panel link beyond its capacity. -/
theorem exec_linksFit (c : Instr) (h : LinksFit s.stream) :
    Answers (LinksFit ·.stream) (exec c s) := by
  by_cases hp : Part.stream ∈ mayChange c
  · cases c <;> simp only [mayChange, List.mem_cons, List.not_mem_nil, reduceCtorEq, or_self] at hp
    case powerOnReset =>
      exact answers_next.mpr fun d => by simp [State.reset, controlCapacity]
    case lobbyReset w => exact answers_answer.mpr writeControl_linksFit
    case settingsEvent o =>
      refine answers_next.mpr ?_
      split
      · rename_i x rest _
        have adopted := adopt_linksFit
          (s := { s with win := { s.win with settingsQ := rest } }) o x.2 h
        exact .congr (by simp) adopted
      · exact h
    case tick =>
      refine answers_next.mpr ?_
      dsimp only
      split
      all_goals exact .congr (t := _) (s := tickTimers (riseClock s)) (by simp) h
    case pacingMillisecond => exact answers_next.mpr h
    case panelTxDone d =>
      exact answers_next.mpr (withLink_linksFit h ((PanelLink.kick_control _).trans (h d)))
    case linkUp d =>
      have kicked : LinksFit (withLink d PanelLink.kick
          (withDisplay d (fun r => { r with linkUp := true }) s)).stream :=
        withLink_linksFit h ((PanelLink.kick_control _).trans (h d))
      refine answers_next.mpr ?_
      dsimp only
      split <;> simp [kicked]
    case linkDown d =>
      have dropped : LinksFit (withLink d PanelLink.drop
          (withDisplay d (fun r => { r with linkUp := false }) s)).stream :=
        withLink_linksFit h (Nat.zero_le _)
      refine answers_next.mpr ?_
      dsimp only
      split <;> simp [dropped]
    case displayDisable =>
      exact answers_next.mpr (takeEntry_linksFit h fun f =>
        withDisplayIndex_linksFit f h fun d => by simp [h])
    case drainRequest =>
      refine answers_next.mpr ?_
      split
      · dsimp only
        simp only [settleDisplays_keeps]
        exact foldl_linksFit (fun _ d h => markEnd_linksFit d h) _ h
      · exact h
    case burstDone =>
      refine answers_answer.mpr fun _ => ?_
      split
      · dsimp only
        repeat' split
        all_goals simp [h]
      · exact h
    case showChangedReport =>
      refine answers_next.mpr ?_
      split
      · exact h
      · exact updateRows_linksFit _ h
    case fetchGrant =>
      refine answers_next.mpr ?_
      repeat' split
      all_goals first
        | exact h
        | exact issueBurst_linksFit _ _ _ h
    all_goals
      refine answers_next.mpr ?_
      repeat' split
      all_goals try dsimp only
      repeat' split
      all_goals simp [h]
  · intro t ht
    exact .congr (show s.stream = t.stream from commandsKeepToTheirParts c s t .stream ht hp).symm h

end

end Sys2Proof.Machine

/-! SUPPORT. The Notice Arbiter through every command: an on-air stack keeps to its capacity (R95). It grows
only by a push, and a push asks for room. -/

namespace Sys2Proof.Machine

/-- Each on-air stack holds at most its capacity (R95). -/
def StacksFit (a : Arbiter) : Prop :=
  ∀ d : DisplayIx, a.recs[d].stack.length ≤ stackCapacity

section
variable {s : State}

theorem StacksFit.congr {t : State} (e : t.arb = s.arb) (h : StacksFit s.arb) :
    StacksFit t.arb := e ▸ h

theorem foldl_stacksFit {α : Type} {g : State → α → State}
    (hg : ∀ s a, StacksFit s.arb → StacksFit (g s a).arb) (l : List α)
    (h : StacksFit s.arb) : StacksFit (l.foldl g s).arb := by
  induction l generalizing s with
  | nil => exact h
  | cons a l ih => exact ih (hg s a h)

/-! ## One record -/

theorem withArb_stacksFit {d : DisplayIx} {f : ArbRec → ArbRec} (h : StacksFit s.arb)
    (hf : (f s.arb.recs[d]).stack.length ≤ stackCapacity) : StacksFit (withArb d f s).arb := by
  intro j
  rw [withArb_recs, put_get]
  split
  · exact hf
  · exact h j

@[simp] theorem setNotice_stacksFit (i : NoticeIx) (n : Notice) (h : StacksFit s.arb) :
    StacksFit (setNotice i n s).arb := h

@[simp] theorem setNoticeState_stacksFit (st : DisplayState) (d : DisplayIx) (h : StacksFit s.arb) :
    StacksFit (setNoticeState st d s).arb := withArb_stacksFit h (h d)

@[simp] theorem enterPending_stacksFit (i : NoticeIx) (d : DisplayIx) (h : StacksFit s.arb) :
    StacksFit (enterPending i d s).arb := by
  refine withArb_stacksFit h ?_
  split
  · exact h d
  · exact h d

@[simp] theorem removeAt_stacksFit (i : NoticeIx) (d : DisplayIx) (h : StacksFit s.arb) :
    StacksFit (removeAt i d s).arb := by
  have fewer : (s.arb.recs[d].stack.filter (· != i)).length ≤ stackCapacity :=
    (List.length_filter_le _ _).trans (h d)
  simp only [removeAt]
  split
  · simp only [reportStrip_keeps]
    exact withArb_stacksFit h fewer
  · exact withArb_stacksFit h fewer

@[simp] theorem removeEverywhere_stacksFit (i : NoticeIx) (h : StacksFit s.arb) :
    StacksFit (removeEverywhere i s).arb :=
  foldl_stacksFit (fun _ d h => removeAt_stacksFit i d h) _ h

@[simp] theorem withdrawPending_stacksFit (i : NoticeIx) (h : StacksFit s.arb) :
    StacksFit (withdrawPending i s).arb := fun d => by
  simpa [withdrawPending] using h d

@[simp] theorem pushNotice_stacksFit {i : NoticeIx} {d : DisplayIx} (hp : mayPush s d i = true)
    (h : StacksFit s.arb) : StacksFit (pushNotice i d s).arb := by
  have room : s.arb.recs[d].stack.length < stackCapacity := by
    simp only [mayPush, Bool.and_eq_true, decide_eq_true_eq] at hp
    exact hp.1.2
  simp only [pushNotice, reportStrip_keeps]
  split
  · exact setNotice_stacksFit _ _ (withArb_stacksFit h room)
  · exact withArb_stacksFit h room

@[simp] theorem compareTakeover_stacksFit (d : DisplayIx) (h : StacksFit s.arb) :
    StacksFit (compareTakeover d s).arb := by
  simp only [compareTakeover]
  repeat' split
  · simpa using withArb_stacksFit h (h d)
  · simpa using withArb_stacksFit h (h d)
  · exact h

/-! ## Notices -/

@[simp] theorem concludeEnding_stacksFit (r : NoticeEnd) (i : NoticeIx) (h : StacksFit s.arb) :
    StacksFit (concludeEnding r i s).arb := by
  simp only [concludeEnding]
  repeat' split
  all_goals first
    | exact h
    | exact fun d => by simpa using h d

@[simp] theorem evaluate_stacksFit (fuel : Nat) (ds : List DisplayIx) (h : StacksFit s.arb) :
    StacksFit (evaluate fuel ds s).arb := by
  induction fuel generalizing ds s with
  | zero => exact h
  | succ fuel ih =>
    cases ds with
    | nil => exact h
    | cons d rest =>
      unfold evaluate
      repeat' split
      · exact ih rest h
      · exact ih rest h
      · exact ih rest h
      · exact ih _ (concludeEnding_stacksFit _ _ (ih _ (removeEverywhere_stacksFit _ h)))
      · rename_i hp _
        exact ih _ (pushNotice_stacksFit (by simpa using hp) h)

@[simp] theorem evaluateAll_stacksFit (ds : List DisplayIx) (h : StacksFit s.arb) :
    StacksFit (evaluateAll ds s).arb := evaluate_stacksFit 4000 ds h

@[simp] theorem endNotice_stacksFit (r : NoticeEnd) (i : NoticeIx) (h : StacksFit s.arb) :
    StacksFit (endNotice r i s).arb := by
  unfold endNotice; split
  · exact h
  · exact concludeEnding_stacksFit _ _ (evaluateAll_stacksFit _ (removeEverywhere_stacksFit _ h))

@[simp] theorem endNotices_stacksFit (r : NoticeEnd) (is : List NoticeIx) (h : StacksFit s.arb) :
    StacksFit (endNotices r is s).arb :=
  foldl_stacksFit (fun _ _ h => concludeEnding_stacksFit _ _
      (evaluateAll_stacksFit _ (removeEverywhere_stacksFit _ h))) is
    (foldl_stacksFit (fun _ _ h => withdrawPending_stacksFit _ h) _ h)

@[simp] theorem placeNotice_stacksFit (i : NoticeIx) (h : StacksFit s.arb) :
    StacksFit (placeNotice i s).arb := by
  unfold placeNotice
  repeat' split
  · exact h
  · exact setNotice_stacksFit _ _ h
  · exact evaluateAll_stacksFit _ (enterPending_stacksFit _ _ (setNotice_stacksFit _ _ h))

@[simp] theorem placeNotices_stacksFit (is : List NoticeIx) (h : StacksFit s.arb) :
    StacksFit (placeNotices is s).arb := foldl_stacksFit (fun _ _ => placeNotice_stacksFit _) is h

@[simp] theorem createNotice_stacksFit (p : Post) (i : NoticeIx) (h : StacksFit s.arb) :
    StacksFit (createNotice p i s).arb := by
  simp only [createNotice]
  split
  · exact evaluateAll_stacksFit _ (foldl_stacksFit (fun _ _ => enterPending_stacksFit _ _) _ h)
  · exact placeNotice_stacksFit _ h

@[simp] theorem collapseAt_stacksFit (i : NoticeIx) (d : DisplayIx) (h : StacksFit s.arb) :
    StacksFit (collapseAt i s d).arb := by
  have again := evaluateAll_stacksFit [d] h
  simp only [collapseAt]
  repeat' split
  · exact again
  · simpa using again
  · exact again
  · exact evaluateAll_stacksFit _ (enterPending_stacksFit _ _ (removeAt_stacksFit _ _ h))

@[simp] theorem collapseNotice_stacksFit (p : Post) (i : NoticeIx) (h : StacksFit s.arb) :
    StacksFit (collapseNotice p i s).arb := by
  unfold collapseNotice
  split
  · exact h
  · refine foldl_stacksFit (fun t d ht => ?_) _ (setNotice_stacksFit _ _ h)
    unfold collapseWhereHeld
    split
    · exact collapseAt_stacksFit i d ht
    · exact ht

theorem noticeEvent_stacksFit (extra : Option NoticeIx) {act : State → State}
    (h : StacksFit (act s).arb) : StacksFit (noticeEvent extra act s).arb := by
  simp only [noticeEvent, settleDisplays_keeps, settleNotices_keeps]
  exact foldl_stacksFit (fun _ d => compareTakeover_stacksFit d) _ h

@[simp] theorem applyPost_stacksFit (p : Post) (h : StacksFit s.arb) :
    StacksFit (applyPost p s).arb := by
  unfold applyPost
  split
  · exact noticeEvent_stacksFit _ (collapseNotice_stacksFit p _ h)
  · exact noticeEvent_stacksFit _ (createNotice_stacksFit p _ h)
  all_goals exact h

@[simp] theorem takePost_stacksFit (f : Flight) (h : StacksFit s.arb) :
    StacksFit (takePost f s).arb := by
  simp only [takePost, finishPost]
  repeat' split
  all_goals simp [h]

@[simp] theorem takeDeskPost_stacksFit (e : IntakeEntry) (h : StacksFit s.arb) :
    StacksFit (takeDeskPost e s).arb := by
  simp only [takeDeskPost]
  split <;> simp [h]

@[simp] theorem takeClear_stacksFit (ref : Nat) (h : StacksFit s.arb) :
    StacksFit (takeClear ref s).arb := by
  unfold takeClear
  split
  · simp [h]
  · simp only [finish_keeps]
    exact noticeEvent_stacksFit none (endNotice_stacksFit .cleared _ h)

@[simp] theorem takeDeskClear_stacksFit (e : IntakeEntry) (h : StacksFit s.arb) :
    StacksFit (takeDeskClear e s).arb := by
  simp only [takeDeskClear]
  repeat' split
  · simp [h]
  · simp [h]
  · exact noticeEvent_stacksFit _ (endNotice_stacksFit _ _ (.congr (by simp) h))

@[simp] theorem displayEnabled_stacksFit (d : DisplayIx) (tag : Byte) (h : StacksFit s.arb) :
    StacksFit (displayEnabled d tag s).arb := by
  have tagged := setNoticeState_stacksFit .starting d h
  exact foldl_stacksFit (fun _ _ => enterPending_stacksFit _ _) _ (withArb_stacksFit tagged (tagged d))

@[simp] theorem displayUp_stacksFit (d : DisplayIx) (h : StacksFit s.arb) :
    StacksFit (displayUp d s).arb :=
  placeNotices_stacksFit _ (evaluateAll_stacksFit _ (setNoticeState_stacksFit _ _ h))

@[simp] theorem leaveDisplay_stacksFit (st : DisplayState) (kept : List NoticeIx) (d : DisplayIx)
    (h : StacksFit s.arb) : StacksFit (leaveDisplay st kept d s).arb :=
  placeNotices_stacksFit _ (withArb_stacksFit h (Nat.zero_le _))

/-! ## Resets, settings, the tick -/

theorem resetArbiter_fit (a : Arbiter) : StacksFit (resetArbiter a) := fun d => by
  simp [resetArbiter]

@[simp] theorem lobbyReset_stacksFit (s : State) : StacksFit (lobbyReset s).arb := by
  obtain ⟨q, v, links, he, -⟩ := lobbyReset_only s
  rw [he]
  exact resetArbiter_fit s.arb

theorem writeControl_stacksFit {w : BitVec 32} (hw : controlLobbyReset w = true) :
    StacksFit (writeControl w s).arb :=
  writeControl_reset hw ▸ lobbyReset_stacksFit _

@[simp] theorem adopt_stacksFit (o : Owner) (c : Settings) (h : StacksFit s.arb) :
    StacksFit (adopt o c s).arb := by
  cases o
  case noticeArbiter =>
    exact noticeEvent_stacksFit none (act := fun s => { s with arb := { s.arb with cfg := c.notices } })
      (fun d => h d)
  all_goals exact .congr (by simp [adopt]) h

theorem tickCover_stack (now minCover : Nat) (a : ArbRec) :
    (tickCover now minCover a).stack = a.stack := by
  unfold tickCover; split <;> rfl

theorem tickTimers_stacksFit (h : StacksFit s.arb) : StacksFit (tickTimers s).arb := by
  intro d
  have same : (tickTimers s).arb.recs[d].stack = s.arb.recs[d].stack := by
    simp only [tickTimers, Fin.getElem_fin, Vector.getElem_map, tickCover_stack]
  exact same ▸ h d

/-! ## Every command -/

theorem takeEntry_stacksFit {k : EntryKind} {act : Flight → State → State}
    (h : StacksFit s.arb) (ha : ∀ f, StacksFit (act f s).arb) :
    StacksFit (takeEntry k act s).arb := by
  unfold takeEntry; split
  · exact ha _
  · exact h

theorem takeRequest_stacksFit {k : DeskKind} {act : IntakeEntry → State → State}
    (h : StacksFit s.arb) (ha : ∀ e {t : State}, StacksFit t.arb → StacksFit (act e t).arb) :
    StacksFit (takeRequest k act s).arb := by
  unfold takeRequest; split
  · exact ha _ h
  · exact h

/-- No command takes an on-air stack beyond its capacity. -/
theorem exec_stacksFit (c : Instr) (h : StacksFit s.arb) : Answers (StacksFit ·.arb) (exec c s) := by
  by_cases hp : Part.arb ∈ mayChange c
  · cases c <;> simp only [mayChange, List.mem_cons, List.not_mem_nil, reduceCtorEq, or_self] at hp
    case powerOnReset =>
      exact answers_next.mpr fun d => by simp [State.reset, stackCapacity]
    case lobbyReset w => exact answers_answer.mpr writeControl_stacksFit
    case settingsEvent o =>
      refine answers_next.mpr ?_
      split
      · rename_i x rest _
        have adopted := adopt_stacksFit
          (s := { s with win := { s.win with settingsQ := rest } }) o x.2 h
        exact .congr (by simp) adopted
      · exact h
    case tick =>
      refine answers_next.mpr ?_
      dsimp only
      split
      all_goals exact .congr (s := tickTimers (riseClock s)) (by simp) (tickTimers_stacksFit h)
    case noticePost => exact answers_next.mpr (takeEntry_stacksFit h fun f => takePost_stacksFit f h)
    case noticeClear => exact answers_next.mpr (takeEntry_stacksFit h fun f => takeClear_stacksFit _ h)
    case deskNoticePost =>
      exact answers_next.mpr (takeRequest_stacksFit h fun e _ => takeDeskPost_stacksFit e)
    case deskNoticeClear =>
      exact answers_next.mpr (takeRequest_stacksFit h fun e _ => takeDeskClear_stacksFit e)
    case clearRequest =>
      refine answers_next.mpr ?_
      dsimp only
      repeat' split
      · exact noticeEvent_stacksFit _ (endNotice_stacksFit _ _ h)
      all_goals exact h
    case closureReport =>
      refine answers_next.mpr ?_
      split
      · exact noticeEvent_stacksFit _ (endNotices_stacksFit _ _ h)
      · exact h
    case noticeExpiry =>
      refine answers_next.mpr ?_
      split
      · exact noticeEvent_stacksFit _ (endNotice_stacksFit _ _ h)
      · exact h
    case autoNoticeRequest =>
      refine answers_next.mpr ?_
      split
      · exact applyPost_stacksFit _ h
      · exact h
    case floorReport =>
      refine answers_next.mpr ?_
      split
      · exact noticeEvent_stacksFit _ (evaluateAll_stacksFit _ (withArb_stacksFit h (h _)))
      · exact h
    case coverTimerExpiry d =>
      refine answers_next.mpr ?_
      split
      · exact noticeEvent_stacksFit _ (evaluateAll_stacksFit _ (withArb_stacksFit h (h d)))
      · exact h
    all_goals
      refine answers_next.mpr ?_
      split
      · exact noticeEvent_stacksFit _ (by simp [displayLost, h])
      · exact h
  · intro t ht
    exact .congr (show s.arb = t.arb from commandsKeepToTheirParts c s t .arb ht hp).symm h

end

/-- Settles O5: of the four capacities each is kept by every command, since what adds to a queue or a
stack asks for its room. -/
theorem stepsKeepCapacities : Obligations.StepsKeepCapacities := by
  intro s t hs ht
  refine step_keeps (fun _ _ h => ⟨h.intake, h.replies, h.control, h.onAir⟩) (fun c s h t ht => ?_) hs ht
  obtain ⟨intake, replies⟩ := exec_desksFit c ⟨h.intake, h.replies⟩ t ht
  exact ⟨intake, replies, exec_linksFit c h.control t ht, exec_stacksFit c h.onAir t ht⟩

end Sys2Proof.Machine

/-! SUPPORT. The Show Table through every command: tallies follow from their counts, an EMPTY slot is empty
throughout, and every hold in use is listed and names a live show. An event works on one show at a time, so
that the table is sound apart from that show until the event's recount or closing. -/

namespace Sys2Proof.Machine

/-! ## One record -/

/-- A saved state is one that a show can resume (R11). -/
def SavedSound (sh : ShowRec) : Prop :=
  ∀ st, sh.savedState = some st → st = .selling ∨ st = .seating ∨ st = .running

/-- What the table's soundness asks of one record. -/
structure RecSound (c : ShowSettings) (sh : ShowRec) : Prop where
  tally : TallyFollows c sh
  empty : sh.state = .empty → sh = {}
  saved : SavedSound sh

theorem tallyFollows_empty (c : ShowSettings) : TallyFollows c {} :=
  ⟨rfl, rfl, rfl, by simp [boardFigure]⟩

theorem recSound_empty (c : ShowSettings) : RecSound c {} :=
  ⟨tallyFollows_empty c, fun _ => rfl, fun _ h => nomatch h⟩

theorem recounted_follows (c : ShowSettings) (before sh : ShowRec) :
    TallyFollows c (recounted c before sh) := ⟨rfl, rfl, rfl, rfl⟩

/-- A closing leaves a sound record of a slot in use. -/
theorem closed_sound {c : ShowSettings} {prev : Band} {sh : ShowRec} {held : Nat}
    (hs : sh.state ≠ .empty) (h : SavedSound sh) :
    RecSound c { tally c.bandSets[sh.bandSet] prev { sh with held := held } with
      soldoutAsked := false } :=
  ⟨⟨rfl, rfl, rfl, rfl⟩, fun he => absurd he hs, h⟩

/-! ## The table apart from one show -/

section
variable {s t : State}

/-- The table is sound apart from show `i`: its record and the holds that name it may be at odds. -/
structure SoundApart (i : ShowIx) (x : ShowTable) : Prop where
  others : ∀ j : ShowIx, j ≠ i → RecSound x.cfg x.recs[j]
  listed : ∀ (k : HoldIx) (h : HoldRec), x.holds[k].hold = some h → k ∈ x.holdList
  named : ∀ (k : HoldIx) (h : HoldRec), x.holds[k].hold = some h → h.showIx ≠ i →
    x.recs[h.showIx].state.isLive = true

/-- The holds that name show `i` name a live show. -/
def HoldsLive (i : ShowIx) (x : ShowTable) : Prop :=
  ∀ (k : HoldIx) (h : HoldRec), x.holds[k].hold = some h → h.showIx = i →
    x.recs[i].state.isLive = true

theorem ShowsSound.congr (e : t.shows = s.shows) (h : ShowsSound s) : ShowsSound t := by
  obtain ⟨tallies, empty, saved, holds⟩ := h
  constructor <;> rw [e] <;> assumption

theorem ShowsSound.of_records (hr : ∀ i : ShowIx, RecSound s.shows.cfg s.shows.recs[i])
    (hh : ∀ (k : HoldIx) (h : HoldRec), s.shows.holds[k].hold = some h →
      k ∈ s.shows.holdList ∧ s.shows.recs[h.showIx].state.isLive = true) : ShowsSound s :=
  ⟨fun i => (hr i).tally, fun i => (hr i).empty, fun i => (hr i).saved, hh⟩

theorem ShowsSound.of (h : ShowsSound s) (e : t.shows = s.shows) : ShowsSound t := .congr e h

theorem ShowsSound.recSound (h : ShowsSound s) (i : ShowIx) : RecSound s.shows.cfg s.shows.recs[i] :=
  ⟨h.tallies i, h.empty i, h.saved i⟩

theorem ShowsSound.apart (h : ShowsSound s) (i : ShowIx) : SoundApart i s.shows :=
  ⟨fun j _ => h.recSound j, fun k x hk => (h.holds k x hk).1, fun k x hk _ => (h.holds k x hk).2⟩

theorem ShowsSound.live (h : ShowsSound s) (i : ShowIx) : HoldsLive i s.shows :=
  fun k x hk hi => hi ▸ (h.holds k x hk).2

theorem SoundApart.sound {i : ShowIx} (h : SoundApart i s.shows)
    (hi : RecSound s.shows.cfg s.shows.recs[i]) (hl : HoldsLive i s.shows) : ShowsSound s := by
  have all : ∀ j : ShowIx, RecSound s.shows.cfg s.shows.recs[j] := fun j => by
    by_cases hj : j = i
    · exact hj ▸ hi
    · exact h.others j hj
  refine ⟨fun j => (all j).tally, fun j => (all j).empty, fun j => (all j).saved, fun k x hk => ?_⟩
  refine ⟨h.listed k x hk, ?_⟩
  by_cases hx : x.showIx = i
  · exact hx ▸ hl k x hk hx
  · exact h.named k x hk hx

theorem SoundApart.replaced {i : ShowIx} {x : ShowTable} (h : SoundApart i x) (r : ShowRec) :
    SoundApart i { x with recs := put x.recs i r } := by
  refine ⟨fun j hj => ?_, h.listed, fun k y hk hy => ?_⟩
  · rw [put_other _ _ _ _ hj]
    exact h.others j hj
  · rw [put_other _ _ _ _ hy]
    exact h.named k y hk hy

theorem HoldsLive.replaced {i : ShowIx} {x : ShowTable} (h : HoldsLive i x) {r : ShowRec}
    (hr : x.recs[i].state.isLive = true → r.state.isLive = true) :
    HoldsLive i { x with recs := put x.recs i r } := fun k y hk hy => by
  rw [put_same]
  exact hr (h k y hk hy)

/-- The record of show `i` replaced by a sound one, live where a hold names it. -/
theorem SoundApart.sound_put {i : ShowIx} {r : ShowRec} (h : SoundApart i s.shows)
    (he : t.shows = { s.shows with recs := put s.shows.recs i r }) (hr : RecSound s.shows.cfg r)
    (hl : ∀ (k : HoldIx) (x : HoldRec), s.shows.holds[k].hold = some x → x.showIx = i →
      r.state.isLive = true) : ShowsSound t := by
  refine SoundApart.sound (i := i) (he ▸ h.replaced r) ?_ fun k x hk hx => ?_
  · rw [he, put_same]
    exact hr
  · rw [he] at hk ⊢
    rw [put_same]
    exact hl k x hk hx

/-- The record of a slot in use, its tally aside. -/
structure InUse (sh : ShowRec) : Prop where
  state : sh.state ≠ .empty
  saved : SavedSound sh

/-- In an event of show `i`, a slot in use, the table is sound but for that show's tally. -/
structure AtEvent (i : ShowIx) (x : ShowTable) : Prop where
  apart : SoundApart i x
  live : HoldsLive i x
  inUse : InUse x.recs[i]

theorem InUse.sound {c : ShowSettings} {sh : ShowRec} (h : InUse sh) (ht : TallyFollows c sh) :
    RecSound c sh := ⟨ht, fun he => absurd he h.state, h.saved⟩

theorem ShowsSound.atEvent {i : ShowIx} (h : ShowsSound s) (hs : s.shows.recs[i].state ≠ .empty) :
    AtEvent i s.shows := ⟨h.apart i, h.live i, hs, h.saved i⟩

theorem AtEvent.congr {i : ShowIx} (e : t.shows = s.shows) (h : AtEvent i s.shows) :
    AtEvent i t.shows := e ▸ h

theorem AtEvent.sound {i : ShowIx} (h : AtEvent i s.shows)
    (ht : TallyFollows s.shows.cfg s.shows.recs[i]) : ShowsSound s :=
  h.apart.sound (h.inUse.sound ht) h.live

/-- The event writes its show's record, which stays in use and as live as it was. -/
theorem AtEvent.replaced {i : ShowIx} {x : ShowTable} {r : ShowRec} (h : AtEvent i x) (hr : InUse r)
    (hl : x.recs[i].state.isLive = true → r.state.isLive = true) :
    AtEvent i { x with recs := put x.recs i r } :=
  ⟨h.apart.replaced r, h.live.replaced hl, by rw [put_same]; exact hr⟩

/-! ## Recounts and closings -/

/-- The recount at an event's end makes the table sound. -/
theorem AtEvent.recompute {i : ShowIx} {before : ShowRec} {capture : List Byte}
    (h : AtEvent i s.shows) : ShowsSound (Machine.recompute i before capture s) :=
  h.apart.sound_put (recompute_effect i before capture s).1
    (InUse.sound ⟨h.inUse.state, h.inUse.saved⟩ (recounted_follows _ before _)) h.live

/-- A closing leaves of the holds those of other shows. -/
theorem closeShow_holds {i : ShowIx} {prev : Band} {r : NoticeEnd} (h : SoundApart i s.shows)
    {k : HoldIx} {x : HoldRec} (hk : (closeShow i prev r s).shows.holds[k].hold = some x) :
    s.shows.holds[k].hold = some x ∧ x.showIx ≠ i := by
  obtain ⟨-, ⟨holds, -⟩, -⟩ := closeShow_effect i prev r s
  rw [holds k] at hk
  split at hk
  case isTrue => cases hk
  case isFalse hf =>
    exact ⟨hk, fun e => hf (by simp [-Fin.getElem_fin, holdsFor, hk, e, h.listed k x hk])⟩

/-- A closing makes the table sound, whatever the state it closes to. -/
theorem SoundApart.closeShow {i : ShowIx} {prev : Band} {r : NoticeEnd} (h : SoundApart i s.shows)
    (hs : InUse s.shows.recs[i]) : ShowsSound (Machine.closeShow i prev r s) := by
  obtain ⟨others, ⟨-, list⟩, record, cfg, -⟩ := closeShow_effect i prev r s
  have kept : ∀ (k : HoldIx) (x : HoldRec),
      (Machine.closeShow i prev r s).shows.holds[k].hold = some x →
        s.shows.holds[k].hold = some x ∧ x.showIx ≠ i := fun _ _ => closeShow_holds h
  refine SoundApart.sound (i := i) ⟨fun j hj => ?_, fun k x hk => ?_, fun k x hk hx => ?_⟩ ?_
    fun k x hk hx => absurd hx (kept k x hk).2
  · rw [others j hj, cfg]
    exact h.others j hj
  · obtain ⟨hold, other⟩ := kept k x hk
    rw [list, List.mem_filter]
    exact ⟨h.listed k x hold, by simp [-Fin.getElem_fin, holdsFor, hold, other]⟩
  · rw [others _ hx]
    exact h.named k x (kept k x hk).1 hx
  · rw [record, cfg]
    exact closed_sound hs.state hs.saved

/-- A closing's count leaves the state alone. -/
theorem closed_state (bs : BandSet) (prev : Band) (sh : ShowRec) (held : Nat) :
    { tally bs prev { sh with held := held } with soldoutAsked := false }.state = sh.state := rfl

theorem closeShow_state (i : ShowIx) (prev : Band) (r : NoticeEnd) (s : State) :
    (closeShow i prev r s).shows.recs[i].state = s.shows.recs[i].state := by
  obtain ⟨-, -, record, -⟩ := closeShow_effect i prev r s
  rw [record]
  exact closed_state _ _ _ _

theorem SoundApart.closeShow_atEvent {i : ShowIx} {prev : Band} {r : NoticeEnd}
    (h : SoundApart i s.shows) (hs : InUse s.shows.recs[i]) :
    AtEvent i (Machine.closeShow i prev r s).shows :=
  (h.closeShow hs).atEvent (closeShow_state i prev r s ▸ hs.state)

/-! ## Combinators -/

theorem setShow_sound {i : ShowIx} {r : ShowRec} (h : ShowsSound s) (hr : RecSound s.shows.cfg r)
    (hl : s.shows.recs[i].state.isLive = true → r.state.isLive = true) :
    ShowsSound (setShow i r s) :=
  (h.apart i).sound_put rfl hr fun k x hk hx => hl (h.live i k x hk hx)

theorem foldl_sound {α : Type} {g : State → α → State}
    (hg : ∀ s a, ShowsSound s → ShowsSound (g s a)) (l : List α) (h : ShowsSound s) :
    ShowsSound (l.foldl g s) := by
  induction l generalizing s with
  | nil => exact h
  | cons a l ih => exact ih (hg s a h)

theorem takeEntry_sound {k : EntryKind} {act : Flight → State → State}
    (h : ShowsSound s) (ha : ∀ f, ShowsSound (act f s)) : ShowsSound (takeEntry k act s) := by
  unfold takeEntry; split
  · exact ha _
  · exact h

theorem takeRequest_sound {k : DeskKind} {act : IntakeEntry → State → State}
    (h : ShowsSound s) (ha : ∀ e {t : State}, ShowsSound t → ShowsSound (act e t)) :
    ShowsSound (takeRequest k act s) := by
  unfold takeRequest; split
  · exact ha _ (ShowsSound.congr (s := s) rfl h)
  · exact h

theorem withShow_sound (f : Flight) {act : ShowIx → State → State}
    (h : ShowsSound s) (ha : ∀ i, ShowsSound (act i s)) : ShowsSound (withShow f act s) := by
  unfold withShow; split
  · exact .congr (by simp) h
  · exact ha _

/-! ## Clock-driven transitions -/

theorem nextState_cases (st : ShowState) :
    nextState st = .selling ∨ nextState st = .seating ∨ nextState st = .running ∨
      nextState st = .closed := by
  cases st <;> simp [nextState]

/-- The record of a show whose state, or whose saved state while HALTED, moves to `st` (R6, R11, R16). -/
def movedTo (st : ShowState) (sh : ShowRec) : ShowRec :=
  if sh.state = .halted then { sh with savedState := some st } else { sh with state := st }

theorem ite_halted_eq_movedTo (st : ShowState) (sh : ShowRec) :
    (if sh.state = .halted then { sh with savedState := some st } else { sh with state := st }) =
      movedTo st sh := rfl

/-- A state that a transition or an amend moves a show to: one that a show can resume, or WAITING where
the show is not HALTED. -/
def MovesTo (st : ShowState) (sh : ShowRec) : Prop :=
  st = .waiting ∧ sh.state ≠ .halted ∨ st = .selling ∨ st = .seating ∨ st = .running

theorem movedTo_inUse {st : ShowState} {sh : ShowRec} (h : InUse sh) (hst : MovesTo st sh) :
    InUse (movedTo st sh) := by
  unfold movedTo
  unfold MovesTo at hst
  split
  case isTrue hh =>
    refine ⟨h.state, fun x hx => ?_⟩
    obtain rfl : st = x := Option.some.inj hx
    simpa [hh] using hst
  case isFalse =>
    refine ⟨fun he => ?_, h.saved⟩
    have : st = .empty := he
    simp [this] at hst

theorem movedTo_live {st : ShowState} {sh : ShowRec} (hst : MovesTo st sh)
    (h : sh.state.isLive = true) : (movedTo st sh).state.isLive = true := by
  unfold movedTo
  split
  · exact h
  · rcases hst with ⟨rfl, -⟩ | rfl | rfl | rfl <;> rfl

theorem movedTo_follows {c : ShowSettings} {st : ShowState} {sh : ShowRec} (h : TallyFollows c sh) :
    TallyFollows c (movedTo st sh) := by
  unfold movedTo
  split <;> exact h

/-- A transition that is still the show's next is that of a slot in use. -/
theorem isCurrent_inUse {sh : ShowRec} {e : DueEntry} (h : isCurrent sh e = true) :
    sh.state ≠ .empty := by
  intro he
  simp only [isCurrent, Bool.and_eq_true, beq_iff_eq] at h
  obtain ⟨hstate, hdue⟩ := h
  simp [← hstate, clockState, he, dueTime] at hdue

theorem perform_sound {e : DueEntry} {time : Nat} (h : ShowsSound s)
    (hc : isCurrent s.shows.recs[e.showIx] e = true) : ShowsSound (perform e time s).1 := by
  have event := h.atEvent (isCurrent_inUse hc)
  simp only [perform, ite_halted_eq_movedTo]
  split
  case h_1 =>
    refine SoundApart.closeShow (event.apart.replaced _) ?_
    rw [setShow_recs, put_same]
    exact ⟨nofun, nofun⟩
  case h_2 _ hst =>
    have moves : MovesTo (nextState e.fromState) s.shows.recs[e.showIx] := by
      rcases nextState_cases e.fromState with hn | hn | hn | hn
      · exact .inr (.inl hn)
      · exact .inr (.inr (.inl hn))
      · exact .inr (.inr (.inr hn))
      · exact absurd hn hst
    have moved : ShowsSound
        (setShow e.showIx (movedTo (nextState e.fromState) s.shows.recs[e.showIx]) s) :=
      setShow_sound h ((movedTo_inUse event.inUse moves).sound (movedTo_follows (h.tallies _)))
        (movedTo_live moves)
    repeat' split
    all_goals exact .congr (by simp) moved

end

end Sys2Proof.Machine

/-! SUPPORT. The Show Table through every command, continued: the events that keep it sound. -/

namespace Sys2Proof.Machine

section
variable {s t : State}

/-! ## Catch-ups and placements -/

theorem catchUpLoop_sound (fuel time : Nat) (q : List DueEntry) (n : Nat) (h : ShowsSound s) :
    ShowsSound (catchUpLoop fuel time q n s).1 := by
  induction fuel generalizing q n s with
  | zero => exact h
  | succ fuel ih =>
    unfold catchUpLoop
    repeat' split
    · exact h
    case isTrue hc => exact ih _ _ (perform_sound h hc)
    case isFalse => exact ih _ _ h

theorem catchUp_sound (time : Nat) (entries : List DueEntry) (h : ShowsSound s) :
    ShowsSound (catchUp time entries s).1 :=
  .congr (by simp [catchUp]) (catchUpLoop_sound (5 * entries.length) time entries 0 h)

theorem placedState_cases (sh : ShowRec) (now : Nat) :
    placedState sh now = .waiting ∨ placedState sh now = .selling ∨ placedState sh now = .seating ∨
      placedState sh now = .running ∨ placedState sh now = .closed := by
  unfold placedState
  repeat' split
  all_goals simp

theorem placedState_ne_empty (sh : ShowRec) (now : Nat) : placedState sh now ≠ .empty := by
  rcases placedState_cases sh now with h | h | h | h | h <;> simp [h]

theorem placedState_live {sh : ShowRec} {now : Nat} (h : placedState sh now ≠ .closed) :
    (placedState sh now).isLive = true := by
  rcases placedState_cases sh now with e | e | e | e | e
  case inr.inr.inr.inr => exact absurd e h
  all_goals rw [e]; rfl

theorem placeShow_sound (now : Nat) (i : ShowIx) (h : ShowsSound s) :
    ShowsSound (placeShow now i s) := by
  have placed : InUse { s.shows.recs[i] with
      clockWait := false, state := placedState s.shows.recs[i] now } :=
    ⟨placedState_ne_empty _ _, h.saved i⟩
  simp only [placeShow]
  split
  · split
    case isTrue =>
      refine SoundApart.closeShow ((h.apart i).replaced _) ?_
      rw [setShow_recs, put_same]
      exact placed
    case isFalse hopen =>
      exact .congr (by simp)
        (setShow_sound (i := i) h (placed.sound (h.tallies i)) fun _ => placedState_live hopen)
  · exact h

theorem placeAll_sound (now : Nat) (h : ShowsSound s) : ShowsSound (placeAll now s).1 :=
  .congr (by simp [placeAll]) (foldl_sound (fun _ i => placeShow_sound now i) (List.finRange 64) h)

theorem finishClockSet_sound (time : Nat) (first : Bool) (entries : List DueEntry)
    (h : ShowsSound s) : ShowsSound (finishClockSet time first entries s) := by
  simp only [finishClockSet]
  split
  · exact .congr (by simp) (placeAll_sound time h)
  · exact .congr (by simp) (catchUp_sound time entries h)

/-! ## Journal kinds on one show -/

theorem loadShow_sound (b : ShowBody) (i : ShowIx) (h : ShowsSound s)
    (he : s.shows.recs[i].state = .empty) : ShowsSound (loadShow b i s) := by
  have filled {r : ShowRec} {u : State} (hu : u.shows = (setShow i r s).shows)
      (hr : r.state ≠ .empty) (hsv : r.savedState = none) : ShowsSound (retally i .openHouse u) := by
    refine (h.apart i).sound_put (r := tally s.shows.cfg.bandSets[r.bandSet] .openHouse r) ?_
      ⟨⟨rfl, rfl, rfl, rfl⟩, fun h => absurd h hr, fun st hst => ?_⟩ fun k x hk hx => ?_
    · simp [retally, setShow, hu, put_put_same]
    · exact absurd (hsv.symm.trans hst) nofun
    · have live := h.live i k x hk hx
      simp [-Fin.getElem_fin, he, ShowState.isLive] at live
  have ended {u : State} (hu : ShowsSound u) :
      ShowsSound (finishShow i (reportShow i allReportFields (handMirror (.showRec i) u))) :=
    .congr (by simp [finishShow]) hu
  simp only [loadShow]
  split
  · exact ended (filled (r := { amended (fun _ => true) b {} with state := placedState _ _ })
      (schedule_keeps i _ _).2.2.2.1 (placedState_ne_empty _ _) rfl)
  · exact ended (filled
      (r := { amended (fun _ => true) b {} with state := .waiting, clockWait := true })
      rfl nofun rfl)

theorem showLoad_sound (b : ShowBody) (h : ShowsSound s) : ShowsSound (showLoad b s) := by
  unfold showLoad
  repeat' split
  case isFalse he _ _ _ => exact loadShow_sound b _ h (not_not.mp he)
  all_goals exact .congr (by simp) h

theorem haltShow_sound (i : ShowIx) (h : ShowsSound s) : ShowsSound (haltShow i s) := by
  have halted (st : ShowState) (hst : st = .selling ∨ st = .seating ∨ st = .running) :
      ShowsSound (setShow i { s.shows.recs[i] with state := .halted, savedState := some st } s) :=
    setShow_sound h ⟨h.tallies i, nofun, fun _ e => Option.some.inj e ▸ hst⟩ fun _ => rfl
  simp only [haltShow]
  split
  case h_1 hs => exact .congr (by simp [finishShow]) (halted _ (.inl hs))
  case h_2 hs => exact .congr (by simp [finishShow]) (halted _ (.inr (.inl hs)))
  case h_3 hs => exact .congr (by simp [finishShow]) (halted _ (.inr (.inr hs)))
  all_goals exact .congr (by simp) h

theorem resumeShow_sound (i : ShowIx) (h : ShowsSound s) : ShowsSound (resumeShow i s) := by
  have resumed : s.shows.recs[i].savedState.getD .selling = .selling ∨
      s.shows.recs[i].savedState.getD .selling = .seating ∨
      s.shows.recs[i].savedState.getD .selling = .running := by
    cases hsv : s.shows.recs[i].savedState with
    | none => exact .inl rfl
    | some st => exact h.saved i st hsv
  simp only [resumeShow]
  split
  case h_1 =>
    refine .congr (by simp [finishShow]) (setShow_sound h (i := i)
      (r := { s.shows.recs[i] with
        state := s.shows.recs[i].savedState.getD .selling, savedState := none })
      ⟨h.tallies i, fun he => ?_, nofun⟩ fun _ => ?_)
    · rcases resumed with e | e | e <;> exact absurd (e.symm.trans he) nofun
    · rcases resumed with e | e | e <;> exact congrArg ShowState.isLive e
  all_goals exact .congr (by simp) h

theorem cancelShow_sound (i : ShowIx) (h : ShowsSound s) : ShowsSound (cancelShow i s) := by
  have closed : ShowsSound (closeShow i s.shows.recs[i].band .showClosed (sendClock (.withdraw i)
      (setShow i { s.shows.recs[i] with
        state := .cancelled, savedState := none, clockWait := false } s))) := by
    refine SoundApart.closeShow ((h.apart i).replaced _) ?_
    simp only [sendClock_keeps, setShow_recs, put_same]
    exact ⟨nofun, nofun⟩
  simp only [cancelShow]
  split
  case h_6 | h_7 | h_8 => exact .congr (by simp) h
  all_goals
    split
    all_goals exact .congr (by simp [finishShow]) closed

theorem dropShow_sound (i : ShowIx) (h : ShowsSound s) : ShowsSound (dropShow i s) := by
  have ended {u : State} (fields : ShowRec → ShowRec → List ReportField) (hu : ShowsSound u) :
      ShowsSound (finishShow i (commitShowAs fields i s.shows.recs[i] u)) :=
    .congr (by simp [finishShow]) hu
  simp only [dropShow]
  refine ended _ ?_
  split
  case isTrue hl =>
    have inUse : InUse s.shows.recs[i] := ⟨fun he => by simp [-Fin.getElem_fin, he, ShowState.isLive] at hl, h.saved i⟩
    have closed := (h.apart i).closeShow (prev := s.shows.recs[i].band) (r := .showDropped) inUse
    exact (closed.apart i).sound_put (by simp [setShow]) (recSound_empty _) fun k x hk hx =>
      absurd hx (closeShow_holds (h.apart i) hk).2
  case isFalse hd =>
    exact setShow_sound h (recSound_empty _) fun hl => absurd hl hd

/-! ## SHOW_AMEND -/

theorem AtEvent.setShow {i : ShowIx} {r : ShowRec} (h : AtEvent i s.shows) (hr : InUse r)
    (hl : s.shows.recs[i].state.isLive = true → r.state.isLive = true) :
    AtEvent i (setShow i r s).shows := h.replaced hr hl

theorem amended_inUse {m : Nat → Bool} {b : ShowBody} {sh : ShowRec} (h : InUse sh) :
    InUse (amended m b sh) := ⟨h.state, h.saved⟩

theorem amendedState_moves {sh : ShowRec} {now : Nat} (h : amendedState sh now ≠ .closed) :
    MovesTo (amendedState sh now) sh := by
  unfold amendedState at *
  unfold MovesTo
  rcases placedState_cases sh now with e | e | e | e | e
  · rw [e]
    dsimp only
    split
    case isTrue hw => exact .inl ⟨rfl, by simp [hw]⟩
    case isFalse => exact .inr (.inl rfl)
  · simp [e]
  · simp [e]
  · simp [e]
  · simp [e] at h

/-- The clock of a show as an amend of its times finds it: it waits for no CLOCK_SET (R16). -/
def unwaited (sh : ShowRec) : ShowRec := { sh with clockWait := false }

theorem amendTimes_closed {i : ShowIx} {prev : Band} {now : Nat}
    (h : amendedState (unwaited s.shows.recs[i]) now = .closed) :
    amendTimes i prev now s = closeShow i prev .showClosed (sendClock (.withdraw i)
      (setShow i { unwaited s.shows.recs[i] with state := .closed, savedState := none } s)) := by
  unfold unwaited at h
  simp only [amendTimes, h, unwaited]

theorem amendTimes_open {i : ShowIx} {prev : Band} {now : Nat}
    (h : amendedState (unwaited s.shows.recs[i]) now ≠ .closed) :
    amendTimes i prev now s = schedule i (amendedState (unwaited s.shows.recs[i]) now)
      (setShow i (movedTo (amendedState (unwaited s.shows.recs[i]) now) (unwaited s.shows.recs[i]))
        s) := by
  unfold unwaited at h ⊢
  simp only [amendTimes]
  rfl

theorem amendTimes_atEvent {i : ShowIx} {prev : Band} {now : Nat} (h : AtEvent i s.shows) :
    AtEvent i (amendTimes i prev now s).shows := by
  by_cases hc : amendedState (unwaited s.shows.recs[i]) now = .closed
  · rw [amendTimes_closed hc]
    have closed : InUse { unwaited s.shows.recs[i] with state := .closed, savedState := none } :=
      ⟨nofun, nofun⟩
    refine SoundApart.closeShow_atEvent (h.apart.replaced _) ?_
    simp only [sendClock_keeps, setShow_recs, put_same]
    exact closed
  · rw [amendTimes_open hc]
    have moves : MovesTo (amendedState (unwaited s.shows.recs[i]) now) (unwaited s.shows.recs[i]) :=
      amendedState_moves hc
    refine .congr (schedule_keeps _ _ _).2.2.2.1 (h.setShow (movedTo_inUse ?_ moves) fun hl => ?_)
    · exact ⟨h.inUse.state, h.inUse.saved⟩
    · exact movedTo_live moves hl

/-- An amend with no capacity and no band set marked leaves the tally what its counts call for. -/
theorem amended_follows {c : ShowSettings} {m : Nat → Bool} {b : ShowBody} {sh : ShowRec}
    (h9 : m 9 = false) (h10 : m 10 = false) (h : TallyFollows c sh) :
    TallyFollows c (amended m b sh) := by
  unfold amended
  rw [h9, h10]
  exact h

theorem amendTimes_follows {i : ShowIx} {prev : Band} {now : Nat} (h : AtEvent i s.shows)
    (ht : TallyFollows s.shows.cfg s.shows.recs[i]) :
    TallyFollows (amendTimes i prev now s).shows.cfg (amendTimes i prev now s).shows.recs[i] := by
  by_cases hc : amendedState (unwaited s.shows.recs[i]) now = .closed
  · rw [amendTimes_closed hc]
    refine (SoundApart.closeShow (h.apart.replaced _) ?_).tallies i
    simp only [sendClock_keeps, setShow_recs, put_same]
    exact ⟨nofun, nofun⟩
  · rw [amendTimes_open hc]
    simp only [schedule_keeps, setShow_cfg, setShow_recs, put_same]
    exact movedTo_follows ht

/-- An amend's fields written, and the show placed again where a time is marked and the clock is set (R16). -/
def amendPlaced (m : Nat → Bool) (b : ShowBody) (i : ShowIx) (s : State) : State :=
  let u := setShow i (amended m b s.shows.recs[i]) s
  match s.clock.lobby with
  | some now =>
    if m 5 || m 6 || m 7 || m 8 then amendTimes i s.shows.recs[i].band now u else u
  | none => u

/-- An amend placed, and its DELAYED card asked for (R18). -/
def amendAsked (m : Nat → Bool) (b : ShowBody) (i : ShowIx) (s : State) : State :=
  if m 5 && s.shows.recs[i].start < (amended m b s.shows.recs[i]).start &&
      (amended m b s.shows.recs[i]).flags.autoDelay then
    requestAuto .delayed i 600 (amendPlaced m b i s)
  else amendPlaced m b i s

theorem applyAmend_eq (m : Nat → Bool) (b : ShowBody) (capture : List Byte) (i : ShowIx) (s : State) :
    applyAmend m b capture i s = finishShow i (commitShow i s.shows.recs[i]
      (if m 9 || m 10 then recompute i s.shows.recs[i] capture (amendAsked m b i s)
       else amendAsked m b i s)) := rfl

theorem amendAsked_shows (m : Nat → Bool) (b : ShowBody) (i : ShowIx) (s : State) :
    (amendAsked m b i s).shows = (amendPlaced m b i s).shows := by
  unfold amendAsked
  split
  · simp
  · rfl

theorem amendPlaced_atEvent {m : Nat → Bool} {b : ShowBody} {i : ShowIx} (h : AtEvent i s.shows) :
    AtEvent i (amendPlaced m b i s).shows := by
  have event : AtEvent i (setShow i (amended m b s.shows.recs[i]) s).shows :=
    h.setShow (amended_inUse h.inUse) id
  simp only [amendPlaced]
  repeat' split
  · exact amendTimes_atEvent event
  · exact event
  · exact event

theorem amendPlaced_follows {m : Nat → Bool} {b : ShowBody} {i : ShowIx} (h : AtEvent i s.shows)
    (h9 : m 9 = false) (h10 : m 10 = false) (ht : TallyFollows s.shows.cfg s.shows.recs[i]) :
    TallyFollows (amendPlaced m b i s).shows.cfg (amendPlaced m b i s).shows.recs[i] := by
  have event : AtEvent i (setShow i (amended m b s.shows.recs[i]) s).shows :=
    h.setShow (amended_inUse h.inUse) id
  have follows : TallyFollows (setShow i (amended m b s.shows.recs[i]) s).shows.cfg
      (setShow i (amended m b s.shows.recs[i]) s).shows.recs[i] := by
    rw [setShow_cfg, setShow_recs, put_same]
    exact amended_follows h9 h10 ht
  unfold amendPlaced
  cases s.clock.lobby with
  | none => exact follows
  | some now =>
    dsimp only
    split
    · exact amendTimes_follows event follows
    · exact follows

theorem applyAmend_sound (m : Nat → Bool) (b : ShowBody) (capture : List Byte) (i : ShowIx)
    (h : ShowsSound s) (hs : s.shows.recs[i].state ≠ .empty) :
    ShowsSound (applyAmend m b capture i s) := by
  have ended {u : State} (hu : ShowsSound u) :
      ShowsSound (finishShow i (commitShow i s.shows.recs[i] u)) := .congr (by simp [finishShow]) hu
  have placed := amendPlaced_atEvent (m := m) (b := b) (h.atEvent hs)
  rw [applyAmend_eq]
  refine ended ?_
  split
  case isTrue => exact (placed.congr (amendAsked_shows m b i s)).recompute
  case isFalse hm =>
    simp only [Bool.or_eq_true, not_or, Bool.not_eq_true] at hm
    exact .congr (amendAsked_shows m b i s)
      (placed.sound (amendPlaced_follows (h.atEvent hs) hm.1 hm.2 (h.tallies i)))

theorem showAmend_sound (b : ShowBody) (capture : List Byte) (h : ShowsSound s) :
    ShowsSound (showAmend b capture s) := by
  simp only [showAmend]
  split
  · exact .congr (by simp) h
  · split
    case h_1 | h_2 | h_3 => exact .congr (by simp) h
    case h_4 he _ _ =>
      repeat' split
      · exact .congr (by simp) h
      · exact .congr (by simp) h
      · exact applyAmend_sound _ b capture _ h he

/-! ## Tally entries -/

theorem endTally_sound (code : OutcomeCode) (i : ShowIx) (before : ShowRec) (capture : List Byte)
    (h : AtEvent i s.shows) : ShowsSound (endTally code i before capture s) :=
  .congr (by simp [endTally, finishAvail]) (h.recompute (before := before) (capture := capture))

theorem liveHold_holdAt {ref : Nat} {k : HoldIx} {x : HoldRec} (h : liveHold s ref = some (k, x)) :
    holdAt s k = some x := by
  unfold liveHold at h
  repeat' split at h
  case isTrue hx _ =>
    obtain ⟨rfl, rfl⟩ : _ = k ∧ _ = x := by simpa using h
    exact hx
  all_goals cases h

theorem ne_empty_of_live {sh : ShowRec} (h : sh.state.isLive = true) : sh.state ≠ .empty :=
  fun he => by rw [he] at h; cases h

/-- A hold freed leaves its show with fewer held seats to count. -/
theorem freeHold_atEvent {k : HoldIx} {x : HoldRec} (h : ShowsSound s) (hk : holdAt s k = some x) :
    AtEvent x.showIx (freeHold k s).shows := by
  have shows : (freeHold k s).shows = { s.shows with
      recs := put s.shows.recs x.showIx
        { s.shows.recs[x.showIx] with held := s.shows.recs[x.showIx].held - x.seats }
      holds := put s.shows.holds k ⟨(s.shows.holds[k].gen + 1) % 256, none⟩
      holdList := s.shows.holdList.filter (· != k) } := by
    simp only [freeHold, hk]
  have kept {j : HoldIx} {y : HoldRec}
      (hj : (put s.shows.holds k ⟨(s.shows.holds[k].gen + 1) % 256, none⟩)[j].hold = some y) :
      j ≠ k ∧ s.shows.holds[j].hold = some y := by
    rw [put_get] at hj
    split at hj
    · cases hj
    case isFalse hne => exact ⟨hne, hj⟩
  have live := (h.holds k x hk).2
  have fewer : InUse { s.shows.recs[x.showIx] with held := s.shows.recs[x.showIx].held - x.seats } :=
    ⟨ne_empty_of_live live, h.saved x.showIx⟩
  rw [shows]
  refine ⟨⟨fun j hj => ?_, fun j y hj => ?_, fun j y hj hy => ?_⟩, fun j y hj hy => ?_, ?_⟩
  · rw [put_other _ _ _ _ hj]
    exact h.recSound j
  · obtain ⟨hne, hj⟩ := kept hj
    exact List.mem_filter.mpr ⟨(h.holds j y hj).1, by simpa using hne⟩
  · rw [put_other _ _ _ _ hy]
    exact (h.holds j y (kept hj).2).2
  · rw [put_same]
    exact live
  · rw [put_same]
    exact fewer

theorem applySale_sound (b : SaleBody) (capture : List Byte) (i : ShowIx) (h : ShowsSound s)
    (hs : s.shows.recs[i].state ≠ .empty) : ShowsSound (applySale b capture i s) := by
  have sold {u : State} (hu : AtEvent i u.shows) : AtEvent i (setShow i { u.shows.recs[i] with
      sold := sat16 (u.shows.recs[i].sold + b.seats) } u).shows :=
    hu.setShow ⟨hu.inUse.state, hu.inUse.saved⟩ id
  simp only [applySale]
  split
  · exact endTally_sound _ _ _ _ (sold (h.atEvent hs))
  · split
    · exact endTally_sound _ _ _ _ (sold (h.atEvent hs))
    case h_2 k x hl =>
      split
      case isTrue hi =>
        subst hi
        exact endTally_sound _ _ _ _ (sold (.congr (s := freeHold k s) (by simp)
          (freeHold_atEvent h (liveHold_holdAt hl))))
      case isFalse => exact endTally_sound _ _ _ _ (sold (h.atEvent hs))

theorem takeSale_sound (b : SaleBody) (capture : List Byte) (h : ShowsSound s) :
    ShowsSound (takeSale b capture s) := by
  unfold takeSale
  split
  · exact .congr (by simp) h
  · split
    · exact .congr (by simp) h
    · exact .congr (by simp [finishAvail]) h
    case h_3 he _ =>
      repeat' split
      · exact .congr (by simp) h
      · exact .congr (by simp) h
      · exact applySale_sound b capture _ h he

theorem takeRefund_sound (n seats : Nat) (capture : List Byte) (h : ShowsSound s) :
    ShowsSound (takeRefund n seats capture s) := by
  simp only [takeRefund]
  split
  · exact .congr (by simp) h
  · split
    · exact .congr (by simp) h
    case isFalse he =>
      split
      · exact .congr (by simp) h
      · exact endTally_sound _ _ _ _ ((h.atEvent he).setShow ⟨he, h.saved _⟩ id)

theorem takeBlock_sound (n : Nat) (delta : Int) (capture : List Byte) (h : ShowsSound s) :
    ShowsSound (takeBlock n delta capture s) := by
  simp only [takeBlock]
  split
  · exact .congr (by simp) h
  · split
    · exact .congr (by simp) h
    · exact .congr (by simp [finishAvail]) h
    case h_3 he _ =>
      split
      · exact .congr (by simp [finishAvail]) h
      · exact endTally_sound _ _ _ _ ((h.atEvent he).setShow ⟨he, h.saved _⟩ id)

/-! ## Holds -/

/-- Entering a slot in the Hold List puts it there and keeps the others. -/
theorem enterHold_perm (expiry : HoldIx → Nat) (k : HoldIx) (l : List HoldIx) :
    (enterHold expiry k l).Perm (k :: l) := by
  induction l with
  | nil => exact .refl _
  | cons j rest ih =>
    unfold enterHold
    split
    · exact (ih.cons j).trans (.swap k j rest)
    · exact .refl _

theorem mem_enterHold {expiry : HoldIx → Nat} {k j : HoldIx} {l : List HoldIx} :
    j ∈ enterHold expiry k l ↔ j = k ∨ j ∈ l :=
  (enterHold_perm expiry k l).mem_iff.trans List.mem_cons

theorem placeHold_sound {d : DeskIx} {seq : Byte} {i : ShowIx} {seats : Nat} {k : HoldIx}
    (h : ShowsSound s) (hl : s.shows.recs[i].state.isLive = true) :
    ShowsSound (placeHold d seq i seats k s) := by
  have slot {j : HoldIx} {y : HoldRec} (hj : (put s.shows.holds k
        { s.shows.holds[k] with hold := some (newHold s d i seats) })[j].hold = some y) :
      j = k ∧ y.showIx = i ∨ s.shows.holds[j].hold = some y := by
    rw [put_get] at hj
    split at hj
    case isTrue e => exact .inl ⟨e, by rw [← Option.some.inj hj]; rfl⟩
    case isFalse => exact .inr hj
  have held : InUse { s.shows.recs[i] with held := s.shows.recs[i].held + seats } :=
    ⟨ne_empty_of_live hl, h.saved i⟩
  have event (u : HoldIx → Nat) (n : Nat) : AtEvent i { s.shows with
      recs := put s.shows.recs i { s.shows.recs[i] with held := s.shows.recs[i].held + seats }
      holds := put s.shows.holds k { s.shows.holds[k] with hold := some (newHold s d i seats) }
      placementCounter := n
      holdList := enterHold u k s.shows.holdList } := by
    refine ⟨⟨fun j hj => ?_, fun j y hj => ?_, fun j y hj hy => ?_⟩, fun j y hj hy => ?_, ?_⟩
    · rw [put_other _ _ _ _ hj]
      exact h.recSound j
    · rcases slot hj with ⟨e, -⟩ | hj
      · exact mem_enterHold.mpr (.inl e)
      · exact mem_enterHold.mpr (.inr (h.holds j y hj).1)
    · rcases slot hj with ⟨-, e⟩ | hj
      · exact absurd e hy
      · rw [put_other _ _ _ _ hy]
        exact (h.holds j y hj).2
    · rw [put_same]
      exact hl
    · rw [put_same]
      exact held
  have ended {u : State} (m : DeskMsg) (hu : ShowsSound u) : ShowsSound
      (sendDesk d seq m (commitShow i s.shows.recs[i] (handMirror (.hold k) u))) :=
    .congr (by simp) hu
  exact ended _ (AtEvent.recompute (event _ _))

theorem takeHold_sound (e : IntakeEntry) (h : ShowsSound s) : ShowsSound (takeHold e s) := by
  simp only [takeHold]
  split
  case h_1 i k hr hi _ =>
    refine placeHold_sound h ?_
    simp only [holdRefusal, hi] at hr
    repeat' split at hr
    case isFalse hsell _ _ _ _ => 
      rcases not_not.mp hsell with e | e | e <;> rw [e] <;> rfl
    all_goals cases hr
  all_goals exact .congr (by simp) h

theorem show_live {i j : ShowIx} (e : i = j) :
    s.shows.recs[i].state.isLive = true ↔ s.shows.recs[j].state.isLive = true := by
  rw [e]

theorem extendHold_sound {e : IntakeEntry} {ref : Nat} {k : HoldIx} {x : HoldRec}
    (h : ShowsSound s) (hk : holdAt s k = some x) : ShowsSound (extendHold e ref k x s) := by
  have slot (n m p : Nat) {j : HoldIx} {y : HoldRec} (hj : (put s.shows.holds k
        ⟨s.shows.holds[k].gen, some { x with expiry := n, extensionsUsed := m, placedSeq := p }⟩)[j].hold = some y) :
      ∃ z, s.shows.holds[j].hold = some z ∧ y.showIx = z.showIx := by
    rw [put_get] at hj
    split at hj
    case isTrue e => exact ⟨x, e ▸ hk, by rw [← Option.some.inj hj]⟩
    case isFalse => exact ⟨y, hj, rfl⟩
  have extended (u : HoldIx → Nat) (n m p : Nat) : ShowsSound { s with shows := { s.shows with
      holds := put s.shows.holds k
        ⟨s.shows.holds[k].gen, some { x with expiry := n, extensionsUsed := m, placedSeq := p }⟩
      placementCounter := p
      holdList := enterHold u k (s.shows.holdList.filter (· != k)) } } := by
    refine ⟨h.tallies, h.empty, h.saved, fun j y hj => ?_⟩
    obtain ⟨z, hz, same⟩ := slot n m p hj
    obtain ⟨listed, live⟩ := h.holds j z hz
    refine ⟨mem_enterHold.mpr ?_, (show_live same).mpr live⟩
    by_cases e : j = k
    · exact .inl e
    · exact .inr (List.mem_filter.mpr ⟨listed, by simpa using e⟩)
  have ended {u : State} (m : DeskMsg) (hu : ShowsSound u) : ShowsSound
      (sendDesk e.desk e.seq m (handMirror (.hold k) u)) := .congr (by simp) hu
  exact ended _ (extended _ _ _ _)

theorem takeExtend_sound (e : IntakeEntry) (h : ShowsSound s) : ShowsSound (takeExtend e s) := by
  simp only [takeExtend]
  split
  · exact .congr (by simp) h
  case h_2 k x hl =>
    split
    · exact .congr (by simp) h
    · split
      · exact .congr (by simp) h
      · exact extendHold_sound h (liveHold_holdAt hl)

theorem freeAndCommit_sound {k : HoldIx} {x : HoldRec} (h : ShowsSound s)
    (hk : holdAt s k = some x) : ShowsSound (freeAndCommit k x s) := by
  have freed := (freeHold_atEvent h hk).recompute (before := s.shows.recs[x.showIx])
    (capture := noCapture)
  have ended {u : State} (hu : ShowsSound u) : ShowsSound
      (commitShow x.showIx s.shows.recs[x.showIx] (handMirror (.hold k) u)) := .congr (by simp) hu
  exact ended freed

theorem takeRelease_sound (e : IntakeEntry) (h : ShowsSound s) : ShowsSound (takeRelease e s) := by
  simp only [takeRelease]
  split
  · exact .congr (by simp) h
  case h_2 k x hl =>
    split
    · exact .congr (by simp) h
    · exact .congr (by simp) (freeAndCommit_sound h (liveHold_holdAt hl))

/-! ## Resets and settings -/

theorem resetShows_sound (x : ShowTable) (e : t.shows = resetShows x) : ShowsSound t := by
  have record (i : ShowIx) : t.shows.recs[i] = {} := by simp [e, resetShows]
  refine ⟨fun i => ?_, fun i _ => record i, fun i st hst => ?_, fun k y hk => ?_⟩
  · rw [record]
    exact tallyFollows_empty _
  · rw [record] at hst
    cases hst
  · have free : t.shows.holds[k].hold = none := by
      simp only [e, resetShows, Fin.getElem_fin, Vector.getElem_map]
      split
      · rfl
      case isFalse hf => simpa using hf
    cases free.symm.trans hk

theorem lobbyReset_sound (s : State) : ShowsSound (lobbyReset s) := by
  obtain ⟨q, v, links, he, -⟩ := lobbyReset_only s
  exact resetShows_sound s.shows (by rw [he]; rfl)


/-- The record of show `i` when its band set has changed: counted again unless EMPTY or the band set is the
same (R25). -/
def rebanded (old new : ShowSettings) (sh : ShowRec) : ShowRec :=
  if sh.state ≠ .empty ∧ old.bandSets[sh.bandSet] ≠ new.bandSets[sh.bandSet] then
    recounted new sh sh
  else sh

theorem rebandShow_shows (old : ShowSettings) (i : ShowIx) (s : State) :
    (rebandShow old i s).shows = { s.shows with
      recs := put s.shows.recs i (rebanded old s.shows.cfg s.shows.recs[i]) } := by
  simp only [rebandShow, rebanded]
  split
  · exact (commitRecount_effect i s.shows.recs[i] noCapture s).1
  · rw [put_self]

/-- Shows counted again one after another. -/
theorem foldl_rebandShow_shows (old : ShowSettings) {l : List ShowIx} (hl : l.Nodup)
    (ht : t = l.foldl (fun s i => rebandShow old i s) s) : (∀ j : ShowIx, t.shows.recs[j] =
      if j ∈ l then rebanded old s.shows.cfg s.shows.recs[j] else s.shows.recs[j]) ∧
    t.shows.holds = s.shows.holds ∧ t.shows.holdList = s.shows.holdList ∧
    t.shows.cfg = s.shows.cfg ∧ t.shows.placementCounter = s.shows.placementCounter := by
  induction l generalizing s with
  | nil => simp [ht]
  | cons i l ih =>
    obtain ⟨hi, hl⟩ := List.nodup_cons.mp hl
    obtain ⟨records, rest⟩ := ih (s := rebandShow old i s) hl ht
    rw [rebandShow_shows] at records rest
    refine ⟨fun j => (records j).trans ?_, rest⟩
    rw [put_get]
    by_cases hj : j = i
    · subst hj
      simp [hi]
    · simp [hj]

theorem adoptShows_shows (c : ShowSettings) (s : State) :
    (∀ j : ShowIx, (adoptShows c s).shows.recs[j] = rebanded s.shows.cfg c s.shows.recs[j]) ∧
    (adoptShows c s).shows.holds = s.shows.holds ∧
    (adoptShows c s).shows.holdList = s.shows.holdList ∧ (adoptShows c s).shows.cfg = c ∧
    (adoptShows c s).shows.placementCounter = s.shows.placementCounter := by
  obtain ⟨records, rest⟩ := foldl_rebandShow_shows (t := adoptShows c s)
    (s := { s with shows := { s.shows with cfg := c } }) s.shows.cfg (List.nodup_finRange 64) rfl
  exact ⟨fun j => (records j).trans (if_pos (List.mem_finRange j)), rest⟩

theorem rebanded_sound {old new : ShowSettings} {sh : ShowRec} (h : RecSound old sh) :
    RecSound new (rebanded old new sh) := by
  unfold rebanded
  split
  case isTrue hc => exact InUse.sound ⟨hc.1, h.saved⟩ (recounted_follows _ _ _)
  case isFalse hn =>
    refine ⟨?_, h.empty, h.saved⟩
    by_cases he : sh.state = .empty
    · rw [h.empty he]
      exact tallyFollows_empty new
    · have same : old.bandSets[sh.bandSet] = new.bandSets[sh.bandSet] :=
        not_not.mp fun hne => hn ⟨he, hne⟩
      obtain ⟨avail, oversold, fill, figure⟩ := h.tally
      exact ⟨avail, oversold, fill, same ▸ figure⟩

theorem rebanded_state (old new : ShowSettings) (sh : ShowRec) :
    (rebanded old new sh).state = sh.state := by
  unfold rebanded
  split <;> rfl

theorem adoptShows_sound (c : ShowSettings) (h : ShowsSound s) : ShowsSound (adoptShows c s) := by
  obtain ⟨records, holds, list, cfg, -⟩ := adoptShows_shows c s
  have sound (i : ShowIx) : RecSound (adoptShows c s).shows.cfg (adoptShows c s).shows.recs[i] := by
    rw [records, cfg]
    exact rebanded_sound (h.recSound i)
  refine .of_records sound fun k x hk => ?_
  obtain ⟨listed, live⟩ := h.holds k x (holds ▸ hk)
  have same : (adoptShows c s).shows.recs[x.showIx].state = s.shows.recs[x.showIx].state := by
    rw [records, rebanded_state]
  refine ⟨?_, (congrArg ShowState.isLive same).trans live⟩
  rw [list]
  exact listed

theorem adopt_sound (o : Owner) (c : Settings) (h : ShowsSound s) : ShowsSound (adopt o c s) := by
  cases o
  case showTable =>
    simp only [adopt]
    exact adoptShows_sound c.shows h
  all_goals exact .congr (by simp [adopt]) h

/-! ## Every command -/

theorem execSettingsEvent_sound (o : Owner) (h : ShowsSound s) :
    Answers ShowsSound (execSettingsEvent o s) := by
  have settled {u : State} (hu : ShowsSound u) : ShowsSound (settleConfigure o u) :=
    hu.of (by simp)
  have popped (q : List (Owner × Settings)) :
      ShowsSound { s with win := { s.win with settingsQ := q } } := h.of rfl
  refine answers_next.mpr ?_
  split
  · exact settled (adopt_sound o _ (popped _))
  · exact h

/-- Every command keeps the Show Table sound. -/
theorem exec_showsSound (c : Instr) (h : ShowsSound s) : Answers ShowsSound (exec c s) := by
  by_cases hp : Part.shows ∈ mayChange c
  · cases c <;> simp only [mayChange, List.mem_cons, List.not_mem_nil, reduceCtorEq, or_self] at hp
    case powerOnReset links => exact answers_next.mpr (resetMeetsTheInvariants.1.of rfl)
    case lobbyReset w =>
      exact answers_answer.mpr fun hw => writeControl_reset hw ▸ lobbyReset_sound _
    case settingsEvent o => exact execSettingsEvent_sound o h
    case clockSet =>
      refine answers_next.mpr (takeEntry_sound h fun f => ?_)
      dsimp only
      split
      · exact finishClockSet_sound _ _ _ (h.of rfl)
      · exact h.of rfl
    case catchUp =>
      refine answers_next.mpr ?_
      split
      · exact catchUp_sound _ _ (h.of rfl)
      · exact finishClockSet_sound _ _ _ (h.of rfl)
      · exact h
    case showLoad => exact answers_next.mpr (takeEntry_sound h fun _ => showLoad_sound _ h)
    case showAmend => exact answers_next.mpr (takeEntry_sound h fun _ => showAmend_sound _ _ h)
    case showHalt =>
      exact answers_next.mpr (takeEntry_sound h fun f => withShow_sound f h (haltShow_sound · h))
    case showResume =>
      exact answers_next.mpr (takeEntry_sound h fun f => withShow_sound f h (resumeShow_sound · h))
    case showCancel =>
      exact answers_next.mpr (takeEntry_sound h fun f => withShow_sound f h (cancelShow_sound · h))
    case showDrop =>
      exact answers_next.mpr (takeEntry_sound h fun f => withShow_sound f h (dropShow_sound · h))
    case sale => exact answers_next.mpr (takeEntry_sound h fun _ => takeSale_sound _ _ h)
    case refund => exact answers_next.mpr (takeEntry_sound h fun _ => takeRefund_sound _ _ _ h)
    case block => exact answers_next.mpr (takeEntry_sound h fun _ => takeBlock_sound _ _ _ h)
    case hold => exact answers_next.mpr (takeRequest_sound h fun e _ => takeHold_sound e)
    case extend => exact answers_next.mpr (takeRequest_sound h fun e _ => takeExtend_sound e)
    case release => exact answers_next.mpr (takeRequest_sound h fun e _ => takeRelease_sound e)
    case holdExpiry =>
      refine answers_next.mpr ?_
      split
      · exact h
      · split
        · exact h
        case h_2 hk =>
          split
          · exact .congr (by simp) (freeAndCommit_sound h hk)
          · exact h
  · intro t ht
    exact .congr (commandsKeepToTheirParts c s t .shows ht hp).symm h

end

end Sys2Proof.Machine

/-! SUPPORT. The Hold List and the due list through every command: each stays in its order (R3, R41). -/

namespace Sys2Proof.Machine

section
variable {s t : State}

/-! ## The Hold List -/

/-- The expiry of a hold slot, 0 where it is free. -/
def slotExpiry (sl : HoldSlot) : Nat := (sl.hold.map (·.expiry)).getD 0

/-- The Hold List holds slots in use, each once, by expiry (R41). -/
structure HoldsOrdered (x : ShowTable) : Prop where
  inUse : ∀ k ∈ x.holdList, x.holds[k].hold.isSome = true
  once : x.holdList.Nodup
  byExpiry : x.holdList.Pairwise fun a b => slotExpiry x.holds[a] ≤ slotExpiry x.holds[b]

theorem HoldsOrdered.congr {x y : ShowTable} (h : HoldsOrdered x) (hh : y.holds = x.holds)
    (hl : y.holdList = x.holdList) : HoldsOrdered y := by
  obtain ⟨inUse, once, byExpiry⟩ := h
  constructor <;> rw [hl] <;> first | assumption | rw [hh]; assumption

/-- Slots leave the Hold List, and those that stay are as they were. -/
theorem HoldsOrdered.filter {x y : ShowTable} (h : HoldsOrdered x) {p : HoldIx → Bool}
    (hl : y.holdList = x.holdList.filter p)
    (hh : ∀ k : HoldIx, k ∈ y.holdList → y.holds[k] = x.holds[k]) : HoldsOrdered y := by
  have mem {k : HoldIx} (hk : k ∈ y.holdList) : k ∈ x.holdList := by
    rw [hl] at hk
    exact (List.mem_filter.mp hk).1
  refine ⟨fun k hk => ?_, hl ▸ h.once.filter p, ?_⟩
  · rw [hh k hk]
    exact h.inUse k (mem hk)
  · have sorted : y.holdList.Pairwise fun a b => slotExpiry x.holds[a] ≤ slotExpiry x.holds[b] :=
      hl ▸ h.byExpiry.filter p
    refine sorted.imp_of_mem fun {a b} ha hb hab => ?_
    rw [hh a ha, hh b hb]
    exact hab

theorem enterHold_sorted {e : HoldIx → Nat} {k : HoldIx} {l : List HoldIx}
    (h : l.Pairwise fun a b => e a ≤ e b) : (enterHold e k l).Pairwise fun a b => e a ≤ e b := by
  induction l with
  | nil => exact .cons nofun .nil
  | cons j rest ih =>
    obtain ⟨first, rest'⟩ := List.pairwise_cons.mp h
    unfold enterHold
    split
    case isTrue hj =>
      refine List.pairwise_cons.mpr ⟨fun m hm => ?_, ih rest'⟩
      rcases mem_enterHold.mp hm with rfl | hm
      · exact hj
      · exact first m hm
    case isFalse hj =>
      have hk : e k ≤ e j := Nat.le_of_lt (Nat.lt_of_not_le hj)
      refine List.pairwise_cons.mpr ⟨fun m hm => ?_, h⟩
      rcases List.mem_cons.mp hm with rfl | hm
      · exact hk
      · exact hk.trans (first m hm)

/-- A slot written and entered in the Hold List, which it was not on. -/
theorem HoldsOrdered.enter {x y : ShowTable} {k : HoldIx} {l : List HoldIx} {r : HoldRec} {n : Nat}
    (h : HoldsOrdered { x with holdList := l }) (hk : k ∉ l)
    (hh : y.holds = put x.holds k ⟨n, some r⟩)
    (hl : y.holdList = enterHold (fun j => slotExpiry y.holds[j]) k l) : HoldsOrdered y := by
  have other {j : HoldIx} (hj : j ∈ l) : y.holds[j] = x.holds[j] := by
    rw [hh]
    exact put_other _ _ _ _ fun e => hk (e ▸ hj)
  have self : y.holds[k] = ⟨n, some r⟩ := hh ▸ put_same _ _ _
  refine ⟨fun j hj => ?_, ?_, ?_⟩
  · rw [hl] at hj
    rcases mem_enterHold.mp hj with rfl | hj
    · rw [self]
      rfl
    · rw [other hj]
      exact h.inUse j hj
  · rw [hl, (enterHold_perm _ _ _).nodup_iff]
    exact List.nodup_cons.mpr ⟨hk, h.once⟩
  · have sorted : l.Pairwise fun a b => slotExpiry y.holds[a] ≤ slotExpiry y.holds[b] := by
      refine h.byExpiry.imp_of_mem fun {a b} ha hb hab => ?_
      rw [other ha, other hb]
      exact hab
    rw [hl]
    exact enterHold_sorted sorted

/-! ## Operations on holds -/

theorem freeHold_ordered (k : HoldIx) (h : HoldsOrdered s.shows) :
    HoldsOrdered (freeHold k s).shows := by
  unfold freeHold
  split
  · exact h
  · refine h.filter (p := (· != k)) rfl fun j hj => put_other _ _ _ _ ?_
    simpa using (List.mem_filter.mp hj).2

theorem closeShow_ordered (i : ShowIx) (prev : Band) (r : NoticeEnd) (h : HoldsOrdered s.shows) :
    HoldsOrdered (closeShow i prev r s).shows := by
  obtain ⟨-, ⟨holds, list⟩, -⟩ := closeShow_effect i prev r s
  refine h.filter list fun k hk => ?_
  rw [list] at hk
  have stays : holdsFor s i k = false := by simpa using (List.mem_filter.mp hk).2
  rw [holds k, stays]
  rfl

theorem recompute_ordered {i : ShowIx} {before : ShowRec} {capture : List Byte}
    (h : HoldsOrdered s.shows) : HoldsOrdered (recompute i before capture s).shows := by
  rw [(recompute_effect i before capture s).1]
  exact h.congr rfl rfl

theorem setShow_ordered {i : ShowIx} {r : ShowRec} (h : HoldsOrdered s.shows) :
    HoldsOrdered (setShow i r s).shows := h.congr rfl rfl

theorem HoldsOrdered.of (h : HoldsOrdered s.shows) (e : t.shows = s.shows) : HoldsOrdered t.shows :=
  e ▸ h

theorem foldl_ordered {α : Type} {g : State → α → State}
    (hg : ∀ s a, HoldsOrdered s.shows → HoldsOrdered (g s a).shows) (l : List α)
    (h : HoldsOrdered s.shows) : HoldsOrdered (l.foldl g s).shows := by
  induction l generalizing s with
  | nil => exact h
  | cons a l ih => exact ih (hg s a h)

/-! ## Events -/

theorem perform_ordered (e : DueEntry) (time : Nat) (h : HoldsOrdered s.shows) :
    HoldsOrdered (perform e time s).1.shows := by
  simp only [perform]
  split
  · exact closeShow_ordered _ _ _ (setShow_ordered h)
  · repeat' split
    all_goals simpa using setShow_ordered h

theorem catchUpLoop_ordered (fuel time : Nat) (q : List DueEntry) (n : Nat)
    (h : HoldsOrdered s.shows) : HoldsOrdered (catchUpLoop fuel time q n s).1.shows := by
  induction fuel generalizing q n s with
  | zero => exact h
  | succ fuel ih =>
    unfold catchUpLoop
    repeat' split
    · exact h
    · exact ih _ _ (perform_ordered _ _ h)
    · exact ih _ _ h

theorem catchUp_ordered (time : Nat) (entries : List DueEntry) (h : HoldsOrdered s.shows) :
    HoldsOrdered (catchUp time entries s).1.shows :=
  (catchUpLoop_ordered (5 * entries.length) time entries 0 h).of (by simp [catchUp])

theorem placeShow_ordered (now : Nat) (i : ShowIx) (h : HoldsOrdered s.shows) :
    HoldsOrdered (placeShow now i s).shows := by
  simp only [placeShow]
  repeat' split
  · exact closeShow_ordered _ _ _ (setShow_ordered h)
  · simpa using setShow_ordered h
  · exact h

theorem finishClockSet_ordered (time : Nat) (first : Bool) (entries : List DueEntry)
    (h : HoldsOrdered s.shows) : HoldsOrdered (finishClockSet time first entries s).shows := by
  have placed := foldl_ordered (fun _ i => placeShow_ordered time i) (List.finRange 64) h
  have caught := catchUp_ordered time entries h
  simp only [finishClockSet]
  split
  · exact placed.of (by simp [placeAll])
  · exact caught.of (by simp)

theorem retally_ordered {i : ShowIx} {prev : Band} (h : HoldsOrdered s.shows) :
    HoldsOrdered (retally i prev s).shows := setShow_ordered h

theorem schedule_ordered {i : ShowIx} {st : ShowState} (h : HoldsOrdered s.shows) :
    HoldsOrdered (schedule i st s).shows := h.of (by simp)

theorem sendClock_ordered {r : ClockRequest} (h : HoldsOrdered s.shows) :
    HoldsOrdered (sendClock r s).shows := h

theorem requestAuto_ordered {k : CardKind} {i : ShowIx} {n : Nat} (h : HoldsOrdered s.shows) :
    HoldsOrdered (requestAuto k i n s).shows := h

theorem handMirror_ordered {id : MirrorId} (h : HoldsOrdered s.shows) :
    HoldsOrdered (handMirror id s).shows := h.of (by simp)

theorem sendDesk_ordered {d : DeskIx} {seq : Byte} {m : DeskMsg} (h : HoldsOrdered s.shows) :
    HoldsOrdered (sendDesk d seq m s).shows := h.of (by simp)

theorem loadShow_ordered (b : ShowBody) (i : ShowIx) (h : HoldsOrdered s.shows) :
    HoldsOrdered (loadShow b i s).shows := by
  have ended {u : State} (hu : HoldsOrdered u.shows) : HoldsOrdered
      (finishShow i (reportShow i allReportFields (handMirror (.showRec i) u))).shows :=
    hu.of (by simp [finishShow])
  simp only [loadShow]
  split
  · exact ended (retally_ordered (schedule_ordered (setShow_ordered h)))
  · exact ended (retally_ordered (setShow_ordered h))

theorem haltShow_ordered (i : ShowIx) (h : HoldsOrdered s.shows) :
    HoldsOrdered (haltShow i s).shows := by
  have ended {u : State} (hu : HoldsOrdered u.shows) : HoldsOrdered
      (finishShow i (commitShow i s.shows.recs[i] u)).shows := hu.of (by simp [finishShow])
  simp only [haltShow]
  split
  case h_1 | h_2 | h_3 => exact ended (setShow_ordered h)
  all_goals exact h.of (by simp)

theorem resumeShow_ordered (i : ShowIx) (h : HoldsOrdered s.shows) :
    HoldsOrdered (resumeShow i s).shows := by
  have ended {u : State} (hu : HoldsOrdered u.shows) : HoldsOrdered
      (finishShow i (commitShow i s.shows.recs[i] u)).shows := hu.of (by simp [finishShow])
  simp only [resumeShow]
  split
  case h_1 => exact ended (setShow_ordered h)
  all_goals exact h.of (by simp)

theorem cancelShow_ordered (i : ShowIx) (h : HoldsOrdered s.shows) :
    HoldsOrdered (cancelShow i s).shows := by
  have ended {u : State} (hu : HoldsOrdered u.shows) : HoldsOrdered
      (finishShow i (commitShow i s.shows.recs[i] u)).shows := hu.of (by simp [finishShow])
  simp only [cancelShow]
  split
  case h_6 | h_7 | h_8 => exact h.of (by simp)
  all_goals
    split
    · exact ended (requestAuto_ordered
        (closeShow_ordered i _ _ (sendClock_ordered (setShow_ordered h))))
    · exact ended (closeShow_ordered i _ _ (sendClock_ordered (setShow_ordered h)))

theorem dropShow_ordered (i : ShowIx) (h : HoldsOrdered s.shows) :
    HoldsOrdered (dropShow i s).shows := by
  have ended {u : State} (f : ShowRec → ShowRec → List ReportField) (hu : HoldsOrdered u.shows) :
      HoldsOrdered (finishShow i (commitShowAs f i s.shows.recs[i] u)).shows :=
    hu.of (by simp [finishShow])
  simp only [dropShow]
  refine ended _ (setShow_ordered ?_)
  split
  · exact closeShow_ordered i _ _ h
  · exact h

theorem amendTimes_ordered {i : ShowIx} {prev : Band} {now : Nat} (h : HoldsOrdered s.shows) :
    HoldsOrdered (amendTimes i prev now s).shows := by
  by_cases hc : amendedState (unwaited s.shows.recs[i]) now = .closed
  · rw [amendTimes_closed hc]
    exact closeShow_ordered i _ _ (setShow_ordered h)
  · rw [amendTimes_open hc]
    exact schedule_ordered (setShow_ordered h)

theorem applyAmend_ordered (m : Nat → Bool) (b : ShowBody) (capture : List Byte) (i : ShowIx)
    (h : HoldsOrdered s.shows) : HoldsOrdered (applyAmend m b capture i s).shows := by
  have ended {u : State} (hu : HoldsOrdered u.shows) : HoldsOrdered
      (finishShow i (commitShow i s.shows.recs[i] u)).shows := hu.of (by simp [finishShow])
  have placed : HoldsOrdered (amendPlaced m b i s).shows := by
    simp only [amendPlaced]
    repeat' split
    · exact amendTimes_ordered (setShow_ordered h)
    · exact setShow_ordered h
    · exact setShow_ordered h
  have asked := placed.of (amendAsked_shows m b i s)
  rw [applyAmend_eq]
  refine ended ?_
  split
  · exact recompute_ordered asked
  · exact asked

theorem showAmend_ordered (b : ShowBody) (capture : List Byte) (h : HoldsOrdered s.shows) :
    HoldsOrdered (showAmend b capture s).shows := by
  simp only [showAmend]
  split
  · exact h.of (by simp)
  · split
    case h_1 | h_2 | h_3 => exact h.of (by simp)
    case h_4 =>
      repeat' split
      · exact h.of (by simp)
      · exact h.of (by simp)
      · exact applyAmend_ordered _ b capture _ h

theorem endTally_ordered {code : OutcomeCode} {i : ShowIx} {before : ShowRec} {capture : List Byte}
    (h : HoldsOrdered s.shows) : HoldsOrdered (endTally code i before capture s).shows :=
  (recompute_ordered (i := i) (before := before) (capture := capture) h).of
    (by simp [endTally, finishAvail])

theorem applySale_ordered (b : SaleBody) (capture : List Byte) (i : ShowIx)
    (h : HoldsOrdered s.shows) : HoldsOrdered (applySale b capture i s).shows := by
  simp only [applySale]
  split
  · exact endTally_ordered (setShow_ordered h)
  · split
    · exact endTally_ordered (setShow_ordered h)
    · split
      · exact endTally_ordered (setShow_ordered (handMirror_ordered (freeHold_ordered _ h)))
      · exact endTally_ordered (setShow_ordered h)

theorem takeSale_ordered (b : SaleBody) (capture : List Byte) (h : HoldsOrdered s.shows) :
    HoldsOrdered (takeSale b capture s).shows := by
  unfold takeSale
  split
  · exact h.of (by simp)
  · split
    case h_1 => exact h.of (by simp)
    case h_2 => exact h.of (by simp [finishAvail])
    case h_3 =>
      repeat' split
      · exact h.of (by simp)
      · exact h.of (by simp)
      · exact applySale_ordered b capture _ h

theorem takeRefund_ordered (n seats : Nat) (capture : List Byte) (h : HoldsOrdered s.shows) :
    HoldsOrdered (takeRefund n seats capture s).shows := by
  simp only [takeRefund]
  split
  · exact h.of (by simp)
  · split
    · exact h.of (by simp)
    · split
      · exact h.of (by simp)
      · exact endTally_ordered (setShow_ordered h)

theorem takeBlock_ordered (n : Nat) (delta : Int) (capture : List Byte) (h : HoldsOrdered s.shows) :
    HoldsOrdered (takeBlock n delta capture s).shows := by
  simp only [takeBlock]
  split
  · exact h.of (by simp)
  · split
    case h_1 => exact h.of (by simp)
    case h_2 => exact h.of (by simp [finishAvail])
    case h_3 =>
      split
      · exact h.of (by simp [finishAvail])
      · exact endTally_ordered (setShow_ordered h)

theorem placeHold_ordered {d : DeskIx} {seq : Byte} {i : ShowIx} {seats : Nat} {k : HoldIx}
    (h : HoldsOrdered s.shows) (hk : holdAt s k = none) :
    HoldsOrdered (placeHold d seq i seats k s).shows := by
  have ended {u : State} (m : DeskMsg) (hu : HoldsOrdered u.shows) : HoldsOrdered
      (sendDesk d seq m (commitShow i s.shows.recs[i] (handMirror (.hold k) u))).shows :=
    hu.of (by simp)
  refine ended _ (recompute_ordered (h.enter (l := s.shows.holdList) (k := k) ?_ rfl rfl))
  intro listed
  have used := h.inUse k listed
  unfold holdAt at hk
  rw [hk] at used
  cases used

theorem takeHold_ordered (e : IntakeEntry) (h : HoldsOrdered s.shows) :
    HoldsOrdered (takeHold e s).shows := by
  simp only [takeHold]
  split
  case h_1 hf =>
    refine placeHold_ordered h ?_
    simpa using List.find?_some hf
  all_goals exact h.of (by simp)

theorem extendHold_ordered (e : IntakeEntry) (ref : Nat) (k : HoldIx) (x : HoldRec)
    (h : HoldsOrdered s.shows) : HoldsOrdered (extendHold e ref k x s).shows := by
  have ended {u : State} (m : DeskMsg) (hu : HoldsOrdered u.shows) : HoldsOrdered
      (sendDesk e.desk e.seq m (handMirror (.hold k) u)).shows := hu.of (by simp)
  have left : HoldsOrdered { s.shows with holdList := s.shows.holdList.filter (· != k) } :=
    h.filter rfl fun _ _ => rfl
  exact ended _ (left.enter (by simp) rfl rfl)

theorem takeExtend_ordered (e : IntakeEntry) (h : HoldsOrdered s.shows) :
    HoldsOrdered (takeExtend e s).shows := by
  simp only [takeExtend]
  split
  · exact h.of (by simp)
  · split
    · exact h.of (by simp)
    · split
      · exact h.of (by simp)
      · exact extendHold_ordered _ _ _ _ h

theorem freeAndCommit_ordered (k : HoldIx) (x : HoldRec) (h : HoldsOrdered s.shows) :
    HoldsOrdered (freeAndCommit k x s).shows := by
  have ended {u : State} (hu : HoldsOrdered u.shows) : HoldsOrdered
      (commitShow x.showIx s.shows.recs[x.showIx] (handMirror (.hold k) u)).shows := hu.of (by simp)
  exact ended (recompute_ordered (freeHold_ordered k h))

theorem takeRelease_ordered (e : IntakeEntry) (h : HoldsOrdered s.shows) :
    HoldsOrdered (takeRelease e s).shows := by
  simp only [takeRelease]
  split
  · exact h.of (by simp)
  · split
    · exact h.of (by simp)
    · exact sendDesk_ordered (freeAndCommit_ordered _ _ h)

theorem lobbyReset_ordered (s : State) : HoldsOrdered (lobbyReset s).shows := by
  obtain ⟨q, v, links, he, -⟩ := lobbyReset_only s
  rw [he]
  exact ⟨nofun, .nil, .nil⟩

theorem adopt_ordered (o : Owner) (c : Settings) (h : HoldsOrdered s.shows) :
    HoldsOrdered (adopt o c s).shows := by
  cases o
  case showTable =>
    obtain ⟨-, holds, list, -⟩ := adoptShows_shows c.shows s
    simp only [adopt]
    exact h.congr holds list
  all_goals exact h.of (by simp [adopt])

/-! ## Every command, for the Hold List -/

theorem takeEntry_ordered {k : EntryKind} {act : Flight → State → State}
    (h : HoldsOrdered s.shows) (ha : ∀ f, HoldsOrdered (act f s).shows) :
    HoldsOrdered (takeEntry k act s).shows := by
  unfold takeEntry; split
  · exact ha _
  · exact h

theorem takeRequest_ordered {k : DeskKind} {act : IntakeEntry → State → State}
    (h : HoldsOrdered s.shows) (ha : ∀ e {t : State}, HoldsOrdered t.shows → HoldsOrdered (act e t).shows) :
    HoldsOrdered (takeRequest k act s).shows := by
  unfold takeRequest; split
  · exact ha _ h
  · exact h

theorem withShow_ordered (f : Flight) {act : ShowIx → State → State}
    (h : HoldsOrdered s.shows) (ha : ∀ i, HoldsOrdered (act i s).shows) :
    HoldsOrdered (withShow f act s).shows := by
  unfold withShow; split
  · exact h.of (by simp)
  · exact ha _

theorem execSettingsEvent_ordered (o : Owner) (h : HoldsOrdered s.shows) :
    Answers (HoldsOrdered ·.shows) (execSettingsEvent o s) := by
  have settled {u : State} (hu : HoldsOrdered u.shows) : HoldsOrdered (settleConfigure o u).shows :=
    hu.of (by simp)
  have popped (q : List (Owner × Settings)) :
      HoldsOrdered ({ s with win := { s.win with settingsQ := q } } : State).shows := h
  refine answers_next.mpr ?_
  split
  · exact settled (adopt_ordered o _ (popped _))
  · exact h

/-- Every command keeps the Hold List in its order. -/
theorem exec_holdsOrdered (c : Instr) (h : HoldsOrdered s.shows) :
    Answers (HoldsOrdered ·.shows) (exec c s) := by
  by_cases hp : Part.shows ∈ mayChange c
  · cases c <;> simp only [mayChange, List.mem_cons, List.not_mem_nil, reduceCtorEq, or_self] at hp
    case powerOnReset links => exact answers_next.mpr ⟨nofun, .nil, .nil⟩
    case lobbyReset w =>
      exact answers_answer.mpr fun hw => writeControl_reset hw ▸ lobbyReset_ordered _
    case settingsEvent o => exact execSettingsEvent_ordered o h
    case clockSet =>
      refine answers_next.mpr (takeEntry_ordered h fun f => ?_)
      dsimp only
      split
      · exact finishClockSet_ordered _ _ _ h
      · exact h
    case catchUp =>
      refine answers_next.mpr ?_
      split
      · exact catchUp_ordered _ _ h
      · exact finishClockSet_ordered _ _ _ h
      · exact h
    case showLoad =>
      refine answers_next.mpr (takeEntry_ordered h fun f => ?_)
      simp only [showLoad]
      repeat' split
      case isFalse => exact loadShow_ordered _ _ h
      all_goals exact h.of (by simp)
    case showAmend => exact answers_next.mpr (takeEntry_ordered h fun _ => showAmend_ordered _ _ h)
    case showHalt =>
      exact answers_next.mpr (takeEntry_ordered h fun f => withShow_ordered f h (haltShow_ordered · h))
    case showResume =>
      exact answers_next.mpr (takeEntry_ordered h fun f => withShow_ordered f h (resumeShow_ordered · h))
    case showCancel =>
      exact answers_next.mpr (takeEntry_ordered h fun f => withShow_ordered f h (cancelShow_ordered · h))
    case showDrop =>
      exact answers_next.mpr (takeEntry_ordered h fun f => withShow_ordered f h (dropShow_ordered · h))
    case sale => exact answers_next.mpr (takeEntry_ordered h fun _ => takeSale_ordered _ _ h)
    case refund => exact answers_next.mpr (takeEntry_ordered h fun _ => takeRefund_ordered _ _ _ h)
    case block => exact answers_next.mpr (takeEntry_ordered h fun _ => takeBlock_ordered _ _ _ h)
    case hold => exact answers_next.mpr (takeRequest_ordered h fun e _ => takeHold_ordered e)
    case extend => exact answers_next.mpr (takeRequest_ordered h fun e _ => takeExtend_ordered e)
    case release => exact answers_next.mpr (takeRequest_ordered h fun e _ => takeRelease_ordered e)
    case holdExpiry =>
      refine answers_next.mpr ?_
      split
      · exact h
      · split
        · exact h
        · split
          · exact sendDesk_ordered (freeAndCommit_ordered _ _ h)
          · exact h
  · intro t ht
    exact h.of (commandsKeepToTheirParts c s t .shows ht hp).symm

/-! ## The due list -/

/-- The due list holds at most one entry a show, by due time, ties to the lowest show index (R3). -/
structure DueOrdered (q : List DueEntry) : Prop where
  once : (q.map (·.showIx)).Nodup
  byDue : q.Pairwise fun a b => a.due < b.due ∨ a.due = b.due ∧ a.showIx.val < b.showIx.val

theorem DueOrdered.sublist {p q : List DueEntry} (h : DueOrdered q) (hp : p.Sublist q) :
    DueOrdered p := ⟨h.once.sublist (hp.map _), h.byDue.sublist hp⟩

theorem before_iff {a b : DueEntry} :
    a.before b = true ↔ a.due < b.due ∨ a.due = b.due ∧ a.showIx.val < b.showIx.val := by
  simp [DueEntry.before]

theorem insertDue_perm (e : DueEntry) (q : List DueEntry) : (insertDue e q).Perm (e :: q) := by
  induction q with
  | nil => exact .refl _
  | cons x rest ih =>
    unfold insertDue
    split
    · exact .refl _
    · exact (ih.cons x).trans (.swap e x rest)

theorem insertDue_ordered {e : DueEntry} {q : List DueEntry} (h : DueOrdered q)
    (he : ∀ x ∈ q, x.showIx ≠ e.showIx) : DueOrdered (insertDue e q) := by
  constructor
  · rw [((insertDue_perm e q).map (·.showIx)).nodup_iff]
    refine List.nodup_cons.mpr ⟨fun hm => ?_, h.once⟩
    obtain ⟨x, hx, same⟩ := List.mem_map.mp hm
    exact he x hx same
  · have sorted := h.byDue
    clear h
    induction q with
    | nil => exact .cons nofun .nil
    | cons x rest ih =>
      obtain ⟨first, rest'⟩ := List.pairwise_cons.mp sorted
      unfold insertDue
      split
      case isTrue hb =>
        have ahead := before_iff.mp hb
        refine List.pairwise_cons.mpr ⟨fun y hy => ?_, sorted⟩
        rcases List.mem_cons.mp hy with rfl | hy
        · exact ahead
        · have := first y hy
          omega
      case isFalse hb =>
        have behind : x.due < e.due ∨ x.due = e.due ∧ x.showIx.val < e.showIx.val := by
          have hn := mt before_iff.mpr hb
          have differ : x.showIx.val ≠ e.showIx.val := fun h => he x (.head _) (Fin.ext h)
          omega
        refine List.pairwise_cons.mpr ⟨fun y hy => ?_, ih (fun y hy => he y (.tail _ hy)) rest'⟩
        rcases List.mem_cons.mp ((insertDue_perm e rest).mem_iff.mp hy) with rfl | hy
        · exact behind
        · exact first y hy

theorem withoutDue_ordered {q : List DueEntry} (i : ShowIx) (h : DueOrdered q) :
    DueOrdered (withoutDue i q) := h.sublist List.filter_sublist

theorem withoutDue_other {q : List DueEntry} {i : ShowIx} {x : DueEntry} (hx : x ∈ withoutDue i q) :
    x.showIx ≠ i := by
  simpa using (List.mem_filter.mp hx).2

theorem handDue_ordered (time : Nat) (h : DueOrdered s.clock.dueList) :
    DueOrdered (handDue time s).clock.dueList := by
  simp only [handDue]
  split
  · exact h
  · exact h.sublist (List.dropWhile_sublist _)

/-- Every command keeps the due list in its order. -/
theorem exec_dueOrdered (c : Instr) (h : DueOrdered s.clock.dueList) :
    Answers (DueOrdered ·.clock.dueList) (exec c s) := by
  by_cases hp : Part.clock ∈ mayChange c
  · cases c <;> simp only [mayChange, List.mem_cons, List.not_mem_nil, reduceCtorEq, or_self] at hp
    case powerOnReset links => exact answers_next.mpr ⟨.nil, .nil⟩
    case lobbyReset w =>
      refine answers_answer.mpr fun hw => ?_
      obtain ⟨q, v, links, he, -⟩ := lobbyReset_only (setAlerts w s)
      rw [writeControl_reset hw, he]
      exact ⟨.nil, .nil⟩
    case clockSet =>
      refine answers_next.mpr ?_
      unfold takeEntry
      split
      case h_1 f _ =>
        have set : DueOrdered (setLobby (fieldAt (entryBody f.bytes) 0 4) (withTaken f s)).1.clock.dueList := by
          simp only [setLobby]
          split
          · exact h.sublist (List.dropWhile_sublist _)
          · exact h
        dsimp only
        split
        · simpa using set
        · exact set
      case h_2 => exact h
    case tick =>
      have placed (u : State) (hu : DueOrdered u.clock.dueList) : DueOrdered
          (placeAnchor .clockSet (placeAnchor .partNow (placeAnchor .lobbyNow u))).clock.dueList := by
        simpa using hu
      refine answers_next.mpr ?_
      dsimp only
      split
      · exact handDue_ordered _ (placed (tickTimers (riseClock s)) h)
      · exact placed (tickTimers (riseClock s)) h
    case scheduleRequest =>
      refine answers_next.mpr ?_
      split
      case h_1 e rest _ =>
        have entered := insertDue_ordered (withoutDue_ordered e.showIx h) fun _ => withoutDue_other
        dsimp only
        repeat' split
        · exact withoutDue_ordered _ h
        · exact entered
        · exact entered
      case h_2 => exact h
    case withdrawRequest =>
      refine answers_next.mpr ?_
      split
      · exact withoutDue_ordered _ h
      · exact h
  · intro t ht
    exact (show s.clock = t.clock from commandsKeepToTheirParts c s t .clock ht hp) ▸ h

end

/-- Settles O4: the table's soundness and its two lists are kept command by command. -/
theorem stepsKeepTheShowTableSound : Obligations.StepsKeepTheShowTableSound := by
  intro s t ht
  refine ⟨fun hs => ?_, fun hs => ?_⟩
  · exact step_keeps (fun _ _ h => h.of rfl) (fun c _ h => exec_showsSound c h) hs ht
  · refine step_keeps (fun _ _ h => ⟨h.holdsInUse, h.holdsOnce, h.byExpiry, h.oneDueEach, h.byDue⟩)
      (fun c s h t ht => ?_) hs ht
    obtain ⟨inUse, once, byExpiry⟩ :=
      exec_holdsOrdered c ⟨h.holdsInUse, h.holdsOnce, h.byExpiry⟩ t ht
    obtain ⟨oneDueEach, byDue⟩ := exec_dueOrdered c ⟨h.oneDueEach, h.byDue⟩ t ht
    exact ⟨inUse, once, byExpiry, oneDueEach, byDue⟩

end Sys2Proof.Machine

namespace Sys2Proof.Machine

section
variable {s : State}

/-! ## The Lobby Clock's requests -/

theorem filter_insertDue_out {p : DueEntry → Bool} {e : DueEntry} (he : p e = false)
    (q : List DueEntry) : (insertDue e q).filter p = q.filter p := by
  induction q with
  | nil => simp [insertDue, he]
  | cons x rest ih =>
    unfold insertDue
    split
    · simp [he]
    · simp only [List.filter_cons, ih]

theorem filter_insertDue_alone {p : DueEntry → Bool} {e : DueEntry} (he : p e = true)
    {q : List DueEntry} (hq : ∀ x ∈ q, p x = false) : (insertDue e q).filter p = [e] := by
  have alone := ((insertDue_perm e q).filter p).trans (.of_eq (List.filter_cons_of_pos he))
  rw [show q.filter p = [] from List.filter_eq_nil_iff.mpr fun x hx => by simp [hq x hx]] at alone
  exact List.perm_singleton.mp alone

theorem withoutDue_filter_other (i : ShowIx) (q : List DueEntry) :
    (withoutDue i q).filter (·.showIx != i) = q.filter (·.showIx != i) := by
  simp [withoutDue, List.filter_filter]

theorem withoutDue_filter_same (i : ShowIx) (q : List DueEntry) :
    (withoutDue i q).filter (·.showIx == i) = [] :=
  List.filter_eq_nil_iff.mpr fun x hx => by simpa using withoutDue_other hx

/-- Settles O30: a request first takes the show's older entry off the list, and a schedule request whose due
time is to come is then entered. -/
theorem requestsKeepOneEntryAShow : Obligations.RequestsKeepOneEntryAShow := by
  intro s rest others
  refine ⟨fun e he => ?_, fun i hi => ?_⟩
  · by_cases hdue : s.clock.lobby.any (e.due ≤ ·) = true
    · obtain ⟨now, hnow, hle⟩ : ∃ now, s.clock.lobby = some now ∧ e.due ≤ now := by
        simpa [Option.any_eq_true] using hdue
      refine ⟨handClock (.catchUp now [e]) (setDue (withoutDue e.showIx s.clock.dueList)
        { s with bus := { s.bus with toClock := rest } }), ?_, ⟨rfl, ?_, rfl, rfl⟩, ?_, ?_⟩
      · simp [exec, execScheduleRequest, he, hnow, hle]
      · exact withoutDue_filter_other _ _
      · intro h
        simp [hnow] at h
        omega
      · rintro _ hn -
        obtain rfl := Option.some.inj (hnow.symm.trans hn)
        exact ⟨withoutDue_filter_same _ _, rfl⟩
    · refine ⟨setDue (insertDue e (withoutDue e.showIx s.clock.dueList))
        { s with bus := { s.bus with toClock := rest } }, ?_, ⟨rfl, ?_, rfl, rfl⟩, fun _ => ?_, ?_⟩
      · cases hl : s.clock.lobby with
        | none => simp [exec, execScheduleRequest, he, hl]
        | some now => 
          have : ¬ e.due ≤ now := by simpa [hl] using hdue
          simp [exec, execScheduleRequest, he, hl, this]
      · exact (filter_insertDue_out (by simp) _).trans (withoutDue_filter_other _ _)
      · exact ⟨filter_insertDue_alone (by simp) fun x hx => by simpa using withoutDue_other hx, rfl⟩
      · intro now hn hle
        exact absurd (by simp [hn, hle]) hdue
  · refine ⟨setDue (withoutDue i s.clock.dueList) { s with bus := { s.bus with toClock := rest } },
      ?_, ⟨rfl, withoutDue_filter_other _ _, rfl, rfl⟩, withoutDue_filter_same _ _, rfl⟩
    simp [exec, execWithdrawRequest, hi]

/-! ## The tick -/

/-- The state of a tick when the due list is looked at: counts risen, timers due, clock words placed. -/
def ticked (s : State) : State :=
  placeAnchor .clockSet (placeAnchor .partNow (placeAnchor .lobbyNow (tickTimers (riseClock s))))

theorem handDue_blocks (time : Nat) (s : State) :
    (handDue time s).win = s.win ∧ (handDue time s).arb = s.arb ∧
      (handDue time s).displays = s.displays ∧ (handDue time s).stream = s.stream ∧
      (handDue time s).clock =
        { s.clock with dueList := s.clock.dueList.dropWhile (·.due ≤ time) } ∧
      (handDue time s).bus =
        if s.clock.dueList.takeWhile (·.due ≤ time) = [] then s.bus
        else { s.bus with
          fromClock :=
            s.bus.fromClock ++ [.catchUp time (s.clock.dueList.takeWhile (·.due ≤ time))] } := by
  simp only [handDue]
  split
  case isTrue hnone =>
    have all : s.clock.dueList.dropWhile (·.due ≤ time) = s.clock.dueList := by
      have parts := List.takeWhile_append_dropWhile (p := fun e : DueEntry => decide (e.due ≤ time))
        (l := s.clock.dueList)
      rwa [hnone, List.nil_append] at parts
    exact ⟨rfl, rfl, rfl, rfl, by rw [all], rfl⟩
  case isFalse => exact ⟨rfl, rfl, rfl, rfl, rfl, rfl⟩

/-- What a tick answers: the state as ticked, and where the clock is set what is due handed over. -/
theorem execTick_answers (s : State) : ∃ t, exec .tick s = .next t ∧
    t.win = (ticked s).win ∧ t.arb = (tickTimers (riseClock s)).arb ∧
    t.displays = (tickTimers (riseClock s)).displays ∧
    t.stream = (tickTimers (riseClock s)).stream ∧
    t.clock.partSeconds = tickCount s.clock.partSeconds ∧
    t.clock.lobby = s.clock.lobby.map tickCount ∧
    (s.clock.lobby = none → t.clock.dueList = s.clock.dueList ∧ t.bus = s.bus) ∧
    (∀ now, t.clock.lobby = some now →
      t.clock.dueList = s.clock.dueList.dropWhile (·.due ≤ now) ∧
      t.bus =
        if s.clock.dueList.takeWhile (·.due ≤ now) = [] then s.bus
        else { s.bus with
          fromClock :=
            s.bus.fromClock ++ [.catchUp now (s.clock.dueList.takeWhile (·.due ≤ now))] }) := by
  have clock : (ticked s).clock = (riseClock s).clock := by simp [ticked, tickTimers]
  have bus : (ticked s).bus = s.bus := by simp [ticked, tickTimers, riseClock]
  have arb : (ticked s).arb = (tickTimers (riseClock s)).arb := by simp [ticked]
  have displays : (ticked s).displays = (tickTimers (riseClock s)).displays := by simp [ticked]
  have stream : (ticked s).stream = (tickTimers (riseClock s)).stream := by simp [ticked]
  have answer : exec .tick s = .next (match (ticked s).clock.lobby with
      | some now => handDue now (ticked s)
      | none => ticked s) := rfl
  have lobby : (ticked s).clock.lobby = s.clock.lobby.map tickCount := congrArg (·.lobby) clock
  cases hl : s.clock.lobby with
  | none =>
    rw [hl, Option.map_none] at lobby
    rw [lobby] at answer
    exact ⟨_, answer, rfl, arb, displays, stream, congrArg (·.partSeconds) clock, lobby,
      fun _ => ⟨congrArg (·.dueList) clock, bus⟩, fun _ h => nomatch lobby.symm.trans h⟩
  | some n =>
    rw [hl, Option.map_some] at lobby
    rw [lobby] at answer
    obtain ⟨hwin, harb, hdisplays, hstream, hclock, hbus⟩ := handDue_blocks (tickCount n) (ticked s)
    have due : (ticked s).clock.dueList = s.clock.dueList := congrArg (·.dueList) clock
    refine ⟨_, answer, hwin, harb.trans arb, hdisplays.trans displays, hstream.trans stream, ?_, ?_,
      nofun, fun now hnow => ?_⟩
    · rw [hclock]
      exact congrArg (·.partSeconds) clock
    · rw [hclock]
      exact lobby
    · rw [hclock] at hnow
      obtain rfl : tickCount n = now := Option.some.inj (lobby.symm.trans hnow)
      rw [hclock, hbus, due, bus]
      exact ⟨rfl, rfl⟩

theorem placeAnchor_queue (a : AnchorWord) (s : State) :
    (placeAnchor a s).win = { s.win with writeQ := (placeAnchor a s).win.writeQ } := by
  simp only [placeAnchor, placeWrite_only]

theorem placeIn_filter {w : WindowWrite} {p : WindowWrite → Bool}
    (hp : ∀ x : WindowWrite, x.target = w.target → p x = false) (q : List WindowWrite) :
    (placeIn w q).filter p = q.filter p := by
  induction q with
  | nil => simp [placeIn, hp w rfl]
  | cons x rest ih =>
    unfold placeIn
    split
    case isTrue e => simp [hp w rfl, hp x e]
    case isFalse => simp only [List.filter_cons, ih]

theorem placeAnchor_filter {a : AnchorWord} {p : WindowWrite → Bool} {s : State}
    (hp : ∀ x : WindowWrite, x.target = .anchor a → p x = false) :
    (placeAnchor a s).win.writeQ.filter p = s.win.writeQ.filter p := by
  simp only [placeAnchor, placeWrite_only]
  split
  · exact placeIn_filter hp _
  · rfl

/-- A word that stands on the write path stays there when another word is placed. -/
theorem WordPlaced.behind {a b : AnchorWord} {offset : Nat} {bytes : List Byte}
    (h : WordPlaced a offset bytes s) (hab : a ≠ b) : WordPlaced a offset bytes (placeAnchor b s) := by
  unfold WordPlaced at *
  rw [placeAnchor_queue]
  exact (mem_placeAnchor_other fun e => hab (WriteTarget.anchor.inj e)).mpr h

theorem tickTimers_display (s : State) (d : DisplayIx) :
    (tickTimers s).displays.recs[d] = tickDwell s.displays.recs[d] := by
  simp only [tickTimers, Fin.getElem_fin, Vector.getElem_map]

theorem tickTimers_arb (s : State) (d : DisplayIx) :
    (tickTimers s).arb.recs[d] = tickCover s.clock.partSeconds s.arb.cfg.minCover s.arb.recs[d] := by
  simp only [tickTimers, Fin.getElem_fin, Vector.getElem_map]

theorem tickTimers_stream (s : State) (d : DisplayIx) :
    (tickTimers s).stream.recs[d] =
      tickUnderrun s.clock.partSeconds s.stream.cfg.underrunLimit s.stream.recs[d] := by
  simp only [tickTimers, Fin.getElem_fin, Vector.getElem_map]

theorem tickDwell_counts {r : DisplayRec} (h1 : 1 < r.dwellLeft) (h2 : r.suspended = false)
    (h3 : r.segment = .board ∨ r.segment = .house) (h4 : r.dwellDue = false) :
    tickDwell r = { r with dwellLeft := r.dwellLeft - 1 } := by
  rw [tickDwell, if_pos ⟨h3, h2, h4⟩, if_pos h1]

theorem tickDwell_ends {r : DisplayRec} (h1 : r.dwellLeft = 1) (h2 : r.suspended = false)
    (h3 : r.segment = .board ∨ r.segment = .house) : tickDwell r = { r with dwellDue := true } := by
  unfold tickDwell
  by_cases h4 : r.dwellDue = false
  · rw [if_pos ⟨h3, h2, h4⟩, if_neg (by omega), if_pos h1]
  · rw [if_neg fun h => h4 h.2.2]
    have due : r.dwellDue = true := by simpa using h4
    rw [← due]

theorem tickDwell_stays {r : DisplayRec}
    (h : r.suspended = true ∨ r.segment ≠ .board ∧ r.segment ≠ .house) : tickDwell r = r := by
  refine if_neg fun ⟨hseg, hsus, _⟩ => ?_
  rcases h with h | ⟨hb, hh⟩
  · exact absurd (h.symm.trans hsus) nofun
  · exact hseg.elim hb hh

theorem ticked_invalid (h : s.win.windowValid = false) : (ticked s).win = s.win := by
  have hu : (tickTimers (riseClock s)).win.windowValid = false := h
  rw [ticked, placeAnchor_invalid _ hu, placeAnchor_invalid _ hu, placeAnchor_invalid _ hu]
  rfl

theorem ticked_words (h : s.win.windowValid = true) :
    WordPlaced .lobbyNow 68 (leBytes 4 ((s.clock.lobby.map tickCount).getD 0)) (ticked s) ∧
      WordPlaced .partNow 72 (leBytes 4 (tickCount s.clock.partSeconds)) (ticked s) ∧
      WordPlaced .clockSet 76 [if (s.clock.lobby.map tickCount).isSome = true then 1 else 0]
        (ticked s) := by
  have first := placeAnchor_placed .lobbyNow (s := tickTimers (riseClock s)) h
  have second := placeAnchor_placed .partNow (s := placeAnchor .lobbyNow (tickTimers (riseClock s)))
    (by simpa using h)
  have third := placeAnchor_placed .clockSet
    (s := placeAnchor .partNow (placeAnchor .lobbyNow (tickTimers (riseClock s)))) (by simpa using h)
  refine ⟨(first.behind (by decide)).behind (by decide), ?_, ?_⟩
  · have word : anchorBytes (placeAnchor .lobbyNow (tickTimers (riseClock s))) .partNow =
        leBytes 4 (tickCount s.clock.partSeconds) := by
      simp [anchorBytes, tickTimers, riseClock]
    exact word ▸ second.behind (by decide)
  · have word : anchorBytes
        (placeAnchor .partNow (placeAnchor .lobbyNow (tickTimers (riseClock s)))) .clockSet =
        [if (s.clock.lobby.map tickCount).isSome = true then 1 else 0] := by
      cases hl : s.clock.lobby <;>
        simp [anchorBytes, tickTimers, riseClock, hl, leBytes]
    exact word ▸ third

theorem ticked_others (s : State) :
    let other (x : WindowWrite) : Bool :=
      x.target != .anchor .lobbyNow && x.target != .anchor .partNow && x.target != .anchor .clockSet
    (ticked s).win = { s.win with writeQ := (ticked s).win.writeQ } ∧
      (ticked s).win.writeQ.filter other = s.win.writeQ.filter other := by
  intro other
  constructor
  · rw [ticked, placeAnchor_queue .clockSet, placeAnchor_queue .partNow, placeAnchor_queue .lobbyNow]
    rfl
  · rw [ticked, placeAnchor_filter, placeAnchor_filter, placeAnchor_filter]
    · rfl
    all_goals
      intro x hx
      simp [other, hx]

/-- Settles O29: the counts, the timers and the words of the tick, and what is due behind them. -/
theorem tickRaisesTheCounts : Obligations.TickRaisesTheCounts := by
  intro s
  obtain ⟨t, ht, win, arb, displays, stream, part, lobby, unset, due⟩ := execTick_answers s
  have display (d : DisplayIx) : t.displays.recs[d] = tickDwell s.displays.recs[d] := by
    rw [displays]
    exact tickTimers_display _ d
  refine ⟨t, ht, part, lobby, unset, due,
    fun d h1 h2 h3 h4 => (display d).trans (tickDwell_counts h1 h2 h3 h4),
    fun d h1 h2 h3 => (display d).trans (tickDwell_ends h1 h2 h3),
    fun d h => (display d).trans (tickDwell_stays h), fun d => ?_, fun d => ?_,
    fun hv => win.trans (ticked_invalid hv), fun hv => ?_⟩
  · rw [arb, part]
    exact tickTimers_arb _ d
  · rw [stream, part]
    exact tickTimers_stream _ d
  · obtain ⟨lobbyNow, partNow, clockSet⟩ := ticked_words hv
    rw [lobby, part]
    unfold WordPlaced at *
    rw [win]
    exact ⟨lobbyNow, partNow, clockSet, ticked_others s⟩

end

end Sys2Proof.Machine

namespace Sys2Proof.Machine

section
variable {s : State}

/-! ## Raises -/

theorem exec_faultRaise {who : Raiser} {x : Raise} {rest : List (Raiser × Raise)}
    (h : s.bus.raises = (who, x) :: rest) :
    exec (.faultRaise who) s = .next (takeRaise x { s with bus := { s.bus with raises := rest } }) := by
  simp [exec, execFaultRaise, h, takeFirst]

theorem record_first {r : SeverityRec} (h : r.first = none) (x : Raise) (now : Nat) :
    r.record x now = { r with first := some ⟨x.cause, x.source, now, x.capture⟩ } := by
  simp only [SeverityRec.record, h]

/-- A raise behind the first joins the next record: its cause is in the set, and the count rises (R176). -/
theorem record_next {r : SeverityRec} (h : r.first ≠ none) (x : Raise) (now : Nat) :
    (r.record x now).first = r.first ∧ (r.record x now).count = min (r.count + 1) 65535 ∧
      ∀ y, y ∈ (r.record x now).causes ↔ y ∈ r.causes ∨ y = x.cause := by
  obtain ⟨first, hfirst⟩ := Option.ne_none_iff_exists'.mp h
  simp only [SeverityRec.record, hfirst, sat16, true_and]
  refine ⟨rfl, fun y => ?_⟩
  split
  case isTrue hc =>
    refine ⟨.inl, fun hy => hy.elim id fun e => ?_⟩
    exact e ▸ List.contains_iff_mem.mp hc
  case isFalse => simp

theorem takeRaise_masked {x : Raise} {c : CauseSettings} (hc : s.faults.cfg[x.cause.code] = c)
    (h : c.detectMask = true) : takeRaise x s = s := if_pos (hc ▸ h)

theorem takeRaise_detected {x : Raise} {c : CauseSettings} (hc : s.faults.cfg[x.cause.code] = c)
    (h : c.detectMask = false) :
    (takeRaise x s).faults =
        s.faults.replaced c.severity ((s.faults.of c.severity).record x (s.clock.lobby.getD 0)) ∧
      (takeRaise x s).bus = s.bus ∧
      (takeRaise x s).win.causes =
        (if c.signalMask = true then s.win.causes
         else if c.severity = .severe then { s.win.causes with severe := true }
         else { s.win.causes with minor := true }) := by
  simp only [takeRaise, hc, h, Bool.false_eq_true, if_false]
  split
  case isTrue => exact ⟨by simp [lobbyStamp], by simp, by simp⟩
  case isFalse =>
    refine ⟨by simp [signal, lobbyStamp], by simp [signal], ?_⟩
    cases c.severity <;> simp [signal]

/-- Settles O59: the raise is masked, or fills the first record, or joins the next. -/
theorem raisesAreRecorded : Obligations.RaisesAreRecorded := by
  intro s who x rest hq c before
  refine ⟨_, exec_faultRaise hq, ?_⟩
  by_cases hd : c.detectMask = true
  · have masked := takeRaise_masked (x := x) (c := c)
      (s := { s with bus := { s.bus with raises := rest } }) rfl hd
    simp only [masked]
    exact ⟨trivial, trivial, fun _ _ => trivial, fun _ => ⟨trivial, trivial⟩, fun h => absurd (hd.symm.trans h) nofun⟩
  · obtain ⟨faults, bus, causes⟩ := takeRaise_detected (x := x) (c := c)
      (s := { s with bus := { s.bus with raises := rest } }) rfl (by simpa using hd)
    rw [faults, bus]
    refine ⟨rfl, replaced_cfg _ _ _, fun other ho => replaced_of_other _ _ _ _ ho,
      fun h => absurd h hd, fun _ => ?_⟩
    rw [replaced_of]
    exact ⟨fun hf => record_first hf _ _, fun hf => record_next hf _ _, causes⟩

/-! ## ASK -/

theorem exec_ask {e : IntakeEntry} (h : requestInHand .ask s = some e) :
    exec .ask s = .next (sendDesk e.desk e.seq (showStatus s (fieldAt e.body 0 1))
      { s with desks := { s.desks with inHand := none } }) :=
  congrArg Host.Outcome.next (takeRequest_inHand h _)

theorem showStatus_beyond {n : Nat} (h : 64 ≤ n) (s : State) :
    showStatus s n = .showStatus n 0 .empty 0 .openHouse 0 false false := by
  rw [showStatus, indexOf?_of_le h]

theorem showStatus_of_show {n : Nat} {i : ShowIx} (h : n = i.val) (s : State) :
    showStatus s n =
      let sh := s.shows.recs[i]
      .showStatus n sh.showCode sh.state sh.avail sh.band sh.seatsShown sh.plusMarker sh.oversold := by
  subst h
  rw [showStatus, indexOf?_val]

/-- Settles O43: the reply is all that an ASK sends. -/
theorem askAnswersTheShowStatus : Obligations.AskAnswersTheShowStatus := by
  intro s e he hroom n
  have room : HasRoom { s with desks := { s.desks with inHand := none } } e.desk := hroom
  have told : Told e.desk e.seq (showStatus s n) s (sendDesk e.desk e.seq (showStatus s n)
      { s with desks := { s.desks with inHand := none } }) := sendDesk_told room _ _
  refine ⟨_, exec_ask he, ?_, fun hn => told.trans ?_, fun i hi => told.trans ?_⟩
  · rw [sendDesk_room room]
    rfl
  · rw [showStatus_beyond hn]
  · rw [showStatus_of_show hi]

/-! ## The intake hand, the transmitters, the refresh -/

theorem kick_enabled {p : Port} {f : DeskFrame} {rest : List DeskFrame} (he : p.state = .enabled)
    (hq : p.replyQ = f :: rest) :
    Port.kick { p with tx := none } = { p with tx := some f, replyQ := rest } := by
  simp [Port.kick, he, hq]

theorem kick_idle {p : Port} (h : p.replyQ = [] ∨ p.state ≠ .enabled) :
    Port.kick { p with tx := none } = { p with tx := none } := by
  unfold Port.kick
  split
  case h_1 he _ hq =>
    rcases h with h | h
    · cases h.symm.trans hq
    · exact absurd he h
  case h_2 => rfl

/-- The state when the intake hand has taken the head of the intake queue (R65). -/
def handTaken (e : IntakeEntry) (rest : List IntakeEntry) (s : State) : State :=
  { s with desks := { s.desks with intake := rest, inHand := some e } }

theorem exec_intakeHand {e : IntakeEntry} {rest : List IntakeEntry} (hh : s.desks.inHand = none)
    (hq : s.desks.intake = e :: rest) :
    exec .intakeHand s = .next
      (if s.desks.paused ∧ rest.length ≤ s.desks.cfg.pauseOff then clearPaused (handTaken e rest s)
       else handTaken e rest s) := by
  simp only [exec, execIntakeHand, hh, hq, handTaken]

theorem clearPaused_desks (s : State) :
    (clearPaused s).desks.inHand = s.desks.inHand ∧ (clearPaused s).desks.intake = s.desks.intake ∧
      (clearPaused s).desks.paused = false ∧ (clearPaused s).desks.pauseTimer = none ∧
      ∀ d : DeskIx, (clearPaused s).desks.ports[d] = pausePlaced 0 s.desks.ports[d] := by
  simp only [clearPaused, pauseAll_desks]
  exact ⟨trivial, trivial, trivial, trivial, pauseAll_ports 0 s⟩

theorem exec_pauseRefreshExpiry (hp : s.desks.paused = true) (ht : s.desks.pauseTimer = some 0) :
    ∃ t, exec .pauseRefreshExpiry s = .next t ∧ t.desks.intake = s.desks.intake ∧
      t.desks.paused = true ∧ t.desks.pauseTimer = some (refreshPeriod s.desks.cfg) ∧
      ∀ d : DeskIx, t.desks.ports[d] = pausePlaced s.desks.cfg.pauseTime s.desks.ports[d] := by
  have answer : exec .pauseRefreshExpiry s = .next _ := congrArg Host.Outcome.next (if_pos ⟨hp, ht⟩)
  refine ⟨_, answer, ?_⟩
  dsimp only
  simp only [pauseAll_desks, hp, true_and]
  exact pauseAll_ports _ s

theorem pausePlaced_disabled {p : Port} (time : Nat) (h : p.state ≠ .enabled) :
    pausePlaced time p = p := if_pos h

theorem pausePlaced_empty {p : Port} (time : Nat) (h : p.state = .enabled) (hq : p.replyQ = []) :
    pausePlaced time p =
      if p.tx = none then { p with tx := some ⟨0, .pause time⟩ }
      else { p with replyQ := [⟨0, .pause time⟩] } := by
  simp only [pausePlaced, h, hq, ne_eq, not_true_eq_false, if_false]
  cases htx : p.tx <;> simp [Port.kick, ← hq]

/-- Settles O45: the clear of the flag, the transmitter and the refresh each by its own operation. -/
theorem handsAndTransmittersMoveOn : Obligations.HandsAndTransmittersMoveOn := by
  intro s
  refine ⟨fun e rest hh hq => ?_, fun hh => ?_, fun d f rest hq he => ?_, fun d h => ?_,
    fun hp ht => ?_⟩
  · by_cases hc : s.desks.paused ∧ rest.length ≤ s.desks.cfg.pauseOff
    · obtain ⟨hand, intake, paused, timer, ports⟩ := clearPaused_desks (handTaken e rest s)
      refine ⟨_, (exec_intakeHand hh hq).trans (congrArg Host.Outcome.next (if_pos hc)), hand, intake, ?_,
        fun h => ?_, fun _ _ => ⟨timer, ports⟩⟩
      · rw [paused, decide_eq_false (Nat.not_lt.mpr hc.2), Bool.and_false]
      · rcases h with h | h
        · exact absurd (hc.1.symm.trans h) nofun
        · exact absurd hc.2 (Nat.not_le.mpr h)
    · refine ⟨_, (exec_intakeHand hh hq).trans (congrArg Host.Outcome.next (if_neg hc)), rfl, rfl, ?_,
        fun _ => rfl, fun h h' => absurd ⟨h, h'⟩ hc⟩
      change s.desks.paused = _
      cases hp : s.desks.paused
      · rfl
      · exact (decide_eq_true (Nat.lt_of_not_le fun h => hc ⟨hp, h⟩)).symm
  · obtain ⟨e, he⟩ := Option.isSome_iff_exists.mp hh
    simp only [exec, execIntakeHand, he]
  · exact ⟨_, rfl, congrArg (put s.desks.ports d) (kick_enabled he hq), rfl⟩
  · exact ⟨_, rfl, congrArg (put s.desks.ports d) (kick_idle h), rfl⟩
  · obtain ⟨t, answer, intake, paused, timer, ports⟩ := exec_pauseRefreshExpiry hp ht
    refine ⟨t, answer, intake, paused, timer, fun d => ⟨ports d, fun h => ?_, fun h hq => ?_⟩⟩
    · rw [ports, pausePlaced_disabled _ h]
    · rw [ports]
      exact pausePlaced_empty _ h hq

end

end Sys2Proof.Machine

namespace Sys2Proof.Machine

section
variable {s : State} {f : Flight}

/-! ## Refusals and ends of show entries -/

/-- An entry refused changes no show and sends nothing (R164). -/
theorem finish_refused (code : OutcomeCode) (detail : Nat) (hf : s.win.flight = some f)
    (hv : s.win.windowValid = true) :
    (finish code detail s).shows = s.shows ∧ (finish code detail s).bus = s.bus ∧
      EndsWith code detail f (finish code detail s) := by
  rw [finish_inFlight code detail hf hv]
  exact ⟨rfl, rfl, rfl⟩

/-- Nor does one refused where the manual states no detail. -/
theorem finishOpen_refused (code : OutcomeCode) (hf : s.win.flight = some f)
    (hv : s.win.windowValid = true) :
    (finishOpen code s).shows = s.shows ∧ (finishOpen code s).bus = s.bus ∧
      ∃ n, EndsWith code n f (finishOpen code s) := by
  obtain ⟨shows, bus, ends⟩ := finish_refused code (Config.freeDetail s.freeCount).toNat
    (s := { s with freeCount := s.freeCount + 1 }) hf hv
  exact ⟨shows, bus, _, ends⟩

/-- The end of an event of show `i` and of its entry: the outcome carries the code of its state, and the
Show Table is as the event left it. -/
theorem finishShow_commit (fields : ShowRec → ShowRec → List ReportField) (i : ShowIx)
    (before : ShowRec) (hf : s.win.flight = some f) (hv : s.win.windowValid = true) :
    (finishShow i (commitShowAs fields i before s)).shows = s.shows ∧
      (finishShow i (commitShowAs fields i before s)).bus.toClock = s.bus.toClock ∧
      (finishShow i (commitShowAs fields i before s)).bus.toArbiter = s.bus.toArbiter ∧
      (finishShow i (commitShowAs fields i before s)).bus.showReports = s.bus.showReports ++
        (if s.shows.recs[i] = before ∨ fields before s.shows.recs[i] = [] then []
         else [⟨i, fields before s.shows.recs[i], s.shows.recs[i].state == .empty⟩]) ∧
      EndsWith .done s.shows.recs[i].state.code f (finishShow i (commitShowAs fields i before s)) := by
  obtain ⟨flight, valid, -⟩ := commitShowAs_win fields i before s
  have shows : (commitShowAs fields i before s).shows = s.shows := by simp
  obtain ⟨hshows, hbus, ends⟩ := finish_refused .done
    (commitShowAs fields i before s).shows.recs[i].state.code (flight.trans hf) (valid.trans hv)
  obtain ⟨clock, arbiter⟩ := commitShowAs_requests fields i before s
  unfold finishShow
  refine ⟨hshows.trans shows, ?_, ?_, ?_, ?_⟩
  · rw [hbus, clock]
  · rw [hbus, arbiter]
  · rw [hbus, commitShowAs_reports]
  · rwa [shows] at ends ⊢

theorem withShow_beyond {act : ShowIx → State → State} (h : 64 ≤ fieldAt (entryBody f.bytes) 0 1)
    (s : State) : withShow f act s = finishOpen .badIndex s := by
  rw [withShow, indexOf?_of_le h]

theorem withShow_named {act : ShowIx → State → State} {i : ShowIx}
    (h : fieldAt (entryBody f.bytes) 0 1 = i.val) (s : State) : withShow f act s = act i s := by
  rw [withShow, h, indexOf?_val]

/-! ## SHOW_LOAD -/

theorem exec_showLoad (h : handedEntry .showLoad s = some f) :
    exec .showLoad s = .next (showLoad (readShowBody (entryBody f.bytes)) s) :=
  congrArg Host.Outcome.next (takeEntry_handed h _)

theorem showLoad_beyond {b : ShowBody} (h : 64 ≤ b.index) (s : State) :
    showLoad b s = finishOpen .badIndex s := by
  rw [showLoad, indexOf?_of_le h]

theorem showLoad_named {b : ShowBody} {i : ShowIx} (h : b.index = i.val) (s : State) :
    showLoad b s =
      if s.shows.recs[i].state ≠ .empty then finishOpen .inUse s
      else
        match firstBad (showFieldChecks b b.saleOpenField b.start) with
        | some n => finish .badField n s
        | none =>
          if s.clock.lobby.any (fun now => closeTime (amended (fun _ => true) b {}) ≤ now) then
            finishOpen .past s
          else loadShow b i s := by
  rw [showLoad, h, indexOf?_val] <;> rfl

/-- The state a load gives a show: placed by its times, or WAITING while the clock is UNSET (R9). -/
def loadState (new : ShowRec) (lobby : Option Nat) : ShowState :=
  match lobby with
  | some now => placedState new now
  | none => .waiting

theorem schedule_bus {i : ShowIx} {st : ShowState} {s : State} :
    (schedule i st s).bus.toClock = s.bus.toClock ++
        ((dueTime s.shows.recs[i] st).map fun due => ClockRequest.schedule ⟨i, st, due⟩).toList ∧
      (schedule i st s).bus.toArbiter = s.bus.toArbiter ∧
      (schedule i st s).bus.showReports = s.bus.showReports := by
  unfold schedule
  split
  case h_1 due hd => rw [hd]; exact ⟨rfl, rfl, rfl⟩
  case h_2 hd => rw [hd]; exact ⟨(List.append_nil _).symm, rfl, rfl⟩

/-- The record of a load before its tally is counted (R9). -/
def loadedRec (b : ShowBody) (lobby : Option Nat) : ShowRec :=
  { amended (fun _ => true) b {} with
    state := loadState (amended (fun _ => true) b {}) lobby, clockWait := lobby.isNone }

theorem loadedRec_state (b : ShowBody) (lobby : Option Nat) :
    (loadedRec b lobby).state ≠ .empty := by
  cases lobby with
  | none => exact nofun
  | some now => exact placedState_ne_empty _ _

/-- The slot of a load filled, and its first transition scheduled where the clock is set (R9). -/
def loadPlaced (b : ShowBody) (i : ShowIx) (s : State) : State :=
  match s.clock.lobby with
  | some now =>
    schedule i (placedState (amended (fun _ => true) b {}) now)
      (setShow i { amended (fun _ => true) b {} with
        state := placedState (amended (fun _ => true) b {}) now } s)
  | none => setShow i { amended (fun _ => true) b {} with state := .waiting, clockWait := true } s

theorem loadShow_eq (b : ShowBody) (i : ShowIx) (s : State) :
    loadShow b i s = finishShow i (reportShow i allReportFields (handMirror (.showRec i)
      (retally i .openHouse (loadPlaced b i s)))) := rfl

theorem loadPlaced_effect (b : ShowBody) (i : ShowIx) (s : State) :
    (loadPlaced b i s).shows =
        { s.shows with recs := put s.shows.recs i (loadedRec b s.clock.lobby) } ∧
      (loadPlaced b i s).win = s.win ∧ (loadPlaced b i s).bus.showReports = s.bus.showReports ∧
      (loadPlaced b i s).bus.toClock = s.bus.toClock ++
        (if s.clock.lobby.isNone then []
         else ((dueTime (amended (fun _ => true) b {})
            (loadState (amended (fun _ => true) b {}) s.clock.lobby)).map
              fun due => ClockRequest.schedule ⟨i, loadState (amended (fun _ => true) b {}) s.clock.lobby,
                due⟩).toList) := by
  unfold loadPlaced loadedRec loadState
  cases s.clock.lobby with
  | none => exact ⟨rfl, rfl, rfl, (List.append_nil _).symm⟩
  | some now =>
    obtain ⟨clock, -, reports⟩ := schedule_bus (i := i) (st := (loadedRec b (some now)).state)
      (s := setShow i (loadedRec b (some now)) s)
    refine ⟨?_, ?_, reports, ?_⟩
    · exact (schedule_keeps i _ (setShow i (loadedRec b (some now)) s)).2.2.2.1
    · exact (schedule_keeps i _ (setShow i (loadedRec b (some now)) s)).2.1
    · rw [setShow_recs, put_same] at clock
      exact clock

theorem loadShow_ends (i : ShowIx) (hf : s.win.flight = some f) (hv : s.win.windowValid = true) :
    let t := finishShow i (reportShow i allReportFields (handMirror (.showRec i) s))
    t.shows = s.shows ∧
      t.bus = { s.bus with
        showReports :=
          s.bus.showReports ++ [⟨i, allReportFields, s.shows.recs[i].state == .empty⟩] } ∧
      EndsWith .done s.shows.recs[i].state.code f t := by
  have shows : (reportShow i allReportFields (handMirror (.showRec i) s)).shows = s.shows := by simp
  obtain ⟨hshows, hbus, ends⟩ := finish_refused .done
    (reportShow i allReportFields (handMirror (.showRec i) s)).shows.recs[i].state.code
    (s := reportShow i allReportFields (handMirror (.showRec i) s)) (f := f)
    (by simpa using hf) (by simpa using hv)
  refine ⟨hshows.trans shows, hbus.trans ?_, ?_⟩
  · simp [reportShow, allReportFields]
  · rw [shows] at ends
    rw [finishShow, shows]
    exact ends

theorem loadShow_effect (b : ShowBody) (i : ShowIx) (hf : s.win.flight = some f)
    (hv : s.win.windowValid = true) :
    (loadShow b i s).shows = { s.shows with
      recs := put s.shows.recs i
        (tally s.shows.cfg.bandSets[(loadedRec b s.clock.lobby).bandSet] .openHouse
          (loadedRec b s.clock.lobby)) } ∧
      EndsWith .done (loadedRec b s.clock.lobby).state.code f (loadShow b i s) ∧
      (loadShow b i s).bus.showReports = s.bus.showReports ++ [⟨i, allReportFields, false⟩] ∧
      (loadShow b i s).bus.toClock = (loadPlaced b i s).bus.toClock := by
  obtain ⟨shows, win, reports, -⟩ := loadPlaced_effect b i s
  rw [loadShow_eq]
  have counted : (retally i .openHouse (loadPlaced b i s)).shows = { s.shows with
      recs := put s.shows.recs i
        (tally s.shows.cfg.bandSets[(loadedRec b s.clock.lobby).bandSet] .openHouse
          (loadedRec b s.clock.lobby)) } := by
    simp only [retally, setShow, shows, put_same, put_put_same]
  generalize hu : retally i .openHouse (loadPlaced b i s) = u at counted
  have uwin : u.win = s.win := hu ▸ win
  have ubus : u.bus = (loadPlaced b i s).bus := hu ▸ rfl
  obtain ⟨hshows, hbus, ends⟩ := loadShow_ends (s := u) i (uwin ▸ hf) (uwin ▸ hv)
  refine ⟨hshows.trans counted, ?_, ?_, ?_⟩
  · rw [counted, put_same] at ends
    exact ends
  · rw [hbus, counted, put_same, ubus, reports]
    have used : ((loadedRec b s.clock.lobby).state == .empty) = false :=
      beq_eq_false_iff_ne.mpr (loadedRec_state _ _)
    exact congrArg (fun e => s.bus.showReports ++ [(⟨i, allReportFields, e⟩ : ShowReport)]) used
  · rw [hbus, ubus]

/-- Settles O33, by the checks of a load in order. -/
theorem showLoadFillsAnEmptySlot : Obligations.ShowLoadFillsAnEmptySlot := by
  intro s f ⟨hf, hv⟩ b new checks
  have flight := handedEntry_flight hf
  refine ⟨_, exec_showLoad hf, fun hi => ?_, fun i hi => ?_⟩
  · rw [showLoad_beyond hi]
    obtain ⟨shows, -, ends⟩ := finishOpen_refused .badIndex flight hv
    exact ⟨ends, shows⟩
  · rw [showLoad_named hi]
    refine ⟨fun hs => ?_, fun n hs hc => ?_, fun now hs hc hl hle => ?_, fun hs hc hl => ?_⟩
    · rw [if_pos hs]
      obtain ⟨shows, -, ends⟩ := finishOpen_refused .inUse flight hv
      exact ⟨ends, shows⟩
    · rw [if_neg (not_not.mpr hs), show firstBad _ = some n from hc]
      obtain ⟨shows, -, ends⟩ := finish_refused .badField n flight hv
      exact ⟨ends, shows⟩
    · rw [if_neg (not_not.mpr hs), show firstBad _ = none from hc]
      dsimp only
      rw [if_pos (by rw [hl]; exact decide_eq_true hle)]
      obtain ⟨shows, -, ends⟩ := finishOpen_refused .past flight hv
      exact ⟨ends, shows⟩
    · rw [if_neg (not_not.mpr hs), show firstBad _ = none from hc]
      dsimp only
      rw [if_neg (fun hp => by
        cases hlob : s.clock.lobby with
        | none => rw [hlob] at hp; cases hp
        | some now =>
          rw [hlob] at hp hl
          exact absurd (of_decide_eq_true hp) (Nat.not_le.mpr (of_decide_eq_true hl)))]
      obtain ⟨shows, ends, reports, clock⟩ := loadShow_effect b i flight hv
      obtain ⟨-, -, -, placed⟩ := loadPlaced_effect b i s
      refine ⟨?_, ends, fun j hj => ?_, ?_, reports, clock.trans placed⟩
      · rw [shows]
        exact put_same _ _ _
      · rw [shows]
        exact put_other _ _ _ _ hj
      · rw [shows]

/-! ## SHOW_HALT and SHOW_RESUME -/

theorem exec_showHalt (h : handedEntry .showHalt s = some f) :
    exec .showHalt s = .next (withShow f haltShow s) :=
  congrArg Host.Outcome.next (takeEntry_handed h _)

theorem exec_showResume (h : handedEntry .showResume s = some f) :
    exec .showResume s = .next (withShow f resumeShow s) :=
  congrArg Host.Outcome.next (takeEntry_handed h _)

theorem haltShow_running {i : ShowIx}
    (h : s.shows.recs[i].state = .selling ∨ s.shows.recs[i].state = .seating ∨
      s.shows.recs[i].state = .running) :
    haltShow i s = finishShow i (commitShow i s.shows.recs[i]
      (setShow i { s.shows.recs[i] with
        state := .halted, savedState := some s.shows.recs[i].state } s)) := by
  rcases h with h | h | h <;> simp only [haltShow, h]

theorem haltShow_empty {i : ShowIx} (h : s.shows.recs[i].state = .empty) :
    haltShow i s = finishOpen .noRecord s := by
  simp only [haltShow, h]

theorem haltShow_wrong {i : ShowIx}
    (h : ¬ (s.shows.recs[i].state = .selling ∨ s.shows.recs[i].state = .seating ∨
      s.shows.recs[i].state = .running)) (he : s.shows.recs[i].state ≠ .empty) :
    haltShow i s = finish .wrongState s.shows.recs[i].state.code s := by
  unfold haltShow
  dsimp only
  split <;> simp_all

theorem resumeShow_halted {i : ShowIx} (h : s.shows.recs[i].state = .halted) :
    resumeShow i s = finishShow i (commitShow i s.shows.recs[i]
      (setShow i { s.shows.recs[i] with
        state := s.shows.recs[i].savedState.getD .selling, savedState := none } s)) := by
  simp only [resumeShow, h]

theorem resumeShow_empty {i : ShowIx} (h : s.shows.recs[i].state = .empty) :
    resumeShow i s = finishOpen .noRecord s := by
  simp only [resumeShow, h]

theorem resumeShow_wrong {i : ShowIx} (h : s.shows.recs[i].state ≠ .halted)
    (he : s.shows.recs[i].state ≠ .empty) : resumeShow i s = finishOpen .wrongState s := by
  unfold resumeShow
  dsimp only
  split <;> simp_all

/-- The event of one record written and its entry ended. -/
theorem setShow_ends (i : ShowIx) (r : ShowRec) (hf : s.win.flight = some f)
    (hv : s.win.windowValid = true) :
    let t := finishShow i (commitShow i s.shows.recs[i] (setShow i r s))
    t.shows = { s.shows with recs := put s.shows.recs i r } ∧ EndsWith .done r.state.code f t := by
  obtain ⟨shows, -, -, -, ends⟩ := finishShow_commit changedFields i s.shows.recs[i]
    (s := setShow i r s) hf hv
  rw [setShow_recs, put_same] at ends
  exact ⟨shows, ends⟩

/-- Settles O34: a halt and a resume write the one record, or are refused. -/
theorem haltSavesTheStateResumeRestoresIt : Obligations.HaltSavesTheStateResumeRestoresIt := by
  refine ⟨fun s f c hc hh hi => ?_, fun s f i hi => ?_⟩
  · have refused := finishOpen_refused .badIndex (handedEntry_flight hh.1) hh.2
    simp only [List.mem_cons, List.not_mem_nil, or_false] at hc
    rcases hc with rfl | rfl
    · exact ⟨_, exec_showHalt hh.1, withShow_beyond hi s ▸ refused⟩
    · exact ⟨_, exec_showResume hh.1, withShow_beyond hi s ▸ refused⟩
  intro sh runs
  refine ⟨fun ⟨hf, hv⟩ => ?_, fun ⟨hf, hv⟩ => ?_⟩
  · refine ⟨_, (exec_showHalt hf).trans (congrArg Host.Outcome.next (withShow_named hi s)), ?_⟩
    by_cases hr : runs
    · rw [haltShow_running hr]
      obtain ⟨shows, ends⟩ := setShow_ends i
        { s.shows.recs[i] with state := .halted, savedState := some s.shows.recs[i].state }
        (handedEntry_flight hf) hv
      refine ⟨fun j hj => ?_, by rw [shows], fun _ => ⟨?_, ends⟩, fun h => absurd hr h, fun he => ?_,
        fun h => absurd hr h⟩
      · rw [shows]
        exact put_other _ _ _ _ hj
      · rw [shows]
        exact put_same _ _ _
      · rcases hr with h | h | h <;> cases h.symm.trans he
    · by_cases he : sh.state = .empty
      · obtain ⟨shows, -, ends⟩ := finishOpen_refused .noRecord (handedEntry_flight hf) hv
        rw [haltShow_empty he]
        exact ⟨fun j _ => by rw [shows], by rw [shows], fun h => absurd h hr, fun _ => shows,
          fun _ => ends, fun _ h => absurd he h⟩
      · obtain ⟨shows, -, ends⟩ := finish_refused .wrongState sh.state.code (handedEntry_flight hf) hv
        rw [haltShow_wrong hr he]
        exact ⟨fun j _ => by rw [shows], by rw [shows], fun h => absurd h hr, fun _ => shows,
          fun h => absurd h he, fun _ _ => ends⟩
  · refine ⟨_, (exec_showResume hf).trans (congrArg Host.Outcome.next (withShow_named hi s)), ?_⟩
    by_cases hh : sh.state = .halted
    · rw [resumeShow_halted hh]
      obtain ⟨shows, ends⟩ := setShow_ends i
        { s.shows.recs[i] with
          state := s.shows.recs[i].savedState.getD .selling, savedState := none }
        (handedEntry_flight hf) hv
      refine ⟨fun j hj => ?_, by rw [shows], fun st _ hst => ?_, fun h => absurd hh h, fun he => ?_,
        fun h => absurd hh h⟩
      · rw [shows]
        exact put_other _ _ _ _ hj
      · have resumed : s.shows.recs[i].savedState.getD .selling = st := by
          rw [show s.shows.recs[i].savedState = some st from hst]
          rfl
        rw [shows, ← resumed]
        exact ⟨put_same _ _ _, ends⟩
      · cases hh.symm.trans he
    · by_cases he : sh.state = .empty
      · obtain ⟨shows, -, ends⟩ := finishOpen_refused .noRecord (handedEntry_flight hf) hv
        rw [resumeShow_empty he]
        exact ⟨fun j _ => by rw [shows], by rw [shows], fun _ h => absurd h hh, fun _ => shows,
          fun _ => ends, fun _ h => absurd he h⟩
      · obtain ⟨shows, -, ends⟩ := finishOpen_refused .wrongState (handedEntry_flight hf) hv
        rw [resumeShow_wrong hh he]
        exact ⟨fun j _ => by rw [shows], by rw [shows], fun _ h => absurd h hh, fun _ => shows,
          fun h => absurd h he, fun _ _ => ends⟩

end

end Sys2Proof.Machine

namespace Sys2Proof.Machine

section
variable {s : State} {f : Flight}

theorem HoldsLetGo.congr {i : ShowIx} {t u : State} (h : HoldsLetGo i s t)
    (hs : u.shows = t.shows) : HoldsLetGo i s u := by
  simpa only [HoldsLetGo, hs] using h

theorem OtherShowsStay.congr {i : ShowIx} {t u : State} (h : OtherShowsStay i s t)
    (hs : u.shows = t.shows) : OtherShowsStay i s u := by
  simpa only [OtherShowsStay, hs] using h

/-! ## What a closing and a card request send -/

theorem autoPost_eq_cardPost (s : State) (k : CardKind) (i : ShowIx) (duration : Nat) :
    autoPost s k i duration = cardPost s.shows.cfg k i s.shows.recs[i] duration := by
  cases k <;> simp [autoPost, cardPost, autoTopic, CardKind.code, autoPriority]

/-- A card takes of the show's record its target alone. -/
theorem cardPost_congr {c c' : ShowSettings} {sh sh' : ShowRec} (k : CardKind) (i : ShowIx)
    (duration : Nat) (hc : c = c') (h : sh.target = sh'.target) :
    cardPost c k i sh duration = cardPost c' k i sh' duration := by
  simp only [cardPost, hc, h]

theorem closeShow_others (i : ShowIx) (prev : Band) (reason : NoticeEnd) (s : State) :
    (closeShow i prev reason s).bus.toClock = s.bus.toClock ∧
      (closeShow i prev reason s).bus.showReports = s.bus.showReports ∧
      (closeShow i prev reason s).win.flight = s.win.flight ∧
      (closeShow i prev reason s).win.windowValid = s.win.windowValid := by
  obtain ⟨-, -, -, -, -, bus⟩ := closeShow_effect i prev reason s
  exact ⟨congrArg (·.toClock) bus, congrArg (·.showReports) bus, by simp, by simp⟩

theorem closed_congr {c c' : ShowSettings} {sh sh' : ShowRec} {prev : Band} {n : Nat} (h : sh = sh')
    (hc : c = c') :
    { tally c.bandSets[sh.bandSet] prev { sh with held := sh.held - n } with soldoutAsked := false } =
      { tally c'.bandSets[sh'.bandSet] prev { sh' with held := sh'.held - n } with
        soldoutAsked := false } := by
  subst h hc
  rfl

/-- Show `i` closed from the record `now` that its event has written. -/
theorem closeShow_closedAs {i : ShowIx} {now : ShowRec} {reason : NoticeEnd} {t : State}
    (hs : t.shows = { s.shows with recs := put s.shows.recs i now }) (hb : t.bus.toArbiter = s.bus.toArbiter) :
    ClosedAs now reason i [] [] s (closeShow i s.shows.recs[i].band reason t) ∧
      OtherShowsStay i s (closeShow i s.shows.recs[i].band reason t) ∧
      (closeShow i s.shows.recs[i].band reason t).shows.cfg = s.shows.cfg := by
  obtain ⟨others, ⟨holds, list⟩, record, cfg, arbiter, -⟩ :=
    closeShow_effect i s.shows.recs[i].band reason t
  have same (k : HoldIx) : holdsFor t i k = holdsFor s i k := by simp only [holdsFor, hs]
  have seats : seatsHeldFor t i = seatsHeldFor s i := by
    simp only [seatsHeldFor, same, hs]
  have found : t.shows.recs[i] = now := hs ▸ put_same _ _ _
  refine ⟨⟨⟨fun k => ?_, ?_⟩, ?_, ?_⟩, fun j hj => ?_, ?_⟩
  · rw [holds, same, hs]
  · rw [list, hs]
    exact congrArg (List.filter · _) (funext fun k => congrArg (! ·) (same k))
  · rw [record, seats, closed_congr found (congrArg (·.cfg) hs)]
  · rw [arbiter, found, hb, List.append_nil, List.append_nil]
  · rw [others j hj, hs]
    exact put_other _ _ _ _ hj
  · rw [cfg, hs]

/-! ## SHOW_CANCEL and SHOW_DROP -/

theorem exec_showCancel (h : handedEntry .showCancel s = some f) :
    exec .showCancel s = .next (withShow f cancelShow s) :=
  congrArg Host.Outcome.next (takeEntry_handed h _)

theorem exec_showDrop (h : handedEntry .showDrop s = some f) :
    exec .showDrop s = .next (withShow f dropShow s) :=
  congrArg Host.Outcome.next (takeEntry_handed h _)

/-- The record a SHOW_CANCEL writes before the closing sequence (R13). -/
abbrev cancelledRec (sh : ShowRec) : ShowRec :=
  { sh with state := .cancelled, savedState := none, clockWait := false }

/-- A live show cancelled and closed, its CANCELLED card not yet asked for (R13). -/
def cancelClosed (i : ShowIx) (s : State) : State :=
  closeShow i s.shows.recs[i].band .showClosed
    (sendClock (.withdraw i) (setShow i (cancelledRec s.shows.recs[i]) s))

/-- And with its card asked for where AUTO_CANCEL is set. -/
def cancelAsked (i : ShowIx) (s : State) : State :=
  if s.shows.recs[i].flags.autoCancel then requestAuto .cancelled i 1800 (cancelClosed i s)
  else cancelClosed i s

theorem cancelShow_live {i : ShowIx} (h : s.shows.recs[i].state.isLive = true) :
    cancelShow i s =
      finishShow i (commitShowAs changedFields i s.shows.recs[i] (cancelAsked i s)) := by
  unfold cancelShow
  dsimp only
  split
  case h_6 e => rw [e] at h; cases h
  case h_7 e => rw [e] at h; cases h
  case h_8 e => rw [e] at h; cases h
  all_goals rfl

theorem cancelShow_empty {i : ShowIx} (h : s.shows.recs[i].state = .empty) :
    cancelShow i s = finishOpen .noRecord s := by
  unfold cancelShow
  simp only [h]

theorem cancelShow_over {i : ShowIx}
    (h : s.shows.recs[i].state = .closed ∨ s.shows.recs[i].state = .cancelled) :
    cancelShow i s = finishOpen .wrongState s := by
  unfold cancelShow
  obtain h | h := h <;> simp only [h]

theorem cancelClosed_effect (i : ShowIx) (s : State) :
    ClosedAs (cancelledRec s.shows.recs[i]) .showClosed i [] [] s (cancelClosed i s) ∧
      OtherShowsStay i s (cancelClosed i s) ∧ (cancelClosed i s).shows.cfg = s.shows.cfg ∧
      (cancelClosed i s).bus.toClock = s.bus.toClock ++ [.withdraw i] ∧
      (cancelClosed i s).win.flight = s.win.flight ∧
      (cancelClosed i s).win.windowValid = s.win.windowValid := by
  obtain ⟨closed, others, cfg⟩ := closeShow_closedAs (s := s) (i := i) (reason := .showClosed)
    (t := sendClock (.withdraw i) (setShow i (cancelledRec s.shows.recs[i]) s)) rfl rfl
  obtain ⟨clock, -, flight, valid⟩ := closeShow_others i s.shows.recs[i].band .showClosed
    (sendClock (.withdraw i) (setShow i (cancelledRec s.shows.recs[i]) s))
  exact ⟨closed, others, cfg, clock, flight, valid⟩

theorem cancelAsked_effect (i : ShowIx) (s : State) :
    (cancelAsked i s).shows = (cancelClosed i s).shows ∧
      (cancelAsked i s).win = (cancelClosed i s).win ∧
      (cancelAsked i s).bus.toClock = (cancelClosed i s).bus.toClock ∧
      (cancelAsked i s).bus.toArbiter = (cancelClosed i s).bus.toArbiter ++
        (if s.shows.recs[i].flags.autoCancel = true then
          [.auto (cardPost s.shows.cfg .cancelled i s.shows.recs[i] 1800)]
         else []) := by
  obtain ⟨⟨-, record, -⟩, -, cfg, -⟩ := cancelClosed_effect i s
  have target : (cancelClosed i s).shows.recs[i].target = s.shows.recs[i].target := by
    rw [record]
    rfl
  unfold cancelAsked
  split
  · refine ⟨rfl, rfl, rfl, ?_⟩
    change _ ++ [ShowMsg.auto (autoPost (cancelClosed i s) .cancelled i 1800)] = _
    rw [autoPost_eq_cardPost, cardPost_congr _ _ _ cfg target]
  · exact ⟨rfl, rfl, rfl, (List.append_nil _).symm⟩

/-- The SHOW_CANCEL of a live show (R13, R17). -/
theorem cancelShow_closes {i : ShowIx} (h : s.shows.recs[i].state.isLive = true)
    (hf : s.win.flight = some f) (hv : s.win.windowValid = true) :
    ClosedAs (cancelledRec s.shows.recs[i]) .showClosed i []
        (if s.shows.recs[i].flags.autoCancel = true then
          [.auto (cardPost s.shows.cfg .cancelled i s.shows.recs[i] 1800)]
         else []) s (cancelShow i s) ∧
      OtherShowsStay i s (cancelShow i s) ∧
      (cancelShow i s).bus.toClock = s.bus.toClock ++ [.withdraw i] ∧
      EndsWith .done 7 f (cancelShow i s) := by
  obtain ⟨⟨freed, record, asked⟩, others, -, clock, flight, valid⟩ := cancelClosed_effect i s
  obtain ⟨shows, win, clock', asked'⟩ := cancelAsked_effect i s
  obtain ⟨shows', clock'', asked'', -, ends⟩ := finishShow_commit (s := cancelAsked i s) (f := f)
    changedFields i s.shows.recs[i] (by rw [win, flight, hf]) (by rw [win, valid, hv])
  rw [cancelShow_live h]
  refine ⟨⟨?_, ?_, ?_⟩, ?_, ?_, ?_⟩
  · exact HoldsLetGo.congr freed (shows'.trans shows)
  · rw [shows', shows, record]
  · rw [asked'', asked', asked, List.append_nil]
  · exact OtherShowsStay.congr others (shows'.trans shows)
  · rw [clock'', clock', clock]
  · rw [shows, record] at ends
    exact ends

/-- The record of a show at the end of its drop's closing sequence, or as it was found (R14). -/
def dropFreed (i : ShowIx) (s : State) : State :=
  if s.shows.recs[i].state.isLive then
    sendClock (.withdraw i) (closeShow i s.shows.recs[i].band .showDropped s)
  else s

theorem dropShow_eq (i : ShowIx) (s : State) :
    dropShow i s =
      finishShow i (commitShowAs (droppedFields (dropFreed i s).shows.recs[i]) i s.shows.recs[i]
        (setShow i {} (dropFreed i s))) := rfl

/-- soldout_asked is no field of a show-changed report (R19). -/
theorem fieldDiffers_soldoutAsked (sh freed : ShowRec) (b : Bool) (x : ReportField) :
    fieldDiffers sh { freed with soldoutAsked := b } x = fieldDiffers sh freed x := by
  cases x <;> rfl

theorem dropFreed_dead {i : ShowIx} (h : s.shows.recs[i].state.isLive = false) :
    dropFreed i s = s := by
  rw [dropFreed, h]
  rfl

theorem dropFreed_live {i : ShowIx} (h : s.shows.recs[i].state.isLive = true) :
    ClosedAs s.shows.recs[i] .showDropped i [] [] s (dropFreed i s) ∧
      OtherShowsStay i s (dropFreed i s) ∧
      (dropFreed i s).bus.toClock = s.bus.toClock ++ [.withdraw i] ∧
      (dropFreed i s).bus.showReports = s.bus.showReports ∧
      (dropFreed i s).win.flight = s.win.flight ∧
      (dropFreed i s).win.windowValid = s.win.windowValid := by
  obtain ⟨closed, others, -⟩ := closeShow_closedAs (s := s) (t := s) (i := i)
    (now := s.shows.recs[i]) (reason := .showDropped) (by rw [put_self]) rfl
  obtain ⟨clock, reports, flight, valid⟩ := closeShow_others i s.shows.recs[i].band .showDropped s
  rw [dropFreed, if_pos h]
  exact ⟨closed, others, congrArg (· ++ [ClockRequest.withdraw i]) clock, reports, flight, valid⟩

/-- The tally fields that a closing sequence counts again, in the record a drop reports against. -/
def freedRec (i : ShowIx) (s : State) : ShowRec :=
  if s.shows.recs[i].state.isLive = true then
    tally s.shows.cfg.bandSets[s.shows.recs[i].bandSet] s.shows.recs[i].band
      { s.shows.recs[i] with held := s.shows.recs[i].held - seatsHeldFor s i }
  else s.shows.recs[i]

theorem droppedFields_freed (i : ShowIx) (s : State) :
    droppedFields (dropFreed i s).shows.recs[i] s.shows.recs[i] {} =
      allReportFields.filter fun x =>
        fieldDiffers s.shows.recs[i] {} x || fieldDiffers s.shows.recs[i] (freedRec i s) x := by
  unfold droppedFields freedRec
  cases h : s.shows.recs[i].state.isLive with
  | false => rw [dropFreed_dead h, if_neg (by decide)]
  | true =>
    obtain ⟨⟨-, record, -⟩, -⟩ := dropFreed_live h
    simp only [if_true, record, fieldDiffers_soldoutAsked]

theorem state_reported {sh : ShowRec} (g : ReportField → Bool) (h : sh.state ≠ .empty) :
    ReportField.state ∈ allReportFields.filter fun x => fieldDiffers sh {} x || g x :=
  List.mem_filter.mpr ⟨by decide, by simp [fieldDiffers, h]⟩

theorem dropFreed_win (i : ShowIx) (s : State) :
    (dropFreed i s).win.flight = s.win.flight ∧
      (dropFreed i s).win.windowValid = s.win.windowValid ∧
      (dropFreed i s).bus.showReports = s.bus.showReports ∧ OtherShowsStay i s (dropFreed i s) := by
  cases h : s.shows.recs[i].state.isLive with
  | false =>
    rw [dropFreed_dead h]
    exact ⟨rfl, rfl, rfl, fun _ _ => rfl⟩
  | true =>
    obtain ⟨-, others, -, reports, flight, valid⟩ := dropFreed_live h
    exact ⟨flight, valid, reports, others⟩

/-- A SHOW_DROP in every state (R14). -/
theorem dropShow_effect (i : ShowIx) (hf : s.win.flight = some f) (hv : s.win.windowValid = true) :
    (dropShow i s).shows =
        { (dropFreed i s).shows with recs := put (dropFreed i s).shows.recs i {} } ∧
      (dropShow i s).bus.toClock = (dropFreed i s).bus.toClock ∧
      (dropShow i s).bus.toArbiter = (dropFreed i s).bus.toArbiter ∧
      (s.shows.recs[i].state ≠ .empty →
        (dropShow i s).bus.showReports = s.bus.showReports ++
          [⟨i, droppedFields (dropFreed i s).shows.recs[i] s.shows.recs[i] {}, true⟩]) ∧
      EndsWith .done 0 f (dropShow i s) := by
  obtain ⟨flight, valid, reports, -⟩ := dropFreed_win i s
  obtain ⟨shows', clock', asked', reports', ends⟩ :=
    finishShow_commit (s := setShow i {} (dropFreed i s)) (f := f)
      (droppedFields (dropFreed i s).shows.recs[i]) i s.shows.recs[i]
      (flight.trans hf) (valid.trans hv)
  rw [dropShow_eq]
  have found : (setShow i {} (dropFreed i s)).shows.recs[i] = {} := put_same _ _ _
  refine ⟨shows', clock', asked', fun live => ?_, ?_⟩
  · have named := droppedFields_freed i s ▸
      state_reported (fieldDiffers s.shows.recs[i] (freedRec i s)) live
    have changed : ¬ ((setShow i {} (dropFreed i s)).shows.recs[i] = s.shows.recs[i] ∨
        droppedFields (dropFreed i s).shows.recs[i] s.shows.recs[i]
          (setShow i {} (dropFreed i s)).shows.recs[i] = []) := by
      rw [found]
      rintro (same | none)
      · exact live (same ▸ rfl)
      · exact List.ne_nil_of_mem named none
    rw [reports', if_neg changed, found]
    exact congrArg (· ++ _) reports
  · rw [found] at ends
    exact ends

theorem not_over_of_isLive {st : ShowState} (h : st.isLive = true) :
    st ≠ .empty ∧ ¬ (st = .closed ∨ st = .cancelled) := by
  cases st with
  | empty | closed | cancelled => cases h
  | waiting | selling | seating | running | halted => exact ⟨nofun, nofun⟩

theorem over_of_not_isLive {st : ShowState} (h : st.isLive = false) :
    st = .empty ∨ st = .closed ∨ st = .cancelled := by
  cases st with
  | empty => exact .inl rfl
  | closed => exact .inr (.inl rfl)
  | cancelled => exact .inr (.inr rfl)
  | waiting | selling | seating | running | halted => cases h

theorem not_empty_of_over {st : ShowState} (h : st = .closed ∨ st = .cancelled) : st ≠ .empty := by
  rintro rfl
  obtain h | h := h <;> cases h

/-- Settles O35, by the effect of a closing sequence, of the card asked behind it, and of the end of a
show's entry. -/
theorem cancelAndDropCloseTheShow : Obligations.CancelAndDropCloseTheShow := by
  unfold Obligations.CancelAndDropCloseTheShow
  refine ⟨fun s f c hc => ?_, fun s f i named => ?_⟩
  · simp only [List.mem_cons, List.not_mem_nil, or_false] at hc
    obtain rfl | rfl := hc
    · rintro ⟨handed, hv⟩ beyond
      exact ⟨_, (exec_showCancel handed).trans (congrArg _ (withShow_beyond beyond s)),
        finishOpen_refused .badIndex (handedEntry_flight handed) hv⟩
    · rintro ⟨handed, hv⟩ beyond
      exact ⟨_, (exec_showDrop handed).trans (congrArg _ (withShow_beyond beyond s)),
        finishOpen_refused .badIndex (handedEntry_flight handed) hv⟩
  · intro sh
    constructor
    · rintro ⟨handed, hv⟩
      have hf := handedEntry_flight handed
      refine ⟨_, (exec_showCancel handed).trans (congrArg _ (withShow_named named s)), ?_⟩
      cases live : s.shows.recs[i].state.isLive with
      | true =>
        obtain ⟨closed, others, clock, ends⟩ := cancelShow_closes live hf hv
        have open' : sh.state ≠ .empty ∧ ¬ (sh.state = .closed ∨ sh.state = .cancelled) :=
          not_over_of_isLive live
        exact ⟨others, fun _ => ⟨closed, clock, ends⟩, nofun,
          fun h => absurd h open'.1, fun h => absurd h open'.2⟩
      | false =>
        obtain h | h := over_of_not_isLive live
        · rw [cancelShow_empty h]
          obtain ⟨shows, bus, ends⟩ := finishOpen_refused .noRecord hf hv
          exact ⟨fun j _ => by rw [shows], nofun, fun _ => ⟨shows, bus⟩, fun _ => ends,
            fun gone => absurd h (not_empty_of_over gone)⟩
        · rw [cancelShow_over h]
          obtain ⟨shows, bus, ends⟩ := finishOpen_refused .wrongState hf hv
          exact ⟨fun j _ => by rw [shows], nofun, fun _ => ⟨shows, bus⟩,
            fun e => absurd e (not_empty_of_over h), fun _ => ends⟩
    · rintro ⟨handed, hv⟩
      obtain ⟨-, -, -, others⟩ := dropFreed_win i s
      obtain ⟨shows, clock, asked, reports, ends⟩ :=
        dropShow_effect i (handedEntry_flight handed) hv
      refine ⟨_, (exec_showDrop handed).trans (congrArg _ (withShow_named named s)), fun j hj => ?_, ?_,
        ends, fun used => ⟨state_reported _ used, ?_⟩, fun live => ?_, fun dead => ?_⟩
      · rw [shows]
        exact (put_other _ _ _ _ hj).trans (others j hj)
      · rw [shows]
        exact put_same _ _ _
      · exact (reports used).trans (by rw [droppedFields_freed]; rfl)
      · obtain ⟨⟨freed, -, asked'⟩, -, clock', -⟩ := dropFreed_live live
        rw [List.append_nil, List.append_nil] at asked'
        refine ⟨?_, asked.trans asked', clock.trans clock'⟩
        obtain ⟨holds, list⟩ := freed
        exact ⟨fun k => by rw [shows, holds], by rw [shows, list]⟩
      · rw [shows, clock, asked, dropFreed_dead dead]
        exact ⟨rfl, rfl, rfl, rfl⟩

end

end Sys2Proof.Machine

namespace Sys2Proof.Machine

section
variable {s : State} {f : Flight}

/-! ## SHOW_AMEND -/

theorem exec_showAmend (h : handedEntry .showAmend s = some f) :
    exec .showAmend s =
      .next (showAmend (readShowBody (entryBody f.bytes)) (f.bytes.take 16) s) :=
  congrArg Host.Outcome.next (takeEntry_handed h _)

variable {m : Nat → Bool} {b : ShowBody} {i : ShowIx} {capture : List Byte}

/-- The DELAYED card of a later start (R18). -/
def delayedMsgs (m : Nat → Bool) (b : ShowBody) (i : ShowIx) (s : State) : List ShowMsg :=
  if m 5 = true ∧ s.shows.recs[i].start < (amended m b s.shows.recs[i]).start ∧
      (amended m b s.shows.recs[i]).flags.autoDelay = true then
    [.auto (cardPost s.shows.cfg .delayed i (amended m b s.shows.recs[i]) 600)]
  else []

/-- An amend placed, whose show has the target the amend gives it, asks for the DELAYED card alone. -/
theorem amendAsked_toArbiter (hc : (amendPlaced m b i s).shows.cfg = s.shows.cfg)
    (ht : (amendPlaced m b i s).shows.recs[i].target = (amended m b s.shows.recs[i]).target) :
    (amendAsked m b i s).bus.toArbiter =
      (amendPlaced m b i s).bus.toArbiter ++ delayedMsgs m b i s := by
  unfold amendAsked delayedMsgs
  simp only [Bool.and_eq_true, decide_eq_true_eq, and_assoc]
  split
  · change _ ++ [ShowMsg.auto (autoPost (amendPlaced m b i s) .delayed i 600)] = _
    rw [autoPost_eq_cardPost, cardPost_congr _ _ _ hc ht]
  · exact (List.append_nil _).symm

theorem amendAsked_others (m : Nat → Bool) (b : ShowBody) (i : ShowIx) (s : State) :
    (amendAsked m b i s).win = (amendPlaced m b i s).win ∧
      (amendAsked m b i s).bus.toClock = (amendPlaced m b i s).bus.toClock := by
  unfold amendAsked
  split
  · exact ⟨rfl, rfl⟩
  · exact ⟨rfl, rfl⟩

/-- The record that an amend leaves, `now` as placed: counted again where capacity or band set is marked. -/
def amendEnds (m : Nat → Bool) (c : ShowSettings) (before now : ShowRec) : ShowRec :=
  if (m 9 || m 10) = true then recounted c before now else now

/-- And what that recount asks. -/
def amendAsks (m : Nat → Bool) (c : ShowSettings) (i : ShowIx) (before now : ShowRec) :
    List ShowMsg :=
  if (m 9 || m 10) = true then soldOutMsgs c i before now else []

theorem amendEnds_state (m : Nat → Bool) (c : ShowSettings) (before now : ShowRec) :
    (amendEnds m c before now).state = now.state := by
  unfold amendEnds
  split
  · rfl
  · rfl

/-- The recount of an amend from the state `u` that its placing and its card leave. -/
def amendCounted (m : Nat → Bool) (i : ShowIx) (before : ShowRec) (capture : List Byte) (u : State) :
    State :=
  if m 9 || m 10 then recompute i before capture u else u

theorem amendCounted_effect (m : Nat → Bool) (i : ShowIx) (before : ShowRec) (capture : List Byte)
    (u : State) :
    (amendCounted m i before capture u).shows =
        { u.shows with
          recs := put u.shows.recs i (amendEnds m u.shows.cfg before u.shows.recs[i]) } ∧
      (amendCounted m i before capture u).bus.toArbiter =
        u.bus.toArbiter ++ amendAsks m u.shows.cfg i before u.shows.recs[i] ∧
      (amendCounted m i before capture u).bus.toClock = u.bus.toClock ∧
      (amendCounted m i before capture u).win = u.win := by
  unfold amendCounted amendEnds amendAsks
  split
  · obtain ⟨shows, asked⟩ := recompute_effect i before capture u
    exact ⟨shows, asked, congrArg (·.toClock) (recompute_bus i before capture u),
      (recompute_keeps i before capture u).2.1⟩
  · exact ⟨by rw [put_self], (List.append_nil _).symm, rfl, rfl⟩

/-- What an amend does once its show is placed, `now` the record it is placed with (R16, R33). -/
theorem applyAmend_effect {now : ShowRec} (hp : (amendPlaced m b i s).shows.recs[i] = now)
    (hc : (amendPlaced m b i s).shows.cfg = s.shows.cfg)
    (ht : now.target = (amended m b s.shows.recs[i]).target)
    (hw : (amendPlaced m b i s).win.flight = some f)
    (hv : (amendPlaced m b i s).win.windowValid = true) :
    (applyAmend m b capture i s).shows =
        { (amendPlaced m b i s).shows with
          recs := put (amendPlaced m b i s).shows.recs i
            (amendEnds m s.shows.cfg s.shows.recs[i] now) } ∧
      (applyAmend m b capture i s).bus.toClock = (amendPlaced m b i s).bus.toClock ∧
      (applyAmend m b capture i s).bus.toArbiter = (amendPlaced m b i s).bus.toArbiter ++
        delayedMsgs m b i s ++ amendAsks m s.shows.cfg i s.shows.recs[i] now ∧
      EndsWith .done now.state.code f (applyAmend m b capture i s) := by
  subst hp
  obtain ⟨win, clock⟩ := amendAsked_others m b i s
  have asked := amendAsked_toArbiter hc ht
  have shows := amendAsked_shows m b i s
  obtain ⟨shows', asked', clock', win'⟩ :=
    amendCounted_effect m i s.shows.recs[i] capture (amendAsked m b i s)
  rw [shows, hc] at shows' asked'
  obtain ⟨shows'', clock'', asked'', -, ends⟩ :=
    finishShow_commit (s := amendCounted m i s.shows.recs[i] capture (amendAsked m b i s))
      changedFields i s.shows.recs[i] (by rw [win', win, hw]) (by rw [win', win, hv])
  have eq : applyAmend m b capture i s = finishShow i (commitShowAs changedFields i s.shows.recs[i]
      (amendCounted m i s.shows.recs[i] capture (amendAsked m b i s))) := applyAmend_eq m b capture i s
  rw [eq]
  refine ⟨shows''.trans shows', by rw [clock'', clock', clock], by rw [asked'', asked', asked], ?_⟩
  rw [shows'] at ends
  have found : (put (amendPlaced m b i s).shows.recs i
      (amendEnds m s.shows.cfg s.shows.recs[i] (amendPlaced m b i s).shows.recs[i]))[i].state =
      (amendPlaced m b i s).shows.recs[i].state := by rw [put_same, amendEnds_state]
  exact found ▸ ends

/-- One of the schedule times is marked (R16). -/
def timesMarked (m : Nat → Bool) : Bool := m 5 || m 6 || m 7 || m 8

theorem amendPlaced_unplaced (h : timesMarked m = false ∨ s.clock.lobby = none) :
    amendPlaced m b i s = setShow i (amended m b s.shows.recs[i]) s := by
  unfold amendPlaced
  obtain h | h := h
  · cases s.clock.lobby with
    | none => rfl
    | some now => exact if_neg (Bool.eq_false_iff.mp h)
  · rw [h]

theorem amendPlaced_timed {now : Nat} (h : timesMarked m = true) (hl : s.clock.lobby = some now) :
    amendPlaced m b i s = amendTimes i s.shows.recs[i].band now
      (setShow i (amended m b s.shows.recs[i]) s) := by
  unfold amendPlaced
  rw [hl]
  exact if_pos h

/-- An amend that leaves its show open: moved by its new times, and its next transition scheduled (R16). -/
theorem amendPlaced_open {now : Nat} (h : timesMarked m = true) (hl : s.clock.lobby = some now)
    (ho : amendedState (amended m b s.shows.recs[i]) now ≠ .closed) :
    (amendPlaced m b i s).shows =
        { s.shows with
          recs := put s.shows.recs i
            (movedTo (amendedState (amended m b s.shows.recs[i]) now)
              (unwaited (amended m b s.shows.recs[i]))) } ∧
      (amendPlaced m b i s).win = s.win ∧
      (amendPlaced m b i s).bus.toArbiter = s.bus.toArbiter ∧
      (amendPlaced m b i s).bus.toClock = s.bus.toClock ++
        ((dueTime (amended m b s.shows.recs[i])
            (amendedState (amended m b s.shows.recs[i]) now)).map fun due =>
          ClockRequest.schedule ⟨i, amendedState (amended m b s.shows.recs[i]) now, due⟩).toList := by
  generalize hn : amended m b s.shows.recs[i] = new at ho ⊢
  have written : (setShow i new s).shows.recs[i] = new := put_same _ _ _
  have still : amendedState (unwaited (setShow i new s).shows.recs[i]) now ≠ .closed := by
    rw [written]
    exact ho
  rw [amendPlaced_timed h hl, hn, amendTimes_open still, written]
  change (schedule i (amendedState new now)
      (setShow i (movedTo (amendedState new now) (unwaited new)) (setShow i new s))).shows = _ ∧ _
  obtain ⟨clock, asked, -⟩ := schedule_bus (i := i) (st := amendedState new now)
    (s := setShow i (movedTo (amendedState new now) (unwaited new)) (setShow i new s))
  obtain ⟨-, win, -, shows, -⟩ := schedule_keeps i (amendedState new now)
    (setShow i (movedTo (amendedState new now) (unwaited new)) (setShow i new s))
  refine ⟨?_, win, asked, ?_⟩
  · rw [shows]
    simp only [setShow, put_put_same]
  · have due : dueTime (movedTo (amendedState new now) (unwaited new)) (amendedState new now) =
        dueTime new (amendedState new now) := by
      unfold movedTo
      split
      · rfl
      · rfl
    rw [setShow_recs, put_same, due] at clock
    exact clock

/-- The record of an amend past its close time before its closing sequence (R16). -/
abbrev amendClosedRec (new : ShowRec) : ShowRec :=
  { new with state := .closed, savedState := none, clockWait := false }

/-- An amend past its close time: the show goes through its closing sequence (R16, R17). -/
theorem amendPlaced_closed {now : Nat} (h : timesMarked m = true) (hl : s.clock.lobby = some now)
    (ho : amendedState (amended m b s.shows.recs[i]) now = .closed) :
    ClosedAs (amendClosedRec (amended m b s.shows.recs[i])) .showClosed i [] [] s
        (amendPlaced m b i s) ∧
      OtherShowsStay i s (amendPlaced m b i s) ∧
      (amendPlaced m b i s).shows.cfg = s.shows.cfg ∧
      (amendPlaced m b i s).bus.toClock = s.bus.toClock ++ [.withdraw i] ∧
      (amendPlaced m b i s).win.flight = s.win.flight ∧
      (amendPlaced m b i s).win.windowValid = s.win.windowValid := by
  generalize hn : amended m b s.shows.recs[i] = new at ho ⊢
  have written : (setShow i new s).shows.recs[i] = new := put_same _ _ _
  have still : amendedState (unwaited (setShow i new s).shows.recs[i]) now = .closed := by
    rw [written]
    exact ho
  rw [amendPlaced_timed h hl, hn, amendTimes_closed still, written]
  obtain ⟨closed, others, cfg⟩ := closeShow_closedAs (s := s) (i := i) (reason := .showClosed)
    (now := amendClosedRec new)
    (t := sendClock (.withdraw i) (setShow i (amendClosedRec new) (setShow i new s)))
    (by simp only [sendClock, setShow, put_put_same]) rfl
  obtain ⟨clock, -, flight, valid⟩ := closeShow_others i s.shows.recs[i].band .showClosed
    (sendClock (.withdraw i) (setShow i (amendClosedRec new) (setShow i new s)))
  exact ⟨closed, others, cfg, clock, flight, valid⟩

/-- A closed show's recount finds the tally as its closing sequence has counted it, and asks nothing. -/
theorem recounted_closed {c : ShowSettings} {before now : ShowRec} {n : Nat}
    (h : now.state = .closed) :
    recounted c before
        { tally c.bandSets[now.bandSet] before.band { now with held := n } with
          soldoutAsked := false } =
      { tally c.bandSets[now.bandSet] before.band { now with held := n } with
        soldoutAsked := false } ∧
    soldOutMsgs c i before
        { tally c.bandSets[now.bandSet] before.band { now with held := n } with
          soldoutAsked := false } = [] := by
  constructor
  · simp [recounted, asksSoldOut, clearsSoldOut, tally, h, ShowState.isLive, availOf, oversoldOf]
  · simp [soldOutMsgs, asksSoldOut, clearsSoldOut, tally, h, ShowState.isLive]

theorem amendEnds_closed {c : ShowSettings} {before now : ShowRec} {n : Nat}
    (h : now.state = .closed) :
    amendEnds m c before
        { tally c.bandSets[now.bandSet] before.band { now with held := n } with
          soldoutAsked := false } =
      { tally c.bandSets[now.bandSet] before.band { now with held := n } with
        soldoutAsked := false } ∧
    amendAsks m c i before
        { tally c.bandSets[now.bandSet] before.band { now with held := n } with
          soldoutAsked := false } = [] := by
  obtain ⟨same, none⟩ := recounted_closed (i := i) (c := c) (before := before) (n := n) h
  exact ⟨ite_eq_right_iff.mpr fun _ => same, ite_eq_right_iff.mpr fun _ => none⟩

theorem showAmend_beyond (h : 64 ≤ b.index) (s : State) :
    showAmend b capture s = finishOpen .badIndex s := by
  rw [showAmend, indexOf?_of_le h]

theorem showAmend_empty (h : b.index = i.val) (he : s.shows.recs[i].state = .empty) :
    showAmend b capture s = finishOpen .noRecord s := by
  simp only [showAmend, h, indexOf?_val, he]

theorem showAmend_over (h : b.index = i.val)
    (ho : s.shows.recs[i].state = .closed ∨ s.shows.recs[i].state = .cancelled) :
    showAmend b capture s = finishOpen .wrongState s := by
  obtain ho | ho := ho <;> simp only [showAmend, h, indexOf?_val, ho]

/-- The amend of a live show (R15, R16). -/
def amendLive (b : ShowBody) (capture : List Byte) (i : ShowIx) (s : State) : State :=
  match firstBad (amendFieldChecks (marked b.mask) b (amended (marked b.mask) b s.shows.recs[i])) with
  | some n => finish .badField n s
  | none =>
    if (marked b.mask 5 || marked b.mask 8) &&
        s.clock.lobby.any (closeTime (amended (marked b.mask) b s.shows.recs[i]) ≤ ·) then
      finishOpen .past s
    else applyAmend (marked b.mask) b capture i s

theorem showAmend_live (h : b.index = i.val) (hl : s.shows.recs[i].state.isLive = true) :
    showAmend b capture s = amendLive b capture i s := by
  unfold showAmend
  rw [h, indexOf?_val]
  dsimp only
  split
  case h_1 e => rw [e] at hl; cases hl
  case h_2 e => rw [e] at hl; cases hl
  case h_3 e => rw [e] at hl; cases hl
  case h_4 => rfl

theorem amendLive_bad {n : Nat}
    (h : firstBad (amendFieldChecks (marked b.mask) b (amended (marked b.mask) b s.shows.recs[i])) =
      some n) :
    amendLive b capture i s = finish .badField n s := by
  rw [amendLive, h]

theorem amendLive_past {now : Nat}
    (h : firstBad (amendFieldChecks (marked b.mask) b (amended (marked b.mask) b s.shows.recs[i])) =
      none)
    (hl : s.clock.lobby = some now) (hm : (marked b.mask 5 || marked b.mask 8) = true)
    (hp : closeTime (amended (marked b.mask) b s.shows.recs[i]) ≤ now) :
    amendLive b capture i s = finishOpen .past s := by
  rw [amendLive, h]
  rw [hl, hm]
  exact if_pos (decide_eq_true hp)

theorem amendLive_applied
    (h : firstBad (amendFieldChecks (marked b.mask) b (amended (marked b.mask) b s.shows.recs[i])) =
      none)
    (hp : ∀ now, s.clock.lobby = some now → (marked b.mask 5 || marked b.mask 8) = true →
      now < closeTime (amended (marked b.mask) b s.shows.recs[i])) :
    amendLive b capture i s = applyAmend (marked b.mask) b capture i s := by
  rw [amendLive, h]
  refine if_neg fun hc => ?_
  obtain ⟨hm, now, hl, late⟩ : (marked b.mask 5 || marked b.mask 8) = true ∧ ∃ now,
      s.clock.lobby = some now ∧ closeTime (amended (marked b.mask) b s.shows.recs[i]) ≤ now := by
    simpa [Option.any_eq_true] using hc
  exact absurd (hp now hl hm) (Nat.not_lt.mpr late)

theorem applyAmend_unplaced (h : timesMarked m = false ∨ s.clock.lobby = none)
    (hf : s.win.flight = some f) (hv : s.win.windowValid = true) :
    (applyAmend m b capture i s).shows =
        { s.shows with
          recs := put s.shows.recs i
            (amendEnds m s.shows.cfg s.shows.recs[i] (amended m b s.shows.recs[i])) } ∧
      (applyAmend m b capture i s).bus.toClock = s.bus.toClock ∧
      (applyAmend m b capture i s).bus.toArbiter = s.bus.toArbiter ++ delayedMsgs m b i s ++
        amendAsks m s.shows.cfg i s.shows.recs[i] (amended m b s.shows.recs[i]) ∧
      EndsWith .done s.shows.recs[i].state.code f (applyAmend m b capture i s) := by
  have placed := amendPlaced_unplaced (b := b) (i := i) h
  have effect := applyAmend_effect (s := s) (f := f) (m := m) (b := b) (i := i) (capture := capture)
    (now := amended m b s.shows.recs[i]) (by rw [placed, setShow_recs, put_same]) (by rw [placed]; rfl)
    rfl (by rw [placed]; exact hf) (by rw [placed]; exact hv)
  rw [placed] at effect
  obtain ⟨shows, rest⟩ := effect
  refine ⟨shows.trans ?_, rest⟩
  simp only [setShow, put_put_same]

theorem applyAmend_open {now : Nat} (h : timesMarked m = true) (hl : s.clock.lobby = some now)
    (ho : amendedState (amended m b s.shows.recs[i]) now ≠ .closed)
    (hf : s.win.flight = some f) (hv : s.win.windowValid = true) :
    let placed := movedTo (amendedState (amended m b s.shows.recs[i]) now)
      (unwaited (amended m b s.shows.recs[i]))
    (applyAmend m b capture i s).shows =
        { s.shows with
          recs := put s.shows.recs i (amendEnds m s.shows.cfg s.shows.recs[i] placed) } ∧
      (applyAmend m b capture i s).bus.toClock = s.bus.toClock ++
        ((dueTime (amended m b s.shows.recs[i])
            (amendedState (amended m b s.shows.recs[i]) now)).map fun due =>
          ClockRequest.schedule ⟨i, amendedState (amended m b s.shows.recs[i]) now, due⟩).toList ∧
      (applyAmend m b capture i s).bus.toArbiter = s.bus.toArbiter ++ delayedMsgs m b i s ++
        amendAsks m s.shows.cfg i s.shows.recs[i] placed ∧
      EndsWith .done placed.state.code f (applyAmend m b capture i s) := by
  intro placed
  obtain ⟨shows, win, asked, clock⟩ := amendPlaced_open (b := b) (i := i) h hl ho
  have target : placed.target = (amended m b s.shows.recs[i]).target := by
    unfold placed movedTo
    split
    · rfl
    · rfl
  obtain ⟨shows', clock', asked', ends⟩ := applyAmend_effect (s := s) (f := f) (m := m) (b := b)
    (i := i) (capture := capture) (now := placed) (by rw [shows, put_same]) (by rw [shows]) target
    (by rw [win, hf]) (by rw [win, hv])
  refine ⟨shows'.trans ?_, clock'.trans clock, by rw [asked', asked], ends⟩
  rw [shows]
  simp only [put_put_same]

theorem applyAmend_closed {now : Nat} (h : timesMarked m = true) (hl : s.clock.lobby = some now)
    (ho : amendedState (amended m b s.shows.recs[i]) now = .closed)
    (hf : s.win.flight = some f) (hv : s.win.windowValid = true) :
    ClosedAs (amendClosedRec (amended m b s.shows.recs[i])) .showClosed i [] (delayedMsgs m b i s) s
        (applyAmend m b capture i s) ∧
      OtherShowsStay i s (applyAmend m b capture i s) ∧
      (applyAmend m b capture i s).bus.toClock = s.bus.toClock ++ [.withdraw i] ∧
      EndsWith .done 6 f (applyAmend m b capture i s) := by
  obtain ⟨⟨⟨holds, list⟩, record, asked⟩, others, cfg, clock, flight, valid⟩ :=
    amendPlaced_closed (b := b) (i := i) h hl ho
  obtain ⟨same, none⟩ := amendEnds_closed (m := m) (i := i) (c := s.shows.cfg)
    (before := s.shows.recs[i]) (now := amendClosedRec (amended m b s.shows.recs[i]))
    (n := (amendClosedRec (amended m b s.shows.recs[i])).held - seatsHeldFor s i) rfl
  obtain ⟨shows', clock', asked', ends⟩ := applyAmend_effect (s := s) (f := f) (m := m) (b := b)
    (i := i) (capture := capture) record cfg rfl (by rw [flight, hf]) (by rw [valid, hv])
  rw [same] at shows'
  rw [none, List.append_nil, asked, List.append_nil] at asked'
  refine ⟨⟨⟨fun k => ?_, ?_⟩, ?_, asked'⟩, fun j hj => ?_, clock'.trans clock, ends⟩
  · rw [shows', holds]
  · rw [shows', list]
  · rw [shows']
    exact put_same _ _ _
  · rw [shows']
    exact (put_other _ _ _ _ hj).trans (others j hj)

/-- An amend changes no other show. -/
theorem applyAmend_others (hf : s.win.flight = some f) (hv : s.win.windowValid = true) :
    OtherShowsStay i s (applyAmend m b capture i s) := by
  by_cases ht : timesMarked m = false ∨ s.clock.lobby = none
  · obtain ⟨shows, -⟩ := applyAmend_unplaced (b := b) (i := i) (capture := capture) ht hf hv
    exact fun j hj => shows ▸ put_other _ _ _ _ hj
  · obtain ⟨timed, lobby⟩ := not_or.mp ht
    obtain ⟨now, hl⟩ := Option.ne_none_iff_exists'.mp lobby
    have timed : timesMarked m = true := Bool.eq_true_of_not_eq_false timed
    by_cases ho : amendedState (amended m b s.shows.recs[i]) now = .closed
    · exact (applyAmend_closed timed hl ho hf hv).2.1
    · obtain ⟨shows, -⟩ := applyAmend_open (b := b) (i := i) (capture := capture) timed hl ho hf hv
      exact fun j hj => shows ▸ put_other _ _ _ _ hj

theorem amendLive_others (hf : s.win.flight = some f) (hv : s.win.windowValid = true) :
    OtherShowsStay i s (amendLive b capture i s) := by
  unfold amendLive
  split
  case h_1 n _ =>
    obtain ⟨shows, -⟩ := finish_refused .badField n hf hv
    exact fun j _ => by rw [shows]
  case h_2 =>
    split
    · obtain ⟨shows, -⟩ := finishOpen_refused .past hf hv
      exact fun j _ => by rw [shows]
    · exact applyAmend_others hf hv

theorem showAmend_others (h : b.index = i.val) (hf : s.win.flight = some f)
    (hv : s.win.windowValid = true) : OtherShowsStay i s (showAmend b capture s) := by
  cases live : s.shows.recs[i].state.isLive with
  | true => exact showAmend_live (capture := capture) h live ▸ amendLive_others hf hv
  | false =>
    obtain he | ho := over_of_not_isLive live
    · obtain ⟨shows, -⟩ := finishOpen_refused .noRecord hf hv
      exact showAmend_empty (capture := capture) h he ▸ fun j _ => by rw [shows]
    · obtain ⟨shows, -⟩ := finishOpen_refused .wrongState hf hv
      exact showAmend_over (capture := capture) h ho ▸ fun j _ => by rw [shows]

/-- Settles O36, by the placing of an amend, its card, and its recount. -/
theorem amendWritesTheMarkedFields : Obligations.AmendWritesTheMarkedFields := by
  unfold Obligations.AmendWritesTheMarkedFields
  refine ⟨?_, ?_⟩
  · rintro s f ⟨handed, hv⟩ beyond
    exact ⟨_, (exec_showAmend handed).trans (congrArg _ (showAmend_beyond beyond s)),
      finishOpen_refused .badIndex (handedEntry_flight handed) hv⟩
  · rintro s f i ⟨handed, hv⟩
    intro b m sh new times ends asks delayed named
    have hf := handedEntry_flight handed
    refine ⟨_, exec_showAmend handed, showAmend_others named hf hv, fun empty => ?_, fun gone => ?_,
      fun n live bad => ?_, fun now live good lobby hm past => ?_, fun live good still => ?_,
      fun now live good lobby timed hm => ?_⟩
    · obtain ⟨shows, -, refused⟩ := finishOpen_refused .noRecord hf hv
      exact showAmend_empty (capture := f.bytes.take 16) named empty ▸ ⟨shows, refused⟩
    · obtain ⟨shows, -, refused⟩ := finishOpen_refused .wrongState hf hv
      exact showAmend_over (capture := f.bytes.take 16) named gone ▸ ⟨shows, refused⟩
    · obtain ⟨shows, -, refused⟩ := finish_refused .badField n hf hv
      rw [showAmend_live named live, amendLive_bad bad]
      exact ⟨shows, refused⟩
    · obtain ⟨shows, -, refused⟩ := finishOpen_refused .past hf hv
      rw [showAmend_live named live, amendLive_past good lobby hm past]
      exact ⟨shows, refused⟩
    · have early : ∀ now, s.clock.lobby = some now → (m 5 || m 8) = true → now < closeTime new := by
        intro now lobby hm
        obtain none | none := still
        · simp only [times, Bool.or_eq_false_iff] at none
          simp [none] at hm
        · exact absurd (lobby.symm.trans none) nofun
      obtain ⟨shows, clock, asked, done⟩ := applyAmend_unplaced (m := m) (b := b) (i := i)
        (capture := f.bytes.take 16) still hf hv
      rw [showAmend_live named live, amendLive_applied good early]
      refine ⟨?_, by rw [shows], clock, asked, done⟩
      rw [shows]
      exact put_same _ _ _
    · have early : ∀ n, s.clock.lobby = some n → (m 5 || m 8) = true → n < closeTime new := by
        intro n lobby' marked
        cases lobby.symm.trans lobby'
        exact hm marked
      rw [showAmend_live named live, amendLive_applied good early]
      intro st placed
      refine ⟨fun still => ?_, fun closed => ?_⟩
      · obtain ⟨shows, clock, asked, done⟩ := applyAmend_open (m := m) (b := b) (i := i)
          (capture := f.bytes.take 16) timed lobby still hf hv
        refine ⟨?_, by rw [shows], clock, asked, done⟩
        rw [shows]
        exact put_same _ _ _
      · obtain ⟨closed, -, clock, done⟩ := applyAmend_closed (m := m) (b := b) (i := i)
          (capture := f.bytes.take 16) timed lobby closed hf hv
        exact ⟨closed, clock, done⟩

end

end Sys2Proof.Machine

namespace Sys2Proof.Machine

section
variable {s : State} {f : Flight}

/-! ## SALE and BLOCK -/

/-- A hold freed: its seats leave held, its slot is free with the next generation, and the Hold List lets
go of it (R43). -/
theorem freeHold_shows {k : HoldIx} {h : HoldRec} (hk : holdAt s k = some h) :
    (freeHold k s).shows = { s.shows with
      recs := put s.shows.recs h.showIx
        { s.shows.recs[h.showIx] with held := s.shows.recs[h.showIx].held - h.seats }
      holds := put s.shows.holds k ⟨(s.shows.holds[k].gen + 1) % 256, none⟩
      holdList := s.shows.holdList.filter (· != k) } := by
  simp only [freeHold, hk]

theorem freeHold_bus (k : HoldIx) (s : State) :
    (freeHold k s).bus = s.bus ∧ (freeHold k s).win = s.win := by
  simp

variable {i : ShowIx} {capture : List Byte} {before now : ShowRec}

/-- A tally entry that has written the record `now` of its show over the state `u` (R26). -/
theorem endTally_counts {u : State} (code : OutcomeCode) (capture : List Byte) (before now : ShowRec)
    (hf : u.win.flight = some f) (hv : u.win.windowValid = true) :
    let t := endTally code i before capture (setShow i now u)
    t.shows = { u.shows with recs := put u.shows.recs i (recounted u.shows.cfg before now) } ∧
      t.bus.toArbiter = u.bus.toArbiter ++ soldOutMsgs u.shows.cfg i before now ∧
      EndsWith code t.shows.recs[i].avail f t :=
  ⟨endTally_shows code i before now capture u, endTally_toArbiter code i before now capture u,
    endTally_ends code i before capture hf hv⟩

theorem exec_sale (h : handedEntry .sale s = some f) :
    exec .sale s = .next (takeSale (readSaleBody (entryBody f.bytes)) (f.bytes.take 16) s) :=
  congrArg Host.Outcome.next (takeEntry_handed h _)

theorem exec_block (h : handedEntry .block s = some f) :
    exec .block s = .next (takeBlock (readBlockBody (entryBody f.bytes)).1
      (readBlockBody (entryBody f.bytes)).2 (f.bytes.take 16) s) :=
  congrArg Host.Outcome.next (takeEntry_handed h _)

variable {b : SaleBody}

theorem takeSale_beyond (h : 64 ≤ b.index) (s : State) :
    takeSale b capture s = finish .badIndex 0 s := by
  rw [takeSale, indexOf?_of_le h]

theorem takeSale_empty (h : b.index = i.val) (he : s.shows.recs[i].state = .empty) :
    takeSale b capture s = finish .noRecord 0 s := by
  simp only [takeSale, h, indexOf?_val, he]

theorem takeSale_cancelled (h : b.index = i.val) (hc : s.shows.recs[i].state = .cancelled) :
    takeSale b capture s = finish .wrongState s.shows.recs[i].avail s := by
  simp only [takeSale, h, indexOf?_val, hc, finishAvail]

/-- A SALE on a show that takes one is checked for its seats and its present byte (R29). -/
theorem takeSale_taken (h : b.index = i.val) (he : s.shows.recs[i].state ≠ .empty)
    (hc : s.shows.recs[i].state ≠ .cancelled) :
    takeSale b capture s =
      if b.seats = 0 then finish .badField 1 s
      else if 1 < b.present then finish .badField 2 s
      else applySale b capture i s := by
  unfold takeSale
  rw [h, indexOf?_val]
  dsimp only
  split
  case h_1 e => exact absurd e he
  case h_2 e => exact absurd e hc
  case h_3 => rfl

/-- The record of a SALE, held as `held` says (R29). -/
abbrev soldRec (b : SaleBody) (held : Nat) (sh : ShowRec) : ShowRec :=
  { sh with held := held, sold := min (sh.sold + b.seats) 65535 }

/-- The code of a SALE that carries no hold reference (R29). -/
def saleCode (b : SaleBody) (sh : ShowRec) : OutcomeCode :=
  if 65535 < sh.sold + b.seats then .clamped else .done

theorem applySale_plain (h : b.present = 0) :
    applySale b capture i s = endTally (saleCode b s.shows.recs[i]) i s.shows.recs[i] capture
      (setShow i (soldRec b s.shows.recs[i].held s.shows.recs[i]) s) := by
  simp only [applySale, if_pos h]
  rfl

theorem applySale_gone (h : b.present = 1) (hl : liveHold s b.ref = none) :
    applySale b capture i s = endTally .holdGone i s.shows.recs[i] capture
      (setShow i (soldRec b s.shows.recs[i].held s.shows.recs[i]) s) := by
  simp only [applySale, h, hl]
  rfl

theorem applySale_other {k : HoldIx} {x : HoldRec} (h : b.present = 1)
    (hl : liveHold s b.ref = some (k, x)) (hx : x.showIx ≠ i) :
    applySale b capture i s = endTally .holdMismatch i s.shows.recs[i] capture
      (setShow i (soldRec b s.shows.recs[i].held s.shows.recs[i]) s) := by
  simp only [applySale, h, hl, if_neg hx]
  rfl

theorem applySale_held {k : HoldIx} {x : HoldRec} (h : b.present = 1)
    (hl : liveHold s b.ref = some (k, x)) (hx : x.showIx = i) :
    applySale b capture i s = endTally (saleCode b s.shows.recs[i]) i s.shows.recs[i] capture
      (setShow i (soldRec b (s.shows.recs[i].held - x.seats) s.shows.recs[i])
        (handMirror (.hold k) (freeHold k s))) := by
  subst hx
  have freed : (handMirror (.hold k) (freeHold k s)).shows.recs[x.showIx] =
      { s.shows.recs[x.showIx] with held := s.shows.recs[x.showIx].held - x.seats } := by
    rw [(handMirror_keeps _ _).2.2.1, freeHold_shows (liveHold_holdAt hl), put_same]
  simp only [applySale, h, hl]
  rw [freed]
  rfl

/-- What a tally entry over a state with the Show Table of `s` leaves: show `i` counted again from `now`. -/
theorem endTally_over (code : OutcomeCode) (capture : List Byte) (before now : ShowRec)
    (hf : s.win.flight = some f) (hv : s.win.windowValid = true) :
    let t := endTally code i before capture (setShow i now s)
    OtherShowsStay i s t ∧
      (t.shows.recs[i] = recounted s.shows.cfg before now ∧
        t.bus.toArbiter = s.bus.toArbiter ++ soldOutMsgs s.shows.cfg i before now) ∧
      t.shows.holds = s.shows.holds ∧ EndsWith code t.shows.recs[i].avail f t := by
  intro t
  obtain ⟨shows, asked, done⟩ := endTally_counts (i := i) code capture before now hf hv
  refine ⟨fun j hj => ?_, ⟨?_, asked⟩, congrArg (·.holds) shows, done⟩
  · rw [shows]
    exact put_other _ _ _ _ hj
  · rw [shows]
    exact put_same _ _ _

/-- The SALE of a live hold of its show: the hold is freed, and the show counted once (R50). -/
theorem applySale_frees {k : HoldIx} {x : HoldRec} (h : b.present = 1)
    (hl : liveHold s b.ref = some (k, x)) (hx : x.showIx = i)
    (hf : s.win.flight = some f) (hv : s.win.windowValid = true) :
    let t := applySale b capture i s
    let now := soldRec b (s.shows.recs[i].held - x.seats) s.shows.recs[i]
    OtherShowsStay i s t ∧
      (t.shows.recs[i] = recounted s.shows.cfg s.shows.recs[i] now ∧
        t.bus.toArbiter = s.bus.toArbiter ++ soldOutMsgs s.shows.cfg i s.shows.recs[i] now) ∧
      OtherHoldsStay k s t ∧ t.shows.holds[k] = ⟨(s.shows.holds[k].gen + 1) % 256, none⟩ ∧
      t.shows.holdList = s.shows.holdList.filter (· != k) ∧
      EndsWith (saleCode b s.shows.recs[i]) t.shows.recs[i].avail f t := by
  subst hx
  intro t now
  have freed : (handMirror (.hold k) (freeHold k s)).shows = (freeHold k s).shows :=
    (handMirror_keeps _ _).2.2.1
  rw [freeHold_shows (liveHold_holdAt hl)] at freed
  obtain ⟨shows, asked, done⟩ := endTally_counts (i := x.showIx) (f := f)
    (u := handMirror (.hold k) (freeHold k s)) (saleCode b s.shows.recs[x.showIx]) capture
    s.shows.recs[x.showIx] now (by simpa using hf) (by simpa using hv)
  rw [← applySale_held h hl rfl, freed] at shows
  rw [← applySale_held h hl rfl, freed] at asked
  rw [← applySale_held h hl rfl] at done
  refine ⟨fun j hj => ?_, ⟨?_, asked.trans ?_⟩, fun j hj => ?_, ?_, ?_, done⟩
  · rw [shows]
    exact (put_other _ _ _ _ hj).trans (put_other _ _ _ _ hj)
  · rw [shows]
    exact put_same _ _ _
  · simp
  · rw [shows]
    exact put_other _ _ _ _ hj
  · rw [shows]
    exact put_same _ _ _
  · rw [shows]

theorem takeBlock_beyond {n : Nat} (h : 64 ≤ n) (delta : Int) (s : State) :
    takeBlock n delta capture s = finish .badIndex 0 s := by
  rw [takeBlock, indexOf?_of_le h]

theorem takeBlock_empty (delta : Int) (he : s.shows.recs[i].state = .empty) :
    takeBlock i.val delta capture s = finish .noRecord 0 s := by
  simp only [takeBlock, indexOf?_val, he]

theorem takeBlock_cancelled (delta : Int) (hc : s.shows.recs[i].state = .cancelled) :
    takeBlock i.val delta capture s = finish .wrongState s.shows.recs[i].avail s := by
  simp only [takeBlock, indexOf?_val, hc, finishAvail]

/-- The record of a BLOCK (R32). -/
abbrev blockedRec (delta : Int) (sh : ShowRec) : ShowRec :=
  { sh with blocked := (max 0 (min 2000 ((sh.blocked : Int) + delta))).toNat }

theorem moveBlocked_eq (blocked : Nat) (delta : Int) :
    (moveBlocked blocked delta).1 = (max 0 (min 2000 ((blocked : Int) + delta))).toNat ∧
      ((moveBlocked blocked delta).2 = true ↔
        (blocked : Int) + delta < 0 ∨ 2000 < (blocked : Int) + delta) := by
  have top : maxBlocked = 2000 := rfl
  unfold moveBlocked
  dsimp only
  by_cases low : (blocked : Int) + delta < 0
  · rw [if_pos low]
    exact ⟨by dsimp only; omega, by simp [low]⟩
  · rw [if_neg low]
    by_cases high : (maxBlocked : Int) < blocked + delta
    · rw [if_pos high]
      exact ⟨by dsimp only; omega, iff_of_true rfl (.inr high)⟩
    · rw [if_neg high]
      exact ⟨by dsimp only; omega, iff_of_false nofun (not_or.mpr ⟨low, high⟩)⟩

theorem takeBlock_taken {delta : Int} (he : s.shows.recs[i].state ≠ .empty)
    (hc : s.shows.recs[i].state ≠ .cancelled) :
    takeBlock i.val delta capture s =
      if delta = 0 then finish .done s.shows.recs[i].avail s
      else endTally
        (if (s.shows.recs[i].blocked : Int) + delta < 0 ∨ 2000 < (s.shows.recs[i].blocked : Int) + delta
          then .clamped else .done) i s.shows.recs[i] capture
        (setShow i (blockedRec delta s.shows.recs[i]) s) := by
  obtain ⟨count, clamped⟩ := moveBlocked_eq s.shows.recs[i].blocked delta
  unfold takeBlock blockedRec
  rw [indexOf?_val]
  dsimp only
  split
  case h_1 e => exact absurd e he
  case h_2 e => exact absurd e hc
  case h_3 => simp only [count, clamped, finishAvail]

/-- A BLOCK of a delta other than 0 counts the show again (R32). -/
theorem takeBlock_counts {delta : Int} (he : s.shows.recs[i].state ≠ .empty)
    (hc : s.shows.recs[i].state ≠ .cancelled) (hz : delta ≠ 0)
    (hf : s.win.flight = some f) (hv : s.win.windowValid = true) :
    let t := takeBlock i.val delta capture s
    OtherShowsStay i s t ∧
      (t.shows.recs[i] =
          recounted s.shows.cfg s.shows.recs[i] (blockedRec delta s.shows.recs[i]) ∧
        t.bus.toArbiter = s.bus.toArbiter ++
          soldOutMsgs s.shows.cfg i s.shows.recs[i] (blockedRec delta s.shows.recs[i])) ∧
      t.shows.holds = s.shows.holds ∧
      EndsWith
        (if (s.shows.recs[i].blocked : Int) + delta < 0 ∨ 2000 < (s.shows.recs[i].blocked : Int) + delta
          then .clamped else .done) t.shows.recs[i].avail f t := by
  rw [takeBlock_taken he hc, if_neg hz]
  exact endTally_over _ capture _ _ hf hv

/-- Settles O39, by the checks of the two entries in order and the recount of every tally entry. -/
theorem saleAndBlockCountSeats : Obligations.SaleAndBlockCountSeats := by
  unfold Obligations.SaleAndBlockCountSeats
  refine ⟨fun s f c hc => ?_, fun s f i named => ?_⟩
  · simp only [List.mem_cons, List.not_mem_nil, or_false] at hc
    obtain rfl | rfl := hc
    · rintro ⟨handed, hv⟩ index refused
      have hf := handedEntry_flight handed
      have refuse {code detail}
          (h : takeSale (readSaleBody (entryBody f.bytes)) (f.bytes.take 16) s =
            finish code detail s) : refused code detail :=
        ⟨_, (exec_sale handed).trans (congrArg _ h), finish_refused code detail hf hv⟩
      refine ⟨fun h => refuse (takeSale_beyond h s), fun i named => ⟨fun h => ?_, fun h => ?_,
        fun _ he hc h => ?_⟩⟩
      · exact refuse (takeSale_empty named h)
      · exact refuse (takeSale_cancelled named h)
      · exact refuse ((takeSale_taken named he hc).trans (if_pos h))
    · rintro ⟨handed, hv⟩ index refused
      have hf := handedEntry_flight handed
      have refuse {code detail}
          (h : takeBlock index (readBlockBody (entryBody f.bytes)).2 (f.bytes.take 16) s =
            finish code detail s) : refused code detail :=
        ⟨_, (exec_block handed).trans (congrArg _ h), finish_refused code detail hf hv⟩
      refine ⟨fun h => refuse (takeBlock_beyond h _ s), fun i named => ⟨fun h => ?_, fun h => ?_,
        nofun⟩⟩
      · exact refuse (named ▸ takeBlock_empty _ h)
      · exact refuse (named ▸ takeBlock_cancelled _ h)
  · intro sh counted
    refine ⟨?_, ?_⟩
    · rintro ⟨handed, hv⟩
      intro b sold code he hc hs
      have hf := handedEntry_flight handed
      refine ⟨_, (exec_sale handed).trans (congrArg _ ((takeSale_taken named he hc).trans (if_neg hs))),
        ?_⟩
      by_cases bad : 1 < b.present
      · obtain ⟨shows, -, refused⟩ := finish_refused .badField 2 hf hv
        rw [if_pos bad]
        exact ⟨fun j _ => by rw [shows], fun _ => ⟨shows, refused⟩, fun h => by omega,
          fun h => by omega, fun _ _ h => by omega, fun _ _ h => by omega⟩
      rw [if_neg bad]
      have plain (code : OutcomeCode) := endTally_over (i := i) code (f.bytes.take 16)
        s.shows.recs[i] (soldRec b s.shows.recs[i].held s.shows.recs[i]) hf hv
      by_cases none : b.present = 0
      · rw [applySale_plain none]
        obtain ⟨others, count, holds, done⟩ := plain (saleCode b s.shows.recs[i])
        exact ⟨others, fun h => absurd h bad, fun _ => ⟨count, holds, done⟩, fun h => by omega,
          fun _ _ h => by omega, fun _ _ h => by omega⟩
      have one : b.present = 1 := by omega
      cases hl : liveHold s b.ref with
      | none =>
        rw [applySale_gone one hl]
        obtain ⟨others, count, holds, done⟩ := plain .holdGone
        exact ⟨others, fun h => absurd h bad, fun h => absurd h none,
          fun _ _ => ⟨count, holds, done⟩, nofun, nofun⟩
      | some found =>
        obtain ⟨k, x⟩ := found
        by_cases own : x.showIx = i
        · obtain ⟨others, count, stay, slot, list, done⟩ :=
            applySale_frees (capture := f.bytes.take 16) one hl own hf hv
          refine ⟨others, fun h => absurd h bad, fun h => absurd h none, nofun, ?_, ?_⟩
          · rintro k' x' - ⟨⟩ other
            exact absurd own other
          · rintro k' x' - ⟨⟩ -
            exact ⟨count, stay, slot, list, done⟩
        · rw [applySale_other one hl own]
          obtain ⟨others, count, holds, done⟩ := plain .holdMismatch
          refine ⟨others, fun h => absurd h bad, fun h => absurd h none, nofun, ?_, ?_⟩
          · rintro k' x' - ⟨⟩ -
            exact ⟨count, holds, done⟩
          · rintro k' x' - ⟨⟩ same
            exact absurd same own
    · rintro ⟨handed, hv⟩
      intro delta after blocked he hc
      have hf := handedEntry_flight handed
      refine ⟨takeBlock i.val delta (f.bytes.take 16) s,
        (exec_block handed).trans (congrArg _ (congrArg (takeBlock · delta _ s) named)), ?_⟩
      by_cases zero : delta = 0
      · obtain ⟨shows, bus, done⟩ := finish_refused .done s.shows.recs[i].avail hf hv
        rw [takeBlock_taken he hc, if_pos zero]
        exact ⟨fun j _ => by rw [shows], by rw [shows], fun _ => ⟨shows, bus, done⟩,
          fun h => absurd zero h⟩
      · obtain ⟨others, count, holds, done⟩ :=
          takeBlock_counts (capture := f.bytes.take 16) he hc zero hf hv
        exact ⟨others, holds, fun h => absurd h zero, fun _ => ⟨count, done⟩⟩

end

end Sys2Proof.Machine

namespace Sys2Proof.Machine

section
variable {s : State}

/-! ## Requests of desks to the Show Table -/

/-- The state when a request has left the intake hand (R65). -/
def handEmptied (s : State) : State := { s with desks := { s.desks with inHand := none } }

/-- An answer sent at the end of a request, its desk's port as the request found it. -/
theorem sendDesk_answers {d : DeskIx} {u : State} (hd : u.desks = (handEmptied s).desks)
    (room : HasRoom s d) (seq : Byte) (m : DeskMsg) :
    (sendDesk d seq m u).desks.inHand = none ∧ (sendDesk d seq m u).shows = u.shows ∧
      (sendDesk d seq m u).bus = u.bus ∧ Told d seq m s (sendDesk d seq m u) := by
  have ports : u.desks.ports = s.desks.ports := congrArg (·.ports) hd
  have room' : HasRoom u d := (hasRoom_congr ports).mpr room
  rw [sendDesk_room room']
  refine ⟨congrArg (·.inHand) hd, rfl, rfl, ?_⟩
  change put u.desks.ports d (Port.enqueue ⟨seq, m⟩ u.desks.ports[d]) = _
  rw [ports]

/-! ## The recount of a hold placed or freed -/

/-- The end of an event of a hold: its show is counted again, its own record handed, and the show's
(R45, R48, R49). -/
def holdCounted (i : ShowIx) (before : ShowRec) (k : HoldIx) (u : State) : State :=
  commitShow i before (handMirror (.hold k) (recompute i before noCapture u))

theorem holdCounted_effect (i : ShowIx) (before : ShowRec) (k : HoldIx) (u : State) :
    (holdCounted i before k u).shows =
        { u.shows with
          recs := put u.shows.recs i (recounted u.shows.cfg before u.shows.recs[i]) } ∧
      (holdCounted i before k u).bus.toArbiter =
        u.bus.toArbiter ++ soldOutMsgs u.shows.cfg i before u.shows.recs[i] ∧
      (holdCounted i before k u).desks = u.desks := by
  obtain ⟨shows, asked⟩ := recompute_effect i before noCapture u
  unfold holdCounted
  refine ⟨?_, ?_, by simp⟩
  · rw [← shows]
    simp
  · rw [(commitShow_requests _ _ _).2, ← asked]
    simp

/-! ## HOLD -/

theorem exec_hold {e : IntakeEntry} (h : requestInHand .hold s = some e) :
    exec .hold s = .next (takeHold e (handEmptied s)) :=
  congrArg Host.Outcome.next (takeRequest_inHand h _)

/-- A hold written in its slot, its seats counted in held (R45). -/
def holdWritten (d : DeskIx) (i : ShowIx) (seats : Nat) (k : HoldIx) (s : State) : State :=
  { s with
    shows :=
      { s.shows with
        recs := put s.shows.recs i { s.shows.recs[i] with held := s.shows.recs[i].held + seats }
        holds := put s.shows.holds k { s.shows.holds[k] with hold := some (newHold s d i seats) }
        placementCounter := (newHold s d i seats).placedSeq } }

/-- And entered in the Hold List (R41, R45). -/
def holdEntered (d : DeskIx) (i : ShowIx) (seats : Nat) (k : HoldIx) (s : State) : State :=
  { holdWritten d i seats k s with
    shows :=
      { (holdWritten d i seats k s).shows with
        holdList := enterHold (expiryOf (holdWritten d i seats k s)) k s.shows.holdList } }

/-- A hold placed, its desk not yet told. -/
def holdPlaced (d : DeskIx) (i : ShowIx) (seats : Nat) (k : HoldIx) (s : State) : State :=
  holdCounted i s.shows.recs[i] k (holdEntered d i seats k s)

theorem placeHold_eq (d : DeskIx) (seq : Byte) (i : ShowIx) (seats : Nat) (k : HoldIx) (s : State) :
    placeHold d seq i seats k s =
      sendDesk d seq (.holdOk (holdRef (holdPlaced d i seats k s) k) i s.shows.recs[i].showCode seats
        (holdPlaced d i seats k s).shows.cfg.holdExpiry) (holdPlaced d i seats k s) := rfl

theorem takeHold_refused {e : IntakeEntry} {r : Reason} {avail : Nat}
    (h : holdRefusal s e.desk (fieldAt e.body 0 1) (fieldAt e.body 1 1) = some (r, avail)) :
    takeHold e s = sendDesk e.desk e.seq (.holdRefused r (fieldAt e.body 0 1) avail) s := by
  simp only [takeHold, h]

theorem takeHold_placed {e : IntakeEntry} {i : ShowIx} {k : HoldIx} (hi : fieldAt e.body 0 1 = i.val)
    (h : holdRefusal s e.desk (fieldAt e.body 0 1) (fieldAt e.body 1 1) = none)
    (hk : freeHoldSlot s = some k) :
    takeHold e s = placeHold e.desk e.seq i (fieldAt e.body 1 1) k s := by
  simp only [takeHold, h, hk]
  rw [hi, indexOf?_val]

theorem holdPlaced_effect (d : DeskIx) (i : ShowIx) (seats : Nat) (k : HoldIx) (s : State) :
    let t := holdPlaced d i seats k s
    OtherShowsStay i s t ∧ OtherHoldsStay k s t ∧
      t.shows.holds[k] = ⟨s.shows.holds[k].gen, some (newHold s d i seats)⟩ ∧
      t.shows.placementCounter = (s.shows.placementCounter + 1) % 4294967296 ∧
      k ∈ t.shows.holdList ∧
      t.shows.recs[i] = recounted s.shows.cfg s.shows.recs[i]
        { s.shows.recs[i] with held := s.shows.recs[i].held + seats } ∧
      t.bus.toArbiter = s.bus.toArbiter ++ soldOutMsgs s.shows.cfg i s.shows.recs[i]
        { s.shows.recs[i] with held := s.shows.recs[i].held + seats } ∧
      t.shows.cfg = s.shows.cfg ∧ t.desks = s.desks := by
  intro t
  obtain ⟨shows, asked, desks⟩ :=
    holdCounted_effect i s.shows.recs[i] k (holdEntered d i seats k s)
  have written : (holdEntered d i seats k s).shows.recs[i] =
      { s.shows.recs[i] with held := s.shows.recs[i].held + seats } := put_same _ _ _
  rw [written] at shows asked
  change t.shows = _ at shows
  refine ⟨fun j hj => ?_, fun j hj => ?_, ?_, ?_, ?_, ?_, asked, ?_, desks⟩
  · rw [shows]
    exact (put_other _ _ _ _ hj).trans (put_other _ _ _ _ hj)
  · rw [shows]
    exact put_other _ _ _ _ hj
  · rw [shows]
    exact put_same _ _ _
  · rw [shows]
    rfl
  · rw [shows]
    exact mem_enterHold.mpr (.inl rfl)
  · rw [shows]
    exact put_same _ _ _
  · rw [shows]
    rfl

theorem mkRef_eq (gen k : Nat) : mkRef gen k = 256 * gen + k := by
  rw [mkRef, Nat.mul_comm]

/-- A hold is told of under the reference of its slot, and its desk's port is the one found. -/
theorem placeHold_answers {d : DeskIx} (room : HasRoom s d) (seq : Byte) (i : ShowIx) (seats : Nat)
    (k : HoldIx) :
    let t := placeHold d seq i seats k (handEmptied s)
    t.desks.inHand = none ∧ t.shows = (holdPlaced d i seats k (handEmptied s)).shows ∧
      t.bus = (holdPlaced d i seats k (handEmptied s)).bus ∧
      Told d seq (.holdOk (256 * s.shows.holds[k].gen + k.val) i.val s.shows.recs[i].showCode seats
        s.shows.cfg.holdExpiry) s t := by
  obtain ⟨-, -, slot, -, -, -, -, cfg, desks⟩ := holdPlaced_effect d i seats k (handEmptied s)
  have ref : holdRef (holdPlaced d i seats k (handEmptied s)) k =
      256 * s.shows.holds[k].gen + k.val := by
    rw [holdRef, slot, mkRef_eq]
    rfl
  rw [placeHold_eq, ref, cfg]
  exact sendDesk_answers desks room _ _

theorem freeHoldSlot_congr {t u : State} (h : t.shows.holds = u.shows.holds) :
    freeHoldSlot t = freeHoldSlot u := by
  simp only [freeHoldSlot, holdAt, h]

theorem takeHold_inHand {e : IntakeEntry} (room : HasRoom s e.desk) :
    (takeHold e (handEmptied s)).desks.inHand = none := by
  unfold takeHold
  dsimp only
  split
  · exact (placeHold_answers room _ _ _ _).1
  · exact (sendDesk_answers rfl room _ _).1
  · exact (sendDesk_answers rfl room _ _).1

/-- Settles O40, by the first reason that applies, and by what a hold placed writes. -/
theorem holdIsPlacedOrRefused : Obligations.HoldIsPlacedOrRefused := by
  intro s e handed room n seats
  refine ⟨_, exec_hold handed, takeHold_inHand room, fun r avail refused => ?_,
    fun i k named accepted free => ?_⟩
  · obtain ⟨-, shows, -, told⟩ :=
      sendDesk_answers (u := handEmptied s) rfl room e.seq (.holdRefused r n avail)
    rw [takeHold_refused (s := handEmptied s) refused]
    exact ⟨shows, told⟩
  · have found : freeHoldSlot (handEmptied s) = some k :=
      (freeHoldSlot_congr (t := handEmptied s) (u := s) rfl).trans free
    obtain ⟨-, shows, bus, told⟩ := placeHold_answers room e.seq i seats k
    obtain ⟨others, holds, slot, counter, listed, counted, asked, -⟩ :=
      holdPlaced_effect e.desk i seats k (handEmptied s)
    have eq : takeHold e (handEmptied s) = placeHold e.desk e.seq i seats k (handEmptied s) :=
      takeHold_placed named accepted found
    rw [eq]
    refine ⟨fun j hj => ?_, fun j hj => ?_, ?_, ?_, ?_, ?_, ?_, told⟩
    · rw [shows]
      exact others j hj
    · rw [shows]
      exact holds j hj
    · rw [shows]
      exact slot
    · rw [shows]
      exact counter
    · rw [shows]
      exact listed
    · rw [shows]
      exact counted
    · rw [bus]
      exact asked

/-! ## EXTEND -/

theorem exec_extend {e : IntakeEntry} (h : requestInHand .extend s = some e) :
    exec .extend s = .next (takeExtend e (handEmptied s)) :=
  congrArg Host.Outcome.next (takeRequest_inHand h _)

/-- The hold of an EXTEND (R47). -/
abbrev extendedHold (h : HoldRec) (s : State) : HoldRec :=
  { h with
    expiry := min (s.clock.partSeconds + s.shows.cfg.holdExpiry) 4294967295
    extensionsUsed := h.extensionsUsed + 1
    placedSeq := (s.shows.placementCounter + 1) % 4294967296 }

/-- A hold extended in its slot. -/
def extendWritten (k : HoldIx) (h : HoldRec) (s : State) : State :=
  { s with
    shows :=
      { s.shows with
        holds := put s.shows.holds k { s.shows.holds[k] with hold := some (extendedHold h s) }
        placementCounter := (s.shows.placementCounter + 1) % 4294967296 } }

/-- And in its new place in the Hold List. -/
def extendEntered (k : HoldIx) (h : HoldRec) (s : State) : State :=
  { extendWritten k h s with
    shows :=
      { (extendWritten k h s).shows with
        holdList := enterHold (expiryOf (extendWritten k h s)) k (s.shows.holdList.filter (· != k)) } }

theorem extendHold_eq (e : IntakeEntry) (ref : Nat) (k : HoldIx) (h : HoldRec) (s : State) :
    extendHold e ref k h s =
      sendDesk e.desk e.seq (.extended ref s.shows.cfg.holdExpiry (2 - (h.extensionsUsed + 1)))
        (handMirror (.hold k) (extendEntered k h s)) := rfl

theorem takeExtend_gone {e : IntakeEntry} (h : liveHold s (fieldAt e.body 0 2) = none) :
    takeExtend e s =
      sendDesk e.desk e.seq (.extendRefused (fieldAt e.body 0 2) .notLive) s := by
  simp only [takeExtend, h]

theorem takeExtend_live {e : IntakeEntry} {k : HoldIx} {h : HoldRec}
    (hl : liveHold s (fieldAt e.body 0 2) = some (k, h)) :
    takeExtend e s =
      if h.desk ≠ e.desk then
        sendDesk e.desk e.seq (.extendRefused (fieldAt e.body 0 2) .notOwner) s
      else if ¬ h.extensionsUsed < 2 then
        sendDesk e.desk e.seq (.extendRefused (fieldAt e.body 0 2) .limit) s
      else extendHold e (fieldAt e.body 0 2) k h s := by
  simp only [takeExtend, hl]
  rfl

/-- The expiries that the Hold List orders by are those of the hold slots. -/
theorem expiryOf_congr {t u : State} (h : t.shows.holds = u.shows.holds) : expiryOf t = expiryOf u := by
  funext k
  simp only [expiryOf, holdAt, h]

/-- Settles O41, by the checks of an EXTEND in order. -/
theorem extendRenewsTheExpiry : Obligations.ExtendRenewsTheExpiry := by
  intro s e handed room ref
  refine ⟨_, exec_extend handed, ?_⟩
  have refused (r : Reason) := sendDesk_answers (u := handEmptied s) rfl room e.seq
    (.extendRefused ref r)
  cases hl : liveHold s ref with
  | none =>
    obtain ⟨-, shows, -, told⟩ := refused .notLive
    rw [takeExtend_gone (s := handEmptied s) hl]
    exact ⟨by rw [shows]; rfl, fun _ => ⟨shows, told⟩, nofun⟩
  | some found =>
    obtain ⟨k, h⟩ := found
    rw [takeExtend_live (s := handEmptied s) hl]
    by_cases owner : h.desk ≠ e.desk
    · obtain ⟨-, shows, -, told⟩ := refused .notOwner
      rw [if_pos owner]
      refine ⟨by rw [shows]; rfl, nofun, ?_⟩
      rintro k' h' ⟨⟩
      exact ⟨fun j _ => by rw [shows]; rfl, fun _ => ⟨shows, told⟩, fun own => absurd own owner,
        fun own => absurd own owner⟩
    rw [if_neg owner]
    by_cases limit : ¬ h.extensionsUsed < 2
    · obtain ⟨-, shows, -, told⟩ := refused .limit
      rw [if_pos limit]
      refine ⟨by rw [shows]; rfl, nofun, ?_⟩
      rintro k' h' ⟨⟩
      exact ⟨fun j _ => by rw [shows]; rfl, fun other => absurd other owner,
        fun _ _ => ⟨shows, told⟩, fun _ fewer => absurd fewer limit⟩
    rw [if_neg limit, extendHold_eq]
    obtain ⟨-, shows, -, told⟩ := sendDesk_answers
      (u := handMirror (.hold k) (extendEntered k h (handEmptied s))) (by simp; rfl) room e.seq
      (.extended ref s.shows.cfg.holdExpiry (2 - (h.extensionsUsed + 1)))
    have shows := shows.trans (handMirror_keeps _ _).2.2.1
    refine ⟨by exact congrArg (·.recs) shows, nofun, ?_⟩
    rintro k' h' ⟨⟩
    refine ⟨fun j hj => ?_, fun other => absurd other owner, fun _ more => by omega, fun _ _ => ⟨?_,
      congrArg (·.placementCounter) shows, ?_, told⟩⟩
    · exact (congrArg (·.holds[j]) shows).trans (put_other _ _ _ _ hj)
    · exact (congrArg (·.holds[k]) shows).trans (put_same _ _ _)
    · refine (congrArg (·.holdList) shows).trans ?_
      exact congrArg (enterHold · k _) (expiryOf_congr (congrArg (·.holds) shows)).symm

/-! ## RELEASE and HOLD_EXPIRY -/

theorem exec_release {e : IntakeEntry} (h : requestInHand .release s = some e) :
    exec .release s = .next (takeRelease e (handEmptied s)) :=
  congrArg Host.Outcome.next (takeRequest_inHand h _)

theorem takeRelease_gone {e : IntakeEntry} (h : liveHold s (fieldAt e.body 0 2) = none) :
    takeRelease e s =
      sendDesk e.desk e.seq (.releaseRefused (fieldAt e.body 0 2) .unknownHold) s := by
  simp only [takeRelease, h]

theorem takeRelease_live {e : IntakeEntry} {k : HoldIx} {h : HoldRec}
    (hl : liveHold s (fieldAt e.body 0 2) = some (k, h)) :
    takeRelease e s =
      if h.desk ≠ e.desk then
        sendDesk e.desk e.seq (.releaseRefused (fieldAt e.body 0 2) .notOwner) s
      else
        sendDesk e.desk e.seq (.released (fieldAt e.body 0 2) h.showIx h.seats)
          (freeAndCommit k h s) := by
  simp only [takeRelease, hl]

/-- Between `s` and `t` the hold `h` of slot `k` is freed and its show counted again (R43, R48, R49). -/
def HoldFreed (k : HoldIx) (h : HoldRec) (s t : State) : Prop :=
  OtherShowsStay h.showIx s t ∧ OtherHoldsStay k s t ∧
    t.shows.holds[k] = ⟨(s.shows.holds[k].gen + 1) % 256, none⟩ ∧
    t.shows.holdList = s.shows.holdList.filter (· != k) ∧
    t.shows.recs[h.showIx] = recounted s.shows.cfg s.shows.recs[h.showIx]
      { s.shows.recs[h.showIx] with held := s.shows.recs[h.showIx].held - h.seats } ∧
    t.bus.toArbiter = s.bus.toArbiter ++ soldOutMsgs s.shows.cfg h.showIx s.shows.recs[h.showIx]
      { s.shows.recs[h.showIx] with held := s.shows.recs[h.showIx].held - h.seats }

theorem HoldFreed.congr {k : HoldIx} {h : HoldRec} {t u : State} (hf : HoldFreed k h s t)
    (hs : u.shows = t.shows) (hb : u.bus = t.bus) : HoldFreed k h s u := by
  unfold HoldFreed OtherShowsStay OtherHoldsStay at *
  rw [hs, hb]
  exact hf

theorem freeAndCommit_freed {k : HoldIx} {h : HoldRec} (hk : holdAt s k = some h) :
    HoldFreed k h s (freeAndCommit k h s) ∧ (freeAndCommit k h s).desks = s.desks := by
  obtain ⟨shows, asked, desks⟩ :=
    holdCounted_effect h.showIx s.shows.recs[h.showIx] k (freeHold k s)
  have freed := freeHold_shows hk
  have fewer : (freeHold k s).shows.recs[h.showIx] =
      { s.shows.recs[h.showIx] with held := s.shows.recs[h.showIx].held - h.seats } := by
    rw [freed]
    exact put_same _ _ _
  rw [fewer, freed] at shows asked
  change (freeAndCommit k h s).shows = _ at shows
  refine ⟨⟨fun j hj => ?_, fun j hj => ?_, ?_, ?_, ?_, asked.trans ?_⟩, desks.trans (by simp)⟩
  · rw [shows]
    exact (put_other _ _ _ _ hj).trans (put_other _ _ _ _ hj)
  · rw [shows]
    exact put_other _ _ _ _ hj
  · rw [shows]
    exact put_same _ _ _
  · rw [shows]
  · rw [shows]
    exact put_same _ _ _
  · rw [(freeHold_bus k s).1]

theorem exec_holdExpiry {k : HoldIx} {rest : List HoldIx} {h : HoldRec}
    (hl : s.shows.holdList = k :: rest) (hk : holdAt s k = some h) :
    exec .holdExpiry s = .next
      (if h.expiry ≤ s.clock.partSeconds then
        sendDesk h.desk 0 (holdEndedMsg s k h .expired) (freeAndCommit k h s)
      else s) := by
  simp only [exec, execHoldExpiry, hl, hk]

/-- Settles O42, by the freeing of a hold that a release and an expiry share. -/
theorem releaseAndExpiryFreeTheHold : Obligations.ReleaseAndExpiryFreeTheHold := by
  intro s freed
  constructor
  · intro e handed room ref
    refine ⟨_, exec_release handed, ?_⟩
    have refused (r : Reason) := sendDesk_answers (u := handEmptied s) rfl room e.seq
      (.releaseRefused ref r)
    cases hl : liveHold s ref with
    | none =>
      obtain ⟨hand, shows, -, told⟩ := refused .unknownHold
      rw [takeRelease_gone (s := handEmptied s) hl]
      exact ⟨hand, fun _ => ⟨shows, told⟩, nofun⟩
    | some found =>
      obtain ⟨k, h⟩ := found
      have eq := takeRelease_live (s := handEmptied s) hl
      by_cases owner : h.desk ≠ e.desk
      · obtain ⟨hand, shows, -, told⟩ := refused .notOwner
        have eq : takeRelease e (handEmptied s) = sendDesk e.desk e.seq (.releaseRefused ref .notOwner)
            (handEmptied s) := eq.trans (if_pos owner)
        rw [eq]
        refine ⟨hand, nofun, ?_⟩
        rintro k' h' ⟨⟩
        exact ⟨fun _ => ⟨shows, told⟩, fun own => absurd own owner⟩
      · obtain ⟨gone, desks⟩ := freeAndCommit_freed (s := handEmptied s) (liveHold_holdAt hl)
        obtain ⟨hand, shows, bus, told⟩ := sendDesk_answers desks room e.seq
          (.released ref h.showIx h.seats)
        have eq : takeRelease e (handEmptied s) = sendDesk e.desk e.seq
            (.released ref h.showIx h.seats) (freeAndCommit k h (handEmptied s)) :=
          eq.trans (if_neg owner)
        rw [eq]
        refine ⟨hand, nofun, ?_⟩
        rintro k' h' ⟨⟩
        exact ⟨fun other => absurd other owner, fun _ => ⟨gone.congr shows bus, told⟩⟩
  · intro k h rest listed held room
    rw [exec_holdExpiry listed held]
    refine ⟨fun early => by rw [if_neg (Nat.not_le.mpr early)], fun due => ?_⟩
    rw [if_pos due]
    obtain ⟨gone, desks⟩ := freeAndCommit_freed held
    have room' : HasRoom (freeAndCommit k h s) h.desk :=
      (hasRoom_congr (congrArg (·.ports) desks)).mpr room
    have told := sendDesk_told room' 0 (holdEndedMsg s k h .expired)
    refine ⟨_, rfl, gone.congr (by simp) (by rw [sendDesk_room room']; rfl), ?_⟩
    rw [holdEndedMsg, holdRef, mkRef_eq] at told ⊢
    simpa only [Told, desks] using told

end

end Sys2Proof.Machine

namespace Sys2Proof.Machine

section
variable {s : State}

/-! ## DESK_PORT -/

/-- Between `s` and `t` the desk line has changed in port `d` alone. -/
def PortAlone (d : DeskIx) (s t : State) : Prop :=
  OtherPortsStay d s t ∧ t.desks.intake = s.desks.intake ∧ t.desks.paused = s.desks.paused ∧
    t.win = s.win

theorem PortAlone.trans {d : DeskIx} {t u : State} (h : PortAlone d s t) (h' : PortAlone d t u) :
    PortAlone d s u := by
  obtain ⟨ports, intake, paused, win⟩ := h
  obtain ⟨ports', intake', paused', win'⟩ := h'
  exact ⟨fun j hj => (ports' j hj).trans (ports j hj), intake'.trans intake, paused'.trans paused,
    win'.trans win⟩

theorem PortAlone.of_ports {d : DeskIx} {t : State} {p : Port}
    (h : t.desks = { s.desks with ports := put s.desks.ports d p }) (hw : t.win = s.win) :
    PortAlone d s t := by
  refine ⟨fun j hj => ?_, ?_, ?_, hw⟩
  · rw [h]
    exact put_other _ _ _ _ hj
  · rw [h]
  · rw [h]

theorem withPort_alone (d : DeskIx) (g : Port → Port) (s : State) : PortAlone d s (withPort d g s) :=
  .of_ports rfl rfl

theorem placePause_alone (time : Nat) (d : DeskIx) (s : State) :
    PortAlone d s (placePause time d s) := by
  obtain ⟨intake, -, paused, -⟩ := placePause_desks time d s
  refine ⟨fun j hj => ?_, intake, paused, (placePause_keeps time d s).2.1⟩
  rw [placePause_ports]
  exact put_other _ _ _ _ hj

theorem enablePort_alone (d : DeskIx) (s : State) : PortAlone d s (enablePort d s) := by
  have enabled := withPort_alone d (fun p => { p with state := .enabled }.kick) s
  simp only [enablePort]
  repeat' split
  · exact ⟨fun _ _ => rfl, rfl, rfl, rfl⟩
  · exact enabled.trans (placePause_alone _ d _)
  · exact enabled

theorem disablePort_alone (d : DeskIx) (s : State) : PortAlone d s (disablePort d s) := by
  by_cases h : s.desks.ports[d].state = .enabled
  · obtain ⟨n, desks, -⟩ := disablePort_desks d s h
    exact .of_ports desks (by simp)
  · have same : disablePort d s = s := if_pos h
    rw [same]
    exact ⟨fun _ _ => rfl, rfl, rfl, rfl⟩

/-- What a DESK_PORT's action does (R72, R73). -/
def portActed (d : DeskIx) (action : Nat) (s : State) : State :=
  if action = 1 then enablePort d s else if action = 2 then disablePort d s else s

theorem portActed_alone (d : DeskIx) (action : Nat) (s : State) :
    PortAlone d s (portActed d action s) := by
  unfold portActed
  repeat' split
  · exact enablePort_alone d s
  · exact disablePort_alone d s
  · exact ⟨fun _ _ => rfl, rfl, rfl, rfl⟩

theorem kick_state (p : Port) : p.kick.state = p.state ∧ p.kick.counters = p.counters := by
  unfold Port.kick
  split
  · exact ⟨rfl, rfl⟩
  · exact ⟨rfl, rfl⟩

theorem enablePort_effect (d : DeskIx) (s : State) :
    let p := s.desks.ports[d]
    let q := (enablePort d s).desks.ports[d]
    q.state = .enabled ∧ (s.desks.paused = false → q.counters = p.counters) ∧
      (p.state ≠ .enabled → s.desks.paused = true →
        q = pausePlaced s.desks.cfg.pauseTime { p with state := .enabled }.kick) := by
  intro p q
  have port : q = _ := enablePort_port d s
  by_cases on : p.state = .enabled
  · have same : q = p := port.trans (if_pos on)
    rw [same]
    exact ⟨on, fun _ => rfl, fun off => absurd on off⟩
  · obtain ⟨state, counters⟩ := kick_state { p with state := .enabled }
    have kicked := port.trans (if_neg on)
    dsimp only at kicked
    cases paused : s.desks.paused with
    | true =>
      rw [paused] at kicked
      have kicked := kicked.trans (if_pos rfl)
      refine ⟨?_, nofun, fun _ _ => kicked⟩
      rw [kicked, pausePlaced_state]
      exact state
    | false =>
      rw [paused] at kicked
      have kicked := kicked.trans (if_neg nofun)
      refine ⟨?_, fun _ => ?_, nofun⟩
      · rw [kicked]
        exact state
      · rw [kicked]
        exact counters

theorem disablePort_effect (d : DeskIx) (s : State) :
    let p := s.desks.ports[d]
    let q := (disablePort d s).desks.ports[d]
    q.state = (if p.state = .enabled then if p.phase = .inFrame then .draining else .disabled
      else p.state) ∧
      (p.state = .enabled → q.replyQ = [] ∧
        (p.counters.lost ≤ 65535 → q.counters = { p.counters with
          lost := min (p.counters.lost + (p.replyQ.filter (!·.isPause)).length) 65535 })) := by
  intro p q
  by_cases on : p.state = .enabled
  · obtain ⟨n, desks, count⟩ := disablePort_desks d s on
    have port : q = _ := (congrArg (·.ports[d]) desks).trans (put_same _ _ _)
    rw [port, if_pos on]
    exact ⟨rfl, fun _ => ⟨rfl, fun low => by rw [count low]⟩⟩
  · have same : disablePort d s = s := if_pos on
    have port : q = p := congrArg (fun t : State => t.desks.ports[d]) same
    rw [port, if_neg on]
    exact ⟨rfl, fun off => absurd off on⟩

/-- What a good action leaves of its port (R72, R73). -/
theorem portActed_effect {d : DeskIx} {action : Nat} (h : action ≤ 2) (s : State) :
    let p := s.desks.ports[d]
    let q := (portActed d action s).desks.ports[d]
    q.state =
        (if action = 1 then .enabled
         else if action = 2 ∧ p.state = .enabled then
           if p.phase = .inFrame then .draining else .disabled
         else p.state) ∧
      (action = 0 → q = p) ∧
      (action = 2 → p.state = .enabled → q.replyQ = [] ∧
        (p.counters.lost ≤ 65535 → q.counters = { p.counters with
          lost := min (p.counters.lost + (p.replyQ.filter (!·.isPause)).length) 65535 })) ∧
      (action ≠ 2 → s.desks.paused = false → q.counters = p.counters) ∧
      (action = 1 → p.state ≠ .enabled → s.desks.paused = true →
        q = pausePlaced s.desks.cfg.pauseTime { p with state := .enabled }.kick) := by
  obtain rfl | rfl | rfl : action = 0 ∨ action = 1 ∨ action = 2 := by omega
  · exact ⟨rfl, fun _ => rfl, nofun, fun _ _ => rfl, nofun⟩
  · obtain ⟨state, counters, paused⟩ := enablePort_effect d s
    exact ⟨state, nofun, nofun, fun _ => counters, fun _ => paused⟩
  · obtain ⟨state, queue⟩ := disablePort_effect d s
    refine ⟨state.trans ?_, nofun, fun _ => queue, fun other => absurd rfl other, nofun⟩
    simp

/-- The outcome of a DESK_PORT: DONE with the port's state, and its record to be written back (R74). -/
def portOutcome (d : DeskIx) (acted : State) : EntryOutcome :=
  ⟨.done, acted.desks.ports[d].state.code, portWriteBack acted d⟩

theorem takePort_eq (d : DeskIx) (action : Nat) (clear : Bool) (s : State) :
    takePort d action clear s = finishWith (portOutcome d (portActed d action s))
      (if clear then countPort d (fun _ => {}) (portActed d action s) else portActed d action s) :=
  rfl

theorem finishWith_inFlight {f : Flight} (o : EntryOutcome) (hf : s.win.flight = some f)
    (hv : s.win.windowValid = true) :
    (finishWith o s).win.flight = some { f with
      phase := .writing, taken := true, awaiting := [], outcome := some o } := by
  simp only [finishWith, hf, hv]
  rfl

/-- A DESK_PORT taken (R72 to R74). -/
theorem takePort_effect {f : Flight} (d : DeskIx) (action : Nat) (clear : Bool)
    (hf : s.win.flight = some f) (hv : s.win.windowValid = true) :
    let acted := portActed d action s
    let q := acted.desks.ports[d]
    let t := takePort d action clear s
    OtherPortsStay d s t ∧ t.desks.intake = s.desks.intake ∧ t.desks.paused = s.desks.paused ∧
      t.desks.ports[d] = (if clear then { q with counters := {} } else q) ∧
      t.win.flight = some { f with
        phase := .writing, taken := true, awaiting := [], outcome := some (portOutcome d acted) } := by
  intro acted q t
  obtain ⟨ports, intake, paused, win⟩ := portActed_alone d action s
  have desks : t.desks = (if clear then countPort d (fun _ => {}) acted else acted).desks := by
    simp only [t, takePort_eq]
    simp [acted]
  have cleared : PortAlone d acted (if clear then countPort d (fun _ => {}) acted else acted) := by
    split
    · exact withPort_alone d _ acted
    · exact ⟨fun _ _ => rfl, rfl, rfl, rfl⟩
  obtain ⟨ports', intake', paused', win'⟩ := cleared
  refine ⟨fun j hj => ?_, ?_, ?_, ?_, ?_⟩
  · rw [desks]
    exact (ports' j hj).trans (ports j hj)
  · rw [desks]
    exact intake'.trans intake
  · rw [desks]
    exact paused'.trans paused
  · rw [desks]
    cases clear with
    | true => exact put_same _ _ _
    | false => rfl
  · rw [← win] at hf hv
    rw [← win'] at hf hv
    exact finishWith_inFlight _ hf hv

/-- The checks of a DESK_PORT, and the action (R72 to R74). -/
def deskPortTaken (b : List Byte) (s : State) : State :=
  match indexOf? 8 (fieldAt b 0 1 - 1) with
  | none => finishOpen .badIndex s
  | some d =>
    if fieldAt b 0 1 = 0 then finishOpen .badIndex s
    else if 2 < fieldAt b 1 1 then finish .badField 2 s
    else if 1 < fieldAt b 2 1 then finish .badField 3 s
    else takePort d (fieldAt b 1 1) (fieldAt b 2 1 == 1) s

theorem exec_deskPort {f : Flight} (h : handedEntry .deskPort s = some f) :
    exec .deskPort s = .next (deskPortTaken (entryBody f.bytes) s) :=
  congrArg Host.Outcome.next (takeEntry_handed h _)

theorem deskPortTaken_beyond {b : List Byte} (h : fieldAt b 0 1 = 0 ∨ 8 < fieldAt b 0 1) (s : State) :
    deskPortTaken b s = finishOpen .badIndex s := by
  unfold deskPortTaken
  obtain h | h := h
  · split
    · rfl
    · exact if_pos h
  · rw [indexOf?_of_le (show 8 ≤ fieldAt b 0 1 - 1 by omega)]

theorem deskPortTaken_named {b : List Byte} {d : DeskIx} (h : fieldAt b 0 1 = d.val + 1) (s : State) :
    deskPortTaken b s =
      if 2 < fieldAt b 1 1 then finish .badField 2 s
      else if 1 < fieldAt b 2 1 then finish .badField 3 s
      else takePort d (fieldAt b 1 1) (fieldAt b 2 1 == 1) s := by
  unfold deskPortTaken
  rw [h, Nat.add_sub_cancel, indexOf?_val]
  exact if_neg (Nat.succ_ne_zero _)

/-- A DESK_PORT leaves the intake queue, and every port but the one it names. -/
theorem deskPortTaken_intake (b : List Byte) {f : Flight} (hf : s.win.flight = some f)
    (hv : s.win.windowValid = true) : (deskPortTaken b s).desks.intake = s.desks.intake := by
  unfold deskPortTaken
  split
  · simp
  · repeat' split
    · simp
    · simp
    · simp
    · exact (takePort_effect _ _ _ hf hv).2.1

/-- Settles O46, by the checks of a DESK_PORT in order, and by its two actions. -/
theorem deskPortActsOnOnePort : Obligations.DeskPortActsOnOnePort := by
  rintro s f ⟨handed, hv⟩
  intro body action clear
  have hf := handedEntry_flight handed
  refine ⟨_, exec_deskPort handed, deskPortTaken_intake body hf hv, fun beyond => ?_,
    fun d named => ?_⟩
  · obtain ⟨-, -, refused⟩ := finishOpen_refused .badIndex hf hv
    rw [deskPortTaken_beyond beyond]
    exact ⟨by simp, refused⟩
  · intro p
    rw [deskPortTaken_named named]
    by_cases bad : 2 < action
    · obtain ⟨-, -, refused⟩ := finish_refused .badField 2 hf hv
      rw [if_pos bad]
      exact ⟨fun j _ => by simp, fun _ => ⟨by simp, refused⟩, fun good => by omega,
        fun good => by omega⟩
    rw [if_neg bad]
    by_cases bad' : 1 < clear
    · obtain ⟨-, -, refused⟩ := finish_refused .badField 3 hf hv
      rw [if_pos bad']
      exact ⟨fun j _ => by simp, fun h => absurd h bad, fun _ _ => ⟨by simp, refused⟩,
        fun _ good => by omega⟩
    rw [if_neg bad']
    obtain ⟨ports, -, paused, port, flight⟩ := takePort_effect d action (clear == 1) hf hv
    obtain ⟨state, left, disabled, counters, enabled⟩ := portActed_effect (d := d)
      (Nat.le_of_not_lt bad) s
    refine ⟨ports, fun h => absurd h bad, fun _ h => absurd h bad', fun _ _ => ⟨state, left, disabled,
      counters, enabled, port.trans ?_, paused, flight⟩⟩
    simp only [beq_iff_eq]
    rfl

end

end Sys2Proof.Machine

namespace Sys2Proof.Machine

section
variable {s : State} {d : DeskIx} {frame : List Byte} {idle : Bool} {next : RxPhase}

/-! ## Frames taken from a desk's line -/

/-- A port whose frame has ended, its counters changed by `g` (R60). -/
def frameCounted (next : RxPhase) (g : PortCounters → PortCounters) (p : Port) : Port :=
  { p with phase := next, rx := [], rxDisabled := false, counters := g p.counters }

/-- The port `q` at the end of a frame-end event that found it as `p` (R73). -/
def frameClosed (p q : Port) : Port := if p.state = .draining then { q with state := .disabled } else q

theorem endDraining_eq {p q : Port} (h : q.state = p.state) : endDraining q = frameClosed p q := by
  rw [endDraining, frameClosed, h]

/-- A port that does not drain stays as the frame-end event leaves it. -/
theorem frameClosed_enabled {p : Port} (q : Port) (h : p.state = .enabled) : frameClosed p q = q := by
  rw [frameClosed, h]
  exact if_neg nofun

/-- The state at the beginning of a frame-end event, its receiver ready for the next frame (R60). -/
def frameOpened (d : DeskIx) (next : RxPhase) (s : State) : State :=
  withPort d (fun p => { p with phase := next, rx := [], rxDisabled := false }) s

theorem countPort_opened (g : PortCounters → PortCounters) :
    countPort d g (frameOpened d next s) = withPort d (frameCounted next g) s := by
  simp only [countPort, frameOpened, withPort, put_same, put_put_same]
  rfl

theorem endFrame_dropped (h : ¬ (s.desks.ports[d].state ≠ .disabled ∧
      s.desks.ports[d].rxDisabled = false)) :
    endFrame d frame idle next s = withPort d endDraining
      (withPort d (frameCounted next fun c => { c with dropped := sat16 (c.dropped + 1) }) s) := by
  have gone : s.desks.ports[d].state = .disabled ∨ s.desks.ports[d].rxDisabled = true := by
    by_cases on : s.desks.ports[d].state = .disabled
    · exact .inl on
    · exact .inr (Bool.eq_true_of_not_eq_false fun clear => h ⟨on, clear⟩)
  rw [← countPort_opened]
  exact congrArg (withPort d endDraining) (if_pos gone)

theorem endFrame_taken (h : s.desks.ports[d].state ≠ .disabled ∧
      s.desks.ports[d].rxDisabled = false) :
    endFrame d frame idle next s =
      withPort d endDraining (checkFrame d frame idle (frameOpened d next s)) := by
  refine congrArg (withPort d endDraining) (if_neg ?_)
  rintro (off | mark)
  · exact h.1 off
  · exact absurd (mark.symm.trans h.2) nofun

/-- The last step of a frame-end event whose port stands as `q`. -/
theorem endDraining_ports {u : State} {q : Port} (h : u.desks.ports = put s.desks.ports d q)
    (hq : q.state = s.desks.ports[d].state) :
    (withPort d endDraining u).desks.ports =
      put s.desks.ports d (frameClosed s.desks.ports[d] q) := by
  change put u.desks.ports d (endDraining u.desks.ports[d]) = _
  rw [h, put_same, endDraining_eq hq, put_put_same]

theorem endDraining_others (d : DeskIx) (u : State) :
    (withPort d endDraining u).desks.intake = u.desks.intake ∧
      (withPort d endDraining u).desks.paused = u.desks.paused ∧
      (withPort d endDraining u).desks.pauseTimer = u.desks.pauseTimer ∧
      (withPort d endDraining u).bus = u.bus := ⟨rfl, rfl, rfl, rfl⟩

/-! ### The fault raised for a lost reply -/

/-- What a lost reply raises (R69). -/
abbrev lostFault (d : DeskIx) (seq : Byte) (m : DeskMsg) : Raiser × Raise :=
  (.deskLine, ⟨.deskReplyLost, .desk (d.val + 1), padTo 16 (deskFrameBytes ⟨seq, m⟩)⟩)

/-- A frame-end event whose port `q` has room for its reply sends it. -/
theorem sendDesk_counted {u : State} {q : Port} {m : DeskMsg} {seq : Byte}
    (h : u.desks.ports = put s.desks.ports d q)
    (room : q.state = .enabled ∧ q.replyQ.length < 4) :
    (sendDesk d seq m u).desks.ports = put s.desks.ports d (q.enqueue ⟨seq, m⟩) ∧
      (sendDesk d seq m u).bus = u.bus := by
  have found : u.desks.ports[d] = q := h ▸ put_same _ _ _
  have room' : HasRoom u d := by
    rw [HasRoom, found]
    exact room
  rw [sendDesk_room room']
  refine ⟨?_, rfl⟩
  change put u.desks.ports d (Port.enqueue ⟨seq, m⟩ u.desks.ports[d]) = _
  rw [found, h, put_put_same]

/-- One that has none counts it lost, and raises the fault. -/
theorem sendDesk_lost {u : State} {q : Port} {m : DeskMsg} {seq : Byte}
    (h : u.desks.ports = put s.desks.ports d q)
    (full : ¬ (q.state = .enabled ∧ q.replyQ.length < 4)) :
    (sendDesk d seq m u).desks.ports =
        put s.desks.ports d
          { q with counters := { q.counters with lost := sat16 (q.counters.lost + 1) } } ∧
      (sendDesk d seq m u).bus.raises = u.bus.raises ++ [lostFault d seq m] := by
  have found : u.desks.ports[d] = q := h ▸ put_same _ _ _
  have full' : ¬ (u.desks.ports[d].state = .enabled ∧ u.desks.ports[d].replyQ.length < replyCapacity) := by
    rw [found]
    exact full
  have lost : sendDesk d seq m u = loseFrame d ⟨seq, m⟩ u := if_neg full'
  rw [lost]
  refine ⟨?_, rfl⟩
  change put u.desks.ports d _ = _
  rw [found, h, put_put_same]

/-! ### The branches of the check -/

/-- The request a frame carries, after its kind and sequence number (R62). -/
abbrev frameBody (frame : List Byte) : List Byte :=
  (frame.drop 4).take ((byteAt frame 1).toNat - 2)

/-- Why a frame of no error is answered REJECTED, if it is (R62). -/
def frameRefusal (frame : List Byte) : Option Reason :=
  match deskKind (byteAt frame 2).toNat with
  | none => some .unknownKind
  | some k => if bodyGood k (frameBody frame).length then none else some .badLength

theorem checkFrame_error {e : FrameError} (h : frameError frame idle = some e) :
    checkFrame d frame idle (frameOpened d next s) =
      raise .deskLine .deskFrame (.desk (d.val + 1)) (padTo 16 frame)
        (withPort d (frameCounted next (countError e)) s) := by
  rw [checkFrame, h, ← countPort_opened]

theorem checkFrame_rejected {r : Reason} (h : frameError frame idle = none)
    (hr : frameRefusal frame = some r) :
    checkFrame d frame idle (frameOpened d next s) =
      sendDesk d (byteAt frame 3) (.rejected r (byteAt frame 2))
        (withPort d (frameCounted next fun c => { c with rejected := sat16 (c.rejected + 1) }) s) := by
  unfold frameRefusal at hr
  rw [← countPort_opened]
  cases hk : deskKind (byteAt frame 2).toNat with
  | none =>
    rw [hk] at hr
    cases hr
    simp only [checkFrame, h, hk]
    rfl
  | some k =>
    rw [hk] at hr
    obtain ⟨bad, reason⟩ := Option.ite_none_left_eq_some.mp hr
    cases reason
    simp only [checkFrame, h, hk]
    exact if_neg bad

theorem checkFrame_good {k : DeskKind} (h : frameError frame idle = none)
    (hk : deskKind (byteAt frame 2).toNat = some k)
    (hb : bodyGood k (frameBody frame).length = true) :
    checkFrame d frame idle (frameOpened d next s) =
      placeIntake ⟨d, k, byteAt frame 3, frameBody frame⟩ frame (frameOpened d next s) := by
  simp only [checkFrame, h, hk]
  exact if_pos hb

/-! ### The ends of a frame -/

theorem endFrame_drops (h : ¬ (s.desks.ports[d].state ≠ .disabled ∧
      s.desks.ports[d].rxDisabled = false)) :
    let t := endFrame d frame idle next s
    t.desks.ports = put s.desks.ports d (frameClosed s.desks.ports[d]
        (frameCounted next (fun c => { c with dropped := sat16 (c.dropped + 1) }) s.desks.ports[d])) ∧
      t.desks.intake = s.desks.intake ∧ t.bus = s.bus := by
  rw [endFrame_dropped h]
  exact ⟨endDraining_ports rfl rfl, rfl, rfl⟩

theorem endFrame_errs {e : FrameError} (h : s.desks.ports[d].state ≠ .disabled ∧
      s.desks.ports[d].rxDisabled = false) (he : frameError frame idle = some e) :
    let t := endFrame d frame idle next s
    t.desks.ports = put s.desks.ports d (frameClosed s.desks.ports[d]
        (frameCounted next (countError e) s.desks.ports[d])) ∧
      t.desks.intake = s.desks.intake ∧
      Raised .deskLine ⟨.deskFrame, .desk (d.val + 1), padTo 16 frame⟩ s t := by
  rw [endFrame_taken h, checkFrame_error he]
  exact ⟨endDraining_ports rfl rfl, rfl, rfl⟩

/-- An answered frame: its reply is sent where there is room, and the port stays ENABLED. -/
theorem endDraining_sends {u : State} {q : Port} {m : DeskMsg} {seq : Byte}
    (h : u.desks.ports = put s.desks.ports d q) (hq : q.state = s.desks.ports[d].state)
    (room : q.state = .enabled ∧ q.replyQ.length < 4) :
    (withPort d endDraining (sendDesk d seq m u)).desks.ports =
        put s.desks.ports d (q.enqueue ⟨seq, m⟩) ∧
      (withPort d endDraining (sendDesk d seq m u)).bus = u.bus := by
  obtain ⟨ports, bus⟩ := sendDesk_counted (m := m) (seq := seq) h room
  have state : (q.enqueue ⟨seq, m⟩).state = s.desks.ports[d].state := (kick_state _).1.trans hq
  refine ⟨(endDraining_ports ports state).trans ?_, bus⟩
  rw [frameClosed_enabled _ (hq ▸ room.1)]

theorem endDraining_loses {u : State} {q : Port} {m : DeskMsg} {seq : Byte}
    (h : u.desks.ports = put s.desks.ports d q) (hq : q.state = s.desks.ports[d].state)
    (full : ¬ (q.state = .enabled ∧ q.replyQ.length < 4)) :
    (withPort d endDraining (sendDesk d seq m u)).desks.ports =
        put s.desks.ports d (frameClosed s.desks.ports[d]
          { q with counters := { q.counters with lost := sat16 (q.counters.lost + 1) } }) ∧
      (withPort d endDraining (sendDesk d seq m u)).bus.raises =
        u.bus.raises ++ [lostFault d seq m] := by
  obtain ⟨ports, raises⟩ := sendDesk_lost (m := m) (seq := seq) h full
  exact ⟨endDraining_ports ports hq, raises⟩

theorem endFrame_rejects {r : Reason} (h : s.desks.ports[d].state ≠ .disabled ∧
      s.desks.ports[d].rxDisabled = false) (he : frameError frame idle = none)
    (hr : frameRefusal frame = some r) :
    let t := endFrame d frame idle next s
    let p := s.desks.ports[d]
    let m : DeskMsg := .rejected r (byteAt frame 2)
    t.desks.intake = s.desks.intake ∧
      (p.state = .enabled ∧ p.replyQ.length < 4 →
        t.desks.ports = put s.desks.ports d
            ((frameCounted next (fun c => { c with rejected := sat16 (c.rejected + 1) }) p).enqueue
              ⟨byteAt frame 3, m⟩) ∧
          t.bus = s.bus) ∧
      (¬ (p.state = .enabled ∧ p.replyQ.length < 4) →
        t.desks.ports = put s.desks.ports d (frameClosed p
            (frameCounted next (fun c =>
              { c with rejected := sat16 (c.rejected + 1), lost := sat16 (c.lost + 1) }) p)) ∧
          t.bus.raises = s.bus.raises ++ [lostFault d (byteAt frame 3) m]) := by
  rw [endFrame_taken h, checkFrame_rejected he hr]
  refine ⟨?_, fun room => ?_, fun full => ?_⟩
  · rw [(endDraining_others d _).1]
    simp [withPort]
  · exact endDraining_sends rfl rfl room
  · exact endDraining_loses (s := s)
      (q := frameCounted next (fun c => { c with rejected := sat16 (c.rejected + 1) })
        s.desks.ports[d]) rfl rfl full

/-- A good frame of a full intake queue (R64). -/
theorem placeIntake_full {k : DeskKind} {seq : Byte} {body : List Byte}
    (h : 32 ≤ s.desks.intake.length) :
    placeIntake ⟨d, k, seq, body⟩ frame (frameOpened d next s) =
      sendBusy d seq (raise .deskLine .deskOverflow (.desk (d.val + 1)) (padTo 16 frame)
        (withPort d (frameCounted next fun c => { c with overflow := sat16 (c.overflow + 1) }) s)) := by
  rw [← countPort_opened]
  exact if_neg (Nat.not_lt.mpr h)

theorem sendBusy_unsent {u : State} {q : Port} (seq : Byte)
    (h : u.desks.ports = put s.desks.ports d q) (hq : q.state = .enabled)
    (full : 4 ≤ q.replyQ.length) : sendBusy d seq u = u := by
  have found : u.desks.ports[d] = q := h ▸ put_same _ _ _
  refine if_pos ?_
  rw [found]
  exact ⟨hq, Nat.not_lt.mpr full⟩

theorem sendBusy_sent {u : State} {q : Port} (seq : Byte)
    (h : u.desks.ports = put s.desks.ports d q)
    (hq : ¬ (q.state = .enabled ∧ 4 ≤ q.replyQ.length)) :
    sendBusy d seq u = sendDesk d seq .busy u := by
  have found : u.desks.ports[d] = q := h ▸ put_same _ _ _
  refine if_neg ?_
  rw [found]
  exact fun full => hq ⟨full.1, Nat.not_lt.mp full.2⟩

theorem endFrame_overflows {k : DeskKind} (h : s.desks.ports[d].state ≠ .disabled ∧
      s.desks.ports[d].rxDisabled = false) (he : frameError frame idle = none)
    (hk : deskKind (byteAt frame 2).toNat = some k)
    (hb : bodyGood k (frameBody frame).length = true) (full : 32 ≤ s.desks.intake.length) :
    let t := endFrame d frame idle next s
    let p := s.desks.ports[d]
    let q := frameCounted next (fun c => { c with overflow := sat16 (c.overflow + 1) }) p
    let overflow : Raiser × Raise := (.deskLine, ⟨.deskOverflow, .desk (d.val + 1), padTo 16 frame⟩)
    t.desks.intake = s.desks.intake ∧
      (p.state = .enabled ∧ p.replyQ.length < 4 →
        t.desks.ports = put s.desks.ports d (q.enqueue ⟨byteAt frame 3, .busy⟩) ∧
          t.bus.raises = s.bus.raises ++ [overflow]) ∧
      (p.state = .enabled → 4 ≤ p.replyQ.length →
        t.desks.ports = put s.desks.ports d q ∧ t.bus.raises = s.bus.raises ++ [overflow]) ∧
      (p.state = .draining →
        t.desks.ports = put s.desks.ports d (frameClosed p
            (frameCounted next (fun c =>
              { c with overflow := sat16 (c.overflow + 1), lost := sat16 (c.lost + 1) }) p)) ∧
          t.bus.raises = s.bus.raises ++ [overflow, lostFault d (byteAt frame 3) .busy]) := by
  intro t p q overflow
  have eq : t = withPort d endDraining (sendBusy d (byteAt frame 3)
      (raise .deskLine .deskOverflow (.desk (d.val + 1)) (padTo 16 frame)
        (withPort d (frameCounted next fun c => { c with overflow := sat16 (c.overflow + 1) }) s))) := by
    simp only [t, endFrame_taken h, checkFrame_good he hk hb, placeIntake_full full]
  refine ⟨?_, fun room => ?_, fun on long => ?_, fun drains => ?_⟩
  · rw [eq, (endDraining_others d _).1, sendBusy]
    split
    · rfl
    · exact (sendDesk_desks _ _ _ _).1
  · rw [eq, sendBusy_sent (s := s) (q := q) _ rfl fun long => absurd long.2 (Nat.not_le.mpr room.2)]
    obtain ⟨ports, bus⟩ := endDraining_sends (s := s) (d := d) (q := q) (m := .busy)
      (seq := byteAt frame 3) (u := raise .deskLine .deskOverflow (.desk (d.val + 1)) (padTo 16 frame)
        (withPort d (frameCounted next fun c => { c with overflow := sat16 (c.overflow + 1) }) s))
      rfl rfl room
    exact ⟨ports, congrArg (·.raises) bus⟩
  · rw [eq, sendBusy_unsent (s := s) (q := q) _ rfl on long]
    refine ⟨(endDraining_ports (s := s) (q := q) rfl rfl).trans ?_, rfl⟩
    rw [frameClosed_enabled _ on]
  · have off : ¬ p.state = .enabled := fun on => absurd (drains.symm.trans on) nofun
    rw [eq, sendBusy_sent (s := s) (q := q) _ rfl fun long => off long.1]
    obtain ⟨ports, raises⟩ := endDraining_loses (s := s) (d := d) (q := q) (m := .busy)
      (seq := byteAt frame 3) (u := raise .deskLine .deskOverflow (.desk (d.val + 1)) (padTo 16 frame)
        (withPort d (frameCounted next fun c => { c with overflow := sat16 (c.overflow + 1) }) s))
      rfl rfl fun room => off room.1
    exact ⟨ports, raises.trans (List.append_assoc _ _ _)⟩

/-- A good frame in the intake queue and counted taken, the flow control not yet asked (R64). -/
def frameQueued (e : IntakeEntry) (next : RxPhase) (s : State) : State :=
  withPort e.desk (frameCounted next fun c => { c with framesTaken := sat16 (c.framesTaken + 1) })
    { s with desks := { s.desks with intake := s.desks.intake ++ [e] } }

/-- The frame brings the intake queue to the level at which the desks are paused (R66). -/
abbrev Pauses (s : State) : Prop :=
  s.desks.cfg.pauseOn ≠ 0 ∧ s.desks.paused = false ∧
    s.desks.cfg.pauseOn ≤ s.desks.intake.length + 1

theorem placeIntake_room {e : IntakeEntry} (h : s.desks.intake.length < 32) :
    placeIntake e frame (frameOpened e.desk next s) =
      if Pauses s then setPaused (frameQueued e next s) else frameQueued e next s := by
  have queued : countPort e.desk (fun c => { c with framesTaken := sat16 (c.framesTaken + 1) })
      (frameOpened e.desk next { s with desks := { s.desks with intake := s.desks.intake ++ [e] } }) =
      frameQueued e next s := countPort_opened _
  refine (if_pos h).trans ?_
  rw [← queued]
  refine if_congr ?_ rfl rfl
  simp [Pauses, countPort, frameOpened, withPort]

theorem setPaused_desks (s : State) :
    (setPaused s).desks.intake = s.desks.intake ∧ (setPaused s).desks.paused = true ∧
      (setPaused s).desks.pauseTimer = some (refreshPeriod s.desks.cfg) ∧
      ∀ j : DeskIx,
        (setPaused s).desks.ports[j] = pausePlaced s.desks.cfg.pauseTime s.desks.ports[j] := by
  simp only [setPaused, pauseAll_desks]
  exact ⟨trivial, trivial, trivial, pauseAll_ports _ s⟩

theorem endFrame_queues {k : DeskKind} (h : s.desks.ports[d].state ≠ .disabled ∧
      s.desks.ports[d].rxDisabled = false) (he : frameError frame idle = none)
    (hk : deskKind (byteAt frame 2).toNat = some k)
    (hb : bodyGood k (frameBody frame).length = true) (room : s.desks.intake.length < 32) :
    let t := endFrame d frame idle next s
    let p := s.desks.ports[d]
    let q := frameCounted next (fun c => { c with framesTaken := sat16 (c.framesTaken + 1) }) p
    t.desks.intake = s.desks.intake ++ [⟨d, k, byteAt frame 3, frameBody frame⟩] ∧
      (¬ Pauses s → t.desks.ports = put s.desks.ports d (frameClosed p q) ∧
        t.desks.paused = s.desks.paused ∧ t.bus = s.bus) ∧
      (Pauses s → t.desks.paused = true ∧
        t.desks.pauseTimer = some (10 * max 1 (s.desks.cfg.pauseTime / 2)) ∧
        t.desks.ports[d] = frameClosed p (pausePlaced s.desks.cfg.pauseTime q) ∧
        ∀ j : DeskIx, j ≠ d →
          t.desks.ports[j] = pausePlaced s.desks.cfg.pauseTime s.desks.ports[j]) := by
  intro t p q
  have eq : t = withPort d endDraining
      (if Pauses s then setPaused (frameQueued ⟨d, k, byteAt frame 3, frameBody frame⟩ next s)
       else frameQueued ⟨d, k, byteAt frame 3, frameBody frame⟩ next s) := by
    simp only [t, endFrame_taken h, checkFrame_good he hk hb]
    rw [← placeIntake_room room]
  obtain ⟨intake, paused, timer, ports⟩ :=
    setPaused_desks (frameQueued ⟨d, k, byteAt frame 3, frameBody frame⟩ next s)
  clear_value t
  by_cases pauses : Pauses s
  · rw [if_pos pauses] at eq
    subst eq
    generalize setPaused (frameQueued ⟨d, k, byteAt frame 3, frameBody frame⟩ next s) = u at *
    refine ⟨intake, fun calm => absurd pauses calm, fun _ => ⟨paused, timer, ?_, fun j hj => ?_⟩⟩
    · refine (put_same _ _ _).trans ?_
      have found : (frameQueued ⟨d, k, byteAt frame 3, frameBody frame⟩ next s).desks.ports[d] = q :=
        put_same _ _ _
      rw [ports d, found]
      exact endDraining_eq (pausePlaced_state _ _)
    · refine (put_other _ _ _ _ hj).trans ((ports j).trans ?_)
      exact congrArg (pausePlaced _) (put_other _ _ _ _ hj)
  · rw [if_neg pauses] at eq
    rw [eq]
    exact ⟨rfl, fun _ => ⟨endDraining_ports rfl rfl, rfl, rfl⟩, fun calm => absurd calm pauses⟩

/-! ### The phases of the receiver -/

/-- A frame is complete by its length byte (R60). -/
abbrev FrameWhole (raw : List Byte) : Prop :=
  2 ≤ raw.length ∧ (byteAt raw 1).toNat < 153 ∧ (byteAt raw 1).toNat + 4 ≤ raw.length

theorem exec_deskByte_hunt (b : Byte) (h : s.desks.ports[d].phase = .hunt) :
    exec (.deskByte d b) s = .next
      (if b = 0x7E#8 then
        withPort d (fun p => { p with
          phase := .inFrame, rx := [b], rxDisabled := p.state == .disabled }) s
      else s) := by
  simp only [exec, execDeskByte, h]
  rfl

theorem exec_deskByte_discard (b : Byte) (h : s.desks.ports[d].phase = .discard) :
    exec (.deskByte d b) s = .next s := by
  simp only [exec, execDeskByte, h]

theorem exec_deskByte_inFrame (b : Byte) (h : s.desks.ports[d].phase = .inFrame) :
    exec (.deskByte d b) s = .next
      (if FrameWhole (s.desks.ports[d].rx ++ [b]) then
        endFrame d (s.desks.ports[d].rx ++ [b]) false .hunt s
      else if 157 ≤ (s.desks.ports[d].rx ++ [b]).length then
        endFrame d (s.desks.ports[d].rx ++ [b]) false .discard s
      else withPort d (fun p => { p with rx := s.desks.ports[d].rx ++ [b] }) s) := by
  simp only [exec, execDeskByte, h]
  rfl

theorem exec_lineIdle (d : DeskIx) (s : State) :
    exec (.lineIdle d) s = .next
      (match s.desks.ports[d].phase with
       | .hunt => s
       | .inFrame => endFrame d s.desks.ports[d].rx true .hunt s
       | .discard => withPort d (fun p => { p with phase := .hunt }) s) := rfl

/-- Settles O44, by the phase of the receiver, and at a frame's end by the branches of its check. -/
theorem bytesGatherIntoFrames : Obligations.BytesGatherIntoFrames := by
  intro d b s p raw len whole only up ended
  have ends (frame : List Byte) (idle : Bool) (next : RxPhase) :
      ended frame idle next (endFrame d frame idle next s) := by
    unfold ended
    intro counted closing takes room seq body refusal lostFault overflow pauses good
    refine ⟨endFrame_drops, fun e taken => endFrame_errs taken,
      fun r taken => endFrame_rejects taken, fun k ⟨taken, noError, kind, size⟩ => ?_,
      fun k ⟨taken, noError, kind, size⟩ => endFrame_overflows taken noError kind size⟩
    exact endFrame_queues taken noError kind size
  refine ⟨fun hunt other => ?_, fun hunt start => ?_, exec_deskByte_discard b,
    fun inFrame part short => ?_, fun inFrame full => ?_, fun inFrame part long => ?_,
    fun hunt => ?_, fun discard => ?_, fun inFrame => ?_⟩
  · exact (exec_deskByte_hunt b hunt).trans (congrArg _ (if_neg other))
  · exact ⟨_, (exec_deskByte_hunt b hunt).trans (congrArg _ (if_pos start)), rfl, rfl, rfl⟩
  · exact ⟨_, (exec_deskByte_inFrame b inFrame).trans (congrArg _
      ((if_neg part).trans (if_neg (Nat.not_le.mpr short)))), rfl, rfl, rfl⟩
  · exact ⟨_, (exec_deskByte_inFrame b inFrame).trans (congrArg _ (if_pos full)), ends raw false .hunt⟩
  · exact ⟨_, (exec_deskByte_inFrame b inFrame).trans (congrArg _
      ((if_neg part).trans (if_pos long))), ends raw false .discard⟩
  · rw [exec_lineIdle, show s.desks.ports[d].phase = .hunt from hunt]
  · rw [exec_lineIdle, show s.desks.ports[d].phase = .discard from discard]
    exact ⟨_, rfl, rfl, rfl⟩
  · rw [exec_lineIdle, show s.desks.ports[d].phase = .inFrame from inFrame]
    exact ⟨_, rfl, ends p.rx true .hunt⟩

end

end Sys2Proof.Machine

namespace Sys2Proof.Machine

section
variable {s : State} {x : Flight} {f : FeatureIx}

/-! ## Feature entries -/

theorem Outstanding.congr {r : Read} {t u : State} (h : Outstanding r t) (hr : u.reads = t.reads) :
    Outstanding r u := by
  unfold Outstanding at *
  rwa [hr]

theorem exec_featureLoad (h : handedEntry .featureLoad s = some x) :
    exec .featureLoad s = .next (withFeature x (fun f s =>
      if !mayLoad s.air.features[f] then finish .inUse s.air.features[f].state.code s
      else if 15 < fieldAt (entryBody x.bytes) 1 1 then finish .badField 1 s
      else if fieldAt (entryBody x.bytes) 8 8 % 16 ≠ 0 then finish .badField 2 s
      else loadFeature f (fieldAt (entryBody x.bytes) 1 1) (fieldAt (entryBody x.bytes) 8 8) s) s) :=
  congrArg Host.Outcome.next (takeEntry_handed h _)

/-- The record of a feature given a weight (R117). -/
def weighed (w : Nat) (r : FeatureRec) : FeatureRec := { r with weight := w }

/-- A weight written, and its feature's record handed (R117). -/
def weighFeature (f : FeatureIx) (w : Nat) (s : State) : State :=
  if s.air.features[f].state = .empty then finishOpen .noRecord s
  else if 15 < w then finish .badField 1 s
  else finish .done s.air.features[f].state.code
    (settleFeatures s (setFeature f (weighed w s.air.features[f]) s))

theorem exec_featureWeight (h : handedEntry .featureWeight s = some x) :
    exec .featureWeight s = .next (withFeature x
      (fun f => weighFeature f (fieldAt (entryBody x.bytes) 1 1)) s) :=
  congrArg Host.Outcome.next (takeEntry_handed h _)

/-- A slot dropped, and the entry's end (R118). -/
def dropEnded (f : FeatureIx) (s : State) : State :=
  finish .done (settleFeatures s (dropFeature f s)).air.features[f].state.code
    (settleFeatures s (dropFeature f s))

theorem exec_featureDrop (h : handedEntry .featureDrop s = some x) :
    exec .featureDrop s = .next (withFeature x dropEnded s) :=
  congrArg Host.Outcome.next (takeEntry_handed h _)

/-- Every credit set to 0 (R119). -/
def creditsReset (s : State) : State :=
  { s with air := { s.air with features := s.air.features.map fun r => { r with credit := 0 } } }

theorem exec_airtimeReset (h : handedEntry .airtimeReset s = some x) :
    exec .airtimeReset s = .next (finish .done 0 (settleFeatures s (creditsReset s))) :=
  congrArg Host.Outcome.next (takeEntry_handed h _)

theorem withFeature_beyond {act : FeatureIx → State → State}
    (h : 32 ≤ fieldAt (entryBody x.bytes) 0 1) (s : State) :
    withFeature x act s = finishOpen .badIndex s := by
  rw [withFeature, indexOf?_of_le h]

theorem withFeature_named {act : FeatureIx → State → State}
    (h : fieldAt (entryBody x.bytes) 0 1 = f.val) (s : State) : withFeature x act s = act f s := by
  rw [withFeature, h, indexOf?_val]

/-- The end of an entry leaves the features and the read engine as it finds them. -/
theorem finish_keepsAir (code : OutcomeCode) (detail : Nat) (s : State) :
    (finish code detail s).air = s.air ∧ (finish code detail s).bus = s.bus ∧
      (finish code detail s).reads = s.reads := by
  simp

theorem finishOpen_keepsAir (code : OutcomeCode) (s : State) :
    (finishOpen code s).air = s.air ∧ (finishOpen code s).bus = s.bus ∧
      (finishOpen code s).reads = s.reads := by
  simp

/-- The end of a feature entry, at the state `y` that stands once its features' records are handed. -/
theorem finish_settled {before u y : State} (code : OutcomeCode) (detail : Nat)
    (hy : settleFeatures before u = y) (hw : u.win = s.win) (hf : s.win.flight = some x)
    (hv : s.win.windowValid = true) :
    (finish code detail y).air = u.air ∧ (finish code detail y).bus = u.bus ∧
      EndsWith code detail x (finish code detail y) := by
  obtain ⟨flight, valid, -⟩ := settleFeatures_win before u
  subst hy
  refine ⟨by simp, by simp, finish_ends _ _ ?_ ?_⟩
  · rw [flight, hw, hf]
  · rw [valid, hw, hv]

theorem forgetTrailer_forgets (f : FeatureIx) (s : State) (d : DisplayIx) :
    (forgetTrailer f s).air.lastTrailer[d] ≠ some f := by
  simp only [forgetTrailer, Fin.getElem_fin, Vector.getElem_map]
  split
  · exact nofun
  case isFalse other => exact other

/-! ### FEATURE_LOAD -/

/-- The record of a slot whose validation begins (R112). -/
abbrev loadedFeature (w location : Nat) (r : FeatureRec) : FeatureRec :=
  { state := .validating, weight := w, clipLocation := location,
    validationNo := (r.validationNo + 1) % 256, validation := some {} }

/-- An entry that issues a read for its feature, hands the feature's record and ends ACCEPTED. -/
theorem finish_issued (r : Read) (u : State) (hf : u.win.flight = some x)
    (hv : u.win.windowValid = true) :
    let t := finish .accepted f.val (handMirror (.feature f) (issueRead r u))
    t.air = u.air ∧ Outstanding r t ∧ EndsWith .accepted f.val x t :=
  ⟨by simp, (issueRead_outstanding r u).congr (by simp),
    finish_ends _ _ (by simpa using hf) (by simpa using hv)⟩

theorem loadFeature_effect (w location : Nat) (hf : s.win.flight = some x)
    (hv : s.win.windowValid = true) :
    let t := loadFeature f w location s
    t.air = { (forgetTrailer f s).air with
        features := put s.air.features f (loadedFeature w location s.air.features[f]) } ∧
      Outstanding ⟨.header f ((s.air.features[f].validationNo + 1) % 256), location, 32, false⟩ t ∧
      EndsWith .accepted f.val x t := by
  intro t
  have found : (setFeature f (loadedFeature w location s.air.features[f])
      (forgetTrailer f s)).air.features[f] = loadedFeature w location s.air.features[f] :=
    put_same _ _ _
  have asked : issueHeaderRead f (setFeature f (loadedFeature w location s.air.features[f])
      (forgetTrailer f s)) =
      issueRead ⟨.header f ((s.air.features[f].validationNo + 1) % 256), location, 32, false⟩
        (setFeature f (loadedFeature w location s.air.features[f]) (forgetTrailer f s)) := by
    rw [issueHeaderRead, found]
  have eq : t = finish .accepted f.val (handMirror (.feature f)
      (issueRead ⟨.header f ((s.air.features[f].validationNo + 1) % 256), location, 32, false⟩
        (setFeature f (loadedFeature w location s.air.features[f]) (forgetTrailer f s)))) := by
    rw [← asked]
    rfl
  rw [eq]
  obtain ⟨air, reads, done⟩ := finish_issued (f := f) (x := x)
    ⟨.header f ((s.air.features[f].validationNo + 1) % 256), location, 32, false⟩
    (setFeature f (loadedFeature w location s.air.features[f]) (forgetTrailer f s)) hf hv
  exact ⟨air, reads, done⟩

/-! ### FEATURE_DROP -/

theorem emptyFeature_air (f : FeatureIx) (s : State) :
    (emptyFeature f s).air.features =
        put s.air.features f { validationNo := s.air.features[f].validationNo } ∧
      ∀ d : DisplayIx, (emptyFeature f s).air.lastTrailer[d] ≠ some f :=
  ⟨rfl, forgetTrailer_forgets f _⟩

theorem dropFeature_free (h : s.air.features[f].state = .validating ∨
      s.air.features[f].state = .rejected ∨
      (s.air.features[f].state = .ready ∨ s.air.features[f].state = .faulted) ∧
        s.air.features[f].streamingCount = 0) :
    dropFeature f s = emptyFeature f s := by
  unfold dropFeature
  obtain h | h | ⟨h | h, none⟩ := h
  · simp only [h]
  · simp only [h]
  · simp only [h, if_pos none]
  · simp only [h, if_pos none]

/-- A feature that drains until its last stream ends (R118). -/
def featureDrained (f : FeatureIx) (s : State) : State :=
  requestDrain f (setFeature f { s.air.features[f] with state := .draining } s)

theorem dropFeature_streaming
    (h : s.air.features[f].state = .ready ∨ s.air.features[f].state = .faulted)
    (hc : s.air.features[f].streamingCount ≠ 0) : dropFeature f s = featureDrained f s := by
  unfold dropFeature
  obtain h | h := h
  · simp only [h, if_neg hc]
    rfl
  · simp only [h, if_neg hc]
    rfl

theorem dropFeature_gone
    (h : s.air.features[f].state = .empty ∨ s.air.features[f].state = .draining) :
    dropFeature f s = s := by
  unfold dropFeature
  obtain h | h := h <;> simp only [h]

/-- A drop changes its own slot alone, and nothing of the window. -/
theorem dropFeature_alone (f : FeatureIx) (s : State) :
    OtherFeaturesStay f s (dropFeature f s) ∧ (dropFeature f s).win = s.win := by
  have other (r : FeatureRec) (j : FeatureIx) (hj : j ≠ f) :
      (put s.air.features f r)[j] = s.air.features[j] := put_other _ _ _ _ hj
  unfold dropFeature
  dsimp only
  split
  case h_1 | h_2 => exact ⟨fun _ _ => rfl, rfl⟩
  case h_3 | h_4 => exact ⟨other _, rfl⟩
  case h_5 | h_6 =>
    split
    · exact ⟨other _, rfl⟩
    · exact ⟨other _, rfl⟩

/-- The entry of a drop ends with the state its slot is left in. -/
theorem dropEnded_effect (hf : s.win.flight = some x) (hv : s.win.windowValid = true) :
    let t := dropEnded f s
    t.air = (dropFeature f s).air ∧ t.bus = (dropFeature f s).bus ∧
      EndsWith .done t.air.features[f].state.code x t := by
  obtain ⟨-, win⟩ := dropFeature_alone f s
  have same : (settleFeatures s (dropFeature f s)).air = (dropFeature f s).air := by simp
  unfold dropEnded
  generalize hy : settleFeatures s (dropFeature f s) = y at same ⊢
  obtain ⟨air, bus, done⟩ := finish_settled .done y.air.features[f].state.code hy win hf hv
  refine ⟨air, bus, ?_⟩
  rw [air, ← same]
  exact done

/-! ### FEATURE_WEIGHT -/

theorem weighFeature_empty {w : Nat} (h : s.air.features[f].state = .empty) :
    weighFeature f w s = finishOpen .noRecord s := if_pos h

theorem weighFeature_heavy {w : Nat} (h : s.air.features[f].state ≠ .empty) (hw : 15 < w) :
    weighFeature f w s = finish .badField 1 s := (if_neg h).trans (if_pos hw)

theorem weighFeature_weighs {w : Nat} (h : s.air.features[f].state ≠ .empty) (hw : ¬ 15 < w)
    (hf : s.win.flight = some x) (hv : s.win.windowValid = true) :
    let t := weighFeature f w s
    t.air = { s.air with
        features := put s.air.features f (weighed w s.air.features[f]) } ∧
      EndsWith .done s.air.features[f].state.code x t := by
  rw [weighFeature, if_neg h, if_neg hw]
  generalize hy : settleFeatures s (setFeature f (weighed w s.air.features[f]) s) = y
  obtain ⟨air, -, done⟩ := finish_settled .done s.air.features[f].state.code hy rfl hf hv
  exact ⟨air, done⟩

/-- Settles O50, by the checks of the four entries in order. -/
theorem featureEntriesActOnOneSlot : Obligations.FeatureEntriesActOnOneSlot := by
  unfold Obligations.FeatureEntriesActOnOneSlot
  refine ⟨fun s x c hc => ?_, fun s x f => ?_⟩
  · have refused {act : FeatureIx → State → State} (beyond : 32 ≤ fieldAt (entryBody x.bytes) 0 1)
        (hf : s.win.flight = some x) (hv : s.win.windowValid = true) :
        let t := withFeature x act s
        t.air = s.air ∧ t.bus = s.bus ∧ t.reads = s.reads ∧ ∃ n, EndsWith .badIndex n x t := by
      obtain ⟨air, bus, reads⟩ := finishOpen_keepsAir .badIndex s
      rw [withFeature_beyond beyond]
      exact ⟨air, bus, reads, (finishOpen_refused .badIndex hf hv).2.2⟩
    simp only [List.mem_cons, List.not_mem_nil, or_false] at hc
    obtain rfl | rfl | rfl := hc
    · rintro ⟨handed, hv⟩ beyond
      exact ⟨_, exec_featureLoad handed, refused beyond (handedEntry_flight handed) hv⟩
    · rintro ⟨handed, hv⟩ beyond
      exact ⟨_, exec_featureWeight handed, refused beyond (handedEntry_flight handed) hv⟩
    · rintro ⟨handed, hv⟩ beyond
      exact ⟨_, exec_featureDrop handed, refused beyond (handedEntry_flight handed) hv⟩
  · intro body r w location
    refine ⟨?_, ?_, ?_, ?_⟩
    · rintro ⟨handed, hv⟩ named
      have hf := handedEntry_flight handed
      refine ⟨_, (exec_featureLoad handed).trans (congrArg _ (withFeature_named named s)), ?_⟩
      by_cases busy : mayLoad r = false
      · obtain ⟨air, -, -⟩ := finish_keepsAir .inUse r.state.code s
        rw [if_pos (by rw [busy]; rfl)]
        exact ⟨fun j _ => by rw [air], fun _ => ⟨air, finish_ends _ _ hf hv⟩,
          fun free => absurd (free.symm.trans busy) nofun,
          fun free => absurd (free.symm.trans busy) nofun,
          fun free => absurd (free.symm.trans busy) nofun⟩
      have free : mayLoad r = true := Bool.eq_true_of_not_eq_false busy
      rw [if_neg (by rw [free]; exact nofun)]
      by_cases heavy : 15 < w
      · obtain ⟨air, -, -⟩ := finish_keepsAir .badField 1 s
        rw [if_pos heavy]
        exact ⟨fun j _ => by rw [air], fun h => absurd h busy,
          fun _ _ => ⟨air, finish_ends _ _ hf hv⟩, fun _ light => absurd heavy (Nat.not_lt.mpr light),
          fun _ light => absurd heavy (Nat.not_lt.mpr light)⟩
      rw [if_neg heavy]
      by_cases odd : location % 16 ≠ 0
      · obtain ⟨air, -, -⟩ := finish_keepsAir .badField 2 s
        rw [if_pos odd]
        exact ⟨fun j _ => by rw [air], fun h => absurd h busy, fun _ h => absurd h heavy,
          fun _ _ _ => ⟨air, finish_ends _ _ hf hv⟩, fun _ _ even => absurd even odd⟩
      rw [if_neg odd]
      obtain ⟨air, asked, done⟩ := loadFeature_effect (f := f) w location hf hv
      refine ⟨fun j hj => ?_, fun h => absurd h busy, fun _ h => absurd h heavy,
        fun _ _ h => absurd h odd, fun _ _ _ => ⟨?_, fun d => ?_, asked, done⟩⟩
      · exact (congrArg (·.features[j]) air).trans (put_other _ _ _ _ hj)
      · exact (congrArg (·.features[f]) air).trans (put_same _ _ _)
      · exact (congrArg (·.lastTrailer[d]) air).trans_ne (forgetTrailer_forgets f s d)
    · rintro ⟨handed, hv⟩ named
      have hf := handedEntry_flight handed
      refine ⟨_, (exec_featureWeight handed).trans (congrArg _ (withFeature_named named s)), ?_⟩
      by_cases none : r.state = .empty
      · obtain ⟨air, -, -⟩ := finishOpen_keepsAir .noRecord s
        rw [weighFeature_empty none]
        exact ⟨fun j _ => by rw [air], by rw [air],
          fun _ => ⟨air, (finishOpen_refused .noRecord hf hv).2.2⟩, fun h => absurd none h,
          fun h => absurd none h⟩
      by_cases heavy : 15 < w
      · obtain ⟨air, -, -⟩ := finish_keepsAir .badField 1 s
        rw [weighFeature_heavy none heavy]
        exact ⟨fun j _ => by rw [air], by rw [air], fun h => absurd h none,
          fun _ _ => ⟨air, finish_ends _ _ hf hv⟩, fun _ light => absurd heavy (Nat.not_lt.mpr light)⟩
      obtain ⟨air, done⟩ := weighFeature_weighs none heavy hf hv
      refine ⟨fun j hj => ?_, congrArg (·.lastTrailer) air, fun h => absurd h none,
        fun _ h => absurd h heavy, fun _ _ => ⟨?_, done⟩⟩
      · exact (congrArg (·.features[j]) air).trans (put_other _ _ _ _ hj)
      · exact (congrArg (·.features[f]) air).trans (put_same _ _ _)
    · rintro ⟨handed, hv⟩ named
      have hf := handedEntry_flight handed
      refine ⟨_, (exec_featureDrop handed).trans (congrArg _ (withFeature_named named s)), ?_⟩
      obtain ⟨others, -⟩ := dropFeature_alone f s
      obtain ⟨air, bus, done⟩ := dropEnded_effect (f := f) hf hv
      refine ⟨fun j hj => ?_, done, fun free => ⟨?_, fun d => ?_⟩, fun live busy => ⟨?_, ?_⟩,
        fun gone => ?_⟩
      · rw [air]
        exact others j hj
      · rw [air, dropFeature_free free]
        exact put_same _ _ _
      · rw [air, dropFeature_free free]
        exact (emptyFeature_air f s).2 d
      · rw [air, dropFeature_streaming live busy]
        exact put_same _ _ _
      · rw [bus, dropFeature_streaming live busy]
        rfl
      · rw [air, bus, dropFeature_gone gone]
        exact ⟨rfl, rfl⟩
    · rintro ⟨handed, hv⟩
      have hf := handedEntry_flight handed
      obtain ⟨air, -, done⟩ := finish_settled (u := creditsReset s) .done 0 rfl rfl hf hv
      refine ⟨_, exec_airtimeReset handed, done, congrArg (·.lastTrailer) air, ?_⟩
      rw [air]
      simp only [creditsReset, Fin.getElem_fin, Vector.getElem_map]
      rfl

end

end Sys2Proof.Machine

namespace Sys2Proof.Machine

section
variable {s : State} {f : FeatureIx} {no addr len first : Nat} {g : Bool} {slot : ReadSlot}
  {bytes : List Byte}

/-! ## Validation reads -/

/-- The validation that read `no` belongs to is the slot's present one (R116). -/
abbrev Validates (s : State) (f : FeatureIx) (no : Nat) : Prop :=
  s.air.features[f].state = .validating ∧ s.air.features[f].validationNo = no

theorem freeRead_air (slot : ReadSlot) (s : State) :
    (freeRead slot s).air = s.air ∧ (freeRead slot s).stream = s.stream ∧
      (freeRead slot s).bus = s.bus := by
  simp

theorem validating_iff : validating s f no = true ↔ Validates s f no := by
  simp [validating, Validates]

theorem validating_freeRead : validating (freeRead slot s) f no = true ↔ Validates s f no := by
  rw [validating_iff, Validates, (freeRead_air slot s).1]

theorem exec_headerReadDone (hb : bytes.length = 32)
    (h : s.reads.slots[slot] = some ⟨.header f no, addr, len, g⟩) :
    exec (.headerReadDone slot bytes) s = .next
      (if validating (freeRead slot s) f no then headerDone f bytes (freeRead slot s)
       else freeRead slot s) := by
  refine (answer_next _ _ ?_).trans ?_
  · simp [Instr.wellFormed, hb]
  · simp only [h]

theorem exec_chunkListPieceDone (hb : 1 ≤ bytes.length) (hm : bytes.length ≤ 1024)
    (hd : bytes.length % 16 = 0)
    (h : s.reads.slots[slot] = some ⟨.piece f no first, addr, bytes.length, g⟩) :
    exec (.chunkListPieceDone slot bytes) s = .next
      (if validating (freeRead slot s) f no then pieceDone f first bytes (freeRead slot s)
       else freeRead slot s) := by
  refine (answer_next _ _ ?_).trans ?_
  · simp [Instr.wellFormed, hb, hm, hd]
  · simp only [h]
    exact congrArg _ (if_neg fun other => other rfl)

theorem exec_validationReadFailed {id : ReadId} (hi : id = .header f no ∨ ∃ first, id = .piece f no first)
    (h : s.reads.slots[slot] = some ⟨id, addr, len, g⟩) :
    exec (.validationReadFailed slot) s = .next
      (if validating (freeRead slot s) f no then validationFailed f (freeRead slot s)
       else freeRead slot s) := by
  obtain rfl | ⟨first, rfl⟩ := hi
  · simp only [exec, execValidationReadFailed, h]
  · simp only [exec, execValidationReadFailed, h]

theorem exec_validationRetryExpiry {v : Validation} (hs : s.air.features[f].state = .validating)
    (hv : s.air.features[f].validation = some v) (hw : v.wait = some 0) :
    exec (.validationRetryExpiry f) s = .next
      (reissueValidation f { v with wait := none } (setValidation f { v with wait := none } s)) := by
  simp only [exec, execValidationRetryExpiry, hv, hs, hw]
  rfl

/-- Between `s` and `t` the record of feature `f` has become `q`, and no other has changed. -/
def FeatureBecomes (f : FeatureIx) (q : FeatureRec) (s t : State) : Prop :=
  t.air.features = put s.air.features f q

theorem FeatureBecomes.others {q : FeatureRec} {t : State} (h : FeatureBecomes f q s t) :
    OtherFeaturesStay f s t := by
  intro j hj
  rw [h]
  exact put_other _ _ _ _ hj

theorem FeatureBecomes.record {q : FeatureRec} {t : State} (h : FeatureBecomes f q s t) :
    t.air.features[f] = q := by
  rw [h]
  exact put_same _ _ _

theorem FeatureBecomes.congr {q : FeatureRec} {t u v : State} (h : FeatureBecomes f q t u)
    (hs : t.air = s.air) (hu : v.air = u.air) : FeatureBecomes f q s v := by
  unfold FeatureBecomes at *
  rw [hu, h, hs]

theorem setFeature_becomes (f : FeatureIx) (q : FeatureRec) (s : State) :
    FeatureBecomes f q s (setFeature f q s) := rfl

/-- A record written over another of the same feature. -/
theorem FeatureBecomes.then_set {q q' : FeatureRec} {t : State} (h : FeatureBecomes f q s t) :
    FeatureBecomes f q' s (setFeature f q' t) := by
  unfold FeatureBecomes at *
  change put t.air.features f q' = _
  rw [h, put_put_same]

/-- A record whose validation has ended REJECTED (R113 to R115). -/
abbrev rejectedRec (reason : RejectReason) (detail : Nat) (q : FeatureRec) : FeatureRec :=
  { q with state := .rejected, rejectReason := reason, rejectDetail := detail, validation := none }

theorem FeatureBecomes.rejected {q : FeatureRec} {t : State} (h : FeatureBecomes f q s t)
    (reason : RejectReason) (detail : Nat) :
    FeatureBecomes f (rejectedRec reason detail q) s (rejectFeature f reason detail t) := by
  have becomes : FeatureBecomes f (rejectedRec reason detail t.air.features[f]) s
      (rejectFeature f reason detail t) := h.then_set
  rwa [h.record] at becomes

/-- The piece read of feature record `r` from chunk `first` (R113). -/
abbrev pieceRead (f : FeatureIx) (r : FeatureRec) (first : Nat) : Read :=
  ⟨.piece f r.validationNo first, r.clipLocation + 32 + 16 * first,
    16 * min 64 (r.chunkCount - first), false⟩

/-- The header read of feature record `r` (R113). -/
abbrev headerRead (f : FeatureIx) (r : FeatureRec) : Read :=
  ⟨.header f r.validationNo, r.clipLocation, 32, false⟩

theorem FeatureBecomes.piece_asked {q : FeatureRec} {t : State} (h : FeatureBecomes f q s t)
    (first : Nat) :
    FeatureBecomes f q s (issuePieceRead f first t) ∧
      Outstanding (pieceRead f q first) (issuePieceRead f first t) := by
  have eq : issuePieceRead f first t = issueRead (pieceRead f q first) t := by
    rw [← h.record]
    rfl
  rw [eq]
  exact ⟨h.congr rfl (issueRead_keeps _ t).2.2.2.2.2.2.1, issueRead_outstanding _ _⟩

theorem FeatureBecomes.header_asked {q : FeatureRec} {t : State} (h : FeatureBecomes f q s t) :
    FeatureBecomes f q s (issueHeaderRead f t) ∧
      Outstanding (headerRead f q) (issueHeaderRead f t) := by
  have eq : issueHeaderRead f t = issueRead (headerRead f q) t := by
    rw [← h.record]
    rfl
  rw [eq]
  exact ⟨h.congr rfl (issueRead_keeps _ t).2.2.2.2.2.2.1, issueRead_outstanding _ _⟩

theorem handMirror_air (id : MirrorId) (s : State) :
    (handMirror id s).air = s.air ∧ (handMirror id s).reads = s.reads ∧
      (handMirror id s).bus = s.bus := by
  simp

/-! ### The header -/

theorem headerDone_bad (h : headerCheck (readClipHeader bytes) ≠ 0) :
    FeatureBecomes f (rejectedRec .headerRange (headerCheck (readClipHeader bytes))
      s.air.features[f]) s (headerDone f bytes s) := by
  have eq : headerDone f bytes s = handMirror (.feature f)
      (rejectFeature f .headerRange (headerCheck (readClipHeader bytes)) s) :=
    congrArg (handMirror (.feature f)) (if_pos h)
  rw [eq]
  exact (setFeature_becomes f _ s).congr rfl (handMirror_air _ _).1

/-- The record of a header in range (R113). -/
abbrev headedRec (h : ClipHeader) (r : FeatureRec) : FeatureRec :=
  { r with
    formatClass := h.formatClass, chunkCount := h.chunkCount, byteRate := h.byteRate,
    validation := some { piece := some 0 } }

theorem headerDone_good (h : headerCheck (readClipHeader bytes) = 0) :
    FeatureBecomes f (headedRec (readClipHeader bytes) s.air.features[f]) s (headerDone f bytes s) ∧
      Outstanding (pieceRead f (headedRec (readClipHeader bytes) s.air.features[f]) 0)
        (headerDone f bytes s) := by
  have eq : headerDone f bytes s = handMirror (.feature f) (issuePieceRead f 0
      (setFeature f (headedRec (readClipHeader bytes) s.air.features[f]) s)) :=
    congrArg (handMirror (.feature f)) (if_neg (not_not_intro h))
  obtain ⟨becomes, asked⟩ := (setFeature_becomes f
    (headedRec (readClipHeader bytes) s.air.features[f]) s).piece_asked 0
  rw [eq]
  exact ⟨becomes.congr rfl (handMirror_air _ _).1, asked.congr (handMirror_air _ _).2.1⟩

/-! ### The chunk list -/

/-- The chunks of a piece, as checked (R114). -/
abbrev pieceChunks (r : FeatureRec) (first : Nat) (bytes : List Byte) :
    List Chunk × Bool × Option Nat :=
  checkChunks r.chunkCount first (readDescriptors bytes (min 64 (r.chunkCount - first)))

/-- The record of a piece taken (R114). -/
abbrev piecedRec (r : FeatureRec) (first : Nat) (bytes : List Byte) : FeatureRec :=
  { r with
    chunks := r.chunks ++ (pieceChunks r first bytes).1
    truncated := r.truncated || (pieceChunks r first bytes).2.1 }

/-- What a piece taken leads to. -/
def pieceNext (f : FeatureIx) (first : Nat) (bytes : List Byte) (r : FeatureRec) (u : State) : State :=
  match (pieceChunks r first bytes).2.2 with
  | some k => rejectFeature f .shortChunk k u
  | none =>
    if first + min 64 (r.chunkCount - first) < r.chunkCount then
      issuePieceRead f (first + min 64 (r.chunkCount - first))
        (setFeature f { u.air.features[f] with
          validation := some { piece := some (first + min 64 (r.chunkCount - first)) } } u)
    else finishValidation f u

theorem pieceDone_eq (f : FeatureIx) (first : Nat) (bytes : List Byte) (s : State) :
    pieceDone f first bytes s = handMirror (.feature f)
      (pieceNext f first bytes s.air.features[f]
        (setFeature f (piecedRec s.air.features[f] first bytes) s)) := rfl

theorem pieceDone_short {k : Nat} (h : (pieceChunks s.air.features[f] first bytes).2.2 = some k) :
    FeatureBecomes f (rejectedRec .shortChunk k (piecedRec s.air.features[f] first bytes)) s
      (pieceDone f first bytes s) := by
  rw [pieceDone_eq, pieceNext, h]
  exact ((setFeature_becomes f _ s).rejected _ _).congr rfl (handMirror_air _ _).1

theorem pieceDone_more (h : (pieceChunks s.air.features[f] first bytes).2.2 = none)
    (more : first + min 64 (s.air.features[f].chunkCount - first) < s.air.features[f].chunkCount) :
    let next := first + min 64 (s.air.features[f].chunkCount - first)
    let q : FeatureRec := { piecedRec s.air.features[f] first bytes with
      validation := some { piece := some next } }
    FeatureBecomes f q s (pieceDone f first bytes s) ∧
      Outstanding (pieceRead f q next) (pieceDone f first bytes s) := by
  intro next q
  have written := setFeature_becomes f (piecedRec s.air.features[f] first bytes) s
  have becomes : FeatureBecomes f
      { (setFeature f (piecedRec s.air.features[f] first bytes) s).air.features[f] with
        validation := some { piece := some next } } s _ := written.then_set
  rw [written.record] at becomes
  obtain ⟨becomes, asked⟩ := becomes.piece_asked next
  rw [pieceDone_eq, pieceNext, h]
  dsimp only
  rw [if_pos more, written.record]
  exact ⟨becomes.congr rfl (handMirror_air _ _).1, asked.congr (handMirror_air _ _).2.1⟩

/-- The record of a chunk list taken whole: its totals (R114). -/
abbrev totalledRec (q : FeatureRec) : FeatureRec :=
  { q with
    totalBytes := (q.chunks.map (·.len)).sum
    duration := ((q.chunks.map (·.len)).sum + q.byteRate - 1) / q.byteRate }

theorem FeatureBecomes.finished {q : FeatureRec} {t : State} (h : FeatureBecomes f q s t) :
    FeatureBecomes f
      (if (totalledRec q).duration < 5 ∨ 300 < (totalledRec q).duration then
        rejectedRec .duration 0 (totalledRec q)
       else { totalledRec q with state := .ready, credit := 0, validation := none }) s
      (finishValidation f t) := by
  have eq : finishValidation f t =
      if (totalledRec t.air.features[f]).duration < 5 ∨
          300 < (totalledRec t.air.features[f]).duration then
        rejectFeature f .duration 0 (setFeature f (totalledRec t.air.features[f]) t)
      else setFeature f { (setFeature f (totalledRec t.air.features[f]) t).air.features[f] with
        state := .ready, credit := 0, validation := none }
          (setFeature f (totalledRec t.air.features[f]) t) := rfl
  have totalled : FeatureBecomes f (totalledRec q) s (setFeature f (totalledRec q) t) := h.then_set
  rw [eq, h.record]
  split
  · exact totalled.rejected _ _
  · rw [totalled.record]
    exact totalled.then_set

theorem pieceDone_last (h : (pieceChunks s.air.features[f] first bytes).2.2 = none)
    (last : s.air.features[f].chunkCount ≤ first + min 64 (s.air.features[f].chunkCount - first)) :
    let q := totalledRec (piecedRec s.air.features[f] first bytes)
    FeatureBecomes f
      (if q.duration < 5 ∨ 300 < q.duration then rejectedRec .duration 0 q
       else { q with state := .ready, credit := 0, validation := none }) s
      (pieceDone f first bytes s) := by
  intro q
  rw [pieceDone_eq, pieceNext, h]
  dsimp only
  rw [if_neg (Nat.not_lt.mpr last)]
  exact (setFeature_becomes f (piecedRec s.air.features[f] first bytes) s).finished.congr rfl
    (handMirror_air _ _).1

/-! ### Failures -/

/-- The wait that the LFSR gives the n-th failure of a validation read (R115). -/
def validationWait (n : Nat) (s : State) : Nat :=
  s.stream.lfsr.toNat % 2 ^ min n s.air.cfg.retry.backoffCap

/-- The validation after a failure below the limit (R115). -/
abbrev retriedValidation (v : Validation) (s : State) : Validation :=
  { v with
    failures := v.failures + 1
    wait := if validationWait (v.failures + 1) s = 0 then none
      else some (validationWait (v.failures + 1) s) }

theorem validationFailed_waits {v : Validation} (hv : s.air.features[f].validation = some v)
    (hn : v.failures + 1 < s.air.cfg.retry.retryLimit)
    (hw : validationWait (v.failures + 1) s ≠ 0) :
    validationFailed f s = setValidation f (retriedValidation v s) s := by
  have waits : retriedValidation v s =
      { v with
        failures := v.failures + 1
        wait := some (validationWait (v.failures + 1) s) } :=
    congrArg (fun w => { v with failures := v.failures + 1, wait := w }) (if_neg hw)
  rw [waits]
  simp only [validationFailed, hv, if_pos hn]
  split
  case h_1 zero => exact absurd zero hw
  case h_2 => rfl

theorem validationFailed_retries {v : Validation} (hv : s.air.features[f].validation = some v)
    (hn : v.failures + 1 < s.air.cfg.retry.retryLimit)
    (hw : validationWait (v.failures + 1) s = 0) :
    validationFailed f s =
      reissueValidation f (retriedValidation v s) (setValidation f (retriedValidation v s) s) := by
  have again : retriedValidation v s =
      { v with failures := v.failures + 1, wait := none } :=
    congrArg (fun w => { v with failures := v.failures + 1, wait := w }) (if_pos hw)
  rw [again]
  simp only [validationFailed, hv, if_pos hn]
  split
  case h_1 => rfl
  case h_2 wait => exact absurd hw wait

theorem validationFailed_givesUp {v : Validation} (hv : s.air.features[f].validation = some v)
    (hn : s.air.cfg.retry.retryLimit ≤ v.failures + 1) :
    FeatureBecomes f (rejectedRec .readFailed (v.piece.getD 0) s.air.features[f]) s
        (validationFailed f s) ∧
      Raised .airtimeScheduler ⟨.memReadControl, .feature f.val, noCapture⟩ s
        (validationFailed f s) := by
  have eq : validationFailed f s = handMirror (.feature f)
      (raise .airtimeScheduler .memReadControl (.feature f.val) noCapture
        (rejectFeature f .readFailed (v.piece.getD 0) s)) := by
    simp only [validationFailed, hv]
    exact if_neg (Nat.not_lt.mpr hn)
  obtain ⟨air, -, bus⟩ := handMirror_air (.feature f)
    (raise .airtimeScheduler .memReadControl (.feature f.val) noCapture
        (rejectFeature f .readFailed (v.piece.getD 0) s))
  rw [eq]
  refine ⟨(setFeature_becomes f _ s).congr rfl air, ?_⟩
  rw [Raised, bus]
  rfl

/-- The read of a validation issued again, from the record `q` just written. -/
theorem reissueValidation_asks {q : FeatureRec} {t : State} (v : Validation)
    (h : FeatureBecomes f q s t) :
    FeatureBecomes f q s (reissueValidation f v t) ∧
      (v.piece = none → Outstanding (headerRead f q) (reissueValidation f v t)) ∧
      ∀ first, v.piece = some first →
        Outstanding (pieceRead f q first) (reissueValidation f v t) := by
  unfold reissueValidation
  cases v.piece with
  | none =>
    obtain ⟨becomes, asked⟩ := h.header_asked
    exact ⟨becomes, fun _ => asked, nofun⟩
  | some first =>
    obtain ⟨becomes, asked⟩ := h.piece_asked first
    refine ⟨becomes, nofun, ?_⟩
    rintro first' ⟨⟩
    exact asked

/-- What a failure below the limit leaves: the record with its failure counted, and the read issued again
where the wait is 0 (R115). -/
theorem validationFailed_below {v : Validation} (hv : s.air.features[f].validation = some v)
    (hn : v.failures + 1 < s.air.cfg.retry.retryLimit) :
    let r := s.air.features[f]
    let t := validationFailed f s
    FeatureBecomes f { r with validation := some (retriedValidation v s) } s t ∧
      (validationWait (v.failures + 1) s = 0 → v.piece = none → Outstanding (headerRead f r) t) ∧
      ∀ first, validationWait (v.failures + 1) s = 0 → v.piece = some first →
        Outstanding (pieceRead f r first) t := by
  intro r t
  by_cases hw : validationWait (v.failures + 1) s = 0
  · obtain ⟨becomes, header, piece⟩ := reissueValidation_asks (retriedValidation v s)
      (setFeature_becomes f { r with validation := some (retriedValidation v s) } s)
    have eq : t = reissueValidation f (retriedValidation v s)
        (setFeature f { r with validation := some (retriedValidation v s) } s) :=
      validationFailed_retries hv hn hw
    rw [eq]
    exact ⟨becomes, fun _ => header, fun first _ => piece first⟩
  · have eq : t = setFeature f { r with validation := some (retriedValidation v s) } s :=
      validationFailed_waits hv hn hw
    rw [eq]
    exact ⟨rfl, fun zero => absurd zero hw, fun _ zero => absurd zero hw⟩

/-- Settles O51, by the two reads' checks, and by the failure that both share. -/
theorem validationFollowsTheClip : Obligations.ValidationFollowsTheClip := by
  intro slot bytes s f no addr g r live rejected
  obtain ⟨air, stream, bus⟩ := freeRead_air slot s
  have record : (freeRead slot s).air.features[f] = r := by rw [air]
  refine ⟨fun len size read => ?_, fun first size1 size2 size3 read => ?_,
    fun len v id kind read present valid => ?_, fun len id kind read stale => ?_,
    fun v validates valid wait => ?_⟩
  · intro h
    refine ⟨_, exec_headerReadDone size read, ?_⟩
    by_cases present : live
    · rw [if_pos (validating_freeRead.mpr present)]
      by_cases bad : headerCheck h ≠ 0
      · have becomes := (headerDone_bad (s := freeRead slot s) (f := f) bad).congr (s := s) air rfl
        rw [record] at becomes
        exact ⟨becomes.others, fun stale => absurd present stale, fun _ _ => becomes.record,
          fun _ good => absurd good bad⟩
      · have good : headerCheck h = 0 := not_not.mp bad
        obtain ⟨becomes, asked⟩ := headerDone_good (s := freeRead slot s) (f := f) good
        have becomes := becomes.congr (s := s) air rfl
        rw [record] at becomes asked
        refine ⟨becomes.others, fun stale => absurd present stale, fun _ h => absurd good h,
          fun _ _ => ⟨becomes.record, ?_⟩⟩
        rw [← present.2]
        exact asked
    · rw [if_neg (validating_freeRead.not.mpr present)]
      exact ⟨fun j _ => by rw [air], fun _ => rfl, fun h => absurd h present, fun h => absurd h present⟩
  · intro n c q total seconds
    refine ⟨_, exec_chunkListPieceDone size1 size2 size3 read, ?_⟩
    by_cases present : live
    · rw [if_pos (validating_freeRead.mpr present)]
      cases checked : c.2.2 with
      | some k =>
        have becomes := (pieceDone_short (s := freeRead slot s) (f := f) (first := first)
          (bytes := bytes) (k := k) (by rw [record]; exact checked)).congr (s := s) air rfl
        rw [record] at becomes
        refine ⟨becomes.others, fun stale => absurd present stale, ?_, nofun, nofun, nofun⟩
        rintro k' - ⟨⟩
        exact becomes.record
      | none =>
        by_cases more : first + n < r.chunkCount
        · obtain ⟨becomes, asked⟩ := pieceDone_more (s := freeRead slot s) (f := f) (first := first)
            (bytes := bytes) (by rw [record]; exact checked) (by rw [record]; exact more)
          have becomes := becomes.congr (s := s) air rfl
          rw [record] at becomes asked
          refine ⟨becomes.others, fun stale => absurd present stale, nofun,
            fun _ _ _ => ⟨becomes.record, ?_⟩, fun _ _ last => absurd more (Nat.not_lt.mpr last),
            fun _ _ last => absurd more (Nat.not_lt.mpr last)⟩
          rw [← present.2]
          exact asked
        · have becomes := (pieceDone_last (s := freeRead slot s) (f := f) (first := first)
            (bytes := bytes) (by rw [record]; exact checked)
            (by rw [record]; exact Nat.not_lt.mp more)).congr (s := s) air rfl
          rw [record] at becomes
          refine ⟨becomes.others, fun stale => absurd present stale, nofun,
            fun _ _ h => absurd h more, fun _ _ _ low high => ?_, fun _ _ _ bad => ?_⟩
          · have good : ¬ (seconds < 5 ∨ 300 < seconds) := by omega
            exact becomes.record.trans (if_neg good)
          · exact becomes.record.trans (if_pos bad)
    · rw [if_neg (validating_freeRead.not.mpr present)]
      exact ⟨fun j _ => by rw [air], fun _ => rfl, fun _ h => absurd h present,
        fun h => absurd h present, fun h => absurd h present, fun h => absurd h present⟩
  · intro n wait
    have valid' : (freeRead slot s).air.features[f].validation = some v := by rw [air]; exact valid
    have waits : validationWait n (freeRead slot s) = wait := by
      rw [validationWait, stream, air]
    refine ⟨_, exec_validationReadFailed kind read, ?_⟩
    rw [if_pos (validating_freeRead.mpr present)]
    by_cases below : n < s.air.cfg.retry.retryLimit
    · obtain ⟨becomes, header, piece⟩ := validationFailed_below valid' (by rw [air]; exact below)
      have becomes := becomes.congr (s := s) air rfl
      rw [record] at becomes header piece
      rw [← waits, ← present.2]
      exact ⟨becomes.others, fun _ => ⟨becomes.record, header, piece⟩,
        fun h => absurd below (Nat.not_lt.mpr h)⟩
    · obtain ⟨becomes, raised⟩ := validationFailed_givesUp valid'
        (by rw [air]; exact Nat.not_lt.mp below)
      have becomes := becomes.congr (s := s) air rfl
      rw [record] at becomes
      refine ⟨becomes.others, fun h => absurd h below, fun _ => ⟨becomes.record, ?_⟩⟩
      rw [Raised, bus] at raised
      exact raised
  · rw [exec_validationReadFailed kind read, if_neg (validating_freeRead.not.mpr stale)]
  · refine ⟨_, exec_validationRetryExpiry validates valid wait, ?_⟩
    obtain ⟨becomes, header, piece⟩ := reissueValidation_asks { v with wait := none }
      (setFeature_becomes f { r with validation := some { v with wait := none } } s)
    exact ⟨becomes.others, becomes.record, header, piece⟩

end

end Sys2Proof.Machine

namespace Sys2Proof.Machine

section
variable {s : State} {f : FeatureIx}

/-! ## The effective weight -/

/-- The largest of the values `g` of a list's members, from `m` onward. -/
theorem foldl_max_spec {α : Type} (p : α → Prop) [DecidablePred p] (g : α → Nat) (l : List α) :
    ∀ m, m ≤ l.foldl (fun m x => if p x then max m (g x) else m) m ∧
      (∀ x ∈ l, p x → g x ≤ l.foldl (fun m x => if p x then max m (g x) else m) m) ∧
      (l.foldl (fun m x => if p x then max m (g x) else m) m = m ∨
        ∃ x ∈ l, p x ∧ g x = l.foldl (fun m x => if p x then max m (g x) else m) m) := by
  induction l with
  | nil => exact fun m => ⟨le_rfl, nofun, .inl rfl⟩
  | cons y l ih =>
    intro m
    obtain ⟨low, high, attained⟩ := ih (if p y then max m (g y) else m)
    rw [List.foldl_cons]
    refine ⟨?_, fun x hx px => ?_, ?_⟩
    · refine le_trans ?_ low
      split
      · exact le_max_left _ _
      · exact le_rfl
    · obtain rfl | hx := List.mem_cons.mp hx
      · refine le_trans ?_ low
        rw [if_pos px]
        exact le_max_right _ _
      · exact high x hx px
    · obtain same | ⟨x, hx, px, eq⟩ := attained
      · by_cases py : p y
        · rw [if_pos py] at same ⊢
          obtain le | le := le_total (g y) m
          · exact .inl (same.trans (max_eq_left le))
          · exact .inr ⟨y, List.mem_cons_self, py, (same.trans (max_eq_right le)).symm⟩
        · rw [if_neg py] at same ⊢
          exact .inl same
      · exact .inr ⟨x, List.mem_cons_of_mem _ hx, px, eq⟩

/-- The best boost is the largest of the shows that name the feature, and 0 where none does (R121). -/
theorem bestBoost_spec (s : State) (f : FeatureIx) :
    (∀ i : ShowIx, s.shows.recs[i].feature = some f →
      boostOf s.air.cfg.nearWindow (lobbyStamp s) s.shows.recs[i] ≤ bestBoost s f) ∧
    (bestBoost s f = 0 ∨ ∃ i : ShowIx, s.shows.recs[i].feature = some f ∧
      boostOf s.air.cfg.nearWindow (lobbyStamp s) s.shows.recs[i] = bestBoost s f) := by
  obtain ⟨-, high, attained⟩ := foldl_max_spec
    (fun i : ShowIx => s.shows.recs[i].feature = some f)
    (fun i => boostOf s.air.cfg.nearWindow (lobbyStamp s) s.shows.recs[i]) (List.finRange 64) 0
  refine ⟨fun i => high i (List.mem_finRange i), ?_⟩
  obtain none | ⟨i, -, named, eq⟩ := attained
  · exact .inl none
  · exact .inr ⟨i, named, eq⟩

/-- The boost of a show, written out (R120). -/
def writtenBoost (window now : Int) (sh : ShowRec) : Nat :=
  if (sh.state = .selling ∨ sh.state = .seating) ∧ sh.band ≠ .full then
    1 + (if (sh.start : Int) - now ≤ window then 2
      else if (sh.start : Int) - now ≤ 3 * window then 1 else 0)
      + (match sh.band with | .openHouse | .full => 0 | .filling | .last => 1 | .few => 2)
  else 0

theorem boostOf_eq (window now : Nat) (sh : ShowRec) :
    boostOf window now sh = writtenBoost window now sh := by
  have near : nearness window sh.start now =
      if (sh.start : Int) - now ≤ window then 2
      else if (sh.start : Int) - now ≤ 3 * window then 1 else 0 := by
    unfold nearness
    refine if_congr (by omega) rfl (if_congr (by omega) rfl rfl)
  unfold boostOf writtenBoost
  rw [near]
  cases sh.band <;> rfl

theorem clampCredit_eq (c : Int) :
    clampCredit c = if c < -4096 then -4096 else if 4095 < c then 4095 else c := by
  unfold clampCredit
  repeat' split
  all_goals omega

theorem effective_noBoost (h : ∀ i : ShowIx, s.shows.recs[i].feature = some f →
    s.shows.recs[i].state ≠ .selling ∧ s.shows.recs[i].state ≠ .seating ∨
      s.shows.recs[i].band = .full) : effective s f = 0 := by
  have none : bestBoost s f = 0 := by
    obtain ⟨-, zero | ⟨i, named, eq⟩⟩ := bestBoost_spec s f
    · exact zero
    · rw [← eq]
      refine if_neg ?_
      rintro ⟨onSale | onSale, notFull⟩
      all_goals obtain ⟨h1, h2⟩ | full := h i named
      · exact h1 onSale
      · exact notFull full
      · exact h2 onSale
      · exact notFull full
  rw [effective, none, Nat.mul_zero]

/-! ## The decision -/

/-- A feature's record once the decision has set its last_e (R122). -/
def refreshed (s : State) (f : FeatureIx) : FeatureRec :=
  if s.air.features[f].state = .empty ∨ s.air.features[f].state = .draining then s.air.features[f]
  else { s.air.features[f] with lastE := effective s f }

theorem refreshE_record (s : State) (f : FeatureIx) :
    (refreshE s).air.features[f] = refreshed s f := by
  simp [refreshE, mapAll, refreshed]

theorem refreshE_others (s : State) :
    (refreshE s).air.lastTrailer = s.air.lastTrailer ∧ (refreshE s).bus = s.bus := by
  simp only [refreshE, and_self]

theorem refreshed_state (s : State) (f : FeatureIx) :
    (refreshed s f).state = s.air.features[f].state ∧
      (refreshed s f).formatClass = s.air.features[f].formatClass ∧
      (refreshed s f).credit = s.air.features[f].credit ∧
      (refreshed s f).plays = s.air.features[f].plays ∧
      (refreshed s f).streamingCount = s.air.features[f].streamingCount := by
  unfold refreshed
  split
  · exact ⟨rfl, rfl, rfl, rfl, rfl⟩
  · exact ⟨rfl, rfl, rfl, rfl, rfl⟩

theorem refreshed_lastE (he : s.air.features[f].state ≠ .empty)
    (hd : s.air.features[f].state ≠ .draining) : (refreshed s f).lastE = effective s f := by
  rw [refreshed, if_neg (not_or.mpr ⟨he, hd⟩)]

/-- The eligible features of a decision, by the records as they stand (R121). -/
def eligible (s : State) (mask : Byte) : List FeatureIx :=
  (List.finRange 32).filter fun f =>
    s.air.features[f].state == .ready && 0 < effective s f &&
      mask.getLsbD s.air.features[f].formatClass

theorem eligibleSet_eq (s : State) (mask : Byte) : eligibleSet (refreshE s) mask = eligible s mask := by
  refine List.filter_congr fun f _ => ?_
  obtain ⟨state, format, -⟩ := refreshed_state s f
  simp only [refreshE_record, formatMatches, state, format]
  by_cases ready : s.air.features[f].state = .ready
  · rw [refreshed_lastE (by rw [ready]; exact nofun) (by rw [ready]; exact nofun)]
  · simp only [beq_eq_false_iff_ne.mpr ready, Bool.false_and]

theorem eligible_ready {mask : Byte} (h : f ∈ eligible s mask) : s.air.features[f].state = .ready := by
  have good := (List.mem_filter.mp h).2
  simp only [Bool.and_eq_true, beq_iff_eq] at good
  exact good.1.1

theorem eligible_lastE {mask : Byte} (h : f ∈ eligible s mask) :
    (refreshed s f).lastE = effective s f := by
  have ready := eligible_ready h
  exact refreshed_lastE (by rw [ready]; exact nofun) (by rw [ready]; exact nofun)

theorem eligible_increasing (s : State) (mask : Byte) :
    (eligible s mask).Pairwise (· < ·) :=
  (List.pairwise_lt_finRange 32).filter _

/-- A feature's record once it is paid (R123). -/
abbrev paidRec (r : FeatureRec) : FeatureRec := { r with credit := clampCredit (r.credit + r.lastE) }

theorem payAll_record (e : List FeatureIx) : ∀ s : State, e.Nodup →
    (payAll e s).air.lastTrailer = s.air.lastTrailer ∧ (payAll e s).bus = s.bus ∧
      ∀ f : FeatureIx, (payAll e s).air.features[f] =
        if f ∈ e then paidRec s.air.features[f] else s.air.features[f] := by
  induction e with
  | nil => exact fun s _ => ⟨rfl, rfl, fun f => rfl⟩
  | cons g e ih =>
    intro s distinct
    obtain ⟨fresh, distinct⟩ := List.nodup_cons.mp distinct
    obtain ⟨trailer, bus, records⟩ := ih (setFeature g (paidRec s.air.features[g]) s) distinct
    refine ⟨trailer, bus, fun f => (records f).trans ?_⟩
    by_cases hf : f = g
    · subst hf
      rw [if_neg fresh, if_pos List.mem_cons_self]
      exact put_same _ _ _
    · have found : (setFeature g (paidRec s.air.features[g]) s).air.features[f] =
          s.air.features[f] := put_other _ _ _ _ hf
      rw [found]
      exact if_congr (by simp [hf]) rfl rfl

/-- The richest of a list in increasing order, ties to the lowest index (R123). -/
theorem richest_spec (s : State) (l : List FeatureIx) : l.Pairwise (· < ·) →
    (richest s l = none ↔ l = []) ∧
      ∀ w, richest s l = some w → w ∈ l ∧ ∀ g ∈ l,
        s.air.features[g].credit < s.air.features[w].credit ∨
          s.air.features[g].credit = s.air.features[w].credit ∧ w.val ≤ g.val := by
  induction l with
  | nil => exact fun _ => ⟨iff_of_true rfl rfl, nofun⟩
  | cons f l ih =>
    intro increasing
    obtain ⟨first, increasing⟩ := List.pairwise_cons.mp increasing
    obtain ⟨empty, best⟩ := ih increasing
    unfold richest
    cases hr : richest s l with
    | none =>
      refine ⟨iff_of_false nofun nofun, ?_⟩
      rintro w ⟨⟩
      obtain rfl := empty.mp hr
      refine ⟨List.mem_cons_self, fun g hg => ?_⟩
      obtain rfl := List.mem_singleton.mp hg
      exact .inr ⟨rfl, le_rfl⟩
    | some g =>
      obtain ⟨member, top⟩ := best g hr
      dsimp only
      split
      case isTrue le =>
        refine ⟨iff_of_false nofun nofun, ?_⟩
        rintro w ⟨⟩
        refine ⟨List.mem_cons_self, fun j hj => ?_⟩
        obtain rfl | hj := List.mem_cons.mp hj
        · exact .inr ⟨rfl, le_rfl⟩
        · have before := first j hj
          obtain lt | ⟨eq, -⟩ := top j hj
          · exact .inl (lt_of_lt_of_le lt le)
          · obtain lt | eq' := lt_or_eq_of_le le
            · exact .inl (eq ▸ lt)
            · exact .inr ⟨eq.trans eq', before.le⟩
      case isFalse lt =>
        refine ⟨iff_of_false nofun nofun, ?_⟩
        rintro w ⟨⟩
        refine ⟨List.mem_cons_of_mem _ member, fun j hj => ?_⟩
        obtain rfl | hj := List.mem_cons.mp hj
        · exact .inl (not_le.mp lt)
        · exact top j hj

/-- The winner of a decision: the richest, but for a repeat where another is eligible (R123). -/
theorem winnerOf_spec {d : DisplayIx} {e : List FeatureIx} (h : e.Pairwise (· < ·)) :
    (winnerOf s d e = none ↔ e = []) ∧
      ∀ w, winnerOf s d e = some w → ∃ first, richest s e = some first ∧
        (s.air.lastTrailer[d] ≠ some first ∨ e = [first] → w = first) ∧
        (s.air.lastTrailer[d] = some first → e ≠ [first] →
          richest s (e.filter (· != first)) = some w) := by
  obtain ⟨empty, best⟩ := richest_spec s e h
  unfold winnerOf
  cases hr : richest s e with
  | none => exact ⟨iff_of_true rfl (empty.mp hr), nofun⟩
  | some first =>
    have filled : e ≠ [] := fun none => absurd (hr.symm.trans (empty.mpr none)) nofun
    obtain ⟨member, -⟩ := best first hr
    obtain ⟨empty', -⟩ := richest_spec s (e.filter (· != first)) (h.filter _)
    have alone : e.filter (· != first) = [] ↔ e = [first] := by
      constructor
      · intro none
        have all : ∀ g ∈ e, g = first := by simpa using none
        have one := List.eq_replicate_iff.mpr ⟨rfl, all⟩
        have nodup : e.Nodup := h.imp ne_of_lt
        rw [one, List.nodup_replicate] at nodup
        have length : e.length = 1 := by
          have := List.length_pos_of_mem member
          omega
        rw [one, length]
        rfl
      · intro one
        simp [one]
    dsimp only
    split
    case isTrue repeats =>
      cases hr' : richest s (e.filter (· != first)) with
      | none =>
        have one := alone.mp (empty'.mp hr')
        refine ⟨iff_of_false nofun filled, ?_⟩
        rintro w ⟨⟩
        exact ⟨first, rfl, fun _ => rfl, fun _ more => absurd one more⟩
      | some other =>
        have more : e ≠ [first] := fun one =>
          absurd (hr'.symm.trans (empty'.mpr (alone.mpr one))) nofun
        refine ⟨iff_of_false nofun filled, ?_⟩
        rintro w ⟨⟩
        refine ⟨first, rfl, ?_, fun _ _ => hr'⟩
        rintro (new | one)
        · exact absurd repeats new
        · exact absurd one more
    case isFalse new =>
      refine ⟨iff_of_false nofun filled, ?_⟩
      rintro w ⟨⟩
      exact ⟨first, rfl, fun _ => rfl, fun repeats => absurd repeats new⟩

/-! ### The decision taken -/

/-- The records of a decision once its eligible features are paid. -/
def paidState (mask : Byte) (s : State) : State := payAll (eligible s mask) (refreshE s)

theorem paidState_eq (mask : Byte) (s : State) :
    payAll (eligible s mask) (refreshE s) = paidState mask s := rfl

/-- A record given a credit. -/
abbrev decidedRec (credit : Int) (r : FeatureRec) : FeatureRec := { r with credit := credit }

theorem paidState_record (mask : Byte) (s : State) (f : FeatureIx) :
    (paidState mask s).air.features[f] =
      if f ∈ eligible s mask then
        decidedRec (clampCredit (s.air.features[f].credit + effective s f)) (refreshed s f)
      else refreshed s f := by
  obtain ⟨-, -, records⟩ := payAll_record (eligible s mask) (refreshE s)
    ((eligible_increasing s mask).imp ne_of_lt)
  rw [← paidState_eq, records f, refreshE_record]
  refine ite_congr rfl (fun paid => ?_) fun _ => rfl
  obtain ⟨-, -, credit, -⟩ := refreshed_state s f
  exact congrArg (decidedRec · (refreshed s f)) (by rw [eligible_lastE paid, credit])

theorem paidState_keeps (mask : Byte) (s : State) :
    (paidState mask s).air.lastTrailer = s.air.lastTrailer ∧ (paidState mask s).bus = s.bus := by
  obtain ⟨trailer, bus, -⟩ := payAll_record (eligible s mask) (refreshE s)
    ((eligible_increasing s mask).imp ne_of_lt)
  obtain ⟨trailer', bus'⟩ := refreshE_others s
  rw [paidState_eq] at trailer bus
  exact ⟨trailer.trans trailer', bus.trans bus'⟩

/-- What the eligible features cost a winner: the sum of their effective weights (R123). -/
def eligibleSum (s : State) (mask : Byte) : Nat := ((eligible s mask).map fun f => effective s f).sum

theorem eligibleSum_refreshed (s : State) (mask : Byte) :
    ((eligible s mask).map fun f => (refreshE s).air.features[f].lastE).sum = eligibleSum s mask := by
  refine congrArg List.sum (List.map_congr_left fun f hf => ?_)
  rw [refreshE_record, eligible_lastE hf]

theorem takeDecision_eq_none {q : DecisionRequest}
    (h : winnerOf (paidState q.formatMask s) q.display (eligible s q.formatMask) = none) :
    takeDecision q s = replyDecision q none (settleFeatures s (paidState q.formatMask s)) := by
  simp only [takeDecision, eligibleSet_eq, paidState_eq, h]

theorem takeDecision_eq_some {q : DecisionRequest} {w : FeatureIx}
    (h : winnerOf (paidState q.formatMask s) q.display (eligible s q.formatMask) = some w) :
    takeDecision q s = replyDecision q (some w) (settleFeatures s
      (chargeWinner w q.display (eligibleSum s q.formatMask) (paidState q.formatMask s))) := by
  simp only [takeDecision, eligibleSet_eq, paidState_eq, eligibleSum_refreshed, h]

theorem chargeWinner_air (w : FeatureIx) (d : DisplayIx) (sum : Nat) (u : State) :
    (chargeWinner w d sum u).bus = u.bus ∧
      (chargeWinner w d sum u).air.lastTrailer = put u.air.lastTrailer d (some w) ∧
      (chargeWinner w d sum u).air.features[w] =
        { u.air.features[w] with
          credit := clampCredit (u.air.features[w].credit - sum)
          plays := min (u.air.features[w].plays + 1) 65535
          streamingCount := u.air.features[w].streamingCount + 1 } ∧
      ∀ f : FeatureIx, f ≠ w → (chargeWinner w d sum u).air.features[f] = u.air.features[f] :=
  ⟨rfl, rfl, put_same _ _ _, fun _ hf => put_other _ _ _ _ hf⟩

theorem replyDecision_settled (q : DecisionRequest) (choice : Option FeatureIx) (before u : State) :
    (replyDecision q choice (settleFeatures before u)).air = u.air ∧
      (replyDecision q choice (settleFeatures before u)).bus = { u.bus with
        replies := u.bus.replies ++ [⟨q.display, q.segmentNo, choice⟩] } := by
  simp [replyDecision]

theorem takeDecision_none {q : DecisionRequest}
    (h : winnerOf (paidState q.formatMask s) q.display (eligible s q.formatMask) = none) :
    (takeDecision q s).air = (paidState q.formatMask s).air ∧
      (takeDecision q s).bus = { s.bus with
        replies := s.bus.replies ++ [⟨q.display, q.segmentNo, none⟩] } := by
  obtain ⟨-, bus⟩ := paidState_keeps q.formatMask s
  rw [takeDecision_eq_none h, ← bus]
  exact replyDecision_settled q none s _

theorem takeDecision_some {q : DecisionRequest} {w : FeatureIx}
    (h : winnerOf (paidState q.formatMask s) q.display (eligible s q.formatMask) = some w) :
    (takeDecision q s).air = (chargeWinner w q.display (eligibleSum s q.formatMask)
        (paidState q.formatMask s)).air ∧
      (takeDecision q s).bus = { s.bus with
        replies := s.bus.replies ++ [⟨q.display, q.segmentNo, some w⟩] } := by
  obtain ⟨-, bus⟩ := paidState_keeps q.formatMask s
  rw [takeDecision_eq_some h]
  have bus' := (chargeWinner_air w q.display (eligibleSum s q.formatMask)
    (paidState q.formatMask s)).1.trans bus
  rw [← bus']
  exact replyDecision_settled q (some w) s _

/-- The request of a decision is the oldest of its display, and leaves the queue. -/
def decisionTaken (rest : List DecisionRequest) (s : State) : State :=
  { s with bus := { s.bus with decisions := rest } }

theorem exec_decision {q : DecisionRequest} {rest : List DecisionRequest}
    (h : s.bus.decisions = q :: rest) :
    exec (.decision q.display) s = .next (takeDecision q (decisionTaken rest s)) := by
  have first : takeFirst (fun r : DecisionRequest => r.display == q.display) s.bus.decisions =
      some (q, rest) := by
    rw [h]
    exact if_pos (beq_self_eq_true _)
  simp only [exec, execDecision, first]
  rfl

/-! ## Release reports -/

theorem takeReleaseReport_none {x : Release} (h : s.air.features[x.feature].streamingCount = 0) :
    takeReleaseReport x s = s := if_pos h

theorem takeReleaseReport_drained {x : Release}
    (hd : s.air.features[x.feature].state = .draining)
    (h : s.air.features[x.feature].streamingCount = 1) :
    FeatureBecomes x.feature { validationNo := s.air.features[x.feature].validationNo } s
      (takeReleaseReport x s) := by
  have eq : takeReleaseReport x s = handMirror (.feature x.feature) (emptyFeature x.feature s) := by
    refine (if_neg (by omega)).trans ?_
    refine congrArg (handMirror (.feature x.feature)) (if_pos ⟨hd, ?_⟩)
    omega
  rw [eq, FeatureBecomes, (handMirror_air _ _).1]
  rfl

theorem takeReleaseReport_counted {x : Release}
    (h : s.air.features[x.feature].streamingCount ≠ 0)
    (hd : ¬ (s.air.features[x.feature].state = .draining ∧
      s.air.features[x.feature].streamingCount = 1)) :
    FeatureBecomes x.feature
      { s.air.features[x.feature] with
        streamingCount := s.air.features[x.feature].streamingCount - 1
        state :=
          if x.cause = .clipFault ∧ s.air.features[x.feature].state = .ready then .faulted
          else s.air.features[x.feature].state } s
      (takeReleaseReport x s) := by
  have eq : takeReleaseReport x s = handMirror (.feature x.feature) (setFeature x.feature
      { s.air.features[x.feature] with
        streamingCount := s.air.features[x.feature].streamingCount - 1
        state :=
          if x.cause = .clipFault ∧ s.air.features[x.feature].state = .ready then .faulted
          else s.air.features[x.feature].state } s) := by
    refine (if_neg h).trans ?_
    refine congrArg (handMirror (.feature x.feature)) (if_neg ?_)
    rintro ⟨drains, last⟩
    exact hd ⟨drains, by omega⟩
  rw [eq, FeatureBecomes, (handMirror_air _ _).1]
  rfl

/-- What a release report leaves, whichever queue it has left. -/
theorem takeReleaseReport_effect (x : Release) (s : State) :
    let r := s.air.features[x.feature]
    let t := takeReleaseReport x s
    OtherFeaturesStay x.feature s t ∧ (r.streamingCount = 0 → t.air = s.air) ∧
      (r.state = .draining → r.streamingCount = 1 →
        t.air.features[x.feature] = { validationNo := r.validationNo }) ∧
      (r.streamingCount ≠ 0 → ¬ (r.state = .draining ∧ r.streamingCount = 1) →
        t.air.features[x.feature] =
          { r with
            streamingCount := r.streamingCount - 1
            state := if x.cause = .clipFault ∧ r.state = .ready then .faulted else r.state }) := by
  intro r t
  by_cases none : r.streamingCount = 0
  · have same : t = s := takeReleaseReport_none none
    rw [same]
    exact ⟨fun _ _ => rfl, fun _ => rfl, fun _ one => by omega, fun some => absurd none some⟩
  by_cases drained : r.state = .draining ∧ r.streamingCount = 1
  · have becomes := takeReleaseReport_drained (s := s) (x := x) drained.1 drained.2
    exact ⟨becomes.others, fun h => absurd h none, fun _ _ => becomes.record,
      fun _ h => absurd drained h⟩
  · have becomes := takeReleaseReport_counted (s := s) (x := x) none drained
    exact ⟨becomes.others, fun h => absurd h none, fun h h' => absurd ⟨h, h'⟩ drained,
      fun _ _ => becomes.record⟩

/-- The credit a feature is paid (R123). -/
def paidCredit (s : State) (f : FeatureIx) : Int :=
  clampCredit (s.air.features[f].credit + effective s f)

theorem paidState_credit {mask : Byte} (h : f ∈ eligible s mask) :
    (paidState mask s).air.features[f].credit = paidCredit s f := by
  rw [paidState_record, if_pos h]
  rfl

/-- A feature leads a list: none has been paid more, and none of a lower index as much (R123). -/
abbrev Leads (s : State) (l : List FeatureIx) (w : FeatureIx) : Prop :=
  w ∈ l ∧ ∀ g ∈ l, paidCredit s g < paidCredit s w ∨ paidCredit s g = paidCredit s w ∧ w.val ≤ g.val

theorem richest_leads {mask : Byte} {l : List FeatureIx} {w : FeatureIx}
    (sub : ∀ g ∈ l, g ∈ eligible s mask) (h : l.Pairwise (· < ·))
    (hr : richest (paidState mask s) l = some w) : Leads s l w := by
  obtain ⟨member, top⟩ := (richest_spec (paidState mask s) l h).2 w hr
  refine ⟨member, fun g hg => ?_⟩
  rw [← paidState_credit (sub g hg), ← paidState_credit (sub w member)]
  exact top g hg

/-- The winner of a decision leads the eligible features, or the others where it would repeat. -/
theorem winnerOf_leads {mask : Byte} {d : DisplayIx} {w : FeatureIx}
    (h : winnerOf (paidState mask s) d (eligible s mask) = some w) :
    w ∈ eligible s mask ∧
      ((∃ g ∈ eligible s mask, s.air.lastTrailer[d] ≠ some g) → s.air.lastTrailer[d] ≠ some w) ∧
      ∃ first, Leads s (eligible s mask) first ∧
        (s.air.lastTrailer[d] ≠ some first ∨ eligible s mask = [first] → w = first) ∧
        (s.air.lastTrailer[d] = some first → eligible s mask ≠ [first] →
          Leads s ((eligible s mask).filter (· != first)) w) := by
  have increasing := eligible_increasing s mask
  obtain ⟨-, chosen⟩ := winnerOf_spec (s := paidState mask s) (d := d) increasing
  obtain ⟨first, best, new, again⟩ := chosen w h
  rw [(paidState_keeps mask s).1] at new again
  have leads := richest_leads (fun _ => id) increasing best
  have others (repeats : s.air.lastTrailer[d] = some first) (more : eligible s mask ≠ [first]) :
      Leads s ((eligible s mask).filter (· != first)) w :=
    richest_leads (fun g hg => (List.mem_filter.mp hg).1) (increasing.filter _) (again repeats more)
  by_cases kept : s.air.lastTrailer[d] ≠ some first ∨ eligible s mask = [first]
  · obtain rfl := new kept
    refine ⟨leads.1, ?_, w, leads, new, others⟩
    rintro ⟨g, member, other⟩
    obtain fresh | one := kept
    · exact fresh
    · rw [one] at member
      rwa [List.mem_singleton.mp member] at other
  · obtain ⟨repeats, more⟩ := not_or.mp kept
    have repeats := not_not.mp repeats
    obtain ⟨member, differs⟩ := List.mem_filter.mp (others repeats more).1
    refine ⟨member, fun _ same => ?_, first, leads, new, others⟩
    rw [repeats, Option.some.injEq] at same
    simp [same] at differs

/-- What a decision leaves of every record, whoever wins (R122, R123). -/
theorem takeDecision_records (q : DecisionRequest) (s : State) (f : FeatureIx) :
    let t := takeDecision q s
    let r := s.air.features[f]
    (r.state ≠ .empty → r.state ≠ .draining → t.air.features[f].lastE = effective s f) ∧
      (r.state = .draining → t.air.features[f] = r) ∧
      (f ∉ eligible s q.formatMask →
        t.air.features[f].credit = r.credit ∧ t.air.features[f].plays = r.plays) := by
  intro t r
  have record := paidState_record q.formatMask s f
  obtain ⟨-, -, credit, plays, -⟩ := refreshed_state s f
  have paidE (he : r.state ≠ .empty) (hd : r.state ≠ .draining) :
      (paidState q.formatMask s).air.features[f].lastE = effective s f := by
    rw [record]
    split
    · exact refreshed_lastE he hd
    · exact refreshed_lastE he hd
  have unpaid (h : f ∉ eligible s q.formatMask) :
      (paidState q.formatMask s).air.features[f] = refreshed s f := record.trans (if_neg h)
  have unready (hd : r.state = .draining) : f ∉ eligible s q.formatMask := fun h =>
    absurd ((eligible_ready h).symm.trans hd) nofun
  have still (hd : r.state = .draining) : refreshed s f = r := if_pos (.inr hd)
  cases hw : winnerOf (paidState q.formatMask s) q.display (eligible s q.formatMask) with
  | none =>
    obtain ⟨air, -⟩ := takeDecision_none hw
    change t.air = _ at air
    rw [air]
    refine ⟨paidE, fun hd => (unpaid (unready hd)).trans (still hd), fun h => ?_⟩
    rw [unpaid h]
    exact ⟨credit, plays⟩
  | some w =>
    obtain ⟨air, -⟩ := takeDecision_some hw
    obtain ⟨won, -⟩ := winnerOf_leads hw
    obtain ⟨-, -, charged, others⟩ := chargeWinner_air w q.display
      (eligibleSum s q.formatMask) (paidState q.formatMask s)
    change t.air = _ at air
    rw [air]
    refine ⟨fun he hd => ?_, fun hd => ?_, fun h => ?_⟩
    · by_cases hf : f = w
      · subst hf
        rw [charged]
        exact paidE he hd
      · rw [others f hf]
        exact paidE he hd
    · rw [others f fun hf => unready hd (hf ▸ won), unpaid (unready hd), still hd]
    · rw [others f fun hf => h (hf ▸ won), unpaid h]
      exact ⟨credit, plays⟩

/-- What a decision with a winner leaves of the eligible records (R123, R124). -/
theorem takeDecision_charges {q : DecisionRequest} {w : FeatureIx}
    (h : winnerOf (paidState q.formatMask s) q.display (eligible s q.formatMask) = some w) :
    let t := takeDecision q s
    t.air.lastTrailer = put s.air.lastTrailer q.display (some w) ∧
      t.air.features[w].plays = min (s.air.features[w].plays + 1) 65535 ∧
      t.air.features[w].streamingCount = s.air.features[w].streamingCount + 1 ∧
      t.air.features[w].credit = clampCredit (paidCredit s w - eligibleSum s q.formatMask) ∧
      ∀ f ∈ eligible s q.formatMask, f ≠ w → t.air.features[f].credit = paidCredit s f ∧
        t.air.features[f].streamingCount = s.air.features[f].streamingCount := by
  intro t
  obtain ⟨air, -⟩ := takeDecision_some h
  obtain ⟨won, -⟩ := winnerOf_leads h
  obtain ⟨-, trailer, charged, others⟩ := chargeWinner_air w q.display
    (eligibleSum s q.formatMask) (paidState q.formatMask s)
  obtain ⟨-, -, -, plays, streaming⟩ := refreshed_state s w
  have paid := (paidState_record q.formatMask s w).trans (if_pos won)
  change t.air = _ at air
  rw [air]
  refine ⟨?_, ?_, ?_, ?_, fun f hf other => ?_⟩
  · rw [trailer, (paidState_keeps q.formatMask s).1]
  · rw [charged, paid]
    exact congrArg (min <| · + 1) plays |> (congrFun · 65535)
  · rw [charged, paid]
    exact congrArg (· + 1) streaming
  · rw [charged, paid]
    rfl
  · rw [others f other, (paidState_record q.formatMask s f).trans (if_pos hf)]
    exact ⟨rfl, (refreshed_state s f).2.2.2.2⟩

/-- Settles O52, by the best boost, by what a decision leaves of each record, and by what a release report
leaves. -/
theorem decisionsPayAndCharge : Obligations.DecisionsPayAndCharge := by
  intro s d
  refine ⟨fun f now set => ?_, fun f => effective_noBoost, clampCredit_eq, ?_, ?_⟩
  · intro window boost
    obtain ⟨high, attained⟩ := bestBoost_spec s f
    have stamp : lobbyStamp s = now := by
      rw [lobbyStamp, set]
      rfl
    simp only [boostOf_eq, stamp] at high attained
    exact ⟨bestBoost s f, rfl, high, attained⟩
  · rintro q rest queued rfl
    intro e sum paid best
    have records := takeDecision_records q (decisionTaken rest s)
    have none_iff := (winnerOf_spec (s := paidState q.formatMask (decisionTaken rest s))
      (d := q.display) (eligible_increasing (decisionTaken rest s) q.formatMask)).1
    cases hw : winnerOf (paidState q.formatMask (decisionTaken rest s)) q.display
        (eligible (decisionTaken rest s) q.formatMask) with
    | none =>
      obtain ⟨air, bus⟩ := takeDecision_none hw
      have empty : e = [] := none_iff.mp hw
      refine ⟨_, exec_decision queued, congrArg (·.decisions) bus, fun f => (records f).1,
        fun f => (records f).2.1, fun f => (records f).2.2, fun _ => ⟨congrArg (·.replies) bus, ?_⟩,
        fun some => absurd empty some⟩
      exact (congrArg (·.lastTrailer) air).trans (paidState_keeps _ _).1
    | some w =>
      obtain ⟨air, bus⟩ := takeDecision_some hw
      obtain ⟨won, fresh, leads⟩ := winnerOf_leads hw
      obtain ⟨trailer, plays, streaming, credit, others⟩ := takeDecision_charges hw
      have some : e ≠ [] := List.ne_nil_of_mem won
      exact ⟨_, exec_decision queued, congrArg (·.decisions) bus, fun f => (records f).1,
        fun f => (records f).2.1, fun f => (records f).2.2, fun empty => absurd empty some,
        fun _ => ⟨w, won, congrArg (·.replies) bus, trailer, fresh, leads, plays, streaming, credit,
          others⟩⟩
  · rintro x rest sender (⟨rfl, queued⟩ | ⟨rfl, queued⟩)
    · refine ⟨takeReleaseReport x { s with bus := { s.bus with streamReleases := rest } }, ?_,
        takeReleaseReport_effect x { s with bus := { s.bus with streamReleases := rest } }⟩
      simp only [exec, execReleaseReport, queued]
    · refine ⟨takeReleaseReport x { s with bus := { s.bus with displayReleases := rest } }, ?_,
        takeReleaseReport_effect x { s with bus := { s.bus with displayReleases := rest } }⟩
      simp only [exec, execReleaseReport, queued]

end

end Sys2Proof.Machine

namespace Sys2Proof.Machine

section
variable {s : State} {d : DisplayIx}

/-! ## What a display's operations leave -/

/-- Between `s` and `t` the record of display `d` has become `r`, and no other has changed. -/
def DisplayBecomes (d : DisplayIx) (r : DisplayRec) (s t : State) : Prop :=
  t.displays.recs = put s.displays.recs d r

theorem DisplayBecomes.others {r : DisplayRec} {t : State} (h : DisplayBecomes d r s t) :
    OtherDisplaysStay d s t := by
  intro j hj
  rw [h]
  exact put_other _ _ _ _ hj

theorem DisplayBecomes.record {r : DisplayRec} {t : State} (h : DisplayBecomes d r s t) :
    t.displays.recs[d] = r := by
  rw [h]
  exact put_same _ _ _

theorem DisplayBecomes.congr {r : DisplayRec} {t u v : State} (h : DisplayBecomes d r t u)
    (hs : t.displays = s.displays) (hu : v.displays = u.displays) : DisplayBecomes d r s v := by
  unfold DisplayBecomes at *
  rw [hu, h, hs]

theorem DisplayBecomes.then {r r' : DisplayRec} {t u : State} (h : DisplayBecomes d r s t)
    (h' : DisplayBecomes d r' t u) : DisplayBecomes d r' s u := by
  unfold DisplayBecomes at *
  rw [h', h, put_put_same]

theorem withDisplay_becomes (d : DisplayIx) (g : DisplayRec → DisplayRec) (s : State) :
    DisplayBecomes d (g s.displays.recs[d]) s (withDisplay d g s) := rfl

theorem sendPanel_sent (d : DisplayIx) (f : PanelFrame) (s : State) :
    PanelSent d f s (sendPanel d f s) := by
  rw [PanelSent, sendPanel_links]
  split
  · rfl
  · exact put_self _ _

theorem sendPanel_displays (d : DisplayIx) (f : PanelFrame) (s : State) :
    (sendPanel d f s).displays = s.displays ∧ (sendPanel d f s).bus = s.bus ∧
      (sendPanel d f s).win = s.win := by
  simp

theorem settleDisplay_displays (before : State) (d : DisplayIx) (s : State) :
    (settleDisplay before d s).displays = s.displays ∧ (settleDisplay before d s).bus = s.bus ∧
      (settleDisplay before d s).stream = s.stream := by
  simp

theorem reportDisplay_bus (r : DisplayReport) (s : State) :
    (reportDisplay r s).bus = { s.bus with displayReports := s.bus.displayReports ++ [r] } := rfl

/-- A display turned OFF (R134). -/
theorem turnOff_effect (d : DisplayIx) (s : State) :
    DisplayBecomes d { s.displays.recs[d].idle with state := .off } s (turnOff d s) ∧
      (turnOff d s).bus = { s.bus with displayReports := s.bus.displayReports ++ [.off d] } ∧
      PanelSent d .stripClear s (turnOff d s) := by
  have becomes := withDisplay_becomes d (fun r => { r.idle with state := .off }) s
  have sent := sendPanel_sent d .stripClear (withDisplay d (fun r => { r.idle with state := .off }) s)
  obtain ⟨displays, bus, -⟩ := sendPanel_displays d .stripClear
    (withDisplay d (fun r => { r.idle with state := .off }) s)
  refine ⟨becomes.congr rfl displays, ?_, ?_⟩
  · exact (reportDisplay_bus _ _).trans (by rw [bus]; rfl)
  · rw [PanelSent, becomes.record] at sent
    exact sent

/-- A display that begins to drain (R134). -/
theorem beginDraining_effect (d : DisplayIx) (s : State) :
    DisplayBecomes d { s.displays.recs[d] with state := .draining } s (beginDraining d s) ∧
      (beginDraining d s).bus =
        { s.bus with displayReports := s.bus.displayReports ++ [.draining d] } ∧
      PanelSent d .stripClear s (beginDraining d s) := by
  have becomes := withDisplay_becomes d (fun r => { r with state := .draining }) s
  have sent := sendPanel_sent d .stripClear (withDisplay d (fun r => { r with state := .draining }) s)
  obtain ⟨displays, bus, -⟩ := sendPanel_displays d .stripClear
    (withDisplay d (fun r => { r with state := .draining }) s)
  refine ⟨becomes.congr rfl displays, ?_, ?_⟩
  · exact (reportDisplay_bus _ _).trans (by rw [bus]; rfl)
  · rw [PanelSent, becomes.record] at sent
    exact sent

/-- A segment ended unfinished asks the Stream Engine to abandon it where it is a trailer (R138). -/
theorem abandonSegment_effect (d : DisplayIx) (s : State) :
    (abandonSegment d s).displays = s.displays ∧ (abandonSegment d s).stream = s.stream ∧
      (abandonSegment d s).clock = s.clock ∧ (abandonSegment d s).shows = s.shows ∧
      (abandonSegment d s).bus = { s.bus with
        streamReqs := s.bus.streamReqs ++
          if s.displays.recs[d].segment = .trailer then [.abandon d s.displays.recs[d].segmentNo]
          else [] } := by
  unfold abandonSegment
  by_cases trailer : s.displays.recs[d].segment = .trailer
  · simp only [if_pos trailer]
    exact ⟨rfl, rfl, rfl, rfl, rfl⟩
  · simp only [if_neg trailer, List.append_nil]
    exact ⟨trivial, trivial, trivial, trivial, trivial⟩

/-! ## Display entries -/

variable {x : Flight}

theorem exec_displaySetup (h : handedEntry .displaySetup s = some x) :
    exec .displaySetup s =
      .next (withDisplayIndex x (setupDisplay (readSetupBody (entryBody x.bytes))) s) :=
  congrArg Host.Outcome.next (takeEntry_handed h _)

theorem exec_displayEnable (h : handedEntry .displayEnable s = some x) :
    exec .displayEnable s = .next (withDisplayIndex x enableDisplay s) :=
  congrArg Host.Outcome.next (takeEntry_handed h _)

/-- A DISPLAY_DISABLE, and the end of its entry (R134). -/
def disableEnded (d : DisplayIx) (s : State) : State :=
  finishDisplay d (settleDisplay s d (disableDisplay d s))

theorem exec_displayDisable (h : handedEntry .displayDisable s = some x) :
    exec .displayDisable s = .next (withDisplayIndex x disableEnded s) :=
  congrArg Host.Outcome.next (takeEntry_handed h _)

theorem withDisplayIndex_beyond {act : DisplayIx → State → State}
    (h : 16 ≤ fieldAt (entryBody x.bytes) 0 1) (s : State) :
    withDisplayIndex x act s = finishOpen .badIndex s := by
  rw [withDisplayIndex, indexOf?_of_le h]

theorem withDisplayIndex_named {act : DisplayIx → State → State}
    (h : fieldAt (entryBody x.bytes) 0 1 = d.val) (s : State) :
    withDisplayIndex x act s = act d s := by
  rw [withDisplayIndex, h, indexOf?_val]

theorem finish_keepsDisplays (code : OutcomeCode) (detail : Nat) (s : State) :
    (finish code detail s).displays = s.displays ∧ (finish code detail s).stream = s.stream ∧
      (finish code detail s).bus = s.bus := by
  simp

theorem finishOpen_keepsDisplays (code : OutcomeCode) (s : State) :
    (finishOpen code s).displays = s.displays ∧ (finishOpen code s).stream = s.stream ∧
      (finishOpen code s).bus = s.bus := by
  simp

/-- The end of a display's entry at the state `u` that it has made: the display's record is handed, and the
outcome carries its state. -/
theorem finishDisplay_settled {u : State} (before : State) (d : DisplayIx) (hw : u.win = s.win)
    (hf : s.win.flight = some x) (hv : s.win.windowValid = true) :
    let t := finishDisplay d (settleDisplay before d u)
    t.displays = u.displays ∧ t.stream = u.stream ∧ t.bus = u.bus ∧
      EndsWith .done u.displays.recs[d].state.code x t := by
  obtain ⟨flight, valid, -⟩ := settleDisplay_win before d u
  obtain ⟨displays, bus, stream⟩ := settleDisplay_displays before d u
  generalize settleDisplay before d u = y at *
  obtain ⟨displays', stream', bus'⟩ := finish_keepsDisplays .done y.displays.recs[d].state.code y
  refine ⟨displays'.trans displays, stream'.trans stream, bus'.trans bus, ?_⟩
  rw [← displays]
  exact finish_ends _ _ (by rw [flight, hw, hf]) (by rw [valid, hw, hv])

/-! ### DISPLAY_SETUP -/

/-- A setup written, and the floor reported where it has changed (R130, R93). -/
def setupWritten (d : DisplayIx) (new : DisplaySetup) (s : State) : State :=
  if new.floor ≠ s.displays.recs[d].setup.floor then
    reportDisplay (.floor d new.floor) (withDisplay d (fun r => { r with setup := new }) s)
  else withDisplay d (fun r => { r with setup := new }) s

theorem setupWritten_effect (d : DisplayIx) (new : DisplaySetup) (s : State) :
    DisplayBecomes d { s.displays.recs[d] with setup := new } s (setupWritten d new s) ∧
      (setupWritten d new s).win = s.win ∧
      (setupWritten d new s).bus.displayReports = s.bus.displayReports ++
        (if new.floor = s.displays.recs[d].setup.floor then [] else [.floor d new.floor]) := by
  unfold setupWritten
  by_cases same : new.floor = s.displays.recs[d].setup.floor
  · rw [if_neg (not_not_intro same), if_pos same, List.append_nil]
    exact ⟨rfl, rfl, rfl⟩
  · rw [if_pos same, if_neg same]
    exact ⟨rfl, rfl, rfl⟩

variable {b : SetupBody}

theorem setupDisplay_wrongState (hm : marksOffField (marked b.mask) = true)
    (hs : s.displays.recs[d].state ≠ .off) :
    setupDisplay b d s = finish .wrongState s.displays.recs[d].state.code s :=
  if_pos ⟨hm, hs⟩

theorem setupDisplay_bad {n : Nat}
    (hm : marksOffField (marked b.mask) = false ∨ s.displays.recs[d].state = .off)
    (hb : badSetupField (marked b.mask) b (setUp (marked b.mask) b s.displays.recs[d].setup) =
      some n) :
    setupDisplay b d s = finish .badField n s := by
  unfold setupDisplay
  dsimp only
  rw [if_neg, hb]
  rintro ⟨hm', hs⟩
  obtain hm | hs' := hm
  · exact absurd (hm'.symm.trans hm) nofun
  · exact hs hs'

theorem setupDisplay_good
    (hm : marksOffField (marked b.mask) = false ∨ s.displays.recs[d].state = .off)
    (hb : badSetupField (marked b.mask) b (setUp (marked b.mask) b s.displays.recs[d].setup) =
      none) :
    setupDisplay b d s = finishDisplay d (settleDisplay s d
      (setupWritten d (setUp (marked b.mask) b s.displays.recs[d].setup) s)) := by
  unfold setupDisplay
  dsimp only
  rw [if_neg, hb]
  · rfl
  rintro ⟨hm', hs⟩
  obtain hm | hs' := hm
  · exact absurd (hm'.symm.trans hm) nofun
  · exact hs hs'

/-! ### DISPLAY_ENABLE -/

/-- A display that starts (R132). -/
def enableWritten (d : DisplayIx) (s : State) : State :=
  reportDisplay (.enabled d s.displays.recs[d].setup.tag)
    (withDisplay d (fun r => { r.idle with state := .starting, loopPos := 0, page := none }) s)

theorem enableDisplay_off (h : s.displays.recs[d].state = .off) :
    enableDisplay d s = finishDisplay d (settleDisplay s d (enableWritten d s)) := by
  unfold enableDisplay
  rw [h]
  rfl

theorem enableDisplay_on (h : s.displays.recs[d].state = .starting ∨
      s.displays.recs[d].state = .on ∨ s.displays.recs[d].state = .linkLost) :
    enableDisplay d s = finish .done s.displays.recs[d].state.code s := by
  unfold enableDisplay
  obtain h | h | h := h <;> simp only [h, finishDisplay]

theorem enableDisplay_draining (h : s.displays.recs[d].state = .draining) :
    enableDisplay d s = finish .wrongState 4 s := by
  unfold enableDisplay
  rw [h]
  rfl

/-! ### DISPLAY_DISABLE -/

theorem disableDisplay_over (h : s.displays.recs[d].state = .off ∨
    s.displays.recs[d].state = .draining) : disableDisplay d s = s := by
  unfold disableDisplay
  obtain h | h := h <;> simp only [h]

theorem disableDisplay_idle (h : s.displays.recs[d].state = .starting ∨
      s.displays.recs[d].state = .linkLost ∨
      s.displays.recs[d].state = .on ∧ s.displays.recs[d].segment.onAir = false) :
    disableDisplay d s = turnOff d s := by
  unfold disableDisplay
  obtain h | h | ⟨h, hs⟩ := h
  · simp only [h]
  · simp only [h]
  · simp only [h, hs]
    rfl

theorem disableDisplay_suspended (h : s.displays.recs[d].state = .on)
    (ho : s.displays.recs[d].segment.onAir = true) (hs : s.displays.recs[d].suspended = true) :
    disableDisplay d s = turnOff d (abandonSegment d s) := by
  simp only [disableDisplay, h, ho, hs]
  rfl

/-- A display told to drain, and its trailer to finish (R134). -/
def drainTold (d : DisplayIx) (s : State) : State :=
  if s.displays.recs[d].segment = .trailer then
    requestStream (.finish d s.displays.recs[d].segmentNo) (beginDraining d s)
  else beginDraining d s

theorem disableDisplay_onAir (h : s.displays.recs[d].state = .on)
    (ho : s.displays.recs[d].segment.onAir = true) (hs : s.displays.recs[d].suspended = false) :
    disableDisplay d s = drainTold d s := by
  simp only [disableDisplay, h, ho, hs]
  rfl

theorem drainTold_effect (d : DisplayIx) (s : State) :
    DisplayBecomes d { s.displays.recs[d] with state := .draining } s (drainTold d s) ∧
      PanelSent d .stripClear s (drainTold d s) ∧
      (drainTold d s).bus.displayReports = s.bus.displayReports ++ [.draining d] ∧
      (drainTold d s).bus.streamReqs = s.bus.streamReqs ++
        (if s.displays.recs[d].segment = .trailer then [.finish d s.displays.recs[d].segmentNo]
         else []) := by
  obtain ⟨becomes, bus, sent⟩ := beginDraining_effect d s
  unfold drainTold
  by_cases trailer : s.displays.recs[d].segment = .trailer
  · rw [if_pos trailer, if_pos trailer]
    exact ⟨becomes, sent, congrArg (·.displayReports) bus,
      congrArg (· ++ [_]) (congrArg (·.streamReqs) bus)⟩
  · rw [if_neg trailer, if_neg trailer, List.append_nil]
    exact ⟨becomes, sent, congrArg (·.displayReports) bus, congrArg (·.streamReqs) bus⟩

/-- A suspended segment abandoned, and its display OFF (R134). -/
theorem turnOff_abandoned (d : DisplayIx) (s : State) :
    let t := turnOff d (abandonSegment d s)
    DisplayBecomes d { s.displays.recs[d].idle with state := .off } s t ∧
      t.bus.displayReports = s.bus.displayReports ++ [.off d] ∧
      t.bus.streamReqs = s.bus.streamReqs ++
        (if s.displays.recs[d].segment = .trailer then [.abandon d s.displays.recs[d].segmentNo]
         else []) := by
  obtain ⟨displays, -, -, -, bus⟩ := abandonSegment_effect d s
  obtain ⟨becomes, bus', -⟩ := turnOff_effect d (abandonSegment d s)
  rw [displays] at becomes
  rw [bus] at bus'
  exact ⟨becomes.congr displays rfl, congrArg (·.displayReports) bus',
    congrArg (·.streamReqs) bus'⟩

theorem disableDisplay_win (d : DisplayIx) (s : State) : (disableDisplay d s).win = s.win := by
  simp

theorem disableDisplay_others (d : DisplayIx) (s : State) :
    OtherDisplaysStay d s (disableDisplay d s) := by
  cases h : s.displays.recs[d].state with
  | off => rw [disableDisplay_over (.inl h)]; exact fun _ _ => rfl
  | draining => rw [disableDisplay_over (.inr h)]; exact fun _ _ => rfl
  | starting => rw [disableDisplay_idle (.inl h)]; exact (turnOff_effect d s).1.others
  | linkLost => rw [disableDisplay_idle (.inr (.inl h))]; exact (turnOff_effect d s).1.others
  | on =>
    cases ho : s.displays.recs[d].segment.onAir with
    | false => rw [disableDisplay_idle (.inr (.inr ⟨h, ho⟩))]; exact (turnOff_effect d s).1.others
    | true =>
      cases hs : s.displays.recs[d].suspended with
      | true => rw [disableDisplay_suspended h ho hs]; exact (turnOff_abandoned d s).1.others
      | false => rw [disableDisplay_onAir h ho hs]; exact (drainTold_effect d s).1.others

/-- What a DISPLAY_DISABLE leaves, once its entry has ended. -/
theorem disableEnded_effect (hf : s.win.flight = some x) (hv : s.win.windowValid = true) :
    let t := disableEnded d s
    t.displays = (disableDisplay d s).displays ∧ t.stream = (disableDisplay d s).stream ∧
      t.bus = (disableDisplay d s).bus ∧
      EndsWith .done (disableDisplay d s).displays.recs[d].state.code x t :=
  finishDisplay_settled s d (disableDisplay_win d s) hf hv

/-- Settles O53, by the checks of the three entries in order, and by what each does to its display. -/
theorem displayEntriesActOnOneDisplay : Obligations.DisplayEntriesActOnOneDisplay := by
  intro s x index
  refine ⟨fun c hc => ?_, fun d named => ?_⟩
  · have refused {act : DisplayIx → State → State} (beyond : 16 ≤ index)
        (hf : s.win.flight = some x) (hv : s.win.windowValid = true) :
        let t := withDisplayIndex x act s
        t.displays = s.displays ∧ t.stream = s.stream ∧ t.bus = s.bus ∧
          ∃ n, EndsWith .badIndex n x t := by
      obtain ⟨displays, stream, bus⟩ := finishOpen_keepsDisplays .badIndex s
      rw [withDisplayIndex_beyond beyond]
      exact ⟨displays, stream, bus, (finishOpen_refused .badIndex hf hv).2.2⟩
    simp only [List.mem_cons, List.not_mem_nil, or_false] at hc
    obtain rfl | rfl | rfl := hc
    · rintro ⟨handed, hv⟩ beyond
      exact ⟨_, exec_displaySetup handed, refused beyond (handedEntry_flight handed) hv⟩
    · rintro ⟨handed, hv⟩ beyond
      exact ⟨_, exec_displayEnable handed, refused beyond (handedEntry_flight handed) hv⟩
    · rintro ⟨handed, hv⟩ beyond
      exact ⟨_, exec_displayDisable handed, refused beyond (handedEntry_flight handed) hv⟩
  · intro r reports
    refine ⟨?_, ?_, ?_⟩
    · rintro ⟨handed, hv⟩
      intro b m new
      have hf := handedEntry_flight handed
      refine ⟨_, (exec_displaySetup handed).trans (congrArg _ (withDisplayIndex_named named s)), ?_⟩
      by_cases wrong : marksOffField m = true ∧ r.state ≠ .off
      · obtain ⟨displays, -⟩ := finish_keepsDisplays .wrongState r.state.code s
        rw [setupDisplay_wrongState wrong.1 wrong.2]
        have clash (may : marksOffField m = false ∨ r.state = .off) : False := by
          obtain unmarked | off := may
          · exact absurd (wrong.1.symm.trans unmarked) nofun
          · exact wrong.2 off
        exact ⟨fun j _ => by rw [displays], fun _ _ => ⟨displays, finish_ends _ _ hf hv⟩,
          fun _ may => (clash may).elim, fun may => (clash may).elim⟩
      have may : marksOffField m = false ∨ r.state = .off := by
        cases marks : marksOffField m with
        | false => exact .inl rfl
        | true => exact .inr (not_not.mp fun on => wrong ⟨marks, on⟩)
      have right (marks : marksOffField m = true) (on : r.state ≠ .off) : False := wrong ⟨marks, on⟩
      cases bad : badSetupField m b new with
      | some n =>
        obtain ⟨displays, -⟩ := finish_keepsDisplays .badField n s
        rw [setupDisplay_bad may bad]
        refine ⟨fun j _ => by rw [displays], fun marks on => (right marks on).elim, ?_, nofun⟩
        rintro n' - ⟨⟩
        exact ⟨displays, finish_ends _ _ hf hv⟩
      | none =>
        obtain ⟨becomes, win, reported⟩ := setupWritten_effect d new s
        rw [setupDisplay_good may bad]
        obtain ⟨displays, -, bus, done⟩ := finishDisplay_settled s d win hf hv
        rw [becomes.record] at done
        have becomes := becomes.congr (s := s) rfl displays
        exact ⟨becomes.others, fun marks on => (right marks on).elim, nofun,
          fun _ _ => ⟨becomes.record, done, (congrArg (·.displayReports) bus).trans reported⟩⟩
    · rintro ⟨handed, hv⟩
      have hf := handedEntry_flight handed
      refine ⟨_, (exec_displayEnable handed).trans (congrArg _ (withDisplayIndex_named named s)), ?_⟩
      by_cases off : r.state = .off
      · have becomes := withDisplay_becomes d
          (fun r => { r.idle with state := .starting, loopPos := 0, page := none }) s
        obtain ⟨displays, -, bus, done⟩ :=
          finishDisplay_settled (u := enableWritten d s) s d rfl hf hv
        have becomes := becomes.congr (s := s) (v := enableWritten d s) rfl rfl
        rw [becomes.record] at done
        have becomes := becomes.congr (s := s) rfl displays
        rw [enableDisplay_off off]
        refine ⟨becomes.others, fun _ => ⟨?_, ?_, ?_, ?_, congrArg (·.displayReports) bus, done⟩,
          fun on => ?_, fun drains => absurd (off.symm.trans drains) nofun⟩
        · exact congrArg (·.state) becomes.record
        · exact congrArg (·.loopPos) becomes.record
        · exact congrArg (·.page) becomes.record
        · exact congrArg (·.setup) becomes.record
        · obtain on | on | on := on
          all_goals exact absurd (off.symm.trans on) nofun
      by_cases draining : r.state = .draining
      · obtain ⟨displays, -⟩ := finish_keepsDisplays .wrongState 4 s
        rw [enableDisplay_draining draining]
        refine ⟨fun j _ => by rw [displays], fun h => absurd h off, fun on => ?_,
          fun _ => ⟨displays, finish_ends _ _ hf hv⟩⟩
        obtain on | on | on := on
        all_goals exact absurd (draining.symm.trans on) nofun
      · have on : r.state = .starting ∨ r.state = .on ∨ r.state = .linkLost := by
          cases state : r.state with
          | off => exact absurd state off
          | draining => exact absurd state draining
          | starting => exact .inl rfl
          | on => exact .inr (.inl rfl)
          | linkLost => exact .inr (.inr rfl)
        obtain ⟨displays, -⟩ := finish_keepsDisplays .done r.state.code s
        rw [enableDisplay_on on]
        exact ⟨fun j _ => by rw [displays], fun h => absurd h off,
          fun _ => ⟨displays, finish_ends _ _ hf hv⟩,
          fun h => absurd h draining⟩
    · rintro ⟨handed, hv⟩
      have hf := handedEntry_flight handed
      refine ⟨_, (exec_displayDisable handed).trans (congrArg _ (withDisplayIndex_named named s)), ?_⟩
      obtain ⟨displays, stream, bus, done⟩ := disableEnded_effect (d := d) hf hv
      refine ⟨fun j hj => ?_, ?_, fun gone => ?_, fun idle => ?_, fun on onAir playing => ?_,
        fun on onAir suspended => ?_⟩
      · rw [displays]
        exact disableDisplay_others d s j hj
      · rw [displays]
        exact done
      · rw [displays, bus, disableDisplay_over gone]
        exact ⟨rfl, rfl⟩
      · obtain ⟨becomes, bus', sent⟩ := turnOff_effect d s
        unfold PanelSent reports
        rw [displays, bus, stream, disableDisplay_idle idle]
        exact ⟨becomes.record, congrArg (·.displayReports) bus', sent⟩
      · obtain ⟨becomes, sent, reported, asked⟩ := drainTold_effect d s
        unfold PanelSent reports
        rw [displays, bus, stream, disableDisplay_onAir on onAir playing]
        exact ⟨becomes.record, reported, sent, asked⟩
      · obtain ⟨becomes, reported, asked⟩ := turnOff_abandoned d s
        unfold reports
        rw [displays, bus, disableDisplay_suspended on onAir suspended]
        exact ⟨becomes.record, reported, asked⟩

end

end Sys2Proof.Machine

namespace Sys2Proof.Machine

section
variable {s : State} {d : DisplayIx}

/-! ## The loop of a display -/

/-- A composed page is a matter of its display's record and link. -/
theorem PageComposed.congr {link : PanelLink} {t u : State} (h : PageComposed d link s t)
    (hd : u.displays.recs[d] = t.displays.recs[d]) (hl : u.stream.links[d] = t.stream.links[d]) :
    PageComposed d link s u := by
  unfold PageComposed at *
  rw [hd, hl]
  exact h

/-- What a slot start reads is as it was in `s`: all but the record's place in the loop and its number. -/
structure SlotReady (d : DisplayIx) (s w : State) : Prop where
  shows : w.shows = s.shows
  clock : w.clock = s.clock
  links : OtherLinksStay d s w
  decisions : w.bus.decisions = s.bus.decisions
  setup : w.displays.recs[d].setup = s.displays.recs[d].setup
  page : w.displays.recs[d].page = s.displays.recs[d].page
  pages : w.displays.recs[d].pages = s.displays.recs[d].pages
  number : w.displays.recs[d].segmentNo = (s.displays.recs[d].segmentNo + 1) % 256
  others : OtherDisplaysStay d s w

/-- A slot started from a state that differs from `s` as SlotReady says. -/
theorem SlotReady.starts {w t : State} (h : SlotReady d s w)
    (hd : t.displays = (startSlot d w).displays) (hs : t.stream = (startSlot d w).stream)
    (hb : t.bus.decisions = (startSlot d w).bus.decisions) :
    t.displays.recs[d].takeover = w.displays.recs[d].takeover ∧
      t.displays.recs[d].state = w.displays.recs[d].state ∧
      t.displays.recs[d].linkUp = w.displays.recs[d].linkUp ∧ OtherDisplaysStay d s t ∧
      SlotStarts d w.displays.recs[d].loopPos w.stream.links[d] s t := by
  obtain ⟨shows, clock, links, decisions, setup, page, pages, number, others⟩ := h
  obtain ⟨pos', number', setup', linkUp', takeover', state', suspended', since', others', links', -, -,
    board, house, trailer⟩ := startSlot_effect d w
  refine ⟨?_, ?_, ?_, fun j hj => ?_, ?_⟩
  · rw [hd]
    exact takeover'
  · rw [hd]
    exact state'
  · rw [hd]
    exact linkUp'
  · rw [hd]
    exact (others' j hj).trans (others j hj)
  · unfold SlotStarts
    dsimp only
    rw [hd, hs, hb, ← setup, ← number, ← clock, ← page, ← pages, ← decisions]
    refine ⟨pos', number', setup', suspended', since', fun j hj => ?_, fun kind => ?_, house, trailer⟩
    · rw [hs]
      exact (links' j hj).trans (links j hj)
    · obtain ⟨segment, dwell, composed⟩ := board kind
      exact ⟨segment, dwell, (composed.of_eq shows setup page pages).congr (by rw [hd]) (by rw [hs])⟩

/-- A loop moved on from `w` starts its next slot (R135). -/
theorem moveLoop_starts {w : State} (hs : w.shows = s.shows) (hc : w.clock = s.clock)
    (hl : OtherLinksStay d s w) (hb : w.bus.decisions = s.bus.decisions)
    (hr : ∃ takeover due since, w.displays.recs[d] = { s.displays.recs[d] with
      takeover := takeover, dwellDue := due, suspendStart := since })
    (ho : OtherDisplaysStay d s w) :
    let t := moveLoop d w
    t.displays.recs[d].takeover = w.displays.recs[d].takeover ∧
      t.displays.recs[d].state = w.displays.recs[d].state ∧ OtherDisplaysStay d s t ∧
      SlotStarts d
        (if s.displays.recs[d].setup.loop.length ≤ s.displays.recs[d].loopPos + 1 then 0
         else s.displays.recs[d].loopPos + 1) w.stream.links[d] s t := by
  obtain ⟨takeover, due, since, hr⟩ := hr
  have becomes := withDisplay_becomes d (fun r => advanceSegment (advanceLoop r)) w
  rw [hr] at becomes ⊢
  have record := becomes.record
  have ready : SlotReady d s (withDisplay d (fun r => advanceSegment (advanceLoop r)) w) :=
    { shows := hs
      clock := hc
      links := hl
      decisions := hb
      setup := by rw [record]; rfl
      page := by rw [record]; rfl
      pages := by rw [record]; rfl
      number := by rw [record]; rfl
      others := fun j hj => (becomes.others j hj).trans (ho j hj) }
  obtain ⟨takeover', state', -, others', starts⟩ := ready.starts (t := moveLoop d w) rfl rfl rfl
  rw [record] at takeover' state' starts
  exact ⟨takeover', state', others', starts⟩

/-! ### Link events -/

/-- A display whose link has come up, its transmitter taking what waits (R157). -/
def linkRaised (d : DisplayIx) (s : State) : State :=
  withLink d PanelLink.kick (withDisplay d (fun r => { r with linkUp := true }) s)

theorem exec_linkUp (d : DisplayIx) (s : State) :
    exec (.linkUp d) s = .next (settleDisplay s d
      (match s.displays.recs[d].state with
       | .starting | .linkLost => beginLoop d (linkRaised d s)
       | .off | .on | .draining => linkRaised d s)) := rfl

theorem exec_linkUp_begins (h : s.displays.recs[d].state = .starting ∨
      s.displays.recs[d].state = .linkLost) :
    exec (.linkUp d) s = .next (settleDisplay s d (beginLoop d (linkRaised d s))) := by
  rw [exec_linkUp]
  obtain h | h := h <;> rw [h]

theorem exec_linkUp_stays (h : s.displays.recs[d].state = .off ∨
      s.displays.recs[d].state = .on ∨ s.displays.recs[d].state = .draining) :
    exec (.linkUp d) s = .next (settleDisplay s d (linkRaised d s)) := by
  rw [exec_linkUp]
  obtain h | h | h := h <;> rw [h]

theorem linkRaised_effect (d : DisplayIx) (s : State) :
    DisplayBecomes d { s.displays.recs[d] with linkUp := true } s (linkRaised d s) ∧
      (linkRaised d s).stream.links = put s.stream.links d s.stream.links[d].kick ∧
      (linkRaised d s).bus = s.bus := ⟨rfl, rfl, rfl⟩

/-- A loop begun once its display's link is up (R133). -/
theorem beginLoop_starts (d : DisplayIx) (s : State) :
    let t := beginLoop d (linkRaised d s)
    t.displays.recs[d].takeover = s.displays.recs[d].takeover ∧
      t.displays.recs[d].state = .on ∧ t.displays.recs[d].linkUp = true ∧ OtherDisplaysStay d s t ∧
      SlotStarts d 0 s.stream.links[d].kick s t ∧
      t.bus.displayReports = s.bus.displayReports ++ [.linkUp d] := by
  intro t
  obtain ⟨becomes, links, bus⟩ := linkRaised_effect d s
  have becomes' := withDisplay_becomes d
    (fun r => advanceSegment { r with state := .on, loopPos := 0 }) (linkRaised d s)
  have record := becomes'.record
  rw [becomes.record] at record
  generalize hw : withDisplay d (fun r => advanceSegment { r with state := .on, loopPos := 0 })
    (linkRaised d s) = w at becomes' record
  have links' : w.stream.links = put s.stream.links d s.stream.links[d].kick := hw ▸ links
  have ready : SlotReady d s w :=
    { shows := hw ▸ rfl
      clock := hw ▸ rfl
      links := fun j hj => by rw [links', put_other _ _ _ _ hj]
      decisions := hw ▸ rfl
      setup := by rw [record]; rfl
      page := by rw [record]; rfl
      pages := by rw [record]; rfl
      number := by rw [record]; rfl
      others := fun j hj => (becomes'.others j hj).trans (becomes.others j hj) }
  have eq : t = reportDisplay (.linkUp d) (startSlot d w) := by
    rw [← hw]
    rfl
  obtain ⟨takeover', state', linkUp', others', starts⟩ := ready.starts (t := t)
    (by rw [eq]; rfl) (by rw [eq]; rfl) (by rw [eq]; rfl)
  rw [record] at takeover' state' linkUp' starts
  rw [links', put_same] at starts
  refine ⟨takeover', state', linkUp', others', starts, ?_⟩
  obtain ⟨-, -, -, -, -, -, -, -, -, -, reports, -⟩ := startSlot_effect d w
  rw [eq, reportDisplay_bus]
  change (startSlot d w).bus.displayReports ++ _ = _
  rw [reports, ← hw]
  rfl

/-- A display whose link has gone down, its transmitter empty (R157). -/
def linkDropped (d : DisplayIx) (s : State) : State :=
  withLink d PanelLink.drop (withDisplay d (fun r => { r with linkUp := false }) s)

/-- The record of a display whose link has gone down. -/
abbrev droppedRec (r : DisplayRec) : DisplayRec := { r with linkUp := false }

/-- And its link. -/
abbrev droppedLink (l : PanelLink) : PanelLink := { l with control := [], clip := none, tx := none }

theorem linkDropped_effect (d : DisplayIx) (s : State) :
    DisplayBecomes d (droppedRec s.displays.recs[d]) s (linkDropped d s) ∧
      (linkDropped d s).stream.links = put s.stream.links d (droppedLink s.stream.links[d]) ∧
      (linkDropped d s).bus = s.bus := ⟨rfl, rfl, rfl⟩

/-- A display in ON or DRAINING that loses its link: its segment is abandoned and the fault raised
(R133). -/
def linkLostRaised (d : DisplayIx) (s : State) : State :=
  raiseLinkLost d (abandonSegment d (linkDropped d s))

theorem linkLostRaised_effect (d : DisplayIx) (s : State) :
    DisplayBecomes d (droppedRec s.displays.recs[d]) s (linkLostRaised d s) ∧
      (linkLostRaised d s).stream.links = put s.stream.links d (droppedLink s.stream.links[d]) ∧
      (linkLostRaised d s).bus.displayReports = s.bus.displayReports ∧
      Raised .displayController ⟨.panelLinkLost, .display d.val, noCapture⟩ s
        (linkLostRaised d s) ∧
      (linkLostRaised d s).bus.streamReqs = s.bus.streamReqs ++
        (if s.displays.recs[d].segment = .trailer then [.abandon d s.displays.recs[d].segmentNo]
         else []) := by
  obtain ⟨becomes, links, -⟩ := linkDropped_effect d s
  obtain ⟨displays, stream, -, -, bus⟩ := abandonSegment_effect d (linkDropped d s)
  rw [becomes.record] at bus
  refine ⟨becomes.congr rfl displays, (congrArg (·.links) stream).trans links, ?_, ?_, ?_⟩
  · exact congrArg (·.displayReports) bus
  · exact congrArg (· ++ [_]) (congrArg (·.raises) bus)
  · exact congrArg (·.streamReqs) bus

/-- A display in ON that has lost its link (R133). -/
def linkLostShown (d : DisplayIx) (s : State) : State :=
  reportDisplay (.linkLost d) (raiseLinkLost d
    (withDisplay d (fun r => { r.idle with state := .linkLost }) (abandonSegment d (linkDropped d s))))

theorem linkLostShown_eq (d : DisplayIx) (s : State) :
    linkLostShown d s = reportDisplay (.linkLost d)
      (withDisplay d (fun r => { r.idle with state := .linkLost }) (linkLostRaised d s)) := rfl

theorem exec_linkDown_on (h : s.displays.recs[d].state = .on) :
    exec (.linkDown d) s = .next (settleDisplay s d (linkLostShown d s)) := by
  simp only [exec, execLinkDown, h]
  rfl

theorem exec_linkDown_draining (h : s.displays.recs[d].state = .draining) :
    exec (.linkDown d) s = .next (settleDisplay s d (turnOff d (linkLostRaised d s))) := by
  simp only [exec, execLinkDown, h]
  rfl

theorem exec_linkDown_stays (h : s.displays.recs[d].state = .off ∨
      s.displays.recs[d].state = .starting ∨ s.displays.recs[d].state = .linkLost) :
    exec (.linkDown d) s = .next (settleDisplay s d (linkDropped d s)) := by
  obtain h | h | h := h
  all_goals
    simp only [exec, execLinkDown, h]
    rfl

theorem linkLostShown_effect (d : DisplayIx) (s : State) :
    let t := linkLostShown d s
    DisplayBecomes d { (droppedRec s.displays.recs[d]).idle with state := .linkLost } s t ∧
      t.stream.links = put s.stream.links d (droppedLink s.stream.links[d]) ∧
      t.bus.displayReports = s.bus.displayReports ++ [.linkLost d] ∧
      Raised .displayController ⟨.panelLinkLost, .display d.val, noCapture⟩ s t ∧
      t.bus.streamReqs = s.bus.streamReqs ++
        (if s.displays.recs[d].segment = .trailer then [.abandon d s.displays.recs[d].segmentNo]
         else []) := by
  obtain ⟨becomes, links, reported, raised, asked⟩ := linkLostRaised_effect d s
  rw [linkLostShown_eq]
  refine ⟨?_, links, congrArg (· ++ [_]) reported, raised, asked⟩
  have becomes' := withDisplay_becomes d (fun r => { r.idle with state := .linkLost })
    (linkLostRaised d s)
  rw [becomes.record] at becomes'
  exact (becomes.then becomes').congr rfl rfl

/-- A draining display that has lost its link is OFF, and nothing is sent to its panel (R133, R134). -/
theorem linkLost_turnsOff (d : DisplayIx) (s : State) :
    let t := turnOff d (linkLostRaised d s)
    DisplayBecomes d { (droppedRec s.displays.recs[d]).idle with state := .off } s t ∧
      t.stream.links = put s.stream.links d (droppedLink s.stream.links[d]) ∧
      t.bus.displayReports = s.bus.displayReports ++ [.off d] ∧
      Raised .displayController ⟨.panelLinkLost, .display d.val, noCapture⟩ s t := by
  obtain ⟨becomes, links, reported, raised, -⟩ := linkLostRaised_effect d s
  obtain ⟨becomes', bus, sent⟩ := turnOff_effect d (linkLostRaised d s)
  rw [PanelSent, becomes.record, links] at sent
  rw [becomes.record] at becomes'
  refine ⟨?_, sent, ?_, ?_⟩
  · exact becomes.then becomes'
  · exact (congrArg (·.displayReports) bus).trans (congrArg (· ++ [_]) reported)
  · exact (congrArg (·.raises) bus).trans raised

/-! ### Segment ends -/

/-- The end of a segment at a display in ON or DRAINING, its record but for the mark of its dwell as in `s`
(R135, R134). -/
theorem endSegment_ends {w : State} (hs : w.shows = s.shows) (hc : w.clock = s.clock)
    (hl : w.stream = s.stream) (hb : w.bus.decisions = s.bus.decisions)
    (hp : w.bus.displayReports = s.bus.displayReports)
    (hr : ∃ due, DisplayBecomes d { s.displays.recs[d] with dwellDue := due } s w) :
    let t := endSegment d w
    let r := s.displays.recs[d]
    OtherDisplaysStay d s t ∧
      (r.state = .on → t.displays.recs[d].takeover = r.takeover ∧
        SlotStarts d (if r.setup.loop.length ≤ r.loopPos + 1 then 0 else r.loopPos + 1)
          s.stream.links[d] s t) ∧
      (r.state = .draining → (t.displays.recs[d].state = .off ∧ t.displays.recs[d].segment = .none ∧
        t.bus.displayReports = s.bus.displayReports ++ [.off d]) ∧ PanelSent d .stripClear s t) := by
  obtain ⟨due, becomes⟩ := hr
  have record := becomes.record
  intro t r
  cases state : r.state with
  | on =>
    have eq : t = moveLoop d w := by
      simp only [t, endSegment]
      rw [record]
      simp only [show s.displays.recs[d].state = .on from state]
    obtain ⟨takeover, -, others, starts⟩ := moveLoop_starts hs hc (fun j _ => by rw [hl]) hb
      ⟨_, due, _, record⟩ becomes.others
    rw [eq]
    rw [record] at takeover
    rw [hl] at starts
    exact ⟨others, fun _ => ⟨takeover, starts⟩, nofun⟩
  | draining =>
    have eq : t = turnOff d w := by
      simp only [t, endSegment]
      rw [record]
      simp only [show s.displays.recs[d].state = .draining from state]
    obtain ⟨becomes', bus, sent⟩ := turnOff_effect d w
    rw [eq]
    refine ⟨fun j hj => (becomes'.others j hj).trans (becomes.others j hj), nofun,
      fun _ => ⟨⟨?_, ?_, ?_⟩, ?_⟩⟩
    · exact congrArg (·.state) becomes'.record
    · exact congrArg (·.segment) becomes'.record
    · exact (congrArg (·.displayReports) bus).trans (congrArg (· ++ [_]) hp)
    · rw [PanelSent, record, hl] at sent
      exact sent
  | off | starting | linkLost =>
    have eq : t = w := by
      simp only [t, endSegment]
      rw [record]
      simp only [show s.displays.recs[d].state = _ from state]
    rw [eq]
    exact ⟨becomes.others, nofun, nofun⟩

/-- A mirror record handed at the end of a display's event leaves the slot it has started. -/
theorem SlotStarts.congr {pos : Nat} {link : PanelLink} {t u : State} (h : SlotStarts d pos link s t)
    (hd : u.displays = t.displays) (hs : u.stream = t.stream) (hb : u.bus = t.bus) :
    SlotStarts d pos link s u := by
  unfold SlotStarts at *
  dsimp only at h ⊢
  rw [hd, hs, hb]
  obtain ⟨h1, h2, h3, h4, h5, h6, board, rest⟩ := h
  refine ⟨h1, h2, h3, h4, h5, fun j hj => ?_, fun kind => ?_, rest⟩
  · rw [hs]
    exact h6 j hj
  · obtain ⟨segment, dwell, composed⟩ := board kind
    exact ⟨segment, dwell, composed.congr (by rw [hd]) (by rw [hs])⟩

/-! ### Dwell expiries, decision replies and end reports -/

/-- A slot start sends a decision request, or nothing (R135). -/
theorem startSlot_bus (d : DisplayIx) (s : State) :
    ∃ l, (startSlot d s).bus = { s.bus with decisions := l } := by
  unfold startSlot
  dsimp only
  split
  · exact ⟨s.bus.decisions, (sendPanel_displays _ _ _).2.1⟩
  · exact ⟨_, rfl⟩
  · obtain ⟨-, -, -, -, -, -, -, -, -, -, bus, -⟩ := startBoard_effect d s
    exact ⟨s.bus.decisions, bus⟩
  · obtain ⟨-, -, -, -, -, -, -, -, -, -, bus, -⟩ := startBoard_effect d s
    exact ⟨s.bus.decisions, bus⟩

/-- The end of a segment sends no end report: those come from the Stream Engine. -/
theorem endSegment_endReports (d : DisplayIx) (s : State) :
    (endSegment d s).bus.endReports = s.bus.endReports := by
  unfold endSegment
  split
  · obtain ⟨l, bus⟩ := startSlot_bus d (withDisplay d (fun r => advanceSegment (advanceLoop r)) s)
    exact congrArg (·.endReports) bus
  · obtain ⟨-, bus, -⟩ := turnOff_effect d s
    exact congrArg (·.endReports) bus
  · rfl
  · rfl
  · rfl

theorem exec_dwellExpiry (h : s.displays.recs[d].dwellDue = true) :
    exec (.dwellExpiry d) s = .next (settleDisplay s d
      (endSegment d (withDisplay d (fun r => { r with dwellDue := false }) s))) :=
  congrArg Host.Outcome.next (if_pos h)

theorem exec_decisionReply {q : DecisionReply} {rest : List DecisionReply}
    (h : s.bus.replies = q :: rest) :
    exec (.decisionReply q.display) s =
      .next (takeReply q { s with bus := { s.bus with replies := rest } }) := by
  have first : takeFirst (fun r : DecisionReply => r.display == q.display) s.bus.replies =
      some (q, rest) := by
    rw [h]
    exact if_pos (beq_self_eq_true _)
  simp only [exec, execDecisionReply, first]

/-- The reply answers the slot that its display is deciding (R137). -/
abbrev ReplyMatches (q : DecisionReply) (s : State) : Prop :=
  s.displays.recs[q.display].state = .on ∧ s.displays.recs[q.display].segment = .deciding ∧
    s.displays.recs[q.display].segmentNo = q.segmentNo

theorem takeReply_trailer {q : DecisionReply} {f : FeatureIx} (hm : ReplyMatches q s)
    (hc : q.choice = some f) :
    takeReply q s = settleDisplay s q.display (startTrailer q.display f s) := by
  refine (if_pos hm).trans ?_
  rw [hc]

theorem takeReply_board {q : DecisionReply} (hm : ReplyMatches q s) (hc : q.choice = none) :
    takeReply q s = settleDisplay s q.display
      (startBoard q.display (withDisplay q.display advanceSegment s)) := by
  refine (if_pos hm).trans ?_
  rw [hc]

theorem takeReply_stale {q : DecisionReply} {f : FeatureIx} (hm : ¬ ReplyMatches q s)
    (hc : q.choice = some f) : takeReply q s = releaseNotStarted f s := by
  refine (if_neg hm).trans ?_
  rw [hc]

theorem takeReply_void {q : DecisionReply} (hm : ¬ ReplyMatches q s) (hc : q.choice = none) :
    takeReply q s = s := by
  refine (if_neg hm).trans ?_
  rw [hc]

/-- A trailer started, suspended where its display is taken over (R137). -/
theorem startTrailer_effect (d : DisplayIx) (f : FeatureIx) (s : State) :
    let r := s.displays.recs[d]
    let t := startTrailer d f s
    OtherDisplaysStay d s t ∧ t.displays.recs[d].segment = .trailer ∧
      t.displays.recs[d].feature = f ∧ t.displays.recs[d].segmentNo = r.segmentNo ∧
      t.displays.recs[d].suspended = r.takeover ∧
      t.bus = { s.bus with streamReqs := s.bus.streamReqs ++
        [.start d f r.segmentNo r.setup.lowMark r.setup.highMark r.takeover] } := by
  intro r t
  obtain ⟨b, since, taken, suspended, -⟩ := suspendIfTaken_effect s.clock.partSeconds
    { r.idle with segment := .trailer, feature := f } rfl
  have becomes : DisplayBecomes d (suspendIfTaken s.clock.partSeconds
      { r.idle with segment := .trailer, feature := f }) s t := rfl
  rw [taken] at becomes
  refine ⟨becomes.others, ?_, ?_, ?_, ?_, rfl⟩
  · rw [becomes.record]
  · rw [becomes.record]
  · rw [becomes.record]
    rfl
  · rw [becomes.record]
    exact suspended

/-- A BOARD reply's page, in the place of the slot that it ends (R137). -/
theorem startBoard_replied (d : DisplayIx) (s : State) :
    let r := s.displays.recs[d]
    let t := startBoard d (withDisplay d advanceSegment s)
    OtherDisplaysStay d s t ∧ t.displays.recs[d].segment = .board ∧
      t.displays.recs[d].dwellLeft = r.setup.boardDwell ∧ t.displays.recs[d].loopPos = r.loopPos ∧
      t.displays.recs[d].segmentNo = (r.segmentNo + 1) % 256 ∧
      t.displays.recs[d].suspended = r.takeover ∧ OtherLinksStay d s t ∧
      PageComposed d s.stream.links[d] s t ∧ t.bus = s.bus := by
  intro r t
  have becomes := withDisplay_becomes d advanceSegment s
  have record := becomes.record
  obtain ⟨pos, number, -, -, -, -, suspended, -, others, links, bus, segment, dwell, composed⟩ :=
    startBoard_effect d (withDisplay d advanceSegment s)
  rw [record] at pos number suspended dwell
  refine ⟨fun j hj => (others j hj).trans (becomes.others j hj), segment, dwell, pos, number,
    suspended, links, ?_, bus⟩
  exact PageComposed.of_eq (w := withDisplay d advanceSegment s) rfl (by rw [record]; rfl)
    (by rw [record]; rfl) (by rw [record]; rfl) composed

theorem exec_endReport {n : Nat} {rest : List EndNotice} (h : s.bus.endReports = ⟨d, n⟩ :: rest) :
    exec .endReport s = .next
      (if s.displays.recs[d].segment = .trailer ∧ s.displays.recs[d].segmentNo = n then
        settleDisplay { s with bus := { s.bus with endReports := rest } } d
          (endSegment d { s with bus := { s.bus with endReports := rest } })
       else { s with bus := { s.bus with endReports := rest } }) := by
  simp only [exec, execEndReport, h]

/-- Settles O54, by the start of a slot, and by what each of the five events does before it. -/
theorem displaysFollowTheirLoop : Obligations.DisplaysFollowTheirLoop := by
  intro s d r slotStarts nextPos off
  refine ⟨?_, ?_, fun due => ?_, ?_, ?_⟩
  · by_cases begins : r.state = .starting ∨ r.state = .linkLost
    · obtain ⟨takeover, state, up, others, starts, reported⟩ := beginLoop_starts d s
      obtain ⟨displays, bus, stream⟩ := settleDisplay_displays s d (beginLoop d (linkRaised d s))
      refine ⟨_, exec_linkUp_begins begins, fun j hj => ?_, ?_,
        fun _ => ⟨?_, ⟨?_, starts.congr displays stream bus⟩, ?_⟩, fun stays => ?_⟩
      · rw [displays]
        exact others j hj
      · rw [displays]
        exact up
      · rw [displays]
        exact state
      · rw [displays]
        exact takeover
      · rw [bus]
        exact reported
      · obtain b | b := begins
        all_goals obtain h | h | h := stays
        all_goals exact absurd (b.symm.trans h) nofun
    · have stays : r.state = .off ∨ r.state = .on ∨ r.state = .draining := by
        cases state : r.state with
        | starting => exact absurd (.inl state) begins
        | linkLost => exact absurd (.inr state) begins
        | off => exact .inl rfl
        | on => exact .inr (.inl rfl)
        | draining => exact .inr (.inr rfl)
      obtain ⟨becomes, -, bus'⟩ := linkRaised_effect d s
      obtain ⟨displays, bus, -⟩ := settleDisplay_displays s d (linkRaised d s)
      have becomes := becomes.congr (s := s) rfl displays
      exact ⟨_, exec_linkUp_stays stays, becomes.others, congrArg (·.linkUp) becomes.record,
        fun h => absurd h begins, fun _ => ⟨becomes.record, bus.trans bus'⟩⟩
  · have dropped {u : State} (links : u.stream.links =
        put s.stream.links d (droppedLink s.stream.links[d])) :
        (settleDisplay s d u).stream.links[d] = droppedLink s.stream.links[d] := by
      rw [(settleDisplay_displays s d u).2.2, links]
      exact put_same _ _ _
    by_cases on : r.state = .on
    · obtain ⟨becomes, links, reported, raised, asked⟩ := linkLostShown_effect d s
      obtain ⟨displays, bus, -⟩ := settleDisplay_displays s d (linkLostShown d s)
      have becomes := becomes.congr (s := s) rfl displays
      refine ⟨_, exec_linkDown_on on, becomes.others, congrArg (·.linkUp) becomes.record,
        dropped links, fun _ => ⟨congrArg (·.state) becomes.record,
          congrArg (·.segment) becomes.record, ?_, ?_, ?_⟩,
        fun h => absurd (on.symm.trans h) nofun, fun h => ?_⟩
      · rw [bus]
        exact reported
      · rw [Raised, bus]
        exact raised
      · rw [bus]
        exact asked
      · obtain h | h | h := h
        all_goals exact absurd (on.symm.trans h) nofun
    by_cases draining : r.state = .draining
    · obtain ⟨becomes, links, reported, raised⟩ := linkLost_turnsOff d s
      obtain ⟨displays, bus, -⟩ := settleDisplay_displays s d (turnOff d (linkLostRaised d s))
      have becomes := becomes.congr (s := s) rfl displays
      refine ⟨_, exec_linkDown_draining draining, becomes.others,
        congrArg (·.linkUp) becomes.record, dropped links, fun h => absurd h on,
        fun _ => ⟨⟨congrArg (·.state) becomes.record, congrArg (·.segment) becomes.record, ?_⟩, ?_⟩,
        fun h => ?_⟩
      · rw [bus]
        exact reported
      · rw [Raised, bus]
        exact raised
      · obtain h | h | h := h
        all_goals exact absurd (draining.symm.trans h) nofun
    · have stays : r.state = .off ∨ r.state = .starting ∨ r.state = .linkLost := by
        cases state : r.state with
        | on => exact absurd state on
        | draining => exact absurd state draining
        | off => exact .inl rfl
        | starting => exact .inr (.inl rfl)
        | linkLost => exact .inr (.inr rfl)
      obtain ⟨becomes, links, bus'⟩ := linkDropped_effect d s
      obtain ⟨displays, bus, -⟩ := settleDisplay_displays s d (linkDropped d s)
      have becomes := becomes.congr (s := s) rfl displays
      exact ⟨_, exec_linkDown_stays stays, becomes.others, congrArg (·.linkUp) becomes.record,
        dropped links, fun h => absurd h on, fun h => absurd h draining,
        fun _ => ⟨becomes.record, bus.trans bus'⟩⟩
  · obtain ⟨others, loops, drains⟩ := endSegment_ends (s := s) (d := d)
      (w := withDisplay d (fun r => { r with dwellDue := false }) s) rfl rfl rfl rfl rfl
      ⟨false, withDisplay_becomes d (fun r => { r with dwellDue := false }) s⟩
    obtain ⟨displays, bus, stream⟩ := settleDisplay_displays s d
      (endSegment d (withDisplay d (fun r => { r with dwellDue := false }) s))
    refine ⟨_, exec_dwellExpiry due, fun j hj => ?_, fun on => ?_, fun draining => ?_⟩
    · rw [displays]
      exact others j hj
    · obtain ⟨takeover, starts⟩ := loops on
      exact ⟨by rw [displays]; exact takeover, starts.congr displays stream bus⟩
    · unfold off PanelSent
      rw [displays, bus, stream]
      exact drains draining
  · rintro q rest queued rfl
    intro matched
    refine ⟨_, exec_decisionReply queued, ?_⟩
    generalize hw : ({ s with bus := { s.bus with replies := rest } } : State) = w
    have displays' : w.displays = s.displays := hw ▸ rfl
    have record : w.displays.recs[q.display] = r := by rw [displays']
    have matches' : ReplyMatches q w ↔ matched := by rw [ReplyMatches, record]
    by_cases hm : matched
    · cases hc : q.choice with
      | some f =>
        obtain ⟨others, segment, feature, number, suspended, bus'⟩ := startTrailer_effect q.display f w
        obtain ⟨displays, bus, -⟩ := settleDisplay_displays w q.display (startTrailer q.display f w)
        rw [takeReply_trailer (matches'.mpr hm) hc, displays, bus, bus']
        rw [record] at number suspended ⊢
        refine ⟨fun j hj => ?_, by rw [← hw], ?_, nofun, fun _ _ h => absurd hm h, nofun⟩
        · rw [displays, others j hj, displays']
        · rintro f' ⟨⟩ -
          exact ⟨segment, feature, number, suspended, by rw [← hw]⟩
      | none =>
        obtain ⟨others, segment, dwell, pos, number, suspended, links, composed, bus'⟩ :=
          startBoard_replied q.display w
        obtain ⟨displays, bus, stream⟩ := settleDisplay_displays w q.display
          (startBoard q.display (withDisplay q.display advanceSegment w))
        rw [takeReply_board (matches'.mpr hm) hc]
        have composed := (composed.congr (congrArg (·.recs[q.display]) displays)
          (congrArg (·.links[q.display]) stream)).of_eq (s := s) (hw ▸ rfl) (by rw [displays'])
          (by rw [displays']) (by rw [displays'])
        have links' : w.stream.links = s.stream.links := hw ▸ rfl
        rw [links'] at composed
        rw [record] at dwell pos number suspended
        refine ⟨fun j hj => ?_, ?_, nofun, fun _ _ => ⟨?_, ?_, ?_, ?_, ?_, fun j hj => ?_, composed⟩,
          nofun, fun _ h => absurd hm h⟩
        · rw [displays, others j hj, displays']
        · rw [bus, bus', ← hw]
        · rw [displays, segment]
        · rw [displays, dwell]
        · rw [displays, pos]
        · rw [displays, number]
        · rw [displays, suspended]
        · rw [stream, links j hj, links']
    · cases hc : q.choice with
      | some f =>
        rw [takeReply_stale (matches'.not.mpr hm) hc]
        refine ⟨fun j _ => congrArg (·.recs[j]) displays', by rw [← hw]; rfl,
          fun _ _ h => absurd h hm, nofun, ?_, nofun⟩
        rintro f' ⟨⟩ -
        exact ⟨displays', by rw [← hw]; rfl⟩
      | none =>
        rw [takeReply_void (matches'.not.mpr hm) hc]
        exact ⟨fun j _ => by rw [displays'], by rw [← hw], nofun, fun _ h => absurd h hm, nofun,
          fun _ _ => displays'⟩
  · intro n rest queued
    by_cases named : r.segment = .trailer ∧ r.segmentNo = n
    · have exec := (exec_endReport queued).trans (congrArg _ (if_pos named))
      generalize hw : ({ s with bus := { s.bus with endReports := rest } } : State) = w at exec
      obtain ⟨others, loops, drains⟩ := endSegment_ends (s := s) (d := d) (w := w) (hw ▸ rfl)
        (hw ▸ rfl) (hw ▸ rfl) (hw ▸ rfl) (hw ▸ rfl) ⟨r.dwellDue, by
          rw [← hw]
          exact (put_self _ _).symm⟩
      obtain ⟨displays, bus, stream⟩ := settleDisplay_displays w d (endSegment d w)
      refine ⟨_, exec, fun j hj => ?_, ?_, fun _ _ on => ?_, fun _ _ draining => ?_, fun other => ?_⟩
      · rw [displays]
        exact others j hj
      · rw [bus, endSegment_endReports, ← hw]
      · obtain ⟨takeover, starts⟩ := loops on
        exact ⟨by rw [displays]; exact takeover, starts.congr displays stream bus⟩
      · unfold off PanelSent
        rw [displays, bus, stream]
        exact drains draining
      · obtain other | other := other
        · exact absurd named.1 other
        · exact absurd named.2 other
    · exact ⟨_, (exec_endReport queued).trans (congrArg _ (if_neg named)), fun _ _ => rfl, rfl,
        fun h h' => absurd ⟨h, h'⟩ named, fun h h' => absurd ⟨h, h'⟩ named, fun _ => rfl⟩

end

end Sys2Proof.Machine

namespace Sys2Proof.Machine

section
variable {s : State} {d : DisplayIx} {rest : List PanelSignal}

/-! ## Takeovers -/

/-- The state when the Display Controller has taken the head of the signals (R141 to R143). -/
theorem popSignal_rest {g : PanelSignal} (h : s.bus.signals = g :: rest) :
    popSignal s = { s with bus := { s.bus with signals := rest } } := by
  rw [popSignal, h]
  rfl

/-- A display marked as taken over, or no longer (R141, R142). -/
def takeoverMarked (d : DisplayIx) (on : Bool) (rest : List PanelSignal) (s : State) : State :=
  withDisplay d (fun r => { r with takeover := on }) { s with bus := { s.bus with signals := rest } }

theorem takeoverMarked_effect (d : DisplayIx) (on : Bool) (rest : List PanelSignal) (s : State) :
    DisplayBecomes d { s.displays.recs[d] with takeover := on } s (takeoverMarked d on rest s) ∧
      (takeoverMarked d on rest s).stream = s.stream ∧
      (takeoverMarked d on rest s).bus = { s.bus with signals := rest } := ⟨rfl, rfl, rfl⟩

theorem exec_takeoverBegin_on (h : s.bus.signals = .takeoverBegin d :: rest)
    (hs : s.displays.recs[d].state = .on) :
    exec .takeoverBegin s = .next (settleDisplay { s with bus := { s.bus with signals := rest } } d
      (beginTakeover d (takeoverMarked d true rest s))) := by
  simp only [exec, execTakeoverBegin, h, popSignal_rest h]
  exact congrArg (fun u => Host.Outcome.next (settleDisplay _ d u)) (if_pos hs)

theorem exec_takeoverBegin_off (h : s.bus.signals = .takeoverBegin d :: rest)
    (hs : s.displays.recs[d].state ≠ .on) :
    exec .takeoverBegin s = .next (settleDisplay { s with bus := { s.bus with signals := rest } } d
      (takeoverMarked d true rest s)) := by
  simp only [exec, execTakeoverBegin, h, popSignal_rest h]
  exact congrArg (fun u => Host.Outcome.next (settleDisplay _ d u)) (if_neg hs)

theorem exec_takeoverEnd_on (h : s.bus.signals = .takeoverEnd d :: rest)
    (hs : s.displays.recs[d].state = .on) :
    exec .takeoverEnd s = .next (settleDisplay { s with bus := { s.bus with signals := rest } } d
      (endTakeover d (takeoverMarked d false rest s))) := by
  simp only [exec, execTakeoverEnd, h, popSignal_rest h]
  exact congrArg (fun u => Host.Outcome.next (settleDisplay _ d u)) (if_pos hs)

theorem exec_takeoverEnd_off (h : s.bus.signals = .takeoverEnd d :: rest)
    (hs : s.displays.recs[d].state ≠ .on) :
    exec .takeoverEnd s = .next (settleDisplay { s with bus := { s.bus with signals := rest } } d
      (takeoverMarked d false rest s)) := by
  simp only [exec, execTakeoverEnd, h, popSignal_rest h]
  exact congrArg (fun u => Host.Outcome.next (settleDisplay _ d u)) (if_neg hs)

/-- A request to the Stream Engine for the trailer on air, where there is one (R138, R155). -/
def askTrailer (d : DisplayIx) (request : DisplayIx → Nat → StreamRequest) (r : DisplayRec)
    (s : State) : State :=
  if r.segment = .trailer then requestStream (request d r.segmentNo) s else s

theorem askTrailer_effect (d : DisplayIx) (request : DisplayIx → Nat → StreamRequest)
    (r : DisplayRec) (s : State) :
    (askTrailer d request r s).displays = s.displays ∧ (askTrailer d request r s).stream = s.stream ∧
      (askTrailer d request r s).bus = { s.bus with
        streamReqs := s.bus.streamReqs ++
          if r.segment = .trailer then [request d r.segmentNo] else [] } := by
  unfold askTrailer
  by_cases trailer : r.segment = .trailer
  · simp only [if_pos trailer]
    exact ⟨rfl, rfl, rfl⟩
  · simp only [if_neg trailer, List.append_nil]
    exact ⟨trivial, trivial, trivial⟩

/-- A record suspended from now (R141). -/
abbrev suspendedRec (now : Nat) (r : DisplayRec) : DisplayRec :=
  { r with suspended := true, suspendStart := some now, dwellDue := false }

theorem beginTakeover_onAir (h : s.displays.recs[d].segment.onAir = true) :
    beginTakeover d s = askTrailer d .hold s.displays.recs[d]
      (withDisplay d (suspendedRec s.clock.partSeconds) (sendPanel d .takeoverBegin s)) := if_pos h

theorem beginTakeover_offAir (h : s.displays.recs[d].segment.onAir = false) :
    beginTakeover d s = sendPanel d .takeoverBegin s := if_neg (by rw [h]; exact nofun)

theorem beginTakeover_effect (d : DisplayIx) (s : State) :
    let r := s.displays.recs[d]
    let t := beginTakeover d s
    DisplayBecomes d
        (if r.segment.onAir then suspendedRec s.clock.partSeconds r else r) s t ∧
      PanelSent d .takeoverBegin s t ∧ t.bus.signals = s.bus.signals ∧
      (r.segment.onAir = true → t.bus.streamReqs = s.bus.streamReqs ++
        if r.segment = .trailer then [.hold d r.segmentNo] else []) := by
  intro r t
  obtain ⟨displays, bus, -⟩ := sendPanel_displays d .takeoverBegin s
  have sent := sendPanel_sent d .takeoverBegin s
  cases onAir : r.segment.onAir with
  | true =>
    have eq : t = _ := beginTakeover_onAir onAir
    obtain ⟨displays', stream', bus'⟩ := askTrailer_effect d .hold r
      (withDisplay d (suspendedRec s.clock.partSeconds) (sendPanel d .takeoverBegin s))
    have becomes := withDisplay_becomes d (suspendedRec s.clock.partSeconds)
      (sendPanel d .takeoverBegin s)
    rw [displays] at becomes
    rw [eq]
    refine ⟨becomes.congr displays displays', ?_, ?_, fun _ => ?_⟩
    · rw [PanelSent, stream']
      exact sent
    · rw [bus']
      exact congrArg (·.signals) bus
    · rw [bus']
      exact congrArg (·.streamReqs ++ _) bus
  | false =>
    have eq : t = _ := beginTakeover_offAir onAir
    rw [eq]
    refine ⟨?_, sent, congrArg (·.signals) bus, nofun⟩
    exact (congrArg (·.recs) displays).trans (put_self _ _).symm

/-- A record resumed (R142). -/
abbrev resumedRec (r : DisplayRec) : DisplayRec := { r with suspended := false, suspendStart := none }

theorem endTakeover_resumes (hs : s.displays.recs[d].suspended = true)
    (hn : s.clock.partSeconds - s.displays.recs[d].suspendStart.getD 0 < s.displays.resumeLimit) :
    endTakeover d s = askTrailer d .resume s.displays.recs[d]
      (withDisplay d resumedRec (sendPanel d .takeoverEnd s)) := by
  obtain ⟨displays, -⟩ := sendPanel_displays d .takeoverEnd s
  have limit : (sendPanel d .takeoverEnd s).clock.partSeconds -
      s.displays.recs[d].suspendStart.getD 0 < (sendPanel d .takeoverEnd s).displays.resumeLimit := by
    rw [displays, (sendPanel_keeps d .takeoverEnd s).2.2.1]
    exact hn
  exact (if_pos hs).trans (if_pos limit)

theorem endTakeover_ends (hs : s.displays.recs[d].suspended = true)
    (hn : s.displays.resumeLimit ≤ s.clock.partSeconds - s.displays.recs[d].suspendStart.getD 0) :
    endTakeover d s = moveLoop d (abandonSegment d (sendPanel d .takeoverEnd s)) := by
  obtain ⟨displays, -⟩ := sendPanel_displays d .takeoverEnd s
  have limit : ¬ (sendPanel d .takeoverEnd s).clock.partSeconds -
      s.displays.recs[d].suspendStart.getD 0 < (sendPanel d .takeoverEnd s).displays.resumeLimit := by
    rw [displays, (sendPanel_keeps d .takeoverEnd s).2.2.1]
    exact Nat.not_lt.mpr hn
  exact (if_pos hs).trans (if_neg limit)

theorem endTakeover_unsuspended (hs : s.displays.recs[d].suspended = false) :
    endTakeover d s = sendPanel d .takeoverEnd s := if_neg (by rw [hs]; exact nofun)

theorem endTakeover_resumed (hs : s.displays.recs[d].suspended = true)
    (hn : s.clock.partSeconds - s.displays.recs[d].suspendStart.getD 0 < s.displays.resumeLimit) :
    let r := s.displays.recs[d]
    let t := endTakeover d s
    DisplayBecomes d (resumedRec r) s t ∧ PanelSent d .takeoverEnd s t ∧
      t.bus.signals = s.bus.signals ∧
      t.bus.streamReqs = s.bus.streamReqs ++
        if r.segment = .trailer then [.resume d r.segmentNo] else [] := by
  intro r t
  obtain ⟨displays, bus, -⟩ := sendPanel_displays d .takeoverEnd s
  have sent := sendPanel_sent d .takeoverEnd s
  have eq : t = _ := endTakeover_resumes hs hn
  obtain ⟨displays', stream', bus'⟩ := askTrailer_effect d .resume r
    (withDisplay d resumedRec (sendPanel d .takeoverEnd s))
  have becomes := withDisplay_becomes d resumedRec (sendPanel d .takeoverEnd s)
  rw [displays] at becomes
  rw [eq]
  refine ⟨becomes.congr displays displays', ?_, ?_, ?_⟩
  · rw [PanelSent, stream']
    exact sent
  · rw [bus']
    exact congrArg (·.signals) bus
  · rw [bus']
    exact congrArg (·.streamReqs ++ _) bus

theorem endTakeover_overran (rest : List PanelSignal) (hs : s.displays.recs[d].suspended = true)
    (hn : s.displays.resumeLimit ≤ s.clock.partSeconds - s.displays.recs[d].suspendStart.getD 0) :
    let r := s.displays.recs[d]
    let t := endTakeover d (takeoverMarked d false rest s)
    t.displays.recs[d].takeover = false ∧ OtherDisplaysStay d s t ∧
      SlotStarts d (if r.setup.loop.length ≤ r.loopPos + 1 then 0 else r.loopPos + 1)
        (handed r.linkUp [.takeoverEnd] s.stream.links[d]) s t ∧
      t.bus.signals = rest ∧
      t.bus.streamReqs = s.bus.streamReqs ++
        if r.segment = .trailer then [.abandon d r.segmentNo] else [] := by
  intro r t
  obtain ⟨becomes, stream, bus⟩ := takeoverMarked_effect d false rest s
  have ends := endTakeover_ends (d := d) (s := takeoverMarked d false rest s)
    (by rw [becomes.record]; exact hs) (by rw [becomes.record]; exact hn)
  obtain ⟨displays₁, bus₁, -⟩ := sendPanel_displays d .takeoverEnd (takeoverMarked d false rest s)
  have links₁ := sendPanel_links d .takeoverEnd (takeoverMarked d false rest s)
  have keeps₁ := sendPanel_keeps d .takeoverEnd (takeoverMarked d false rest s)
  have shows₁ : (sendPanel d .takeoverEnd (takeoverMarked d false rest s)).shows = s.shows :=
    keeps₁.2.2.2.1
  have clock₁ : (sendPanel d .takeoverEnd (takeoverMarked d false rest s)).clock = s.clock :=
    keeps₁.2.2.1
  obtain ⟨displays₂, stream₂, clock₂, shows₂, bus₂⟩ := abandonSegment_effect d
    (sendPanel d .takeoverEnd (takeoverMarked d false rest s))
  generalize abandonSegment d (sendPanel d .takeoverEnd (takeoverMarked d false rest s)) = w at *
  rw [displays₁] at displays₂ bus₂
  rw [becomes.record, bus₁, bus] at bus₂
  rw [becomes.record, stream] at links₁
  rw [← stream₂] at links₁
  have record : w.displays.recs[d] = { r with takeover := false } := by
    rw [displays₂]
    exact becomes.record
  have link : w.stream.links[d] = handed r.linkUp [.takeoverEnd] s.stream.links[d] := by
    rw [links₁]
    exact put_same _ _ _
  have linksStay : OtherLinksStay d s w := by
    intro j hj
    rw [links₁]
    exact put_other _ _ _ _ hj
  obtain ⟨takeover, -, others, starts⟩ := moveLoop_starts (shows₂.trans shows₁)
    (clock₂.trans clock₁) linksStay (by rw [bus₂])
    ⟨false, _, _, record⟩ (fun j hj => by rw [displays₂]; exact becomes.others j hj)
  obtain ⟨decisions, moved⟩ := startSlot_bus d
    (withDisplay d (fun r => advanceSegment (advanceLoop r)) w)
  have busEnd : (moveLoop d w).bus = { w.bus with decisions := decisions } := moved
  have eq : t = moveLoop d w := ends
  rw [record] at takeover
  rw [link] at starts
  rw [eq]
  refine ⟨takeover, others, starts, ?_, ?_⟩
  · rw [busEnd, bus₂]
  · rw [busEnd, bus₂]

end

section
variable {s : State} {d : DisplayIx} {rest : List PanelSignal}

theorem PanelSent.congr {f : PanelFrame} {t u v : State} (h : PanelSent d f t u)
    (hup : t.displays.recs[d].linkUp = s.displays.recs[d].linkUp) (hs : t.stream = s.stream)
    (hv : v.stream = u.stream) : PanelSent d f s v := by
  unfold PanelSent at *
  rw [hv, h, hup, hs]

/-- A takeover's begin at a display (R141). -/
theorem takeoverBegin_taken (h : s.bus.signals = .takeoverBegin d :: rest) :
    let r := s.displays.recs[d]
    ∃ t, exec .takeoverBegin s = .next t ∧ OtherDisplaysStay d s t ∧ t.bus.signals = rest ∧
      (r.state ≠ .on → t.displays.recs[d] = { r with takeover := true } ∧
        t.stream.links = s.stream.links) ∧
      (r.state = .on → PanelSent d .takeoverBegin s t ∧
        t.displays.recs[d].takeover = true ∧
        (r.segment.onAir = true →
          t.displays.recs[d].suspended = true ∧
            t.displays.recs[d].suspendStart = some s.clock.partSeconds ∧
            t.displays.recs[d].dwellLeft = r.dwellLeft ∧
            t.bus.streamReqs = s.bus.streamReqs ++
              if r.segment = .trailer then [.hold d r.segmentNo] else []) ∧
        (r.segment.onAir = false → t.displays.recs[d] = { r with takeover := true })) := by
  intro r
  obtain ⟨becomes, stream, bus⟩ := takeoverMarked_effect d true rest s
  by_cases on : r.state = .on
  · obtain ⟨begun, sent, signals, reqs⟩ := beginTakeover_effect d (takeoverMarked d true rest s)
    rw [becomes.record] at begun reqs
    obtain ⟨displays', bus', stream'⟩ := settleDisplay_displays
      { s with bus := { s.bus with signals := rest } } d
      (beginTakeover d (takeoverMarked d true rest s))
    refine ⟨_, exec_takeoverBegin_on h on, ?_, ?_, absurd on, fun _ => ⟨?_, ?_, ?_, ?_⟩⟩
    · intro j hj
      rw [displays']
      exact (begun.others j hj).trans (becomes.others j hj)
    · rw [bus', signals, bus]
    · exact sent.congr (by rw [becomes.record]) stream stream'
    · rw [displays', begun.record]
      split <;> rfl
    · intro onAir
      rw [displays', begun.record, if_pos onAir, bus', reqs onAir, bus]
      exact ⟨rfl, rfl, rfl, rfl⟩
    · intro offAir
      rw [displays', begun.record, if_neg (by rw [offAir]; exact nofun)]
  · obtain ⟨displays', bus', stream'⟩ := settleDisplay_displays
      { s with bus := { s.bus with signals := rest } } d (takeoverMarked d true rest s)
    refine ⟨_, exec_takeoverBegin_off h on, ?_, ?_, fun _ => ⟨?_, ?_⟩, fun h => absurd h on⟩
    · intro j hj
      rw [displays']
      exact becomes.others j hj
    · rw [bus', bus]
    · rw [displays']
      exact becomes.record
    · rw [stream', stream]

/-- A takeover's end at a display (R142). -/
theorem takeoverEnd_taken (h : s.bus.signals = .takeoverEnd d :: rest) :
    let r := s.displays.recs[d]
    ∃ t, exec .takeoverEnd s = .next t ∧ OtherDisplaysStay d s t ∧ t.bus.signals = rest ∧
      t.displays.recs[d].takeover = false ∧
      (r.state ≠ .on → t.displays.recs[d] = { r with takeover := false } ∧
        t.stream.links = s.stream.links) ∧
      (∀ start, r.state = .on → r.suspended = true → r.suspendStart = some start →
        s.clock.partSeconds - start < s.displays.resumeLimit →
        t.displays.recs[d] =
            { r with takeover := false, suspended := false, suspendStart := none } ∧
          PanelSent d .takeoverEnd s t ∧
          t.bus.streamReqs = s.bus.streamReqs ++
            if r.segment = .trailer then [.resume d r.segmentNo] else []) ∧
      (∀ start, r.state = .on → r.suspended = true → r.suspendStart = some start →
        s.displays.resumeLimit ≤ s.clock.partSeconds - start →
        SlotStarts d (if r.setup.loop.length ≤ r.loopPos + 1 then 0 else r.loopPos + 1)
            (handed r.linkUp [.takeoverEnd] s.stream.links[d]) s t ∧
          t.bus.streamReqs = s.bus.streamReqs ++
            if r.segment = .trailer then [.abandon d r.segmentNo] else []) := by
  intro r
  obtain ⟨becomes, stream, bus⟩ := takeoverMarked_effect d false rest s
  by_cases on : r.state = .on
  · obtain ⟨displays', bus', stream'⟩ := settleDisplay_displays
      { s with bus := { s.bus with signals := rest } } d
      (endTakeover d (takeoverMarked d false rest s))
    by_cases suspended : r.suspended = true
    · have start_of {n : Nat} (hn : r.suspendStart = some n) : r.suspendStart.getD 0 = n := by
        rw [hn]
        rfl
      rcases Nat.lt_or_ge (s.clock.partSeconds - r.suspendStart.getD 0) s.displays.resumeLimit
        with inTime | late
      · obtain ⟨resumed, sent, signals, reqs⟩ := endTakeover_resumed (d := d)
          (s := takeoverMarked d false rest s)
          (by rw [becomes.record]; exact suspended) (by rw [becomes.record]; exact inTime)
        rw [becomes.record] at resumed reqs
        refine ⟨_, exec_takeoverEnd_on h on, ?_, ?_, ?_, absurd on, ?_, ?_⟩
        · intro j hj
          rw [displays']
          exact (resumed.others j hj).trans (becomes.others j hj)
        · rw [bus', signals, bus]
        · rw [displays', resumed.record]
        · intro _ _ _ _ _
          refine ⟨?_, sent.congr (by rw [becomes.record]) stream stream', ?_⟩
          · rw [displays', resumed.record]
          · rw [bus', reqs, bus]
        · intro n _ _ hn past
          rw [start_of hn] at inTime
          exact absurd inTime (Nat.not_lt.mpr past)
      · obtain ⟨takeover, others, starts, signals, reqs⟩ := endTakeover_overran rest suspended late
        refine ⟨_, exec_takeoverEnd_on h on, ?_, ?_, ?_, absurd on, ?_, ?_⟩
        · intro j hj
          rw [displays']
          exact others j hj
        · rw [bus', signals]
        · rw [displays', takeover]
        · intro n _ _ hn inTime
          rw [start_of hn] at late
          exact absurd inTime (Nat.not_lt.mpr late)
        · intro _ _ _ _ _
          exact ⟨starts.congr displays' stream' bus', by rw [bus', reqs]⟩
    · have same := endTakeover_unsuspended (d := d) (s := takeoverMarked d false rest s)
        (by rw [becomes.record]; exact Bool.eq_false_iff.mpr suspended)
      obtain ⟨displays₁, bus₁, -⟩ := sendPanel_displays d .takeoverEnd
        (takeoverMarked d false rest s)
      rw [← same] at displays₁ bus₁
      refine ⟨_, exec_takeoverEnd_on h on, ?_, ?_, ?_, absurd on,
        fun _ _ hs => absurd hs suspended, fun _ _ hs => absurd hs suspended⟩
      · intro j hj
        rw [displays', displays₁]
        exact becomes.others j hj
      · rw [bus', bus₁, bus]
      · rw [displays', displays₁, becomes.record]
  · obtain ⟨displays', bus', stream'⟩ := settleDisplay_displays
      { s with bus := { s.bus with signals := rest } } d (takeoverMarked d false rest s)
    refine ⟨_, exec_takeoverEnd_off h on, ?_, ?_, ?_, fun _ => ⟨?_, ?_⟩,
      fun _ h => absurd h on, fun _ h => absurd h on⟩
    · intro j hj
      rw [displays']
      exact becomes.others j hj
    · rw [bus', bus]
    · rw [displays', becomes.record]
    · rw [displays']
      exact becomes.record
    · rw [stream', stream]

/-! ## Strip reports -/

theorem exec_stripReport_on {top : Option (Nat × Nat × Content)}
    (h : s.bus.signals = .strip d top :: rest) (hs : s.displays.recs[d].state = .on) :
    exec .stripReport s = .next (settleDisplay { s with bus := { s.bus with signals := rest } } d
      (sendPanel d (stripFrame top) { s with bus := { s.bus with signals := rest } })) := by
  simp only [exec, execStripReport, h, popSignal_rest h]
  exact congrArg Host.Outcome.next (if_pos hs)

theorem exec_stripReport_off {top : Option (Nat × Nat × Content)}
    (h : s.bus.signals = .strip d top :: rest) (hs : s.displays.recs[d].state ≠ .on) :
    exec .stripReport s = .next { s with bus := { s.bus with signals := rest } } := by
  simp only [exec, execStripReport, h, popSignal_rest h]
  exact congrArg Host.Outcome.next (if_neg hs)

/-- A strip report taken sends its strip while the display is ON (R143). -/
theorem stripReport_taken (top : Option (Nat × Nat × Content))
    (h : s.bus.signals = .strip d top :: rest) :
    ∃ t, exec .stripReport s = .next t ∧ t.bus.signals = rest ∧ t.displays = s.displays ∧
      (s.displays.recs[d].state = .on → PanelSent d (stripFrame top) s t) ∧
      (s.displays.recs[d].state ≠ .on → t.stream = s.stream) := by
  by_cases on : s.displays.recs[d].state = .on
  · obtain ⟨displays', bus', stream'⟩ := settleDisplay_displays
      { s with bus := { s.bus with signals := rest } } d
      (sendPanel d (stripFrame top) { s with bus := { s.bus with signals := rest } })
    obtain ⟨displays, bus, -⟩ := sendPanel_displays d (stripFrame top)
      { s with bus := { s.bus with signals := rest } }
    refine ⟨_, exec_stripReport_on h on, ?_, displays'.trans displays, fun _ => ?_, absurd on⟩
    · rw [bus', bus]
    · rw [PanelSent, stream']
      exact sendPanel_sent d (stripFrame top) { s with bus := { s.bus with signals := rest } }
  · exact ⟨_, exec_stripReport_off h on, rfl, rfl, fun h => absurd h on, fun _ => rfl⟩

end

section
variable {s : State} {d : DisplayIx} {x : ShowReport}

/-! ## Show-changed reports -/

theorem isListed_iff (sh : ShowRec) : isListed sh = true ↔ InListedSet sh := by
  simp [isListed, InListedSet, or_assoc]

/-- The show of a row has left the listed set, by this report (R14, R140). -/
abbrev RowLeft (d : DisplayIx) (x : ShowReport) (s : State) : Prop :=
  x.dropped = true ∧ x.showIx ∉ s.displays.recs[d].renewed ∨
    .listed ∈ x.fields ∧ ¬ InListedSet s.shows.recs[x.showIx]

theorem leftListed_iff : leftListed s d x = true ↔ RowLeft d x s := by
  rw [RowLeft, ← isListed_iff]
  simp [-Fin.getElem_fin, leftListed]

/-- The page on air at a display has a row of the show without an ENDED mark (R140). -/
abbrev RowOnPage (d : DisplayIx) (x : ShowReport) (s : State) : Prop :=
  s.displays.recs[d].segment = .board ∧ ⟨x.showIx, false⟩ ∈ s.displays.recs[d].pageRows

/-- The report fields a row shows (R140). -/
abbrev rowFields : List ReportField :=
  [.state, .start, .titleCode, .auditorium, .band, .seatsShown, .plusMarker]

theorem rowUpdate_left (h : RowLeft d x s) :
    rowUpdate s d x = some ({ rowShown s x.showIx with stateCode := 8 }, true) :=
  if_pos (leftListed_iff.mpr h)

theorem rowUpdate_shown (h : ¬ RowLeft d x s) (hf : ∃ f ∈ x.fields, f ∈ rowFields) :
    rowUpdate s d x = some (rowShown s x.showIx, false) := by
  refine (if_neg (mt leftListed_iff.mp h)).trans (if_pos ?_)
  simpa [-Fin.getElem_fin] using hf

theorem rowUpdate_unshown (h : ¬ RowLeft d x s) (hf : ∀ f ∈ x.fields, f ∉ rowFields) :
    rowUpdate s d x = none := by
  refine (if_neg (mt leftListed_iff.mp h)).trans (if_neg ?_)
  simpa [-Fin.getElem_fin] using hf

/-- The rows of a show marked ENDED (R140). -/
abbrev endedRows (i : ShowIx) (r : DisplayRec) : DisplayRec :=
  { r with pageRows := r.pageRows.map fun p =>
      if p.showIx = i then { p with ended := true } else p }

theorem updateRow_offPage (h : ¬ RowOnPage d x s) : updateRow x d s = s :=
  if_neg (by simpa [-Fin.getElem_fin, RowOnPage] using h)

theorem updateRow_onPage (h : RowOnPage d x s) {row : RowData} {ended : Bool}
    (hr : rowUpdate s d x = some (row, ended)) :
    updateRow x d s = settleDisplay s d (sendPanel d (.rowUpdate row)
      (if ended then withDisplay d (endedRows x.showIx) s else s)) := by
  refine (if_pos (by simpa [-Fin.getElem_fin, RowOnPage] using h)).trans ?_
  rw [hr]

theorem updateRow_unshown (h : RowOnPage d x s) (hr : rowUpdate s d x = none) :
    updateRow x d s = s := by
  refine (if_pos (by simpa [-Fin.getElem_fin, RowOnPage] using h)).trans ?_
  rw [hr]

/-- A frame sent to a panel and the display settled: only its link changes, by that frame. -/
theorem sendSettled_effect (before : State) (d : DisplayIx) (f : PanelFrame) (u : State) :
    let t := settleDisplay before d (sendPanel d f u)
    t.displays = u.displays ∧
      t.stream.links[d] = handed u.displays.recs[d].linkUp [f] u.stream.links[d] := by
  intro t
  obtain ⟨displays', -, stream'⟩ := settleDisplay_displays before d (sendPanel d f u)
  refine ⟨displays'.trans (sendPanel_displays d f u).1, ?_⟩
  rw [show t.stream = _ from stream', sendPanel_links]
  exact put_same _ _ _

theorem updateRow_left (h : RowOnPage d x s) (hg : RowLeft d x s) :
    (updateRow x d s).displays.recs[d] = endedRows x.showIx s.displays.recs[d] ∧
      (updateRow x d s).stream.links[d] = handed s.displays.recs[d].linkUp
        [.rowUpdate { rowShown s x.showIx with stateCode := 8 }] s.stream.links[d] := by
  have becomes := withDisplay_becomes d (endedRows x.showIx) s
  obtain ⟨displays, link⟩ := sendSettled_effect s d
    (.rowUpdate { rowShown s x.showIx with stateCode := 8 })
    (withDisplay d (endedRows x.showIx) s)
  rw [becomes.record] at link
  have eq := updateRow_onPage h (rowUpdate_left hg)
  rw [if_pos rfl] at eq
  rw [eq]
  exact ⟨by rw [displays]; exact becomes.record, link⟩

theorem updateRow_shown (h : RowOnPage d x s) (hg : ¬ RowLeft d x s)
    (hf : ∃ f ∈ x.fields, f ∈ rowFields) :
    (updateRow x d s).displays.recs[d] = s.displays.recs[d] ∧
      (updateRow x d s).stream.links[d] = handed s.displays.recs[d].linkUp
        [.rowUpdate (rowShown s x.showIx)] s.stream.links[d] := by
  obtain ⟨displays, link⟩ := sendSettled_effect s d (.rowUpdate (rowShown s x.showIx)) s
  have eq := updateRow_onPage h (rowUpdate_shown hg hf)
  rw [if_neg (by decide)] at eq
  rw [eq]
  exact ⟨by rw [displays], link⟩

theorem exec_showChangedReport {others : List ShowReport} (h : s.bus.showReports = x :: others) :
    exec .showChangedReport s =
      .next (updateRows x { s with bus := { s.bus with showReports := others } }) := by
  simp only [exec, execShowChangedReport, h]

theorem updateRows_bus (x : ShowReport) (s : State) : (updateRows x s).bus = s.bus := by
  simp

end

section

/-- Settles O55, by the lemmas on a takeover's begin and end, on a strip report, and on a show-changed
report at one display. -/
theorem panelsFollowTakeoversAndReports : Obligations.PanelsFollowTakeoversAndReports := by
  intro s d rest r
  refine ⟨takeoverBegin_taken, takeoverEnd_taken, ?_, ?_⟩
  · intro top h
    cases top <;> exact stripReport_taken _ h
  · intro x others h passed gone displayed onPage
    let u : State := { s with bus := { s.bus with showReports := others } }
    obtain ⟨record, link⟩ := updateRows_at x u d
    refine ⟨updateRows x u, exec_showChangedReport h, ?_, ?_⟩
    · rw [updateRows_bus]
    intro sent untouched
    have stays (same : updateRow x d u = u) : untouched := by
      rw [same] at record link
      exact ⟨record, link⟩
    refine ⟨fun off => stays (updateRow_offPage off), fun on left => ?_, fun on stay shown => ?_,
      fun on stay unshown => stays (updateRow_unshown on (rowUpdate_unshown stay unshown))⟩
    · obtain ⟨record', link'⟩ := updateRow_left (s := u) on left
      rw [record'] at record
      exact ⟨link.trans link', record⟩
    · obtain ⟨record', link'⟩ := updateRow_shown (s := u) on stay shown
      rw [record'] at record
      exact ⟨link.trans link', record⟩

end

end Sys2Proof.Machine

namespace Sys2Proof.Machine

section
variable {s : State} {f : Flight}

/-! ## CONFIGURE -/

theorem exec_configure (h : handedEntry .configure s = some f) :
    exec .configure s = .next (takeConfigure f s) :=
  congrArg Host.Outcome.next (takeEntry_handed h _)

/-- A CONFIGURE refused changes no setting (R169). -/
theorem finish_settings (code : OutcomeCode) (detail : Nat) (hf : s.win.flight = some f)
    (hv : s.win.windowValid = true) :
    let t := finish code detail s
    EndsWith code detail f t ∧ t.win.cfg = s.win.cfg ∧ t.win.settingsQ = s.win.settingsQ := by
  intro t
  have eq : t = _ := finish_inFlight code detail hf hv
  rw [eq]
  exact ⟨rfl, rfl, rfl⟩

theorem applySettings_done (c : Settings) (changed : Nat) (hf : s.win.flight = some f)
    (hv : s.win.windowValid = true) (ho : changedOwners s.win.cfg c = []) :
    let t := applySettings f c changed s
    EndsWith .done changed f t ∧ t.win.cfg = c ∧ t.win.settingsQ = s.win.settingsQ := by
  intro t
  have eq : t = finish .done changed { s with win := { s.win with cfg := c } } := by
    simp only [t, applySettings, ho]
  rw [eq]
  exact finish_settings (s := { s with win := { s.win with cfg := c } }) .done changed hf hv

theorem applySettings_awaits (f : Flight) (c : Settings) (changed : Nat)
    (ho : changedOwners s.win.cfg c ≠ []) :
    applySettings f c changed s = { s with win := { s.win with
      cfg := c
      settingsQ := s.win.settingsQ ++ (changedOwners s.win.cfg c).map fun o => (o, c)
      flight := some { f with
        taken := true, awaiting := changedOwners s.win.cfg c, changed := changed } } } := by
  unfold applySettings
  cases hk : changedOwners s.win.cfg c with
  | nil => exact absurd hk ho
  | cons o owners => rfl

/-- Settings written, each owner whose settings changed gets one settings event (R170). -/
theorem applySettings_effect (c : Settings) (changed : Nat) (hf : s.win.flight = some f)
    (hv : s.win.windowValid = true) :
    let t := applySettings f c changed s
    t.win.cfg = c ∧
      t.win.settingsQ = s.win.settingsQ ++ (changedOwners s.win.cfg c).map (fun o => (o, c)) ∧
      (changedOwners s.win.cfg c = [] → EndsWith .done changed f t) ∧
      (changedOwners s.win.cfg c ≠ [] → t.win.flight = some { f with
        taken := true, awaiting := changedOwners s.win.cfg c, changed := changed }) := by
  intro t
  by_cases ho : changedOwners s.win.cfg c = []
  · obtain ⟨ends, cfg, queue⟩ := applySettings_done c changed hf hv ho
    refine ⟨cfg, ?_, fun _ => ends, fun h => absurd ho h⟩
    rw [ho]
    exact queue.trans (List.append_nil _).symm
  · have eq : t = _ := applySettings_awaits f c changed ho
    rw [eq]
    exact ⟨rfl, rfl, fun h => absurd h ho, fun _ => rfl⟩

/-- What a CONFIGURE's page would be left with (R169). -/
abbrev configured (f : Flight) (s : State) : List Nat :=
  let body := entryBody f.bytes
  let page := fieldAt body 0 1
  mergeFields (fieldAt body 4 8) 1 (pageFields s.win.cfg page)
    (readPacked (pageWidths page) (body.drop 12))

/-- The first field of a CONFIGURE that is refused (R169). -/
abbrev configureFault (f : Flight) (s : State) : Option Nat :=
  let page := fieldAt (entryBody f.bytes) 0 1
  (outOfRange 1 (pageRanges page) (configured f s)).or (pageConstraint page (configured f s))

theorem takeConfigure_noPage (h : 3 < fieldAt (entryBody f.bytes) 0 1) :
    takeConfigure f s = finish .badField 0 s := if_pos h

theorem takeConfigure_bad {n : Nat} (h : fieldAt (entryBody f.bytes) 0 1 ≤ 3)
    (hn : configureFault f s = some n) : takeConfigure f s = finish .badField n s := by
  refine (if_neg (Nat.not_lt.mpr h)).trans ?_
  simp only [configureFault, configured] at hn
  rw [hn]

theorem takeConfigure_good (h : fieldAt (entryBody f.bytes) 0 1 ≤ 3)
    (hn : configureFault f s = none) :
    takeConfigure f s = applySettings f
      (withPage s.win.cfg (fieldAt (entryBody f.bytes) 0 1) (configured f s))
      (countChanged (pageFields s.win.cfg (fieldAt (entryBody f.bytes) 0 1)) (configured f s)) s := by
  refine (if_neg (Nat.not_lt.mpr h)).trans ?_
  simp only [configureFault, configured] at hn
  rw [hn]

end

/-- Settles O27, by the page, then the first refused field, then what the settings written call for. -/
theorem configureChecksBeforeItWrites : Obligations.ConfigureChecksBeforeItWrites := by
  intro s f ⟨handed, hv⟩ body page present left bad
  have hf := handedEntry_flight handed
  refine ⟨takeConfigure f s, exec_configure handed, ?_⟩
  rcases Nat.lt_or_ge 3 page with beyond | within
  · rw [takeConfigure_noPage beyond]
    exact ⟨fun _ => finish_settings .badField 0 hf hv, fun _ h => by omega, fun h => by omega,
      fun h => by omega, fun h => by omega⟩
  cases fault : bad with
  | some n =>
    rw [takeConfigure_bad within fault]
    refine ⟨fun h => by omega, fun m _ hm => ?_, fun _ => nofun, fun _ => nofun, fun _ => nofun⟩
    cases hm
    exact finish_settings .badField n hf hv
  | none =>
    obtain ⟨cfg, queue, done, awaits⟩ := applySettings_effect (s := s)
      (withPage s.win.cfg page left) (countChanged present left) hf hv
    have eq := takeConfigure_good (s := s) within fault
    rw [← eq] at cfg queue done awaits
    rw [cfg]
    exact ⟨fun h => by omega, fun _ _ => nofun, fun _ _ => ⟨rfl, queue⟩, fun _ _ => done,
      fun _ _ => awaits⟩

section
variable {s : State} {c : Settings} {o : Owner}

/-! ## Settings taken by their owners -/

theorem rebandShow_bus (old : ShowSettings) (i : ShowIx) (s : State) :
    (rebandShow old i s).bus.toArbiter = s.bus.toArbiter ++
      if s.shows.recs[i].state ≠ .empty ∧
          old.bandSets[s.shows.recs[i].bandSet] ≠ s.shows.cfg.bandSets[s.shows.recs[i].bandSet] then
        soldOutMsgs s.shows.cfg i s.shows.recs[i] s.shows.recs[i]
      else [] := by
  simp only [rebandShow]
  split
  · exact (commitRecount_effect i s.shows.recs[i] noCapture s).2.1
  · exact (List.append_nil _).symm

/-- What the recount of one show asks of the Notice Arbiter when its band set has changed (R34, R37). -/
def rebandMsgs (old new : ShowSettings) (i : ShowIx) (sh : ShowRec) : List ShowMsg :=
  if sh.state ≠ .empty ∧ old.bandSets[sh.bandSet] ≠ new.bandSets[sh.bandSet] then
    soldOutMsgs new i sh sh
  else []

theorem foldl_rebandShow_bus (old : ShowSettings) {l : List ShowIx} (hl : l.Nodup)
    {t : State} (ht : t = l.foldl (fun s i => rebandShow old i s) s) :
    t.bus.toArbiter = s.bus.toArbiter ++ l.flatMap fun i => rebandMsgs old s.shows.cfg i s.shows.recs[i] := by
  induction l generalizing s with
  | nil => simp [ht]
  | cons i l ih =>
    obtain ⟨hi, hl⟩ := List.nodup_cons.mp hl
    have first : (rebandShow old i s).bus.toArbiter =
        s.bus.toArbiter ++ rebandMsgs old s.shows.cfg i s.shows.recs[i] := rebandShow_bus old i s
    have later : l.flatMap (fun j => rebandMsgs old (rebandShow old i s).shows.cfg j
        (rebandShow old i s).shows.recs[j]) =
        l.flatMap fun j => rebandMsgs old s.shows.cfg j s.shows.recs[j] := by
      rw [rebandShow_shows]
      refine List.flatMap_congr fun j hj => ?_
      rw [put_other _ _ _ _ (ne_of_mem_of_not_mem hj hi)]
    rw [ih (s := rebandShow old i s) hl ht, first, later, List.flatMap_cons, List.append_assoc]

theorem adoptShows_bus (c : ShowSettings) (s : State) :
    (adoptShows c s).bus.toArbiter = s.bus.toArbiter ++ (List.finRange 64).flatMap fun i =>
      rebandMsgs s.shows.cfg c i s.shows.recs[i] :=
  foldl_rebandShow_bus (t := adoptShows c s) (s := { s with shows := { s.shows with cfg := c } })
    s.shows.cfg (List.nodup_finRange 64) rfl

theorem commitRecount_signals (i : ShowIx) (before : ShowRec) (capture : List Byte) (s : State) :
    (commitShow i before (recompute i before capture s)).bus.signals = s.bus.signals := by
  have committed := congrArg Bus.signals
    (commitShow_bus i before (recompute i before capture s))
  have recounted := congrArg Bus.signals (recompute_bus i before capture s)
  exact committed.trans recounted

theorem rebandShow_signals (old : ShowSettings) (i : ShowIx) (s : State) :
    (rebandShow old i s).bus.signals = s.bus.signals := by
  simp only [rebandShow]
  split
  · exact commitRecount_signals i _ noCapture s
  · rfl

theorem foldl_rebandShow_signals (old : ShowSettings) (l : List ShowIx) {t : State}
    (ht : t = l.foldl (fun s i => rebandShow old i s) s) : t.bus.signals = s.bus.signals := by
  induction l generalizing s with
  | nil => simp [ht]
  | cons i l ih => exact (ih (s := rebandShow old i s) ht).trans (rebandShow_signals old i s)

theorem adoptShows_signals (c : ShowSettings) (s : State) :
    (adoptShows c s).bus.signals = s.bus.signals :=
  foldl_rebandShow_signals (t := adoptShows c s)
    (s := { s with shows := { s.shows with cfg := c } }) s.shows.cfg (List.finRange 64) rfl

theorem placePause_raises (time : Nat) (d : DeskIx) (s : State) :
    SameButRaises s (placePause time d s) := by
  simp only [placePause]
  repeat' split
  all_goals rfl

theorem pauseAll_raises (time : Nat) (s : State) : SameButRaises s (pauseAll time s) := by
  unfold pauseAll
  generalize List.finRange 8 = l
  induction l generalizing s with
  | nil => exact .refl s
  | cons d l ih => exact (placePause_raises time d s).trans (ih (placePause time d s))

theorem SameButRaises.of_bus {t u : State} (h : SameButRaises t u) (hs : t.bus = s.bus)
    {v : State} (hv : v.bus = u.bus) : SameButRaises s v := by
  unfold SameButRaises at *
  rw [hv, ← hs, h]

theorem setPaused_raises (s : State) : SameButRaises s (setPaused s) := by
  refine (pauseAll_raises s.desks.cfg.pauseTime s).of_bus rfl ?_
  simp only [setPaused]

theorem clearPaused_raises (s : State) : SameButRaises s (clearPaused s) := by
  refine (pauseAll_raises 0 s).of_bus rfl ?_
  simp only [clearPaused]

/-- The desk line at the end of a pause that new settings call for, and at the beginning of one
(R68). -/
abbrev EndsPause (c : DeskSettings) (s : State) : Prop :=
  s.desks.paused = true ∧ (c.pauseOn = 0 ∨ s.desks.intake.length ≤ c.pauseOff)

abbrev BeginsPause (c : DeskSettings) (s : State) : Prop :=
  s.desks.paused = false ∧ c.pauseOn ≠ 0 ∧ c.pauseOn ≤ s.desks.intake.length

/-- The desk line with new settings (R68). -/
abbrev desksSet (c : DeskSettings) (s : State) : State :=
  { s with desks := { s.desks with cfg := c } }

theorem adoptDesks_ends {c : DeskSettings} (h : EndsPause c s) :
    adoptDesks c s = clearPaused (desksSet c s) :=
  (if_pos h.1).trans (if_pos h.2)

theorem adoptDesks_begins {c : DeskSettings} (h : BeginsPause c s) :
    adoptDesks c s = setPaused (desksSet c s) :=
  (if_neg (by rw [h.1]; exact nofun)).trans (if_pos h.2)

theorem adoptDesks_stays {c : DeskSettings} (he : ¬ EndsPause c s) (hb : ¬ BeginsPause c s) :
    adoptDesks c s = desksSet c s := by
  cases paused : s.desks.paused with
  | true => exact (if_pos paused).trans (if_neg fun h => he ⟨paused, h⟩)
  | false => exact (if_neg (by rw [paused]; exact nofun)).trans (if_neg fun h => hb ⟨paused, h⟩)

theorem adoptDesks_raises (c : DeskSettings) (s : State) : SameButRaises s (adoptDesks c s) := by
  by_cases he : EndsPause c s
  · rw [adoptDesks_ends he]
    exact (clearPaused_raises (desksSet c s)).of_bus rfl rfl
  · by_cases hb : BeginsPause c s
    · rw [adoptDesks_begins hb]
      exact (setPaused_raises (desksSet c s)).of_bus rfl rfl
    · rw [adoptDesks_stays he hb]
      rfl

theorem adopt_shows_other (h : o ≠ .showTable) (c : Settings) (s : State) :
    (adopt o c s).shows = s.shows ∧ (adopt o c s).bus.toArbiter = s.bus.toArbiter := by
  cases o with
  | showTable => exact absurd rfl h
  | noticeArbiter =>
    refine ⟨by simp [adopt], ?_⟩
    obtain ⟨-, -, -, -, bus⟩ := noticeEvent_effect none
      (fun s => { s with arb := { s.arb with cfg := c.notices } }) s
    simp only [adopt]
    rw [bus]
  | deskLine =>
    refine ⟨by simp [adopt], ?_⟩
    have same := adoptDesks_raises c.desks s
    unfold SameButRaises at same
    simp only [adopt]
    rw [← same]
  | _ => exact ⟨rfl, rfl⟩

theorem adopt_arb_other (h : o ≠ .noticeArbiter) (c : Settings) (s : State) :
    (adopt o c s).arb = s.arb ∧ (adopt o c s).bus.signals = s.bus.signals := by
  cases o with
  | noticeArbiter => exact absurd rfl h
  | showTable =>
    refine ⟨by simp [adopt], ?_⟩
    simp only [adopt]
    exact adoptShows_signals c.shows s
  | deskLine =>
    refine ⟨by simp [adopt], ?_⟩
    have same := adoptDesks_raises c.desks s
    unfold SameButRaises at same
    simp only [adopt]
    rw [← same]
  | _ => exact ⟨rfl, rfl⟩

theorem adopt_desks_other (h : o ≠ .deskLine) (c : Settings) (s : State) :
    (adopt o c s).desks = s.desks := by
  cases o with
  | deskLine => exact absurd rfl h
  | _ => simp [adopt]

/-- The parts that take their settings and do nothing else (R147, R170, R173). -/
theorem adopt_settings (o : Owner) (c : Settings) (s : State) :
    (adopt o c s).air.cfg = (if o = .airtimeScheduler then c.airtime else s.air.cfg) ∧
      (adopt o c s).displays.resumeLimit =
        (if o = .displayController then c.resumeLimit else s.displays.resumeLimit) ∧
      (adopt o c s).stream.cfg = (if o = .streamEngine then c.stream else s.stream.cfg) ∧
      (adopt o c s).stream.lfsr =
        (if o = .streamEngine ∧ c.lfsrSeed ≠ s.stream.cfg.lfsrSeed then
          if c.lfsrSeed = 0 then 0xACE1#16 else BitVec.ofNat 16 c.lfsrSeed
         else s.stream.lfsr) ∧
      (adopt o c s).faults.cfg = (if o = .faultUnit then c.causes else s.faults.cfg) := by
  cases o with
  | streamEngine =>
    refine ⟨rfl, rfl, rfl, ?_, rfl⟩
    by_cases same : c.lfsrSeed = s.stream.cfg.lfsrSeed
    · simp [adopt, adoptStream, Settings.stream, same]
    · by_cases zero : c.lfsrSeed = 0
      · simp [adopt, adoptStream, Settings.stream, zero, defaultSeed]
      · simp [adopt, adoptStream, Settings.stream, same, zero]
  | _ => simp [adopt]

theorem adoptDesks_cfg (c : DeskSettings) (s : State) : (adoptDesks c s).desks.cfg = c := by
  by_cases he : EndsPause c s
  · rw [adoptDesks_ends he]
    simp [clearPaused]
  · by_cases hb : BeginsPause c s
    · rw [adoptDesks_begins hb]
      simp [setPaused]
    · rw [adoptDesks_stays he hb]

/-- The paused flag, its timer and the ports at the desk line's settings event (R68). -/
theorem adoptDesks_pause (c : DeskSettings) (s : State) :
    let ends : Bool := s.desks.paused && (c.pauseOn == 0 || s.desks.intake.length ≤ c.pauseOff)
    let begins : Bool :=
      !s.desks.paused && (c.pauseOn != 0 && c.pauseOn ≤ s.desks.intake.length)
    let t := adoptDesks c s
    t.desks.paused = (if ends = true then false else if begins = true then true else s.desks.paused) ∧
      t.desks.pauseTimer =
        (if ends = true then none
         else if begins = true then some (10 * max 1 (c.pauseTime / 2))
         else s.desks.pauseTimer) ∧
      (∀ d : DeskIx, t.desks.ports[d] =
        if ends = true then pausePlaced 0 s.desks.ports[d]
        else if begins = true then pausePlaced c.pauseTime s.desks.ports[d]
        else s.desks.ports[d]) := by
  intro ends begins t
  have ends_iff : ends = true ↔ EndsPause c s := by simp [ends, EndsPause]
  have begins_iff : begins = true ↔ BeginsPause c s := by simp [begins, BeginsPause]
  simp only [ends_iff, begins_iff]
  by_cases he : EndsPause c s
  · obtain ⟨-, -, paused, timer, ports⟩ := clearPaused_desks (desksSet c s)
    have eq : t = _ := adoptDesks_ends he
    simp only [if_pos he]
    rw [eq]
    exact ⟨paused, timer, ports⟩
  simp only [if_neg he]
  by_cases hb : BeginsPause c s
  · obtain ⟨-, paused, timer, ports⟩ := setPaused_desks (desksSet c s)
    have eq : t = _ := adoptDesks_begins hb
    simp only [if_pos hb]
    rw [eq]
    exact ⟨paused, timer, ports⟩
  · have eq : t = _ := adoptDesks_stays he hb
    simp only [if_neg hb]
    rw [eq]
    exact ⟨rfl, rfl, fun _ => rfl⟩

theorem adopt_showTable (c : Settings) (s : State) :
    adopt .showTable c s = adoptShows c.shows s := rfl

theorem adopt_deskLine (c : Settings) (s : State) :
    adopt .deskLine c s = adoptDesks c.desks s := rfl

/-- The Notice Arbiter with new settings (R170). -/
def noticesSet (c : Settings) (s : State) : State :=
  { s with arb := { s.arb with cfg := c.notices } }

theorem adopt_notices (c : Settings) (s : State) :
    adopt .noticeArbiter c s = noticeEvent none (noticesSet c) s := rfl

/-- The Notice Arbiter at its settings event: every top is compared with the takeover class (R108). -/
theorem adopt_noticeArbiter (c : Settings) (s : State) :
    let t := adopt .noticeArbiter c s
    t.arb.cfg = c.notices ∧ t.arb.slots = s.arb.slots ∧
      (∀ d : DisplayIx, t.arb.recs[d] =
        { s.arb.recs[d] with takeover := overtaken c.notices.takeoverClass s d }) ∧
      t.bus.signals = s.bus.signals ++ (List.finRange 16).flatMap fun d =>
        takeoverMsgs s.arb.recs[d].takeover (overtaken c.notices.takeoverClass s d) d := by
  intro t
  obtain ⟨slots, cfg, -, records, bus⟩ := noticeEvent_effect none (noticesSet c) s
  have eq : t = _ := adopt_notices c s
  rw [eq, bus]
  exact ⟨cfg, slots, records, rfl⟩

/-- The CONFIGURE that waits for this owner alone ends (R170). -/
theorem settleConfigure_ends {f : Flight} (hf : s.win.flight = some f) (hw : f.awaiting = [o])
    (hv : s.win.windowValid = true) (hq : ∀ x ∈ s.win.settingsQ, x.1 ≠ o) :
    EndsWith .done f.changed f (settleConfigure o s) := by
  have awaited : f.awaiting.contains o = true ∧ ¬ s.win.settingsQ.any (·.1 == o) = true := by
    simp only [hw, List.any_eq_true, beq_iff_eq]
    exact ⟨by simp, fun ⟨x, hx, ho⟩ => hq x hx ho⟩
  have none_left : f.awaiting.filter (· != o) = [] := by simp [hw]
  unfold settleConfigure
  rw [hf]
  dsimp only
  rw [if_pos awaited, if_pos none_left]
  obtain ⟨ends, -⟩ := finish_settings
    (s := { s with win := { s.win with flight := some { f with awaiting := f.awaiting.filter (· != o) } } })
    .done f.changed rfl hv
  exact ends

theorem settleConfigure_settings (o : Owner) (s : State) :
    (settleConfigure o s).win.settingsQ = s.win.settingsQ ∧
      (settleConfigure o s).win.cfg = s.win.cfg := by
  unfold settleConfigure
  cases s.win.flight with
  | none => exact ⟨rfl, rfl⟩
  | some f =>
    dsimp only
    repeat' split
    all_goals simp [finish, finishWith]
    all_goals split <;> simp [placeWrite_only]

theorem exec_settingsEvent {rest : List (Owner × Settings)} (h : s.win.settingsQ = (o, c) :: rest) :
    exec (.settingsEvent o) s = .next (settleConfigure o
      (adopt o c { s with win := { s.win with settingsQ := rest } })) := by
  have first : takeFirst (fun x : Owner × Settings => x.1 == o) s.win.settingsQ =
      some ((o, c), rest) := by
    rw [h, takeFirst]
    exact if_pos (beq_self_eq_true o)
  simp only [exec, execSettingsEvent, first]

end

/-- Settles O28, clause by clause: the clause of an owner by the lemma on that owner's settings event, at
every other owner by the lemma that its part stays. -/
theorem ownersTakeTheirSettings : Obligations.OwnersTakeTheirSettings := by
  intro o c rest s h
  let u : State := { s with win := { s.win with settingsQ := rest } }
  refine ⟨_, exec_settingsEvent h, ?_⟩
  obtain ⟨queue, cfg⟩ := settleConfigure_settings o (adopt o c u)
  obtain ⟨flight, valid, cfg', queue'⟩ := adopt_win o c u
  have kept := settleConfigure_keeps o (adopt o c u)
  have ends := fun f => settleConfigure_ends (o := o) (s := adopt o c u) (f := f)
  rw [flight, valid, queue'] at ends
  obtain ⟨-, -, shows, desks, arb, air, displays, stream, faults, -, bus, -⟩ := kept
  rw [shows, desks, arb, air, displays, stream, faults, bus]
  obtain ⟨airtime, limit, streamCfg, lfsr, causes⟩ := adopt_settings o c u
  refine ⟨queue.trans queue', cfg.trans cfg', ?_, ?_, airtime, limit, streamCfg, lfsr, ?_, ?_, ?_,
    fun ho => adopt_arb_other ho c u, ?_, causes, fun f hf hw hv hq => ends f hf hw hv hq⟩
  · by_cases ho : o = .showTable
    · subst ho
      rw [adopt_showTable]
      exact (adoptShows_shows c.shows u).2.2.2.1
    · rw [if_neg ho, (adopt_shows_other ho c u).1]
  · by_cases ho : o = .noticeArbiter
    · subst ho
      exact (adopt_noticeArbiter c u).1
    · rw [if_neg ho, (adopt_arb_other ho c u).1]
  · by_cases ho : o = .deskLine
    · subst ho
      exact adoptDesks_cfg c.desks u
    · rw [if_neg ho, adopt_desks_other ho]
  · by_cases ho : o = .showTable
    · subst ho
      obtain ⟨records, -⟩ := adoptShows_shows c.shows u
      have messages := adoptShows_bus c.shows u
      have again_iff (i : ShowIx) : (decide True &&
          s.shows.recs[i].state != .empty &&
          s.shows.cfg.bandSets[s.shows.recs[i].bandSet] !=
            c.shows.bandSets[s.shows.recs[i].bandSet]) = true ↔
          s.shows.recs[i].state ≠ .empty ∧ s.shows.cfg.bandSets[s.shows.recs[i].bandSet] ≠
            c.shows.bandSets[s.shows.recs[i].bandSet] := by
        simp [-Fin.getElem_fin]
      rw [adopt_showTable]
      simp only [again_iff]
      exact ⟨records, messages⟩
    · obtain ⟨shows, messages⟩ := adopt_shows_other ho c u
      rw [shows, messages]
      simp [ho, u, -Fin.getElem_fin]
  · by_cases ho : o = .deskLine
    · subst ho
      rw [adopt_deskLine]
      simpa only [decide_true, Bool.true_and] using adoptDesks_pause c.desks u
    · rw [adopt_desks_other ho]
      simp [ho, u]
  · intro ho
    subst ho
    obtain ⟨-, slots, records, signals⟩ := adopt_noticeArbiter c u
    exact ⟨slots, records, signals⟩

end Sys2Proof.Machine

namespace Sys2Proof.Machine

section
variable {s : State} {d : DisplayIx}

/-! ## What the Stream Engine's operations leave -/

/-- Between `s` and `t` the stream record of display `d` has become `r`, and no other has changed. -/
def StreamBecomes (d : DisplayIx) (r : StreamRec) (s t : State) : Prop :=
  t.stream.recs = put s.stream.recs d r

theorem StreamBecomes.others {r : StreamRec} {t : State} (h : StreamBecomes d r s t) :
    OtherStreamsStay d s t := by
  intro j hj
  rw [h]
  exact put_other _ _ _ _ hj

theorem StreamBecomes.record {r : StreamRec} {t : State} (h : StreamBecomes d r s t) :
    t.stream.recs[d] = r := by
  rw [h]
  exact put_same _ _ _

theorem StreamBecomes.congr {r : StreamRec} {t u v : State} (h : StreamBecomes d r t u)
    (hs : t.stream.recs = s.stream.recs) (hu : v.stream.recs = u.stream.recs) :
    StreamBecomes d r s v := by
  unfold StreamBecomes at *
  rw [hu, h, hs]

theorem StreamBecomes.then {r r' : StreamRec} {t u : State} (h : StreamBecomes d r s t)
    (h' : StreamBecomes d r' t u) : StreamBecomes d r' s u := by
  unfold StreamBecomes at *
  rw [h', h, put_put_same]

theorem withStream_becomes (d : DisplayIx) (g : StreamRec → StreamRec) (s : State) :
    StreamBecomes d (g s.stream.recs[d]) s (withStream d g s) := rfl

/-- The reports of a segment's end, behind those sent before (R125, R138). -/
def segmentReports (d : DisplayIx) (n : Nat) (f : FeatureIx) (c : ReleaseCause) (b : Bus) : Bus :=
  { b with
    endReports := b.endReports ++ [⟨d, n⟩]
    streamReleases := b.streamReleases ++ [⟨f, c⟩] }

/-- A segment ended at the Stream Engine (R152 to R156). -/
theorem endStream_effect (d : DisplayIx) (c : ReleaseCause) (s : State) :
    let r := s.stream.recs[d]
    StreamBecomes d r.ended s (endStream d c s) ∧
      (endStream d c s).bus = segmentReports d r.segmentNo r.feature c s.bus ∧
      (endStream d c s).stream.links = s.stream.links := ⟨rfl, rfl, rfl⟩

theorem endIfMarked_ends {r : StreamRec} (hr : s.stream.recs[d] = r) (running : r.phase ≠ .idle)
    (marked : r.endMarked = true) (free : r.held = false) (atRest : r.issued = false) :
    endIfMarked d s = endStream d .abandoned s := by
  refine if_pos ?_
  rw [hr]
  simp [StreamRec.busy, running, marked, free, atRest]

theorem endIfMarked_goesOn {r : StreamRec} (hr : s.stream.recs[d] = r)
    (goesOn : r.endMarked = false ∨ r.held = true ∨ r.issued = true) : endIfMarked d s = s := by
  refine if_neg ?_
  rw [hr]
  rcases goesOn with h | h | h <;> simp [h]

/-- A segment marked to end at its next burst boundary (R155). -/
def StreamRec.marked (r : StreamRec) : StreamRec := { r with endMarked := true, requesting := false }

/-- A running segment marked ends at once where no burst is issued and it is not held (R155). -/
theorem markEnd_atOnce (running : s.stream.recs[d].phase ≠ .idle)
    (free : s.stream.recs[d].held = false) (atRest : s.stream.recs[d].issued = false) :
    let r := s.stream.recs[d]
    StreamBecomes d r.ended s (markEnd d s) ∧
      (markEnd d s).bus = segmentReports d r.segmentNo r.feature .abandoned s.bus := by
  intro r
  have becomes := withStream_becomes d StreamRec.marked s
  have ends : markEnd d s = endStream d .abandoned (withStream d StreamRec.marked s) :=
    endIfMarked_ends becomes.record running rfl free atRest
  obtain ⟨ended, bus, -⟩ := endStream_effect d .abandoned (withStream d StreamRec.marked s)
  rw [becomes.record] at ended bus
  rw [ends]
  exact ⟨becomes.then ended, bus⟩

theorem markEnd_waits (waits : s.stream.recs[d].held = true ∨ s.stream.recs[d].issued = true) :
    markEnd d s = withStream d StreamRec.marked s :=
  endIfMarked_goesOn (withStream_becomes d StreamRec.marked s).record (.inr waits)

theorem markEnd_waits_effect
    (waits : s.stream.recs[d].held = true ∨ s.stream.recs[d].issued = true) :
    StreamBecomes d s.stream.recs[d].marked s (markEnd d s) ∧ (markEnd d s).bus = s.bus := by
  rw [markEnd_waits waits]
  exact ⟨rfl, rfl⟩

theorem names_iff (s : State) (d : DisplayIx) (n : Nat) :
    names s d n = true ↔ s.stream.recs[d].phase ≠ .idle ∧ s.stream.recs[d].segmentNo = n := by
  simp [-Fin.getElem_fin, names, StreamRec.busy]

/-! ## Requests of the Display Controller -/

variable {rest : List StreamRequest}

/-- The state when the Stream Engine has taken the head of the requests (R148, R155, R156). -/
abbrev requestTaken (rest : List StreamRequest) (s : State) : State :=
  { s with bus := { s.bus with streamReqs := rest } }

theorem popRequest_rest {q : StreamRequest} (h : s.bus.streamReqs = q :: rest) :
    popRequest s = requestTaken rest s := by
  rw [popRequest, h]
  rfl

theorem exec_startRequest {f : FeatureIx} {n low high : Nat} {held : Bool}
    (h : s.bus.streamReqs = .start d f n low high held :: rest) :
    exec .startRequest s = .next (settleDisplay (requestTaken rest s) d
      (if s.stream.recs[d].busy then
        releaseStream f .abandoned (reportEnd d n (requestTaken rest s))
      else startStream d f n low high held (requestTaken rest s))) := by
  simp only [exec, execStartRequest, h, popRequest_rest h]

theorem exec_holdRequest {n : Nat} (h : s.bus.streamReqs = .hold d n :: rest) :
    exec .holdRequest s = .next
      (if names s d n then
        withStream d (fun r => { r with
          held := true, inUnderrun := false, underrunStart := none, underrunDue := false })
          (requestTaken rest s)
      else requestTaken rest s) := by
  simp only [exec, execHoldRequest, h, popRequest_rest h]
  rfl

/-- A record resumed: pacing goes on from nothing (R155). -/
def StreamRec.resumed (r : StreamRec) : StreamRec :=
  { r with held := false, allowance := 0, carry := 0 }

theorem exec_resumeRequest {n : Nat} (h : s.bus.streamReqs = .resume d n :: rest) :
    exec .resumeRequest s = .next
      (if names s d n then
        settleDisplay (requestTaken rest s) d
          (endIfMarked d (withStream d StreamRec.resumed (requestTaken rest s)))
      else requestTaken rest s) := by
  simp only [exec, execResumeRequest, h, popRequest_rest h]
  rfl

theorem exec_endRequest {n : Nat} (h : s.bus.streamReqs = .finish d n :: rest) :
    exec .endRequest s = .next
      (if names s d n then
        settleDisplay (requestTaken rest s) d (markEnd d (requestTaken rest s))
      else requestTaken rest s) := by
  simp only [exec, execEndRequest, h, popRequest_rest h]
  rfl

theorem exec_abandonRequest {n : Nat} (h : s.bus.streamReqs = .abandon d n :: rest) :
    exec .abandonRequest s = .next
      (if names s d n then
        settleDisplay (requestTaken rest s) d (releaseStream s.stream.recs[d].feature .abandoned
          (withStream d StreamRec.ended (requestTaken rest s)))
      else requestTaken rest s) := by
  simp only [exec, execAbandonRequest, h, popRequest_rest h]
  rfl

/-! ## Starts -/

/-- The record of a segment at its start (R148). -/
def startedRec (f : FeatureIx) (n low high : Nat) (held drain : Bool) (r : StreamRec) : StreamRec :=
  { r.ended with
    phase := .filling, segmentNo := n, feature := f, lowMark := 1024 * low,
    highMark := 1024 * high, chunkIx := 0, chunkOff := 0, bytesFetched := 0, bytesSent := 0,
    allowance := 0, carry := 0, held := held, endMarked := drain }

theorem startStream_eq (d : DisplayIx) (f : FeatureIx) (n low high : Nat) (held : Bool) (s : State) :
    startStream d f n low high held s = endIfMarked d (retestAt d
      (withStream d (startedRec f n low high held (s.air.features[f].state == .draining)) s)) := rfl

/-- requesting of a display tested again (R149). -/
theorem retestAt_becomes {r : StreamRec} (hr : s.stream.recs[d] = r) :
    StreamBecomes d (r.retest s.air.features[r.feature].totalBytes) s (retestAt d s) ∧
      (retestAt d s).bus = s.bus := by
  subst hr
  exact ⟨rfl, rfl⟩

theorem started_becomes (f : FeatureIx) (n low high : Nat) (held drain : Bool) (s : State) :
    let r := startedRec f n low high held drain s.stream.recs[d]
    StreamBecomes d (r.retest s.air.features[f].totalBytes) s
        (retestAt d (withStream d (startedRec f n low high held drain) s)) ∧
      (retestAt d (withStream d (startedRec f n low high held drain) s)).bus = s.bus := by
  intro r
  have becomes := withStream_becomes d (startedRec f n low high held drain) s
  obtain ⟨retested, bus⟩ := retestAt_becomes becomes.record
  exact ⟨becomes.then retested, bus⟩

theorem startStream_fills {f : FeatureIx} {low high : Nat} (n : Nat) (held : Bool)
    (live : s.air.features[f].state ≠ .draining) (hl : 0 < low) (hh : 0 < high)
    (ht : 0 < s.air.features[f].totalBytes) :
    let t := startStream d f n low high held s
    StreamBecomes d
        { startedRec f n low high held false s.stream.recs[d] with requesting := true } s t ∧
      t.bus = s.bus := by
  intro t
  have drain : (s.air.features[f].state == .draining) = false := beq_eq_false_iff_ne.mpr live
  obtain ⟨becomes, bus⟩ := started_becomes (d := d) f n low high held false s
  have requesting : (startedRec f n low high held false s.stream.recs[d]).retest
      s.air.features[f].totalBytes =
        { startedRec f n low high held false s.stream.recs[d] with requesting := true } := by
    refine (if_neg (by simp [startedRec])).trans ((if_neg ?_).trans (if_pos ?_))
    · simp only [startedRec, StreamRec.ended, List.length_nil]
      omega
    · simp only [startedRec, StreamRec.ended, List.length_nil]
      omega
  have eq : t = _ := startStream_eq d f n low high held s
  rw [drain] at eq
  rw [endIfMarked_goesOn becomes.record (.inl (by rw [requesting]; rfl))] at eq
  rw [eq]
  rw [requesting] at becomes
  exact ⟨becomes, bus⟩

/-- A segment of a DRAINING feature at its start: marked, and asking for nothing (R155). -/
theorem startStream_drained {f : FeatureIx} (n low high : Nat) (held : Bool)
    (drain : s.air.features[f].state = .draining) :
    let u := retestAt d (withStream d (startedRec f n low high held true) s)
    startStream d f n low high held s = endIfMarked d u ∧
      StreamBecomes d
        { startedRec f n low high held true s.stream.recs[d] with requesting := false } s u ∧
      u.bus = s.bus := by
  intro u
  obtain ⟨becomes, bus⟩ := started_becomes (d := d) f n low high held true s
  have eq := startStream_eq d f n low high held s
  rw [drain] at eq
  exact ⟨eq, becomes, bus⟩

theorem startStream_ends {f : FeatureIx} (n low high : Nat)
    (drain : s.air.features[f].state = .draining) :
    let t := startStream d f n low high false s
    StreamBecomes d
        { startedRec f n low high false true s.stream.recs[d] with requesting := false }.ended s t ∧
      t.bus = segmentReports d n f .abandoned s.bus := by
  intro t
  obtain ⟨start, becomes, bus⟩ := startStream_drained (d := d) n low high false drain
  have ends := endIfMarked_ends becomes.record nofun rfl rfl rfl
  obtain ⟨ended, reports, -⟩ := endStream_effect d .abandoned
    (retestAt d (withStream d (startedRec f n low high false true) s))
  rw [becomes.record, bus] at reports
  rw [becomes.record] at ended
  have eq : t = _ := start.trans ends
  rw [eq]
  exact ⟨becomes.then ended, reports⟩

theorem startStream_waits {f : FeatureIx} (n low high : Nat)
    (drain : s.air.features[f].state = .draining) :
    let t := startStream d f n low high true s
    StreamBecomes d
        { startedRec f n low high true true s.stream.recs[d] with requesting := false } s t ∧
      t.bus = s.bus := by
  intro t
  obtain ⟨start, becomes, bus⟩ := startStream_drained (d := d) n low high true drain
  have eq : t = _ := start.trans (endIfMarked_goesOn becomes.record (.inr (.inl rfl)))
  rw [eq]
  exact ⟨becomes, bus⟩

end

end Sys2Proof.Machine

namespace Sys2Proof.Machine

section
variable {s : State} {d : DisplayIx} {rest : List StreamRequest}

/-- A request names the segment that runs at a display (R155, R156). -/
abbrev Named (d : DisplayIx) (n : Nat) (s : State) : Prop :=
  s.stream.recs[d].phase ≠ .idle ∧ s.stream.recs[d].segmentNo = n

/-- The segment at a display has ended, with its release report (R152 to R156). -/
abbrev Finished (d : DisplayIx) (c : ReleaseCause) (s t : State) : Prop :=
  t.stream.recs[d] = s.stream.recs[d].ended ∧
    t.bus.streamReleases = s.bus.streamReleases ++ [⟨s.stream.recs[d].feature, c⟩]

theorem endIfMarked_aside (d : DisplayIx) (s : State) :
    OtherStreamsStay d s (endIfMarked d s) ∧
      (endIfMarked d s).bus.streamReqs = s.bus.streamReqs := by
  simp only [endIfMarked]
  split
  · obtain ⟨ended, bus, -⟩ := endStream_effect d .abandoned s
    rw [bus]
    exact ⟨ended.others, rfl⟩
  · exact ⟨fun _ _ => rfl, rfl⟩

theorem startStream_aside (d : DisplayIx) (f : FeatureIx) (n low high : Nat) (held : Bool)
    (s : State) :
    let t := startStream d f n low high held s
    OtherStreamsStay d s t ∧ t.bus.streamReqs = s.bus.streamReqs := by
  intro t
  obtain ⟨started, bus⟩ := started_becomes (d := d) f n low high held
    (s.air.features[f].state == .draining) s
  obtain ⟨others, reqs⟩ := endIfMarked_aside d (retestAt d
    (withStream d (startedRec f n low high held (s.air.features[f].state == .draining)) s))
  have eq : t = _ := startStream_eq d f n low high held s
  rw [eq]
  exact ⟨fun j hj => (others j hj).trans (started.others j hj), by rw [reqs, bus]⟩

/-- A start request taken (R148). -/
theorem startRequest_taken (f : FeatureIx) (n low high : Nat) (held : Bool)
    (h : s.bus.streamReqs = .start d f n low high held :: rest) :
    let r := s.stream.recs[d]
    ∃ t, exec .startRequest s = .next t ∧ OtherStreamsStay d s t ∧ t.bus.streamReqs = rest ∧
      (r.phase ≠ .idle → t.stream = s.stream ∧
        t.bus.endReports = s.bus.endReports ++ [⟨d, n⟩] ∧
        t.bus.streamReleases = s.bus.streamReleases ++ [⟨f, .abandoned⟩]) ∧
      (r.phase = .idle → s.air.features[f].state ≠ .draining → 0 < low → 0 < high →
        0 < s.air.features[f].totalBytes →
        t.stream.recs[d] =
          { r.ended with
            phase := .filling, segmentNo := n, feature := f, lowMark := 1024 * low,
            highMark := 1024 * high, chunkIx := 0, chunkOff := 0, bytesFetched := 0,
            bytesSent := 0, allowance := 0, carry := 0, held := held, requesting := true }) ∧
      (r.phase = .idle → s.air.features[f].state = .draining →
        (held = false →
          t.stream.recs[d].phase = .idle ∧ t.stream.recs[d].requesting = false ∧
            t.bus.endReports = s.bus.endReports ++ [⟨d, n⟩] ∧
            t.bus.streamReleases = s.bus.streamReleases ++ [⟨f, .abandoned⟩]) ∧
        (held = true →
          t.stream.recs[d].phase = .filling ∧ t.stream.recs[d].segmentNo = n ∧
            t.stream.recs[d].endMarked = true ∧ t.stream.recs[d].held = true ∧
            t.stream.recs[d].requesting = false ∧ t.bus.endReports = s.bus.endReports ∧
            t.bus.streamReleases = s.bus.streamReleases)) := by
  intro r
  have answer := exec_startRequest h
  by_cases idle : r.phase = .idle
  · have notBusy : ¬ s.stream.recs[d].busy = true := by
      simpa [-Fin.getElem_fin, StreamRec.busy] using idle
    rw [if_neg notBusy] at answer
    obtain ⟨displays', bus', stream'⟩ := settleDisplay_displays (requestTaken rest s) d
      (startStream d f n low high held (requestTaken rest s))
    obtain ⟨others, reqs⟩ := startStream_aside d f n low high held (requestTaken rest s)
    refine ⟨_, answer, fun j hj => ?_, ?_, absurd idle, fun _ live hl hh ht => ?_,
      fun _ drain => ⟨?_, ?_⟩⟩
    · rw [stream']
      exact others j hj
    · rw [bus', reqs]
    · obtain ⟨started, -⟩ := startStream_fills (d := d) (s := requestTaken rest s) n held live hl hh ht
      rw [stream']
      exact started.record
    · rintro rfl
      obtain ⟨ended, bus⟩ := startStream_ends (d := d) (s := requestTaken rest s) n low high drain
      rw [stream', ended.record, bus', bus]
      exact ⟨rfl, rfl, rfl, rfl⟩
    · rintro rfl
      obtain ⟨waits, bus⟩ := startStream_waits (d := d) (s := requestTaken rest s) n low high drain
      rw [stream', waits.record, bus', bus]
      exact ⟨rfl, rfl, rfl, rfl, rfl, rfl, rfl⟩
  · have busy : s.stream.recs[d].busy = true := by
      simpa [-Fin.getElem_fin, StreamRec.busy] using idle
    rw [if_pos busy] at answer
    obtain ⟨displays', bus', stream'⟩ := settleDisplay_displays (requestTaken rest s) d
      (releaseStream f .abandoned (reportEnd d n (requestTaken rest s)))
    refine ⟨_, answer, ?_, ?_, fun _ => ?_, fun h => absurd h idle, fun h => absurd h idle⟩
    · rw [OtherStreamsStay, stream']
      exact fun _ _ => rfl
    · rw [bus']
      rfl
    · rw [stream', bus']
      exact ⟨rfl, rfl, rfl⟩

/-- A hold request taken (R155). -/
theorem holdRequest_taken (n : Nat) (h : s.bus.streamReqs = .hold d n :: rest) :
    let r := s.stream.recs[d]
    let popped := requestTaken rest s
    (¬ Named d n s → exec .holdRequest s = .next popped) ∧
      (Named d n s → ∃ t, exec .holdRequest s = .next t ∧ OtherStreamsStay d s t ∧
        t.bus = popped.bus ∧
        t.stream.recs[d] =
          { r with held := true, inUnderrun := false, underrunStart := none,
                   underrunDue := false }) := by
  intro r popped
  have answer := exec_holdRequest h
  refine ⟨fun other => ?_, fun named => ?_⟩
  · rwa [if_neg (mt (names_iff s d n).mp other)] at answer
  · rw [if_pos ((names_iff s d n).mpr named)] at answer
    have becomes := withStream_becomes d (fun r => { r with
      held := true, inUnderrun := false, underrunStart := none, underrunDue := false })
      (requestTaken rest s)
    exact ⟨_, answer, becomes.others, rfl, becomes.record⟩

/-- A resume request taken (R155). -/
theorem resumeRequest_taken (n : Nat) (h : s.bus.streamReqs = .resume d n :: rest) :
    let r := s.stream.recs[d]
    let popped := requestTaken rest s
    (¬ Named d n s → exec .resumeRequest s = .next popped) ∧
      (Named d n s → r.endMarked = false →
        ∃ t, exec .resumeRequest s = .next t ∧ OtherStreamsStay d s t ∧ t.bus = popped.bus ∧
          t.stream.recs[d] = r.resumed) ∧
      (Named d n s → r.endMarked = true →
        ∃ t, exec .resumeRequest s = .next t ∧ OtherStreamsStay d s t ∧ t.bus.streamReqs = rest ∧
          (r.issued = false →
            t.stream.recs[d] = { r.ended with allowance := 0, carry := 0 } ∧
              t.bus.streamReleases = s.bus.streamReleases ++ [⟨r.feature, .abandoned⟩] ∧
              t.bus.endReports = s.bus.endReports ++ [⟨d, r.segmentNo⟩]) ∧
          (r.issued = true → t.bus = popped.bus ∧ t.stream.recs[d] = r.resumed)) := by
  intro r popped
  have answer := exec_resumeRequest h
  have becomes := withStream_becomes d StreamRec.resumed (requestTaken rest s)
  have goesOn (named : Named d n s) (hr : r.endMarked = false ∨ r.issued = true) :
      ∃ t, exec .resumeRequest s = .next t ∧ OtherStreamsStay d s t ∧ t.bus = popped.bus ∧
        t.stream.recs[d] = r.resumed := by
    rw [if_pos ((names_iff s d n).mpr named),
      endIfMarked_goesOn becomes.record (hr.imp id .inr)] at answer
    obtain ⟨-, bus', stream'⟩ := settleDisplay_displays (requestTaken rest s) d
      (withStream d StreamRec.resumed (requestTaken rest s))
    refine ⟨_, answer, fun j hj => ?_, bus'.trans rfl, ?_⟩
    · rw [stream']
      exact becomes.others j hj
    · rw [stream']
      exact becomes.record
  refine ⟨fun other => ?_, fun named open_ => goesOn named (.inl open_), fun named marked => ?_⟩
  · rwa [if_neg (mt (names_iff s d n).mp other)] at answer
  cases issued : r.issued with
  | true =>
    obtain ⟨t, taken, others, bus, record⟩ := goesOn named (.inr issued)
    exact ⟨t, taken, others, by rw [bus], nofun, fun _ => ⟨bus, record⟩⟩
  | false =>
    have ends := endIfMarked_ends becomes.record named.1 marked rfl issued
    obtain ⟨ended, bus, -⟩ := endStream_effect d .abandoned
      (withStream d StreamRec.resumed (requestTaken rest s))
    rw [becomes.record] at ended bus
    rw [if_pos ((names_iff s d n).mpr named), ends] at answer
    obtain ⟨-, bus', stream'⟩ := settleDisplay_displays (requestTaken rest s) d
      (endStream d .abandoned (withStream d StreamRec.resumed (requestTaken rest s)))
    refine ⟨_, answer, fun j hj => ?_, ?_, fun _ => ⟨?_, ?_, ?_⟩, nofun⟩
    · rw [stream']
      exact (becomes.then ended).others j hj
    · rw [bus', bus]
      rfl
    · rw [stream', ended.record]
      rfl
    · rw [bus', bus]
      rfl
    · rw [bus', bus]
      rfl

/-- An end request taken (R155). -/
theorem endRequest_taken (n : Nat) (h : s.bus.streamReqs = .finish d n :: rest) :
    let r := s.stream.recs[d]
    (¬ Named d n s → exec .endRequest s = .next (requestTaken rest s)) ∧
      (Named d n s → ∃ t, exec .endRequest s = .next t ∧ OtherStreamsStay d s t ∧
        t.bus.streamReqs = rest ∧
        (r.held = false → r.issued = false → Finished d .abandoned s t ∧
          t.bus.endReports = s.bus.endReports ++ [⟨d, r.segmentNo⟩]) ∧
        (r.held = true ∨ r.issued = true →
          t.stream.recs[d] = r.marked ∧ t.bus.endReports = s.bus.endReports)) := by
  intro r
  have answer := exec_endRequest h
  refine ⟨fun other => ?_, fun named => ?_⟩
  · rwa [if_neg (mt (names_iff s d n).mp other)] at answer
  rw [if_pos ((names_iff s d n).mpr named)] at answer
  obtain ⟨-, bus', stream'⟩ := settleDisplay_displays (requestTaken rest s) d
    (markEnd d (requestTaken rest s))
  by_cases waits : r.held = true ∨ r.issued = true
  · obtain ⟨becomes, bus⟩ := markEnd_waits_effect (s := requestTaken rest s) waits
    refine ⟨_, answer, fun j hj => ?_, ?_, fun free atRest => ?_, fun _ => ⟨?_, ?_⟩⟩
    · rw [stream']
      exact becomes.others j hj
    · rw [bus', bus]
    · rw [free, atRest] at waits
      exact absurd waits (by decide)
    · rw [stream']
      exact becomes.record
    · rw [bus', bus]
  · simp only [not_or, Bool.not_eq_true] at waits
    obtain ⟨becomes, bus⟩ := markEnd_atOnce (s := requestTaken rest s) named.1 waits.1 waits.2
    refine ⟨_, answer, fun j hj => ?_, ?_, fun _ _ => ⟨⟨?_, ?_⟩, ?_⟩, fun h => ?_⟩
    · rw [stream']
      exact becomes.others j hj
    · rw [bus', bus]
      rfl
    · rw [stream']
      exact becomes.record
    · rw [bus', bus]
      rfl
    · rw [bus', bus]
      rfl
    · rw [waits.1, waits.2] at h
      exact absurd h (by decide)

/-- An abandon request taken (R156). -/
theorem abandonRequest_taken (n : Nat) (h : s.bus.streamReqs = .abandon d n :: rest) :
    (¬ Named d n s → exec .abandonRequest s = .next (requestTaken rest s)) ∧
      (Named d n s → ∃ t, exec .abandonRequest s = .next t ∧ OtherStreamsStay d s t ∧
        t.bus.streamReqs = rest ∧ Finished d .abandoned s t ∧
        t.bus.endReports = s.bus.endReports) := by
  have answer := exec_abandonRequest h
  refine ⟨fun other => ?_, fun named => ?_⟩
  · rwa [if_neg (mt (names_iff s d n).mp other)] at answer
  rw [if_pos ((names_iff s d n).mpr named)] at answer
  have becomes := withStream_becomes d StreamRec.ended (requestTaken rest s)
  obtain ⟨-, bus', stream'⟩ := settleDisplay_displays (requestTaken rest s) d
    (releaseStream s.stream.recs[d].feature .abandoned
      (withStream d StreamRec.ended (requestTaken rest s)))
  refine ⟨_, answer, fun j hj => ?_, ?_, ⟨?_, ?_⟩, ?_⟩
  · rw [stream']
    exact becomes.others j hj
  · rw [bus']
    rfl
  · rw [stream']
    exact becomes.record
  · rw [bus']
    rfl
  · rw [bus']
    rfl

end

section
variable {s : State}

/-! ## The drain -/

/-- The segment at a display ends at a drain (R155). -/
abbrev DrainEnds (s : State) (e : DisplayIx) : Prop :=
  s.stream.recs[e].held = false ∧ s.stream.recs[e].issued = false

/-- A record drained: its segment ended, or marked to end (R155). -/
def StreamRec.drained (r : StreamRec) : StreamRec :=
  if r.held = true ∨ r.issued = true then r.marked else r.ended

/-- The reports of the segments that a drain ends, behind those sent before (R155). -/
def drainReports (s : State) (f : FeatureIx) (l : List DisplayIx) (b : Bus) : Bus :=
  { b with
    endReports := b.endReports ++
      (l.filter fun e => DrainEnds s e).map fun e => ⟨e, s.stream.recs[e].segmentNo⟩
    streamReleases := b.streamReleases ++
      (l.filter fun e => DrainEnds s e).map fun _ => ⟨f, .abandoned⟩ }

theorem drainReports_nil (f : FeatureIx) (b : Bus) : drainReports s f [] b = b := by
  simp [drainReports]

theorem drainReports_ends {f : FeatureIx} {e : DisplayIx} (h : DrainEnds s e) (l : List DisplayIx)
    (b : Bus) : drainReports s f (e :: l) b =
      drainReports s f l (segmentReports e s.stream.recs[e].segmentNo f .abandoned b) := by
  simp [-Fin.getElem_fin, drainReports, segmentReports, h]

theorem drainReports_waits {f : FeatureIx} {e : DisplayIx} (h : ¬ DrainEnds s e) (l : List DisplayIx)
    (b : Bus) : drainReports s f (e :: l) b = drainReports s f l b := by
  simp only [drainReports, List.filter_cons, decide_eq_true_eq, if_neg h]

theorem drainReports_congr {t : State} {f : FeatureIx} {l : List DisplayIx} (b : Bus)
    (h : ∀ e ∈ l, t.stream.recs[e] = s.stream.recs[e]) :
    drainReports t f l b = drainReports s f l b := by
  have same : l.filter (fun e => DrainEnds t e) = l.filter fun e => DrainEnds s e := by
    refine List.filter_congr fun e he => ?_
    simp only [DrainEnds, h e he]
  have numbers : ((l.filter fun e => DrainEnds s e).map fun e =>
      (⟨e, t.stream.recs[e].segmentNo⟩ : EndNotice)) =
      (l.filter fun e => DrainEnds s e).map fun e => ⟨e, s.stream.recs[e].segmentNo⟩ :=
    List.map_congr_left fun e he => by rw [h e (List.mem_of_mem_filter he)]
  unfold drainReports
  rw [same, numbers]

/-- Running segments of a feature marked one after another (R155). -/
theorem foldl_markEnd_effect {f : FeatureIx} {l : List DisplayIx} (hl : l.Nodup)
    (running : ∀ e ∈ l, s.stream.recs[e].phase ≠ .idle ∧ s.stream.recs[e].feature = f) {t : State}
    (ht : t = l.foldl (fun s d => markEnd d s) s) :
    (∀ e : DisplayIx, t.stream.recs[e] =
      if e ∈ l then s.stream.recs[e].drained else s.stream.recs[e]) ∧
      t.bus = drainReports s f l s.bus := by
  induction l generalizing s with
  | nil =>
    rw [ht, drainReports_nil]
    simp
  | cons d l ih =>
    obtain ⟨hd, hl⟩ := List.nodup_cons.mp hl
    obtain ⟨live, feature⟩ := running d (List.mem_cons_self ..)
    have first : StreamBecomes d s.stream.recs[d].drained s (markEnd d s) ∧
        drainReports s f l (markEnd d s).bus = drainReports s f (d :: l) s.bus := by
      by_cases waits : s.stream.recs[d].held = true ∨ s.stream.recs[d].issued = true
      · obtain ⟨becomes, bus⟩ := markEnd_waits_effect waits
        refine ⟨by rw [StreamRec.drained, if_pos waits]; exact becomes, ?_⟩
        have goesOn : ¬ DrainEnds s d := by
          rintro ⟨free, atRest⟩
          rw [free, atRest] at waits
          exact absurd waits (by decide)
        rw [bus, drainReports_waits goesOn]
      · have ends : DrainEnds s d := by simpa only [not_or, Bool.not_eq_true] using waits
        obtain ⟨becomes, bus⟩ := markEnd_atOnce live ends.1 ends.2
        refine ⟨by rw [StreamRec.drained, if_neg waits]; exact becomes, ?_⟩
        rw [bus, drainReports_ends ends, feature]
    obtain ⟨becomes, reports⟩ := first
    have others : ∀ e ∈ l, (markEnd d s).stream.recs[e] = s.stream.recs[e] := fun e he =>
      becomes.others e (ne_of_mem_of_not_mem he hd)
    obtain ⟨records, bus⟩ := ih (s := markEnd d s) hl
      (fun e he => by rw [others e he]; exact running e (List.mem_cons_of_mem _ he)) ht
    refine ⟨fun e => (records e).trans ?_, ?_⟩
    · by_cases he : e = d
      · subst he
        rw [if_neg hd, if_pos (List.mem_cons_self ..)]
        exact becomes.record
      · rw [becomes.others e he]
        simp only [List.mem_cons, he, false_or]
    · rw [bus, drainReports_congr _ others, reports]

theorem mem_streamers {f : FeatureIx} {e : DisplayIx} :
    e ∈ streamers s f ↔ s.stream.recs[e].phase ≠ .idle ∧ s.stream.recs[e].feature = f := by
  simp [-Fin.getElem_fin, streamers, StreamRec.busy]

theorem settleDisplays_stream (before s : State) :
    (settleDisplays before s).stream = s.stream ∧ (settleDisplays before s).bus = s.bus := by
  simp

theorem exec_drainRequest {f : FeatureIx} {others : List FeatureIx}
    (h : s.bus.drainReqs = f :: others) :
    exec .drainRequest s = .next (settleDisplays { s with bus := { s.bus with drainReqs := others } }
      ((streamers { s with bus := { s.bus with drainReqs := others } } f).foldl
        (fun s d => markEnd d s) { s with bus := { s.bus with drainReqs := others } })) := by
  simp only [exec, execDrainRequest, h]

/-- A drain request taken (R155). -/
theorem drainRequest_taken (d : DisplayIx) (f : FeatureIx) (others : List FeatureIx)
    (h : s.bus.drainReqs = f :: others) :
    let r := s.stream.recs[d]
    let ends (e : DisplayIx) : Bool :=
      s.stream.recs[e].phase != .idle && s.stream.recs[e].feature == f &&
        !s.stream.recs[e].held && !s.stream.recs[e].issued
    ∃ t, exec .drainRequest s = .next t ∧ t.bus.drainReqs = others ∧
      t.bus.endReports = s.bus.endReports ++
        ((List.finRange 16).filter ends).map (fun e => ⟨e, s.stream.recs[e].segmentNo⟩) ∧
      t.bus.streamReleases = s.bus.streamReleases ++
        ((List.finRange 16).filter ends).map (fun _ => ⟨f, .abandoned⟩) ∧
      (r.phase = .idle ∨ r.feature ≠ f → t.stream.recs[d] = r) ∧
      (r.phase ≠ .idle → r.feature = f → t.stream.recs[d] = r.drained) := by
  intro r ends
  generalize hu : ({ s with bus := { s.bus with drainReqs := others } } : State) = u
  have answer := exec_drainRequest h
  rw [hu] at answer
  have stream : u.stream = s.stream := by rw [← hu]
  have bus : u.bus = { s.bus with drainReqs := others } := by rw [← hu]
  obtain ⟨stream', bus'⟩ := settleDisplays_stream u ((streamers u f).foldl (fun s d => markEnd d s) u)
  obtain ⟨records, reports⟩ := foldl_markEnd_effect (s := u) (f := f) (l := streamers u f)
    ((List.nodup_finRange 16).filter _) (fun e he => mem_streamers.mp he) rfl
  have ended : (streamers u f).filter (fun e => DrainEnds u e) = (List.finRange 16).filter ends := by
    rw [streamers, List.filter_filter]
    refine List.filter_congr fun e _ => ?_
    simp only [DrainEnds, ends, stream, StreamRec.busy]
    cases s.stream.recs[e].held <;> cases s.stream.recs[e].issued <;> simp
  refine ⟨_, answer, ?_, ?_, ?_, fun aside => ?_, fun live feature => ?_⟩
  · rw [bus', reports, bus]
    rfl
  · rw [bus', reports, drainReports, ended, bus, stream]
  · rw [bus', reports, drainReports, ended, bus]
  · rw [stream', records, stream, if_neg]
    rw [mem_streamers, stream]
    rintro ⟨live, feature⟩
    exact aside.elim live fun h => h feature
  · rw [stream', records, stream, if_pos]
    rw [mem_streamers, stream]
    exact ⟨live, feature⟩

end

/-- Settles O56, by one lemma a request. -/
theorem streamRequestsActOnTheNamedSegment : Obligations.StreamRequestsActOnTheNamedSegment := by
  intro s d n rest r named popped finished marked
  exact ⟨fun f low high held => startRequest_taken f n low high held, holdRequest_taken n,
    resumeRequest_taken n, endRequest_taken n, abandonRequest_taken n, drainRequest_taken d⟩

end Sys2Proof.Machine

namespace Sys2Proof.Machine

section
variable {s : State} {d : DisplayIx}

/-! ## What the Stream Engine tests, written as one record -/

theorem StreamRec.retest_eq (total : Nat) (r : StreamRec) :
    r.retest total = { r with
      requesting :=
        if r.phase = .idle ∨ r.endMarked = true then false
        else if r.highMark ≤ r.buffer.length ∨ total ≤ r.bytesFetched then false
        else if r.buffer.length < r.lowMark then true
        else r.requesting } := by
  unfold StreamRec.retest
  repeat' split
  all_goals rfl

theorem moveFetch_eq (len n : Nat) (r : StreamRec) :
    moveFetch len n r = { r with
      chunkIx := if len ≤ r.chunkOff + n then r.chunkIx + 1 else r.chunkIx
      chunkOff := if len ≤ r.chunkOff + n then 0 else r.chunkOff + n } := by
  unfold moveFetch
  split <;> rfl

/-- A FILLING record whose buffer is filled, or whose clip is all fetched (R151). -/
abbrev StreamRec.filled (total : Nat) (r : StreamRec) : Prop :=
  r.phase = .filling ∧ (r.highMark ≤ r.buffer.length ∨ total ≤ r.bytesFetched)

theorem beginPlaying_eq (total : Nat) (r : StreamRec) :
    beginPlaying total r = { r with
      phase := if r.filled total then .playing else r.phase
      allowance := if r.filled total then 0 else r.allowance
      carry := if r.filled total then 0 else r.carry } := by
  unfold beginPlaying
  split <;> rfl

/-! ## The fetch arbiter -/

theorem exec_fetchGrant_granted {c : Chunk} (hg : nextGrant s = some d)
    (hc : s.air.features[s.stream.recs[d].feature].chunks[s.stream.recs[d].chunkIx]? = some c)
    (hq : s.reads.queue.any (·.granted) = false) :
    exec .fetchGrant s = .next (issueBurst d (formBurst s.stream.recs[d] c) true
      { s with stream := { s.stream with lastGrant := d } }) := by
  have free : ¬ grantWaits s = true := by rw [grantWaits, hq]; exact nofun
  have chunk : (streamFeature s d).chunks[s.stream.recs[d].chunkIx]? = some c := hc
  refine congrArg Host.Outcome.next ((if_neg free).trans ?_)
  simp only [hg, chunk]

theorem exec_fetchGrant_none (h : s.reads.queue.any (·.granted) = true ∨ nextGrant s = none) :
    exec .fetchGrant s = .next s := by
  refine congrArg Host.Outcome.next ?_
  by_cases waits : grantWaits s = true
  · exact if_pos waits
  · refine (if_neg waits).trans ?_
    rw [h.resolve_left waits]

/-- A burst issued (R150, R152). -/
theorem issueBurst_effect (d : DisplayIx) (b : Burst) (granted : Bool) (s : State) :
    let r := s.stream.recs[d]
    let t := issueBurst d b granted s
    StreamBecomes d { r with burst := some { b with wait := none } } s t ∧
      t.stream.lastGrant = s.stream.lastGrant ∧ t.bus = s.bus ∧
      Outstanding ⟨.burst d r.streamNo, b.addr, b.size, granted⟩ t := by
  intro r t
  have only : t = { withStream d (fun r => { r with burst := some { b with wait := none } }) s with
      reads := t.reads } := issueRead_only _ _
  refine ⟨?_, ?_, ?_, issueRead_outstanding _ _⟩
  · rw [only]
    rfl
  · rw [only]
    rfl
  · rw [only]
    rfl

/-! ## Bursts completed -/

variable {slot : ReadSlot} {no addr len : Nat} {g : Bool}

/-- A burst's completion finds the display's present stream and its burst issued (R151). -/
abbrev ActsOn (d : DisplayIx) (no : Nat) (s : State) : Prop :=
  no = s.stream.recs[d].streamNo ∧ s.stream.recs[d].issued = true

theorem actsOn_freeRead : actsOn (freeRead slot s) d no = true ↔ ActsOn d no s := by
  rw [actsOn, (freeRead_air slot s).2.1, ActsOn, Bool.and_eq_true, beq_iff_eq, eq_comm]

theorem exec_burstDone {bytes : List Byte} (h1 : 1 ≤ bytes.length) (h2 : bytes.length ≤ 8192)
    (h : s.reads.slots[slot] = some ⟨.burst d no, addr, bytes.length, g⟩) :
    exec (.burstDone slot bytes) s = .next
      (if actsOn (freeRead slot s) d no then
        settleDisplay s d
          (if (s.stream.recs[d].endMarked && !s.stream.recs[d].held) = true then
            endStream d .abandoned (freeRead slot s)
          else joinBurst d bytes (freeRead slot s))
      else freeRead slot s) := by
  refine (answer_next _ _ ?_).trans ?_
  · simp [Instr.wellFormed, h1, h2]
  · simp only [h]
    exact congrArg _ (if_neg fun other => other rfl)

/-- The record when a burst's bytes have joined the buffer (R151). -/
def joinedRec (len total : Nat) (bytes : List Byte) (r : StreamRec) : StreamRec :=
  beginPlaying total ((moveFetch len bytes.length
    { r with
      buffer := r.buffer ++ bytes, bytesFetched := r.bytesFetched + bytes.length, burst := none,
      inUnderrun := false, underrunStart := none, underrunDue := false }).retest total)

theorem joinBurst_becomes (d : DisplayIx) (bytes : List Byte) (s : State) :
    let r := s.stream.recs[d]
    let f := s.air.features[r.feature]
    StreamBecomes d (joinedRec (((f.chunks[r.chunkIx]?).map (·.len)).getD 0) f.totalBytes bytes r) s
      (joinBurst d bytes s) := rfl

/-- What a burst's bytes do to the record of the stream they join (R149, R151). -/
theorem joinedRec_fields (len total : Nat) (bytes : List Byte) (r : StreamRec) :
    let q := joinedRec len total bytes r
    q.buffer = r.buffer ++ bytes ∧ q.bytesFetched = r.bytesFetched + bytes.length ∧
      q.burst = none ∧ q.inUnderrun = false ∧ q.streamNo = r.streamNo ∧
      q.bytesSent = r.bytesSent ∧
      q.requesting =
        (if r.endMarked = true ∨ r.phase = .idle then false
         else if r.highMark ≤ r.buffer.length + bytes.length ∨
           total ≤ r.bytesFetched + bytes.length then false
         else if r.buffer.length + bytes.length < r.lowMark then true
         else r.requesting) ∧
      (len ≤ r.chunkOff + bytes.length → q.chunkIx = r.chunkIx + 1 ∧ q.chunkOff = 0) ∧
      (r.chunkOff + bytes.length < len →
        q.chunkIx = r.chunkIx ∧ q.chunkOff = r.chunkOff + bytes.length) ∧
      (q.phase = .playing ↔ r.phase = .playing ∨
        r.phase = .filling ∧ (r.highMark ≤ r.buffer.length + bytes.length ∨
          total ≤ r.bytesFetched + bytes.length)) := by
  intro q
  have eq : q = _ := beginPlaying_eq total _
  rw [StreamRec.retest_eq, moveFetch_eq] at eq
  rw [eq]
  refine ⟨rfl, rfl, rfl, rfl, rfl, rfl, ?_, ?_, ?_, ?_⟩
  · simp only [List.length_append]
    exact if_congr or_comm rfl rfl
  · intro whole
    exact ⟨if_pos whole, if_pos whole⟩
  · intro part
    exact ⟨if_neg (Nat.not_le.mpr part), if_neg (Nat.not_le.mpr part)⟩
  · simp only [StreamRec.filled, List.length_append]
    by_cases filled : r.phase = .filling ∧ (r.highMark ≤ r.buffer.length + bytes.length ∨
        total ≤ r.bytesFetched + bytes.length)
    · simp [filled]
    · rw [if_neg filled]
      exact ⟨.inl, fun h => h.resolve_right filled⟩

/-! ## Segments over -/

/-- The segment at a display is over, with both reports, and no other stream has changed
(R152 to R156). -/
abbrev SegmentOver (d : DisplayIx) (c : ReleaseCause) (s t : State) : Prop :=
  StreamBecomes d s.stream.recs[d].ended s t ∧
    t.bus.endReports = s.bus.endReports ++ [⟨d, s.stream.recs[d].segmentNo⟩] ∧
    t.bus.streamReleases = s.bus.streamReleases ++ [⟨s.stream.recs[d].feature, c⟩]

theorem endStream_over {u : State} (c : ReleaseCause) (hu : u.stream = s.stream)
    (he : u.bus.endReports = s.bus.endReports)
    (hr : u.bus.streamReleases = s.bus.streamReleases) :
    SegmentOver d c s (endStream d c u) ∧ (endStream d c u).bus.raises = u.bus.raises := by
  obtain ⟨ended, bus, -⟩ := endStream_effect d c u
  rw [hu] at ended bus
  refine ⟨⟨ended.congr (by rw [hu]) rfl, ?_, ?_⟩, by rw [bus]; rfl⟩
  · rw [bus, ← he]
    rfl
  · rw [bus, ← hr]
    rfl

theorem SegmentOver.congr {c : ReleaseCause} {t u : State} (h : SegmentOver d c s t)
    (hs : u.stream = t.stream) (hb : u.bus = t.bus) : SegmentOver d c s u := by
  obtain ⟨becomes, ends, releases⟩ := h
  exact ⟨becomes.congr rfl (by rw [hs]), by rw [hb]; exact ends, by rw [hb]; exact releases⟩

/-! ## Bursts failed -/

/-- The wait that the LFSR gives the n-th failure of a burst (R152). -/
def burstWait (n : Nat) (s : State) : Nat :=
  s.stream.lfsr.toNat % 2 ^ min n s.stream.cfg.retry.backoffCap

/-- A burst after a failure below the limit (R152). -/
def retriedBurst (b : Burst) (s : State) : Burst :=
  { b with
    failures := b.failures + 1
    wait := if burstWait (b.failures + 1) s = 0 then none else some (burstWait (b.failures + 1) s) }

theorem exec_burstFailed {b : Burst}
    (h : s.reads.slots[slot] = some ⟨.burst d s.stream.recs[d].streamNo, addr, len, g⟩)
    (hb : s.stream.recs[d].burst = some b) (hw : b.wait = none) :
    exec (.burstFailed slot) s = .next (settleDisplay s d (burstFailed d b (freeRead slot s))) := by
  have stream := (freeRead_air slot s).2.1
  have acts : actsOn (freeRead slot s) d s.stream.recs[d].streamNo = true :=
    actsOn_freeRead.mpr ⟨rfl, by simp [-Fin.getElem_fin, StreamRec.issued, hb, hw]⟩
  have burst : (freeRead slot s).stream.recs[d].burst = some b := by rw [stream]; exact hb
  simp only [exec, execBurstFailed, h, burst]
  rw [if_pos acts]

theorem burstFailed_ends (b : Burst) (hm : s.stream.recs[d].endMarked = true)
    (hh : s.stream.recs[d].held = false) : burstFailed d b s = endStream d .abandoned s :=
  if_pos (by rw [hm, hh]; rfl)

theorem not_markedFree (h : s.stream.recs[d].endMarked = false ∨ s.stream.recs[d].held = true) :
    ¬ (s.stream.recs[d].endMarked && !s.stream.recs[d].held) = true := by
  rcases h with h | h <;> simp [-Fin.getElem_fin, h]

theorem burstFailed_again {b : Burst}
    (h : s.stream.recs[d].endMarked = false ∨ s.stream.recs[d].held = true)
    (hn : b.failures + 1 < s.stream.cfg.retry.retryLimit)
    (hw : burstWait (b.failures + 1) s = 0) :
    burstFailed d b s = issueBurst d { b with failures := b.failures + 1 } false s := by
  refine (if_neg (not_markedFree h)).trans ((if_pos hn).trans ?_)
  have draw : drawWait s.stream.cfg.retry (b.failures + 1) s = 0 := hw
  rw [draw]
  rfl

theorem burstFailed_waits {b : Burst}
    (h : s.stream.recs[d].endMarked = false ∨ s.stream.recs[d].held = true)
    (hn : b.failures + 1 < s.stream.cfg.retry.retryLimit)
    (hw : burstWait (b.failures + 1) s ≠ 0) :
    burstFailed d b s = withStream d (fun r => { r with burst := some (retriedBurst b s) }) s := by
  refine (if_neg (not_markedFree h)).trans ((if_pos hn).trans ?_)
  have draw : drawWait s.stream.cfg.retry (b.failures + 1) s = burstWait (b.failures + 1) s := rfl
  rw [draw, retriedBurst, if_neg hw]
  obtain ⟨w, hw⟩ := Nat.exists_eq_succ_of_ne_zero hw
  rw [hw]
  rfl

theorem burstFailed_givesUp {b : Burst}
    (h : s.stream.recs[d].endMarked = false ∨ s.stream.recs[d].held = true)
    (hn : s.stream.cfg.retry.retryLimit ≤ b.failures + 1) : burstFailed d b s = giveUpClip d s :=
  (if_neg (not_markedFree h)).trans (if_neg (Nat.not_lt.mpr hn))

/-- A burst's failure below the limit (R152). -/
theorem burstFailed_retries {b : Burst}
    (h : s.stream.recs[d].endMarked = false ∨ s.stream.recs[d].held = true)
    (hn : b.failures + 1 < s.stream.cfg.retry.retryLimit) :
    let r := s.stream.recs[d]
    let t := burstFailed d b s
    StreamBecomes d { r with burst := some (retriedBurst b s) } s t ∧ t.bus = s.bus ∧
      (burstWait (b.failures + 1) s = 0 →
        Outstanding ⟨.burst d r.streamNo, b.addr, b.size, false⟩ t) := by
  intro r t
  by_cases zero : burstWait (b.failures + 1) s = 0
  · have eq : t = _ := burstFailed_again h hn zero
    have burst : retriedBurst b s = { b with failures := b.failures + 1, wait := none } := by
      rw [retriedBurst, if_pos zero]
    obtain ⟨becomes, -, bus, reads⟩ := issueBurst_effect d { b with failures := b.failures + 1 } false s
    rw [eq, burst]
    exact ⟨becomes, bus, fun _ => reads⟩
  · have eq : t = _ := burstFailed_waits h hn zero
    rw [eq]
    exact ⟨rfl, rfl, fun h => absurd h zero⟩

theorem giveUpClip_over (d : DisplayIx) (s : State) :
    SegmentOver d .clipFault s (giveUpClip d s) ∧
      Raised .streamEngine ⟨.clipAbandoned, .feature s.stream.recs[d].feature.val, noCapture⟩ s
        (giveUpClip d s) :=
  endStream_over (d := d) .clipFault
    (u := raise .streamEngine .clipAbandoned (.feature s.stream.recs[d].feature.val) noCapture s)
    rfl rfl rfl

theorem exec_burstRetryExpiry {b : Burst} (hb : s.stream.recs[d].burst = some b)
    (hw : b.wait = some 0) : exec (.burstRetryExpiry d) s = .next (issueBurst d b false s) := by
  simp only [exec, execBurstRetryExpiry, hb]
  exact congrArg _ (if_pos hw)

end

section
variable {s : State} {d : DisplayIx} {slot : ReadSlot} {no addr len : Nat} {g : Bool}

/-- A burst granted (R150). -/
theorem fetchGrant_granted {c : Chunk} (hg : nextGrant s = some d)
    (hc : s.air.features[s.stream.recs[d].feature].chunks[s.stream.recs[d].chunkIx]? = some c)
    (hq : s.reads.queue.any (·.granted) = false) :
    let r := s.stream.recs[d]
    let size := min 8192 (min (131072 - r.buffer.length) (c.len - r.chunkOff))
    ∃ t, exec .fetchGrant s = .next t ∧ OtherStreamsStay d s t ∧ t.stream.lastGrant = d ∧
      t.stream.recs[d] = { r with burst := some ⟨c.addr + r.chunkOff, size, 0, none⟩ } ∧
      Outstanding ⟨.burst d r.streamNo, c.addr + r.chunkOff, size, true⟩ t := by
  intro r size
  obtain ⟨becomes, last, -, reads⟩ := issueBurst_effect d (formBurst r c) true
    { s with stream := { s.stream with lastGrant := d } }
  exact ⟨_, exec_fetchGrant_granted hg hc hq, becomes.others, last, becomes.record, reads⟩

/-- A burst completed (R151, R155). -/
theorem burstDone_taken {bytes : List Byte} (h1 : 1 ≤ bytes.length) (h2 : bytes.length ≤ 8192)
    (h : s.reads.slots[slot] = some ⟨.burst d no, addr, bytes.length, g⟩) :
    let r := s.stream.recs[d]
    let f := s.air.features[r.feature]
    ∃ t, exec (.burstDone slot bytes) s = .next t ∧ OtherStreamsStay d s t ∧
      (¬ ActsOn d no s → t = freeRead slot s) ∧
      (ActsOn d no s → r.endMarked = true → r.held = false → SegmentOver d .abandoned s t) ∧
      (ActsOn d no s → r.endMarked = false ∨ r.held = true → t.stream.recs[d] =
        joinedRec (((f.chunks[r.chunkIx]?).map (·.len)).getD 0) f.totalBytes bytes r) := by
  intro r f
  obtain ⟨air, stream, bus⟩ := freeRead_air slot s
  have answer := exec_burstDone h1 h2 h
  by_cases acts : ActsOn d no s
  · rw [if_pos (actsOn_freeRead.mpr acts)] at answer
    by_cases ends : r.endMarked = true ∧ r.held = false
    · obtain ⟨marked, free⟩ := ends
      rw [if_pos (by rw [marked, free]; rfl)] at answer
      obtain ⟨-, bus', stream'⟩ := settleDisplay_displays s d
        (endStream d .abandoned (freeRead slot s))
      obtain ⟨ended, -⟩ := endStream_over (s := s) (d := d) (u := freeRead slot s) .abandoned stream
        (by rw [bus]) (by rw [bus])
      have settled := ended.congr stream' bus'
      refine ⟨_, answer, settled.1.others, fun h => absurd acts h, fun _ _ _ => settled,
        fun _ goesOn => ?_⟩
      rw [marked, free] at goesOn
      exact absurd goesOn (by decide)
    · have goesOn : r.endMarked = false ∨ r.held = true := by
        simpa only [not_and_or, Bool.not_eq_true, Bool.not_eq_false] using ends
      rw [if_neg (not_markedFree goesOn)] at answer
      obtain ⟨-, -, stream'⟩ := settleDisplay_displays s d (joinBurst d bytes (freeRead slot s))
      have joined := joinBurst_becomes d bytes (freeRead slot s)
      simp only [air, stream] at joined
      have settled := joined.congr (s := s)
        (v := settleDisplay s d (joinBurst d bytes (freeRead slot s))) (by rw [stream]) (by rw [stream'])
      exact ⟨_, answer, settled.others, fun h => absurd acts h,
        fun _ marked free => absurd ⟨marked, free⟩ ends, fun _ _ => settled.record⟩
  · rw [if_neg (mt actsOn_freeRead.mp acts)] at answer
    refine ⟨_, answer, fun j _ => ?_, fun _ => rfl, fun h => absurd h acts, fun h => absurd h acts⟩
    rw [stream]

/-- A burst failed (R152). -/
theorem burstFailed_taken {b : Burst}
    (h : s.reads.slots[slot] = some ⟨.burst d s.stream.recs[d].streamNo, addr, len, g⟩)
    (hb : s.stream.recs[d].burst = some b) (hw : b.wait = none) :
    let r := s.stream.recs[d]
    ∃ t, exec (.burstFailed slot) s = .next t ∧ OtherStreamsStay d s t ∧
      (r.endMarked = true → r.held = false → SegmentOver d .abandoned s t) ∧
      (r.endMarked = false ∨ r.held = true → b.failures + 1 < s.stream.cfg.retry.retryLimit →
        t.stream.recs[d] = { r with burst := some (retriedBurst b s) } ∧ t.bus = s.bus ∧
        (burstWait (b.failures + 1) s = 0 →
          Outstanding ⟨.burst d r.streamNo, b.addr, b.size, false⟩ t)) ∧
      (r.endMarked = false ∨ r.held = true → s.stream.cfg.retry.retryLimit ≤ b.failures + 1 →
        SegmentOver d .clipFault s t ∧
          Raised .streamEngine ⟨.clipAbandoned, .feature r.feature.val, noCapture⟩ s t) := by
  intro r
  obtain ⟨-, stream, bus⟩ := freeRead_air slot s
  have answer := exec_burstFailed h hb hw
  obtain ⟨-, bus', stream'⟩ := settleDisplay_displays s d (burstFailed d b (freeRead slot s))
  have freed : (freeRead slot s).stream.recs[d] = r := by rw [stream]
  by_cases ends : r.endMarked = true ∧ r.held = false
  · obtain ⟨marked, free⟩ := ends
    have eq := burstFailed_ends (s := freeRead slot s) (d := d) b (by rw [freed]; exact marked)
      (by rw [freed]; exact free)
    obtain ⟨ended, -⟩ := endStream_over (s := s) (d := d) (u := freeRead slot s) .abandoned stream
      (by rw [bus]) (by rw [bus])
    rw [← eq] at ended
    have settled := ended.congr stream' bus'
    have goesOn : ¬ (r.endMarked = false ∨ r.held = true) := by
      rw [marked, free]
      decide
    exact ⟨_, answer, settled.1.others, fun _ _ => settled, fun h => absurd h goesOn,
      fun h => absurd h goesOn⟩
  have goesOn : r.endMarked = false ∨ r.held = true := by
    simpa only [not_and_or, Bool.not_eq_true, Bool.not_eq_false] using ends
  have goesOn' : (freeRead slot s).stream.recs[d].endMarked = false ∨
      (freeRead slot s).stream.recs[d].held = true := by rw [freed]; exact goesOn
  rcases Nat.lt_or_ge (b.failures + 1) s.stream.cfg.retry.retryLimit with below | limit
  · obtain ⟨becomes, sent, reads⟩ := burstFailed_retries (s := freeRead slot s) (b := b) goesOn'
      (by rw [stream]; exact below)
    have burst : retriedBurst b (freeRead slot s) = retriedBurst b s := by
      rw [retriedBurst, retriedBurst, burstWait, burstWait, stream]
    rw [freed, burst] at becomes
    have kept := becomes.congr (s := s)
      (v := settleDisplay s d (burstFailed d b (freeRead slot s))) (by rw [stream]) (by rw [stream'])
    refine ⟨_, answer, kept.others, fun marked free => absurd ⟨marked, free⟩ ends,
      fun _ _ => ⟨kept.record, by rw [bus', sent, bus], fun zero => ?_⟩, fun _ h => by omega⟩
    rw [freed] at reads
    refine (reads ?_).congr (by simp)
    rw [burstWait, stream]
    exact zero
  · have eq := burstFailed_givesUp (s := freeRead slot s) (b := b) goesOn'
      (by rw [stream]; exact limit)
    obtain ⟨ended, raised⟩ := giveUpClip_over d (freeRead slot s)
    rw [← eq] at ended raised
    obtain ⟨becomes, endReports, releases⟩ := ended
    rw [freed] at becomes endReports releases raised
    rw [bus] at endReports releases
    have kept := becomes.congr (s := s)
      (v := settleDisplay s d (burstFailed d b (freeRead slot s))) (by rw [stream]) (by rw [stream'])
    refine ⟨_, answer, kept.others, fun marked free => absurd ⟨marked, free⟩ ends,
      fun _ h => by omega, fun _ _ => ⟨⟨kept, ?_, ?_⟩, ?_⟩⟩
    · rw [bus', endReports]
    · rw [bus', releases]
    · rw [Raised, bus', raised, bus]

end

/-- Settles O57, by the grant, the completion, the failure and the retry of a burst. -/
theorem burstsFillTheBuffer : Obligations.BurstsFillTheBuffer := by
  intro s d r f
  refine ⟨fun c hg hc hq => fetchGrant_granted hg hc hq, exec_fetchGrant_none, ?_, ?_, ?_⟩
  · intro slot bytes no addr g h1 h2 h
    obtain ⟨t, answer, others, aside, ends, joins⟩ := burstDone_taken h1 h2 h
    refine ⟨t, answer, others, fun stale => aside ?_, fun hno issued marked free => ?_,
      fun hno issued goesOn => ?_⟩
    · rintro ⟨hno, issued⟩
      refine stale.elim (fun other => other hno) fun atRest => ?_
      rw [atRest] at issued
      exact absurd issued nofun
    · obtain ⟨becomes, endReports, releases⟩ := ends ⟨hno, issued⟩ marked free
      exact ⟨becomes.record, endReports, releases⟩
    · intro q
      have joined : q = _ := joins ⟨hno, issued⟩ goesOn
      obtain ⟨buffer, fetched, burst, underrun, number, sent, requesting, whole, part, phase⟩ :=
        joinedRec_fields (((f.chunks[r.chunkIx]?).map (·.len)).getD 0) f.totalBytes bytes r
      rw [joined]
      refine ⟨buffer, fetched, burst, underrun, number, sent, requesting, fun c hc => ?_, phase⟩
      rw [hc] at whole part
      rw [hc]
      exact ⟨whole, part⟩
  · intro slot b addr len g h hb hw n wait
    obtain ⟨t, answer, others, ends, retries, gaveUp⟩ := burstFailed_taken h hb hw
    refine ⟨t, answer, others, fun marked free => ?_, retries, fun goesOn limit => ?_⟩
    · obtain ⟨becomes, endReports, releases⟩ := ends marked free
      exact ⟨becomes.record, endReports, releases⟩
    · obtain ⟨⟨becomes, endReports, releases⟩, raised⟩ := gaveUp goesOn limit
      exact ⟨becomes.record, releases, endReports, raised⟩
  · intro b hb hw
    obtain ⟨becomes, -, -, reads⟩ := issueBurst_effect d b false s
    exact ⟨_, exec_burstRetryExpiry hb hw, becomes.others, becomes.record, reads⟩

end Sys2Proof.Machine

namespace Sys2Proof.Machine

section
variable {s : State} {d : DisplayIx}

/-! ## The millisecond -/

/-- A record whose allowance grows at a millisecond (R153). -/
abbrev StreamRec.paced (r : StreamRec) : Prop :=
  r.phase = .playing ∧ r.held = false ∧ r.inUnderrun = false

theorem grow_eq (rate : Nat) (r : StreamRec) :
    grow rate r = { r with
      allowance := if r.paced then min 1024 (r.allowance + (rate + r.carry) / 1000) else r.allowance
      carry :=
        if r.paced then
          if 1024 ≤ r.allowance + (rate + r.carry) / 1000 then 0 else (rate + r.carry) % 1000
        else r.carry } := by
  by_cases paced : r.paced
  · rw [if_pos paced, if_pos paced]
    refine (if_pos paced).trans ?_
    by_cases full : 1024 ≤ r.allowance + (rate + r.carry) / 1000
    · rw [min_eq_left full, if_pos full]
      exact if_pos full
    · rw [min_eq_right (Nat.le_of_not_le full), if_neg full]
      exact if_neg full
  · rw [if_neg paced, if_neg paced]
    exact if_neg paced

theorem msStream_fields (rate : Nat) (r : StreamRec) :
    let q := msStream rate r
    q.allowance =
        (if r.phase = .playing ∧ r.held = false ∧ r.inUnderrun = false then
          min 1024 (r.allowance + (rate + r.carry) / 1000)
         else r.allowance) ∧
      q.carry =
        (if r.phase = .playing ∧ r.held = false ∧ r.inUnderrun = false then
          if 1024 ≤ r.allowance + (rate + r.carry) / 1000 then 0 else (rate + r.carry) % 1000
         else r.carry) ∧
      q.buffer = r.buffer ∧ q.bytesSent = r.bytesSent ∧
      q.burst = r.burst.map (fun b => { b with wait := countDown b.wait }) := by
  intro q
  have eq : q = _ := grow_eq rate _
  rw [eq]
  exact ⟨rfl, rfl, rfl, rfl, rfl⟩

/-- What a millisecond counts down and paces (R147, R153). -/
theorem pacingMillisecond_effect (d : DisplayIx) (s : State) :
    let r := s.stream.recs[d]
    ∃ t, exec .pacingMillisecond s = .next t ∧ t.stream.lfsr = lfsrStep s.stream.lfsr ∧
      t.stream.recs[d] = msStream s.air.features[r.feature].byteRate r ∧
      t.win = msWindow s.win ∧
      (∀ k : FeatureIx, t.air.features[k] = msFeature s.air.features[k]) ∧
      t.desks = { s.desks with pauseTimer := countDown s.desks.pauseTimer } := by
  refine ⟨_, rfl, rfl, ?_, rfl, fun k => ?_, rfl⟩
  · exact Vector.getElem_map _ d.isLt
  · exact Vector.getElem_map _ k.isLt

/-! ## Sends -/

/-- What a display's clip streams to its panel next, and whether it may (R153). -/
abbrev sendLength (d : DisplayIx) (s : State) : Nat :=
  min 1024 (s.air.features[s.stream.recs[d].feature].totalBytes - s.stream.recs[d].bytesSent)

abbrev SendDue (d : DisplayIx) (s : State) : Prop :=
  s.stream.recs[d].phase = .playing ∧ s.stream.recs[d].held = false ∧
    sendLength d s ≤ s.stream.recs[d].allowance ∧ s.stream.links[d].clip = none ∧
    s.stream.recs[d].inUnderrun = false

theorem sendDue_iff : sendDue s d = true ↔ SendDue d s := by
  simp [-Fin.getElem_fin, sendDue, SendDue, sendLength, sendSize, streamFeature, maxClipData,
    and_assoc]

theorem exec_send_notDue (h : ¬ SendDue d s) : exec (.send d) s = .next s :=
  congrArg Host.Outcome.next (if_neg (mt sendDue_iff.mp h))

theorem exec_send_underrun (h : SendDue d s) (he : s.stream.recs[d].buffer = []) :
    exec (.send d) s = .next (settleDisplay s d (beginUnderrun d s)) := by
  refine congrArg Host.Outcome.next ((if_pos (sendDue_iff.mpr h)).trans ?_)
  rw [if_pos he]

theorem exec_send_bytes (h : SendDue d s) (he : s.stream.recs[d].buffer ≠ []) :
    exec (.send d) s = .next (settleDisplay s d (sendBytes d s)) := by
  refine congrArg Host.Outcome.next ((if_pos (sendDue_iff.mpr h)).trans ?_)
  rw [if_neg he]

/-- A clip frame handed to a panel link that stood at `link` (R153, R157). -/
def clipHanded (up : Bool) (f : PanelFrame) (link : PanelLink) : PanelLink :=
  if up = true then { link with clip := some f }.kick else link

theorem sendClip_effect (d : DisplayIx) (f : PanelFrame) (s : State) :
    (sendClip d f s).stream.links =
        put s.stream.links d (clipHanded s.displays.recs[d].linkUp f s.stream.links[d]) ∧
      (sendClip d f s).stream.recs = s.stream.recs ∧ (sendClip d f s).bus = s.bus ∧
      (sendClip d f s).air = s.air := by
  unfold sendClip clipHanded
  by_cases up : s.displays.recs[d].linkUp = true
  · simp only [if_pos up]
    exact ⟨rfl, rfl, rfl, rfl⟩
  · simp only [if_neg up, put_self]
    exact ⟨trivial, trivial, trivial, trivial⟩

/-- A record at the beginning of an underrun episode (R154). -/
def underrunRec (now : Nat) (r : StreamRec) : StreamRec :=
  { r with
    inUnderrun := true, underrunStart := some now, underrunCount := min (r.underrunCount + 1) 65535 }

/-- An underrun episode begins (R154). -/
theorem beginUnderrun_effect (d : DisplayIx) (s : State) :
    let r := s.stream.recs[d]
    let t := beginUnderrun d s
    StreamBecomes d (underrunRec s.clock.partSeconds r) s t ∧
      t.stream.links = put s.stream.links d
        (clipHanded s.displays.recs[d].linkUp (.holdFrame r.segmentNo r.bytesSent)
          s.stream.links[d]) ∧
      Raised .streamEngine ⟨.streamUnderrun, .display d.val, noCapture⟩ s t := by
  intro r t
  obtain ⟨links, recs, bus, -⟩ := sendClip_effect d (.holdFrame r.segmentNo r.bytesSent)
    (withStream d (underrunRec s.clock.partSeconds) s)
  have becomes := withStream_becomes d (underrunRec s.clock.partSeconds) s
  refine ⟨becomes.congr rfl recs, links, ?_⟩
  exact congrArg (fun b : Bus => b.raises ++ [_]) bus

/-- A record when bytes from the head of its buffer have been sent (R153). -/
def sentRec (n : Nat) (r : StreamRec) : StreamRec :=
  { r with
    buffer := r.buffer.drop n, allowance := r.allowance - n, bytesSent := r.bytesSent + n }

/-- The bytes a due send takes (R153). -/
abbrev sendCount (d : DisplayIx) (s : State) : Nat :=
  min (sendLength d s) s.stream.recs[d].buffer.length

/-- The clip frame a due send sends (R153). -/
abbrev clipFrame (d : DisplayIx) (s : State) : PanelFrame :=
  let r := s.stream.recs[d]
  .clipData r.segmentNo
    (decide (s.air.features[r.feature].totalBytes ≤ r.bytesSent + sendCount d s)) r.bytesSent
    (r.buffer.take (sendCount d s))

/-- The state when a due send has taken its bytes (R153). -/
def bytesSent (d : DisplayIx) (s : State) : State :=
  withStream d (sentRec (sendCount d s)) (sendClip d (clipFrame d s) s)

theorem bytesSent_effect (d : DisplayIx) (s : State) :
    let r := s.stream.recs[d]
    let t := bytesSent d s
    StreamBecomes d (sentRec (sendCount d s) r) s t ∧
      t.stream.links = put s.stream.links d
        (clipHanded s.displays.recs[d].linkUp (clipFrame d s) s.stream.links[d]) ∧
      t.bus = s.bus ∧ t.air = s.air := by
  intro r t
  obtain ⟨links, recs, bus, air⟩ := sendClip_effect d (clipFrame d s) s
  have becomes := withStream_becomes d (sentRec (sendCount d s)) (sendClip d (clipFrame d s) s)
  rw [recs] at becomes
  exact ⟨becomes.congr recs rfl, links, bus, air⟩

theorem sendBytes_last
    (h : s.air.features[s.stream.recs[d].feature].totalBytes ≤
      s.stream.recs[d].bytesSent + sendCount d s) :
    sendBytes d s = endStream d .ended (bytesSent d s) := if_pos h

theorem sendBytes_more
    (h : s.stream.recs[d].bytesSent + sendCount d s <
      s.air.features[s.stream.recs[d].feature].totalBytes) :
    sendBytes d s = retestAt d (bytesSent d s) :=
  if_neg (Nat.not_le.mpr h)

/-- The last send of a clip ends its segment (R153). -/
theorem sendBytes_ends
    (h : s.air.features[s.stream.recs[d].feature].totalBytes ≤
      s.stream.recs[d].bytesSent + sendCount d s) :
    let r := s.stream.recs[d]
    let t := sendBytes d s
    StreamBecomes d (sentRec (sendCount d s) r).ended s t ∧
      t.stream.links = put s.stream.links d
        (clipHanded s.displays.recs[d].linkUp (clipFrame d s) s.stream.links[d]) ∧
      t.bus = segmentReports d r.segmentNo r.feature .ended s.bus := by
  intro r t
  obtain ⟨becomes, links, bus, -⟩ := bytesSent_effect d s
  obtain ⟨ended, reports, kept⟩ := endStream_effect d .ended (bytesSent d s)
  rw [becomes.record] at ended reports
  rw [bus] at reports
  have eq : t = _ := sendBytes_last h
  rw [eq]
  exact ⟨becomes.then ended, kept.trans links, reports⟩

/-- Any other send tests requesting again (R149, R153). -/
theorem sendBytes_goesOn
    (h : s.stream.recs[d].bytesSent + sendCount d s <
      s.air.features[s.stream.recs[d].feature].totalBytes) :
    let r := s.stream.recs[d]
    let t := sendBytes d s
    StreamBecomes d
        ((sentRec (sendCount d s) r).retest s.air.features[r.feature].totalBytes) s t ∧
      t.stream.links = put s.stream.links d
        (clipHanded s.displays.recs[d].linkUp (clipFrame d s) s.stream.links[d]) ∧
      t.bus = s.bus := by
  intro r t
  obtain ⟨becomes, links, bus, air⟩ := bytesSent_effect d s
  obtain ⟨retested, kept⟩ := retestAt_becomes becomes.record
  rw [air] at retested
  have eq : t = _ := sendBytes_more h
  rw [eq]
  exact ⟨becomes.then retested, links, kept.trans bus⟩

theorem sendBytes_links (d : DisplayIx) (s : State) :
    OtherStreamsStay d s (sendBytes d s) ∧
      (sendBytes d s).stream.links = put s.stream.links d
        (clipHanded s.displays.recs[d].linkUp (clipFrame d s) s.stream.links[d]) := by
  rcases Nat.lt_or_ge (s.stream.recs[d].bytesSent + sendCount d s)
    s.air.features[s.stream.recs[d].feature].totalBytes with more | last
  · obtain ⟨becomes, links, -⟩ := sendBytes_goesOn more
    exact ⟨becomes.others, links⟩
  · obtain ⟨becomes, links, -⟩ := sendBytes_ends last
    exact ⟨becomes.others, links⟩

/-- A send that is due (R153, R154). -/
theorem send_due (h : SendDue d s) :
    let r := s.stream.recs[d]
    let total := s.air.features[r.feature].totalBytes
    let n := sendCount d s
    ∃ t, exec (.send d) s = .next t ∧ OtherStreamsStay d s t ∧ OtherLinksStay d s t ∧
      (r.buffer = [] →
        t.stream.recs[d] = underrunRec s.clock.partSeconds r ∧
          t.stream.links[d] = clipHanded s.displays.recs[d].linkUp
            (.holdFrame r.segmentNo r.bytesSent) s.stream.links[d] ∧
          Raised .streamEngine ⟨.streamUnderrun, .display d.val, noCapture⟩ s t) ∧
      (r.buffer ≠ [] →
        (s.displays.recs[d].linkUp = true →
          t.stream.links[d] = { s.stream.links[d] with clip := some (clipFrame d s) }.kick) ∧
        (r.bytesSent + n < total →
          t.stream.recs[d] = (sentRec n r).retest total ∧ t.bus = s.bus) ∧
        (total ≤ r.bytesSent + n →
          t.stream.recs[d] = (sentRec n r).ended ∧
            t.bus = segmentReports d r.segmentNo r.feature .ended s.bus)) := by
  intro r total n
  by_cases empty : r.buffer = []
  · obtain ⟨becomes, links, raised⟩ := beginUnderrun_effect d s
    obtain ⟨-, bus', stream'⟩ := settleDisplay_displays s d (beginUnderrun d s)
    refine ⟨_, exec_send_underrun h empty, fun j hj => ?_, fun j hj => ?_, fun _ => ⟨?_, ?_, ?_⟩,
      absurd empty⟩
    · rw [stream']
      exact becomes.others j hj
    · rw [stream', links]
      exact put_other _ _ _ _ hj
    · rw [stream']
      exact becomes.record
    · rw [stream', links]
      exact put_same _ _ _
    · rw [Raised, bus']
      exact raised
  · obtain ⟨others, links⟩ := sendBytes_links d s
    obtain ⟨-, bus', stream'⟩ := settleDisplay_displays s d (sendBytes d s)
    refine ⟨_, exec_send_bytes h empty, fun j hj => ?_, fun j hj => ?_, fun h => absurd h empty,
      fun _ => ⟨fun up => ?_, fun more => ?_, fun last => ?_⟩⟩
    · rw [stream']
      exact others j hj
    · rw [stream', links]
      exact put_other _ _ _ _ hj
    · rw [stream', links]
      exact (put_same _ _ _).trans (if_pos up)
    · obtain ⟨becomes, -, bus⟩ := sendBytes_goesOn more
      rw [stream', bus']
      exact ⟨becomes.record, bus⟩
    · obtain ⟨becomes, -, bus⟩ := sendBytes_ends last
      rw [stream', bus']
      exact ⟨becomes.record, bus⟩

/-! ## Underrun limits and transmitters -/

theorem exec_underrunLimit (hu : s.stream.recs[d].inUnderrun = true)
    (hd : s.stream.recs[d].underrunDue = true) :
    exec (.underrunLimit d) s = .next (settleDisplay s d (endStream d .abandoned
      (raise .streamEngine .clipAbandoned (.display d.val) noCapture s))) :=
  congrArg Host.Outcome.next (if_pos (by rw [hu, hd]; rfl))

theorem exec_underrunLimit_none (hu : s.stream.recs[d].inUnderrun = false) :
    exec (.underrunLimit d) s = .next s :=
  congrArg Host.Outcome.next (if_neg (by rw [hu]; exact nofun))

/-- An underrun episode at its limit (R154). -/
theorem underrunLimit_taken (hu : s.stream.recs[d].inUnderrun = true)
    (hd : s.stream.recs[d].underrunDue = true) :
    ∃ t, exec (.underrunLimit d) s = .next t ∧ SegmentOver d .abandoned s t ∧
      Raised .streamEngine ⟨.clipAbandoned, .display d.val, noCapture⟩ s t := by
  obtain ⟨ended, raises⟩ := endStream_over (s := s) (d := d)
    (u := raise .streamEngine .clipAbandoned (.display d.val) noCapture s) .abandoned rfl rfl rfl
  obtain ⟨-, bus', stream'⟩ := settleDisplay_displays s d (endStream d .abandoned
    (raise .streamEngine .clipAbandoned (.display d.val) noCapture s))
  refine ⟨_, exec_underrunLimit hu hd, ended.congr stream' bus', ?_⟩
  rw [Raised, bus']
  exact raises

theorem exec_panelTxDone (d : DisplayIx) (s : State) :
    exec (.panelTxDone d) s = .next (withLink d (fun l => { l with tx := none }.kick) s) := rfl

theorem withLink_streams (d : DisplayIx) (g : PanelLink → PanelLink) (s : State) :
    (withLink d g s).stream.links = put s.stream.links d (g s.stream.links[d]) ∧
      (withLink d g s).stream.recs = s.stream.recs := ⟨rfl, rfl⟩

theorem kick_control {l : PanelLink} {f : PanelFrame} {more : List PanelFrame}
    (hc : l.control = f :: more) : { l with tx := none }.kick = { l with tx := some f, control := more } := by
  simp only [PanelLink.kick, hc]

theorem kick_clip {l : PanelLink} {f : PanelFrame} (hc : l.control = []) (hf : l.clip = some f) :
    { l with tx := none }.kick = { l with tx := some f, clip := none } := by
  simp only [PanelLink.kick, hc, hf]

theorem kick_none {l : PanelLink} (hc : l.control = []) (hf : l.clip = none) :
    { l with tx := none }.kick = { l with tx := none } := by
  simp only [PanelLink.kick, hc, hf]

/-- A transmitter that is done (R157). -/
theorem panelTxDone_taken (d : DisplayIx) (s : State) :
    ∃ t, exec (.panelTxDone d) s = .next t ∧ OtherLinksStay d s t ∧
      t.stream.recs = s.stream.recs ∧
      (∀ f more, s.stream.links[d].control = f :: more →
        t.stream.links[d] = { s.stream.links[d] with tx := some f, control := more }) ∧
      (∀ f, s.stream.links[d].control = [] → s.stream.links[d].clip = some f →
        t.stream.links[d] = { s.stream.links[d] with tx := some f, clip := none }) ∧
      (s.stream.links[d].control = [] → s.stream.links[d].clip = none →
        t.stream.links[d] = { s.stream.links[d] with tx := none }) := by
  obtain ⟨links, recs⟩ := withLink_streams d (fun l => { l with tx := none }.kick) s
  have link := (congrArg (·[d]) links).trans (put_same _ _ _)
  refine ⟨_, exec_panelTxDone d s, fun j hj => ?_, recs, fun f more hc => ?_, fun f hc hf => ?_,
    fun hc hf => ?_⟩
  · rw [links]
    exact put_other _ _ _ _ hj
  · exact link.trans (kick_control hc)
  · exact link.trans (kick_clip hc hf)
  · exact link.trans (kick_none hc hf)

end

/-- Settles O58, by the millisecond, the due send, the underrun's limit and the transmitter. -/
theorem sendsDrainTheBuffer : Obligations.SendsDrainTheBuffer := by
  intro s d r total rate size due
  refine ⟨?_, exec_send_notDue, fun hd => ?_, fun hu hl => ?_, exec_underrunLimit_none,
    panelTxDone_taken d s⟩
  · obtain ⟨t, answer, lfsr, record, win, features, desks⟩ := pacingMillisecond_effect d s
    obtain ⟨allowance, carry, buffer, sent, burst⟩ := msStream_fields rate r
    rw [← record] at allowance carry buffer sent burst
    exact ⟨t, answer, lfsr, allowance, carry, buffer, sent, win, burst, features, desks⟩
  · obtain ⟨t, answer, streams, links, underrun, sends⟩ := send_due hd
    refine ⟨t, answer, streams, links, underrun, fun some_left => ?_⟩
    obtain ⟨frame, more, last⟩ := sends some_left
    refine ⟨frame, fun goesOn => ?_, fun ends => ?_⟩
    · obtain ⟨record, bus⟩ := more goesOn
      rw [StreamRec.retest_eq] at record
      rw [record]
      refine ⟨rfl, rfl, rfl, bus, ?_⟩
      have running : r.phase ≠ .idle := by
        rw [show r.phase = _ from hd.1]
        decide
      simp only [sentRec, List.length_drop]
      exact if_congr (or_iff_right running) rfl rfl
    · obtain ⟨record, bus⟩ := last ends
      rw [record, bus]
      exact ⟨rfl, rfl, rfl, rfl, rfl, rfl⟩
  · obtain ⟨t, answer, ⟨becomes, endReports, releases⟩, raised⟩ := underrunLimit_taken hu hl
    exact ⟨t, answer, becomes.others, becomes.record, endReports, releases, raised⟩

end Sys2Proof.Machine

namespace Sys2Proof.Machine

section
variable {s : State}

/-! ## What the Show Table sends in a catch-up -/

/-- Between `s` and `t` the Show Table has sent `c` to the Lobby Clock and `a` to the Notice Arbiter, and
beside raises nothing else (R6, R17). -/
def Sends (c : List ClockRequest) (a : List ShowMsg) (s t : State) : Prop :=
  ∃ raises, t.bus = { s.bus with
    toClock := s.bus.toClock ++ c, toArbiter := s.bus.toArbiter ++ a, raises := raises }

theorem Sends.refl (s : State) : Sends [] [] s s :=
  ⟨s.bus.raises, by simp only [List.append_nil]⟩

theorem Sends.trans {c c' : List ClockRequest} {a a' : List ShowMsg} {t u : State}
    (h : Sends c a s t) (h' : Sends c' a' t u) : Sends (c ++ c') (a ++ a') s u := by
  obtain ⟨_, ht⟩ := h
  obtain ⟨raises, hu⟩ := h'
  refine ⟨raises, ?_⟩
  rw [hu, ht]
  simp only [List.append_assoc]

theorem Sends.toArbiter {c : List ClockRequest} {a : List ShowMsg} {t : State} (h : Sends c a s t) :
    t.bus.toArbiter = s.bus.toArbiter ++ a := by
  obtain ⟨_, ht⟩ := h
  rw [ht]

theorem Sends.toClock {c : List ClockRequest} {a : List ShowMsg} {t : State} (h : Sends c a s t) :
    t.bus.toClock = s.bus.toClock ++ c := by
  obtain ⟨_, ht⟩ := h
  rw [ht]

theorem Sends.kept {c : List ClockRequest} {a : List ShowMsg} {t : State} (h : Sends c a s t) :
    t.bus.fromClock = s.bus.fromClock ∧ t.bus.showReports = s.bus.showReports := by
  obtain ⟨_, ht⟩ := h
  rw [ht]
  exact ⟨rfl, rfl⟩

theorem closeShow_sends (i : ShowIx) (prev : Band) (reason : NoticeEnd) (s : State) :
    Sends [] (closingMsgs reason i s.shows.recs[i]) s (closeShow i prev reason s) := by
  obtain ⟨-, -, -, -, arbiter, bus⟩ := closeShow_effect i prev reason s
  refine ⟨(closeShow i prev reason s).bus.raises, ?_⟩
  have clock := congrArg Bus.toClock bus
  rw [List.append_nil, ← arbiter, ← bus]

theorem sendClock_sends (q : ClockRequest) (s : State) : Sends [q] [] s (sendClock q s) := by
  refine ⟨s.bus.raises, ?_⟩
  rw [List.append_nil]
  rfl

/-! ## One transition -/

variable {e : DueEntry} {time : Nat}

/-- The DOORS_OPEN request of a transition (R7, R18). -/
def doorsAt (e : DueEntry) (time : Nat) (c : ShowSettings) (sh : ShowRec) : List ShowMsg :=
  if e.fromState = .selling ∧ sh.flags.autoDoors = true ∧ sh.state ≠ .halted ∧
      0 < sh.seatingLead - (time - e.due) then
    [.auto (cardPost c .doorsOpen e.showIx sh (sh.seatingLead - (time - e.due)))]
  else []

theorem requestDoors_effect (e : DueEntry) (time : Nat) (s : State) :
    (requestDoors e time s).shows = s.shows ∧
      Sends [] (doorsAt e time s.shows.cfg s.shows.recs[e.showIx]) s (requestDoors e time s) := by
  unfold requestDoors doorsAt
  dsimp only
  split
  · refine ⟨rfl, s.bus.raises, ?_⟩
    rw [← autoPost_eq_cardPost, List.append_nil]
    rfl
  · exact ⟨rfl, .refl s⟩

/-- A record whose state moved keeps what the clock and a card read of it. -/
theorem movedTo_fields (st : ShowState) (sh : ShowRec) :
    (movedTo st sh).saleOpen = sh.saleOpen ∧ (movedTo st sh).start = sh.start ∧
      (movedTo st sh).seatingLead = sh.seatingLead ∧ (movedTo st sh).lateWindow = sh.lateWindow ∧
      (movedTo st sh).flags = sh.flags ∧ (movedTo st sh).target = sh.target := by
  unfold movedTo
  split <;> exact ⟨rfl, rfl, rfl, rfl, rfl, rfl⟩

theorem movedTo_halted {st : ShowState} (h : st ≠ .halted) (sh : ShowRec) :
    (movedTo st sh).state = .halted ↔ sh.state = .halted := by
  unfold movedTo
  split
  · simp only
  · rename_i free
    exact ⟨fun hh => absurd hh h, fun hh => absurd hh free⟩

theorem dueTime_congr {a b : ShowRec} (h1 : a.saleOpen = b.saleOpen) (h2 : a.start = b.start)
    (h3 : a.seatingLead = b.seatingLead) (h4 : a.lateWindow = b.lateWindow) (st : ShowState) :
    dueTime a st = dueTime b st := by
  cases st <;> simp [dueTime, seatingTime, closeTime, h1, h2, h3, h4]

theorem dueTime_movedTo (st : ShowState) (sh : ShowRec) (st' : ShowState) :
    dueTime (movedTo st sh) st' = dueTime sh st' := by
  obtain ⟨h1, h2, h3, h4, -⟩ := movedTo_fields st sh
  exact dueTime_congr h1 h2 h3 h4 st'

theorem doorsAt_movedTo {st : ShowState} (h : st ≠ .halted) (e : DueEntry) (time : Nat)
    (c : ShowSettings) (sh : ShowRec) : doorsAt e time c (movedTo st sh) = doorsAt e time c sh := by
  obtain ⟨-, -, lead, -, flags, target⟩ := movedTo_fields st sh
  unfold doorsAt
  rw [lead, flags, cardPost_congr .doorsOpen e.showIx _ rfl target]
  simp only [ne_eq, movedTo_halted h]

theorem nextState_ne_halted (st : ShowState) : nextState st ≠ .halted := by
  rcases nextState_cases st with h | h | h | h <;> rw [h] <;> decide

theorem perform_open {st : ShowState} {due : Nat} (hst : nextState e.fromState = st)
    (ho : st ≠ .closed) (hd : dueTime (movedTo st s.shows.recs[e.showIx]) st = some due) :
    let u := requestDoors e time (setShow e.showIx (movedTo st s.shows.recs[e.showIx]) s)
    perform e time s =
      if due ≤ time then (u, [⟨e.showIx, st, due⟩])
      else (sendClock (.schedule ⟨e.showIx, st, due⟩) u, []) := by
  intro u
  have open_ : st = .selling ∨ st = .seating ∨ st = .running ∨ st = .closed :=
    hst ▸ nextState_cases e.fromState
  rcases open_ with rfl | rfl | rfl | rfl
  case inr.inr.inr => exact absurd rfl ho
  all_goals
    simp only [perform, hst, ite_halted_eq_movedTo, hd]
    rfl

/-- A transition that leads to no closing (R6, R7). -/
theorem perform_opens {due : Nat} (ho : nextState e.fromState ≠ .closed)
    (hd : dueTime s.shows.recs[e.showIx] (nextState e.fromState) = some due) :
    let sh := s.shows.recs[e.showIx]
    let st := nextState e.fromState
    let r := perform e time s
    r.2 = (if due ≤ time then [⟨e.showIx, st, due⟩] else []) ∧
      r.1.shows = { s.shows with recs := put s.shows.recs e.showIx (movedTo st sh) } ∧
      Sends (if due ≤ time then [] else [.schedule ⟨e.showIx, st, due⟩])
        (doorsAt e time s.shows.cfg sh) s r.1 := by
  intro sh st r
  obtain ⟨shows, sent⟩ := requestDoors_effect e time (setShow e.showIx (movedTo st sh) s)
  have doors : doorsAt e time (setShow e.showIx (movedTo st sh) s).shows.cfg
      (setShow e.showIx (movedTo st sh) s).shows.recs[e.showIx] =
      doorsAt e time s.shows.cfg sh := by
    rw [setShow_recs, put_same]
    exact doorsAt_movedTo (nextState_ne_halted _) e time s.shows.cfg sh
  rw [doors] at sent
  have performed : r = _ := perform_open rfl ho ((dueTime_movedTo _ _ _).trans hd)
  rw [performed]
  by_cases past : due ≤ time
  · simp only [if_pos past]
    exact ⟨rfl, shows, sent⟩
  · simp only [if_neg past]
    refine ⟨trivial, shows, ?_⟩
    have scheduled := sent.trans (sendClock_sends (.schedule ⟨e.showIx, st, due⟩) _)
    rw [List.append_nil, List.nil_append] at scheduled
    exact scheduled

/-- The record of a show at the end of its last transition (R7). -/
abbrev closedRec (sh : ShowRec) : ShowRec := { sh with state := .closed, savedState := none }

/-- A transition out of RUNNING closes the show (R7, R17). -/
theorem perform_closes (hc : nextState e.fromState = .closed) :
    let sh := s.shows.recs[e.showIx]
    let r := perform e time s
    r.2 = [] ∧ ClosedAs (closedRec sh) .showClosed e.showIx [] [] s r.1 ∧
      OtherShowsStay e.showIx s r.1 ∧ r.1.shows.cfg = s.shows.cfg ∧
      Sends [] (closingMsgs .showClosed e.showIx (closedRec sh)) s r.1 := by
  intro sh r
  have performed : r = (closeShow e.showIx sh.band .showClosed
      (setShow e.showIx (closedRec sh) s), []) := by
    simp only [r, perform]
    split
    case h_1 => rfl
    case h_2 opens => exact absurd hc opens
  obtain ⟨closed, others, cfg⟩ := closeShow_closedAs (i := e.showIx) (now := closedRec sh)
    (reason := .showClosed) (t := setShow e.showIx (closedRec sh) s) rfl rfl
  have sent := closeShow_sends e.showIx sh.band .showClosed (setShow e.showIx (closedRec sh) s)
  rw [setShow_recs, put_same] at sent
  rw [performed]
  exact ⟨rfl, closed, others, cfg, sent⟩

end

end Sys2Proof.Machine

namespace Sys2Proof.Machine

/-! ## The states a show passes -/

/-- How many transitions the clock may still take a show through from a state (R7). -/
def transitionsLeft : ShowState → Nat
  | .waiting => 4
  | .selling => 3
  | .seating => 2
  | .running => 1
  | _ => 0

theorem dueTime_of_transitionsLeft_zero {st : ShowState} (h : transitionsLeft st = 0) (sh : ShowRec) :
    dueTime sh st = none := by
  cases st <;> simp [transitionsLeft, dueTime] at h ⊢

theorem transitionsLeft_nextState {sh : ShowRec} {st : ShowState} {due : Nat}
    (h : dueTime sh st = some due) :
    transitionsLeft (nextState st) + 1 = transitionsLeft st := by
  cases st <;> simp [transitionsLeft, nextState, dueTime] at h ⊢

theorem statesPassed_past {sh : ShowRec} {time due n : Nat} {st : ShowState}
    (hd : dueTime sh st = some due) (h : due ≤ time) :
    statesPassed sh time (n + 1) st = nextState st :: statesPassed sh time n (nextState st) := by
  simp only [statesPassed, hd, if_pos h]

theorem statesPassed_ahead {sh : ShowRec} {time due : Nat} {st : ShowState} (n : Nat)
    (hd : dueTime sh st = some due) (h : time < due) : statesPassed sh time n st = [] := by
  cases n with
  | zero => rfl
  | succ n => simp only [statesPassed, hd, if_neg (Nat.not_le.mpr h)]

theorem statesPassed_none {sh : ShowRec} {time : Nat} {st : ShowState} (n : Nat)
    (hd : dueTime sh st = none) : statesPassed sh time n st = [] := by
  cases n with
  | zero => rfl
  | succ n => simp only [statesPassed, hd]

/-- As many states are looked for as the clock has transitions left. -/
theorem statesPassed_enough (sh : ShowRec) (time : Nat) {n : Nat} {st : ShowState}
    (h : transitionsLeft st ≤ n) :
    statesPassed sh time (n + 1) st = statesPassed sh time n st := by
  induction n generalizing st with
  | zero =>
    rw [statesPassed_none 1 (dueTime_of_transitionsLeft_zero (Nat.le_zero.mp h) sh)]
    rfl
  | succ n ih =>
    cases hd : dueTime sh st with
    | none => rw [statesPassed_none _ hd, statesPassed_none _ hd]
    | some due =>
      rcases Nat.lt_or_ge time due with ahead | past
      · rw [statesPassed_ahead _ hd ahead, statesPassed_ahead _ hd ahead]
      · have left := transitionsLeft_nextState hd
        rw [statesPassed_past hd past, statesPassed_past hd past, ih (by omega)]

/-- The states a show passes: the next, and those it passes from there. -/
theorem statesPassed_next {sh : ShowRec} {time due : Nat} {st : ShowState}
    (hd : dueTime sh st = some due) (h : due ≤ time) :
    statesPassed sh time 4 st = nextState st :: statesPassed sh time 4 (nextState st) := by
  have left := transitionsLeft_nextState hd
  have most : transitionsLeft st ≤ 4 := by cases st <;> simp [transitionsLeft]
  have same : statesPassed sh time 4 (nextState st) = statesPassed sh time 3 (nextState st) :=
    statesPassed_enough sh time (by omega)
  rw [same]
  exact statesPassed_past hd h

theorem statesPassed_congr {a b : ShowRec} (h : ∀ st, dueTime a st = dueTime b st) (time n : Nat)
    (st : ShowState) : statesPassed a time n st = statesPassed b time n st := by
  induction n generalizing st with
  | zero => rfl
  | succ n ih => simp only [statesPassed, h, ih]

theorem statesPassed_movedTo (st : ShowState) (sh : ShowRec) (time n : Nat) (st' : ShowState) :
    statesPassed (movedTo st sh) time n st' = statesPassed sh time n st' :=
  statesPassed_congr (dueTime_movedTo st sh) time n st'

theorem movedTo_movedTo {st st' : ShowState} (h : st ≠ .halted) (sh : ShowRec) :
    movedTo st' (movedTo st sh) = movedTo st' sh := by
  by_cases halted : sh.state = .halted
  · have still := (movedTo_halted h sh).mpr halted
    rw [movedTo, if_pos still]
    simp only [movedTo, if_pos halted]
  · have free := mt (movedTo_halted h sh).mp halted
    rw [movedTo, if_neg free]
    simp only [movedTo, if_neg halted]

/-! ## What a catch-up makes of one show -/

/-- The state a show has reached when a catch-up has taken all that its entry `e` leads to (R6). -/
def reached (time : Nat) (e : DueEntry) (sh : ShowRec) : ShowState :=
  (statesPassed sh time 4 e.fromState).getLast?.getD e.fromState

/-- The show of the current entry `e`, whose record was `sh`, when a catch-up has ended at `t` (R6, R7). -/
def Fate (time : Nat) (e : DueEntry) (sh : ShowRec) (t : State) : Prop :=
  (reached time e sh ≠ .closed →
    t.shows.recs[e.showIx] = movedTo (reached time e sh) sh ∧
      ∀ due, dueTime sh (reached time e sh) = some due →
        ClockRequest.schedule ⟨e.showIx, reached time e sh, due⟩ ∈ t.bus.toClock) ∧
  (reached time e sh = .closed →
    t.shows.recs[e.showIx].state = .closed ∧ t.shows.recs[e.showIx].savedState = none ∧
      ShowMsg.closure e.showIx .showClosed ∈ t.bus.toArbiter)

theorem caughtUp_iff {time : Nat} {q : List DueEntry} {s t : State} :
    CaughtUp time q s t ↔
      (∀ i : ShowIx, (∀ e ∈ q, e.showIx = i → isCurrent s.shows.recs[i] e = false) →
        t.shows.recs[i] = s.shows.recs[i]) ∧
      ∀ e ∈ q, isCurrent s.shows.recs[e.showIx] e = true → Fate time e s.shows.recs[e.showIx] t := by
  constructor
  · intro h
    exact ⟨fun i => (h i).1, fun e he => (h e.showIx).2 e he rfl⟩
  · rintro ⟨stays, moves⟩ i
    refine ⟨stays i, fun e he hi => ?_⟩
    subst hi
    exact moves e he

theorem isCurrent_iff {sh : ShowRec} {e : DueEntry} :
    isCurrent sh e = true ↔ clockState sh = e.fromState ∧ dueTime sh e.fromState = some e.due := by
  simp [isCurrent]

theorem clockState_movedTo {st : ShowState} (h : st ≠ .halted) (sh : ShowRec) :
    clockState (movedTo st sh) = st := by
  unfold clockState
  by_cases halted : sh.state = .halted
  · rw [if_pos ((movedTo_halted h sh).mpr halted)]
    simp [movedTo, halted]
  · rw [if_neg (mt (movedTo_halted h sh).mp halted)]
    simp [movedTo, halted]

section
variable {time : Nat} {e : DueEntry} {sh : ShowRec} {t : State}

theorem reached_next (hc : isCurrent sh e = true) (hd : e.due ≤ time) (due : Nat) :
    reached time e sh =
      reached time ⟨e.showIx, nextState e.fromState, due⟩ (movedTo (nextState e.fromState) sh) := by
  unfold reached
  rw [statesPassed_next (isCurrent_iff.mp hc).2 hd, statesPassed_movedTo, List.getLast?_cons]
  rfl

/-- A show with its next transition due too: what that leads to is its fate. -/
theorem Fate.next {due : Nat} (hc : isCurrent sh e = true) (hd : e.due ≤ time)
    (h : Fate time ⟨e.showIx, nextState e.fromState, due⟩ (movedTo (nextState e.fromState) sh) t) :
    Fate time e sh t := by
  unfold Fate at *
  rw [← reached_next hc hd due, movedTo_movedTo (nextState_ne_halted _)] at h
  simp only [dueTime_movedTo] at h
  exact h

/-- A show with its next transition still to come. -/
theorem Fate.scheduled {due : Nat} (hc : isCurrent sh e = true) (hd : e.due ≤ time)
    (ho : nextState e.fromState ≠ .closed) (hn : dueTime sh (nextState e.fromState) = some due)
    (ahead : time < due)
    (hr : t.shows.recs[e.showIx] = movedTo (nextState e.fromState) sh)
    (hs : ClockRequest.schedule ⟨e.showIx, nextState e.fromState, due⟩ ∈ t.bus.toClock) :
    Fate time e sh t := by
  have there : reached time e sh = nextState e.fromState := by
    unfold reached
    rw [statesPassed_next (isCurrent_iff.mp hc).2 hd, statesPassed_ahead 4 hn ahead]
    rfl
  unfold Fate
  rw [there]
  refine ⟨fun _ => ⟨hr, fun due' hdue => ?_⟩, fun h => absurd h ho⟩
  rw [hn] at hdue
  cases hdue
  exact hs

theorem reached_closed (hc : isCurrent sh e = true) (hd : e.due ≤ time)
    (hn : nextState e.fromState = .closed) : reached time e sh = .closed := by
  unfold reached
  rw [statesPassed_next (isCurrent_iff.mp hc).2 hd, hn, statesPassed_none 4 rfl]
  rfl

/-- A show at its last transition. -/
theorem Fate.closed (hc : isCurrent sh e = true) (hd : e.due ≤ time)
    (hn : nextState e.fromState = .closed)
    (h : t.shows.recs[e.showIx].state = .closed ∧ t.shows.recs[e.showIx].savedState = none ∧
      ShowMsg.closure e.showIx .showClosed ∈ t.bus.toArbiter) : Fate time e sh t :=
  ⟨fun h' => absurd (reached_closed hc hd hn) h', fun _ => h⟩

/-- A current transition that leads to no closing has another behind it (R7). -/
theorem dueTime_nextState (hc : isCurrent sh e = true) (ho : nextState e.fromState ≠ .closed) :
    ∃ due, dueTime sh (nextState e.fromState) = some due := by
  have hd := (isCurrent_iff.mp hc).2
  cases hf : e.fromState <;> rw [hf] at hd ho <;> simp [nextState, dueTime] at hd ho ⊢

end

/-! ## The earliest entry -/

theorem earliest_none {q : List DueEntry} (h : earliest q = none) : q = [] := by
  cases q with
  | nil => rfl
  | cons e rest =>
    rw [earliest] at h
    split at h
    · exact absurd h nofun
    · split at h <;> exact absurd h nofun

theorem earliest_perm {q others : List DueEntry} {e : DueEntry} (h : earliest q = some (e, others)) :
    (e :: others).Perm q := by
  induction q generalizing e others with
  | nil => exact absurd h nofun
  | cons x rest ih =>
    rw [earliest] at h
    split at h
    case h_1 none_left =>
      cases h
      rw [earliest_none none_left]
    case h_2 b left hb =>
      split at h
      · simp only [Option.some.injEq, Prod.mk.injEq] at h
        obtain ⟨rfl, rfl⟩ := h
        exact (List.Perm.swap x b left).trans ((ih hb).cons x)
      · simp only [Option.some.injEq, Prod.mk.injEq] at h
        obtain ⟨rfl, rfl⟩ := h
        exact (ih hb).cons x

end Sys2Proof.Machine

namespace Sys2Proof.Machine

section
variable {s : State} {time : Nat}

/-- The transitions that one entry of a catch-up leads to (R5). -/
def transitionsFrom (time : Nat) (s : State) (e : DueEntry) : Nat :=
  if isCurrent s.shows.recs[e.showIx] e then
    (statesPassed s.shows.recs[e.showIx] time 4 e.fromState).length
  else 0

theorem transitionsOf_eq (time : Nat) (q : List DueEntry) (s : State) :
    transitionsOf time q s = (q.map (transitionsFrom time s)).sum := rfl

theorem transitionsFrom_congr {t : State} {e : DueEntry}
    (h : t.shows.recs[e.showIx] = s.shows.recs[e.showIx]) :
    transitionsFrom time t e = transitionsFrom time s e := by
  rw [transitionsFrom, h]
  rfl

theorem transitionsFrom_current {e : DueEntry} (hc : isCurrent s.shows.recs[e.showIx] e = true)
    (hd : e.due ≤ time) : transitionsFrom time s e =
      1 + (statesPassed s.shows.recs[e.showIx] time 4 (nextState e.fromState)).length := by
  rw [transitionsFrom, if_pos hc, statesPassed_next (isCurrent_iff.mp hc).2 hd, List.length_cons,
    Nat.add_comm]

/-- A bound on the rounds that a catch-up takes over its entries (R6). -/
def rounds (q : List DueEntry) : Nat := (q.map fun e => 1 + transitionsLeft e.fromState).sum

/-- What a catch-up's transitions come to (R5, R6). -/
structure RunDone (time : Nat) (q : List DueEntry) (n : Nat) (s : State) (r : State × Nat) : Prop where
  caught : CaughtUp time q s r.1
  count : r.2 = n + (q.map (transitionsFrom time s)).sum
  sends : ∃ c a, Sends c a s r.1

theorem RunDone.perm {q q' : List DueEntry} {n : Nat} {r : State × Nat} (h : RunDone time q n s r)
    (hq : q.Perm q') : RunDone time q' n s r := by
  obtain ⟨caught, count, sends⟩ := h
  obtain ⟨stays, moves⟩ := caughtUp_iff.mp caught
  refine ⟨caughtUp_iff.mpr ⟨fun i hi => stays i fun e he => hi e (hq.mem_iff.mp he),
    fun e he => moves e (hq.mem_iff.mpr he)⟩, ?_, sends⟩
  rw [count, (hq.map _).sum_eq]

/-- A run goes on past an entry that is no longer current. -/
theorem RunDone.discard {e : DueEntry} {others : List DueEntry} {n : Nat} {r : State × Nat}
    (hc : isCurrent s.shows.recs[e.showIx] e = false) (h : RunDone time others n s r) :
    RunDone time (e :: others) n s r := by
  obtain ⟨caught, count, sends⟩ := h
  obtain ⟨stays, moves⟩ := caughtUp_iff.mp caught
  refine ⟨caughtUp_iff.mpr ⟨fun i hi => stays i fun x hx => hi x (List.mem_cons_of_mem _ hx),
    fun x hx hcur => ?_⟩, ?_, sends⟩
  · rcases List.mem_cons.mp hx with rfl | hx
    · rw [hc] at hcur
      exact absurd hcur nofun
    · exact moves x hx hcur
  · rw [count, List.map_cons, List.sum_cons, transitionsFrom, hc]
    simp

/-- A run goes on past a current entry: the transition performed changes that show alone, and what is then
pending for the show, `new`, leads to the show's fate. -/
theorem RunDone.performed {e : DueEntry} {new others : List DueEntry} {n : Nat} {u : State}
    {r : State × Nat} {c : List ClockRequest} {a : List ShowMsg}
    (hc : isCurrent s.shows.recs[e.showIx] e = true)
    (hn : ∀ x ∈ others, x.showIx ≠ e.showIx) (hnew : ∀ x ∈ new, x.showIx = e.showIx)
    (hu : OtherShowsStay e.showIx s u) (hs : Sends c a s u)
    (count : transitionsFrom time s e = 1 + (new.map (transitionsFrom time u)).sum)
    (fate : CaughtUp time (new ++ others) u r.1 → (∃ c a, Sends c a u r.1) →
      Fate time e s.shows.recs[e.showIx] r.1)
    (h : RunDone time (new ++ others) (n + 1) u r) : RunDone time (e :: others) n s r := by
  obtain ⟨caught, total, sends⟩ := h
  obtain ⟨stays, moves⟩ := caughtUp_iff.mp caught
  have same : ∀ x ∈ others, u.shows.recs[x.showIx] = s.shows.recs[x.showIx] :=
    fun x hx => hu x.showIx (hn x hx)
  refine ⟨caughtUp_iff.mpr ⟨fun i hi => ?_, fun x hx hcur => ?_⟩, ?_, ?_⟩
  · have aside : i ≠ e.showIx := by
      rintro rfl
      have := hi e (List.mem_cons_self ..) rfl
      rw [hc] at this
      exact absurd this nofun
    refine (stays i fun x hx hxi => ?_).trans (hu i aside)
    rw [hu i aside]
    rcases List.mem_append.mp hx with hx | hx
    · exact absurd (hxi.symm.trans (hnew x hx)) aside
    · exact hi x (List.mem_cons_of_mem _ hx) hxi
  · rcases List.mem_cons.mp hx with rfl | hx
    · exact fate caught sends
    · have moved := moves x (List.mem_append_right _ hx)
      rw [same x hx] at moved
      exact moved hcur
  · have later : others.map (transitionsFrom time u) = others.map (transitionsFrom time s) :=
      List.map_congr_left fun x hx => transitionsFrom_congr (same x hx)
    rw [total, List.map_append, List.sum_append, later, List.map_cons, List.sum_cons, count]
    omega
  · obtain ⟨c', a', hs'⟩ := sends
    exact ⟨_, _, hs.trans hs'⟩

/-- The run past a transition that closes its show. -/
theorem RunDone.closes {e : DueEntry} {others : List DueEntry} {n : Nat} {r : State × Nat}
    (hc : isCurrent s.shows.recs[e.showIx] e = true) (hd : e.due ≤ time)
    (hx : nextState e.fromState = .closed) (hn : ∀ x ∈ others, x.showIx ≠ e.showIx)
    (h : RunDone time ((perform e time s).2 ++ others) (n + 1) (perform e time s).1 r) :
    RunDone time (e :: others) n s r := by
  obtain ⟨none_new, closed, stay, -, sent⟩ := perform_closes (s := s) (time := time) hx
  rw [none_new] at h
  refine h.performed hc hn (by simp) stay sent ?_ fun caught ⟨c, a, sends⟩ => ?_
  · rw [transitionsFrom_current hc hd, hx, statesPassed_none 4 rfl]
    rfl
  · refine .closed hc hd hx ?_
    have kept := (caughtUp_iff.mp caught).1 e.showIx fun x hx' hi => absurd hi (hn x hx')
    obtain ⟨-, record, -⟩ := closed
    rw [kept, record, sends.toArbiter, sent.toArbiter]
    exact ⟨rfl, rfl, by simp [closingMsgs]⟩

/-- The run past a transition that leaves its show open. -/
theorem RunDone.opens {e : DueEntry} {others : List DueEntry} {n : Nat} {r : State × Nat}
    (hc : isCurrent s.shows.recs[e.showIx] e = true) (hd : e.due ≤ time)
    (ho : nextState e.fromState ≠ .closed) (hn : ∀ x ∈ others, x.showIx ≠ e.showIx)
    (h : RunDone time ((perform e time s).2 ++ others) (n + 1) (perform e time s).1 r) :
    RunDone time (e :: others) n s r := by
  obtain ⟨due, hdue⟩ := dueTime_nextState hc ho
  obtain ⟨new, shows, sent⟩ := perform_opens (s := s) (time := time) ho hdue
  have record : (perform e time s).1.shows.recs[e.showIx] =
      movedTo (nextState e.fromState) s.shows.recs[e.showIx] := by
    rw [shows]
    exact put_same _ _ _
  have stay : OtherShowsStay e.showIx s (perform e time s).1 := by
    intro j hj
    rw [shows]
    exact put_other _ _ _ _ hj
  rcases Nat.lt_or_ge time due with ahead | past
  · rw [if_neg (Nat.not_le.mpr ahead)] at new sent
    rw [new] at h
    refine h.performed hc hn (by simp) stay sent ?_ fun caught ⟨c, a, sends⟩ => ?_
    · rw [transitionsFrom_current hc hd, statesPassed_ahead 4 hdue ahead]
      rfl
    · have kept := (caughtUp_iff.mp caught).1 e.showIx fun x hx hi => absurd hi (hn x hx)
      refine .scheduled hc hd ho hdue ahead (kept.trans record) ?_
      rw [sends.toClock, sent.toClock]
      simp
  · rw [if_pos past] at new sent
    rw [new] at h
    have current : isCurrent (movedTo (nextState e.fromState) s.shows.recs[e.showIx])
        ⟨e.showIx, nextState e.fromState, due⟩ = true :=
      isCurrent_iff.mpr ⟨clockState_movedTo (nextState_ne_halted _) _,
        (dueTime_movedTo _ _ _).trans hdue⟩
    refine h.performed hc hn (fun x hx => ?_) stay sent ?_ fun caught _ => ?_
    · rw [List.mem_singleton.mp hx]
    · rw [transitionsFrom_current hc hd]
      simp only [List.map_cons, List.map_nil, List.sum_cons, List.sum_nil, transitionsFrom, record,
        if_pos current, statesPassed_movedTo, Nat.add_zero]
    · have moved := (caughtUp_iff.mp caught).2 ⟨e.showIx, nextState e.fromState, due⟩
        (List.mem_append_left _ (List.mem_cons_self ..))
      rw [record] at moved
      exact .next hc hd (moved current)

/-- What a transition leaves pending is due, of the show it moved, and needs fewer rounds. -/
theorem perform_pending {e : DueEntry} (hc : isCurrent s.shows.recs[e.showIx] e = true) :
    (∀ x ∈ (perform e time s).2, x.showIx = e.showIx ∧ x.due ≤ time) ∧
      ((perform e time s).2.map (·.showIx)).Nodup ∧
      rounds (perform e time s).2 ≤ transitionsLeft e.fromState := by
  have left := transitionsLeft_nextState (isCurrent_iff.mp hc).2
  by_cases hx : nextState e.fromState = .closed
  · obtain ⟨new, -⟩ := perform_closes (s := s) (time := time) hx
    rw [new]
    exact ⟨nofun, List.nodup_nil, Nat.zero_le _⟩
  · obtain ⟨due, hdue⟩ := dueTime_nextState hc hx
    obtain ⟨new, -⟩ := perform_opens (s := s) (time := time) hx hdue
    rw [new]
    by_cases past : due ≤ time
    · rw [if_pos past]
      simp only [List.mem_singleton, forall_eq, List.map_cons, List.map_nil, rounds, List.sum_cons,
        List.sum_nil]
      exact ⟨⟨trivial, past⟩, List.nodup_singleton _, by omega⟩
    · rw [if_neg past]
      exact ⟨nofun, List.nodup_nil, Nat.zero_le _⟩

/-- The transitions of a catch-up, as many rounds as its entries need (R6). -/
theorem catchUpLoop_done (fuel : Nat) (q : List DueEntry) (n : Nat) (s : State)
    (hq : (q.map (·.showIx)).Nodup) (hdue : ∀ e ∈ q, e.due ≤ time) (hf : rounds q ≤ fuel) :
    RunDone time q n s (catchUpLoop fuel time q n s) := by
  have nothing (n : Nat) (s : State) : RunDone time [] n s (s, n) :=
    ⟨caughtUp_iff.mpr ⟨fun _ _ => rfl, nofun⟩, rfl, [], [], .refl s⟩
  induction fuel generalizing q n s with
  | zero =>
    cases q with
    | nil => exact nothing n s
    | cons e rest =>
      rw [rounds, List.map_cons, List.sum_cons] at hf
      omega
  | succ fuel ih =>
    rw [catchUpLoop]
    split
    case h_1 none_left =>
      rw [earliest_none none_left]
      exact nothing n s
    case h_2 e others first =>
      have perm := earliest_perm first
      have heq : rounds q = 1 + transitionsLeft e.fromState + rounds others := by
        unfold rounds
        rw [← (perm.map _).sum_eq, List.map_cons, List.sum_cons]
      have nodup := (perm.map (·.showIx)).nodup_iff.mpr hq
      rw [List.map_cons, List.nodup_cons] at nodup
      obtain ⟨alone, nodup⟩ := nodup
      have apart : ∀ x ∈ others, x.showIx ≠ e.showIx := fun x hx hxe =>
        alone (hxe ▸ List.mem_map_of_mem hx)
      have due : e.due ≤ time := hdue e (perm.mem_iff.mp (List.mem_cons_self ..))
      have dues : ∀ x ∈ others, x.due ≤ time := fun x hx =>
        hdue x (perm.mem_iff.mp (List.mem_cons_of_mem _ hx))
      refine RunDone.perm ?_ perm
      split
      case isFalse stale =>
        exact (ih others n s nodup dues (by omega)).discard (Bool.eq_false_iff.mpr stale)
      case isTrue current =>
        obtain ⟨pending, single, fewer⟩ := perform_pending (time := time) current
        have done := ih ((perform e time s).2 ++ others) (n + 1) (perform e time s).1
          (by
            rw [List.map_append, List.nodup_append]
            refine ⟨single, nodup, ?_⟩
            intro i hi j hj same
            obtain ⟨x, hx, rfl⟩ := List.mem_map.mp hi
            obtain ⟨y, hy, rfl⟩ := List.mem_map.mp hj
            exact apart y hy (same.symm.trans (pending x hx).1))
          (fun x hx => (List.mem_append.mp hx).elim (fun hx => (pending x hx).2) (dues x))
          (by
            have sum : rounds ((perform e time s).2 ++ others) =
                rounds (perform e time s).2 + rounds others := by
              unfold rounds
              rw [List.map_append, List.sum_append]
            omega)
        by_cases hx : nextState e.fromState = .closed
        · exact done.closes current due hx apart
        · exact done.opens current due hx apart

end

end Sys2Proof.Machine

namespace Sys2Proof.Machine

section
variable {s : State} {time : Nat}

/-! ## The end of a catch-up -/

/-- The report of show `i` at the end of an event that found its record as `before` (R19). -/
def reportOf (fields : ShowRec → ShowRec → List ReportField) (i : ShowIx) (before now : ShowRec) :
    List ShowReport :=
  if now = before ∨ fields before now = [] then []
  else [⟨i, fields before now, now.state == .empty⟩]

theorem foldl_commitShowAs_reports (fields : ShowRec → ShowRec → List ReportField)
    (before : Vector ShowRec 64) (l : List ShowIx) (s : State) :
    (l.foldl (fun s i => commitShowAs fields i before[i] s) s).bus.showReports =
      s.bus.showReports ++ l.flatMap fun i => reportOf fields i before[i] s.shows.recs[i] := by
  induction l generalizing s with
  | nil => simp
  | cons i l ih =>
    have kept : (commitShowAs fields i before[i] s).shows = s.shows := by simp
    rw [List.foldl_cons, ih, commitShowAs_reports, kept, List.flatMap_cons, List.append_assoc]
    rfl

theorem commitShows_reports (fields : ShowRec → ShowRec → List ReportField)
    (before : Vector ShowRec 64) (s : State) :
    (commitShows fields before s).bus.showReports = s.bus.showReports ++
      (List.finRange 64).flatMap fun i => reportOf fields i before[i] s.shows.recs[i] := by
  unfold commitShows
  generalize List.finRange 64 = l
  exact foldl_commitShowAs_reports fields before l s

theorem filter_reportOf (fields : ShowRec → ShowRec → List ReportField)
    (before now : Vector ShowRec 64) (i : ShowIx) {l : List ShowIx} (hl : l.Nodup) :
    (l.flatMap fun j => reportOf fields j before[j] now[j]).filter (·.showIx == i) =
      if i ∈ l then reportOf fields i before[i] now[i] else [] := by
  have own (j : ShowIx) : (reportOf fields j before[j] now[j]).filter (·.showIx == i) =
      if j = i then reportOf fields j before[j] now[j] else [] := by
    unfold reportOf
    by_cases hj : j = i
    · rw [if_pos hj]
      split
      · rfl
      · exact List.filter_cons_of_pos (beq_iff_eq.mpr hj)
    · rw [if_neg hj]
      split
      · rfl
      · exact List.filter_cons_of_neg (mt beq_iff_eq.mp hj)
  induction l with
  | nil => rfl
  | cons j l ih =>
    obtain ⟨hj, hl⟩ := List.nodup_cons.mp hl
    rw [List.flatMap_cons, List.filter_append, own, ih hl]
    by_cases hi : j = i
    · subst hi
      rw [if_pos rfl, if_neg hj, if_pos (List.mem_cons_self ..), List.append_nil]
    · rw [if_neg hi, List.nil_append]
      simp only [List.mem_cons, Ne.symm hi, false_or]

theorem commitShows_same (fields : ShowRec → ShowRec → List ReportField) (s : State) :
    commitShows fields s.shows.recs s = s := by
  have fixed (l : List ShowIx) :
      l.foldl (fun t i => commitShowAs fields i s.shows.recs[i] t) s = s := by
    induction l with
    | nil => rfl
    | cons i l ih =>
      have same : commitShowAs fields i s.shows.recs[i] s = s := if_pos rfl
      rw [List.foldl_cons, same, ih]
  exact fixed _

theorem commitShows_shows (fields : ShowRec → ShowRec → List ReportField)
    (before : Vector ShowRec 64) (s : State) :
    (commitShows fields before s).shows = s.shows ∧ (commitShows fields before s).clock = s.clock := by
  simp

theorem foldl_commitShowAs_bus (fields : ShowRec → ShowRec → List ReportField)
    (before : Vector ShowRec 64) (l : List ShowIx) (s : State) :
    { (l.foldl (fun s i => commitShowAs fields i before[i] s) s).bus with
      showReports := s.bus.showReports } = s.bus := by
  induction l generalizing s with
  | nil => rfl
  | cons i l ih =>
    have first := commitShowAs_bus fields i before[i] s
    have later := ih (commitShowAs fields i before[i] s)
    rw [List.foldl_cons, ← first, ← later]

theorem commitShows_bus (fields : ShowRec → ShowRec → List ReportField)
    (before : Vector ShowRec 64) (s : State) :
    { (commitShows fields before s).bus with showReports := s.bus.showReports } = s.bus := by
  unfold commitShows
  generalize List.finRange 64 = l
  exact foldl_commitShowAs_bus fields before l s

theorem commitShows_fromClock (fields : ShowRec → ShowRec → List ReportField)
    (before : Vector ShowRec 64) (s : State) :
    (commitShows fields before s).bus.fromClock = s.bus.fromClock := by
  rw [← commitShows_bus fields before s]

/-! ## What a catch-up sends and leaves -/

theorem perform_sends (e : DueEntry) (time : Nat)
    (hc : isCurrent s.shows.recs[e.showIx] e = true) :
    (∃ c a, Sends c a s (perform e time s).1) ∧ OtherShowsStay e.showIx s (perform e time s).1 := by
  by_cases hx : nextState e.fromState = .closed
  · obtain ⟨-, -, stay, -, sent⟩ := perform_closes (s := s) (time := time) hx
    exact ⟨⟨_, _, sent⟩, stay⟩
  · obtain ⟨due, hdue⟩ := dueTime_nextState hc hx
    obtain ⟨-, shows, sent⟩ := perform_opens (s := s) (time := time) hx hdue
    refine ⟨⟨_, _, sent⟩, fun j hj => ?_⟩
    rw [shows]
    exact put_other _ _ _ _ hj

theorem catchUpLoop_sends (fuel : Nat) (q : List DueEntry) (n : Nat) (s : State) :
    ∃ c a, Sends c a s (catchUpLoop fuel time q n s).1 := by
  induction fuel generalizing q n s with
  | zero => exact ⟨[], [], .refl s⟩
  | succ fuel ih =>
    rw [catchUpLoop]
    split
    · exact ⟨[], [], .refl s⟩
    · split
      case isFalse => exact ih _ _ _
      case isTrue current =>
        obtain ⟨⟨_, _, first⟩, -⟩ := perform_sends _ time current
        obtain ⟨_, _, later⟩ := ih _ _ _
        exact ⟨_, _, first.trans later⟩

/-- A catch-up of one show's entries leaves every other show. -/
theorem catchUpLoop_others {i : ShowIx} (fuel : Nat) {q : List DueEntry}
    (hq : ∀ x ∈ q, x.showIx = i) (n : Nat) (s : State) :
    OtherShowsStay i s (catchUpLoop fuel time q n s).1 := by
  induction fuel generalizing q n s with
  | zero => exact fun _ _ => rfl
  | succ fuel ih =>
    rw [catchUpLoop]
    split
    case h_1 => exact fun _ _ => rfl
    case h_2 e others first =>
      have perm := earliest_perm first
      have own : e.showIx = i := hq e (perm.mem_iff.mp (List.mem_cons_self ..))
      have rest : ∀ x ∈ others, x.showIx = i := fun x hx =>
        hq x (perm.mem_iff.mp (List.mem_cons_of_mem _ hx))
      split
      case isFalse => exact ih rest _ _
      case isTrue current =>
        obtain ⟨-, stay⟩ := perform_sends e time current
        obtain ⟨pending, -⟩ := perform_pending (time := time) current
        have later := ih (q := (perform e time s).2 ++ others)
          (fun x hx => (List.mem_append.mp hx).elim (fun hx => (pending x hx).1.trans own) (rest x))
          (n + 1) (perform e time s).1
        rw [own] at stay
        exact fun j hj => (later j hj).trans (stay j hj)

theorem CaughtUp.congr {q : List DueEntry} {t u v : State} (h : CaughtUp time q t u)
    (hs : t.shows = s.shows) (hv : v.shows = u.shows) (hc : v.bus.toClock = u.bus.toClock)
    (ha : v.bus.toArbiter = u.bus.toArbiter) : CaughtUp time q s v := by
  unfold CaughtUp at *
  rw [hs] at h
  rw [hv, hc, ha]
  exact h

/-- Each of a catch-up's entries takes at most five rounds (R6). -/
theorem rounds_le (q : List DueEntry) : rounds q ≤ 5 * q.length := by
  induction q with
  | nil => exact Nat.le_refl _
  | cons e q ih =>
    have left : transitionsLeft e.fromState ≤ 4 := by
      cases e.fromState <;> simp [transitionsLeft]
    unfold rounds at *
    rw [List.map_cons, List.sum_cons, List.length_cons]
    omega

theorem catchUp_eq (time : Nat) (q : List DueEntry) (s : State) :
    catchUp time q s =
      (commitShows passedFields s.shows.recs (catchUpLoop (5 * q.length) time q 0 s).1,
        (catchUpLoop (5 * q.length) time q 0 s).2) := rfl

/-- A catch-up taken as one event (R6). -/
theorem catchUp_done {q : List DueEntry} (hq : (q.map (·.showIx)).Nodup)
    (hdue : ∀ e ∈ q, e.due ≤ time) :
    let r := catchUp time q s
    CaughtUp time q s r.1 ∧ r.2 = transitionsOf time q s ∧ r.1.bus.fromClock = s.bus.fromClock ∧
      r.1.bus.showReports = s.bus.showReports ++ (List.finRange 64).flatMap fun i =>
        reportOf passedFields i s.shows.recs[i] r.1.shows.recs[i] := by
  intro r
  obtain ⟨caught, count, _, _, sends⟩ :=
    catchUpLoop_done (5 * q.length) q 0 s hq hdue (rounds_le q)
  have both : r = _ := catchUp_eq time q s
  have committed : r.1 = commitShows passedFields s.shows.recs
    (catchUpLoop (5 * q.length) time q 0 s).1 := by rw [both]
  have total : r.2 = (catchUpLoop (5 * q.length) time q 0 s).2 := by rw [both]
  have shows := (commitShows_shows passedFields s.shows.recs
    (catchUpLoop (5 * q.length) time q 0 s).1).1
  have requests := commitShows_requests passedFields s.shows.recs
    (catchUpLoop (5 * q.length) time q 0 s).1
  refine ⟨?_, ?_, ?_, ?_⟩
  · rw [committed]
    exact caught.congr rfl shows requests.1 requests.2
  · rw [total, count, Nat.zero_add, transitionsOf_eq]
  · rw [committed, commitShows_fromClock, sends.kept.1]
  · rw [committed, shows, commitShows_reports, sends.kept.2]

theorem fieldDiffers_self (sh : ShowRec) (x : ReportField) : fieldDiffers sh sh x = false := by
  cases x <;> simp [fieldDiffers]

theorem passedFields_self (sh : ShowRec) : passedFields sh sh = [] := by
  have stays : passedListed sh sh = false := by
    unfold passedListed
    cases sh.state <;> rfl
  unfold passedFields
  rw [List.filter_eq_nil_iff]
  intro x _
  simp [fieldDiffers_self, stays]

theorem mem_statesPassed {sh : ShowRec} {n : Nat} {st x : ShowState}
    (h : x ∈ statesPassed sh time n st) :
    (∃ st', x = nextState st') ∧ transitionsLeft x < transitionsLeft st := by
  induction n generalizing st with
  | zero => exact absurd h List.not_mem_nil
  | succ n ih =>
    cases hd : dueTime sh st with
    | none =>
      rw [statesPassed_none _ hd] at h
      exact absurd h List.not_mem_nil
    | some due =>
      have left := transitionsLeft_nextState hd
      rcases Nat.lt_or_ge time due with ahead | past
      · rw [statesPassed_ahead _ hd ahead] at h
        exact absurd h List.not_mem_nil
      · rw [statesPassed_past hd past] at h
        rcases List.mem_cons.mp h with rfl | h
        · exact ⟨⟨st, rfl⟩, by omega⟩
        · obtain ⟨next, fewer⟩ := ih h
          exact ⟨next, by omega⟩

theorem reached_ne_empty {e : DueEntry} {sh : ShowRec} (hc : isCurrent sh e = true) :
    reached time e sh ≠ .empty := by
  unfold reached
  cases hl : (statesPassed sh time 4 e.fromState).getLast? with
  | none =>
    intro empty
    have hd := (isCurrent_iff.mp hc).2
    rw [show e.fromState = .empty from empty] at hd
    exact absurd hd nofun
  | some st =>
    obtain ⟨⟨st', rfl⟩, -⟩ := mem_statesPassed (List.mem_of_getLast? hl)
    rcases nextState_cases st' with h | h | h | h <;> simp [h]

/-- A show that a catch-up has changed is not EMPTY. -/
theorem caughtUp_ne_empty {q : List DueEntry} {t : State} (h : CaughtUp time q s t) {i : ShowIx}
    (hi : t.shows.recs[i] ≠ s.shows.recs[i]) : t.shows.recs[i].state ≠ .empty := by
  obtain ⟨stays, moves⟩ := caughtUp_iff.mp h
  obtain ⟨e, he, rfl, current⟩ : ∃ e ∈ q, e.showIx = i ∧ isCurrent s.shows.recs[i] e = true := by
    by_contra none_current
    refine hi (stays i fun e he hei => Bool.eq_false_iff.mpr fun current => none_current ?_)
    exact ⟨e, he, hei, current⟩
  obtain ⟨open_, closed⟩ := moves e he current
  by_cases ends : reached time e s.shows.recs[e.showIx] = .closed
  · rw [(closed ends).1]
    decide
  · rw [(open_ ends).1]
    unfold movedTo
    split
    case isTrue halted => rw [show ({ s.shows.recs[e.showIx] with
        savedState := some (reached time e s.shows.recs[e.showIx]) } : ShowRec).state = _ from halted]; decide
    case isFalse => exact reached_ne_empty current

end

end Sys2Proof.Machine

namespace Sys2Proof.Machine

section
variable {s : State} {time : Nat} {e : DueEntry}

/-! ## A catch-up of one transition -/

theorem catchUpLoop_nil (fuel time n : Nat) (s : State) : catchUpLoop fuel time [] n s = (s, n) := by
  cases fuel <;> rfl

theorem catchUpLoop_stale (fuel n : Nat) (hc : isCurrent s.shows.recs[e.showIx] e = false) :
    catchUpLoop (fuel + 1) time [e] n s = (s, n) := by
  rw [catchUpLoop]
  simp only [earliest, hc]
  exact catchUpLoop_nil fuel time n s

theorem catchUpLoop_current (fuel n : Nat) (hc : isCurrent s.shows.recs[e.showIx] e = true) :
    catchUpLoop (fuel + 1) time [e] n s =
      catchUpLoop fuel time (perform e time s).2 (n + 1) (perform e time s).1 := by
  rw [catchUpLoop]
  simp only [earliest, if_pos hc, List.append_nil]

/-- The DOORS_OPEN request for a show that passes into SEATING, where it calls for one (R7, R18). -/
def doorsOpened (time : Nat) (c : ShowSettings) (i : ShowIx) (sh : ShowRec) : List ShowMsg :=
  if sh.flags.autoDoors = true ∧ sh.state ≠ .halted ∧
      0 < sh.seatingLead - (time - seatingTime sh) then
    [.auto (cardPost c .doorsOpen i sh (sh.seatingLead - (time - seatingTime sh)))]
  else []

/-- What a catch-up that takes a show through the states `passed` asks for before any closing. -/
def doorsPassed (time : Nat) (c : ShowSettings) (i : ShowIx) (sh : ShowRec)
    (passed : List ShowState) : List ShowMsg :=
  if .seating ∈ passed then doorsOpened time c i sh else []

theorem doorsAt_current {c : ShowSettings} {sh : ShowRec} (hc : isCurrent sh e = true) :
    doorsAt e time c sh = if e.fromState = .selling then doorsOpened time c e.showIx sh else [] := by
  have due := (isCurrent_iff.mp hc).2
  by_cases selling : e.fromState = .selling
  · rw [selling] at due
    have same : e.due = seatingTime sh := (Option.some.inj due).symm
    unfold doorsAt doorsOpened
    rw [if_pos selling, same]
    simp only [selling, true_and]
  · unfold doorsAt
    rw [if_neg selling, if_neg fun h => selling h.1]

theorem seating_next {st : ShowState} (h : nextState st = .seating) : st = .selling := by
  cases st <;> simp [nextState] at h ⊢

/-- The doors are asked for once, at the transition out of SELLING. -/
theorem doorsPassed_next (c : ShowSettings) {sh : ShowRec} (hc : isCurrent sh e = true)
    (hd : e.due ≤ time) :
    doorsPassed time c e.showIx sh (statesPassed sh time 4 e.fromState) =
      doorsAt e time c sh ++
        doorsPassed time c e.showIx sh (statesPassed sh time 4 (nextState e.fromState)) := by
  rw [doorsAt_current hc, statesPassed_next (isCurrent_iff.mp hc).2 hd]
  unfold doorsPassed
  by_cases selling : e.fromState = .selling
  · have later : ShowState.seating ∉ statesPassed sh time 4 (nextState e.fromState) := by
      intro h
      have fewer := (mem_statesPassed h).2
      rw [selling] at fewer
      exact absurd fewer (by decide)
    have first : ShowState.seating = nextState e.fromState := by rw [selling]; rfl
    rw [if_pos selling, if_neg later, if_pos (first ▸ List.mem_cons_self ..), List.append_nil]
  · have first : ShowState.seating ≠ nextState e.fromState := fun h => selling (seating_next h.symm)
    rw [if_neg selling, List.nil_append]
    simp only [List.mem_cons, first, false_or]

theorem doorsPassed_movedTo {st : ShowState} (h : st ≠ .halted) (c : ShowSettings) (i : ShowIx)
    (sh : ShowRec) (passed : List ShowState) :
    doorsPassed time c i (movedTo st sh) passed = doorsPassed time c i sh passed := by
  obtain ⟨-, start, lead, -, flags, target⟩ := movedTo_fields st sh
  have seats : seatingTime (movedTo st sh) = seatingTime sh := by
    rw [seatingTime, start, lead]
    rfl
  unfold doorsPassed doorsOpened
  rw [seats, lead, flags, cardPost_congr .doorsOpen i _ rfl target]
  simp only [ne_eq, movedTo_halted h]

/-- What the Notice Arbiter is asked for, and what becomes of the show's holds, when a catch-up has taken a
show from the entry `e` as far as it is due (R7, R17, R18). -/
structure Asked (time : Nat) (e : DueEntry) (s t : State) : Prop where
  open_ : .closed ∉ statesPassed s.shows.recs[e.showIx] time 4 e.fromState →
    t.bus.toArbiter = s.bus.toArbiter ++ doorsPassed time s.shows.cfg e.showIx
        s.shows.recs[e.showIx] (statesPassed s.shows.recs[e.showIx] time 4 e.fromState) ∧
      t.shows.holds = s.shows.holds
  closed : .closed ∈ statesPassed s.shows.recs[e.showIx] time 4 e.fromState →
    ClosedAs (closedRec s.shows.recs[e.showIx]) .showClosed e.showIx
      (doorsPassed time s.shows.cfg e.showIx s.shows.recs[e.showIx]
        (statesPassed s.shows.recs[e.showIx] time 4 e.fromState)) [] s t

theorem closedRec_movedTo (st : ShowState) (sh : ShowRec) :
    closedRec (movedTo st sh) = closedRec sh := by
  unfold movedTo
  split <;> rfl

/-- A closing sequence behind a transition of the same show. -/
theorem ClosedAs.afterMove {st : ShowState} {i : ShowIx} {first later : List ShowMsg}
    {c : List ClockRequest} {u t : State}
    (hu : u.shows = { s.shows with recs := put s.shows.recs i (movedTo st s.shows.recs[i]) })
    (hs : Sends c first s u)
    (h : ClosedAs (closedRec s.shows.recs[i]) .showClosed i later [] u t) :
    ClosedAs (closedRec s.shows.recs[i]) .showClosed i (first ++ later) [] s t := by
  obtain ⟨⟨holds, list⟩, record, arbiter⟩ := h
  have same (k : HoldIx) : holdsFor u i k = holdsFor s i k := by simp only [holdsFor, hu]
  have seats : seatsHeldFor u i = seatsHeldFor s i := by
    simp only [seatsHeldFor, same, hu]
  have band : u.shows.recs[i].band = s.shows.recs[i].band := by
    rw [hu, put_same]
    unfold movedTo
    split <;> rfl
  refine ⟨⟨fun k => ?_, ?_⟩, ?_, ?_⟩
  · rw [holds, same, hu]
  · rw [list, hu]
    exact congrArg (List.filter · _) (funext fun k => congrArg (! ·) (same k))
  · rw [record, seats, band, hu]
  · rw [arbiter, hs.toArbiter]
    simp only [List.append_assoc]

theorem Asked.closes (hc : isCurrent s.shows.recs[e.showIx] e = true) (hd : e.due ≤ time)
    (hx : nextState e.fromState = .closed) : Asked time e s (perform e time s).1 := by
  have passed : statesPassed s.shows.recs[e.showIx] time 4 e.fromState = [.closed] := by
    rw [statesPassed_next (isCurrent_iff.mp hc).2 hd, hx, statesPassed_none 4 rfl]
  obtain ⟨-, closed, -⟩ := perform_closes (s := s) (time := time) hx
  refine ⟨fun h => absurd (by rw [passed]; exact List.mem_cons_self ..) h, fun _ => ?_⟩
  have none_asked : doorsPassed time s.shows.cfg e.showIx s.shows.recs[e.showIx]
      (statesPassed s.shows.recs[e.showIx] time 4 e.fromState) = [] := by
    rw [passed]
    exact if_neg (by decide)
  rw [none_asked]
  exact closed

theorem Asked.scheduled {due : Nat} (hc : isCurrent s.shows.recs[e.showIx] e = true)
    (hd : e.due ≤ time) (ho : nextState e.fromState ≠ .closed)
    (hn : dueTime s.shows.recs[e.showIx] (nextState e.fromState) = some due) (ahead : time < due) :
    Asked time e s (perform e time s).1 := by
  have passed : statesPassed s.shows.recs[e.showIx] time 4 e.fromState = [nextState e.fromState] := by
    rw [statesPassed_next (isCurrent_iff.mp hc).2 hd, statesPassed_ahead 4 hn ahead]
  obtain ⟨-, shows, sent⟩ := perform_opens (s := s) (time := time) ho hn
  refine ⟨fun _ => ⟨?_, by rw [shows]⟩, fun h => ?_⟩
  · rw [doorsPassed_next s.shows.cfg hc hd, statesPassed_ahead 4 hn ahead]
    have none_later : doorsPassed time s.shows.cfg e.showIx s.shows.recs[e.showIx] [] = [] :=
      if_neg List.not_mem_nil
    rw [none_later, List.append_nil]
    exact sent.toArbiter
  · rw [passed] at h
    exact absurd (List.mem_singleton.mp h).symm ho

theorem Asked.next {due : Nat} {t : State} (hc : isCurrent s.shows.recs[e.showIx] e = true)
    (hd : e.due ≤ time) (ho : nextState e.fromState ≠ .closed)
    (hn : dueTime s.shows.recs[e.showIx] (nextState e.fromState) = some due)
    (h : Asked time ⟨e.showIx, nextState e.fromState, due⟩ (perform e time s).1 t) :
    Asked time e s t := by
  obtain ⟨-, shows, sent⟩ := perform_opens (s := s) (time := time) ho hn
  obtain ⟨open_, closed⟩ := h
  have record : (perform e time s).1.shows.recs[e.showIx] =
      movedTo (nextState e.fromState) s.shows.recs[e.showIx] := by
    rw [shows]
    exact put_same _ _ _
  have cfg : (perform e time s).1.shows.cfg = s.shows.cfg := by rw [shows]
  simp only [record, cfg, statesPassed_movedTo, closedRec_movedTo,
    doorsPassed_movedTo (nextState_ne_halted _)] at open_ closed
  have passed := statesPassed_next (isCurrent_iff.mp hc).2 hd
  have doors := doorsPassed_next s.shows.cfg hc hd
  have same : .closed ∈ statesPassed s.shows.recs[e.showIx] time 4 e.fromState ↔
      .closed ∈ statesPassed s.shows.recs[e.showIx] time 4 (nextState e.fromState) := by
    rw [passed]
    simp only [List.mem_cons, Ne.symm ho, false_or]
  refine ⟨fun hnot => ?_, fun hin => ?_⟩
  · obtain ⟨arbiter, holds⟩ := open_ (mt same.mpr hnot)
    refine ⟨?_, holds.trans (by rw [shows])⟩
    rw [arbiter, sent.toArbiter, doors, List.append_assoc]
  · rw [doors]
    exact (closed (same.mp hin)).afterMove shows sent

/-- A show taken as far as it is due from one entry. -/
theorem catchUpLoop_asked (fuel n : Nat) (hc : isCurrent s.shows.recs[e.showIx] e = true)
    (hd : e.due ≤ time) (hf : 1 + transitionsLeft e.fromState ≤ fuel) :
    Asked time e s (catchUpLoop fuel time [e] n s).1 := by
  induction fuel generalizing e n s with
  | zero => omega
  | succ fuel ih =>
    have left := transitionsLeft_nextState (isCurrent_iff.mp hc).2
    rw [catchUpLoop_current fuel n hc]
    by_cases hx : nextState e.fromState = .closed
    · obtain ⟨new, -⟩ := perform_closes (s := s) (time := time) hx
      rw [new, catchUpLoop_nil]
      exact .closes hc hd hx
    · obtain ⟨due, hn⟩ := dueTime_nextState hc hx
      obtain ⟨new, shows, -⟩ := perform_opens (s := s) (time := time) hx hn
      rcases Nat.lt_or_ge time due with ahead | past
      · rw [new, if_neg (Nat.not_le.mpr ahead), catchUpLoop_nil]
        exact .scheduled hc hd hx hn ahead
      · rw [new, if_pos past]
        refine .next hc hd hx hn (ih (n + 1) ?_ past (by simp only; omega))
        have record : (perform e time s).1.shows.recs[e.showIx] =
            movedTo (nextState e.fromState) s.shows.recs[e.showIx] := by
          rw [shows]
          exact put_same _ _ _
        rw [record]
        exact isCurrent_iff.mpr ⟨clockState_movedTo (nextState_ne_halted _) _,
          (dueTime_movedTo _ _ _).trans hn⟩

/-- The state when the Show Table has taken the head of what the Lobby Clock handed it (R6). -/
abbrev clockTaken (rest : List ClockMsg) (s : State) : State :=
  { s with bus := { s.bus with fromClock := rest } }

theorem exec_catchUp {entries : List DueEntry} {rest : List ClockMsg}
    (h : s.bus.fromClock = .catchUp time entries :: rest) :
    exec .catchUp s = .next (catchUp time entries (clockTaken rest s)).1 := by
  simp only [exec, execCatchUp, h]

/-- The report of a show at the end of a catch-up (R6, R19). -/
theorem reportOf_caughtUp {q : List DueEntry} {t : State} (h : CaughtUp time q s t) (i : ShowIx) :
    reportOf passedFields i s.shows.recs[i] t.shows.recs[i] =
      if passedFields s.shows.recs[i] t.shows.recs[i] = [] then []
      else [⟨i, passedFields s.shows.recs[i] t.shows.recs[i], false⟩] := by
  unfold reportOf
  by_cases same : t.shows.recs[i] = s.shows.recs[i]
  · rw [same, if_pos (.inl rfl), if_pos (passedFields_self _)]
  · simp only [same, false_or]
    rw [beq_eq_false_iff_ne.mpr (caughtUp_ne_empty h same)]

/-- A catch-up of many shows: each takes what it has due, and is reported once (R6, R19). -/
theorem catchUp_many {entries : List DueEntry} {rest : List ClockMsg}
    (h : s.bus.fromClock = .catchUp time entries :: rest)
    (hq : (entries.map (·.showIx)).Nodup) (hdue : ∀ e ∈ entries, e.due ≤ time) :
    ∃ t, exec .catchUp s = .next t ∧ t.bus.fromClock = rest ∧ CaughtUp time entries s t ∧
      ∀ i : ShowIx,
        let fields := passedFields s.shows.recs[i] t.shows.recs[i]
        t.bus.showReports.filter (·.showIx == i) =
          s.bus.showReports.filter (·.showIx == i) ++
            if fields = [] then [] else [⟨i, fields, false⟩] := by
  obtain ⟨caught, -, fromClock, reports⟩ :=
    catchUp_done (s := clockTaken rest s) (time := time) hq hdue
  have caught' : CaughtUp time entries s (catchUp time entries (clockTaken rest s)).1 :=
    caught.congr rfl rfl rfl rfl
  refine ⟨_, exec_catchUp h, fromClock, caught', fun i => ?_⟩
  rw [reports, List.filter_append, filter_reportOf passedFields _ _ i (List.nodup_finRange 64),
    if_pos (List.mem_finRange i)]
  exact congrArg _ (reportOf_caughtUp caught' i)

theorem catchUp_one (time : Nat) (e : DueEntry) (s : State) :
    (catchUp time [e] s).1 =
      commitShows passedFields s.shows.recs (catchUpLoop 5 time [e] 0 s).1 := by
  rw [catchUp_eq]
  simp only [List.length_singleton, Nat.mul_one]

/-- The catch-up of one transition, up to the end of its event. -/
theorem catchUp_single (time : Nat) (e : DueEntry) (s : State) :
    let u := (catchUpLoop 5 time [e] 0 s).1
    let t := (catchUp time [e] s).1
    t.shows = u.shows ∧ t.bus.toClock = u.bus.toClock ∧ t.bus.toArbiter = u.bus.toArbiter ∧
      t.bus.fromClock = s.bus.fromClock := by
  intro u t
  obtain ⟨_, _, sends⟩ := catchUpLoop_sends (time := time) 5 [e] 0 s
  obtain ⟨shows, -⟩ := commitShows_shows passedFields s.shows.recs u
  obtain ⟨clock, arbiter⟩ := commitShows_requests passedFields s.shows.recs u
  have fromClock := (commitShows_fromClock passedFields s.shows.recs u).trans sends.kept.1
  have committed : t = commitShows passedFields s.shows.recs u := catchUp_one time e s
  rw [committed]
  exact ⟨shows, clock, arbiter, fromClock⟩

theorem catchUp_stale (hc : isCurrent s.shows.recs[e.showIx] e = false) :
    (catchUp time [e] s).1 = s := by
  have stale := catchUpLoop_stale (time := time) 4 0 hc
  rw [catchUp_one, stale]
  exact commitShows_same passedFields s

/-- A show that takes one transition, with the next still to come, is moved and scheduled (R3, R7). -/
theorem catchUpLoop_ahead {st : ShowState} {due : Nat}
    (hst : (e.fromState, st) ∈ [(ShowState.waiting, ShowState.selling), (.selling, .seating),
      (.seating, .running)])
    (hc : isCurrent s.shows.recs[e.showIx] e = true)
    (hn : dueTime s.shows.recs[e.showIx] st = some due) (ahead : time < due) :
    let u := (catchUpLoop 5 time [e] 0 s).1
    u.bus.toClock = s.bus.toClock ++ [.schedule ⟨e.showIx, st, due⟩] ∧
      u.shows.recs[e.showIx] = movedTo st s.shows.recs[e.showIx] := by
  intro u
  have next : nextState e.fromState = st ∧ st ≠ .closed := by
    simp only [List.mem_cons, Prod.mk.injEq, List.not_mem_nil, or_false] at hst
    rcases hst with ⟨hf, rfl⟩ | ⟨hf, rfl⟩ | ⟨hf, rfl⟩ <;> rw [hf] <;> exact ⟨rfl, by decide⟩
  obtain ⟨rfl, ho⟩ := next
  obtain ⟨new, shows, sent⟩ := perform_opens (s := s) (time := time) ho hn
  have loop : u = (perform e time s).1 := by
    simp only [u]
    rw [catchUpLoop_current 4 0 hc, new, if_neg (Nat.not_le.mpr ahead), catchUpLoop_nil]
  rw [if_neg (Nat.not_le.mpr ahead)] at sent
  rw [loop, sent.toClock, shows]
  exact ⟨rfl, put_same _ _ _⟩

theorem catchUpLoop_fromRunning (hc : isCurrent s.shows.recs[e.showIx] e = true)
    (hr : e.fromState = .running) :
    let u := (catchUpLoop 5 time [e] 0 s).1
    u.shows.recs[e.showIx].state = .closed ∧ u.shows.recs[e.showIx].savedState = none ∧
      ShowMsg.closure e.showIx .showClosed ∈ u.bus.toArbiter ∧ u.bus.toClock = s.bus.toClock := by
  intro u
  obtain ⟨new, ⟨-, record, -⟩, -, -, sent⟩ := perform_closes (s := s) (time := time) (e := e)
    (by rw [hr]; rfl)
  have loop : u = (perform e time s).1 := by
    simp only [u]
    rw [catchUpLoop_current 4 0 hc, new, catchUpLoop_nil]
  rw [loop, record, sent.toArbiter, sent.toClock]
  exact ⟨rfl, rfl, by simp [closingMsgs], List.append_nil _⟩

theorem ClosedAs.congr {now : ShowRec} {reason : NoticeEnd} {i : ShowIx} {first last : List ShowMsg}
    {t u v : State} (h : ClosedAs now reason i first last t u) (hs : t.shows = s.shows)
    (ha : t.bus.toArbiter = s.bus.toArbiter) (hv : v.shows = u.shows)
    (hva : v.bus.toArbiter = u.bus.toArbiter) : ClosedAs now reason i first last s v := by
  have same (k : HoldIx) : holdsFor t i k = holdsFor s i k := by simp only [holdsFor, hs]
  have seats : seatsHeldFor t i = seatsHeldFor s i := by
    simp only [seatsHeldFor, same, hs]
  obtain ⟨⟨holds, list⟩, record, arbiter⟩ := h
  refine ⟨⟨fun k => ?_, ?_⟩, ?_, ?_⟩
  · rw [hv, holds, same, hs]
  · rw [hv, list, hs]
    exact congrArg (List.filter · _) (funext fun k => congrArg (! ·) (same k))
  · rw [hv, record, seats, hs]
  · rw [hva, arbiter, ha]

end

/-- Settles O31: many transitions by the loop's invariant over its entries, one by following the show from
state to state. -/
theorem catchUpMovesCurrentShows : Obligations.CatchUpMovesCurrentShows := by
  intro s time rest
  refine ⟨fun entries h hq hdue => catchUp_many h hq hdue, ?_⟩
  intro e h sh passed left doors
  obtain ⟨shows, clock, arbiter, fromClock⟩ := catchUp_single time e (clockTaken rest s)
  have doors_eq : doors = doorsPassed time s.shows.cfg e.showIx sh passed := by
    unfold doorsPassed doorsOpened
    by_cases seating : ShowState.seating ∈ passed
    · rw [if_pos seating]
      simp only [doors, seating, true_and]
      rfl
    · rw [if_neg seating]
      exact if_neg fun h => seating h.1
  have asked (hc : isCurrent sh e = true) (hd : e.due ≤ time) :
      Asked time e (clockTaken rest s) (catchUpLoop 5 time [e] 0 (clockTaken rest s)).1 :=
    catchUpLoop_asked 5 0 hc hd (by cases e.fromState <;> decide)
  refine ⟨_, exec_catchUp h, fromClock, fun j hj => ?_, fun hc => catchUp_stale hc,
    fun st due hst hc hn ahead => ?_, fun hc hr => ?_, fun hc hd hopen => ?_, fun hc hd hclosed => ?_⟩
  · rw [shows]
    exact catchUpLoop_others (time := time) 5 (by simp) 0 (clockTaken rest s) j hj
  · obtain ⟨scheduled, record⟩ := catchUpLoop_ahead (s := clockTaken rest s) hst hc hn ahead
    rw [clock, shows]
    exact ⟨scheduled, record⟩
  · obtain ⟨state, saved, closure, kept⟩ := catchUpLoop_fromRunning (s := clockTaken rest s)
      (time := time) hc hr
    rw [clock, shows, arbiter]
    exact ⟨state, saved, closure, kept⟩
  · obtain ⟨sent, holds⟩ := (asked hc hd).open_ hopen
    rw [arbiter, shows, doors_eq]
    exact ⟨sent, holds⟩
  · rw [doors_eq]
    exact ((asked hc hd).closed hclosed).congr rfl rfl shows arbiter

end Sys2Proof.Machine

namespace Sys2Proof.Machine

section
variable {s : State} {now : Nat} {i : ShowIx}

/-! ## The first CLOCK_SET's placements -/

theorem placeShow_waits (h : s.shows.recs[i].clockWait = false) : placeShow now i s = s :=
  if_neg (by rw [h]; exact nofun)

/-- The record of a show placed by its times at the first CLOCK_SET (R10). -/
abbrev placedRec (now : Nat) (sh : ShowRec) : ShowRec :=
  { sh with clockWait := false, state := placedState sh now }

theorem placeShow_closes (h : s.shows.recs[i].clockWait = true)
    (hc : placedState s.shows.recs[i] now = .closed) :
    placeShow now i s = closeShow i s.shows.recs[i].band .showClosed
      (setShow i (placedRec now s.shows.recs[i]) s) := (if_pos h).trans (if_pos hc)

theorem placeShow_opens (h : s.shows.recs[i].clockWait = true)
    (hc : placedState s.shows.recs[i] now ≠ .closed) :
    placeShow now i s = schedule i (placedState s.shows.recs[i] now)
      (setShow i (placedRec now s.shows.recs[i]) s) := (if_pos h).trans (if_neg hc)

theorem schedule_shows (i : ShowIx) (st : ShowState) (s : State) :
    (schedule i st s).shows = s.shows ∧ ∃ c, Sends c [] s (schedule i st s) := by
  unfold schedule
  cases dueTime s.shows.recs[i] st with
  | none => exact ⟨rfl, [], .refl s⟩
  | some due => exact ⟨rfl, _, sendClock_sends _ s⟩

/-- A show that waits for the clock is placed, and no other changes (R10). -/
theorem placeShow_placed (h : s.shows.recs[i].clockWait = true) :
    let t := placeShow now i s
    OtherShowsStay i s t ∧ t.shows.recs[i].clockWait = false ∧
      t.shows.recs[i].state = placedState s.shows.recs[i] now ∧ ∃ c a, Sends c a s t := by
  intro t
  by_cases hc : placedState s.shows.recs[i] now = .closed
  · have eq : t = _ := placeShow_closes h hc
    obtain ⟨⟨-, record, -⟩, others, -⟩ := closeShow_closedAs (i := i)
      (now := placedRec now s.shows.recs[i]) (reason := .showClosed)
      (t := setShow i (placedRec now s.shows.recs[i]) s) rfl rfl
    have sent := closeShow_sends i s.shows.recs[i].band .showClosed
      (setShow i (placedRec now s.shows.recs[i]) s)
    rw [eq]
    refine ⟨others, ?_, ?_, _, _, sent⟩
    · rw [record]
      rfl
    · rw [record]
      rfl
  · have eq : t = _ := placeShow_opens h hc
    obtain ⟨shows, c, sent⟩ := schedule_shows i (placedState s.shows.recs[i] now)
      (setShow i (placedRec now s.shows.recs[i]) s)
    have record : t.shows.recs[i] = placedRec now s.shows.recs[i] := by
      rw [eq, shows]
      exact put_same _ _ _
    refine ⟨fun j hj => ?_, by rw [record], by rw [record], c, [], by rw [eq]; exact sent⟩
    rw [eq, shows]
    exact put_other _ _ _ _ hj

/-- The shows that wait placed one after another. -/
theorem foldl_placeShow_effect {l : List ShowIx} (hl : l.Nodup) {t : State}
    (ht : t = l.foldl (fun s i => placeShow now i s) s) :
    (∀ j : ShowIx, s.shows.recs[j].clockWait = false ∨ j ∉ l →
        t.shows.recs[j] = s.shows.recs[j]) ∧
      (∀ j : ShowIx, s.shows.recs[j].clockWait = true → j ∈ l →
        t.shows.recs[j].clockWait = false ∧
          t.shows.recs[j].state = placedState s.shows.recs[j] now) ∧
      ∃ c a, Sends c a s t := by
  induction l generalizing s with
  | nil =>
    rw [ht]
    exact ⟨fun _ _ => rfl, fun _ _ h => absurd h List.not_mem_nil, [], [], .refl s⟩
  | cons i l ih =>
    obtain ⟨hi, hl⟩ := List.nodup_cons.mp hl
    obtain ⟨stay, placed, _, _, later⟩ := ih (s := placeShow now i s) hl ht
    cases waits : s.shows.recs[i].clockWait with
    | false =>
      rw [placeShow_waits waits] at stay placed later
      refine ⟨fun j hj => stay j ?_, fun j hw hj => placed j hw ?_, _, _, later⟩
      · exact hj.imp id fun h hm => h (List.mem_cons_of_mem _ hm)
      · refine (List.mem_cons.mp hj).resolve_left fun hji => ?_
        rw [hji, waits] at hw
        exact absurd hw nofun
    | true =>
      obtain ⟨others, wait, state, _, _, first⟩ := placeShow_placed (now := now) waits
      refine ⟨fun j hj => ?_, fun j hw hj => ?_, _, _, first.trans later⟩
      · have hji : j ≠ i := by
          rintro rfl
          refine hj.elim (fun h => ?_) fun h => h (List.mem_cons_self ..)
          rw [waits] at h
          exact absurd h nofun
        rw [stay j (hj.imp (fun h => by rw [others j hji]; exact h)
          fun h hm => h (List.mem_cons_of_mem _ hm)), others j hji]
      · by_cases hji : j = i
        · subst hji
          rw [stay j (.inr hi)]
          exact ⟨wait, state⟩
        · have there := (List.mem_cons.mp hj).resolve_left hji
          have := placed j (by rw [others j hji]; exact hw) there
          rwa [others j hji] at this

theorem placeAll_eq (now : Nat) (s : State) :
    placeAll now s = (commitShows changedFields s.shows.recs
      ((List.finRange 64).foldl (fun s i => placeShow now i s) s), clockWaiting s) := rfl

/-- The placements of the first CLOCK_SET (R10). -/
theorem placeAll_effect (now : Nat) (s : State) :
    let r := placeAll now s
    r.2 = ((List.finRange 64).filter fun i => s.shows.recs[i].clockWait).length ∧
      r.1.bus.fromClock = s.bus.fromClock ∧
      ∀ i : ShowIx,
        (s.shows.recs[i].clockWait = false → r.1.shows.recs[i] = s.shows.recs[i]) ∧
        (s.shows.recs[i].clockWait = true →
          r.1.shows.recs[i].clockWait = false ∧
            r.1.shows.recs[i].state = placedState s.shows.recs[i] now) := by
  intro r
  have both : r = _ := placeAll_eq now s
  obtain ⟨stay, placed, _, _, sends⟩ := foldl_placeShow_effect (s := s) (now := now)
    (List.nodup_finRange 64) rfl
  generalize (List.finRange 64).foldl (fun s i => placeShow now i s) s = u at both stay placed sends
  have committed : r.1 = commitShows changedFields s.shows.recs u := by rw [both]
  have count : r.2 = clockWaiting s := by rw [both]
  rw [committed, (commitShows_shows changedFields s.shows.recs u).1, commitShows_fromClock]
  exact ⟨count, sends.kept.1, fun i => ⟨fun hw => stay i (.inl hw),
    fun hw => placed i hw (List.mem_finRange i)⟩⟩

/-! ## CLOCK_SET's end -/

/-- A word on the write path stays there when an outcome is placed. -/
theorem WordPlaced.beforeOutcome {a : AnchorWord} {offset : Nat} {bytes : List Byte} {g : Flight}
    (h : WordPlaced a offset bytes s) (code : OutcomeCode) (n : Nat) (hf : s.win.flight = some g)
    (hv : s.win.windowValid = true) : WordPlaced a offset bytes (finish code n s) := by
  rw [finish_inFlight code n hf hv]
  exact (mem_placeIn_other (by simp [outcomeWrite])).mpr h

theorem finish_rest (code : OutcomeCode) (n : Nat) (s : State) :
    (finish code n s).shows = s.shows ∧ (finish code n s).bus = s.bus ∧
      (finish code n s).clock = s.clock := by
  simp

theorem placeAnchor_rest (a : AnchorWord) (s : State) :
    (placeAnchor a s).shows = s.shows ∧ (placeAnchor a s).bus = s.bus ∧
      (placeAnchor a s).clock = s.clock ∧ (placeAnchor a s).win.flight = s.win.flight ∧
      (placeAnchor a s).win.windowValid = s.win.windowValid := by
  simp

/-- The state when both clock words are placed (R5). -/
def clockWords (s : State) : State := placeAnchor .clockSet (placeAnchor .lobbyNow s)

theorem clockWords_placed (hv : s.win.windowValid = true) :
    WordPlaced .lobbyNow 68 (leBytes 4 (s.clock.lobby.getD 0)) (clockWords s) ∧
      WordPlaced .clockSet 76 [if s.clock.lobby.isSome = true then 1 else 0] (clockWords s) := by
  obtain ⟨-, -, clock, -, valid⟩ := placeAnchor_rest .lobbyNow s
  have flag : anchorBytes (placeAnchor .lobbyNow s) .clockSet =
      [if s.clock.lobby.isSome = true then 1 else 0] := by
    simp only [anchorBytes, clock]
    cases s.clock.lobby <;> rfl
  have placed := placeAnchor_placed .clockSet (s := placeAnchor .lobbyNow s) (valid.trans hv)
  rw [flag] at placed
  exact ⟨(placeAnchor_placed .lobbyNow hv).behind (by decide), placed⟩

theorem clockWords_rest (s : State) :
    (clockWords s).shows = s.shows ∧ (clockWords s).bus = s.bus ∧ (clockWords s).clock = s.clock ∧
      (clockWords s).win.flight = s.win.flight ∧
      (clockWords s).win.windowValid = s.win.windowValid := by
  obtain ⟨shows₁, bus₁, clock₁, flight₁, valid₁⟩ := placeAnchor_rest .lobbyNow s
  obtain ⟨shows, bus, clock, flight, valid⟩ := placeAnchor_rest .clockSet (placeAnchor .lobbyNow s)
  exact ⟨shows.trans shows₁, bus.trans bus₁, clock.trans clock₁, flight.trans flight₁,
    valid.trans valid₁⟩

/-- The clock words placed, and the outcome behind them (R5). -/
theorem clockWords_ends {g : Flight} (n : Nat) (hf : s.win.flight = some g)
    (hv : s.win.windowValid = true) :
    let t := finish .done n (clockWords s)
    EndsWith .done n g t ∧ t.shows = s.shows ∧ t.bus = s.bus ∧ t.clock = s.clock ∧
      WordPlaced .lobbyNow 68 (leBytes 4 (s.clock.lobby.getD 0)) t ∧
      WordPlaced .clockSet 76 [if s.clock.lobby.isSome = true then 1 else 0] t := by
  intro t
  obtain ⟨shows, bus, clock, flight, valid⟩ := clockWords_rest s
  obtain ⟨shows', bus', clock'⟩ := finish_rest .done n (clockWords s)
  obtain ⟨lobby, flag⟩ := clockWords_placed hv
  have hf' := flight.trans hf
  have hv' := valid.trans hv
  obtain ⟨-, -, ends⟩ := finish_refused (s := clockWords s) .done n hf' hv'
  exact ⟨ends, shows'.trans shows, bus'.trans bus, clock'.trans clock,
    lobby.beforeOutcome .done n hf' hv', flag.beforeOutcome .done n hf' hv'⟩

theorem finishClockSet_first (time : Nat) (entries : List DueEntry) (s : State) :
    finishClockSet time true entries s =
      finish .done (sat16 (placeAll time s).2) (clockWords (placeAll time s).1) := rfl

theorem finishClockSet_later (time : Nat) (entries : List DueEntry) (s : State) :
    finishClockSet time false entries s =
      finish .done (sat16 (catchUp time entries s).2) (clockWords (catchUp time entries s).1) := rfl

theorem placeAll_rest (now : Nat) (s : State) :
    (placeAll now s).1.win.flight = s.win.flight ∧
      (placeAll now s).1.win.windowValid = s.win.windowValid ∧ (placeAll now s).1.clock = s.clock := by
  simp

theorem catchUp_rest (time : Nat) (entries : List DueEntry) (s : State) :
    (catchUp time entries s).1.win.flight = s.win.flight ∧
      (catchUp time entries s).1.win.windowValid = s.win.windowValid ∧
      (catchUp time entries s).1.clock = s.clock := by
  simp

/-- What a CLOCK_SET leaves when its Show Table half is done, whichever that was (R5). -/
abbrev ClockSetDone (s t : State) : Prop :=
  t.bus.fromClock = s.bus.fromClock ∧ t.clock = s.clock ∧
    WordPlaced .lobbyNow 68 (leBytes 4 (s.clock.lobby.getD 0)) t ∧
    WordPlaced .clockSet 76 [if s.clock.lobby.isSome = true then 1 else 0] t

theorem finishClockSet_done {g : Flight} (time : Nat) (first : Bool) (entries : List DueEntry)
    (hf : s.win.flight = some g) (hv : s.win.windowValid = true) :
    ClockSetDone s (finishClockSet time first entries s) := by
  cases first with
  | true =>
    obtain ⟨flight, valid, clock⟩ := placeAll_rest time s
    obtain ⟨-, fromClock, -⟩ := placeAll_effect time s
    obtain ⟨-, -, bus, clock', lobby, flag⟩ := clockWords_ends (sat16 (placeAll time s).2)
      (flight.trans hf) (valid.trans hv)
    rw [clock] at lobby flag
    rw [finishClockSet_first]
    exact ⟨by rw [bus, fromClock], clock'.trans clock, lobby, flag⟩
  | false =>
    obtain ⟨flight, valid, clock⟩ := catchUp_rest time entries s
    obtain ⟨_, _, sends⟩ := catchUpLoop_sends (time := time) (5 * entries.length) entries 0 s
    have fromClock : (catchUp time entries s).1.bus.fromClock = s.bus.fromClock := by
      rw [catchUp_eq]
      simp only [commitShows_fromClock, sends.kept.1]
    obtain ⟨-, -, bus, clock', lobby, flag⟩ := clockWords_ends (sat16 (catchUp time entries s).2)
      (flight.trans hf) (valid.trans hv)
    rw [clock] at lobby flag
    rw [finishClockSet_later]
    exact ⟨by rw [bus, fromClock], clock'.trans clock, lobby, flag⟩

/-- The first CLOCK_SET places the shows that wait (R10). -/
theorem finishClockSet_places {g : Flight} (time : Nat) (entries : List DueEntry)
    (hf : s.win.flight = some g) (hv : s.win.windowValid = true) :
    let t := finishClockSet time true entries s
    EndsWith .done (min (((List.finRange 64).filter fun i => s.shows.recs[i].clockWait).length)
        65535) g t ∧
      ∀ i : ShowIx,
        (s.shows.recs[i].clockWait = false → t.shows.recs[i] = s.shows.recs[i]) ∧
        (s.shows.recs[i].clockWait = true →
          t.shows.recs[i].clockWait = false ∧
            t.shows.recs[i].state = placedState s.shows.recs[i] time) := by
  intro t
  obtain ⟨flight, valid, -⟩ := placeAll_rest time s
  obtain ⟨count, -, placed⟩ := placeAll_effect time s
  obtain ⟨ends, shows, -⟩ := clockWords_ends (sat16 (placeAll time s).2)
    (flight.trans hf) (valid.trans hv)
  have eq : t = _ := finishClockSet_first time entries s
  rw [count] at ends eq shows
  rw [eq, shows]
  exact ⟨ends, placed⟩

/-- A forward CLOCK_SET takes what it brings due (R5, R6). -/
theorem finishClockSet_catchesUp {g : Flight} {time : Nat} {q : List DueEntry}
    (hq : (q.map (·.showIx)).Nodup) (hdue : ∀ e ∈ q, e.due ≤ time)
    (hf : s.win.flight = some g) (hv : s.win.windowValid = true) :
    let t := finishClockSet time false q s
    CaughtUp time q s t ∧ EndsWith .done (min (transitionsOf time q s) 65535) g t := by
  intro t
  obtain ⟨flight, valid, -⟩ := catchUp_rest time q s
  obtain ⟨caught, count, -, -⟩ := catchUp_done (s := s) (time := time) hq hdue
  obtain ⟨ends, shows, bus, -⟩ := clockWords_ends (sat16 (catchUp time q s).2)
    (flight.trans hf) (valid.trans hv)
  have eq : t = _ := finishClockSet_later time q s
  rw [count] at ends eq shows bus
  rw [eq]
  exact ⟨caught.congr rfl shows (by rw [bus]) (by rw [bus]), ends⟩

theorem finishClockSet_none {g : Flight} (time : Nat) (hf : s.win.flight = some g)
    (hv : s.win.windowValid = true) :
    let t := finishClockSet time false [] s
    t.shows = s.shows ∧ EndsWith .done 0 g t := by
  intro t
  have nothing : catchUp time [] s = (s, 0) := by
    rw [catchUp_eq, catchUpLoop_nil, commitShows_same]
  obtain ⟨ends, shows, -⟩ := clockWords_ends 0 hf hv
  have eq : t = _ := finishClockSet_later time [] s
  rw [nothing] at eq
  rw [eq]
  exact ⟨shows, ends⟩

/-! ## CLOCK_SET taken -/

variable {f : Flight}

/-- The state when the Lobby Clock has taken a CLOCK_SET (R5). -/
def lobbySet (f : Flight) (s : State) : State :=
  let value := fieldAt (entryBody f.bytes) 0 4
  { s with
    win := { s.win with flight := some { f with taken := true } }
    clock := { s.clock with
      lobby := some value
      dueList :=
        if s.clock.lobby.any (· ≤ value) then s.clock.dueList.dropWhile (·.due ≤ value)
        else s.clock.dueList } }

/-- The entries that a CLOCK_SET takes off the due list (R5). -/
def lobbyDue (f : Flight) (s : State) : List DueEntry :=
  let value := fieldAt (entryBody f.bytes) 0 4
  if s.clock.lobby.any (· ≤ value) then s.clock.dueList.takeWhile (·.due ≤ value) else []

theorem lobbySet_rest (f : Flight) (s : State) :
    (lobbySet f s).shows = s.shows ∧ (lobbySet f s).bus = s.bus := ⟨rfl, rfl⟩

theorem CaughtUp.ofShows {time : Nat} {q : List DueEntry} {t u : State}
    (h : CaughtUp time q t u) (hs : t.shows = s.shows) : CaughtUp time q s u :=
  h.congr hs rfl rfl rfl

theorem EndsWith.ofTaken {code : OutcomeCode} {n : Nat} {t : State}
    (h : EndsWith code n { f with taken := true } t) : EndsWith code n f t := h

theorem exec_clockSet (h : handedEntry .clockSet s = some f) :
    exec .clockSet s = .next
      (if s.bus.fromClock = [] then
        finishClockSet (fieldAt (entryBody f.bytes) 0 4) s.clock.lobby.isNone (lobbyDue f s)
          (lobbySet f s)
      else handClock (.setHalf (fieldAt (entryBody f.bytes) 0 4) s.clock.lobby.isNone (lobbyDue f s))
        (lobbySet f s)) :=
  congrArg Host.Outcome.next (takeEntry_handed h _)

theorem exec_catchUp_setHalf {value : Nat} {first : Bool} {due : List DueEntry}
    {rest : List ClockMsg} (h : s.bus.fromClock = .setHalf value first due :: rest) :
    exec .catchUp s = .next (finishClockSet value first due (clockTaken rest s)) := by
  simp only [exec, execCatchUp, h]

theorem exec_clockSet_waits (h : handedEntry .clockSet s = some f) (hw : s.bus.fromClock ≠ []) :
    exec .clockSet s = .next
      (handClock (.setHalf (fieldAt (entryBody f.bytes) 0 4) s.clock.lobby.isNone (lobbyDue f s))
        (lobbySet f s)) :=
  (exec_clockSet h).trans (congrArg Host.Outcome.next (if_neg hw))

theorem exec_clockSet_atOnce {value : Nat} (h : handedEntry .clockSet s = some f)
    (hw : s.bus.fromClock = []) (hvalue : fieldAt (entryBody f.bytes) 0 4 = value) :
    exec .clockSet s = .next
      (finishClockSet value s.clock.lobby.isNone (lobbyDue f s) (lobbySet f s)) := by
  subst hvalue
  exact (exec_clockSet h).trans (congrArg Host.Outcome.next (if_pos hw))

/-- The Show Table half of a CLOCK_SET, taken behind a catch-up (R5). -/
theorem setHalf_taken {value : Nat} {first : Bool} {due : List DueEntry} {rest : List ClockMsg}
    (h : s.bus.fromClock = .setHalf value first due :: rest) (hf : s.win.flight = some f)
    (hv : s.win.windowValid = true) :
    ∃ t, exec .catchUp s = .next t ∧ t.bus.fromClock = rest ∧ t.clock = s.clock ∧
      WordPlaced .lobbyNow 68 (leBytes 4 (s.clock.lobby.getD 0)) t ∧
      WordPlaced .clockSet 76 [if s.clock.lobby.isSome = true then 1 else 0] t ∧
      (first = true →
        EndsWith .done (min (((List.finRange 64).filter fun i => s.shows.recs[i].clockWait).length)
          65535) f t ∧
        ∀ i : ShowIx,
          (s.shows.recs[i].clockWait = false → t.shows.recs[i] = s.shows.recs[i]) ∧
          (s.shows.recs[i].clockWait = true →
            t.shows.recs[i].clockWait = false ∧
              t.shows.recs[i].state = placedState s.shows.recs[i] value)) ∧
      (first = false → due = [] → t.shows = s.shows ∧ EndsWith .done 0 f t) ∧
      (first = false → (due.map (·.showIx)).Nodup → (∀ e ∈ due, e.due ≤ value) →
        CaughtUp value due s t ∧ EndsWith .done (min (transitionsOf value due s) 65535) f t) := by
  obtain ⟨fromClock, clock, lobby, flag⟩ :=
    finishClockSet_done (s := clockTaken rest s) value first due hf hv
  refine ⟨_, exec_catchUp_setHalf h, fromClock, clock, lobby, flag, ?_, ?_, ?_⟩
  · rintro rfl
    exact finishClockSet_places (s := clockTaken rest s) value due hf hv
  · rintro rfl rfl
    exact finishClockSet_none (s := clockTaken rest s) value hf hv
  · rintro rfl hq hdue
    obtain ⟨caught, ends⟩ := finishClockSet_catchesUp (s := clockTaken rest s) hq hdue hf hv
    exact ⟨caught.congr rfl rfl rfl rfl, ends⟩

/-- What a CLOCK_SET brings due is of different shows where the due list is, and due by the value. -/
theorem takeWhile_due {q : List DueEntry} (value : Nat) (hq : (q.map (·.showIx)).Nodup) :
    ((q.takeWhile (·.due ≤ value)).map (·.showIx)).Nodup ∧
      ∀ e ∈ q.takeWhile (·.due ≤ value), e.due ≤ value :=
  ⟨hq.sublist ((List.takeWhile_sublist _).map _), fun _ he => by
    simpa using List.mem_takeWhile_imp he⟩

end

/-- Settles O32: behind a catch-up the Show Table half waits; with none waiting both halves are one command,
whose Show Table half places the waiting shows or catches up. -/
theorem clockSetPlacesWaitingShows : Obligations.ClockSetPlacesWaitingShows := by
  refine ⟨fun s f handed waits => exec_clockSet_waits handed.1 waits,
    fun s f value first due rest h hf hv => setHalf_taken h hf hv, ?_⟩
  intro s f ⟨handed, hv⟩ idle value
  have hf : (lobbySet f s).win.flight = some { f with taken := true } := rfl
  obtain ⟨shows, -⟩ := lobbySet_rest f s
  obtain ⟨-, clock, lobby, flag⟩ := finishClockSet_done (s := lobbySet f s) value
    s.clock.lobby.isNone (lobbyDue f s) hf hv
  refine ⟨_, exec_clockSet_atOnce (value := value) handed idle rfl, by rw [clock]; rfl, by rw [clock]; rfl, lobby, flag,
    fun unset => ?_, fun old set back => ?_, fun old set ahead hq => ?_⟩
  · obtain ⟨ends, placed⟩ := finishClockSet_places (s := lobbySet f s) value (lobbyDue f s) hf hv
    have kept : (lobbySet f s).clock.dueList = s.clock.dueList := by
      simp only [lobbySet, unset]
      rfl
    rw [show s.clock.lobby.isNone = true by rw [unset]; rfl]
    rw [show s.clock.lobby.isNone = true by rw [unset]; rfl] at clock
    rw [shows] at ends placed
    exact ⟨by rw [clock, kept], ends.ofTaken, placed⟩
  · have behind : s.clock.lobby.any (· ≤ value) = false := by
      rw [set]
      exact decide_eq_false (Nat.not_le.mpr back)
    have none_due : lobbyDue f s = [] := if_neg (by rw [behind]; exact nofun)
    have kept : (lobbySet f s).clock.dueList = s.clock.dueList :=
      if_neg (by rw [behind]; exact nofun)
    obtain ⟨shows', ends⟩ := finishClockSet_none (s := lobbySet f s) value hf hv
    rw [show s.clock.lobby.isNone = false by rw [set]; rfl, none_due] at clock ⊢
    exact ⟨shows', by rw [clock, kept], ends.ofTaken⟩
  · intro due
    have forward : s.clock.lobby.any (· ≤ value) = true := by
      rw [set]
      exact decide_eq_true ahead
    have due_eq : lobbyDue f s = due := if_pos forward
    have left : (lobbySet f s).clock.dueList = s.clock.dueList.dropWhile (·.due ≤ value) :=
      if_pos forward
    obtain ⟨single, past⟩ : (due.map (·.showIx)).Nodup ∧ ∀ e ∈ due, e.due ≤ value :=
      takeWhile_due value hq
    obtain ⟨caught, ends⟩ := finishClockSet_catchesUp (s := lobbySet f s) single past hf hv
    rw [show s.clock.lobby.isNone = false by rw [set]; rfl, due_eq] at clock ⊢
    have count : transitionsOf value due (lobbySet f s) = transitionsOf value due s := by
      unfold transitionsOf
      rw [shows]
    rw [count] at ends
    exact ⟨by rw [clock, left], caught.ofShows shows, ends.ofTaken⟩

end Sys2Proof.Machine

namespace Sys2Proof.Machine

section
variable {s t u : State}

/-! ## What an evaluation is made of -/

/-- An evaluation is made of pushes, and of endings of candidates whose show is gone (R95, R96). -/
theorem evaluate_relates (R : State → State → Prop) (refl : ∀ s, R s s)
    (trans : ∀ s t u, R s t → R t u → R s u)
    (push : ∀ (s : State) (d : DisplayIx) (i : NoticeIx), i ∈ s.arb.recs[d].pending →
      s.arb.recs[d].noticeState = .on → R s (pushNotice i d s))
    (ends : ∀ (s v : State) (d : DisplayIx) (i : NoticeIx), i ∈ s.arb.recs[d].pending →
      boundGone s i = true → R (removeEverywhere i s) v → R s (concludeEnding .showClosed i v))
    (fuel : Nat) (ds : List DisplayIx) (s : State) : R s (evaluate fuel ds s) := by
  induction fuel generalizing ds s with
  | zero => exact refl s
  | succ n ih =>
    cases ds with
    | nil => exact refl s
    | cons d rest =>
      simp only [evaluate]
      split
      · exact ih _ _
      · rename_i on
        split
        · exact ih _ _
        · rename_i i found
          have waits := ((candidateOf_iff s d i).mp found).1
          split
          · exact ih _ _
          · split
            · rename_i gone
              exact trans _ _ _ (ends s _ d i waits gone (ih _ _)) (ih _ _)
            · exact trans _ _ _ (push s d i waits (by simpa using on)) (ih _ _)

/-! ## One notice removed, pushed or ended -/

theorem removeAt_slots (i : NoticeIx) (d : DisplayIx) (s : State) :
    (removeAt i d s).arb.slots = s.arb.slots ∧ (removeAt i d s).arb.order = s.arb.order ∧
      (removeAt i d s).bus.toArbiter = s.bus.toArbiter := by
  unfold removeAt
  dsimp only
  split <;> exact ⟨rfl, rfl, rfl⟩

/-- A removal at one display takes the notice out of the pending set and off the stack there, and changes
no other notice and no other display (R99). -/
theorem removeAt_recs (i : NoticeIx) (d e : DisplayIx) (s : State) :
    (removeAt i d s).arb.recs[e].pending =
        (if e = d then s.arb.recs[e].pending.filter (· != i) else s.arb.recs[e].pending) ∧
      (removeAt i d s).arb.recs[e].stack =
        (if e = d then s.arb.recs[e].stack.filter (· != i) else s.arb.recs[e].stack) := by
  by_cases h : e = d
  · subst h
    rw [if_pos rfl, if_pos rfl]
    unfold removeAt
    dsimp only
    split
    · exact ⟨congrArg ArbRec.pending (put_same s.arb.recs e _),
        congrArg ArbRec.stack (put_same s.arb.recs e _)⟩
    · exact ⟨congrArg ArbRec.pending (put_same s.arb.recs e _),
        congrArg ArbRec.stack (put_same s.arb.recs e _)⟩
  · rw [if_neg h, if_neg h]
    unfold removeAt
    dsimp only
    split
    · exact ⟨congrArg ArbRec.pending (put_other s.arb.recs d e _ h),
        congrArg ArbRec.stack (put_other s.arb.recs d e _ h)⟩
    · exact ⟨congrArg ArbRec.pending (put_other s.arb.recs d e _ h),
        congrArg ArbRec.stack (put_other s.arb.recs d e _ h)⟩

/-- A notice removed from the displays of a list leaves their pending sets and stacks. -/
theorem removeFrom_effect (i : NoticeIx) (l : List DisplayIx) (s : State) :
    let t := l.foldl (fun s d => removeAt i d s) s
    t.arb.slots = s.arb.slots ∧ t.arb.order = s.arb.order ∧ t.bus.toArbiter = s.bus.toArbiter ∧
      ∀ e : DisplayIx,
        t.arb.recs[e].pending =
            (if e ∈ l then s.arb.recs[e].pending.filter (· != i) else s.arb.recs[e].pending) ∧
          t.arb.recs[e].stack =
            (if e ∈ l then s.arb.recs[e].stack.filter (· != i) else s.arb.recs[e].stack) := by
  induction l generalizing s with
  | nil => exact ⟨rfl, rfl, rfl, fun e => ⟨rfl, rfl⟩⟩
  | cons d l ih =>
    obtain ⟨slots, order, sent, recs⟩ := ih (removeAt i d s)
    obtain ⟨slots', order', sent'⟩ := removeAt_slots i d s
    refine ⟨slots.trans slots', order.trans order', sent.trans sent', fun e => ?_⟩
    obtain ⟨pending, stack⟩ := recs e
    obtain ⟨pending', stack'⟩ := removeAt_recs i d e s
    rw [List.foldl_cons, pending, stack, pending', stack']
    by_cases h : e = d <;> by_cases h' : e ∈ l <;> simp [h, h']

/-- A notice removed everywhere stands nowhere, and every other stands where it stood (R79). -/
theorem removeEverywhere_effect (i : NoticeIx) (s : State) :
    (removeEverywhere i s).arb.slots = s.arb.slots ∧
      (removeEverywhere i s).arb.order = s.arb.order ∧
      (removeEverywhere i s).bus.toArbiter = s.bus.toArbiter ∧
      ∀ e : DisplayIx,
        (removeEverywhere i s).arb.recs[e].pending = s.arb.recs[e].pending.filter (· != i) ∧
        (removeEverywhere i s).arb.recs[e].stack = s.arb.recs[e].stack.filter (· != i) := by
  obtain ⟨slots, order, sent, recs⟩ := removeFrom_effect i (holders s i) s
  refine ⟨slots, order, sent, fun e => ?_⟩
  obtain ⟨pending, stack⟩ := recs e
  rw [removeEverywhere, pending, stack]
  by_cases held : e ∈ holders s i
  · rw [if_pos held, if_pos held]
    exact ⟨rfl, rfl⟩
  · have absent : ¬ standsAt s i e := by
      simpa [holders, holdsNotice, standsAt, not_or] using held
    rw [if_neg held, if_neg held]
    refine ⟨(List.filter_eq_self.mpr fun j hj => ?_).symm, (List.filter_eq_self.mpr fun j hj => ?_).symm⟩
    · exact bne_iff_ne.mpr fun h => absent (.inl (h ▸ hj))
    · exact bne_iff_ne.mpr fun h => absent (.inr (h ▸ hj))

/-- An ending leaves what waits where it waits, and every other slot (R79). -/
theorem concludeEnding_spares (r : NoticeEnd) (i : NoticeIx) (s : State) :
    (concludeEnding r i s).arb.recs = s.arb.recs ∧
      (concludeEnding r i s).bus.toArbiter = s.bus.toArbiter ∧
      (concludeEnding r i s).desks.inHand = s.desks.inHand ∧
      (∀ j : NoticeIx, j ≠ i → (concludeEnding r i s).arb.slots[j] = s.arb.slots[j]) ∧
      (s.arb.slots[i].notice = none → (concludeEnding r i s).arb.slots[i] = s.arb.slots[i]) ∧
      (s.arb.slots[i].notice ≠ none →
        (concludeEnding r i s).arb.slots[i] = ⟨(s.arb.slots[i].gen + 1) % 256, none⟩) := by
  have arb := concludeEnding_arb r i s
  have sent (d : DeskIx) (seq : Byte) (m : DeskMsg) :
      (sendDesk d seq m s).bus.toArbiter = s.bus.toArbiter :=
    (congrArg Bus.toArbiter (sendDesk_raises d seq m s) :)
  refine ⟨?_, ?_, ?_, fun j hj => ?_, fun free => ?_, fun used => ?_⟩
  · rw [arb]
    split <;> rfl
  · unfold concludeEnding
    cases noticeAt s i with
    | none => rfl
    | some n => cases h : n.origin <;> simp only [h] <;> split <;> simp [raise, sent]
  · unfold concludeEnding
    cases noticeAt s i with
    | none => rfl
    | some n => cases h : n.origin <;> simp only [h] <;> split <;> simp
  · rw [arb]
    split
    · rfl
    · exact put_other _ _ _ _ hj
  · exact congrArg (·.slots[i]) (arb.trans (if_pos free))
  · exact (congrArg (·.slots[i]) (arb.trans (if_neg used))).trans (put_same _ _ _)

/-! ## What the dealing with other notices leaves a notice -/

/-- No evaluation can end notice `i`: its show is not gone, or it waits at no display (R96). -/
def Secure (i : NoticeIx) (s : State) : Prop :=
  boundGone s i = false ∨ ∀ d : DisplayIx, i ∉ s.arb.recs[d].pending

/-- Between `s` and `t` a notice that no evaluation can end stays, and comes to wait at no display. -/
structure Spares (i : NoticeIx) (s t : State) : Prop where
  shows : t.shows = s.shows
  kept : Secure i s → SameNotice s t i ∧
    ∀ d : DisplayIx, i ∈ t.arb.recs[d].pending → i ∈ s.arb.recs[d].pending

theorem SameNotice.trans {i : NoticeIx} (h : SameNotice s t i) (h' : SameNotice t u i) :
    SameNotice s u i := ⟨h'.1.trans h.1, h'.2.trans h.2⟩

theorem SameNotice.of_slot {i : NoticeIx} (h : t.arb.slots[i] = s.arb.slots[i]) : SameNotice s t i :=
  ⟨congrArg NoticeSlot.gen h, congrArg (·.notice.map Notice.posted) h⟩

theorem SameNotice.used {i : NoticeIx} (h : SameNotice s t i) (used : s.arb.slots[i].notice ≠ none) :
    t.arb.slots[i].notice ≠ none := fun free => used (by
  have := h.2
  rw [free] at this
  exact Option.map_eq_none_iff.mp this.symm)

/-- A slot that is free holds the same notice where it stays as it is. -/
theorem SameNotice.free {i : NoticeIx} (h : SameNotice s t i) (free : s.arb.slots[i].notice = none) :
    t.arb.slots[i] = s.arb.slots[i] := by
  obtain ⟨gen, notice⟩ := h
  rw [free] at notice
  have none' : t.arb.slots[i].notice = none := Option.map_eq_none_iff.mp notice
  cases ht : t.arb.slots[i]
  cases hs : s.arb.slots[i]
  simp only [ht, hs] at gen free none'
  rw [gen, free, none']

/-- Whether a notice's show is gone is a matter of the shows and of the notice as posted (R96). -/
theorem boundGone_congr {i : NoticeIx} (shows : t.shows = s.shows) (same : SameNotice s t i) :
    boundGone t i = boundGone s i := by
  have bound : t.arb.slots[i].notice.map Notice.bound = s.arb.slots[i].notice.map Notice.bound := by
    have := congrArg (Option.map Notice.bound) same.2
    simpa only [Option.map_map, Function.comp_def, Notice.posted] using this
  unfold boundGone noticeAt
  rw [shows]
  generalize s.arb.slots[i].notice = a at bound
  generalize t.arb.slots[i].notice = b at bound
  cases a <;> cases b <;> simp at bound ⊢
  rw [bound]

theorem Spares.secure {i : NoticeIx} (h : Spares i s t) (secure : Secure i s) : Secure i t := by
  obtain ⟨same, waits⟩ := h.kept secure
  refine secure.imp (fun live => (boundGone_congr h.shows same).trans live) fun nowhere d waiting => ?_
  exact nowhere d (waits d waiting)

theorem Spares.refl (i : NoticeIx) (s : State) : Spares i s s := ⟨rfl, fun _ => ⟨⟨rfl, rfl⟩, fun _ h => h⟩⟩

theorem Spares.trans {i : NoticeIx} (h : Spares i s t) (h' : Spares i t u) : Spares i s u := by
  refine ⟨h'.shows.trans h.shows, fun secure => ?_⟩
  obtain ⟨same, waits⟩ := h.kept secure
  obtain ⟨same', waits'⟩ := h'.kept (h.secure secure)
  exact ⟨same.trans same', fun d waiting => waits d (waits' d waiting)⟩

theorem removeEverywhere_spares (i j : NoticeIx) (s : State) : Spares i s (removeEverywhere j s) := by
  obtain ⟨slots, -, -, recs⟩ := removeEverywhere_effect j s
  refine ⟨by simp, fun _ => ⟨.of_slot (by rw [slots]), fun d waiting => ?_⟩⟩
  rw [(recs d).1] at waiting
  exact List.mem_of_mem_filter waiting

theorem concludeEnding_spares_other (r : NoticeEnd) {i j : NoticeIx} (h : i ≠ j) (s : State) :
    Spares i s (concludeEnding r j s) := by
  obtain ⟨recs, -, -, others, -⟩ := concludeEnding_spares r j s
  exact ⟨by simp, fun _ => ⟨.of_slot (others i h), fun d waiting => by rwa [recs] at waiting⟩⟩

theorem pushNotice_spares (i j : NoticeIx) (d : DisplayIx) (s : State)
    (waiting : j ∈ s.arb.recs[d].pending) (on : s.arb.recs[d].noticeState = .on) :
    Spares i s (pushNotice j d s) := by
  obtain ⟨pushed, rec⟩ := pushNotice_only j d s waiting on
  obtain ⟨gen, notice⟩ := pushed.notice i
  refine ⟨pushed.shows, fun _ => ⟨⟨gen, ?_⟩, fun e there => ?_⟩⟩
  · have := congrArg (Option.map Notice.posted) notice
    rw [Option.map_map, Option.map_map] at this
    exact this
  · by_cases h : e = d
    · subst h
      rw [rec] at there
      exact List.mem_of_mem_filter there
    · rwa [pushed.elsewhere e (.inl (by simpa using h))] at there

/-- An evaluation ends no notice but candidates whose show is gone (R96). -/
theorem evaluate_spares (i : NoticeIx) (fuel : Nat) (ds : List DisplayIx) (s : State) :
    Spares i s (evaluate fuel ds s) := by
  refine evaluate_relates (Spares i) (Spares.refl i) (fun _ _ _ => Spares.trans)
    (fun s d j => pushNotice_spares i j d s) (fun s v d j waiting gone removed => ?_) fuel ds s
  have h := (removeEverywhere_spares i j s).trans removed
  by_cases same : i = j
  · subst same
    refine ⟨by simpa using h.shows, fun secure => ?_⟩
    rcases secure with live | nowhere
    · simp [gone] at live
    · exact absurd waiting (nowhere d)
  · exact h.trans (concludeEnding_spares_other _ same v)

theorem evaluateAll_spares (i : NoticeIx) (ds : List DisplayIx) (s : State) :
    Spares i s (evaluateAll ds s) := evaluate_spares i 4000 ds s

theorem withdrawPending_spares (i j : NoticeIx) (s : State) : Spares i s (withdrawPending j s) := by
  refine ⟨by simp, fun _ => ⟨⟨rfl, rfl⟩, fun d waiting => ?_⟩⟩
  have written : (withdrawPending j s).arb.recs[d] = { s.arb.recs[d] with
      pending := s.arb.recs[d].pending.filter (· != j) } :=
    Vector.getElem_map _ _
  rw [written] at waiting
  exact List.mem_of_mem_filter waiting

theorem Spares.foldl {α : Type} {i : NoticeIx} (g : State → α → State) (l : List α)
    (h : ∀ a ∈ l, ∀ s, Spares i s (g s a)) (s : State) : Spares i s (l.foldl g s) := by
  induction l generalizing s with
  | nil => exact .refl i s
  | cons a l ih =>
    exact (h a (by simp) s).trans (ih (fun b hb => h b (by simp [hb])) (g s a))

/-! ## One notice ended -/

/-- The ending of one notice, the displays of a list evaluated before its slot is freed (R79). -/
def endingStep (r : NoticeEnd) (ds : List DisplayIx) (i : NoticeIx) (s : State) : State :=
  concludeEnding r i (evaluateAll ds (removeEverywhere i s))

theorem endNotice_eq (r : NoticeEnd) {i : NoticeIx} (used : s.arb.slots[i].notice ≠ none) :
    endNotice r i s = endingStep r (holders s i) i s := by
  unfold endNotice noticeAt
  cases h : s.arb.slots[i].notice with
  | none => exact absurd h used
  | some n => rfl

theorem endingStep_spares (r : NoticeEnd) (ds : List DisplayIx) {i j : NoticeIx} (h : i ≠ j)
    (s : State) : Spares i s (endingStep r ds j s) :=
  ((removeEverywhere_spares i j s).trans (evaluateAll_spares i ds _)).trans
    (concludeEnding_spares_other r h _)

/-- Until its slot is freed the notice that ends stays, as it waits nowhere any more. -/
theorem ending_same (ds : List DisplayIx) (i : NoticeIx) (s : State) :
    SameNotice s (evaluateAll ds (removeEverywhere i s)) i := by
  obtain ⟨slots, -⟩ := removeEverywhere_effect i s
  have nowhere : Secure i (removeEverywhere i s) :=
    .inr fun d waiting => (removeEverywhere_stands i s).2 d (.inl waiting)
  exact SameNotice.trans (.of_slot (by rw [slots])) ((evaluateAll_spares i ds _).kept nowhere).1

theorem endingStep_ends (r : NoticeEnd) (ds : List DisplayIx) {i : NoticeIx}
    (used : s.arb.slots[i].notice ≠ none) :
    (endingStep r ds i s).arb.slots[i] = ⟨(s.arb.slots[i].gen + 1) % 256, none⟩ := by
  have same := ending_same ds i s
  obtain ⟨-, -, -, -, -, freed⟩ :=
    concludeEnding_spares r i (evaluateAll ds (removeEverywhere i s))
  rw [endingStep, freed (same.used used), same.1]

theorem endingStep_free (r : NoticeEnd) (ds : List DisplayIx) {i : NoticeIx}
    (free : s.arb.slots[i].notice = none) : (endingStep r ds i s).arb.slots[i] = s.arb.slots[i] := by
  have same := (ending_same ds i s).free free
  obtain ⟨-, -, -, -, stays, -⟩ :=
    concludeEnding_spares r i (evaluateAll ds (removeEverywhere i s))
  rw [endingStep, stays (by rw [same]; exact free), same]

/-- Of the notices an event deals with, notice `i` ends, and no other while no show is gone. -/
def OnlyEnds (i : NoticeIx) (s t : State) : Prop :=
  NoticeEnded s t i ∧ (NoneGone s → ∀ j : NoticeIx, j ≠ i → SameNotice s t j)

theorem OnlyEnds.congr {i : NoticeIx} {s' t' : State} (h : OnlyEnds i s t)
    (before : s'.arb.slots = s.arb.slots) (shows : s'.shows = s.shows)
    (after : t'.arb.slots = t.arb.slots) : OnlyEnds i s' t' := by
  unfold OnlyEnds NoticeEnded SameNotice NoneGone boundGone noticeAt at *
  rw [before, shows, after]
  exact h

theorem endNotice_only (r : NoticeEnd) {i : NoticeIx} (used : s.arb.slots[i].notice ≠ none) :
    OnlyEnds i s (endNotice r i s) := by
  rw [endNotice_eq r used]
  refine ⟨⟨Option.isSome_iff_ne_none.mpr used, endingStep_ends r _ used⟩, fun live j hj => ?_⟩
  exact ((endingStep_spares r _ hj s).kept (.inl (live j))).1

/-! ## Requests stay where an evaluation runs -/

/-- Neither the request in the intake hand nor what the Show Table has sent has changed. -/
def RequestsStay (s t : State) : Prop :=
  t.desks.inHand = s.desks.inHand ∧ t.bus.toArbiter = s.bus.toArbiter

theorem RequestsStay.trans (h : RequestsStay s t) (h' : RequestsStay t u) : RequestsStay s u :=
  ⟨h'.1.trans h.1, h'.2.trans h.2⟩

theorem RequestsStay.foldl {α : Type} (g : State → α → State) (h : ∀ s a, RequestsStay s (g s a))
    (l : List α) (s : State) : RequestsStay s (l.foldl g s) := by
  induction l generalizing s with
  | nil => exact ⟨rfl, rfl⟩
  | cons a l ih => exact (h s a).trans (ih (g s a))

theorem removeEverywhere_requests (i : NoticeIx) (s : State) : RequestsStay s (removeEverywhere i s) :=
  ⟨by simp, (removeEverywhere_effect i s).2.2.1⟩

theorem concludeEnding_requests (r : NoticeEnd) (i : NoticeIx) (s : State) :
    RequestsStay s (concludeEnding r i s) := by
  obtain ⟨-, sent, hand, -⟩ := concludeEnding_spares r i s
  exact ⟨hand, sent⟩

theorem pushNotice_requests (i : NoticeIx) (d : DisplayIx) (s : State) :
    RequestsStay s (pushNotice i d s) := by
  refine ⟨by simp, ?_⟩
  unfold pushNotice
  dsimp only
  split <;> rfl

theorem evaluateAll_requests (ds : List DisplayIx) (s : State) : RequestsStay s (evaluateAll ds s) :=
  evaluate_relates RequestsStay (fun _ => ⟨rfl, rfl⟩) (fun _ _ _ => RequestsStay.trans)
    (fun s d i _ _ => pushNotice_requests i d s)
    (fun s v _ i _ _ h => ((removeEverywhere_requests i s).trans h).trans
      (concludeEnding_requests _ i v)) 4000 ds s

theorem endingStep_requests (r : NoticeEnd) (ds : List DisplayIx) (i : NoticeIx) (s : State) :
    RequestsStay s (endingStep r ds i s) :=
  ((removeEverywhere_requests i s).trans (evaluateAll_requests ds _)).trans
    (concludeEnding_requests r i _)

theorem noticeEvent_requests (extra : Option NoticeIx) {act : State → State}
    (h : RequestsStay s (act s)) : RequestsStay s (noticeEvent extra act s) := by
  obtain ⟨-, -, -, -, bus⟩ := noticeEvent_effect extra act s
  refine ⟨?_, (congrArg (·.toArbiter) bus).trans h.2⟩
  have desks : (noticeEvent extra act s).desks = (act s).desks := by
    unfold noticeEvent
    simp
  rw [desks]
  exact h.1

/-- A notice ended by an event of its own. -/
theorem endedAlone (r : NoticeEnd) {i : NoticeIx} (used : s.arb.slots[i].notice ≠ none) :
    OnlyEnds i s (noticeEvent none (endNotice r i) s) ∧
      RequestsStay s (noticeEvent none (endNotice r i) s) := by
  obtain ⟨slots, -⟩ := noticeEvent_effect none (endNotice r i) s
  refine ⟨(endNotice_only r used).congr rfl rfl slots, noticeEvent_requests none ?_⟩
  rw [endNotice_eq r used]
  exact endingStep_requests r _ i s

end

end Sys2Proof.Machine

namespace Sys2Proof.Machine

section
variable {s t u : State}

/-! ## Notices that end together -/

/-- A free slot stays free, and as it is, whatever notices end. -/
theorem endingSteps_free (r : NoticeEnd) (ds : NoticeIx → List DisplayIx) {i : NoticeIx}
    (l : List NoticeIx) (s : State) (free : s.arb.slots[i].notice = none) :
    (l.foldl (fun t j => endingStep r (ds j) j t) s).arb.slots[i] = s.arb.slots[i] := by
  induction l generalizing s with
  | nil => rfl
  | cons j l ih =>
    have stays : (endingStep r (ds j) j s).arb.slots[i] = s.arb.slots[i] := by
      by_cases same : i = j
      · subst same
        exact endingStep_free r _ free
      · have live : boundGone s i = false := by
          unfold boundGone noticeAt
          rw [free]
          rfl
        exact ((endingStep_spares r (ds j) same s).kept (.inl live)).1.free free
    exact (ih _ (by rw [stays]; exact free)).trans stays

/-- Each of the notices that no evaluation can end before its turn ends once. -/
theorem endingSteps_end (r : NoticeEnd) (ds : NoticeIx → List DisplayIx) {i : NoticeIx}
    (l : List NoticeIx) (s : State) (listed : i ∈ l) (used : s.arb.slots[i].notice ≠ none)
    (secure : Secure i s) :
    (l.foldl (fun t j => endingStep r (ds j) j t) s).arb.slots[i] =
      ⟨(s.arb.slots[i].gen + 1) % 256, none⟩ := by
  induction l generalizing s with
  | nil => simp at listed
  | cons j l ih =>
    by_cases same : i = j
    · subst same
      have ended := endingStep_ends r (ds i) used
      exact (endingSteps_free r ds l _ (by rw [ended])).trans ended
    · have spared := endingStep_spares r (ds j) same s
      obtain ⟨kept, -⟩ := spared.kept secure
      refine (ih _ ((List.mem_cons.mp listed).resolve_left same) (kept.used used)
        (spared.secure secure)).trans ?_
      rw [kept.1]

theorem withdrawn_slots (l : List NoticeIx) (s : State) :
    (l.foldl (fun t i => withdrawPending i t) s).arb.slots = s.arb.slots := by
  induction l generalizing s with
  | nil => rfl
  | cons j l ih => exact ih _

/-- A notice withdrawn waits at no display. -/
theorem withdrawn_nowhere {i : NoticeIx} (l : List NoticeIx) (s : State) (listed : i ∈ l) :
    ∀ d : DisplayIx, i ∉ (l.foldl (fun t i => withdrawPending i t) s).arb.recs[d].pending := by
  induction l generalizing s with
  | nil => simp at listed
  | cons j l ih =>
    by_cases same : i = j
    · subst same
      have nowhere (d : DisplayIx) : i ∉ (withdrawPending i s).arb.recs[d].pending := by
        have written : (withdrawPending i s).arb.recs[d] = { s.arb.recs[d] with
            pending := s.arb.recs[d].pending.filter (· != i) } := Vector.getElem_map _ _
        rw [written]
        simp
      intro d waiting
      exact nowhere d (((Spares.foldl _ l (fun j _ => withdrawPending_spares i j) _).kept
        (.inr nowhere)).2 d waiting)
    · exact ih _ ((List.mem_cons.mp listed).resolve_left same)

/-- The notices bound to a show that is gone have left the pending sets before the first ends (R109). -/
def withdrawn (is : List NoticeIx) (s : State) : State :=
  (is.filter (boundGone s)).foldl (fun t i => withdrawPending i t) s

theorem withdrawn_spares (is : List NoticeIx) (i : NoticeIx) (s : State) : Spares i s (withdrawn is s) :=
  Spares.foldl _ _ (fun j _ => withdrawPending_spares i j) s

theorem withdrawn_secure {is : List NoticeIx} {i : NoticeIx} (listed : i ∈ is) :
    Secure i (withdrawn is s) := by
  by_cases gone : boundGone s i = true
  · exact .inr (withdrawn_nowhere _ s (List.mem_filter.mpr ⟨listed, gone⟩))
  · exact (withdrawn_spares is i s).secure (.inl (by simpa using gone))

theorem endNotices_eq (r : NoticeEnd) (is : List NoticeIx) (s : State) :
    endNotices r is s =
      is.foldl (fun t i => endingStep r (holders s i) i t) (withdrawn is s) := rfl

/-- Every notice of the list ends, and one not of the list stays where its show is not gone (R89). -/
theorem endNotices_end (r : NoticeEnd) (is : List NoticeIx) (s : State) (i : NoticeIx) :
    (i ∈ is → s.arb.slots[i].notice ≠ none → NoticeEnded s (endNotices r is s) i) ∧
      (i ∉ is → boundGone s i = false → SameNotice s (endNotices r is s) i) := by
  have slots : (withdrawn is s).arb.slots = s.arb.slots := withdrawn_slots _ s
  rw [endNotices_eq]
  refine ⟨fun listed used => ⟨Option.isSome_iff_ne_none.mpr used, ?_⟩, fun other live => ?_⟩
  · have ended := endingSteps_end r (holders s) is (withdrawn is s) listed (by rw [slots]; exact used)
      (withdrawn_secure listed)
    rw [slots] at ended
    exact ended
  · have spared := Spares.foldl (fun t j => endingStep r (holders s j) j t) is
      (fun j hj => endingStep_spares r (holders s j) fun (same : i = j) => other (same ▸ hj)) (withdrawn is s)
    exact (((withdrawn_spares is i s).trans spared).kept (.inl live)).1

theorem endNotices_requests (r : NoticeEnd) (is : List NoticeIx) (s : State) :
    RequestsStay s (endNotices r is s) := by
  rw [endNotices_eq]
  have left : RequestsStay s (withdrawn is s) :=
    RequestsStay.foldl (fun t i => withdrawPending i t) (fun _ _ => ⟨rfl, rfl⟩) _ s
  exact left.trans (RequestsStay.foldl (fun t i => endingStep r (holders s i) i t)
    (fun t j => endingStep_requests r (holders s j) j t) is _)

/-- Notices ended together by an event of their own. -/
theorem endedTogether (r : NoticeEnd) (is : List NoticeIx) (s : State) :
    RequestsStay s (noticeEvent none (endNotices r is) s) ∧ ∀ i : NoticeIx,
      (i ∈ is → s.arb.slots[i].notice ≠ none →
        NoticeEnded s (noticeEvent none (endNotices r is) s) i) ∧
      (i ∉ is → boundGone s i = false → SameNotice s (noticeEvent none (endNotices r is) s) i) := by
  refine ⟨noticeEvent_requests none (endNotices_requests r is s), fun i => ?_⟩
  obtain ⟨slots, -⟩ := noticeEvent_effect none (endNotices r is) s
  unfold NoticeEnded SameNotice
  rw [slots]
  exact endNotices_end r is s i

/-! ## Which notice expires -/

theorem nextExpired_none (now : Nat) (l : List NoticeIx)
    (h : ∀ i ∈ l, ∀ e, (noticeAt s i).bind (·.expiry) = some e → now < e) :
    nextExpired s now l = none := by
  induction l with
  | nil => rfl
  | cons i l ih =>
    have rest := ih fun j hj => h j (List.mem_cons_of_mem _ hj)
    simp only [nextExpired, rest]
    cases he : (noticeAt s i).bind (·.expiry) with
    | none => rfl
    | some e => exact if_pos (h i (by simp) e he)

/-- The notice that the model ends next is the one that expires before every other that is due (R88). -/
theorem nextExpired_first {now e : Nat} {i : NoticeIx} (expires : (noticeAt s i).bind (·.expiry) = some e)
    (due : e ≤ now) (l : List NoticeIx) (listed : i ∈ l)
    (first : ∀ j ∈ l, j ≠ i → ∀ e', (noticeAt s j).bind (·.expiry) = some e' → e < e') :
    nextExpired s now l = some (e, i) := by
  have later (l : List NoticeIx) (hl : ∀ j ∈ l, j ≠ i → ∀ e', (noticeAt s j).bind (·.expiry) = some e' →
      e < e') : i ∉ l → nextExpired s now l = none ∨ ∃ e' j, nextExpired s now l = some (e', j) ∧ e < e' := by
    intro absent
    induction l with
    | nil => exact .inl rfl
    | cons j l ih =>
      have h := ih (fun k hk => hl k (List.mem_cons_of_mem _ hk)) fun hi => absent (List.mem_cons_of_mem _ hi)
      simp only [nextExpired]
      cases he : (noticeAt s j).bind (·.expiry) with
      | none => exact h
      | some e' =>
        have after := hl j (by simp) (fun same => absent (by simp [same])) e' he
        dsimp only
        split
        · exact h
        · rcases h with h | ⟨e'', k, h, _⟩ <;> rw [h] <;> dsimp only
          · exact .inr ⟨e', j, rfl, after⟩
          · split
            · exact .inr ⟨e', j, rfl, after⟩
            · exact .inr ⟨e'', k, rfl, ‹_›⟩
  induction l with
  | nil => simp at listed
  | cons j l ih =>
    have firstOf := fun k hk => first k (List.mem_cons_of_mem j hk)
    by_cases inRest : i ∈ l
    · have h := ih inRest firstOf
      simp only [nextExpired, h]
      cases he : (noticeAt s j).bind (·.expiry) with
      | none => rfl
      | some e' =>
        dsimp only
        split
        · rfl
        · by_cases same : j = i
          · subst same
            obtain rfl : e' = e := Option.some.inj (he.symm.trans expires)
            rw [if_pos (Nat.le_refl _)]
          · have after := first j (by simp) same e' he
            rw [if_neg (by omega)]
    · obtain rfl : i = j := (List.mem_cons.mp listed).resolve_right inRest
      simp only [nextExpired, expires]
      rw [if_neg (by omega)]
      rcases later l firstOf inRest with h | ⟨e'', k, h, after⟩
      · rw [h]
      · rw [h]
        exact if_pos (Nat.le_of_lt after)

/-! ## The five events -/

theorem liveNotice_slot {ref : Nat} {i : NoticeIx} {n : Notice} (h : liveNotice s ref = some (i, n)) :
    s.arb.slots[i].notice = some n := by
  unfold liveNotice at h
  split at h
  · simp at h
  · split at h
    · simp at h
    · split at h
      · cases h
        assumption
      · simp at h

theorem findKey_slot {o : Origin} {topic : Nat} {i : NoticeIx} (h : findKey s o topic = some i) :
    s.arb.slots[i].notice ≠ none := by
  intro free
  have found := List.find?_some h
  unfold noticeAt at found
  rw [free] at found
  simp at found

theorem exec_noticeClear {x : Flight} (h : handedEntry .noticeClear s = some x) :
    exec .noticeClear s = .next (takeClear (fieldAt (entryBody x.bytes) 0 2) s) :=
  congrArg Host.Outcome.next (takeEntry_handed h _)

theorem exec_deskNoticeClear {e : IntakeEntry} (h : requestInHand .noticeClear s = some e) :
    exec .deskNoticeClear s = .next (takeDeskClear e (handEmptied s)) :=
  congrArg Host.Outcome.next (takeRequest_inHand h _)

theorem takeClear_effect {x : Flight} (flight : s.win.flight = some x) (valid : s.win.windowValid = true)
    (ref : Nat) :
    (liveNotice s ref = none →
        (takeClear ref s).arb = s.arb ∧ EndsWith .noRecord ref x (takeClear ref s)) ∧
      ∀ i n, liveNotice s ref = some (i, n) →
        OnlyEnds i s (takeClear ref s) ∧ EndsWith .done ref x (takeClear ref s) := by
  constructor
  · intro gone
    have eq : takeClear ref s = finish .noRecord ref s := by simp only [takeClear, gone]
    rw [eq]
    exact ⟨by simp, (finish_refused .noRecord ref flight valid).2.2⟩
  · intro i n live
    have eq : takeClear ref s = finish .done ref (noticeEvent none (endNotice .cleared i) s) := by
      simp only [takeClear, live]
    obtain ⟨only, -⟩ := endedAlone .cleared (s := s) (i := i)
      (Option.isSome_iff_ne_none.mp (by rw [liveNotice_slot live]; rfl))
    rw [eq]
    refine ⟨only.congr rfl rfl (by simp), (finish_refused .done ref ?_ ?_).2.2⟩
    · simpa using flight
    · simpa using valid

/-- A clear request of a desk that names a notice of its own (R86). -/
def deskClearTaken (e : IntakeEntry) (s : State) : State :=
  sendDesk e.desk e.seq
    (.noticeTaken (fieldAt e.body 0 2) (Config.freePriority s.freeCount).toNat false false false)
    { s with freeCount := s.freeCount + 1 }

theorem takeDeskClear_eq (e : IntakeEntry) {i : NoticeIx} {n : Notice}
    (live : liveNotice s (fieldAt e.body 0 2) = some (i, n)) :
    takeDeskClear e s =
      if n.origin ≠ .desk e.desk then sendDesk e.desk e.seq (.noticeRefused .notOwner 0) s
      else noticeEvent none (endNotice .cleared i) (deskClearTaken e s) := by
  simp only [takeDeskClear, live]
  rfl

theorem exec_clearRequest {b : ShowIx} {rest : List ShowMsg} (h : s.bus.toArbiter = .clear b :: rest) :
    (findKey s .schedule ((1 + 4 * b.val) % 256) = none →
        exec .clearRequest s = .next { s with bus := { s.bus with toArbiter := rest } }) ∧
      ∀ i, findKey s .schedule ((1 + 4 * b.val) % 256) = some i →
        ∃ v : State, exec .clearRequest s = .next (noticeEvent none (endNotice .cleared i) v) ∧
          v.arb = s.arb ∧ v.shows = s.shows ∧ v.bus.toArbiter = rest := by
  have key (o : Option NoticeIx) (found : findKey s .schedule ((1 + 4 * b.val) % 256) = o) :
      findKey { s with bus := { s.bus with toArbiter := rest } } .schedule (autoTopic .soldOut b) = o :=
    found
  refine ⟨fun none' => ?_, fun i found =>
    ⟨{ s with bus := { s.bus with toArbiter := rest } }, ?_, rfl, rfl, rfl⟩⟩ <;>
    simp only [exec, execClearRequest, h]
  · rw [key none none']
  · rw [key (some i) found]

theorem exec_closureReport {b : ShowIx} {reason : NoticeEnd} {rest : List ShowMsg}
    (h : s.bus.toArbiter = .closure b reason :: rest) :
    ∃ v : State, exec .closureReport s = .next (noticeEvent none (endNotices reason (boundTo s b)) v) ∧
      v.arb = s.arb ∧ v.shows = s.shows ∧ v.bus.toArbiter = rest := by
  refine ⟨{ s with bus := { s.bus with toArbiter := rest } }, ?_, rfl, rfl, rfl⟩
  simp only [exec, execClosureReport, h]
  exact congrArg (fun l => Host.Outcome.next (noticeEvent none (endNotices reason l)
    { s with bus := { s.bus with toArbiter := rest } })) rfl

theorem mem_boundTo {b : ShowIx} {i : NoticeIx} {n : Notice} (h : s.arb.slots[i].notice = some n) :
    i ∈ boundTo s b ↔ i ∈ s.arb.order ∧ n.bound = some b := by
  unfold boundTo noticeAt
  rw [List.mem_filter, h]
  simp

theorem exec_noticeExpiry (s : State) :
    (nextExpired s s.clock.partSeconds s.arb.order = none → exec .noticeExpiry s = .next s) ∧
      ∀ e i, nextExpired s s.clock.partSeconds s.arb.order = some (e, i) →
        exec .noticeExpiry s = .next (noticeEvent none (endNotice .expired i) s) := by
  refine ⟨fun h => ?_, fun e i h => ?_⟩ <;> simp only [exec, execNoticeExpiry, h]

theorem expiry_of_bind {i : NoticeIx} {e : Nat} :
    (noticeAt s i).bind (·.expiry) = some e ↔
      ∃ n, s.arb.slots[i].notice = some n ∧ n.expiry = some e :=
  Option.bind_eq_some_iff

/-- Settles O48, by the ending of one notice, which spares every other whose show is not gone, and, for a
closure, by the withdrawal of the notices that end before the first ends. -/
theorem noticesEnd : Obligations.NoticesEnd := by
  intro s only
  refine ⟨?journal, ?desk, ?request, ?closure, ?early, ?expiry⟩
  case journal =>
    intro x handed ref
    obtain ⟨handed, valid⟩ := handed
    exact ⟨_, exec_noticeClear handed, takeClear_effect (handedEntry_flight handed) valid ref⟩
  case desk =>
    intro e inHand room ref
    refine ⟨_, exec_deskNoticeClear inHand, ?_⟩
    have refused (r : Reason) := sendDesk_answers (u := handEmptied s) rfl room e.seq
      (.noticeRefused r 0)
    cases live : liveNotice s ref with
    | none =>
      obtain ⟨hand, -, -, told⟩ := refused .unknownNotice
      have eq : takeDeskClear e (handEmptied s) =
          sendDesk e.desk e.seq (.noticeRefused .unknownNotice 0) (handEmptied s) := by
        have live' : liveNotice (handEmptied s) (fieldAt e.body 0 2) = none := live
        simp only [takeDeskClear, live']
      rw [eq]
      exact ⟨hand, fun _ => ⟨by simp [handEmptied], told⟩, nofun, nofun⟩
    | some found =>
      obtain ⟨i, n⟩ := found
      have eq := takeDeskClear_eq (s := handEmptied s) e live
      by_cases owner : n.origin ≠ .desk e.desk
      · obtain ⟨hand, -, -, told⟩ := refused .notOwner
        rw [eq.trans (if_pos owner)]
        refine ⟨hand, nofun, ?_, ?_⟩
        · rintro i' n' ⟨⟩ -
          exact ⟨by simp [handEmptied], told⟩
        · rintro i' n' ⟨⟩ own
          exact absurd own owner
      · rw [eq.trans (if_neg owner)]
        have arb : (deskClearTaken e (handEmptied s)).arb = s.arb := by
          simp [deskClearTaken, handEmptied]
        obtain ⟨ends, requests⟩ := endedAlone .cleared (s := deskClearTaken e (handEmptied s)) (i := i)
          (by rw [arb, liveNotice_slot live]; simp)
        refine ⟨requests.1.trans (by simp [deskClearTaken, handEmptied]), nofun, ?_, ?_⟩
        · rintro i' n' ⟨⟩ other
          exact absurd other owner
        · rintro i' n' ⟨⟩ -
          exact ends.congr (by rw [arb]) (by simp [deskClearTaken, handEmptied]) rfl
  case request =>
    intro b rest sent
    obtain ⟨none', found⟩ := exec_clearRequest sent
    refine ⟨none', fun i key => ?_⟩
    obtain ⟨v, runs, arb, shows, left⟩ := found i key
    obtain ⟨ends, requests⟩ := endedAlone .cleared (s := v) (i := i) (by rw [arb]; exact findKey_slot key)
    exact ⟨_, runs, requests.2.trans left, ends.congr (by rw [arb]) shows.symm rfl⟩
  case closure =>
    intro b reason rest sent
    obtain ⟨v, runs, arb, shows, left⟩ := exec_closureReport sent
    obtain ⟨requests, ends⟩ := endedTogether reason (boundTo s b) v
    refine ⟨_, runs, ?_, ?_⟩
    · exact requests.2.trans left
    intro i n used
    obtain ⟨ended, spared⟩ := ends i
    unfold NoticeEnded at ended
    unfold SameNotice boundGone noticeAt at spared
    rw [arb] at ended
    rw [arb, shows] at spared
    have isUsed : s.arb.slots[i].notice ≠ none := by rw [used]; simp
    exact ⟨fun listed bound => ended ((mem_boundTo used).mpr ⟨listed, bound⟩) isUsed,
      fun other live => spared (fun h => other ((mem_boundTo used).mp h).2) live⟩
  case early =>
    intro early
    refine (exec_noticeExpiry s).1 (nextExpired_none _ _ fun i _ e h => ?_)
    obtain ⟨n, used, expires⟩ := expiry_of_bind.mp h
    exact early i n e used expires
  case expiry =>
    intro i n e listed used expires due first
    refine ⟨_, (exec_noticeExpiry s).2 e i (nextExpired_first (expiry_of_bind.mpr ⟨n, used, expires⟩) due
      _ listed fun j hj other e' h => ?_), ?_⟩
    · obtain ⟨m, used', expires'⟩ := expiry_of_bind.mp h
      exact first j m e' hj other used' expires'
    · exact (endedAlone .expired (by rw [used]; simp)).1

end

end Sys2Proof.Machine

namespace Sys2Proof.Machine

section
variable {s t u : State}

/-! ## What evaluations leave of the table and the desks -/

/-- Between `s` and `t` the shows, the count of posts and the requests stay, and, while no show is gone,
every notice as posted and the desk line. -/
structure TableKept (s t : State) : Prop where
  shows : t.shows = s.shows
  counter : t.arb.postCounter = s.arb.postCounter
  order : NoneGone s → t.arb.order = s.arb.order
  requests : RequestsStay s t
  same : NoneGone s → ∀ j : NoticeIx, SameNotice s t j
  desks : NoneGone s → t.desks = s.desks

theorem noneGone_congr (shows : t.shows = s.shows) (same : ∀ j : NoticeIx, SameNotice s t j)
    (live : NoneGone s) : NoneGone t := fun j => (boundGone_congr shows (same j)).trans (live j)

theorem TableKept.noneGone (h : TableKept s t) (live : NoneGone s) : NoneGone t :=
  noneGone_congr h.shows (h.same live) live

theorem TableKept.refl (s : State) : TableKept s s :=
  ⟨rfl, rfl, fun _ => rfl, ⟨rfl, rfl⟩, fun _ _ => ⟨rfl, rfl⟩, fun _ => rfl⟩

theorem TableKept.trans (h : TableKept s t) (h' : TableKept t u) : TableKept s u where
  shows := h'.shows.trans h.shows
  counter := h'.counter.trans h.counter
  order live := (h'.order (h.noneGone live)).trans (h.order live)
  requests := h.requests.trans h'.requests
  same live j := (h.same live j).trans (h'.same (h.noneGone live) j)
  desks live := (h'.desks (h.noneGone live)).trans (h.desks live)

theorem TableKept.foldl {α : Type} (g : State → α → State) (l : List α)
    (h : ∀ s, ∀ a ∈ l, TableKept s (g s a)) (s : State) : TableKept s (l.foldl g s) := by
  induction l generalizing s with
  | nil => exact .refl s
  | cons a l ih =>
    exact (h s a (by simp)).trans (ih (fun s b hb => h s b (by simp [hb])) (g s a))

theorem TableKept.of_slots (shows : t.shows = s.shows) (slots : t.arb.slots = s.arb.slots)
    (counter : t.arb.postCounter = s.arb.postCounter) (order : t.arb.order = s.arb.order)
    (desks : t.desks = s.desks) (sent : t.bus.toArbiter = s.bus.toArbiter) : TableKept s t where
  shows := shows
  counter := counter
  order _ := order
  requests := ⟨congrArg (·.inHand) desks, sent⟩
  same _ _ := .of_slot (by rw [slots])
  desks _ := desks

theorem withArb_kept (d : DisplayIx) (f : ArbRec → ArbRec) (s : State) : TableKept s (withArb d f s) :=
  .of_slots rfl rfl rfl rfl rfl rfl

theorem enterPending_kept (i : NoticeIx) (d : DisplayIx) (s : State) :
    TableKept s (enterPending i d s) := withArb_kept d _ s

theorem reportStrip_kept (d : DisplayIx) (s : State) : TableKept s (reportStrip d s) :=
  .of_slots rfl rfl rfl rfl rfl rfl

theorem removeAt_kept (i : NoticeIx) (d : DisplayIx) (s : State) : TableKept s (removeAt i d s) := by
  unfold removeAt
  dsimp only
  split
  · exact (withArb_kept d _ s).trans (reportStrip_kept d _)
  · exact withArb_kept d _ s

theorem removeEverywhere_kept (i : NoticeIx) (s : State) : TableKept s (removeEverywhere i s) :=
  TableKept.foldl _ _ (fun s d _ => removeAt_kept i d s) s

/-- A notice replaced by one posted as it was. -/
theorem setNotice_kept {i : NoticeIx} {n n' : Notice} (used : s.arb.slots[i].notice = some n)
    (posted : n'.posted = n.posted) : TableKept s (setNotice i n' s) where
  shows := rfl
  counter := rfl
  order _ := rfl
  requests := ⟨rfl, rfl⟩
  same _ j := by
    by_cases h : j = i
    · subst h
      have written : (setNotice j n' s).arb.slots[j] = { s.arb.slots[j] with notice := some n' } :=
        put_same _ _ _
      refine ⟨by rw [written], ?_⟩
      rw [written, used, Option.map_some, Option.map_some, posted]
    · exact .of_slot (put_other _ _ _ _ h)
  desks _ := rfl

theorem pushNotice_kept (i : NoticeIx) (d : DisplayIx) (s : State) (waiting : i ∈ s.arb.recs[d].pending)
    (on : s.arb.recs[d].noticeState = .on) : TableKept s (pushNotice i d s) where
  shows := (pushNotice_only i d s waiting on).1.shows
  counter := by
    unfold pushNotice
    dsimp only
    split <;> rfl
  order _ := (pushNotice_only i d s waiting on).1.order
  requests := pushNotice_requests i d s
  same live j := ((pushNotice_spares j i d s waiting on).kept (.inl (live j))).1
  desks _ := by simp

theorem evaluate_kept (fuel : Nat) (ds : List DisplayIx) (s : State) :
    TableKept s (evaluate fuel ds s) := by
  refine evaluate_relates TableKept TableKept.refl (fun _ _ _ => TableKept.trans)
    (fun s d i => pushNotice_kept i d s) (fun s v d i waiting gone removed => ?_) fuel ds s
  have h := (removeEverywhere_kept i s).trans removed
  have never (live : NoneGone s) : False := by
    have := live i
    rw [gone] at this
    exact absurd this (by decide)
  refine ⟨by simpa using h.shows, ?_, fun live => (never live).elim,
    h.requests.trans (concludeEnding_requests _ i v), fun live => (never live).elim,
    fun live => (never live).elim⟩
  rw [concludeEnding_arb]
  split <;> exact h.counter

theorem evaluateAll_kept (ds : List DisplayIx) (s : State) : TableKept s (evaluateAll ds s) :=
  evaluate_kept 4000 ds s

theorem placeNotice_kept (i : NoticeIx) (s : State) : TableKept s (placeNotice i s) := by
  unfold placeNotice
  split
  · exact .refl s
  · rename_i n used
    split
    · exact setNotice_kept used rfl
    · rename_i d _
      have placed : TableKept s (setNotice i { n with placed := some d } s) := setNotice_kept used rfl
      exact (placed.trans (enterPending_kept i d _)).trans (evaluateAll_kept [d] _)

/-! ## What the end of an event leaves -/

theorem compareTakeovers_counter (l : List DisplayIx) (s : State) :
    (l.foldl (fun s d => compareTakeover d s) s).arb.postCounter = s.arb.postCounter := by
  induction l generalizing s with
  | nil => rfl
  | cons d l ih => exact (ih _).trans (congrArg (·.postCounter) (compareTakeover_effect d s).1)

/-- The end of an event changes nothing but takeover flags, signals and the write path (R76, R92, R108). -/
theorem noticeEvent_ends (extra : Option NoticeIx) (act : State → State) (s : State) :
    (noticeEvent extra act s).arb.postCounter = (act s).arb.postCounter ∧
      (noticeEvent extra act s).desks = (act s).desks ∧
      (noticeEvent extra act s).shows = (act s).shows ∧
      TableKept (act s) (noticeEvent extra act s) ∧
      ∀ i d, standsAt (noticeEvent extra act s) i d ↔ standsAt (act s) i d := by
  obtain ⟨slots, -, order, recs, bus⟩ := noticeEvent_effect extra act s
  have counter : (noticeEvent extra act s).arb.postCounter = (act s).arb.postCounter := by
    unfold noticeEvent
    rw [(settleDisplays_keeps _ _).2.2.2.2.1, (settleNotices_keeps _ _ _).2.2.2.2.1]
    exact compareTakeovers_counter _ _
  have desks : (noticeEvent extra act s).desks = (act s).desks := by
    unfold noticeEvent
    simp
  have shows : (noticeEvent extra act s).shows = (act s).shows := by
    unfold noticeEvent
    simp
  refine ⟨counter, desks, shows,
    .of_slots shows slots counter order desks (congrArg (·.toArbiter) bus), fun i d => ?_⟩
  unfold standsAt
  rw [recs d]

/-! ## Where a notice stands after an entry or an evaluation -/

theorem enterPending_stands (i j : NoticeIx) (d e : DisplayIx) (s : State) :
    standsAt (enterPending i d s) j e ↔ standsAt s j e ∨ j = i ∧ e = d := by
  unfold standsAt enterPending withArb
  dsimp only
  by_cases h : e = d
  · subst h
    rw [put_same]
    split
    · rename_i there
      have there : i ∈ s.arb.recs[e].pending ∨ i ∈ s.arb.recs[e].stack := by simpa using there
      refine ⟨.inl, fun h => h.elim id ?_⟩
      rintro ⟨rfl, -⟩
      exact there
    · simp only [List.mem_append, List.mem_singleton, and_true]
      constructor
      · rintro ((h | h) | h)
        exacts [.inl (.inl h), .inr h, .inl (.inr h)]
      · rintro ((h | h) | h)
        exacts [.inl (.inl h), .inr h, .inl (.inr h)]
  · rw [put_other _ _ _ _ h]
    exact ⟨.inl, fun h' => h'.elim id fun ⟨_, same⟩ => absurd same h⟩

theorem enterPendings_stands (i j : NoticeIx) (e : DisplayIx) (ds : List DisplayIx) (s : State) :
    standsAt (ds.foldl (fun s d => enterPending i d s) s) j e ↔ standsAt s j e ∨ j = i ∧ e ∈ ds := by
  induction ds generalizing s with
  | nil => simp
  | cons d ds ih =>
    rw [List.foldl_cons, ih, enterPending_stands, List.mem_cons]
    constructor
    · rintro ((h | ⟨h, h'⟩) | ⟨h, h'⟩)
      exacts [.inl h, .inr ⟨h, .inl h'⟩, .inr ⟨h, .inr h'⟩]
    · rintro (h | ⟨h, h' | h'⟩)
      exacts [.inl (.inl h), .inl (.inr ⟨h, h'⟩), .inr ⟨h, h'⟩]

/-! ## The display an ANY_ONE notice is placed at -/

theorem placesBefore_iff (s : State) (a b : DisplayIx) : placesBefore s a b = true ↔ chosenBefore s a b := by
  simp [placesBefore, chosenBefore, levelOf_eq, -Fin.getElem_fin]

theorem chosenBefore_trans {a b c : DisplayIx} (h : chosenBefore s a b) (h' : chosenBefore s b c) :
    chosenBefore s a c := by
  unfold chosenBefore at *
  omega

theorem chosenBefore_total {a b : DisplayIx} (h : ¬ chosenBefore s a b) (ne : a ≠ b) :
    chosenBefore s b a := by
  have ne : a.val ≠ b.val := fun same => ne (Fin.ext same)
  unfold chosenBefore at *
  omega

/-- The better of the best display so far and the next, in a placement. -/
def betterPlace (s : State) (best : Option DisplayIx) (d : DisplayIx) : Option DisplayIx :=
  match best with
  | none => some d
  | some b => if placesBefore s d b then some d else some b

/-- The best of a list is one of it that comes before every other. -/
theorem betterPlaces_first (s : State) (l : List DisplayIx) (b : DisplayIx) :
    ∃ d, l.foldl (betterPlace s) (some b) = some d ∧ d ∈ b :: l ∧
      ∀ e ∈ b :: l, e ≠ d → chosenBefore s d e := by
  induction l generalizing b with
  | nil => exact ⟨b, rfl, by simp, by simp⟩
  | cons c l ih =>
    rw [List.foldl_cons]
    by_cases h : placesBefore s c b = true
    · have next : betterPlace s (some b) c = some c := if_pos h
      obtain ⟨d, found, among, first⟩ := ih c
      rw [next]
      refine ⟨d, found, List.mem_cons_of_mem _ among, fun e he ne => ?_⟩
      rcases List.mem_cons.mp he with rfl | he
      · by_cases same : d = c
        · exact same ▸ (placesBefore_iff s c e).mp h
        · exact chosenBefore_trans (first c (by simp) (Ne.symm same)) ((placesBefore_iff s c e).mp h)
      · exact first e he ne
    · have next : betterPlace s (some b) c = some b := if_neg h
      obtain ⟨d, found, among, first⟩ := ih b
      rw [next]
      refine ⟨d, found, ?_, fun e he ne => ?_⟩
      · rcases List.mem_cons.mp among with h | h <;> simp [h]
      · have before : b ≠ c → chosenBefore s b c :=
          fun ne => chosenBefore_total (fun x => h ((placesBefore_iff s c b).mpr x)) ne.symm
        rcases List.mem_cons.mp he with rfl | he
        · exact first e (by simp) ne
        · rcases List.mem_cons.mp he with rfl | he
          · by_cases same : d = b
            · exact same ▸ before (fun x => ne (x ▸ same.symm))
            · by_cases same' : b = e
              · exact first e (by simp [same']) ne
              · exact chosenBefore_trans (first b (by simp) (Ne.symm same)) (before same')
          · exact first e (by simp [he]) ne

/-- A display an ANY_ONE notice of a target can be placed at: it is ON and matches (R104). -/
def Fits (s : State) (target : Target) (d : DisplayIx) : Prop :=
  s.arb.recs[d].noticeState = .on ∧ matchesTarget target d s.arb.recs[d].tag = true

/-- A placement names no display where none fits, and else the one that comes before every other that
does (R104). -/
theorem placementOf_spec (s : State) (n : Notice) :
    ((∀ e, ¬ Fits s n.target e) → placementOf s n = none) ∧
      (∀ e, Fits s n.target e → ∃ d, placementOf s n = some d) ∧
      ∀ d, placementOf s n = some d → Fits s n.target d ∧
        ∀ e, Fits s n.target e → e ≠ d → chosenBefore s d e := by
  obtain ⟨l, hl⟩ : ∃ l, l = (List.finRange 16).filter fun d =>
    s.arb.recs[d].noticeState == .on && displayMatches s n.target d := ⟨_, rfl⟩
  have eq : placementOf s n = l.foldl (betterPlace s) none := by
    rw [hl]
    rfl
  have mem (e : DisplayIx) : e ∈ l ↔ Fits s n.target e := by
    rw [hl, List.mem_filter]
    simp [Fits, displayMatches, -Fin.getElem_fin]
  rw [eq]
  cases l with
  | nil => exact ⟨fun _ => rfl, fun e he => absurd ((mem e).mpr he) (by simp), nofun⟩
  | cons b l =>
    obtain ⟨d, found, among, first⟩ := betterPlaces_first s l b
    have found : (b :: l).foldl (betterPlace s) none = some d := found
    rw [found]
    refine ⟨fun none' => absurd ((mem d).mp among) (none' d), fun _ _ => ⟨d, rfl⟩, ?_⟩
    rintro d' ⟨⟩
    exact ⟨(mem d).mp among, fun e he ne => first e ((mem e).mpr he) ne⟩

theorem OnlyPushed.placed {ds : List DisplayIx} (h : OnlyPushed ds s t) (i : NoticeIx) :
    t.arb.slots[i].notice.map Notice.placed = s.arb.slots[i].notice.map Notice.placed := by
  have := congrArg (Option.map Notice.placed) (h.notice i).2
  rw [Option.map_map, Option.map_map] at this
  exact this

/-- A notice written with its placement, which comes to wait at the display named (R104). -/
def placedAt (i : NoticeIx) (n : Notice) (d : Option DisplayIx) (s : State) : State :=
  match d with
  | none => setNotice i { n with placed := none } s
  | some d => enterPending i d (setNotice i { n with placed := some d } s)

theorem placedAt_effect {i : NoticeIx} {n : Notice} (used : s.arb.slots[i].notice = some n)
    (d : Option DisplayIx) :
    TableKept s (placedAt i n d s) ∧
      (placedAt i n d s).arb.slots = put s.arb.slots i
        { s.arb.slots[i] with notice := some { n with placed := d } } ∧
      ∀ j e, standsAt (placedAt i n d s) j e ↔ standsAt s j e ∨ j = i ∧ d = some e := by
  cases d with
  | none => exact ⟨setNotice_kept used rfl, rfl, fun j e => by simp; rfl⟩
  | some d =>
    have placed : TableKept s (setNotice i { n with placed := some d } s) := setNotice_kept used rfl
    refine ⟨placed.trans (enterPending_kept i d _), rfl, fun j e => ?_⟩
    refine (enterPending_stands i j d e _).trans ?_
    rw [Option.some.injEq, eq_comm (a := e)]
    rfl

theorem placeNotice_eq {i : NoticeIx} {n : Notice} (used : s.arb.slots[i].notice = some n) :
    placeNotice i s =
      evaluateAll (placementOf s n).toList (placedAt i n (placementOf s n) s) := by
  unfold placeNotice noticeAt
  rw [used]
  dsimp only
  cases placementOf s n <;> rfl

/-- What a placement does: the notice has the display that the placement names, and comes to stand there
and nowhere else; no other notice moves (R104). -/
theorem placeNotice_effect {i : NoticeIx} {n : Notice} (used : s.arb.slots[i].notice = some n)
    (live : NoneGone s) :
    (∃ n', (placeNotice i s).arb.slots[i].notice = some n' ∧ n'.placed = placementOf s n) ∧
      (∀ j e, standsAt (placeNotice i s) j e ↔
        standsAt s j e ∨ j = i ∧ placementOf s n = some e) ∧
      ∀ j : NoticeIx, j ≠ i → (placeNotice i s).arb.slots[j].notice.map Notice.placed =
        s.arb.slots[j].notice.map Notice.placed := by
  obtain ⟨kept, slots, stands⟩ := placedAt_effect used (placementOf s n)
  have pushed := evaluate_only 4000 (placementOf s n).toList _ (kept.noneGone live)
  have own : (placedAt i n (placementOf s n) s).arb.slots[i] =
      { s.arb.slots[i] with notice := some { n with placed := placementOf s n } } := by
    rw [slots]
    exact put_same _ _ _
  rw [placeNotice_eq used]
  refine ⟨?_, fun j e => (pushed.holds e j).trans (stands j e), fun j ne => (pushed.placed j).trans ?_⟩
  · have placed := pushed.placed i
    rw [own] at placed
    exact Option.map_eq_some_iff.mp placed
  · rw [slots]
    exact congrArg (·.notice.map Notice.placed) (put_other s.arb.slots i j _ ne)

end

end Sys2Proof.Machine

namespace Sys2Proof.Machine

section
variable {s t u : State}

/-! ## What becomes of a post -/

theorem freeNoticeSlot_free {i : NoticeIx} (h : freeNoticeSlot s = some i) :
    s.arb.slots[i].notice = none := by
  have found := List.find?_some h
  exact Option.isNone_iff_eq_none.mp found

theorem findKey_notice {o : Origin} {topic : Nat} {i : NoticeIx} {n : Notice}
    (h : findKey s o topic = some i) (used : s.arb.slots[i].notice = some n) :
    n.origin = o ∧ n.topic = topic := by
  have found := List.find?_some h
  unfold noticeAt at found
  rw [used] at found
  simpa using found

theorem postResult_collapsed {p : Post} {i : NoticeIx} (h : postResult p s = .collapsed i) :
    findKey s p.origin p.topic = some i := by
  unfold postResult at h
  cases found : findKey s p.origin p.topic with
  | some j =>
    simp only [found, PostResult.collapsed.injEq] at h
    rw [h]
  | none =>
    simp only [found] at h
    split at h
    · split at h <;> simp at h
    · simp at h
    · simp at h

/-- A post that creates a notice takes a free slot, and its show is not gone (R82). -/
theorem postResult_created {p : Post} {i : NoticeIx} (h : postResult p s = .created i) :
    s.arb.slots[i].notice = none ∧ p.bound.any (fun b => !s.shows.recs[b].state.isLive) = false := by
  unfold postResult at h
  split at h
  · simp at h
  · dsimp only at h
    split at h
    · split at h <;> simp at h
    · simp at h
    · rename_i bound slot
      obtain rfl := PostResult.created.inj h
      refine ⟨freeNoticeSlot_free slot, ?_⟩
      cases hb : p.bound with
      | none => rfl
      | some b =>
        rw [hb, Option.filter_eq_none_iff] at bound
        simpa using bound b rfl

/-! ## A notice created -/

/-- The notice of a post, placed nowhere (R82). -/
def newNotice (p : Post) (s : State) : Notice :=
  { origin := p.origin, topic := p.topic, priority := p.priority, mode := p.mode, target := p.target,
    bound := p.bound, content := p.content, truncated := p.truncated, duration := p.duration,
    expiry := noticeExpiry s p.duration, postSeq := wrap32 (s.arb.postCounter + 1), placed := none,
    aired := 0 }

/-- A notice written in its slot, the youngest of the table. -/
def noticeWritten (p : Post) (i : NoticeIx) (s : State) : State :=
  setNotice i (newNotice p s)
    { s with arb := { s.arb with
        postCounter := wrap32 (s.arb.postCounter + 1), order := s.arb.order ++ [i] } }

/-- The displays that take an ALL notice of a post (R93, R102). -/
def takers (p : Post) (s : State) : List DisplayIx :=
  (List.finRange 16).filter fun d => takesNotices s d && displayMatches s p.target d

theorem createNotice_all {p : Post} (mode : p.mode = .all) (i : NoticeIx) (s : State) :
    createNotice p i s = evaluateAll (takers p s)
      ((takers p s).foldl (fun s d => enterPending i d s) (noticeWritten p i s)) := by
  unfold createNotice
  rw [mode]
  simp only [newNotice, noticeWritten, mode]
  rfl

theorem createNotice_anyOne {p : Post} (mode : p.mode = .anyOne) (i : NoticeIx) (s : State) :
    createNotice p i s = placeNotice i (noticeWritten p i s) := by
  unfold createNotice
  rw [mode]
  simp only [newNotice, noticeWritten, mode]

theorem noticeWritten_slots (p : Post) (i : NoticeIx) (s : State) :
    (noticeWritten p i s).arb.slots[i] = ⟨s.arb.slots[i].gen, some (newNotice p s)⟩ ∧
      ∀ j : NoticeIx, j ≠ i → (noticeWritten p i s).arb.slots[j] = s.arb.slots[j] :=
  ⟨put_same _ _ _, fun _ ne => put_other _ _ _ _ ne⟩

/-- A notice written is bound to no show that is gone, and no other changes. -/
theorem written_noneGone {i : NoticeIx} {n : Notice} (shows : t.shows = s.shows)
    (slot : t.arb.slots[i].notice = some n)
    (live : n.bound.any (fun b => !s.shows.recs[b].state.isLive) = false)
    (others : ∀ j : NoticeIx, j ≠ i → t.arb.slots[j] = s.arb.slots[j]) (none' : NoneGone s) :
    NoneGone t := by
  intro j
  by_cases h : j = i
  · subst h
    unfold boundGone noticeAt
    rw [slot, shows]
    exact live
  · exact (boundGone_congr shows (.of_slot (others j h))).trans (none' j)

/-- A notice created is bound to no show that is gone (R82). -/
theorem noticeWritten_noneGone {p : Post} {i : NoticeIx} (h : postResult p s = .created i)
    (live : NoneGone s) : NoneGone (noticeWritten p i s) := by
  obtain ⟨own, others⟩ := noticeWritten_slots p i s
  exact written_noneGone (s := s) (n := newNotice p s) rfl (by rw [own]) (postResult_created h).2 others live

/-- The level of a display is that of its top, and a notice that stands nowhere is no top (R94). -/
theorem chosenBefore_congr {i : NoticeIx} (recs : t.arb.recs = s.arb.recs)
    (others : ∀ j : NoticeIx, j ≠ i → t.arb.slots[j] = s.arb.slots[j])
    (nowhere : ∀ d, ¬ standsAt s i d) (a b : DisplayIx) : chosenBefore t a b ↔ chosenBefore s a b := by
  have level (d : DisplayIx) : levelAt t d = levelAt s d := by
    have nowhere := nowhere d
    unfold levelAt standsAt at *
    rw [recs]
    cases h : s.arb.recs[d].stack with
    | nil => rfl
    | cons j _ =>
      have ne : j ≠ i := fun same => nowhere (.inr (by rw [h, same]; simp))
      simp only [List.head?_cons, Option.map_some, priorityIn, others j ne]
  unfold chosenBefore
  rw [level, level, recs]

/-- A notice of a slot, as posted, stands there as the post says (R82, R84). -/
theorem Stands.of_notice {p : Post} {i : NoticeIx} {n : Notice}
    (gen : t.arb.slots[i].gen = s.arb.slots[i].gen)
    (same : t.arb.slots[i].notice.map Notice.posted = some n.posted)
    (key : n.origin = p.origin ∧ n.topic = p.topic)
    (fields : n.priority = p.priority ∧ n.content = p.content ∧ n.truncated = p.truncated ∧
      n.duration = p.duration ∧ n.expiry = noticeExpiry s p.duration) :
    Stands p i n.postSeq n.mode n.target n.bound s t := by
  obtain ⟨m, slot, posted⟩ := Option.map_eq_some_iff.mp same
  obtain ⟨origin, topic⟩ := key
  obtain ⟨priority, content, truncated, duration, expiry⟩ := fields
  exact ⟨gen, m, slot, (congrArg Notice.origin posted).trans origin,
    (congrArg Notice.topic posted).trans topic, (congrArg Notice.mode posted :),
    (congrArg Notice.target posted :), (congrArg Notice.bound posted :),
    (congrArg Notice.priority posted).trans priority, (congrArg Notice.content posted).trans content,
    (congrArg Notice.truncated posted).trans truncated,
    (congrArg Notice.duration posted).trans duration, (congrArg Notice.postSeq posted :),
    (congrArg Notice.expiry posted).trans expiry⟩

/-- What a notice created keeps and where it comes to stand (R82, R102 to R104). -/
theorem createNotice_kept (p : Post) (i : NoticeIx) (s : State) :
    TableKept (noticeWritten p i s) (createNotice p i s) := by
  cases mode : p.mode with
  | all =>
    rw [createNotice_all mode]
    exact (TableKept.foldl _ _ (fun s d _ => enterPending_kept i d s) _).trans (evaluateAll_kept _ _)
  | anyOne =>
    rw [createNotice_anyOne mode]
    exact placeNotice_kept i _

/-- A new ALL notice stands at every display that takes notices and matches (R102). -/
theorem createNotice_all_stands {p : Post} (mode : p.mode = .all) {i : NoticeIx}
    (live : NoneGone (noticeWritten p i s)) (nowhere : ∀ d, ¬ standsAt s i d) (d : DisplayIx) :
    standsAt (createNotice p i s) i d ↔
      s.arb.recs[d].noticeState ∈ [DisplayState.starting, .on, .linkLost] ∧
        matchesTarget p.target d s.arb.recs[d].tag = true := by
  have entered : TableKept (noticeWritten p i s)
      ((takers p s).foldl (fun s d => enterPending i d s) (noticeWritten p i s)) :=
    TableKept.foldl _ _ (fun s d _ => enterPending_kept i d s) _
  have pushed := evaluate_only 4000 (takers p s) _ (entered.noneGone live)
  rw [createNotice_all mode]
  refine ((pushed.holds d i).trans (enterPendings_stands i i d _ _)).trans ?_
  have nowhere : ¬ standsAt (noticeWritten p i s) i d := nowhere d
  rw [or_iff_right nowhere, takers, List.mem_filter]
  simp [takesNotices, displayMatches, or_assoc, -Fin.getElem_fin]

/-- A new ANY_ONE notice stands where it is placed, at the display that R104 chooses. -/
theorem createNotice_anyOne_stands {p : Post} (mode : p.mode = .anyOne) {i : NoticeIx}
    (live : NoneGone (noticeWritten p i s)) (nowhere : ∀ d, ¬ standsAt s i d) :
    ∃ n, (createNotice p i s).arb.slots[i].notice = some n ∧
      (∀ d, standsAt (createNotice p i s) i d ↔ n.placed = some d) ∧
      ((∀ e, ¬ Fits s p.target e) → n.placed = none) ∧
      ∀ e, Fits s p.target e → ∃ d, n.placed = some d ∧ Fits s p.target d ∧
        ∀ e', Fits s p.target e' → e' ≠ d → chosenBefore s d e' := by
  obtain ⟨own, others⟩ := noticeWritten_slots p i s
  obtain ⟨⟨n, slot, placed⟩, stands, -⟩ := placeNotice_effect (s := noticeWritten p i s) (i := i)
    (n := newNotice p s) (by rw [own]) live
  obtain ⟨nowhere', somewhere, chosen⟩ := placementOf_spec (noticeWritten p i s) (newNotice p s)
  rw [createNotice_anyOne mode]
  refine ⟨n, slot, fun d => ?_, fun none' => placed.trans (nowhere' none'), fun e fits => ?_⟩
  · have nowhere : ¬ standsAt (noticeWritten p i s) i d := nowhere d
    rw [stands i d, or_iff_right nowhere, placed]
    exact and_iff_right rfl
  · obtain ⟨d, found⟩ := somewhere e fits
    obtain ⟨fits, first⟩ := chosen d found
    exact ⟨d, placed.trans found, fits, fun e' fits' ne =>
      (chosenBefore_congr (s := s) (t := noticeWritten p i s) rfl others nowhere d e').mp (first e' fits' ne)⟩

/-! ## A post collapsed -/

theorem collapseAt_kept (i : NoticeIx) (s : State) (d : DisplayIx) : TableKept s (collapseAt i s d) := by
  unfold collapseAt
  dsimp only
  split
  · exact evaluateAll_kept _ _
  · split
    · split
      · exact (evaluateAll_kept _ _).trans (reportStrip_kept d _)
      · exact evaluateAll_kept _ _
    · exact ((removeAt_kept i d s).trans (enterPending_kept i d _)).trans (evaluateAll_kept _ _)

theorem collapseWhereHeld_kept (i : NoticeIx) (s : State) (d : DisplayIx) :
    TableKept s (collapseWhereHeld i s d) := by
  unfold collapseWhereHeld
  split
  · exact collapseAt_kept i s d
  · exact .refl s

/-- A notice with what a post of its key brings (R84). -/
def collapsedNotice (p : Post) (n : Notice) (s : State) : Notice :=
  { n with
    priority := p.priority, content := p.content, truncated := p.truncated,
    duration := p.duration, expiry := noticeExpiry s p.duration }

theorem collapsedNotice_slots (p : Post) (i : NoticeIx) (n : Notice) (s : State) :
    (setNotice i (collapsedNotice p n s) s).arb.slots[i] =
        ⟨s.arb.slots[i].gen, some (collapsedNotice p n s)⟩ ∧
      ∀ j : NoticeIx, j ≠ i → (setNotice i (collapsedNotice p n s) s).arb.slots[j] = s.arb.slots[j] :=
  ⟨put_same _ _ _, fun _ ne => put_other _ _ _ _ ne⟩

theorem collapsedNotice_noneGone (p : Post) {i : NoticeIx} {n : Notice}
    (used : s.arb.slots[i].notice = some n) (live : NoneGone s) :
    NoneGone (setNotice i (collapsedNotice p n s) s) := by
  obtain ⟨own, others⟩ := collapsedNotice_slots p i n s
  have bound := live i
  unfold boundGone noticeAt at bound
  rw [used] at bound
  exact written_noneGone (s := s) (n := collapsedNotice p n s) rfl (by rw [own]) bound others live

theorem collapseNotice_kept (p : Post) {i : NoticeIx} {n : Notice}
    (used : s.arb.slots[i].notice = some n) :
    TableKept (setNotice i (collapsedNotice p n s) s) (collapseNotice p i s) := by
  unfold collapseNotice noticeAt
  rw [used]
  exact TableKept.foldl _ _ (fun s d _ => collapseWhereHeld_kept i s d) _

/-! ## A post taken -/

/-- What a post does: it creates a notice, collapses onto the one of its key, or is refused. -/
structure Posted (p : Post) (s t : State) : Prop where
  created : ∀ i, postResult p s = .created i →
    Stands p i ((s.arb.postCounter + 1) % 4294967296) p.mode p.target p.bound s t ∧
      t.arb.postCounter = (s.arb.postCounter + 1) % 4294967296 ∧
      (∀ j : NoticeIx, j ≠ i → SameNotice s t j) ∧
      ((∀ d, ¬ standsAt s i d) →
        (p.mode = .all → ∀ d, standsAt t i d ↔
          s.arb.recs[d].noticeState ∈ [DisplayState.starting, .on, .linkLost] ∧
            matchesTarget p.target d s.arb.recs[d].tag = true) ∧
        (p.mode = .anyOne → ∃ n, t.arb.slots[i].notice = some n ∧
          (∀ d, standsAt t i d ↔ n.placed = some d) ∧
          ((∀ e, ¬ Fits s p.target e) → n.placed = none) ∧
          ∀ e, Fits s p.target e → ∃ d, n.placed = some d ∧ Fits s p.target d ∧
            ∀ e', Fits s p.target e' → e' ≠ d → chosenBefore s d e'))
  collapsed : ∀ i n, postResult p s = .collapsed i → s.arb.slots[i].notice = some n →
    Stands p i n.postSeq n.mode n.target n.bound s t ∧
      t.arb.postCounter = s.arb.postCounter ∧ ∀ j : NoticeIx, j ≠ i → SameNotice s t j
  refused : (postResult p s).slot = none → t.arb = s.arb

theorem applyPost_created {p : Post} {i : NoticeIx} (h : postResult p s = .created i) :
    applyPost p s = noticeEvent none (createNotice p i) s := by
  simp only [applyPost, h]

theorem applyPost_collapsed {p : Post} {i : NoticeIx} (h : postResult p s = .collapsed i) :
    applyPost p s = noticeEvent (some i) (collapseNotice p i) s := by
  simp only [applyPost, h]

theorem applyPost_refused {p : Post} (h : (postResult p s).slot = none) : applyPost p s = s := by
  unfold applyPost
  cases hr : postResult p s <;> simp [hr, PostResult.slot] at h ⊢

theorem SameNotice.posted {i : NoticeIx} {n : Notice} (h : SameNotice s t i)
    (used : s.arb.slots[i].notice = some n) :
    t.arb.slots[i].notice.map Notice.posted = some n.posted := by
  rw [h.2, used, Option.map_some]

theorem applyPost_created_posted {p : Post} (live : NoneGone s) {i : NoticeIx}
    (h : postResult p s = .created i) :
    Stands p i ((s.arb.postCounter + 1) % 4294967296) p.mode p.target p.bound s (applyPost p s) ∧
      (applyPost p s).arb.postCounter = (s.arb.postCounter + 1) % 4294967296 ∧
      (∀ j : NoticeIx, j ≠ i → SameNotice s (applyPost p s) j) ∧
      ∀ d, standsAt (applyPost p s) i d ↔ standsAt (createNotice p i s) i d := by
  rw [applyPost_created h]
  obtain ⟨own, others⟩ := noticeWritten_slots p i s
  obtain ⟨counter, -, -, ends, stands⟩ := noticeEvent_ends none (createNotice p i) s
  have written := noticeWritten_noneGone h live
  have kept := (createNotice_kept p i s).trans ends
  have same := kept.same written i
  refine ⟨?_, kept.counter, fun j ne => ?_, stands i⟩
  · exact Stands.of_notice (n := newNotice p s) (same.1.trans (by rw [own]))
      (same.posted (by rw [own])) ⟨rfl, rfl⟩ ⟨rfl, rfl, rfl, rfl, rfl⟩
  · exact SameNotice.trans (.of_slot (others j ne)) (kept.same written j)

theorem applyPost_collapsed_posted {p : Post} (live : NoneGone s) {i : NoticeIx} {n : Notice}
    (h : postResult p s = .collapsed i) (used : s.arb.slots[i].notice = some n) :
    Stands p i n.postSeq n.mode n.target n.bound s (applyPost p s) ∧
      (applyPost p s).arb.postCounter = s.arb.postCounter ∧
      ∀ j : NoticeIx, j ≠ i → SameNotice s (applyPost p s) j := by
  rw [applyPost_collapsed h]
  obtain ⟨own, others⟩ := collapsedNotice_slots p i n s
  obtain ⟨-, -, -, ends, -⟩ := noticeEvent_ends (some i) (collapseNotice p i) s
  have written := collapsedNotice_noneGone p used live
  have kept := (collapseNotice_kept p used).trans ends
  have same := kept.same written i
  refine ⟨?_, kept.counter, fun j ne => ?_⟩
  · exact Stands.of_notice (n := collapsedNotice p n s) (same.1.trans (by rw [own]))
      (same.posted (by rw [own])) (findKey_notice (n := n) (postResult_collapsed h) used :)
      ⟨rfl, rfl, rfl, rfl, rfl⟩
  · exact SameNotice.trans (.of_slot (others j ne)) (kept.same written j)

/-- A post does what R82 and R84 say, while no show is gone. -/
theorem applyPost_posted (p : Post) (live : NoneGone s) : Posted p s (applyPost p s) where
  created i h := by
    obtain ⟨stands, counter, others, where'⟩ := applyPost_created_posted live h
    have written := noticeWritten_noneGone h live
    refine ⟨stands, counter, others, fun nowhere => ⟨fun mode d => ?_, fun mode => ?_⟩⟩
    · exact (where' d).trans (createNotice_all_stands mode written nowhere d)
    · obtain ⟨n, slot, stands, chosen⟩ := createNotice_anyOne_stands mode written nowhere
      obtain ⟨slots, -⟩ := noticeEvent_effect none (createNotice p i) s
      refine ⟨n, ?_, fun d => (where' d).trans (stands d), chosen⟩
      rw [applyPost_created h, slots]
      exact slot
  collapsed i n h used := applyPost_collapsed_posted live h used
  refused h := by rw [applyPost_refused h]

/-- A post tells no desk, and leaves the requests of desks and Show Table. -/
theorem applyPost_requests (p : Post) (live : NoneGone s) :
    (applyPost p s).desks = s.desks ∧ RequestsStay s (applyPost p s) := by
  cases h : postResult p s with
  | created i =>
    have kept := createNotice_kept p i s
    rw [applyPost_created h]
    obtain ⟨-, desks, -⟩ := noticeEvent_ends none (createNotice p i) s
    exact ⟨desks.trans (kept.desks (noticeWritten_noneGone h live)),
      noticeEvent_requests none kept.requests⟩
  | collapsed i =>
    obtain ⟨n, used⟩ := Option.ne_none_iff_exists'.mp (findKey_slot (postResult_collapsed h))
    have kept := collapseNotice_kept p used
    rw [applyPost_collapsed h]
    obtain ⟨-, desks, -⟩ := noticeEvent_ends (some i) (collapseNotice p i) s
    exact ⟨desks.trans (kept.desks (collapsedNotice_noneGone p used live)),
      noticeEvent_requests (some i) kept.requests⟩
  | noShow _ => rw [applyPost_refused (by rw [h]; rfl)]; exact ⟨rfl, rfl, rfl⟩
  | deadShow _ => rw [applyPost_refused (by rw [h]; rfl)]; exact ⟨rfl, rfl, rfl⟩
  | tableFull => rw [applyPost_refused (by rw [h]; rfl)]; exact ⟨rfl, rfl, rfl⟩

end

end Sys2Proof.Machine

namespace Sys2Proof.Machine

section
variable {s t u : State}

/-! ## The three ways to post -/

/-- What a post does is a matter of the Notice Arbiter's state after it. -/
theorem Posted.congr {p : Post} (h : Posted p s t) (arb : u.arb = t.arb) : Posted p s u := by
  obtain ⟨created, collapsed, refused⟩ := h
  unfold Stands SameNotice standsAt at *
  rw [← arb] at created collapsed refused
  exact ⟨created, collapsed, refused⟩

theorem exec_noticePost {x : Flight} (h : handedEntry .noticePost s = some x) :
    exec .noticePost s = .next (takePost x s) :=
  congrArg Host.Outcome.next (takeEntry_handed h _)

/-- The post of a journal entry (R80). -/
def journalPost (x : Flight) : Post :=
  (readPostBody (entryBody x.bytes)).post .boxOffice (readPostBody (entryBody x.bytes)).priority x.text
    ((readPostBody (entryBody x.bytes)).contentKind == 0 &&
      decide (120 < fieldAt (entryBody x.bytes) 10 1))

/-- The field checks of a journal post (R80). -/
def journalChecks (x : Flight) : Option Nat :=
  badPostField ((2, decide ((readPostBody (entryBody x.bytes)).priority ≤ 63)) ::
    postFieldChecks (readPostBody (entryBody x.bytes)))

theorem takePost_bad {x : Flight} {n : Nat} (h : journalChecks x = some n) (s : State) :
    takePost x s = finish .badField n s := by
  unfold takePost
  dsimp only
  rw [show badPostField ((2, decide ((readPostBody (entryBody x.bytes)).priority ≤ 63)) ::
    postFieldChecks (readPostBody (entryBody x.bytes))) = some n from h]

theorem takePost_good {x : Flight} (h : journalChecks x = none) (s : State) :
    takePost x s = finishPost s (postResult (journalPost x) s) (journalPost x).truncated
      (applyPost (journalPost x) s) := by
  unfold takePost
  dsimp only
  rw [show badPostField ((2, decide ((readPostBody (entryBody x.bytes)).priority ≤ 63)) ::
    postFieldChecks (readPostBody (entryBody x.bytes))) = none from h]
  rfl

/-- The outcome of a journal post follows what became of it (R82). -/
theorem finishPost_ends {x : Flight} {u : State} (flight : u.win.flight = some x)
    (valid : u.win.windowValid = true) (s : State) (cut : Bool) :
    (∀ i, EndsWith (if cut then .truncated else .done) (noticeRef s i) x
        (finishPost s (.created i) cut u)) ∧
      (∀ i, EndsWith (if cut then .truncated else .done) (noticeRef s i) x
        (finishPost s (.collapsed i) cut u)) ∧
      (∀ i, EndsWith .noRecord i.val x (finishPost s (.noShow i) cut u)) ∧
      (∀ st, EndsWith .wrongState st.code x (finishPost s (.deadShow st) cut u)) ∧
      EndsWith .tableFull 0 x (finishPost s .tableFull cut u) := by
  have ends (code : OutcomeCode) (detail : Nat) := (finish_refused code detail flight valid).2.2
  exact ⟨fun _ => ends _ _, fun _ => ends _ _, fun _ => ends _ _, fun _ => ends _ _, ends _ _⟩

theorem finishPost_arb (s : State) (r : PostResult) (cut : Bool) (u : State) :
    (finishPost s r cut u).arb = u.arb := by
  cases r <;> simp [finishPost]

theorem exec_deskNoticePost {e : IntakeEntry} (h : requestInHand .noticePost s = some e) :
    exec .deskNoticePost s = .next (takeDeskPost e (handEmptied s)) :=
  congrArg Host.Outcome.next (takeRequest_inHand h _)

/-- The post of a desk's request, its priority cut to a cap (R81). -/
def deskPost (e : IntakeEntry) (cap : Nat) : Post :=
  (readPostBody e.body).post (.desk e.desk) (min (readPostBody e.body).priority cap)
    ((e.body.drop 10).take 120) (decide (120 < (e.body.drop 10).length))

theorem takeDeskPost_bad {e : IntakeEntry} {n : Nat}
    (h : badPostField (postFieldChecks (readPostBody e.body)) = some n) (s : State) :
    takeDeskPost e s = sendDesk e.desk e.seq (.noticeRefused .badField n) s := by
  unfold takeDeskPost
  dsimp only
  rw [h]

theorem takeDeskPost_good {e : IntakeEntry}
    (h : badPostField (postFieldChecks (readPostBody e.body)) = none) (s : State) :
    let p := deskPost e s.arb.cfg.deskPriorityCap
    takeDeskPost e s = sendDesk e.desk e.seq
      (postReply s p (postResult p s)
        (decide (s.arb.cfg.deskPriorityCap < (readPostBody e.body).priority))) (applyPost p s) := by
  intro p
  unfold takeDeskPost
  dsimp only
  rw [h]
  rfl

theorem exec_autoNoticeRequest {p : Post} {rest : List ShowMsg} (h : s.bus.toArbiter = .auto p :: rest) :
    ∃ v : State, exec .autoNoticeRequest s = .next (applyPost p v) ∧ v.arb = s.arb ∧
      v.shows = s.shows ∧ v.clock = s.clock ∧ v.bus.toArbiter = rest := by
  refine ⟨{ s with bus := { s.bus with toArbiter := rest } }, ?_, rfl, rfl, rfl, rfl⟩
  simp only [exec, execAutoNoticeRequest, h]

/-- What a post does is a matter of the notices, the shows and the clock it finds. -/
theorem Posted.congr_before {p : Post} {v : State} (h : Posted p v t) (arb : v.arb = s.arb)
    (shows : v.shows = s.shows) (clock : v.clock = s.clock) : Posted p s t := by
  have result : postResult p v = postResult p s := by
    unfold postResult findKey freeNoticeSlot noticeAt
    rw [arb, shows]
  obtain ⟨created, collapsed, refused⟩ := h
  unfold Stands SameNotice standsAt Fits chosenBefore levelAt priorityIn at *
  rw [result, arb] at created collapsed refused
  rw [clock] at created collapsed
  exact ⟨created, collapsed, refused⟩

/-- Settles O47, by what a post does to the table and the displays, and by the answer that tells of it. -/
theorem postsCreateOrCollapse : Obligations.PostsCreateOrCollapse := by
  intro s live next matches_ takes fits posted
  have taken {p : Post} {t : State} (h : Posted p s t) : posted p t :=
    ⟨h.created, h.collapsed, h.refused⟩
  have ref (i : NoticeIx) : noticeRef s i = 256 * s.arb.slots[i].gen + i.val := mkRef_eq _ _
  refine ⟨?journal, ?desk, ?auto⟩
  case journal =>
    intro x handed body b checks p
    obtain ⟨handed, valid⟩ := handed
    have flight := handedEntry_flight handed
    refine ⟨_, exec_noticePost handed, fun n bad => ?_, fun good => ?_, ?_⟩
    · rw [takePost_bad (x := x) bad]
      exact ⟨by simp, (finish_refused .badField n flight valid).2.2⟩
    · rw [takePost_good (x := x) good]
      exact taken ((applyPost_posted p live).congr (finishPost_arb _ _ _ _))
    · obtain ⟨created, collapsed, noShow, deadShow, tableFull⟩ :=
        finishPost_ends (x := x) (u := applyPost p s) (by simpa using flight) (by simpa using valid) s
          p.truncated
      have eq (good : checks = none) {r : PostResult} (h : postResult p s = r) :
          takePost x s = finishPost s r p.truncated (applyPost p s) := by
        rw [← h]
        exact takePost_good (x := x) good s
      refine ⟨fun i good slot => ?_, fun i good h => ?_, fun st good h => ?_, fun good h => ?_⟩
      · rw [← ref]
        cases h : postResult p s with
        | created j =>
          rw [h] at slot
          obtain rfl : j = i := Option.some.inj slot
          rw [eq good h]
          exact created j
        | collapsed j =>
          rw [h] at slot
          obtain rfl : j = i := Option.some.inj slot
          rw [eq good h]
          exact collapsed j
        | noShow _ => rw [h] at slot; exact absurd slot (by simp [PostResult.slot])
        | deadShow _ => rw [h] at slot; exact absurd slot (by simp [PostResult.slot])
        | tableFull => rw [h] at slot; exact absurd slot (by simp [PostResult.slot])
      · rw [eq good h]
        exact noShow i
      · rw [eq good h]
        exact deadShow st
      · rw [eq good h]
        exact tableFull
  case desk =>
    intro e inHand room b checks cap text p
    have live' : NoneGone (handEmptied s) := live
    obtain ⟨desks, -⟩ := applyPost_requests p live'
    have sent (m : DeskMsg) := sendDesk_answers desks room e.seq m
    have eq (good : checks = none) {r : PostResult} (h : postResult p s = r) :
        takeDeskPost e (handEmptied s) = sendDesk e.desk e.seq
          (postReply s p r (decide (cap < b.priority))) (applyPost p (handEmptied s)) := by
      rw [← h]
      exact takeDeskPost_good good (handEmptied s)
    refine ⟨_, exec_deskNoticePost inHand, ?_, fun n bad => ?_, fun good => ?_, fun i good h => ?_,
      fun i good h => ?_, fun i good h => ?_, fun st good h => ?_, fun good h => ?_⟩
    · cases h : checks with
      | none =>
        rw [eq h rfl]
        exact (sent _).1
      | some n =>
        rw [takeDeskPost_bad h]
        exact (sendDesk_answers (u := handEmptied s) rfl room e.seq _).1
    · obtain ⟨-, -, -, told⟩ :=
        sendDesk_answers (u := handEmptied s) rfl room e.seq (.noticeRefused .badField n)
      rw [takeDeskPost_bad bad]
      exact ⟨by simp [handEmptied], told⟩
    · rw [eq good rfl]
      have done : Posted p s (applyPost p (handEmptied s)) :=
        (applyPost_posted p live').congr_before rfl rfl rfl
      exact taken (done.congr (by simp))
    · rw [eq good h, ← ref]
      exact (sent _).2.2.2
    · rw [eq good h, ← ref]
      exact (sent _).2.2.2
    · rw [eq good h]
      exact (sent _).2.2.2
    · rw [eq good h]
      exact (sent _).2.2.2
    · rw [eq good h]
      exact (sent _).2.2.2
  case auto =>
    intro p rest sent
    obtain ⟨v, runs, arb, shows, clock, left⟩ := exec_autoNoticeRequest sent
    have live' : NoneGone v := noneGone_congr shows (fun j => .of_slot (by rw [arb])) live
    refine ⟨_, runs, ?_, taken ((applyPost_posted p live').congr_before arb shows clock)⟩
    exact (applyPost_requests p live').2.2.trans left

end

end Sys2Proof.Machine

namespace Sys2Proof.Machine

section
variable {s t u : State}

/-! ## The takeover comparisons that end an event -/

/-- Every display's takeover flag follows its top, and the takeover signals sent are those that the flags
that have changed call for (R108). -/
def Compared (s t : State) : Prop :=
  (∀ j : DisplayIx, t.arb.recs[j].takeover = overtaken s.arb.cfg.takeoverClass t j) ∧
    ∃ l, t.bus.signals = s.bus.signals ++ l ∧ ∀ j : DisplayIx,
      (.takeoverBegin j ∈ l ↔ s.arb.recs[j].takeover = false ∧ t.arb.recs[j].takeover = true) ∧
      (.takeoverEnd j ∈ l ↔ s.arb.recs[j].takeover = true ∧ t.arb.recs[j].takeover = false)

theorem mem_takeoverMsgs (before now : Bool) (d j : DisplayIx) :
    (.takeoverBegin j ∈ takeoverMsgs before now d ↔ d = j ∧ before = false ∧ now = true) ∧
      (.takeoverEnd j ∈ takeoverMsgs before now d ↔ d = j ∧ before = true ∧ now = false) := by
  cases before <;> cases now <;> simp [takeoverMsgs, eq_comm]

/-- Up to its takeover comparisons an event sends the Display Controller strip reports alone, and keeps the
takeover class and the flags. -/
structure Unsignalled (s u : State) : Prop where
  cfg : u.arb.cfg = s.arb.cfg
  flags : ∀ j : DisplayIx, u.arb.recs[j].takeover = s.arb.recs[j].takeover
  signals : ∃ l, u.bus.signals = s.bus.signals ++ l ∧ ∀ g ∈ l, ∃ d top, g = .strip d top

theorem Quiet.unsignalled (h : Quiet s t) : Unsignalled s t :=
  ⟨h.cfg, fun j => (h.kept j).2.2.1, h.signals⟩

theorem noticeEvent_compared (extra : Option NoticeIx) {act : State → State} {v : State}
    (h : Unsignalled s (act v)) : Compared s (noticeEvent extra act v) := by
  obtain ⟨slots, -, -, recs, bus⟩ := noticeEvent_effect extra act v
  obtain ⟨cfg, flags, strips, sent, isStrip⟩ := h
  have now (j : DisplayIx) : (noticeEvent extra act v).arb.recs[j].takeover =
      overtaken s.arb.cfg.takeoverClass (act v) j := by
    rw [recs j, cfg]
  have signals := congrArg Bus.signals bus
  dsimp only at signals
  rw [sent, List.append_assoc] at signals
  refine ⟨fun j => (now j).trans ?_, _, signals, fun j => ?_⟩
  · unfold overtaken
    rw [recs j, slots]
  · have noStrip (g : PanelSignal) (hg : ∀ d top, g ≠ .strip d top) : g ∉ strips := fun hm => by
      obtain ⟨d, top, eq⟩ := isStrip g hm
      exact hg d top eq
    rw [List.mem_append, List.mem_append, or_iff_right (noStrip _ (by simp)),
      or_iff_right (noStrip _ (by simp)), now j, ← flags j]
    simp only [List.mem_flatMap, List.mem_finRange, true_and, mem_takeoverMsgs, cfg]
    exact ⟨⟨by rintro ⟨_, rfl, h⟩; exact h, fun h => ⟨j, rfl, h⟩⟩,
      ⟨by rintro ⟨_, rfl, h⟩; exact h, fun h => ⟨j, rfl, h⟩⟩⟩

theorem noticeEvent_reports (extra : Option NoticeIx) (act : State → State) (s : State) :
    (noticeEvent extra act s).bus.displayReports = (act s).bus.displayReports := by
  obtain ⟨-, -, -, -, bus⟩ := noticeEvent_effect extra act s
  rw [bus]

/-! ## A report of one display taken -/

/-- The arbitration record of `d` changed as a report says, its notices aside, and the rest of the event
quiet. -/
structure Reported (d : DisplayIx) (f : ArbRec → ArbRec) (s u : State) : Prop where
  quiet : Quiet (withArb d f (popReport s)) u
  flag : (f s.arb.recs[d]).takeover = s.arb.recs[d].takeover

theorem withArb_record (d : DisplayIx) (f : ArbRec → ArbRec) (s : State) :
    (withArb d f s).arb.recs[d] = f s.arb.recs[d] ∧
      ∀ j : DisplayIx, j ≠ d → (withArb d f s).arb.recs[j] = s.arb.recs[j] :=
  ⟨put_same _ _ _, fun _ ne => put_other _ _ _ _ ne⟩

theorem withArb_twice (d : DisplayIx) (f g : ArbRec → ArbRec) (s : State) :
    withArb d g (withArb d f s) = withArb d (fun a => g (f a)) s := by
  unfold withArb
  dsimp only
  rw [put_same, put_put_same]

theorem Reported.unsignalled {d : DisplayIx} {f : ArbRec → ArbRec} (h : Reported d f s u) :
    Unsignalled s u := by
  obtain ⟨own, others⟩ := withArb_record d f (popReport s)
  refine ⟨h.quiet.cfg, fun j => ((h.quiet.kept j).2.2.1).trans ?_, h.quiet.signals⟩
  by_cases same : j = d
  · subst same
    rw [own]
    exact h.flag
  · rw [others j same]
    rfl

/-- What a report of `d` leaves of the records: those of the others keep state, floor and tag, that of `d`
has what the report gives. -/
theorem Reported.records {d : DisplayIx} {f : ArbRec → ArbRec} {act : State → State}
    (h : Reported d f s (act (popReport s))) (ht : t = noticeEvent none act (popReport s)) :
    (t.arb.recs[d].noticeState = (f s.arb.recs[d]).noticeState ∧
        t.arb.recs[d].tag = (f s.arb.recs[d]).tag ∧ t.arb.recs[d].floor = (f s.arb.recs[d]).floor) ∧
      (∀ j : DisplayIx, j ≠ d → t.arb.recs[j].noticeState = s.arb.recs[j].noticeState ∧
        t.arb.recs[j].tag = s.arb.recs[j].tag ∧ t.arb.recs[j].floor = s.arb.recs[j].floor) ∧
      t.bus.displayReports = s.bus.displayReports.tail := by
  obtain ⟨-, -, -, recs, -⟩ := noticeEvent_effect none act (popReport s)
  obtain ⟨own, others⟩ := withArb_record d f (popReport s)
  have kept (j : DisplayIx) : t.arb.recs[j].noticeState =
        (withArb d f (popReport s)).arb.recs[j].noticeState ∧
      t.arb.recs[j].tag = (withArb d f (popReport s)).arb.recs[j].tag ∧
      t.arb.recs[j].floor = (withArb d f (popReport s)).arb.recs[j].floor := by
    obtain ⟨state, floor, -, tag⟩ := h.quiet.kept j
    rw [ht, recs j]
    exact ⟨state, tag, floor⟩
  refine ⟨?_, fun j ne => ?_, ?_⟩
  · have := kept d
    rw [own] at this
    exact this
  · have := kept j
    rw [others j ne] at this
    exact this
  · have reports := h.quiet.reports
    rw [ht, noticeEvent_reports, reports]
    simp only [withArb, popReport]

end

end Sys2Proof.Machine

namespace Sys2Proof.Machine

section
variable {s t u : State}

/-! ## Placements, one after another -/

/-- What a placement leaves while no show is gone: what stands stays, stacks grow, and a display that is not
ON stays as it is. -/
structure Placing (s t : State) : Prop where
  stands : ∀ i e, standsAt s i e → standsAt t i e
  grows : ∀ e : DisplayIx, s.arb.recs[e].stack <:+ t.arb.recs[e].stack
  away : ∀ e : DisplayIx, s.arb.recs[e].noticeState ≠ .on → t.arb.recs[e] = s.arb.recs[e]
  quiet : Quiet s t

theorem Placing.refl (s : State) : Placing s s :=
  ⟨fun _ _ h => h, fun _ => List.suffix_rfl, fun _ _ => rfl, .refl s⟩

theorem Placing.trans (h : Placing s t) (h' : Placing t u) : Placing s u where
  stands i e there := h'.stands i e (h.stands i e there)
  grows e := (h.grows e).trans (h'.grows e)
  away e off := (h'.away e (by rw [(h.quiet.kept e).1]; exact off)).trans (h.away e off)
  quiet := h.quiet.trans h'.quiet

theorem OnlyPushed.placing {ds : List DisplayIx} (h : OnlyPushed ds s t) (quiet : Quiet s t) :
    Placing s t :=
  ⟨fun i e there => (h.holds e i).mpr there, h.grows, fun e off => h.elsewhere e (.inr off), quiet⟩

theorem evaluateAll_placing (ds : List DisplayIx) (live : NoneGone s) : Placing s (evaluateAll ds s) :=
  (evaluate_only 4000 ds s live).placing (evaluate_quiet 4000 ds s)

theorem enterPending_placing (i : NoticeIx) {d : DisplayIx} (on : s.arb.recs[d].noticeState = .on) :
    Placing s (enterPending i d s) := by
  obtain ⟨own, others⟩ := withArb_record d (fun a =>
    if a.pending.contains i || a.stack.contains i then a else { a with pending := a.pending ++ [i] }) s
  refine ⟨fun j e there => (enterPending_stands i j d e s).mpr (.inl there), fun e => ?_, fun e off => ?_,
    enterPending_quiet i d s⟩
  · by_cases h : e = d
    · subst h
      unfold enterPending
      rw [own]
      split
      · exact List.suffix_rfl
      · exact List.suffix_rfl
    · unfold enterPending
      rw [others e h]
  · exact others e fun same => off (same ▸ on)

theorem setNotice_placing (i : NoticeIx) (n : Notice) (s : State) : Placing s (setNotice i n s) :=
  ⟨fun _ _ h => h, fun _ => List.suffix_rfl, fun _ _ => rfl, setNotice_quiet i n s⟩

theorem placeNotice_placing (i : NoticeIx) (live : NoneGone s) : Placing s (placeNotice i s) := by
  cases slot : s.arb.slots[i].notice with
  | none =>
    have eq : placeNotice i s = s := by
      unfold placeNotice noticeAt
      rw [slot]
    rw [eq]
    exact .refl s
  | some n =>
    obtain ⟨kept, -⟩ := placedAt_effect slot (placementOf s n)
    rw [placeNotice_eq slot]
    refine Placing.trans ?_ (evaluateAll_placing _ (kept.noneGone live))
    cases found : placementOf s n with
    | none => exact setNotice_placing i _ s
    | some d =>
      obtain ⟨⟨on, -⟩, -⟩ := (placementOf_spec s n).2.2 d found
      exact (setNotice_placing i _ s).trans (enterPending_placing i on)

theorem placeNotices_placing (l : List NoticeIx) (live : NoneGone s) : Placing s (placeNotices l s) := by
  induction l generalizing s with
  | nil => exact .refl s
  | cons i l ih =>
    exact (placeNotice_placing i live).trans (ih ((placeNotice_kept i s).noneGone live))

theorem placeNotice_apart {i j : NoticeIx} (ne : j ≠ i) (live : NoneGone s) :
    (placeNotice i s).arb.slots[j].notice.map Notice.placed =
      s.arb.slots[j].notice.map Notice.placed := by
  cases slot : s.arb.slots[i].notice with
  | none =>
    have eq : placeNotice i s = s := by
      unfold placeNotice noticeAt
      rw [slot]
    rw [eq]
  | some n => exact (placeNotice_effect slot live).2.2 j ne

/-- A notice that is not placed keeps its display. -/
theorem placeNotices_apart {j : NoticeIx} (l : List NoticeIx) (apart : j ∉ l) (live : NoneGone s) :
    (placeNotices l s).arb.slots[j].notice.map Notice.placed =
      s.arb.slots[j].notice.map Notice.placed := by
  induction l generalizing s with
  | nil => rfl
  | cons i l ih =>
    have ne : j ≠ i := fun same => apart (by simp [same])
    exact (ih (fun h => apart (by simp [h])) ((placeNotice_kept i s).noneGone live)).trans
      (placeNotice_apart ne live)

/-- Whether a display fits is a matter of its state and tag. -/
theorem Quiet.fits (h : Quiet s t) (target : Target) (e : DisplayIx) : Fits t target e ↔ Fits s target e := by
  obtain ⟨state, -, -, tag⟩ := h.kept e
  unfold Fits
  rw [state, tag]

/-- Notice `i` of target `target` is placed in `t`, among the displays that fit in `s`, or UNPLACED where
none does (R104). -/
def PlacedWell (i : NoticeIx) (target : Target) (s t : State) : Prop :=
  ∃ n, t.arb.slots[i].notice = some n ∧ ((∀ e, ¬ Fits s target e) → n.placed = none) ∧
    ∀ e, Fits s target e → ∃ d, Fits s target d ∧ n.placed = some d ∧ standsAt t i d

theorem placeNotice_placedWell {i : NoticeIx} {n : Notice} (used : s.arb.slots[i].notice = some n)
    (live : NoneGone s) : PlacedWell i n.target s (placeNotice i s) := by
  obtain ⟨⟨n', slot, placed⟩, stands, -⟩ := placeNotice_effect used live
  obtain ⟨nowhere, somewhere, chosen⟩ := placementOf_spec s n
  refine ⟨n', slot, fun none' => placed.trans (nowhere none'), fun e fits => ?_⟩
  obtain ⟨d, found⟩ := somewhere e fits
  exact ⟨d, (chosen d found).1, placed.trans found, (stands i d).mpr (.inr ⟨rfl, found⟩)⟩

/-- A notice stays placed while it keeps its display and what stands stays. -/
theorem PlacedWell.later {i : NoticeIx} {target : Target} (h : PlacedWell i target s t)
    (placed : u.arb.slots[i].notice.map Notice.placed = t.arb.slots[i].notice.map Notice.placed)
    (stands : ∀ e, standsAt t i e → standsAt u i e) : PlacedWell i target s u := by
  obtain ⟨n, slot, nowhere, somewhere⟩ := h
  rw [slot, Option.map_some] at placed
  obtain ⟨m, slot', same⟩ := Option.map_eq_some_iff.mp placed
  refine ⟨m, slot', fun none' => same.trans (nowhere none'), fun e fits => ?_⟩
  obtain ⟨d, fits, here, there⟩ := somewhere e fits
  exact ⟨d, fits, same.trans here, stands d there⟩

/-- Each of the notices placed in order is placed (R104, R105). -/
theorem placeNotices_placedWell {i : NoticeIx} {n : Notice} (l : List NoticeIx) (listed : i ∈ l)
    (used : s.arb.slots[i].notice = some n) (live : NoneGone s) :
    PlacedWell i n.target s (placeNotices l s) := by
  induction l generalizing s n with
  | nil => simp at listed
  | cons j l ih =>
    have live' := (placeNotice_kept j s).noneGone live
    by_cases later : i ∈ l
    · have same := ((placeNotice_kept j s).same live i).posted used
      obtain ⟨m, slot, posted⟩ := Option.map_eq_some_iff.mp same
      have target : m.target = n.target := (congrArg Notice.target posted :)
      obtain ⟨n', slot', nowhere, somewhere⟩ := ih later slot live'
      have fits := (placeNotice_quiet j s).fits
      rw [target] at nowhere somewhere
      refine ⟨n', slot', fun none' => nowhere fun e fit => none' e ((fits _ e).mp fit), fun e fit => ?_⟩
      obtain ⟨d, fit, rest⟩ := somewhere e ((fits _ e).mpr fit)
      exact ⟨d, (fits _ d).mp fit, rest⟩
    · obtain rfl : i = j := (List.mem_cons.mp listed).resolve_right later
      exact (placeNotice_placedWell used live).later (placeNotices_apart l later live')
        fun e => (placeNotices_placing l live').stands i e

/-- The first of the notices placed goes to the display that R104 chooses. -/
theorem placeNotices_first {i : NoticeIx} {n : Notice} (l : List NoticeIx) (once : i ∉ l)
    (used : s.arb.slots[i].notice = some n) (live : NoneGone s) {n' : Notice} {d : DisplayIx}
    (slot : (placeNotices (i :: l) s).arb.slots[i].notice = some n') (placed : n'.placed = some d) :
    Fits s n.target d ∧ ∀ e, Fits s n.target e → e ≠ d → chosenBefore s d e := by
  have later := placeNotices_apart l once ((placeNotice_kept i s).noneGone live)
  obtain ⟨⟨m, here, found⟩, -⟩ := placeNotice_effect used live
  have eq : placeNotices (i :: l) s = placeNotices l (placeNotice i s) := rfl
  rw [← eq, slot, here, Option.map_some, Option.map_some, Option.some.injEq, placed, found] at later
  exact (placementOf_spec s n).2.2 d later.symm

/-- The ANY_ONE notices of the order that satisfy a condition are placed again, where the displays that fit
and the choices among them are those of `s` (R104, R105). -/
theorem placedAgain_of {which : NoticeIx → Notice → Prop} {among : DisplayIx → Prop} {w : State}
    {l : List NoticeIx} (p : NoticeIx → Bool) (hl : l = w.arb.order.filter p)
    (listed : ∀ i n, s.arb.slots[i].notice = some n →
      (p i = true ↔ n.mode = .anyOne ∧ which i n))
    (unused : ∀ i, s.arb.slots[i].notice = none → p i = false)
    (order : w.arb.order = s.arb.order)
    (same : ∀ i : NoticeIx, SameNotice s w i)
    (fits : ∀ target e, Fits w target e ↔ among e ∧ matchesTarget target e s.arb.recs[e].tag = true)
    (chosen : ∀ a b, among a → among b → (chosenBefore w a b ↔ chosenBefore s a b))
    (live : NoneGone w) :
    PlacedAgain which among s (placeNotices l w) := by
  intro i n inOrder used mode meets
  obtain ⟨m, slot, posted⟩ := Option.map_eq_some_iff.mp ((same i).posted used)
  have target : m.target = n.target := (congrArg Notice.target posted :)
  have isListed : p i = true := (listed i n used).mpr ⟨mode, meets⟩
  have mem : i ∈ l := by
    rw [hl, order]
    exact List.mem_filter.mpr ⟨inOrder, isListed⟩
  obtain ⟨n', slot', nowhere, somewhere⟩ := placeNotices_placedWell l mem slot live
  rw [target] at nowhere somewhere
  refine ⟨n', slot', fun none' => nowhere fun e h => none' e ((fits _ e).mp h), fun e h => ?_, ?_⟩
  · obtain ⟨d, h, placed, stands⟩ := somewhere e ((fits _ e).mpr h)
    exact ⟨d, (fits _ d).mp h, placed, stands⟩
  · intro older newer split once first d placed e h ne
    have none' : older.filter p = [] := List.filter_eq_nil_iff.mpr fun j hj hp => by
      cases hs : s.arb.slots[j].notice with
      | none => rw [unused j hs] at hp; simp at hp
      | some m =>
        obtain ⟨mode, meets⟩ := (listed j m hs).mp hp
        exact first j hj m hs mode meets
    have eq : l = i :: newer.filter p := by
      rw [hl, order, split, List.filter_append, none', List.filter_cons, if_pos isListed,
        List.nil_append]
    rw [eq] at slot'
    obtain ⟨hd, before⟩ := placeNotices_first _ (fun h => once (List.mem_of_mem_filter h)) slot live slot'
      placed
    rw [target] at hd before
    exact (chosen d e ((fits _ d).mp hd).1 h.1).mp (before e ((fits _ e).mpr h) ne)

end

end Sys2Proof.Machine

namespace Sys2Proof.Machine

section
variable {s t u : State}

/-! ## A display that is not ON -/

/-- A display that is not ON and whose stack is empty gets nothing on its stack and comes to hold nothing. -/
structure Rests (d : DisplayIx) (s t : State) : Prop where
  quiet : Quiet s t
  rests : s.arb.recs[d].noticeState ≠ .on → s.arb.recs[d].stack = [] →
    t.arb.recs[d].stack = [] ∧ t.arb.recs[d].coverStart = s.arb.recs[d].coverStart ∧
      ∀ i ∈ t.arb.recs[d].pending, i ∈ s.arb.recs[d].pending

theorem Rests.of_record {d : DisplayIx} (quiet : Quiet s t)
    (same : s.arb.recs[d].noticeState ≠ .on → t.arb.recs[d] = s.arb.recs[d]) : Rests d s t :=
  ⟨quiet, fun off empty => by rw [same off]; exact ⟨empty, rfl, fun _ h => h⟩⟩

theorem Rests.refl (d : DisplayIx) (s : State) : Rests d s s := .of_record (.refl s) fun _ => rfl

theorem Rests.trans {d : DisplayIx} (h : Rests d s t) (h' : Rests d t u) : Rests d s u := by
  refine ⟨h.quiet.trans h'.quiet, fun off empty => ?_⟩
  obtain ⟨stack, cover, pending⟩ := h.rests off empty
  obtain ⟨stack', cover', pending'⟩ := h'.rests (by rw [(h.quiet.kept d).1]; exact off) stack
  exact ⟨stack', cover'.trans cover, fun i there => pending i (pending' i there)⟩

theorem Rests.foldl {α : Type} {d : DisplayIx} (g : State → α → State) (h : ∀ s a, Rests d s (g s a))
    (l : List α) (s : State) : Rests d s (l.foldl g s) := by
  induction l generalizing s with
  | nil => exact .refl d s
  | cons a l ih => exact (h s a).trans (ih (g s a))

theorem removeAt_rests (i : NoticeIx) (d e : DisplayIx) (s : State) : Rests d s (removeAt i e s) := by
  by_cases h : d = e
  · subst h
    refine ⟨removeAt_quiet i d s, fun _ empty => ?_⟩
    have eq : removeAt i d s = withArb d (fun a => { a with
        pending := a.pending.filter (· != i), stack := s.arb.recs[d].stack.filter (· != i) }) s := by
      unfold removeAt
      dsimp only
      rw [empty]
      rfl
    rw [eq, (withArb_record d _ s).1, empty]
    exact ⟨rfl, rfl, fun j there => List.mem_of_mem_filter there⟩
  · refine .of_record (removeAt_quiet i e s) fun _ => ?_
    unfold removeAt
    dsimp only
    split
    · exact put_other s.arb.recs e d _ h
    · exact put_other s.arb.recs e d _ h

theorem evaluate_rests (d : DisplayIx) (fuel : Nat) (ds : List DisplayIx) (s : State) :
    Rests d s (evaluate fuel ds s) := by
  refine evaluate_relates (Rests d) (Rests.refl d) (fun _ _ _ => Rests.trans)
    (fun s e i waiting on => ?_) (fun s v e i _ _ removed => ?_) fuel ds s
  · refine .of_record (pushNotice_quiet i e s) fun off => ?_
    exact (pushNotice_only i e s waiting on).1.elsewhere d (.inr off)
  · have left : Rests d s (removeEverywhere i s) := Rests.foldl _ (fun s e => removeAt_rests i d e s) _ s
    refine (left.trans removed).trans (.of_record (concludeEnding_quiet _ i v) fun _ => ?_)
    rw [(concludeEnding_spares _ i v).1]

theorem placeNotice_rests (d : DisplayIx) (i : NoticeIx) (s : State) : Rests d s (placeNotice i s) := by
  cases slot : s.arb.slots[i].notice with
  | none =>
    have eq : placeNotice i s = s := by
      unfold placeNotice noticeAt
      rw [slot]
    rw [eq]
    exact .refl d s
  | some n =>
    rw [placeNotice_eq slot]
    refine Rests.trans ?_ (evaluate_rests d 4000 _ _)
    cases found : placementOf s n with
    | none => exact .of_record (setNotice_quiet i _ s) fun _ => rfl
    | some e =>
      obtain ⟨⟨on, -⟩, -⟩ := (placementOf_spec s n).2.2 e found
      exact .of_record ((setNotice_quiet i _ s).trans (enterPending_quiet i e _)) fun off =>
        (withArb_record e _ _).2 d fun same => off (same ▸ on)

theorem placeNotices_rests (d : DisplayIx) (l : List NoticeIx) (s : State) :
    Rests d s (placeNotices l s) := Rests.foldl _ (fun s i => placeNotice_rests d i s) l s

/-! ## What a report of one display leaves of the rest -/

/-- What every report of `d` of its state does: `d` has the state and the tag of the report, the report is
taken, the other displays keep theirs, and the takeover flags are compared. -/
def Follows (d : DisplayIx) (st : DisplayState) (tag : Byte) (rest : List DisplayReport) (s t : State) :
    Prop :=
  t.arb.recs[d].noticeState = st ∧ t.arb.recs[d].tag = tag ∧ t.bus.displayReports = rest ∧
    (∀ j : DisplayIx, j ≠ d →
      t.arb.recs[j].noticeState = s.arb.recs[j].noticeState ∧ t.arb.recs[j].tag = s.arb.recs[j].tag) ∧
    (∀ j : DisplayIx, t.arb.recs[j].floor = s.arb.recs[j].floor) ∧ Compared s t

theorem Reported.follows {d : DisplayIx} {f : ArbRec → ArbRec} {act : State → State} {x : DisplayReport}
    {rest : List DisplayReport} (h : Reported d f s (act (popReport s)))
    (floor : (f s.arb.recs[d]).floor = s.arb.recs[d].floor) (taken : s.bus.displayReports = x :: rest) :
    Follows d (f s.arb.recs[d]).noticeState (f s.arb.recs[d]).tag rest s
      (noticeEvent none act (popReport s)) := by
  have compared := noticeEvent_compared none h.unsignalled
  generalize ht : noticeEvent none act (popReport s) = t at compared
  obtain ⟨⟨state, tag, floor'⟩, others, reports⟩ := h.records ht.symm
  rw [taken] at reports
  refine ⟨state, tag, reports, fun j ne => ?_, fun j => ?_, compared⟩
  · obtain ⟨state, tag, -⟩ := others j ne
    exact ⟨state, tag⟩
  · by_cases same : j = d
    · subst same
      exact floor'.trans floor
    · exact (others j same).2.2

/-- Where the notices and the records of two displays are the same, so is the choice between them. -/
theorem chosenBefore_of_records {a b : DisplayIx} (slots : t.arb.slots = s.arb.slots)
    (first : t.arb.recs[a].stack = s.arb.recs[a].stack ∧ t.arb.recs[a].floor = s.arb.recs[a].floor ∧
      t.arb.recs[a].pending = s.arb.recs[a].pending)
    (second : t.arb.recs[b].stack = s.arb.recs[b].stack ∧ t.arb.recs[b].floor = s.arb.recs[b].floor ∧
      t.arb.recs[b].pending = s.arb.recs[b].pending) : chosenBefore t a b ↔ chosenBefore s a b := by
  obtain ⟨stack, floor, pending⟩ := first
  obtain ⟨stack', floor', pending'⟩ := second
  unfold chosenBefore levelAt priorityIn
  rw [slots, stack, floor, pending, stack', floor', pending']

/-- The takeover comparisons move no notice. -/
theorem PlacedAgain.ofEvent {which : NoticeIx → Notice → Prop} {among : DisplayIx → Prop}
    {act : State → State} {v : State} (h : PlacedAgain which among s (act v)) :
    PlacedAgain which among s (noticeEvent none act v) := by
  obtain ⟨slots, -⟩ := noticeEvent_effect none act v
  obtain ⟨-, -, -, -, stands⟩ := noticeEvent_ends none act v
  unfold PlacedAgain at *
  simp only [slots, stands]
  exact h

/-! ## The six reports -/

theorem exec_enabledReport {d : DisplayIx} {tag : Byte} {rest : List DisplayReport}
    (h : s.bus.displayReports = .enabled d tag :: rest) :
    exec .enabledReport s = .next (noticeEvent none (displayEnabled d tag) (popReport s)) := by
  simp only [exec, execEnabledReport, h]

theorem exec_linkUpReport {d : DisplayIx} {rest : List DisplayReport}
    (h : s.bus.displayReports = .linkUp d :: rest) :
    exec .linkUpReport s = .next (noticeEvent none (displayUp d) (popReport s)) := by
  simp only [exec, execLinkUpReport, h]

theorem exec_linkLostReport {d : DisplayIx} {rest : List DisplayReport}
    (h : s.bus.displayReports = .linkLost d :: rest) :
    exec .linkLostReport s = .next (noticeEvent none (displayLost d) (popReport s)) := by
  simp only [exec, execLinkLostReport, h]

theorem exec_drainingReport {d : DisplayIx} {rest : List DisplayReport}
    (h : s.bus.displayReports = .draining d :: rest) :
    exec .drainingReport s = .next (noticeEvent none (leaveDisplay .draining [] d) (popReport s)) := by
  simp only [exec, execDrainingReport, h]

theorem exec_offReport {d : DisplayIx} {rest : List DisplayReport}
    (h : s.bus.displayReports = .off d :: rest) :
    exec .offReport s = .next (noticeEvent none (leaveDisplay .off [] d) (popReport s)) := by
  simp only [exec, execOffReport, h]

theorem exec_floorReport {d : DisplayIx} {value : Nat} {rest : List DisplayReport}
    (h : s.bus.displayReports = .floor d value :: rest) :
    exec .floorReport s = .next (noticeEvent none
      (fun s => evaluateAll [d] (withArb d (fun a => { a with floor := value }) s)) (popReport s)) := by
  simp only [exec, execFloorReport, h]

/-! ## A display enabled -/

theorem displayEnabled_eq (d : DisplayIx) (tag : Byte) (s : State) :
    displayEnabled d tag s =
      (s.arb.order.filter fun i => isAll s i &&
        (noticeAt s i).any fun n => matchesTarget n.target d tag).foldl (fun s i => enterPending i d s)
          (withArb d (fun a => { a with noticeState := .starting, tag := tag }) s) := by
  obtain ⟨w, hw⟩ : ∃ w, w = withArb d (fun a => { a with noticeState := .starting, tag := tag }) s :=
    ⟨_, rfl⟩
  have written : withArb d (fun a => { a with tag := tag }) (setNoticeState .starting d s) = w :=
    (withArb_twice d _ _ s).trans hw.symm
  have own : w.arb.recs[d].tag = tag := by
    rw [hw, (withArb_record d _ s).1]
  have order : w.arb.order = s.arb.order := by rw [hw]; rfl
  have slots : w.arb.slots = s.arb.slots := by rw [hw]; rfl
  unfold displayEnabled
  dsimp only
  rw [written, ← hw, order]
  congr 1
  refine List.filter_congr fun i _ => ?_
  simp only [isAll, noticeAt, slots, displayMatches, own]

theorem entered_stands (d : DisplayIx) (l : List NoticeIx) {i : NoticeIx} (listed : i ∈ l) (s : State) :
    standsAt (l.foldl (fun s i => enterPending i d s) s) i d := by
  induction l generalizing s with
  | nil => simp at listed
  | cons j l ih =>
    by_cases later : i ∈ l
    · exact ih later _
    · obtain rfl : i = j := (List.mem_cons.mp listed).resolve_right later
      have there : standsAt (enterPending i d s) i d := (enterPending_stands i i d d s).mpr (.inr ⟨rfl, rfl⟩)
      clear ih listed later
      rw [List.foldl_cons]
      generalize enterPending i d s = v at there
      induction l generalizing v with
      | nil => exact there
      | cons k l ih => exact ih _ ((enterPending_stands k i d d v).mpr (.inl there))

end

end Sys2Proof.Machine

namespace Sys2Proof.Machine

section
variable {s t u : State}

/-! ## A display left by its notices -/

/-- The record of a display left by its notices (R106, R107). -/
def leftRecord (st : DisplayState) (kept : List NoticeIx) (a : ArbRec) : ArbRec :=
  { a with noticeState := st, pending := kept, stack := [], coverStart := none }

theorem leaveDisplay_eq (st : DisplayState) (kept : List NoticeIx) (d : DisplayIx) (s : State) :
    leaveDisplay st kept d s =
      placeNotices (anyOneAt s d) (withArb d (leftRecord st kept) s) := rfl

theorem isAnyOne_iff {i : NoticeIx} {n : Notice} (used : s.arb.slots[i].notice = some n) :
    isAnyOne s i = true ↔ n.mode = .anyOne := by
  unfold isAnyOne noticeAt
  rw [used]
  simp

theorem isAll_iff (i : NoticeIx) :
    isAll s i = true ↔ ∃ n, s.arb.slots[i].notice = some n ∧ n.mode = .all := by
  unfold isAll noticeAt
  cases s.arb.slots[i].notice <;> simp

theorem holdsNotice_iff (i : NoticeIx) (d : DisplayIx) : holdsNotice s i d = true ↔ standsAt s i d := by
  simp [holdsNotice, standsAt, -Fin.getElem_fin]

/-- The ANY_ONE notices that stood at a display are placed again, among the displays that are ON. -/
theorem leaveDisplay_placedAgain {st : DisplayState} (off : st ≠ .on) (kept : List NoticeIx)
    (d : DisplayIx) (live : NoneGone s) :
    PlacedAgain (fun i _ => standsAt s i d) (fun e => e ≠ d ∧ s.arb.recs[e].noticeState = .on) s
      (leaveDisplay st kept d (popReport s)) := by
  rw [leaveDisplay_eq]
  obtain ⟨w, hw⟩ : ∃ w, w = withArb d (leftRecord st kept) (popReport s) := ⟨_, rfl⟩
  obtain ⟨own, others⟩ := withArb_record d (leftRecord st kept) (popReport s)
  rw [← hw] at own others ⊢
  have slots : w.arb.slots = s.arb.slots := by rw [hw]; rfl
  have order : w.arb.order = s.arb.order := by rw [hw]; rfl
  have shows : w.shows = s.shows := by rw [hw]; rfl
  have same (i : NoticeIx) : SameNotice s w i := .of_slot (by rw [slots])
  refine placedAgain_of (fun i => isAnyOne (popReport s) i && holdsNotice (popReport s) i d)
    (by rw [order]; rfl) (fun i n used => ?_) (fun i free => ?_) order same (fun target e => ?_)
    (fun a b ha hb => ?_) (noneGone_congr shows same live)
  · rw [Bool.and_eq_true, isAnyOne_iff (s := popReport s) used, holdsNotice_iff]
    rfl
  · have : isAnyOne (popReport s) i = false := by
      unfold isAnyOne noticeAt
      rw [show (popReport s).arb.slots[i].notice = none from free]
      rfl
    simp only [this, Bool.false_and]
  · unfold Fits
    by_cases h : e = d
    · subst h
      rw [own]
      exact ⟨fun h => absurd h.1 off, fun h => absurd rfl h.1.1⟩
    · rw [others e h]
      exact ⟨fun ⟨on, fit⟩ => ⟨⟨h, on⟩, fit⟩, fun ⟨⟨_, on⟩, fit⟩ => ⟨on, fit⟩⟩
  · refine chosenBefore_of_records slots ?_ ?_
    · rw [others a ha.1]
      exact ⟨rfl, rfl, rfl⟩
    · rw [others b hb.1]
      exact ⟨rfl, rfl, rfl⟩

/-- What a display left by its notices keeps of them, and what becomes of the rest (R106, R107). -/
theorem displayLeft {st : DisplayState} (off : st ≠ .on) (kept : List NoticeIx) {d : DisplayIx}
    {x : DisplayReport} {rest : List DisplayReport} (taken : s.bus.displayReports = x :: rest) :
    let t := noticeEvent none (leaveDisplay st kept d) (popReport s)
    Follows d st s.arb.recs[d].tag rest s t ∧
      t.arb.recs[d].stack = [] ∧ t.arb.recs[d].coverStart = none ∧
      (∀ i ∈ t.arb.recs[d].pending, i ∈ kept) ∧
      (NoneGone s → PlacedAgain (fun i _ => standsAt s i d)
        (fun e => e ≠ d ∧ s.arb.recs[e].noticeState = .on) s t ∧ t.arb.recs[d].pending = kept) := by
  intro t
  have reported : Reported d (leftRecord st kept) s (leaveDisplay st kept d (popReport s)) :=
    ⟨placeNotices_quiet _ _, rfl⟩
  obtain ⟨-, -, -, recs, -⟩ := noticeEvent_effect none (leaveDisplay st kept d) (popReport s)
  obtain ⟨own, -⟩ := withArb_record d (leftRecord st kept) (popReport s)
  have offHere : (withArb d (leftRecord st kept) (popReport s)).arb.recs[d].noticeState ≠ .on := by
    rw [own]
    exact off
  obtain ⟨stack, cover, pending⟩ := (placeNotices_rests d (anyOneAt (popReport s) d)
    (withArb d (leftRecord st kept) (popReport s))).rests offHere (by rw [own]; rfl)
  rw [own] at cover pending
  rw [← leaveDisplay_eq] at stack cover pending
  refine ⟨reported.follows rfl taken, ?_, ?_, ?_, fun live =>
    ⟨(leaveDisplay_placedAgain off kept d live).ofEvent, ?_⟩⟩
  · rw [recs d]
    exact stack
  · rw [recs d]
    exact cover
  · rw [recs d]
    exact pending
  · have live' : NoneGone (withArb d (leftRecord st kept) (popReport s)) := live
    have stays := (placeNotices_placing (anyOneAt (popReport s) d) live').away d offHere
    rw [← leaveDisplay_eq, own] at stays
    rw [recs d, stays]
    rfl

/-! ## Evaluations of one display -/

theorem evaluate_nil (fuel : Nat) (s : State) : evaluate fuel [] s = s := by
  cases fuel <;> rfl

/-- A display whose candidate may not be pushed is left as it is (R95). -/
theorem evaluate_still {d : DisplayIx} (fuel : Nat)
    (still : ∀ i, candidateOf s d = some i → mayPush s d i = false) : evaluate fuel [d] s = s := by
  cases fuel with
  | zero => rfl
  | succ n =>
    rw [evaluate]
    split
    · exact evaluate_nil n s
    · split
      · exact evaluate_nil n s
      · rename_i i found
        rw [still i found]
        exact evaluate_nil n s

/-- A candidate that passes is pushed, and the cover time that begins lets no other pass (R95, R98). -/
theorem evaluateAll_pushesOne {d : DisplayIx} {i : NoticeIx} (on : s.arb.recs[d].noticeState = .on)
    (candidate : isCandidate s d i) (pass : passes s d i) (live : boundGone s i = false)
    (cover : 0 < s.arb.cfg.minCover) : evaluateAll [d] s = pushNotice i d s := by
  have first : evaluateAll [d] s = evaluate 3999 [d] (pushNotice i d s) := by
    unfold evaluateAll
    rw [show (4000 : Nat) = 3999 + 1 from rfl, evaluate]
    simp [on, (candidateOf_iff s d i).mpr candidate, (mayPush_iff s d i).mpr pass, live,
      -Fin.getElem_fin]
  rw [first]
  refine evaluate_still _ fun j _ => ?_
  obtain ⟨-, record⟩ := pushNotice_only i d s candidate.1 on
  rw [Bool.eq_false_iff]
  intro may
  obtain ⟨-, -, free⟩ := (mayPush_iff _ d j).mp may
  rw [record, (pushNotice_quiet i d s).cfg, show (pushNotice i d s).clock = s.clock by simp] at free
  rcases free with empty | elapsed
  · exact absurd empty (by simp)
  · have := elapsed s.clock.partSeconds rfl
    omega

/-- What a push writes of the notice, and what it reports (R98). -/
theorem pushNotice_notice {i : NoticeIx} {n : Notice} (d : DisplayIx)
    (used : s.arb.slots[i].notice = some n) :
    (pushNotice i d s).arb.slots[i].notice = some { n with aired := sat16 (n.aired + 1) } ∧
      (pushNotice i d s).bus.signals = s.bus.signals ++
        [.strip d (some (noticeRef s i, classOf n.priority, n.content))] := by
  obtain ⟨w, hw⟩ : ∃ w, w = withArb d (fun a => { a with
      pending := a.pending.filter (· != i), stack := i :: a.stack,
      coverStart := some s.clock.partSeconds }) s := ⟨_, rfl⟩
  have slots : w.arb.slots = s.arb.slots := by rw [hw]; rfl
  have signals : w.bus.signals = s.bus.signals := by rw [hw]; rfl
  have stack : w.arb.recs[d].stack = i :: s.arb.recs[d].stack := by
    rw [hw, (withArb_record d _ s).1]
  have eq : pushNotice i d s = reportStrip d (setNotice i { n with aired := sat16 (n.aired + 1) } w) := by
    have found : noticeAt w i = some n := by
      unfold noticeAt
      rw [slots, used]
    unfold pushNotice
    rw [← hw]
    dsimp only
    rw [found]
  have written : (setNotice i { n with aired := sat16 (n.aired + 1) } w).arb.slots[i] =
      { w.arb.slots[i] with notice := some { n with aired := sat16 (n.aired + 1) } } := put_same _ _ _
  have top : topNotice (setNotice i { n with aired := sat16 (n.aired + 1) } w) d =
      some (noticeRef s i, classOf n.priority, n.content) := by
    have stack : (setNotice i { n with aired := sat16 (n.aired + 1) } w).arb.recs[d].stack =
        i :: s.arb.recs[d].stack := stack
    unfold topNotice noticeAt noticeRef
    rw [stack]
    simp only [written, slots, Option.map_some]
  rw [eq]
  refine ⟨congrArg NoticeSlot.notice written, ?_⟩
  unfold reportStrip signalPanel
  rw [top]
  exact congrArg (· ++ _) signals

end

end Sys2Proof.Machine

namespace Sys2Proof.Machine

section
variable {s t u : State}

/-! ## A display whose link comes up -/

/-- The state when a link up report has been taken and written (R93). -/
def linkedUp (d : DisplayIx) (s : State) : State := setNoticeState .on d (popReport s)

theorem linkedUp_records (d : DisplayIx) (s : State) :
    (linkedUp d s).arb.recs[d] = { s.arb.recs[d] with noticeState := .on } ∧
      ∀ j : DisplayIx, j ≠ d → (linkedUp d s).arb.recs[j] = s.arb.recs[j] :=
  withArb_record d _ (popReport s)

theorem linkedUp_candidate {d : DisplayIx} {i : NoticeIx} (candidate : isCandidate s d i)
    (pass : passes s d i) : isCandidate (linkedUp d s) d i ∧ passes (linkedUp d s) d i := by
  obtain ⟨own, -⟩ := linkedUp_records d s
  unfold isCandidate passes levelAt priorityIn at *
  rw [own]
  exact ⟨candidate, pass⟩

theorem displayUp_eq (d : DisplayIx) (s : State) :
    displayUp d (popReport s) =
      placeNotices (unplacedFor (evaluateAll [d] (linkedUp d s)) d) (evaluateAll [d] (linkedUp d s)) :=
  rfl

/-- A notice is among the UNPLACED ones that match a display (R105). -/
theorem unplaced_iff {d : DisplayIx} {i : NoticeIx} {n : Notice} (used : s.arb.slots[i].notice = some n) :
    (isAnyOne s i && (noticeAt s i).any fun n => n.placed.isNone && displayMatches s n.target d) = true ↔
      n.mode = .anyOne ∧ n.placed = none ∧ matchesTarget n.target d s.arb.recs[d].tag = true := by
  rw [Bool.and_eq_true, isAnyOne_iff used]
  unfold noticeAt displayMatches
  rw [used]
  simp

/-- The candidate that passes when a link comes up is on the display's stack at the end (R95, R105). -/
theorem displayUp_pushes {d : DisplayIx} {i : NoticeIx} (live : NoneGone s)
    (candidate : isCandidate s d i) (pass : passes s d i) :
    i ∈ (displayUp d (popReport s)).arb.recs[d].stack := by
  have live' : NoneGone (linkedUp d s) := live
  obtain ⟨candidate, pass⟩ := linkedUp_candidate candidate pass
  have on : (linkedUp d s).arb.recs[d].noticeState = .on := by rw [(linkedUp_records d s).1]
  have pushed := evaluateAll_pushes d (linkedUp d s) i live' on candidate pass
  rw [displayUp_eq]
  exact ((placeNotices_placing _ ((evaluateAll_kept [d] _).noneGone live')).grows d).subset pushed

/-- Every UNPLACED notice that matches is placed when a link comes up (R105). -/
theorem displayUp_places {d : DisplayIx} {i : NoticeIx} {n : Notice} (live : NoneGone s)
    (inOrder : i ∈ s.arb.order) (used : s.arb.slots[i].notice = some n) (mode : n.mode = .anyOne)
    (unplaced : n.placed = none) (fit : matchesTarget n.target d s.arb.recs[d].tag = true) :
    ∃ n' e, (displayUp d (popReport s)).arb.slots[i].notice = some n' ∧ n'.placed = some e ∧
      (displayUp d (popReport s)).arb.recs[e].noticeState = .on ∧
      matchesTarget n.target e s.arb.recs[e].tag = true ∧
      standsAt (displayUp d (popReport s)) i e := by
  have live' : NoneGone (linkedUp d s) := live
  obtain ⟨own, others⟩ := linkedUp_records d s
  have tags (e : DisplayIx) : (linkedUp d s).arb.recs[e].tag = s.arb.recs[e].tag := by
    by_cases h : e = d
    · subst h
      rw [own]
    · rw [others e h]
  obtain ⟨v, hv⟩ : ∃ v, v = evaluateAll [d] (linkedUp d s) := ⟨_, rfl⟩
  have pushed : OnlyPushed [d] (linkedUp d s) v := hv ▸ evaluate_only 4000 [d] _ live'
  have quiet : Quiet (linkedUp d s) v := hv ▸ evaluate_quiet 4000 [d] _
  have kept : TableKept (linkedUp d s) v := hv ▸ evaluateAll_kept [d] _
  have tags (e : DisplayIx) : v.arb.recs[e].tag = s.arb.recs[e].tag :=
    ((quiet.kept e).2.2.2).trans (tags e)
  obtain ⟨m, slot, posted⟩ := Option.map_eq_some_iff.mp ((kept.same live' i).posted used)
  have placed := pushed.placed i
  rw [slot, show (linkedUp d s).arb.slots[i].notice = some n from used, Option.map_some, Option.map_some,
    Option.some.injEq, unplaced] at placed
  have target : m.target = n.target := (congrArg Notice.target posted :)
  have mode' : m.mode = .anyOne := (congrArg Notice.mode posted : _).trans mode
  have listed : i ∈ unplacedFor v d := by
    refine List.mem_filter.mpr ⟨by rw [pushed.order]; exact inOrder, (unplaced_iff slot).mpr ?_⟩
    exact ⟨mode', placed, by rw [target, tags]; exact fit⟩
  have live'' := kept.noneGone live'
  have on : v.arb.recs[d].noticeState = .on := by rw [(quiet.kept d).1, own]
  obtain ⟨n', slot', -, somewhere⟩ := placeNotices_placedWell _ listed slot live''
  obtain ⟨e, fits, here, stands⟩ := somewhere d ⟨on, by rw [target, tags]; exact fit⟩
  obtain ⟨on', fit'⟩ := fits
  rw [displayUp_eq, ← hv]
  refine ⟨n', e, slot', here, ?_, ?_, stands⟩
  · rw [((placeNotices_quiet _ v).kept e).1]
    exact on'
  · rw [target, tags] at fit'
    exact fit'

/-- Where nothing waits at the display whose link comes up, the UNPLACED notices that match it are placed as
R104 says. -/
theorem displayUp_placedAgain {d : DisplayIx} (live : NoneGone s) (waits : s.arb.recs[d].pending = []) :
    PlacedAgain (fun _ n => n.placed = none ∧ matchesTarget n.target d s.arb.recs[d].tag = true)
      (fun e => e = d ∨ s.arb.recs[e].noticeState = .on) s (displayUp d (popReport s)) := by
  obtain ⟨own, others⟩ := linkedUp_records d s
  have still : evaluateAll [d] (linkedUp d s) = linkedUp d s := by
    refine evaluate_still 4000 fun i found => ?_
    have waiting := ((candidateOf_iff _ d i).mp found).1
    rw [own] at waiting
    rw [show ({ s.arb.recs[d] with noticeState := .on } : ArbRec).pending = [] from waits] at waiting
    simp at waiting
  rw [displayUp_eq, still]
  refine placedAgain_of (w := linkedUp d s) (fun i => isAnyOne (linkedUp d s) i &&
      (noticeAt (linkedUp d s) i).any fun n => n.placed.isNone && displayMatches (linkedUp d s) n.target d)
    rfl (fun i n used => ?_) (fun i free => ?_) rfl (fun i => .of_slot rfl) (fun target e => ?_)
    (fun a b _ _ => ?_) live
  · rw [unplaced_iff (s := linkedUp d s) used, own]
  · have : isAnyOne (linkedUp d s) i = false := by
      unfold isAnyOne noticeAt
      rw [show (linkedUp d s).arb.slots[i].notice = none from free]
      rfl
    simp only [this, Bool.false_and]
  · unfold Fits
    by_cases h : e = d
    · subst h
      rw [own]
      simp
    · rw [others e h]
      simp [h]
  · have record (e : DisplayIx) : (linkedUp d s).arb.recs[e].stack = s.arb.recs[e].stack ∧
        (linkedUp d s).arb.recs[e].floor = s.arb.recs[e].floor ∧
        (linkedUp d s).arb.recs[e].pending = s.arb.recs[e].pending := by
      by_cases h : e = d
      · subst h
        rw [own]
        exact ⟨rfl, rfl, rfl⟩
      · rw [others e h]
        exact ⟨rfl, rfl, rfl⟩
    exact chosenBefore_of_records rfl (record a) (record b)

end

end Sys2Proof.Machine

namespace Sys2Proof.Machine

section
variable {s t u : State}

/-! ## The cover timer -/

/-- The mark of a cover timer that has run out taken (R97). -/
def coverTaken (d : DisplayIx) (s : State) : State := withArb d (fun a => { a with coverDue := false }) s

theorem exec_coverTimerExpiry {d : DisplayIx} (due : s.arb.recs[d].coverDue = true) :
    exec (.coverTimerExpiry d) s = .next (noticeEvent none (evaluateAll [d]) (coverTaken d s)) :=
  congrArg Host.Outcome.next (if_pos due)

theorem coverTaken_record (d : DisplayIx) (s : State) :
    (coverTaken d s).arb.recs[d] = { s.arb.recs[d] with coverDue := false } :=
  (withArb_record d _ s).1

theorem coverTaken_candidate (d : DisplayIx) (i : NoticeIx) (s : State) :
    (isCandidate (coverTaken d s) d i ↔ isCandidate s d i) ∧
      (passes (coverTaken d s) d i ↔ passes s d i) := by
  unfold isCandidate passes levelAt priorityIn
  rw [coverTaken_record]
  exact ⟨Iff.rfl, Iff.rfl⟩

theorem coverTaken_compared (d : DisplayIx) (s : State) :
    Compared s (noticeEvent none (evaluateAll [d]) (coverTaken d s)) := by
  have quiet : Quiet s (coverTaken d s) := withArb_quiet d _ s fun _ => ⟨rfl, rfl, rfl, rfl⟩
  exact noticeEvent_compared none (quiet.trans (evaluate_quiet 4000 [d] _)).unsignalled

/-- A candidate that passes when the cover timer has run out goes on top, with a strip report (R97, R98). -/
theorem coverTimer_pushes {d : DisplayIx} {i : NoticeIx} {n : Notice}
    (on : s.arb.recs[d].noticeState = .on) (candidate : isCandidate s d i) (pass : passes s d i)
    (live : boundGone s i = false) (used : s.arb.slots[i].notice = some n)
    (cover : 0 < s.arb.cfg.minCover) (ht : t = noticeEvent none (evaluateAll [d]) (coverTaken d s)) :
    t.arb.recs[d].stack = i :: s.arb.recs[d].stack ∧
      t.arb.recs[d].pending = s.arb.recs[d].pending.filter (· != i) ∧
      t.arb.recs[d].coverStart = some s.clock.partSeconds ∧
      t.arb.slots[i].notice = some { n with aired := min (n.aired + 1) 65535 } ∧
      ∃ l, t.bus.signals = s.bus.signals ++
        .strip d (some (256 * s.arb.slots[i].gen + i.val, n.priority / 4, n.content)) :: l := by
  obtain ⟨candidate', pass'⟩ := coverTaken_candidate d i s
  have on' : (coverTaken d s).arb.recs[d].noticeState = .on := by
    rw [coverTaken_record]
    exact on
  have pushes : evaluateAll [d] (coverTaken d s) = pushNotice i d (coverTaken d s) :=
    evaluateAll_pushesOne on' (candidate'.mpr candidate) (pass'.mpr pass) live cover
  obtain ⟨-, record⟩ := pushNotice_only i d (coverTaken d s) (candidate'.mpr candidate).1 on'
  obtain ⟨notice, signals⟩ := pushNotice_notice (s := coverTaken d s) d used
  obtain ⟨slots, -, -, recs, bus⟩ := noticeEvent_effect none (evaluateAll [d]) (coverTaken d s)
  rw [pushes] at slots bus
  have recs := recs d
  rw [pushes, record, coverTaken_record] at recs
  have ref : noticeRef (coverTaken d s) i = 256 * s.arb.slots[i].gen + i.val := mkRef_eq _ _
  rw [ref] at signals
  have sent := congrArg Bus.signals bus
  dsimp only at sent
  rw [signals, List.append_assoc, List.singleton_append] at sent
  rw [ht, recs, slots]
  exact ⟨rfl, rfl, rfl, notice, _, sent⟩

/-- Where no candidate passes when the cover timer has run out the display stays as it is (R97). -/
theorem coverTimer_still {d : DisplayIx} (none' : ∀ i, isCandidate s d i → ¬ passes s d i)
    (ht : t = noticeEvent none (evaluateAll [d]) (coverTaken d s)) :
    t.arb.recs[d].stack = s.arb.recs[d].stack ∧ t.arb.recs[d].pending = s.arb.recs[d].pending := by
  have still : evaluateAll [d] (coverTaken d s) = coverTaken d s := by
    refine evaluate_still 4000 fun i found => ?_
    obtain ⟨candidate, pass⟩ := coverTaken_candidate d i s
    rw [Bool.eq_false_iff]
    intro may
    exact none' i (candidate.mp ((candidateOf_iff _ d i).mp found)) (pass.mp ((mayPush_iff _ d i).mp may))
  obtain ⟨-, -, -, recs, -⟩ := noticeEvent_effect none (evaluateAll [d]) (coverTaken d s)
  have recs := recs d
  rw [still, coverTaken_record] at recs
  rw [ht, recs]
  exact ⟨rfl, rfl⟩

/-! ## The other reports -/

/-- A display enabled takes every ALL notice that matches it by the tag of the report (R102). -/
theorem enabled_effect {d : DisplayIx} {tag : Byte} {rest : List DisplayReport}
    (taken : s.bus.displayReports = .enabled d tag :: rest) :
    let t := noticeEvent none (displayEnabled d tag) (popReport s)
    Follows d .starting tag rest s t ∧ ∀ i n, i ∈ s.arb.order → s.arb.slots[i].notice = some n →
      n.mode = .all → matchesTarget n.target d tag = true → standsAt t i d := by
  intro t
  have eq := displayEnabled_eq d tag (popReport s)
  have reported : Reported d (fun a => { a with noticeState := .starting, tag := tag }) s
      (displayEnabled d tag (popReport s)) := by
    refine ⟨?_, rfl⟩
    rw [eq]
    exact Quiet.foldl (fun s i => enterPending i d s) (fun s i => enterPending_quiet i d s) _ _
  refine ⟨reported.follows rfl taken, fun i n inOrder used mode fit => ?_⟩
  obtain ⟨-, -, -, -, stands⟩ := noticeEvent_ends none (displayEnabled d tag) (popReport s)
  refine (stands i d).mpr ?_
  rw [eq]
  refine entered_stands d _ (List.mem_filter.mpr ⟨inOrder, ?_⟩) _
  have found : noticeAt (popReport s) i = some n := used
  unfold isAll
  rw [found]
  simp [mode, fit]

theorem linkUp_follows {d : DisplayIx} {x : DisplayReport} {rest : List DisplayReport}
    (taken : s.bus.displayReports = x :: rest) :
    Follows d .on s.arb.recs[d].tag rest s (noticeEvent none (displayUp d) (popReport s)) := by
  have reported : Reported d (fun a => { a with noticeState := .on }) s (displayUp d (popReport s)) :=
    ⟨(evaluate_quiet 4000 [d] _).trans (placeNotices_quiet _ _), rfl⟩
  exact reported.follows rfl taken

/-- What a link up report does with the notices while no show is gone (R105). -/
theorem linkUp_effect {d : DisplayIx} (live : NoneGone s)
    (ht : t = noticeEvent none (displayUp d) (popReport s)) :
    (∀ i, isCandidate s d i → passes s d i → i ∈ t.arb.recs[d].stack) ∧
      (∀ (i : NoticeIx) (n : Notice), i ∈ s.arb.order → s.arb.slots[i].notice = some n →
        n.mode = .anyOne → n.placed = none → matchesTarget n.target d s.arb.recs[d].tag = true →
        ∃ n' e, t.arb.slots[i].notice = some n' ∧ n'.placed = some e ∧
          t.arb.recs[e].noticeState = .on ∧ matchesTarget n.target e s.arb.recs[e].tag = true ∧
          standsAt t i e) ∧
      (s.arb.recs[d].pending = [] →
        PlacedAgain (fun _ n => n.placed = none ∧ matchesTarget n.target d s.arb.recs[d].tag = true)
          (fun e => e = d ∨ s.arb.recs[e].noticeState = .on) s t) := by
  obtain ⟨slots, -, -, recs, -⟩ := noticeEvent_effect none (displayUp d) (popReport s)
  obtain ⟨-, -, -, -, stands⟩ := noticeEvent_ends none (displayUp d) (popReport s)
  rw [ht]
  refine ⟨fun i candidate pass => ?_, fun i n inOrder used mode unplaced fit => ?_, fun waits => ?_⟩
  · rw [recs d]
    exact displayUp_pushes live candidate pass
  · obtain ⟨n', e, slot, placed, on, fit', there⟩ := displayUp_places live inOrder used mode unplaced fit
    refine ⟨n', e, ?_, placed, ?_, fit', (stands i e).mpr there⟩
    · rw [slots]
      exact slot
    · rw [recs e]
      exact on
  · exact (displayUp_placedAgain live waits).ofEvent

theorem floor_effect {d : DisplayIx} {value : Nat} {x : DisplayReport} {rest : List DisplayReport}
    (taken : s.bus.displayReports = x :: rest)
    (ht : t = noticeEvent none
      (fun s => evaluateAll [d] (withArb d (fun a => { a with floor := value }) s)) (popReport s)) :
    t.arb.recs[d].floor = value ∧ t.bus.displayReports = rest ∧
      (∀ j : DisplayIx, j ≠ d → t.arb.recs[j].floor = s.arb.recs[j].floor) ∧
      (∀ j : DisplayIx, t.arb.recs[j].noticeState = s.arb.recs[j].noticeState ∧
        t.arb.recs[j].tag = s.arb.recs[j].tag) ∧ Compared s t := by
  have reported : Reported d (fun a => { a with floor := value }) s
      (evaluateAll [d] (withArb d (fun a => { a with floor := value }) (popReport s))) :=
    ⟨evaluate_quiet 4000 [d] _, rfl⟩
  have compared := noticeEvent_compared none (act := fun s => evaluateAll [d]
    (withArb d (fun a => { a with floor := value }) s)) (v := popReport s) reported.unsignalled
  rw [← ht] at compared
  obtain ⟨⟨state, tag, floor⟩, others, reports⟩ := Reported.records (act := fun s => evaluateAll [d]
    (withArb d (fun a => { a with floor := value }) s)) reported ht
  rw [taken] at reports
  refine ⟨floor, reports, fun j ne => (others j ne).2.2, fun j => ?_, compared⟩
  by_cases h : j = d
  · subst h
    exact ⟨state, tag⟩
  · obtain ⟨state, tag, -⟩ := others j h
    exact ⟨state, tag⟩

/-- The ALL notices that a display held are those that wait at it once its link is lost (R106). -/
theorem displayLost_kept (d : DisplayIx) (i : NoticeIx) (s : State) :
    i ∈ s.arb.recs[d].pending.filter (isAll s) ++ allOnStack s d ↔
      standsAt s i d ∧ ∃ n, s.arb.slots[i].notice = some n ∧ n.mode = .all := by
  rw [List.mem_append, allOnStack, List.mem_filter, List.mem_filter, isAll_iff, standsAt, or_and_right]

/-- Settles O49, by what a report writes of its display, and what the evaluations and placements after it
keep; the comparisons end every event. -/
theorem reportsMoveTheArbitration : Obligations.ReportsMoveTheArbitration := by
  intro s d rest stay compared follows onElse left modeAll
  refine ⟨?enabled, ?linkUp, ?linkLost, ?draining, ?off, ?floor, ?cover⟩
  case enabled =>
    intro tag taken
    exact ⟨_, exec_enabledReport taken, enabled_effect taken⟩
  case linkUp =>
    intro taken
    exact ⟨_, exec_linkUpReport taken, linkUp_follows taken, fun live => linkUp_effect live rfl⟩
  case linkLost =>
    intro taken
    obtain ⟨kept, hk⟩ : ∃ kept, kept = s.arb.recs[d].pending.filter (isAll s) ++ allOnStack s d := ⟨_, rfl⟩
    have runs : exec .linkLostReport s =
        .next (noticeEvent none (leaveDisplay .linkLost kept d) (popReport s)) := by
      rw [exec_linkLostReport taken, hk]
      rfl
    obtain ⟨follow, stack, cover, -, live⟩ := displayLeft (st := .linkLost) (by decide) kept taken
    refine ⟨_, runs, ⟨follow, stack, cover, fun none' => (live none').1⟩, fun none' i => ?_⟩
    rw [(live none').2, hk]
    exact displayLost_kept d i s
  case draining =>
    intro taken
    obtain ⟨follow, stack, cover, pending, live⟩ := displayLeft (st := .draining) (by decide) [] taken
    exact ⟨_, exec_drainingReport taken, ⟨follow, stack, cover, fun none' => (live none').1⟩,
      List.eq_nil_iff_forall_not_mem.mpr fun i there => absurd (pending i there) (by simp)⟩
  case off =>
    intro taken
    obtain ⟨follow, stack, cover, pending, live⟩ := displayLeft (st := .off) (by decide) [] taken
    exact ⟨_, exec_offReport taken, ⟨follow, stack, cover, fun none' => (live none').1⟩,
      List.eq_nil_iff_forall_not_mem.mpr fun i there => absurd (pending i there) (by simp)⟩
  case floor =>
    intro value taken
    exact ⟨_, exec_floorReport taken, floor_effect taken rfl⟩
  case cover =>
    intro due on
    exact ⟨_, exec_coverTimerExpiry due, coverTaken_compared d s,
      fun i n candidate pass live used cover => coverTimer_pushes on candidate pass live used cover rfl,
      fun none' => coverTimer_still none' rfl⟩

end

end Sys2Proof.Machine

namespace Sys2Proof.Machine

section
variable {s t u : State}

/-! ## The sizes of mirror records -/

@[simp] theorem leBytes_length (w n : Nat) : (leBytes w n).length = w := by
  induction w generalizing n with
  | zero => rfl
  | succ w ih => simp [leBytes, ih]

@[simp] theorem padTo_length (n : Nat) (bs : List Byte) : (padTo n bs).length = n := by
  simp [padTo]

theorem displayMirror_length (s : State) (d : DisplayIx) : (displayMirror s d).length = 30 := by
  unfold displayMirror
  simp only [List.length_append, leBytes_length]

/-- A record's bytes fill its place but for the two of its version (R182). -/
theorem mirrorBody_length (s : State) (id : MirrorId) : (mirrorBody s id).length + 2 = id.size := by
  cases id with
  | showRec i => simp [mirrorBody, MirrorId.size]
  | hold i =>
    simp only [mirrorBody, MirrorId.size, holdMirror]
    split <;> simp
  | feature i => simp [mirrorBody, MirrorId.size, featureMirror]
  | display i => exact congrArg (· + 2) (displayMirror_length s i)
  | notice i =>
    simp only [mirrorBody, MirrorId.size, noticeMirror]
    split <;> simp
  | fault sev => cases sev <;> simp [mirrorBody, MirrorId.size, faultMirror]

/-! ## A record and a word placed -/

/-- A record handed while window_valid is set places one write, its bytes and its version last (R167). -/
theorem handMirror_places (id : MirrorId) (valid : s.win.windowValid = true) :
    ∃ q, handMirror id s = { s with
        win := { s.win with writeQ := q, versions := put s.win.versions id.index (nextVersion id s) } } ∧
      PlacedIn
        ⟨.mirror id,
          [(s.win.windowBase.toNat + s.win.geometry.mirrorOffset + id.offset, mirrorBody s id),
            (s.win.windowBase.toNat + s.win.geometry.mirrorOffset + id.offset + id.size - 2,
              leBytes 2 (nextVersion id s))], false⟩ s.win.writeQ q :=
  ⟨_, if_pos valid, placeIn_placed _ _⟩

theorem handMirror_invalid (id : MirrorId) (invalid : s.win.windowValid = false) : handMirror id s = s :=
  if_neg (by simp [invalid])

theorem nextVersion_eq (id : MirrorId) (s : State) :
    nextVersion id s =
      if s.win.writeQ.any (·.target == .mirror id) = true then s.win.versions[id.index]
      else (s.win.versions[id.index] + 1) % 65536 := rfl

theorem placeAnchor_placedIn (a : AnchorWord) (valid : s.win.windowValid = true) :
    PlacedIn ⟨.anchor a, [(s.win.windowBase.toNat + a.offset, anchorBytes s a)], false⟩ s.win.writeQ
      (placeAnchor a s).win.writeQ := by
  have eq : (placeAnchor a s).win.writeQ =
      placeIn ⟨.anchor a, [(windowBase s + a.offset, anchorBytes s a)], false⟩ s.win.writeQ := by
    simp [placeAnchor, placeWrite_only, valid]
  rw [eq]
  exact placeIn_placed _ _

/-- A change of run state places the run echo (R161). -/
theorem setRunState_echo {r : RunState} (changed : s.win.runState ≠ r) (c : StallCause)
    (valid : s.win.windowValid = true) :
    PlacedIn ⟨.anchor .runEcho, [(s.win.windowBase.toNat + 77, leBytes 1 r.code)], false⟩ s.win.writeQ
      (setRunState r c s).win.writeQ := by
  rw [setRunState, if_neg changed]
  have placed := placeAnchor_placedIn (s := { s with win := { s.win with
    runState := r, stallCause := c, stopping := false,
    pollTimer := if r = .running then some s.win.cfg.window.pollInterval else none } }) .runEcho valid
  exact placed

theorem WordPlaced.afterRunState {a : AnchorWord} {offset : Nat} {bytes : List Byte}
    (h : WordPlaced a offset bytes s) (other : a ≠ .runEcho) (r : RunState) (c : StallCause) :
    WordPlaced a offset bytes (setRunState r c s) := by
  unfold setRunState
  split
  · exact h
  · have moved : WordPlaced a offset bytes { s with win := { s.win with
        runState := r, stallCause := c, stopping := false,
        pollTimer := if r = .running then some s.win.cfg.window.pollInterval else none } } := h
    exact moved.behind other

theorem WordPlaced.afterReadNext {a : AnchorWord} {offset : Nat} {bytes : List Byte}
    (h : WordPlaced a offset bytes s) : WordPlaced a offset bytes (readNext s) := by
  unfold WordPlaced at *
  rw [readNext_win]
  exact h

/-! ## A write sent -/

/-- The head of the write queue sent to host memory (R166). -/
def headSent (w : WindowWrite) (rest : List WindowWrite) (s : State) : State :=
  { s with win := { s.win with writeQ := rest }, hostMem := s.hostMem.writeParts w.parts }

/-- What else a write sent does, by its target. -/
def afterSent (w : WindowWrite) (s : State) : State :=
  match w.target with
  | .mirror _ => mirrorSent s
  | .anchor _ => s
  | .outcome => outcomeSent s

theorem exec_windowWriteSent {w : WindowWrite} {rest : List WindowWrite} (h : s.win.writeQ = w :: rest) :
    exec .windowWriteSent s = .next (afterSent w (headSent w rest s)) := by
  simp only [exec, execWindowWriteSent, h]
  rfl

theorem outcomeSent_hostMem (s : State) : (outcomeSent s).hostMem = s.hostMem := by simp

theorem afterSent_hostMem (w : WindowWrite) (s : State) : (afterSent w s).hostMem = s.hostMem := by
  unfold afterSent
  split
  · simp [mirrorSent]
  · rfl
  · exact outcomeSent_hostMem s

theorem writeParts_single (m : Memory) (p : Nat × List Byte) {k : Nat} (h : k < p.2.length) :
    (m.writeParts [p]).read (p.1 + k) = p.2[k]? := by
  rw [List.getElem?_eq_getElem h]
  exact Memory.read_writeBytes_inside p.2 m p.1 k h

/-- A mirror record sent, the word of the mirror generation not yet placed. -/
def mirrorCounted (s : State) : State :=
  { s with win := { s.win with
      mirrorGen := wrap32 (s.win.mirrorGen + 1), causes := { s.win.causes with mirror := true } } }

/-- A mirror record sent raises the mirror generation, sets MIRROR and places the word (R167, R168). -/
theorem mirrorSent_effect (s : State) :
    (mirrorSent s).win.mirrorGen = (s.win.mirrorGen + 1) % 4294967296 ∧
      (mirrorSent s).win.causes = { s.win.causes with mirror := true } ∧
      (mirrorSent s).win.flight = s.win.flight ∧ (mirrorSent s).win.takeMark = s.win.takeMark ∧
      (s.win.windowValid = false → (mirrorSent s).win.writeQ = s.win.writeQ) ∧
      (s.win.windowValid = true →
        PlacedIn ⟨.anchor .mirrorGen,
          [(s.win.windowBase.toNat + 80, leBytes 4 (mirrorSent s).win.mirrorGen)], false⟩ s.win.writeQ
          (mirrorSent s).win.writeQ) := by
  have gen : (mirrorSent s).win.mirrorGen = (s.win.mirrorGen + 1) % 4294967296 := by
    simp [mirrorSent, placeAnchor, wrap32]
  refine ⟨gen, by simp [mirrorSent, placeAnchor], by simp [mirrorSent, placeAnchor],
    by simp [mirrorSent, placeAnchor], fun invalid => ?_, fun valid => ?_⟩
  · exact congrArg (·.win.writeQ) (placeAnchor_invalid (s := mirrorCounted s) .mirrorGen invalid)
  · rw [gen]
    have placed := placeAnchor_placedIn (s := mirrorCounted s) .mirrorGen valid
    exact placed

/-- The Window Interface when an outcome has been sent, before the run state follows (R164). -/
def outcomeWindow (w : WindowIf) : WindowIf :=
  { w with
    takeMark := wrap32 (w.takeMark + 1), flight := none, heldOutcome := none, rewriting := false }

/-- An outcome sent: the take mark advanced and placed, DRAINED where it reaches the publish mark. -/
def outcomeTaken (s : State) : State :=
  let s := placeAnchor .takeMark { s with win := outcomeWindow s.win }
  if s.win.takeMark = s.win.publishMark then
    { s with win := { s.win with causes := { s.win.causes with drained := true } } }
  else s

/-- What an outcome sent writes before the run state follows. -/
structure OutcomeTaken (s v : State) : Prop where
  takeMark : v.win.takeMark = (s.win.takeMark + 1) % 4294967296
  publishMark : v.win.publishMark = s.win.publishMark
  flight : v.win.flight = none
  held : v.win.heldOutcome = none
  rewriting : v.win.rewriting = false
  causes : v.win.causes = { s.win.causes with
    drained := s.win.causes.drained || decide (v.win.takeMark = s.win.publishMark) }
  run : v.win.runState = s.win.runState ∧ v.win.stallCause = s.win.stallCause ∧
    v.win.runBit = s.win.runBit ∧ v.win.starting = s.win.starting ∧ v.win.stopping = s.win.stopping
  place : v.win.windowBase = s.win.windowBase ∧ v.win.geometry = s.win.geometry ∧
    v.win.session = s.win.session
  word : s.win.windowValid = true → WordPlaced .takeMark 64 (leBytes 4 v.win.takeMark) v
  reads : v.reads = s.reads

theorem outcomeTaken_effect (s : State) : OutcomeTaken s (outcomeTaken s) := by
  obtain ⟨v, hv⟩ : ∃ v, v = placeAnchor .takeMark { s with win := outcomeWindow s.win } := ⟨_, rfl⟩
  have eq : outcomeTaken s = if v.win.takeMark = v.win.publishMark then
      { v with win := { v.win with causes := { v.win.causes with drained := true } } } else v := by
    rw [hv]
    rfl
  have mark : v.win.takeMark = (s.win.takeMark + 1) % 4294967296 := by
    rw [hv]
    simp [placeAnchor, outcomeWindow, wrap32]
  have published : v.win.publishMark = s.win.publishMark := by
    rw [hv]
    simp [placeAnchor, outcomeWindow]
  have causes : v.win.causes = s.win.causes := by
    rw [hv]
    simp [placeAnchor, outcomeWindow]
  have word (valid : s.win.windowValid = true) : WordPlaced .takeMark 64 (leBytes 4 v.win.takeMark) v := by
    have placed := placeAnchor_placed .takeMark (s := { s with win := outcomeWindow s.win }) valid
    rw [← hv] at placed
    rw [mark]
    exact placed
  rw [eq, published]
  by_cases drained : v.win.takeMark = s.win.publishMark
  · rw [if_pos drained]
    refine ⟨mark, published, ?_, ?_, ?_, ?_, ?_, ?_, word, ?_⟩
    case refine_4 =>
      dsimp only
      rw [causes, decide_eq_true drained, Bool.or_true]
    all_goals rw [hv]; simp [placeAnchor, outcomeWindow]
  · rw [if_neg drained]
    refine ⟨mark, published, ?_, ?_, ?_, ?_, ?_, ?_, word, ?_⟩
    case refine_4 => rw [causes, decide_eq_false drained, Bool.or_false]
    all_goals rw [hv]; simp [placeAnchor, outcomeWindow]

/-- How the run state follows an outcome sent (R161, R164, R165). -/
def followOutcome (refused rewritten : Bool) (s : State) : State :=
  if refused ∧ s.win.runState ≠ .stopped then
    setRunState .stopped .none { s with win := { s.win with runBit := false } }
  else if s.win.stopping then setRunState .stopped .none s
  else if rewritten ∧ s.win.runState = .stalled then readNext (setRunState .running .none s)
  else readNext s

theorem outcomeSent_eq {f : Flight} (h : s.win.flight = some f) :
    outcomeSent s = followOutcome (stopOnRefusal f.bytes && f.outcome.any (·.code.isRefusal))
      s.win.rewriting (outcomeTaken s) := by
  unfold outcomeSent
  rw [h]
  rfl

/-- Whatever the run state, what the outcome sent has written stays. -/
theorem followOutcome_keeps (refused rewritten : Bool) (v : State) :
    (followOutcome refused rewritten v).win.takeMark = v.win.takeMark ∧
      (followOutcome refused rewritten v).win.heldOutcome = v.win.heldOutcome ∧
      (followOutcome refused rewritten v).win.rewriting = v.win.rewriting ∧
      (followOutcome refused rewritten v).win.causes = v.win.causes ∧
      ∀ bytes, WordPlaced .takeMark 64 bytes v →
        WordPlaced .takeMark 64 bytes (followOutcome refused rewritten v) := by
  unfold followOutcome
  split
  · refine ⟨by simp, by simp, by simp, by simp, fun bytes h => ?_⟩
    have cleared : WordPlaced .takeMark 64 bytes { v with win := { v.win with runBit := false } } := h
    exact cleared.afterRunState (by decide) _ _
  · split
    · exact ⟨by simp, by simp, by simp, by simp, fun bytes h => h.afterRunState (by decide) _ _⟩
    · split
      · exact ⟨by simp, by simp, by simp, by simp, fun bytes h =>
          (h.afterRunState (by decide) _ _).afterReadNext⟩
      · exact ⟨by simp, by simp, by simp, by simp, fun bytes h => h.afterReadNext⟩

theorem readNext_idle (idle : s.win.runState ≠ .running) : readNext s = s :=
  if_neg fun h => idle h.1

/-- The next entry is read by a part that is RUNNING with no entry in flight (R164). -/
theorem readNext_reads (running : s.win.runState = .running) (stopping : s.win.stopping = false)
    (flight : s.win.flight = none) :
    (readNext s).win.flight =
        (if s.win.takeMark = s.win.publishMark then none
         else some { slot := s.win.takeMark % s.win.geometry.capacity }) ∧
      (s.win.takeMark ≠ s.win.publishMark →
        Outstanding ⟨.entry s.win.session,
          s.win.windowBase.toNat + s.win.geometry.journalOffset +
            64 * (s.win.takeMark % s.win.geometry.capacity), 64, false⟩ (readNext s)) := by
  refine ⟨?_, readNext_outstanding running stopping flight⟩
  rw [readNext_win]
  unfold nextFlight
  by_cases same : s.win.takeMark = s.win.publishMark
  · rw [if_pos same, if_neg fun h => h.2.2.2 same]
    exact flight
  · rw [if_neg same, if_pos ⟨running, stopping, flight, same⟩]

end

end Sys2Proof.Machine

namespace Sys2Proof.Machine

section
variable {s t u : State}

/-! ## How the run state follows an outcome sent -/

/-- A refusal with STOP_ON_REFUSAL stops the part unless it is STOPPED (R164). -/
theorem followOutcome_refused (rewritten : Bool) {v : State} (run : v.win.runState ≠ .stopped)
    (flight : v.win.flight = none) :
    let t := followOutcome true rewritten v
    t.win.runState = .stopped ∧ t.win.stallCause = .none ∧ t.win.runBit = false ∧ t.win.flight = none := by
  intro t
  have eq : t = setRunState .stopped .none { v with win := { v.win with runBit := false } } :=
    if_pos ⟨rfl, run⟩
  rw [eq]
  exact ⟨by simp, by simp, by simp, by simpa using flight⟩

/-- A stop that waits stops the part (R161). -/
theorem followOutcome_stopping {refused : Bool} (rewritten : Bool) {v : State} (taken : refused = false)
    (stopping : v.win.stopping = true) (flight : v.win.flight = none) :
    (followOutcome refused rewritten v).win.runState = .stopped ∧
      (followOutcome refused rewritten v).win.flight = none := by
  have eq : followOutcome refused rewritten v = setRunState .stopped .none v := by
    unfold followOutcome
    rw [if_neg (by simp [taken]), if_pos stopping]
  rw [eq]
  exact ⟨by simp, by simpa using flight⟩

/-- A part that is STOPPED, or STALLED with no outcome written again, stays as it is. -/
theorem followOutcome_stays {refused rewritten : Bool} {v : State}
    (taken : refused = false ∨ v.win.runState = .stopped) (stopping : v.win.stopping = false)
    (stalled : rewritten = false ∨ v.win.runState ≠ .stalled) (idle : v.win.runState ≠ .running) :
    followOutcome refused rewritten v = v := by
  unfold followOutcome
  rw [if_neg fun h => taken.elim (fun no => by simp [no] at h) h.2, if_neg (by simp [stopping]),
    if_neg fun h => stalled.elim (fun no => by simp [no] at h) fun no => no h.2, readNext_idle idle]

/-- A part that is RUNNING, or STALLED where a recovery has written the outcome again, is RUNNING and reads
the next entry (R164, R165). -/
theorem followOutcome_runs {refused rewritten : Bool} {v : State} (taken : refused = false)
    (stopping : v.win.stopping = false) (flight : v.win.flight = none)
    (runs : v.win.runState = .running ∧ rewritten = false ∨
      v.win.runState = .stalled ∧ rewritten = true) :
    let t := followOutcome refused rewritten v
    t.win.runState = .running ∧ (v.win.runState = .stalled → t.win.stallCause = .none) ∧
      t.win.flight =
        (if v.win.takeMark = v.win.publishMark then none
         else some { slot := v.win.takeMark % v.win.geometry.capacity }) ∧
      (v.win.takeMark ≠ v.win.publishMark →
        Outstanding ⟨.entry v.win.session,
          v.win.windowBase.toNat + v.win.geometry.journalOffset +
            64 * (v.win.takeMark % v.win.geometry.capacity), 64, false⟩ t) := by
  intro t
  rcases runs with ⟨running, no⟩ | ⟨stalled, yes⟩
  · have eq : t = readNext v := by
      change followOutcome refused rewritten v = _
      unfold followOutcome
      rw [if_neg (by simp [taken]), if_neg (by simp [stopping]), if_neg (by simp [no])]
    obtain ⟨next, read⟩ := readNext_reads running stopping flight
    rw [eq]
    exact ⟨by simpa using running, fun stalled => by rw [running] at stalled; exact absurd stalled (by decide),
      next, read⟩
  · have eq : t = readNext (setRunState .running .none v) := by
      change followOutcome refused rewritten v = _
      unfold followOutcome
      rw [if_neg (by simp [taken]), if_neg (by simp [stopping]), if_pos ⟨yes, stalled⟩]
    have moved : (setRunState .running .none v).win.stopping = false := by
      rw [setRunState_stopping, if_neg (by rw [stalled]; decide)]
    obtain ⟨next, read⟩ := readNext_reads (s := setRunState .running .none v) (by simp) moved
      (by simpa using flight)
    simp only [setRunState_win] at next read
    rw [eq]
    exact ⟨by simp, fun _ => by simp, next, read⟩

/-! ## A write sent, by its target -/

/-- What an outcome sent does (R164, R165, R168). -/
theorem outcomeSent_effect {f : Flight} (flight : s.win.flight = some f) :
    let refused := stopOnRefusal f.bytes && f.outcome.any (·.code.isRefusal)
    let t := outcomeSent s
    t.win.takeMark = (s.win.takeMark + 1) % 4294967296 ∧ t.win.heldOutcome = none ∧
      t.win.rewriting = false ∧
      (s.win.windowValid = true → WordPlaced .takeMark 64 (leBytes 4 t.win.takeMark) t) ∧
      t.win.causes = { s.win.causes with
        drained := s.win.causes.drained || decide (t.win.takeMark = s.win.publishMark) } ∧
      (s.win.runState = .stopped → s.win.stopping = false →
        t.win.runState = .stopped ∧ t.win.runBit = s.win.runBit ∧
          t.win.starting = s.win.starting ∧ t.win.flight = none ∧ t.reads = s.reads) ∧
      (refused = true → s.win.runState ≠ .stopped →
        t.win.runState = .stopped ∧ t.win.stallCause = .none ∧ t.win.runBit = false ∧
          t.win.flight = none) ∧
      (refused = false → s.win.runState = .stalled → s.win.rewriting = false →
        s.win.stopping = false →
        t.win.runState = .stalled ∧ t.win.stallCause = s.win.stallCause ∧
          t.win.runBit = s.win.runBit ∧ t.win.flight = none ∧ t.reads = s.reads) ∧
      (refused = false → s.win.runState = .running → s.win.stopping = true →
        t.win.runState = .stopped ∧ t.win.flight = none) ∧
      (refused = false → s.win.stopping = false →
        s.win.runState = .running ∧ s.win.rewriting = false ∨
          s.win.runState = .stalled ∧ s.win.rewriting = true →
        t.win.runState = .running ∧
          (s.win.runState = .stalled → t.win.stallCause = .none) ∧
          t.win.flight =
            (if t.win.takeMark = s.win.publishMark then none
             else some { slot := t.win.takeMark % s.win.geometry.capacity }) ∧
          (t.win.takeMark ≠ s.win.publishMark →
            Outstanding ⟨.entry s.win.session,
              s.win.windowBase.toNat + s.win.geometry.journalOffset +
                64 * (t.win.takeMark % s.win.geometry.capacity), 64, false⟩ t)) := by
  intro refused t
  obtain ⟨v, hv⟩ : ∃ v, v = outcomeTaken s := ⟨_, rfl⟩
  have eq : t = followOutcome refused s.win.rewriting v := by
    rw [hv]
    exact outcomeSent_eq flight
  obtain ⟨mark, published, none', held, rewriting, causes, run, place, word, reads⟩ :
    OutcomeTaken s v := hv ▸ outcomeTaken_effect s
  obtain ⟨runState, cause, bit, starting, stopping⟩ := run
  obtain ⟨base, geometry, session⟩ := place
  obtain ⟨mark', held', rewriting', causes', word'⟩ := followOutcome_keeps refused s.win.rewriting v
  rw [eq]
  rw [mark', held', rewriting', causes']
  refine ⟨mark, held, rewriting, fun valid => word' _ (word valid), causes, fun stopped goes => ?_,
    fun isRefused run => ?_, fun taken stalled once goes => ?_, fun taken running stop => ?_,
    fun taken goes runs => ?_⟩
  · rw [followOutcome_stays (v := v) (.inr (by rw [runState, stopped])) (by rw [stopping, goes])
      (.inr (by rw [runState, stopped]; decide)) (by rw [runState, stopped]; decide)]
    exact ⟨by rw [runState, stopped], bit, starting, none', reads⟩
  · rw [isRefused]
    exact followOutcome_refused _ (by rw [runState]; exact run) none'
  · rw [followOutcome_stays (v := v) (.inl taken) (by rw [stopping, goes]) (.inl once)
      (by rw [runState, stalled]; decide)]
    exact ⟨by rw [runState, stalled], cause, bit, none', reads⟩
  · exact followOutcome_stopping _ taken (by rw [stopping, stop]) none'
  · rw [← runState] at runs
    have effect := followOutcome_runs taken (by rw [stopping, goes]) none' runs
    rw [runState, published, geometry, base, session] at effect
    exact effect

end

end Sys2Proof.Machine

namespace Sys2Proof.Machine

section
variable {s t u : State} {D : MirrorId → Prop}

/-! ## What a step owes the mirror writer -/

/-- Nothing is owed. -/
def noneOwed : MirrorId → Prop := fun _ => False

/-- The record of show `i` is owed. -/
def showOwed (i : ShowIx) : MirrorId → Prop := fun j => j = .showRec i

/-- Records of shows are owed. -/
def showsOwed : MirrorId → Prop := fun j => ∃ i, j = .showRec i

/-- What one handing owed no longer owes. -/
theorem Mirrored.handOne {id : MirrorId} (h : Mirrored (fun j => j = id) s t) :
    Mirrored noneOwed s (handMirror id t) :=
  h.hand id (fun _ => .inl) fun _ => False.elim

/-! ## The messages of the Show Table -/

theorem sendClock_mirrored (r : ClockRequest) (s : State) : Mirrored D s (sendClock r s) :=
  .blocks rfl rfl rfl rfl rfl rfl rfl

theorem sendArbiter_mirrored (m : ShowMsg) (s : State) : Mirrored D s (sendArbiter m s) :=
  .blocks rfl rfl rfl rfl rfl rfl rfl

theorem schedule_mirrored (i : ShowIx) (st : ShowState) (s : State) : Mirrored D s (schedule i st s) := by
  unfold schedule
  split
  · exact sendClock_mirrored _ s
  · exact .refl D s

theorem reportShow_mirrored (i : ShowIx) (fields : List ReportField) (s : State) :
    Mirrored D s (reportShow i fields s) := by
  unfold reportShow
  split
  · exact .refl D s
  · exact .blocks rfl rfl rfl rfl rfl rfl rfl

/-- An event that owes the record of show `i` hands it at its end (R1). -/
theorem Mirrored.commitOne {i : ShowIx} {before : ShowRec} (h : Mirrored (showOwed i) s t)
    (fields : ShowRec → ShowRec → List ReportField) (found : s.shows.recs[i] = before) :
    Mirrored noneOwed s (commitShowAs fields i before t) :=
  h.commit fields i before found (fun _ => .inl) fun _ => False.elim

theorem finishShow_mirrored (i : ShowIx) (s : State) : Mirrored D s (finishShow i s) :=
  finish_mirrored _ _ s

/-- A show record replaced is owed. -/
theorem setShow_owes (i : ShowIx) (sh : ShowRec) (s : State) : Mirrored (showOwed i) s (setShow i sh s) :=
  setShow_mirrored i sh s rfl

/-! ## The six schedule entries -/

theorem loadShow_mirrored (b : ShowBody) (i : ShowIx) (s : State) :
    Mirrored noneOwed s (loadShow b i s) := by
  have set := setShow_owes i
  unfold loadShow
  dsimp only
  have filled : Mirrored (showOwed i) s (match s.clock.lobby with
      | some now => schedule i (placedState (amended (fun _ => true) b {}) now)
          (setShow i { amended (fun _ => true) b {} with
            state := placedState (amended (fun _ => true) b {}) now } s)
      | none => setShow i { amended (fun _ => true) b {} with state := .waiting, clockWait := true } s) := by
    split
    · exact (set _ s).trans (schedule_mirrored i _ _)
    · exact set _ s
  exact (((filled.trans (set _ _)).handOne).trans (reportShow_mirrored i _ _)).trans
    (finishShow_mirrored i _)

theorem showLoad_mirrored (b : ShowBody) (s : State) : Mirrored noneOwed s (showLoad b s) := by
  unfold showLoad
  split
  · exact finishOpen_mirrored _ s
  · split
    · exact finishOpen_mirrored _ s
    · split
      · exact finish_mirrored _ _ s
      · split
        · exact finishOpen_mirrored _ s
        · exact loadShow_mirrored b _ s

theorem withShow_mirrored (f : Flight) {act : ShowIx → State → State} (s : State)
    (h : ∀ i, Mirrored noneOwed s (act i s)) : Mirrored noneOwed s (withShow f act s) := by
  unfold withShow
  split
  · exact finishOpen_mirrored _ s
  · exact h _

theorem haltShow_mirrored (i : ShowIx) (s : State) : Mirrored noneOwed s (haltShow i s) := by
  have halted (sh : ShowRec) : Mirrored noneOwed s
      (finishShow i (commitShow i s.shows.recs[i] (setShow i sh s))) :=
    ((setShow_owes i sh s).commitOne _ rfl).trans
      (finishShow_mirrored i _)
  unfold haltShow
  dsimp only
  split
  · exact halted _
  · exact halted _
  · exact halted _
  · exact finishOpen_mirrored _ s
  all_goals exact finish_mirrored _ _ s

theorem resumeShow_mirrored (i : ShowIx) (s : State) : Mirrored noneOwed s (resumeShow i s) := by
  unfold resumeShow
  dsimp only
  split
  · exact ((setShow_owes i _ s).commitOne _ rfl).trans
      (finishShow_mirrored i _)
  all_goals exact finishOpen_mirrored _ s

/-- A closing owes the record of its show alone (R17). -/
theorem closeShow_owes (i : ShowIx) (prev : Band) (r : NoticeEnd) (s : State) :
    Mirrored (showOwed i) s (closeShow i prev r s) :=
  closeShow_mirrored i prev r s (fun k => by simp [showOwed]) rfl

theorem cancelShow_mirrored (i : ShowIx) (s : State) : Mirrored noneOwed s (cancelShow i s) := by
  have cancelled : Mirrored noneOwed s (finishShow i (commitShow i s.shows.recs[i]
      (if s.shows.recs[i].flags.autoCancel then
        requestAuto .cancelled i 1800 (closeShow i s.shows.recs[i].band .showClosed (sendClock (.withdraw i)
          (setShow i { s.shows.recs[i] with state := .cancelled, savedState := none, clockWait := false } s)))
      else closeShow i s.shows.recs[i].band .showClosed (sendClock (.withdraw i)
          (setShow i { s.shows.recs[i] with state := .cancelled, savedState := none, clockWait := false }
            s))))) := by
    have closed := ((setShow_owes i { s.shows.recs[i] with
      state := .cancelled, savedState := none, clockWait := false } s).trans
        (sendClock_mirrored (.withdraw i) _)).trans (closeShow_owes i s.shows.recs[i].band .showClosed _)
    refine (Mirrored.commitOne ?_ _ rfl).trans (finishShow_mirrored i _)
    split
    · exact closed.trans (sendArbiter_mirrored _ _)
    · exact closed
  unfold cancelShow
  dsimp only
  split
  case h_6 => exact finishOpen_mirrored _ s
  case h_7 => exact finishOpen_mirrored _ s
  case h_8 => exact finishOpen_mirrored _ s
  all_goals exact cancelled

theorem dropShow_mirrored (i : ShowIx) (s : State) : Mirrored noneOwed s (dropShow i s) := by
  unfold dropShow
  dsimp only
  have closed : Mirrored (showOwed i) s (if s.shows.recs[i].state.isLive then
      sendClock (.withdraw i) (closeShow i s.shows.recs[i].band .showDropped s) else s) := by
    split
    · exact (closeShow_owes i _ _ s).trans (sendClock_mirrored _ _)
    · exact .refl _ s
  exact ((closed.trans (setShow_owes i {} _)).commitOne _ rfl).trans (finishShow_mirrored i _)

theorem amendTimes_mirrored (i : ShowIx) (prev : Band) (now : Nat) (s : State) :
    Mirrored (showOwed i) s (amendTimes i prev now s) := by
  unfold amendTimes
  dsimp only
  split
  · exact ((setShow_owes i _ s).trans (sendClock_mirrored _ _)).trans (closeShow_owes i _ _ _)
  · exact (setShow_owes i _ s).trans (schedule_mirrored i _ _)

theorem applyAmend_mirrored (m : Nat → Bool) (b : ShowBody) (capture : List Byte) (i : ShowIx) (s : State) :
    Mirrored noneOwed s (applyAmend m b capture i s) := by
  unfold applyAmend
  dsimp only
  refine (Mirrored.commitOne ?_ _ rfl).trans (finishShow_mirrored i _)
  have written : Mirrored (showOwed i) s (setShow i (amended m b s.shows.recs[i]) s) :=
    setShow_mirrored i _ s rfl
  have placed (v : State) (h : Mirrored (showOwed i) s v) : Mirrored (showOwed i) s
      (match v.clock.lobby with
      | some now => if m 5 || m 6 || m 7 || m 8 then amendTimes i s.shows.recs[i].band now v else v
      | none => v) := by
    split
    · split
      · exact h.trans (amendTimes_mirrored i _ _ v)
      · exact h
    · exact h
  have told (v : State) (p : Bool) (h : Mirrored (showOwed i) s v) : Mirrored (showOwed i) s
      (if p = true then requestAuto .delayed i 600 v else v) := by
    split
    · exact h.trans (sendArbiter_mirrored _ v)
    · exact h
  have counted (v : State) (p : Bool) (h : Mirrored (showOwed i) s v) : Mirrored (showOwed i) s
      (if p = true then recompute i s.shows.recs[i] capture v else v) := by
    split
    · exact h.trans (recompute_mirrored i _ _ v rfl)
    · exact h
  exact counted _ _ (told _ _ (placed _ written))

theorem showAmend_mirrored (b : ShowBody) (capture : List Byte) (s : State) :
    Mirrored noneOwed s (showAmend b capture s) := by
  unfold showAmend
  dsimp only
  split
  · exact finishOpen_mirrored _ s
  · split
    · exact finishOpen_mirrored _ s
    · exact finishOpen_mirrored _ s
    · exact finishOpen_mirrored _ s
    · split
      · exact finish_mirrored _ _ s
      · split
        · exact finishOpen_mirrored _ s
        · exact applyAmend_mirrored _ b capture _ s

end

end Sys2Proof.Machine

namespace Sys2Proof.Machine

section
variable {s t u : State} {D : MirrorId → Prop}

/-! ## The three tally entries -/

theorem finishAvail_mirrored (code : OutcomeCode) (i : ShowIx) (s : State) :
    Mirrored D s (finishAvail code i s) := finish_mirrored _ _ s

theorem endTally_mirrored (code : OutcomeCode) {i : ShowIx} {before : ShowRec} (capture : List Byte)
    (h : Mirrored (showOwed i) s t) (found : s.shows.recs[i] = before) :
    Mirrored noneOwed s (endTally code i before capture t) :=
  ((h.trans (recompute_mirrored i before capture t rfl)).commitOne _ found).trans
    (finishAvail_mirrored _ i _)

theorem applySale_mirrored (b : SaleBody) (capture : List Byte) (i : ShowIx) (s : State) :
    Mirrored noneOwed s (applySale b capture i s) := by
  unfold applySale
  dsimp only
  split
  · exact endTally_mirrored _ capture (setShow_owes i _ s) rfl
  · split
    · exact endTally_mirrored _ capture (setShow_owes i _ s) rfl
    · rename_i k h live
      split
      · rename_i same
        have freed : Mirrored (showOwed i) s (handMirror (.hold k) (freeHold k s)) :=
          freeHold_handed k s (by simp [showOwed]) fun h' held => by
            rw [liveHold_holdAt live] at held
            cases held
            rw [same]
            rfl
        exact endTally_mirrored _ capture (freed.trans (setShow_owes i _ _)) rfl
      · exact endTally_mirrored _ capture (setShow_owes i _ s) rfl

theorem takeSale_mirrored (b : SaleBody) (capture : List Byte) (s : State) :
    Mirrored noneOwed s (takeSale b capture s) := by
  unfold takeSale
  split
  · exact finish_mirrored _ _ s
  · split
    · exact finish_mirrored _ _ s
    · exact finishAvail_mirrored _ _ s
    · split
      · exact finish_mirrored _ _ s
      · split
        · exact finish_mirrored _ _ s
        · exact applySale_mirrored b capture _ s

theorem takeRefund_mirrored (n seats : Nat) (capture : List Byte) (s : State) :
    Mirrored noneOwed s (takeRefund n seats capture s) := by
  unfold takeRefund
  dsimp only
  split
  · exact finish_mirrored _ _ s
  · split
    · exact finish_mirrored _ _ s
    · split
      · exact finish_mirrored _ _ s
      · exact endTally_mirrored _ capture (setShow_owes _ _ s) rfl

theorem takeBlock_mirrored (n : Nat) (delta : Int) (capture : List Byte) (s : State) :
    Mirrored noneOwed s (takeBlock n delta capture s) := by
  unfold takeBlock
  dsimp only
  split
  · exact finish_mirrored _ _ s
  · split
    · exact finish_mirrored _ _ s
    · exact finishAvail_mirrored _ _ s
    · split
      · exact finishAvail_mirrored _ _ s
      · exact endTally_mirrored _ capture (setShow_owes _ _ s) rfl

/-! ## Holds -/

/-- A hold and its show are owed. -/
def holdOwed (k : HoldIx) (i : ShowIx) : MirrorId → Prop := fun j => j = .hold k ∨ j = .showRec i

/-- The end of an event of a hold hands its record and its show's (R45, R48, R49). -/
theorem holdCounted_mirrored {i : ShowIx} {before : ShowRec} {k : HoldIx}
    (h : Mirrored (holdOwed k i) s t) (found : s.shows.recs[i] = before) :
    Mirrored noneOwed s (holdCounted i before k t) := by
  have counted := h.trans (recompute_mirrored i before noCapture t (.inr rfl))
  have handed : Mirrored (showOwed i) s (handMirror (.hold k) (recompute i before noCapture t)) :=
    counted.hand _ (fun _ => id) fun j hj => ⟨.inr hj, by rw [hj]; simp⟩
  exact handed.commitOne _ found

theorem holdEntered_mirrored (d : DeskIx) (i : ShowIx) (seats : Nat) (k : HoldIx) (s : State) :
    Mirrored (holdOwed k i) s (holdEntered d i seats k s) := by
  refine .of_shows rfl rfl rfl rfl rfl rfl (fun j => ?_) fun j => ?_
  · by_cases h : j = i
    · exact .inl (.inr (h ▸ rfl))
    · exact .inr (put_other _ _ _ _ h)
  · by_cases h : j = k
    · exact .inl (.inl (h ▸ rfl))
    · exact .inr (put_other _ _ _ _ h)

theorem placeHold_mirrored (d : DeskIx) (seq : Byte) (i : ShowIx) (seats : Nat) (k : HoldIx) (s : State) :
    Mirrored noneOwed s (placeHold d seq i seats k s) := by
  rw [placeHold_eq]
  exact (holdCounted_mirrored (holdEntered_mirrored d i seats k s) rfl).trans (sendDesk_mirrored _ _ _ _)

theorem takeHold_mirrored (e : IntakeEntry) (s : State) : Mirrored noneOwed s (takeHold e s) := by
  unfold takeHold
  dsimp only
  split
  · exact placeHold_mirrored _ _ _ _ _ s
  · exact sendDesk_mirrored _ _ _ s
  · exact sendDesk_mirrored _ _ _ s

theorem extendHold_mirrored (e : IntakeEntry) (ref : Nat) (k : HoldIx) (h : HoldRec) (s : State) :
    Mirrored noneOwed s (extendHold e ref k h s) := by
  have entered : Mirrored (fun j => j = .hold k) s (extendEntered k h s) := by
    refine .of_shows rfl rfl rfl rfl rfl rfl (fun j => .inr rfl) fun j => ?_
    by_cases same : j = k
    · exact .inl (same ▸ rfl)
    · exact .inr (put_other _ _ _ _ same)
  rw [extendHold_eq]
  exact entered.handOne.trans (sendDesk_mirrored _ _ _ _)

theorem takeExtend_mirrored (e : IntakeEntry) (s : State) : Mirrored noneOwed s (takeExtend e s) := by
  unfold takeExtend
  dsimp only
  split
  · exact sendDesk_mirrored _ _ _ s
  · split
    · exact sendDesk_mirrored _ _ _ s
    · split
      · exact sendDesk_mirrored _ _ _ s
      · exact extendHold_mirrored e _ _ _ s

theorem freeAndCommit_mirrored {k : HoldIx} {h : HoldRec} (held : holdAt s k = some h) :
    Mirrored noneOwed s (freeAndCommit k h s) := by
  have freed : Mirrored (holdOwed k h.showIx) s (freeHold k s) :=
    freeHold_mirrored k s (.inl rfl) fun h' held' => by
      rw [held] at held'
      cases held'
      exact .inr rfl
  exact holdCounted_mirrored freed rfl

theorem takeRelease_mirrored (e : IntakeEntry) (s : State) : Mirrored noneOwed s (takeRelease e s) := by
  unfold takeRelease
  dsimp only
  split
  · exact sendDesk_mirrored _ _ _ s
  · rename_i k h live
    split
    · exact sendDesk_mirrored _ _ _ s
    · exact (freeAndCommit_mirrored (liveHold_holdAt live)).trans (sendDesk_mirrored _ _ _ _)

/-! ## The Lobby Clock -/

theorem perform_mirrored (e : DueEntry) (time : Nat) (s : State) :
    Mirrored showsOwed s (perform e time s).1 := by
  have set (sh : ShowRec) (v : State) : Mirrored showsOwed v (setShow e.showIx sh v) :=
    setShow_mirrored e.showIx sh v ⟨_, rfl⟩
  have doors (v : State) : Mirrored showsOwed v (requestDoors e time v) := by
    unfold requestDoors
    dsimp only
    split
    · exact sendArbiter_mirrored _ v
    · exact .refl _ v
  unfold perform
  dsimp only
  split
  · exact (set _ s).trans (closeShow_mirrored _ _ _ _ (fun k => by simp [showsOwed]) ⟨_, rfl⟩)
  · have moved (sh : ShowRec) := (set sh s).trans (doors _)
    split
    · split
      · exact moved _
      · exact (moved _).trans (sendClock_mirrored _ _)
    · exact moved _

theorem catchUpLoop_mirrored (fuel time : Nat) (pending : List DueEntry) (n : Nat) (s : State) :
    Mirrored showsOwed s (catchUpLoop fuel time pending n s).1 := by
  induction fuel generalizing pending n s with
  | zero => exact .refl _ s
  | succ fuel ih =>
    unfold catchUpLoop
    split
    · exact .refl _ s
    · split
      · exact (perform_mirrored _ time s).trans (ih _ _ _)
      · exact ih _ _ s

/-- An event that owes records of shows hands them at its end (R6, R19). -/
theorem Mirrored.commitAll (fields : ShowRec → ShowRec → List ReportField) (h : Mirrored showsOwed s t) :
    Mirrored noneOwed s (commitShows fields s.shows.recs t) :=
  commitShows_mirrored fields h

theorem catchUp_mirrored (time : Nat) (entries : List DueEntry) (s : State) :
    Mirrored noneOwed s (catchUp time entries s).1 := by
  have moved := catchUpLoop_mirrored (5 * entries.length) time entries 0 s
  rw [catchUp_eq]
  dsimp only
  exact moved.commitAll passedFields

theorem placeShow_mirrored (now : Nat) (i : ShowIx) (s : State) :
    Mirrored showsOwed s (placeShow now i s) := by
  have set (sh : ShowRec) : Mirrored showsOwed s (setShow i sh s) := setShow_mirrored i sh s ⟨_, rfl⟩
  unfold placeShow
  dsimp only
  split
  · split
    · exact (set _).trans (closeShow_mirrored _ _ _ _ (fun k => by simp [showsOwed]) ⟨_, rfl⟩)
    · exact (set _).trans (schedule_mirrored i _ _)
  · exact .refl _ s

theorem placeAll_mirrored (now : Nat) (s : State) : Mirrored noneOwed s (placeAll now s).1 := by
  have placed := Mirrored.foldl (D := showsOwed) (fun s i => placeShow now i s) (List.finRange 64)
    (fun s i _ => placeShow_mirrored now i s) s
  rw [placeAll_eq]
  dsimp only
  exact placed.commitAll changedFields

theorem finishClockSet_mirrored (time : Nat) (first : Bool) (entries : List DueEntry) (s : State) :
    Mirrored noneOwed s (finishClockSet time first entries s) := by
  have moved : Mirrored noneOwed s (if first then placeAll time s else catchUp time entries s).1 := by
    split
    · exact placeAll_mirrored time s
    · exact catchUp_mirrored time entries s
  exact ((moved.trans (placeAnchor_mirrored _ _)).trans (placeAnchor_mirrored _ _)).trans
    (finish_mirrored _ _ _)

theorem execCatchUp_mirrored (s : State) :
    ∃ t, exec .catchUp s = .next t ∧ Mirrored noneOwed s t := by
  refine ⟨_, rfl, ?_⟩
  split
  · exact (catchUp_mirrored _ _ _).after rfl rfl rfl rfl rfl rfl rfl
  · exact (finishClockSet_mirrored _ _ _ _).after rfl rfl rfl rfl rfl rfl rfl
  · exact .refl _ s

theorem withTaken_mirrored (f : Flight) (s : State) : Mirrored D s (withTaken f s) :=
  setFlight_mirrored _ s.win.cfg s.win.settingsQ s

theorem takeClockSet_mirrored (value : Nat) (f : Flight) (s : State) :
    Mirrored noneOwed s
      (let r := setLobby value (withTaken f s)
       if r.1.bus.fromClock = [] then finishClockSet value r.2.1 r.2.2 r.1
       else handClock (.setHalf value r.2.1 r.2.2) r.1) := by
  have set : Mirrored noneOwed s (setLobby value (withTaken f s)).1 :=
    (withTaken_mirrored f s).trans (.blocks rfl rfl rfl rfl rfl rfl rfl)
  dsimp only
  split
  · exact set.trans (finishClockSet_mirrored _ _ _ _)
  · exact set.trans (.blocks rfl rfl rfl rfl rfl rfl rfl)

/-! ## The tick -/

/-- The bytes of a display's record have no part in its dwell or in the marks of timers (R182). -/
theorem tickTimers_displayMirror (s : State) (d : DisplayIx) :
    displayMirror (tickTimers s) d = displayMirror s d := by
  have display : ∃ left due, (tickTimers s).displays.recs[d] =
      { s.displays.recs[d] with dwellLeft := left, dwellDue := due } := by
    rw [tickTimers_display]
    unfold tickDwell
    split
    · split
      · exact ⟨_, _, rfl⟩
      · split
        · exact ⟨_, _, rfl⟩
        · exact ⟨_, _, rfl⟩
    · exact ⟨_, _, rfl⟩
  have arb : ∃ due, (tickTimers s).arb.recs[d] = { s.arb.recs[d] with coverDue := due } := by
    rw [tickTimers_arb]
    unfold tickCover
    split
    · exact ⟨_, rfl⟩
    · exact ⟨_, rfl⟩
  have stream : ∃ due, (tickTimers s).stream.recs[d] = { s.stream.recs[d] with underrunDue := due } := by
    have eq : (tickTimers s).stream.recs[d] =
        tickUnderrun s.clock.partSeconds s.stream.cfg.underrunLimit s.stream.recs[d] := by
      simp only [tickTimers, Fin.getElem_fin, Vector.getElem_map]
    rw [eq]
    unfold tickUnderrun
    split
    · exact ⟨_, rfl⟩
    · exact ⟨_, rfl⟩
  obtain ⟨left, dwellDue, display⟩ := display
  obtain ⟨coverDue, arb⟩ := arb
  obtain ⟨underrunDue, stream⟩ := stream
  have links : (tickTimers s).stream.links = s.stream.links := rfl
  have ref : noticeRef (tickTimers s) = noticeRef s := rfl
  unfold displayMirror
  dsimp only
  rw [display, arb, stream, links, ref]
  rfl

theorem tick_mirrored (s : State) : Mirrored noneOwed s (tickTimers (riseClock s)) := by
  refine (Mirrored.blocks rfl rfl rfl rfl rfl rfl rfl : Mirrored noneOwed s (riseClock s)).trans
    (.of_win rfl fun id => .inr ?_)
  have shows : (tickTimers (riseClock s)).shows = (riseClock s).shows := rfl
  have slots : (tickTimers (riseClock s)).arb.slots = (riseClock s).arb.slots := rfl
  have air : (tickTimers (riseClock s)).air = (riseClock s).air := rfl
  have faults : (tickTimers (riseClock s)).faults = (riseClock s).faults := rfl
  cases id with
  | display d => exact tickTimers_displayMirror (riseClock s) d
  | fault sev => cases sev <;> simp only [mirrorBody, faults]
  | _ => simp only [mirrorBody, shows, slots, air]

theorem execTick_mirrored (s : State) : ∃ t, exec .tick s = .next t ∧ Mirrored noneOwed s t := by
  refine ⟨_, rfl, ?_⟩
  have words := (((tick_mirrored s).trans (placeAnchor_mirrored .lobbyNow _)).trans
    (placeAnchor_mirrored .partNow _)).trans (placeAnchor_mirrored .clockSet _)
  dsimp only
  split
  · refine words.trans ?_
    unfold handDue
    dsimp only
    split
    · exact .refl _ _
    · exact .blocks rfl rfl rfl rfl rfl rfl rfl
  · exact words

end

end Sys2Proof.Machine

namespace Sys2Proof.Machine

section
variable {s t u : State} {D : MirrorId → Prop}

/-! ## Holds that expire -/

theorem execHoldExpiry_mirrored (s : State) :
    ∃ t, exec .holdExpiry s = .next t ∧ Mirrored noneOwed s t := by
  refine ⟨_, rfl, ?_⟩
  split
  · exact .refl _ s
  · split
    · exact .refl _ s
    · rename_i k _ _ h held
      split
      · exact (freeAndCommit_mirrored held).trans (sendDesk_mirrored _ _ _ _)
      · exact .refl _ s

/-! ## Events of the Notice Arbiter -/

theorem holdsNotice_lives {i : NoticeIx} {d : DisplayIx} (h : holdsNotice s i d = true) : Lives s i := by
  refine .inr ⟨d, ?_⟩
  simpa [holdsNotice, standsAt] using h

/-- No notice that stands at a display in `t` has a slot whose generation has changed since `s`. -/
def GensStay (s t : State) : Prop := ∀ i d, standsAt t i d → t.arb.slots[i].gen = s.arb.slots[i].gen

theorem noticeEvent_clean (extra : Option NoticeIx) (act : State → State) (s : State)
    (blocks : (act s).win = s.win ∧ (act s).shows = s.shows ∧ (act s).air = s.air ∧
      (act s).faults = s.faults) (gens : GensStay s (act s)) :
    Mirrored noneOwed s (noticeEvent extra act s) := by
  obtain ⟨win, shows, air, faults⟩ := blocks
  exact noticeEvent_mirrored extra act s win shows air faults gens

theorem KeepsRefs.gensStay (h : KeepsRefs s t) : GensStay s t := fun i d hi => (h i (.inr ⟨d, hi⟩)).2

/-! ### Posts -/

theorem KeepsRefs.gensStay_after (h : KeepsRefs t u)
    (gens : ∀ i : NoticeIx, t.arb.slots[i].gen = s.arb.slots[i].gen) : GensStay s u :=
  fun i d hi => (h.gensStay i d hi).trans (gens i)

theorem noticeWritten_gens (p : Post) (i j : NoticeIx) (s : State) :
    (noticeWritten p i s).arb.slots[j].gen = s.arb.slots[j].gen := by
  obtain ⟨own, others⟩ := noticeWritten_slots p i s
  by_cases h : j = i
  · rw [h, own]
  · rw [others j h]

theorem createNotice_gens (p : Post) (i : NoticeIx) (s : State) : GensStay s (createNotice p i s) := by
  have used : (noticeWritten p i s).arb.slots[i].notice ≠ none := by
    rw [(noticeWritten_slots p i s).1]
    simp
  have gens := fun j => noticeWritten_gens p i j s
  cases mode : p.mode with
  | all =>
    rw [createNotice_all mode]
    have entered := enterPendings_refs ((takers p s).map fun d => (i, d)) (noticeWritten p i s)
      fun q hq => by
        obtain ⟨d, -, rfl⟩ := List.mem_map.mp hq
        exact used
    rw [List.foldl_map] at entered
    exact (entered.trans (evaluateAll_refs _ _)).gensStay_after gens
  | anyOne =>
    rw [createNotice_anyOne mode]
    exact (placeNotice_refs i _).gensStay_after gens

theorem reenter_refs {i : NoticeIx} (d : DisplayIx) (h : Lives s i) :
    KeepsRefs s (enterPending i d (removeAt i d s)) := fun j hj => by
  have removed := removeAt_refs i d s
  have gen : (enterPending i d (removeAt i d s)).arb.slots[j].gen = s.arb.slots[j].gen := by
    have slots : (removeAt i d s).arb.slots = s.arb.slots := by
      unfold removeAt
      dsimp only
      split
      · rfl
      · rfl
    have entered : (enterPending i d (removeAt i d s)).arb.slots = (removeAt i d s).arb.slots := rfl
    rw [entered, slots]
  refine ⟨?_, gen⟩
  rcases enterPending_lives hj with lives | rfl
  · exact (removed j lives).1
  · exact h

theorem collapseWhereHeld_refs (i : NoticeIx) (s : State) (d : DisplayIx) :
    KeepsRefs s (collapseWhereHeld i s d) := by
  unfold collapseWhereHeld
  split
  · rename_i held
    unfold collapseAt
    dsimp only
    split
    · exact evaluateAll_refs _ _
    · split
      · split
        · exact (evaluateAll_refs _ _).trans (.of_arb rfl)
        · exact evaluateAll_refs _ _
      · exact (reenter_refs d (holdsNotice_lives held)).trans (evaluateAll_refs _ _)
  · exact .of_arb rfl

theorem collapseNotice_refs (p : Post) (i : NoticeIx) (s : State) : KeepsRefs s (collapseNotice p i s) := by
  unfold collapseNotice noticeAt
  split
  · exact .of_arb rfl
  · rename_i n used
    exact (setNotice_refs i _ s (.inl (by rw [used]; exact Option.some_ne_none n))).trans
      (KeepsRefs.foldl _ _ (fun s d _ => collapseWhereHeld_refs i s d) _)

theorem applyPost_mirrored (p : Post) (s : State) : Mirrored noneOwed s (applyPost p s) := by
  unfold applyPost
  split
  · exact noticeEvent_clean _ _ s (by simp) (collapseNotice_refs p _ s).gensStay
  · exact noticeEvent_clean _ _ s (by simp) (createNotice_gens p _ s)
  all_goals exact .refl _ s

theorem finishPost_mirrored (before : State) (r : PostResult) (truncated : Bool) (s : State) :
    Mirrored D s (finishPost before r truncated s) := by
  unfold finishPost
  split
  all_goals exact finish_mirrored _ _ s

theorem takePost_mirrored (f : Flight) (s : State) : Mirrored noneOwed s (takePost f s) := by
  unfold takePost
  dsimp only
  split
  · exact finish_mirrored _ _ s
  · exact (applyPost_mirrored _ s).trans (finishPost_mirrored _ _ _ _)

theorem takeDeskPost_mirrored (e : IntakeEntry) (s : State) : Mirrored noneOwed s (takeDeskPost e s) := by
  unfold takeDeskPost
  dsimp only
  split
  · exact sendDesk_mirrored _ _ _ s
  · exact (applyPost_mirrored _ s).trans (sendDesk_mirrored _ _ _ _)

/-! ### Endings -/

theorem endNotice_mirrored (r : NoticeEnd) (i : NoticeIx) (s : State) :
    Mirrored noneOwed s (noticeEvent none (endNotice r i) s) :=
  noticeEvent_clean _ _ s (by simp) (endNotice_refs r i s).gensStay

theorem takeClear_mirrored (ref : Nat) (s : State) : Mirrored noneOwed s (takeClear ref s) := by
  unfold takeClear
  split
  · exact finish_mirrored _ _ s
  · exact (endNotice_mirrored _ _ s).trans (finish_mirrored _ _ _)

/-- A free value taken leaves every mirror record. -/
theorem freeTaken_mirrored (s : State) : Mirrored D s { s with freeCount := s.freeCount + 1 } :=
  .blocks rfl rfl rfl rfl rfl rfl rfl

theorem takeDeskClear_mirrored (e : IntakeEntry) (s : State) :
    Mirrored noneOwed s (takeDeskClear e s) := by
  unfold takeDeskClear
  dsimp only
  split
  · exact sendDesk_mirrored _ _ _ s
  · split
    · exact sendDesk_mirrored _ _ _ s
    · exact ((freeTaken_mirrored s).trans (sendDesk_mirrored _ _ _ _)).trans (endNotice_mirrored _ _ _)

/-- A message taken off a queue between two blocks leaves every mirror record. -/
theorem takenOff_mirrored (b : Bus) (s : State) : Mirrored D s { s with bus := b } :=
  .blocks rfl rfl rfl rfl rfl rfl rfl

theorem execAutoNoticeRequest_mirrored (s : State) :
    ∃ t, exec .autoNoticeRequest s = .next t ∧ Mirrored noneOwed s t := by
  refine ⟨_, rfl, ?_⟩
  split
  · exact (takenOff_mirrored _ s).trans (applyPost_mirrored _ _)
  · exact .refl _ s

theorem execClearRequest_mirrored (s : State) :
    ∃ t, exec .clearRequest s = .next t ∧ Mirrored noneOwed s t := by
  refine ⟨_, rfl, ?_⟩
  split
  · dsimp only
    split
    · exact (takenOff_mirrored _ s).trans (endNotice_mirrored _ _ _)
    · exact takenOff_mirrored _ s
  · exact .refl _ s

theorem execClosureReport_mirrored (s : State) :
    ∃ t, exec .closureReport s = .next t ∧ Mirrored noneOwed s t := by
  refine ⟨_, rfl, ?_⟩
  split
  · exact (takenOff_mirrored _ s).trans
      (noticeEvent_clean _ _ _ (by simp) (endNotices_refs _ _ _).gensStay)
  · exact .refl _ s

theorem execNoticeExpiry_mirrored (s : State) :
    ∃ t, exec .noticeExpiry s = .next t ∧ Mirrored noneOwed s t := by
  refine ⟨_, rfl, ?_⟩
  split
  · exact endNotice_mirrored _ _ s
  · exact .refl _ s

/-! ### Reports -/

/-- An arbitration record changed so that nothing new stands there. -/
theorem withArb_thins (d : DisplayIx) (f : ArbRec → ArbRec) (s : State)
    (h : ∀ i, i ∈ (f s.arb.recs[d]).pending ∨ i ∈ (f s.arb.recs[d]).stack → standsAt s i d) :
    KeepsRefs s (withArb d f s) :=
  withArb_refs d f s fun i hi => .inr ⟨d, h i hi⟩

theorem displayEnabled_refs (d : DisplayIx) (tag : Byte) (s : State) :
    KeepsRefs s (displayEnabled d tag s) := by
  have set : KeepsRefs s (withArb d (fun a => { a with tag := tag }) (setNoticeState .starting d s)) :=
    (withArb_thins d _ s fun _ => id).trans (withArb_thins d _ _ fun _ => id)
  unfold displayEnabled
  dsimp only
  obtain ⟨v, hv⟩ : ∃ v, v = withArb d (fun a => { a with tag := tag }) (setNoticeState .starting d s) :=
    ⟨_, rfl⟩
  rw [← hv] at set ⊢
  obtain ⟨l, hl⟩ : ∃ l, l = v.arb.order.filter (fun i =>
    isAll v i && (noticeAt v i).any (displayMatches v ·.target d)) := ⟨_, rfl⟩
  rw [← hl]
  have entered := enterPendings_refs (l.map fun i => (i, d)) v fun q hq => by
    obtain ⟨i, hi, rfl⟩ := List.mem_map.mp hq
    rw [hl, List.mem_filter] at hi
    obtain ⟨-, hi⟩ := hi
    intro none'
    dsimp only at none'
    unfold isAll noticeAt at hi
    rw [none'] at hi
    simp at hi
  rw [List.foldl_map] at entered
  exact set.trans entered

theorem displayUp_refs (d : DisplayIx) (s : State) : KeepsRefs s (displayUp d s) := by
  unfold displayUp
  exact ((withArb_thins d _ s fun _ => id).trans (evaluateAll_refs _ _)).trans (placeNotices_refs _ _)

theorem leaveDisplay_refs (st : DisplayState) {kept : List NoticeIx} {d : DisplayIx}
    (h : ∀ i ∈ kept, standsAt s i d) : KeepsRefs s (leaveDisplay st kept d s) := by
  unfold leaveDisplay
  exact (withArb_thins d _ s fun i hi => hi.elim (h i) (by simp)).trans (placeNotices_refs _ _)

theorem displayLost_refs (d : DisplayIx) (s : State) : KeepsRefs s (displayLost d s) := by
  refine leaveDisplay_refs .linkLost fun i hi => ?_
  rcases List.mem_append.mp hi with pending | stack
  · exact .inl (List.mem_filter.mp pending).1
  · exact .inr (List.mem_filter.mp stack).1

theorem popReport_mirrored (s : State) : Mirrored D s (popReport s) := takenOff_mirrored _ s

/-- A report taken as one event. -/
theorem report_mirrored (act : State → State) (s : State)
    (blocks : (act (popReport s)).win = s.win ∧ (act (popReport s)).shows = s.shows ∧
      (act (popReport s)).air = s.air ∧ (act (popReport s)).faults = s.faults)
    (refs : KeepsRefs (popReport s) (act (popReport s))) :
    Mirrored noneOwed s (noticeEvent none act (popReport s)) :=
  (popReport_mirrored s).trans (noticeEvent_clean none act (popReport s) blocks refs.gensStay)

theorem execEnabledReport_mirrored (s : State) :
    ∃ t, exec .enabledReport s = .next t ∧ Mirrored noneOwed s t := by
  refine ⟨_, rfl, ?_⟩
  split
  · exact report_mirrored _ s (by simp [popReport]) (displayEnabled_refs _ _ _)
  · exact .refl _ s

theorem execLinkUpReport_mirrored (s : State) :
    ∃ t, exec .linkUpReport s = .next t ∧ Mirrored noneOwed s t := by
  refine ⟨_, rfl, ?_⟩
  split
  · exact report_mirrored _ s (by simp [popReport]) (displayUp_refs _ _)
  · exact .refl _ s

theorem execLinkLostReport_mirrored (s : State) :
    ∃ t, exec .linkLostReport s = .next t ∧ Mirrored noneOwed s t := by
  refine ⟨_, rfl, ?_⟩
  split
  · exact report_mirrored _ s (by simp [popReport]) (displayLost_refs _ _)
  · exact .refl _ s

theorem execDrainingReport_mirrored (s : State) :
    ∃ t, exec .drainingReport s = .next t ∧ Mirrored noneOwed s t := by
  refine ⟨_, rfl, ?_⟩
  split
  · exact report_mirrored _ s (by simp [popReport]) (leaveDisplay_refs _ (by simp))
  · exact .refl _ s

theorem execOffReport_mirrored (s : State) :
    ∃ t, exec .offReport s = .next t ∧ Mirrored noneOwed s t := by
  refine ⟨_, rfl, ?_⟩
  split
  · exact report_mirrored _ s (by simp [popReport]) (leaveDisplay_refs _ (by simp))
  · exact .refl _ s

theorem execFloorReport_mirrored (s : State) :
    ∃ t, exec .floorReport s = .next t ∧ Mirrored noneOwed s t := by
  refine ⟨_, rfl, ?_⟩
  split
  · exact report_mirrored _ s (by simp [popReport])
      ((withArb_thins _ _ _ fun _ => id).trans (evaluateAll_refs _ _))
  · exact .refl _ s

/-- The mark of a cover timer has no part in a display's record (R182). -/
theorem coverTaken_mirrored (d : DisplayIx) (s : State) :
    Mirrored D s (withArb d (fun a => { a with coverDue := false }) s) := by
  refine .of_win rfl fun id => .inr ?_
  have slots : (withArb d (fun a => { a with coverDue := false }) s).arb.slots = s.arb.slots := rfl
  cases id with
  | display e =>
    obtain ⟨due, same⟩ : ∃ due, (withArb d (fun a => { a with coverDue := false }) s).arb.recs[e] =
        { s.arb.recs[e] with coverDue := due } := by
      by_cases h : e = d
      · exact ⟨false, by rw [h]; exact put_same _ _ _⟩
      · exact ⟨_, put_other _ _ _ _ h⟩
    refine displayMirror_congr rfl ?_ ?_ ?_ rfl rfl rfl ?_
    · rw [same]
    · rw [same]
    · rw [same]
    · unfold topRef noticeRef
      rw [same]
      rfl
  | notice i => simp only [mirrorBody, slots]
  | fault x => cases x <;> rfl
  | _ => rfl

theorem execCoverTimerExpiry_mirrored (d : DisplayIx) (s : State) :
    ∃ t, exec (.coverTimerExpiry d) s = .next t ∧ Mirrored noneOwed s t := by
  refine ⟨_, rfl, ?_⟩
  split
  · exact (coverTaken_mirrored d s).trans
      (noticeEvent_clean _ _ _ (by simp) (evaluateAll_refs _ _).gensStay)
  · exact .refl _ s

end

end Sys2Proof.Machine

namespace Sys2Proof.Machine

section
variable {s t u : State} {D : MirrorId → Prop}

/-! ## Reads and raises -/

theorem issueRead_mirrored (r : Read) (s : State) : Mirrored D s (issueRead r s) := by
  apply Mirrored.blocks <;> simp

theorem freeRead_mirrored (slot : ReadSlot) (s : State) : Mirrored D s (freeRead slot s) := by
  apply Mirrored.blocks <;> simp

theorem raise_mirrored (who : Raiser) (cause : FaultCause) (source : FaultSource) (capture : List Byte)
    (s : State) : Mirrored D s (raise who cause source capture s) := by
  apply Mirrored.blocks <;> simp

/-! ## The Feature Table -/

/-- The record of feature `f` is owed. -/
def featureOwed (f : FeatureIx) : MirrorId → Prop := fun j => j = .feature f

/-- Records of features are owed. -/
def featuresOwed : MirrorId → Prop := fun j => ∃ f, j = .feature f

/-- An event that owes records of features hands them at its end (R110). -/
theorem Mirrored.settleFeatures (h : Mirrored featuresOwed s t) :
    Mirrored noneOwed s (settleFeatures s t) := settleFeatures_mirrored h

theorem setFeature_owes (f : FeatureIx) (r : FeatureRec) (s : State) :
    Mirrored (featureOwed f) s (setFeature f r s) := setFeature_mirrored f r s (.inl rfl)

theorem setFeature_owesAll (f : FeatureIx) (r : FeatureRec) (s : State) :
    Mirrored featuresOwed s (setFeature f r s) := setFeature_mirrored f r s (.inl ⟨f, rfl⟩)

/-- A change of the Airtime Scheduler beside its features leaves every mirror record. -/
theorem airBeside_mirrored {air : Airtime} (s : State) (h : air.features = s.air.features) :
    Mirrored D s { s with air := air } :=
  .of_air rfl rfl rfl rfl rfl rfl fun f => .inr (by dsimp only; rw [h])

theorem withFeature_mirrored (x : Flight) {act : FeatureIx → State → State} (s : State)
    (h : ∀ f, Mirrored noneOwed s (act f s)) : Mirrored noneOwed s (withFeature x act s) := by
  unfold withFeature
  split
  · exact finishOpen_mirrored _ s
  · exact h _

/-! ## Entries -/

theorem issueHeaderRead_mirrored (f : FeatureIx) (s : State) : Mirrored D s (issueHeaderRead f s) :=
  issueRead_mirrored _ s

theorem issuePieceRead_mirrored (f : FeatureIx) (first : Nat) (s : State) :
    Mirrored D s (issuePieceRead f first s) := issueRead_mirrored _ s

theorem forgetTrailer_mirrored (f : FeatureIx) (s : State) : Mirrored D s (forgetTrailer f s) :=
  airBeside_mirrored s rfl

theorem loadFeature_mirrored (f : FeatureIx) (weight location : Nat) (s : State) :
    Mirrored noneOwed s (loadFeature f weight location s) := by
  have loaded := ((forgetTrailer_mirrored f s).trans (setFeature_owes f
    { state := .validating, weight := weight, clipLocation := location,
      validationNo := (s.air.features[f].validationNo + 1) % 256, validation := some {} } _)).trans
        (issueHeaderRead_mirrored f _)
  exact loaded.handOne.trans (finish_mirrored _ _ _)

theorem execFeatureLoad_mirrored (s : State) :
    ∃ t, exec .featureLoad s = .next t ∧ Mirrored noneOwed s t := by
  refine ⟨_, rfl, takeEntry_mirrored _ _ s fun x => withFeature_mirrored x s fun f => ?_⟩
  dsimp only
  split
  · exact finish_mirrored _ _ s
  · split
    · exact finish_mirrored _ _ s
    · split
      · exact finish_mirrored _ _ s
      · exact loadFeature_mirrored f _ _ s

theorem execFeatureWeight_mirrored (s : State) :
    ∃ t, exec .featureWeight s = .next t ∧ Mirrored noneOwed s t := by
  refine ⟨_, rfl, takeEntry_mirrored _ _ s fun x => withFeature_mirrored x s fun f => ?_⟩
  dsimp only
  split
  · exact finishOpen_mirrored _ s
  · split
    · exact finish_mirrored _ _ s
    · exact (setFeature_owesAll f _ s).settleFeatures.trans (finish_mirrored _ _ _)

theorem dropFeature_mirrored (f : FeatureIx) (s : State) : Mirrored featuresOwed s (dropFeature f s) := by
  unfold dropFeature
  dsimp only
  split
  · exact .refl _ s
  · exact .refl _ s
  · exact emptyFeature_mirrored f s ⟨f, rfl⟩
  · exact emptyFeature_mirrored f s ⟨f, rfl⟩
  all_goals
    split
    · exact emptyFeature_mirrored f s ⟨f, rfl⟩
    · exact (setFeature_owesAll f _ s).trans (takenOff_mirrored _ _)

theorem execFeatureDrop_mirrored (s : State) :
    ∃ t, exec .featureDrop s = .next t ∧ Mirrored noneOwed s t := by
  refine ⟨_, rfl, takeEntry_mirrored _ _ s fun x => withFeature_mirrored x s fun f => ?_⟩
  dsimp only
  exact (dropFeature_mirrored f s).settleFeatures.trans (finish_mirrored _ _ _)

theorem features_owed {v : Vector FeatureRec 32} (s : State) :
    Mirrored featuresOwed s { s with air := { s.air with features := v } } :=
  .of_air rfl rfl rfl rfl rfl rfl fun f => .inl ⟨f, rfl⟩

theorem execAirtimeReset_mirrored (s : State) :
    ∃ t, exec .airtimeReset s = .next t ∧ Mirrored noneOwed s t := by
  refine ⟨_, rfl, takeEntry_mirrored _ _ s fun x => ?_⟩
  dsimp only
  exact (features_owed s).settleFeatures.trans (finish_mirrored _ _ _)

/-! ## Validation -/

theorem rejectFeature_owes (f : FeatureIx) (reason : RejectReason) (detail : Nat) (s : State) :
    Mirrored (featureOwed f) s (rejectFeature f reason detail s) := setFeature_owes f _ s

theorem headerDone_mirrored (f : FeatureIx) (bytes : List Byte) (s : State) :
    Mirrored noneOwed s (headerDone f bytes s) := by
  unfold headerDone
  dsimp only
  refine Mirrored.handOne ?_
  split
  · exact rejectFeature_owes f _ _ s
  · exact (setFeature_owes f _ s).trans (issuePieceRead_mirrored f _ _)

theorem finishValidation_owes (f : FeatureIx) (s : State) :
    Mirrored (featureOwed f) s (finishValidation f s) := by
  unfold finishValidation
  dsimp only
  split
  · exact (setFeature_owes f _ s).trans (rejectFeature_owes f _ _ _)
  · exact (setFeature_owes f _ s).trans (setFeature_owes f _ _)

theorem pieceDone_mirrored (f : FeatureIx) (first : Nat) (bytes : List Byte) (s : State) :
    Mirrored noneOwed s (pieceDone f first bytes s) := by
  unfold pieceDone
  dsimp only
  refine Mirrored.handOne ?_
  split
  · exact (setFeature_owes f _ s).trans (rejectFeature_owes f _ _ _)
  · split
    · exact ((setFeature_owes f _ s).trans (setFeature_owes f _ _)).trans (issuePieceRead_mirrored f _ _)
    · exact (setFeature_owes f _ s).trans (finishValidation_owes f _)

theorem setValidation_mirrored (f : FeatureIx) (v : Validation) (s : State) :
    Mirrored D s (setValidation f v s) := setFeature_mirrored f _ s (.inr rfl)

theorem reissueValidation_mirrored (f : FeatureIx) (v : Validation) (s : State) :
    Mirrored D s (reissueValidation f v s) := by
  unfold reissueValidation
  split
  · exact issueHeaderRead_mirrored f s
  · exact issuePieceRead_mirrored f _ s

theorem validationFailed_mirrored (f : FeatureIx) (s : State) :
    Mirrored noneOwed s (validationFailed f s) := by
  unfold validationFailed
  split
  · exact .refl _ s
  · dsimp only
    split
    · split
      · exact (setValidation_mirrored f _ s).trans (reissueValidation_mirrored f _ _)
      · exact setValidation_mirrored f _ s
    · exact ((rejectFeature_owes f _ _ s).trans (raise_mirrored _ _ _ _ _)).handOne

theorem execHeaderReadDone_mirrored (slot : ReadSlot) (bytes : List Byte) (s : State) :
    ∃ t, exec (.headerReadDone slot bytes) s = answer (.headerReadDone slot bytes) t ∧
      Mirrored noneOwed s t := by
  refine ⟨_, rfl, ?_⟩
  split
  · dsimp only
    split
    · exact (freeRead_mirrored slot s).trans (headerDone_mirrored _ _ _)
    · exact freeRead_mirrored slot s
  · exact .refl _ s

theorem execChunkListPieceDone_mirrored (slot : ReadSlot) (bytes : List Byte) (s : State) :
    ∃ t, exec (.chunkListPieceDone slot bytes) s = answer (.chunkListPieceDone slot bytes) t ∧
      Mirrored noneOwed s t := by
  refine ⟨_, rfl, ?_⟩
  split
  · split
    · exact .refl _ s
    · dsimp only
      split
      · exact (freeRead_mirrored slot s).trans (pieceDone_mirrored _ _ _ _)
      · exact freeRead_mirrored slot s
  · exact .refl _ s

theorem execValidationReadFailed_mirrored (slot : ReadSlot) (s : State) :
    ∃ t, exec (.validationReadFailed slot) s = .next t ∧ Mirrored noneOwed s t := by
  have freed (f : FeatureIx) (no : Nat) : Mirrored noneOwed s
      (if validating (freeRead slot s) f no then validationFailed f (freeRead slot s)
        else freeRead slot s) := by
    split
    · exact (freeRead_mirrored slot s).trans (validationFailed_mirrored _ _)
    · exact freeRead_mirrored slot s
  refine ⟨_, rfl, ?_⟩
  split
  · exact freed _ _
  · exact freed _ _
  · exact .refl _ s

theorem execValidationRetryExpiry_mirrored (f : FeatureIx) (s : State) :
    ∃ t, exec (.validationRetryExpiry f) s = .next t ∧ Mirrored noneOwed s t := by
  refine ⟨_, rfl, ?_⟩
  split
  · dsimp only
    split
    · exact (setValidation_mirrored f _ s).trans (reissueValidation_mirrored f _ _)
    · exact .refl _ s
  · exact .refl _ s

/-! ## Decisions and releases -/

theorem payAll_mirrored (e : List FeatureIx) (s : State) : Mirrored featuresOwed s (payAll e s) :=
  Mirrored.foldl _ e (fun s f _ => setFeature_owesAll f _ s) s

theorem replyDecision_mirrored (r : DecisionRequest) (choice : Option FeatureIx) (s : State) :
    Mirrored D s (replyDecision r choice s) := takenOff_mirrored _ s

theorem chargeWinner_mirrored (w : FeatureIx) (d : DisplayIx) (sum : Nat) (s : State) :
    Mirrored featuresOwed s (chargeWinner w d sum s) :=
  (setFeature_owesAll w _ s).trans (airBeside_mirrored _ rfl)

theorem takeDecision_mirrored (r : DecisionRequest) (s : State) :
    Mirrored noneOwed s (takeDecision r s) := by
  have refreshed : Mirrored featuresOwed s (refreshE s) := features_owed s
  have paid := refreshed.trans (payAll_mirrored (eligibleSet (refreshE s) r.formatMask) _)
  unfold takeDecision
  dsimp only
  split
  · exact paid.settleFeatures.trans (replyDecision_mirrored r _ _)
  · exact ((paid.trans (chargeWinner_mirrored _ _ _ _)).settleFeatures).trans
      (replyDecision_mirrored r _ _)

theorem execDecision_mirrored (d : DisplayIx) (s : State) :
    ∃ t, exec (.decision d) s = .next t ∧ Mirrored noneOwed s t := by
  refine ⟨_, rfl, ?_⟩
  split
  · exact (takenOff_mirrored _ s).trans (takeDecision_mirrored _ _)
  · exact .refl _ s

theorem takeReleaseReport_mirrored (x : Release) (s : State) :
    Mirrored noneOwed s (takeReleaseReport x s) := by
  unfold takeReleaseReport
  dsimp only
  split
  · exact .refl _ s
  · refine Mirrored.handOne ?_
    split
    · exact emptyFeature_mirrored x.feature s rfl
    · exact setFeature_owes x.feature _ s

theorem execReleaseReport_mirrored (sender : ReleaseSender) (s : State) :
    ∃ t, exec (.releaseReport sender) s = .next t ∧ Mirrored noneOwed s t := by
  refine ⟨_, rfl, ?_⟩
  cases sender with
  | streamEngine =>
    dsimp only
    split
    · exact (takenOff_mirrored _ s).trans (takeReleaseReport_mirrored _ _)
    · exact .refl _ s
  | displayController =>
    dsimp only
    split
    · exact (takenOff_mirrored _ s).trans (takeReleaseReport_mirrored _ _)
    · exact .refl _ s

end

end Sys2Proof.Machine

namespace Sys2Proof.Machine

section
variable {s t u : State} {D : MirrorId → Prop} {d : DisplayIx}

/-! ## Events at one display -/

/-- Between `s` and `t` an event has run at display `d`, its mirror record owed: the Notice Arbiter and
every other record stay. -/
structure AtDisplay (d : DisplayIx) (s t : State) : Prop where
  arb : t.arb = s.arb
  owed : ∀ D : MirrorId → Prop, D (.display d) → Mirrored D s t

theorem AtDisplay.refl (d : DisplayIx) (s : State) : AtDisplay d s s := ⟨rfl, fun _ _ => .refl _ s⟩

theorem AtDisplay.trans (h : AtDisplay d s t) (h' : AtDisplay d t u) : AtDisplay d s u :=
  ⟨h'.arb.trans h.arb, fun D own => (h.owed D own).trans (h'.owed D own)⟩

/-- The event's end hands the record where it has changed (R92, R129, R145). -/
theorem AtDisplay.settled (h : AtDisplay d s t) : Mirrored noneOwed s (settleDisplay s d t) :=
  settleDisplay_mirrored d h.arb (h.owed _ rfl)

/-- A change of the display's own records alone. -/
theorem AtDisplay.of_own (win : t.win = s.win) (shows : t.shows = s.shows) (arb : t.arb = s.arb)
    (air : t.air = s.air) (faults : t.faults = s.faults)
    (displays : ∀ e : DisplayIx, e ≠ d → t.displays.recs[e] = s.displays.recs[e])
    (streams : ∀ e : DisplayIx, e ≠ d → t.stream.recs[e] = s.stream.recs[e])
    (links : ∀ e : DisplayIx, e ≠ d → t.stream.links[e] = s.stream.links[e]) : AtDisplay d s t := by
  refine ⟨arb, fun D owed => .of_displays win shows arb air faults fun e => ?_⟩
  by_cases own : e = d
  · exact .inl (own ▸ owed)
  · refine .inr (displayMirror_congr (displays e own) ?_ ?_ ?_ ?_ ?_ ?_ ?_)
    · rw [arb]
    · rw [arb]
    · rw [arb]
    · rw [streams e own]
    · rw [streams e own]
    · rw [links e own]
    · unfold topRef noticeRef
      rw [arb]

/-! ### The parts of an event -/

theorem AtDisplay.display (h : AtDisplay d s t) (f : DisplayRec → DisplayRec) :
    AtDisplay d s (withDisplay d f t) :=
  h.trans (.of_own rfl rfl rfl rfl rfl (fun _ ne => put_other _ _ _ _ ne) (fun _ _ => rfl) fun _ _ => rfl)

theorem AtDisplay.stream (h : AtDisplay d s t) (f : StreamRec → StreamRec) :
    AtDisplay d s (withStream d f t) :=
  h.trans (.of_own rfl rfl rfl rfl rfl (fun _ _ => rfl) (fun _ ne => put_other _ _ _ _ ne) fun _ _ => rfl)

theorem AtDisplay.link (h : AtDisplay d s t) (f : PanelLink → PanelLink) :
    AtDisplay d s (withLink d f t) :=
  h.trans (.of_own rfl rfl rfl rfl rfl (fun _ _ => rfl) (fun _ _ => rfl) fun _ ne => put_other _ _ _ _ ne)

theorem AtDisplay.panel (h : AtDisplay d s t) (f : PanelFrame) : AtDisplay d s (sendPanel d f t) := by
  unfold sendPanel
  split
  · exact h.link _
  · exact h

theorem AtDisplay.panels (h : AtDisplay d s t) (l : List PanelFrame) :
    AtDisplay d s (sendPanels d l t) := by
  unfold sendPanels
  induction l generalizing t with
  | nil => exact h
  | cons f l ih => exact ih (h.panel f)

theorem AtDisplay.clip (h : AtDisplay d s t) (f : PanelFrame) : AtDisplay d s (sendClip d f t) := by
  unfold sendClip
  split
  · exact h.link _
  · exact h

theorem AtDisplay.sent (h : AtDisplay d s t) (b : Bus) : AtDisplay d s { t with bus := b } :=
  h.trans ⟨rfl, fun _ _ => takenOff_mirrored b t⟩

theorem AtDisplay.issued (h : AtDisplay d s t) (r : Read) : AtDisplay d s (issueRead r t) :=
  h.trans ⟨by simp, fun _ _ => issueRead_mirrored r t⟩

theorem AtDisplay.freed (h : AtDisplay d s t) (slot : ReadSlot) : AtDisplay d s (freeRead slot t) :=
  h.trans ⟨by simp, fun _ _ => freeRead_mirrored slot t⟩

theorem AtDisplay.reported (h : AtDisplay d s t) (r : DisplayReport) :
    AtDisplay d s (reportDisplay r t) := h.sent _

theorem AtDisplay.requested (h : AtDisplay d s t) (r : StreamRequest) :
    AtDisplay d s (requestStream r t) := h.sent _

theorem AtDisplay.raised (h : AtDisplay d s t) (who : Raiser) (cause : FaultCause) (source : FaultSource)
    (capture : List Byte) : AtDisplay d s (raise who cause source capture t) := h.sent _

/-! ## The Display Controller -/

theorem AtDisplay.composed (h : AtDisplay d s t) : AtDisplay d s (composeBoard d t) := by
  unfold composeBoard
  dsimp only
  split
  · exact (h.display _).panel _
  · exact (h.display _).panels _

theorem AtDisplay.boardStarted (h : AtDisplay d s t) : AtDisplay d s (startBoard d t) :=
  (h.display _).composed

theorem AtDisplay.slotStarted (h : AtDisplay d s t) : AtDisplay d s (startSlot d t) := by
  unfold startSlot
  dsimp only
  split
  · exact (h.display _).panel _
  · exact (h.display _).sent _
  · exact h.boardStarted
  · exact h.boardStarted

theorem AtDisplay.loopMoved (h : AtDisplay d s t) : AtDisplay d s (moveLoop d t) :=
  (h.display _).slotStarted

theorem AtDisplay.abandoned (h : AtDisplay d s t) : AtDisplay d s (abandonSegment d t) := by
  unfold abandonSegment
  dsimp only
  split
  · exact h.requested _
  · exact h

theorem AtDisplay.turnedOff (h : AtDisplay d s t) : AtDisplay d s (turnOff d t) :=
  ((h.display _).panel _).reported _

theorem AtDisplay.segmentEnded (h : AtDisplay d s t) : AtDisplay d s (endSegment d t) := by
  unfold endSegment
  split
  · exact h.loopMoved
  · exact h.turnedOff
  all_goals exact h

theorem AtDisplay.loopBegun (h : AtDisplay d s t) : AtDisplay d s (beginLoop d t) :=
  (h.display _).slotStarted.reported _

/-! ### Journal entries -/

theorem withDisplayIndex_mirrored (x : Flight) {act : DisplayIx → State → State} (s : State)
    (h : ∀ d, Mirrored noneOwed s (act d s)) : Mirrored noneOwed s (withDisplayIndex x act s) := by
  unfold withDisplayIndex
  split
  · exact finishOpen_mirrored _ s
  · exact h _

theorem finishDisplay_mirrored (d : DisplayIx) (s : State) : Mirrored D s (finishDisplay d s) :=
  finish_mirrored _ _ s

theorem setupDisplay_mirrored (b : SetupBody) (d : DisplayIx) (s : State) :
    Mirrored noneOwed s (setupDisplay b d s) := by
  have start := AtDisplay.refl d s
  unfold setupDisplay
  dsimp only
  split
  · exact finish_mirrored _ _ s
  · split
    · exact finish_mirrored _ _ s
    · split
      · exact ((start.display _).reported _).settled.trans (finishDisplay_mirrored d _)
      · exact (start.display _).settled.trans (finishDisplay_mirrored d _)

theorem enableDisplay_mirrored (d : DisplayIx) (s : State) : Mirrored noneOwed s (enableDisplay d s) := by
  unfold enableDisplay
  dsimp only
  split
  · exact (((AtDisplay.refl d s).display _).reported _).settled.trans (finishDisplay_mirrored d _)
  · exact finishDisplay_mirrored d s
  · exact finishDisplay_mirrored d s
  · exact finishDisplay_mirrored d s
  · exact finish_mirrored _ _ s

theorem AtDisplay.draining (h : AtDisplay d s t) : AtDisplay d s (beginDraining d t) :=
  ((h.display _).panel _).reported _

theorem disableDisplay_at (d : DisplayIx) (s : State) : AtDisplay d s (disableDisplay d s) := by
  have start := AtDisplay.refl d s
  unfold disableDisplay
  dsimp only
  split
  · exact start
  · exact start
  · exact start.turnedOff
  · exact start.turnedOff
  · split
    · exact start.turnedOff
    · split
      · exact start.abandoned.turnedOff
      · split
        · exact start.draining.requested _
        · exact start.draining

theorem execDisplaySetup_mirrored (s : State) :
    ∃ t, exec .displaySetup s = .next t ∧ Mirrored noneOwed s t :=
  ⟨_, rfl, takeEntry_mirrored _ _ s fun x => withDisplayIndex_mirrored x s fun d =>
    setupDisplay_mirrored _ d s⟩

theorem execDisplayEnable_mirrored (s : State) :
    ∃ t, exec .displayEnable s = .next t ∧ Mirrored noneOwed s t :=
  ⟨_, rfl, takeEntry_mirrored _ _ s fun x => withDisplayIndex_mirrored x s fun d =>
    enableDisplay_mirrored d s⟩

theorem execDisplayDisable_mirrored (s : State) :
    ∃ t, exec .displayDisable s = .next t ∧ Mirrored noneOwed s t :=
  ⟨_, rfl, takeEntry_mirrored _ _ s fun x => withDisplayIndex_mirrored x s fun d =>
    (disableDisplay_at d s).settled.trans (finishDisplay_mirrored d _)⟩

/-! ### Links, dwells, replies -/

theorem execLinkUp_mirrored (d : DisplayIx) (s : State) :
    ∃ t, exec (.linkUp d) s = .next t ∧ Mirrored noneOwed s t := by
  have raised := ((AtDisplay.refl d s).display fun r => { r with linkUp := true }).link PanelLink.kick
  refine ⟨_, rfl, AtDisplay.settled ?_⟩
  split
  · exact raised.loopBegun
  · exact raised.loopBegun
  all_goals exact raised

theorem execLinkDown_mirrored (d : DisplayIx) (s : State) :
    ∃ t, exec (.linkDown d) s = .next t ∧ Mirrored noneOwed s t := by
  have dropped := ((AtDisplay.refl d s).display fun r => { r with linkUp := false }).link PanelLink.drop
  refine ⟨_, rfl, AtDisplay.settled ?_⟩
  dsimp only
  split
  · exact (((dropped.abandoned).display _).raised _ _ _ _).reported _
  · exact ((dropped.abandoned).raised _ _ _ _).turnedOff
  all_goals exact dropped

theorem execDwellExpiry_mirrored (d : DisplayIx) (s : State) :
    ∃ t, exec (.dwellExpiry d) s = .next t ∧ Mirrored noneOwed s t := by
  refine ⟨_, rfl, ?_⟩
  split
  · exact ((AtDisplay.refl d s).display _).segmentEnded.settled
  · exact .refl _ s

theorem takeReply_mirrored (r : DecisionReply) (s : State) : Mirrored noneOwed s (takeReply r s) := by
  have start := AtDisplay.refl r.display s
  unfold takeReply
  dsimp only
  split
  · refine AtDisplay.settled ?_
    split
    · exact (start.display _).requested _
    · exact (start.display _).boardStarted
  · split
    · exact takenOff_mirrored _ s
    · exact .refl _ s

theorem execDecisionReply_mirrored (d : DisplayIx) (s : State) :
    ∃ t, exec (.decisionReply d) s = .next t ∧ Mirrored noneOwed s t := by
  refine ⟨_, rfl, ?_⟩
  split
  · exact (takenOff_mirrored _ s).trans (takeReply_mirrored _ _)
  · exact .refl _ s

theorem execEndReport_mirrored (s : State) :
    ∃ t, exec .endReport s = .next t ∧ Mirrored noneOwed s t := by
  refine ⟨_, rfl, ?_⟩
  split
  · exact .refl _ s
  · dsimp only
    split
    · exact (takenOff_mirrored _ s).trans (AtDisplay.refl _ _).segmentEnded.settled
    · exact takenOff_mirrored _ s

/-! ### Row updates -/

theorem updateRow_mirrored (x : ShowReport) (d : DisplayIx) (s : State) :
    Mirrored noneOwed s (updateRow x d s) := by
  have start := AtDisplay.refl d s
  unfold updateRow
  dsimp only
  split
  · split
    · exact .refl _ s
    · refine AtDisplay.settled (AtDisplay.panel ?_ _)
      split
      · exact start.display _
      · exact start
  · exact .refl _ s

/-- The count of drop reports that wait has no part in a display's record (R182). -/
theorem passDrop_mirrored (x : ShowReport) (d : DisplayIx) (s : State) :
    Mirrored D s (withDisplay d (DisplayRec.passDrop x) s) := by
  refine .of_displays rfl rfl rfl rfl rfl fun e => .inr ?_
  obtain ⟨left, same⟩ : ∃ left, (withDisplay d (DisplayRec.passDrop x) s).displays.recs[e] =
      { s.displays.recs[e] with renewed := left } := by
    by_cases own : e = d
    · have put : (withDisplay d (DisplayRec.passDrop x) s).displays.recs[e] =
          DisplayRec.passDrop x s.displays.recs[d] := by rw [own]; exact put_same _ _ _
      rw [put, own]
      unfold DisplayRec.passDrop
      split
      · exact ⟨_, rfl⟩
      · exact ⟨_, rfl⟩
    · exact ⟨_, put_other _ _ _ _ own⟩
  have arb : (withDisplay d (DisplayRec.passDrop x) s).arb = s.arb := rfl
  have stream : (withDisplay d (DisplayRec.passDrop x) s).stream = s.stream := rfl
  unfold displayMirror noticeRef
  dsimp only
  rw [same, arb, stream]
  rfl

theorem execShowChangedReport_mirrored (s : State) :
    ∃ t, exec .showChangedReport s = .next t ∧ Mirrored noneOwed s t := by
  refine ⟨_, rfl, ?_⟩
  split
  · exact .refl _ s
  · exact (takenOff_mirrored _ s).trans (Mirrored.foldl _ _ (fun s d _ =>
      (updateRow_mirrored _ d s).trans (passDrop_mirrored _ d _)) _)

/-! ### Takeovers and strips -/

theorem popSignal_mirrored (s : State) : Mirrored D s (popSignal s) := takenOff_mirrored _ s

theorem AtDisplay.takeoverBegun (h : AtDisplay d s t) : AtDisplay d s (beginTakeover d t) := by
  unfold beginTakeover
  dsimp only
  split
  · split
    · exact ((h.panel _).display _).requested _
    · exact (h.panel _).display _
  · exact h.panel _

theorem execTakeoverBegin_mirrored (s : State) :
    ∃ t, exec .takeoverBegin s = .next t ∧ Mirrored noneOwed s t := by
  refine ⟨_, rfl, ?_⟩
  split
  · refine (popSignal_mirrored s).trans (AtDisplay.settled ?_)
    split
    · exact ((AtDisplay.refl _ _).display _).takeoverBegun
    · exact (AtDisplay.refl _ _).display _
  · exact .refl _ s

theorem AtDisplay.takeoverEnded (h : AtDisplay d s t) : AtDisplay d s (endTakeover d t) := by
  unfold endTakeover
  dsimp only
  split
  · split
    · split
      · exact ((h.panel _).display _).requested _
      · exact (h.panel _).display _
    · exact (h.panel _).abandoned.loopMoved
  · exact h.panel _

theorem execTakeoverEnd_mirrored (s : State) :
    ∃ t, exec .takeoverEnd s = .next t ∧ Mirrored noneOwed s t := by
  refine ⟨_, rfl, ?_⟩
  split
  · refine (popSignal_mirrored s).trans (AtDisplay.settled ?_)
    split
    · exact ((AtDisplay.refl _ _).display _).takeoverEnded
    · exact (AtDisplay.refl _ _).display _
  · exact .refl _ s

theorem execStripReport_mirrored (s : State) :
    ∃ t, exec .stripReport s = .next t ∧ Mirrored noneOwed s t := by
  refine ⟨_, rfl, ?_⟩
  split
  · dsimp only
    split
    · exact (popSignal_mirrored s).trans ((AtDisplay.refl _ _).panel _).settled
    · exact popSignal_mirrored s
  · exact .refl _ s

end

end Sys2Proof.Machine

namespace Sys2Proof.Machine

section
variable {s t u : State} {D : MirrorId → Prop} {d : DisplayIx}

/-! ## The Stream Engine -/

theorem AtDisplay.streamEnded (h : AtDisplay d s t) (c : ReleaseCause) :
    AtDisplay d s (endStream d c t) := ((h.stream _).sent _).sent _

theorem AtDisplay.endedIfMarked (h : AtDisplay d s t) : AtDisplay d s (endIfMarked d t) := by
  unfold endIfMarked
  dsimp only
  split
  · exact h.streamEnded _
  · exact h

theorem AtDisplay.retested (h : AtDisplay d s t) : AtDisplay d s (retestAt d t) := h.stream _

theorem AtDisplay.streamStarted (h : AtDisplay d s t) (f : FeatureIx) (n low high : Nat) (held : Bool) :
    AtDisplay d s (startStream d f n low high held t) :=
  (h.stream _).retested.endedIfMarked

theorem AtDisplay.endMarked (h : AtDisplay d s t) : AtDisplay d s (markEnd d t) :=
  (h.stream _).endedIfMarked

theorem popRequest_mirrored (s : State) : Mirrored D s (popRequest s) := takenOff_mirrored _ s

/-- A stream record changed beside its phase and its count of underruns, which alone have a part in a
display's record (R145, R182). -/
theorem streamBeside_mirrored {f : StreamRec → StreamRec} (d : DisplayIx) (s : State)
    (h : ∀ r, (f r).phase = r.phase ∧ (f r).underrunCount = r.underrunCount) :
    Mirrored D s (withStream d f s) := by
  refine .of_displays rfl rfl rfl rfl rfl fun e => .inr (displayMirror_congr rfl rfl rfl rfl ?_ ?_ rfl rfl)
  all_goals
    by_cases own : e = d
    · have put : (withStream d f s).stream.recs[e] = f s.stream.recs[d] := by
        rw [own]
        exact put_same _ _ _
      obtain ⟨phase, count⟩ := h s.stream.recs[d]
      rw [put, own]
      assumption
    · exact congrArg _ (put_other _ _ _ _ own)

/-! ### Requests -/

theorem execStartRequest_mirrored (s : State) :
    ∃ t, exec .startRequest s = .next t ∧ Mirrored noneOwed s t := by
  refine ⟨_, rfl, ?_⟩
  split
  · refine (popRequest_mirrored s).trans (AtDisplay.settled ?_)
    split
    · exact ((AtDisplay.refl _ _).sent _).sent _
    · exact (AtDisplay.refl _ _).streamStarted _ _ _ _ _
  · exact .refl _ s

theorem execHoldRequest_mirrored (s : State) :
    ∃ t, exec .holdRequest s = .next t ∧ Mirrored noneOwed s t := by
  refine ⟨_, rfl, ?_⟩
  split
  · dsimp only
    split
    · exact (popRequest_mirrored s).trans (streamBeside_mirrored _ _ fun _ => ⟨rfl, rfl⟩)
    · exact popRequest_mirrored s
  · exact .refl _ s

theorem execResumeRequest_mirrored (s : State) :
    ∃ t, exec .resumeRequest s = .next t ∧ Mirrored noneOwed s t := by
  refine ⟨_, rfl, ?_⟩
  split
  · dsimp only
    split
    · exact (popRequest_mirrored s).trans ((AtDisplay.refl _ _).stream _).endedIfMarked.settled
    · exact popRequest_mirrored s
  · exact .refl _ s

theorem execEndRequest_mirrored (s : State) :
    ∃ t, exec .endRequest s = .next t ∧ Mirrored noneOwed s t := by
  refine ⟨_, rfl, ?_⟩
  split
  · dsimp only
    split
    · exact (popRequest_mirrored s).trans (AtDisplay.refl _ _).endMarked.settled
    · exact popRequest_mirrored s
  · exact .refl _ s

theorem AtDisplay.foldl_arb {g : State → DisplayIx → State} (l : List DisplayIx)
    (h : ∀ t, ∀ d, AtDisplay d t (g t d)) (s : State) : (l.foldl g s).arb = s.arb := by
  induction l generalizing s with
  | nil => rfl
  | cons d l ih => exact (ih _).trans (h s d).arb

theorem execDrainRequest_mirrored (s : State) :
    ∃ t, exec .drainRequest s = .next t ∧ Mirrored noneOwed s t := by
  refine ⟨_, rfl, ?_⟩
  split
  · rename_i f rest _
    dsimp only
    obtain ⟨v, hv⟩ : ∃ v, v = ({ s with bus := { s.bus with drainReqs := rest } } : State) := ⟨_, rfl⟩
    rw [← hv]
    have taken : Mirrored noneOwed s v := by rw [hv]; exact takenOff_mirrored _ s
    have marked (t : State) (d : DisplayIx) : AtDisplay d t (markEnd d t) := (AtDisplay.refl d t).endMarked
    have arb := AtDisplay.foldl_arb (streamers v f) marked v
    refine taken.trans (settleDisplays_mirrored (fun d _ => ?_) ?_)
    · unfold topRef noticeRef
      rw [arb]
    · exact Mirrored.foldl _ _ (fun t d _ => (marked t d).owed _ ⟨d, rfl⟩) v
  · exact .refl _ s

theorem execAbandonRequest_mirrored (s : State) :
    ∃ t, exec .abandonRequest s = .next t ∧ Mirrored noneOwed s t := by
  refine ⟨_, rfl, ?_⟩
  split
  · dsimp only
    split
    · exact (popRequest_mirrored s).trans (((AtDisplay.refl _ _).stream _).sent _).settled
    · exact popRequest_mirrored s
  · exact .refl _ s

/-! ### Bursts -/

theorem issueBurst_mirrored (d : DisplayIx) (b : Burst) (granted : Bool) (s : State) :
    Mirrored D s (issueBurst d b granted s) := by
  unfold issueBurst
  refine Mirrored.trans ?_ (issueRead_mirrored _ _)
  exact streamBeside_mirrored d s fun _ => ⟨rfl, rfl⟩

theorem AtDisplay.burstIssued (h : AtDisplay d s t) (b : Burst) (granted : Bool) :
    AtDisplay d s (issueBurst d b granted t) := (h.stream _).issued _

theorem lastGrant_mirrored (d : DisplayIx) (s : State) :
    Mirrored D s { s with stream := { s.stream with lastGrant := d } } :=
  .of_displays rfl rfl rfl rfl rfl fun _ => .inr rfl

theorem execFetchGrant_mirrored (s : State) :
    ∃ t, exec .fetchGrant s = .next t ∧ Mirrored noneOwed s t := by
  refine ⟨_, rfl, ?_⟩
  split
  · exact .refl _ s
  · split
    · exact .refl _ s
    · split
      · exact .refl _ s
      · exact (lastGrant_mirrored _ s).trans (issueBurst_mirrored _ _ _ _)

theorem AtDisplay.joined (h : AtDisplay d s t) (bytes : List Byte) :
    AtDisplay d s (joinBurst d bytes t) := by
  unfold joinBurst
  exact h.stream _

theorem execBurstDone_mirrored (slot : ReadSlot) (bytes : List Byte) (s : State) :
    ∃ t, exec (.burstDone slot bytes) s = answer (.burstDone slot bytes) t ∧
      Mirrored noneOwed s t := by
  refine ⟨_, rfl, ?_⟩
  split
  · rename_i d _ _ _ _ _
    have freed := (AtDisplay.refl d s).freed slot
    split
    · exact .refl _ s
    · dsimp only
      split
      · refine AtDisplay.settled ?_
        split
        · exact freed.streamEnded _
        · exact freed.joined bytes
      · exact freeRead_mirrored slot s
  · exact .refl _ s

theorem AtDisplay.burstFailed (h : AtDisplay d s t) (b : Burst) :
    AtDisplay d s (Machine.burstFailed d b t) := by
  unfold Machine.burstFailed
  dsimp only
  split
  · exact h.streamEnded _
  · split
    · split
      · exact h.burstIssued _ _
      · exact h.stream _
    · exact (h.raised _ _ _ _).streamEnded _

theorem execBurstFailed_mirrored (slot : ReadSlot) (s : State) :
    ∃ t, exec (.burstFailed slot) s = .next t ∧ Mirrored noneOwed s t := by
  refine ⟨_, rfl, ?_⟩
  split
  · rename_i d _ _ _ _ _
    have freed := (AtDisplay.refl d s).freed slot
    dsimp only
    split
    · split
      · exact (freed.burstFailed _).settled
      · exact freeRead_mirrored slot s
    · exact freeRead_mirrored slot s
  · exact .refl _ s

theorem execBurstRetryExpiry_mirrored (d : DisplayIx) (s : State) :
    ∃ t, exec (.burstRetryExpiry d) s = .next t ∧ Mirrored noneOwed s t := by
  refine ⟨_, rfl, ?_⟩
  split
  · split
    · exact issueBurst_mirrored d _ _ s
    · exact .refl _ s
  · exact .refl _ s

/-! ### The millisecond and the sends -/

theorem grow_summary (rate : Nat) (r : StreamRec) :
    (grow rate r).phase = r.phase ∧ (grow rate r).underrunCount = r.underrunCount := by
  unfold grow
  dsimp only
  split
  · split
    · exact ⟨rfl, rfl⟩
    · exact ⟨rfl, rfl⟩
  · exact ⟨rfl, rfl⟩

/-- A millisecond changes no field of a mirror record (log entry 4). -/
theorem execPacingMillisecond_mirrored (s : State) :
    ∃ t, exec .pacingMillisecond s = .next t ∧ Mirrored noneOwed s t := by
  obtain ⟨t, ht⟩ : ∃ t : State, t = { s with
      win := msWindow s.win
      desks := { s.desks with pauseTimer := countDown s.desks.pauseTimer }
      air := { s.air with features := s.air.features.map msFeature }
      stream := { s.stream with
        lfsr := lfsrStep s.stream.lfsr
        recs := s.stream.recs.map fun r => msStream s.air.features[r.feature].byteRate r } } := ⟨_, rfl⟩
  have ran : exec .pacingMillisecond s = .next t := by rw [ht]; rfl
  have win : t.win = msWindow s.win := by rw [ht]
  have shows : t.shows = s.shows := by rw [ht]
  have arb : t.arb = s.arb := by rw [ht]
  have displays : t.displays = s.displays := by rw [ht]
  have faults : t.faults = s.faults := by rw [ht]
  have links : t.stream.links = s.stream.links := by rw [ht]
  have feature (f : FeatureIx) : featureMirror t.air.features[f] = featureMirror s.air.features[f] := by
    have counted : t.air.features[f] = msFeature s.air.features[f] := by
      rw [ht]
      exact Vector.getElem_map _ _
    rw [counted]
    rfl
  have stream (d : DisplayIx) : t.stream.recs[d].phase = s.stream.recs[d].phase ∧
      t.stream.recs[d].underrunCount = s.stream.recs[d].underrunCount := by
    have paced : ∃ rate, t.stream.recs[d] = msStream rate s.stream.recs[d] := by
      rw [ht]
      exact ⟨_, Vector.getElem_map _ _⟩
    obtain ⟨rate, paced⟩ := paced
    rw [paced]
    exact grow_summary rate _
  refine ⟨t, ran, .of (by rw [win]; rfl) (by rw [win]; rfl) (by rw [win]; rfl) (by rw [win]; rfl)
    (fun _ _ _ => by rw [win]; rfl) fun id => .inr ?_⟩
  cases id with
  | feature f => exact feature f
  | display d =>
    obtain ⟨phase, count⟩ := stream d
    refine displayMirror_congr (by rw [displays]) (by rw [arb]) (by rw [arb]) (by rw [arb]) phase count
      (by rw [links]) ?_
    unfold topRef noticeRef
    rw [arb]
  | fault sev => cases sev <;> simp only [mirrorBody, faults]
  | _ => simp only [mirrorBody, shows, arb]

theorem execSend_mirrored (d : DisplayIx) (s : State) :
    ∃ t, exec (.send d) s = .next t ∧ Mirrored noneOwed s t := by
  have start := AtDisplay.refl d s
  refine ⟨_, rfl, ?_⟩
  split
  · refine AtDisplay.settled ?_
    split
    · exact ((start.stream _).clip _).raised _ _ _ _
    · unfold sendBytes
      dsimp only
      split
      · exact ((start.clip _).stream _).streamEnded _
      · exact ((start.clip _).stream _).retested
  · exact .refl _ s

theorem execUnderrunLimit_mirrored (d : DisplayIx) (s : State) :
    ∃ t, exec (.underrunLimit d) s = .next t ∧ Mirrored noneOwed s t := by
  refine ⟨_, rfl, ?_⟩
  split
  · exact (((AtDisplay.refl d s).raised _ _ _ _).streamEnded _).settled
  · exact .refl _ s

/-- A transmitter's frame has no part in a display's record: its count of dropped frames alone has (R145,
R182). -/
theorem linkBeside_mirrored {f : PanelLink → PanelLink} (d : DisplayIx) (s : State)
    (h : ∀ l, (f l).dropped = l.dropped) : Mirrored D s (withLink d f s) := by
  refine .of_displays rfl rfl rfl rfl rfl fun e =>
    .inr (displayMirror_congr rfl rfl rfl rfl rfl rfl ?_ rfl)
  by_cases own : e = d
  · have put : (withLink d f s).stream.links[e] = f s.stream.links[d] := by
      rw [own]
      exact put_same _ _ _
    rw [put, own, h]
  · exact congrArg _ (put_other _ _ _ _ own)

theorem kick_dropped (l : PanelLink) : l.kick.dropped = l.dropped := by
  unfold PanelLink.kick
  split <;> rfl

theorem execPanelTxDone_mirrored (d : DisplayIx) (s : State) :
    ∃ t, exec (.panelTxDone d) s = .next t ∧ Mirrored noneOwed s t :=
  ⟨_, rfl, linkBeside_mirrored d s fun _ => kick_dropped _⟩

/-! ## Fault records -/

theorem faultsReplaced_owes (sev : Severity) (r : SeverityRec) (s : State) :
    Mirrored (fun j => j = .fault sev) s { s with faults := s.faults.replaced sev r } := by
  refine .of_win rfl fun id => ?_
  cases id with
  | fault x =>
    by_cases own : x = sev
    · exact .inl (own ▸ rfl)
    · refine .inr ?_
      cases x <;> cases sev
      · exact absurd rfl own
      · rfl
      · rfl
      · exact absurd rfl own
  | _ => exact .inr rfl

theorem signal_mirrored (sev : Severity) (s : State) : Mirrored D s (signal sev s) :=
  .of rfl rfl rfl rfl (fun _ _ _ => .rfl) fun id => .inr (mirrorBody_win s _ id)

theorem takeRaise_mirrored (x : Raise) (s : State) : Mirrored noneOwed s (takeRaise x s) := by
  unfold takeRaise
  dsimp only
  split
  · exact .refl _ s
  · split
    · exact (faultsReplaced_owes _ _ s).handOne
    · exact (faultsReplaced_owes _ _ s).handOne.trans (signal_mirrored _ _)

theorem execFaultRaise_mirrored (block : Raiser) (s : State) :
    ∃ t, exec (.faultRaise block) s = .next t ∧ Mirrored noneOwed s t := by
  refine ⟨_, rfl, ?_⟩
  split
  · exact (takenOff_mirrored _ s).trans (takeRaise_mirrored _ _)
  · exact .refl _ s

theorem clearFaults_mirrored (sev : Severity) (s : State) : Mirrored noneOwed s (clearFaults sev s) := by
  unfold clearFaults
  dsimp only
  split
  · exact finish_mirrored _ _ s
  · exact (faultsReplaced_owes _ _ s).handOne.trans (finish_mirrored _ _ _)

theorem execFaultClear_mirrored (s : State) :
    ∃ t, exec .faultClear s = .next t ∧ Mirrored noneOwed s t := by
  refine ⟨_, rfl, takeEntry_mirrored _ _ s fun f => ?_⟩
  split
  · exact clearFaults_mirrored _ s
  · exact clearFaults_mirrored _ s
  · exact finish_mirrored _ _ s

end

end Sys2Proof.Machine

namespace Sys2Proof.Machine

section
variable {s t u : State} {D : MirrorId → Prop}

/-! ## Settings events -/

theorem rebandShow_mirrored (old : ShowSettings) (i : ShowIx) (s : State) :
    Mirrored noneOwed s (rebandShow old i s) := by
  unfold rebandShow
  dsimp only
  split
  · exact (recompute_mirrored (D := showOwed i) i _ noCapture s rfl).commitOne _ rfl
  · exact .refl _ s

theorem adoptShows_mirrored (c : ShowSettings) (s : State) : Mirrored noneOwed s (adoptShows c s) := by
  have set : Mirrored noneOwed s { s with shows := { s.shows with cfg := c } } :=
    .of_shows rfl rfl rfl rfl rfl rfl (fun _ => .inr rfl) fun _ => .inr rfl
  exact set.trans (Mirrored.foldl _ _ (fun t i _ => rebandShow_mirrored s.shows.cfg i t) _)

theorem adoptDesks_mirrored (c : DeskSettings) (s : State) : Mirrored D s (adoptDesks c s) := by
  apply Mirrored.blocks <;> simp

theorem noticesSet_gens (c : Settings) (s : State) : GensStay s (noticesSet c s) := fun _ _ _ => rfl

theorem adopt_mirrored (o : Owner) (c : Settings) (s : State) : Mirrored noneOwed s (adopt o c s) := by
  cases o with
  | showTable => exact adoptShows_mirrored c.shows s
  | noticeArbiter =>
    rw [adopt_notices]
    exact noticeEvent_clean none (noticesSet c) s ⟨rfl, rfl, rfl, rfl⟩ (noticesSet_gens c s)
  | airtimeScheduler => exact airBeside_mirrored s rfl
  | displayController => exact .of_displays rfl rfl rfl rfl rfl fun _ => .inr rfl
  | streamEngine => exact .of_displays rfl rfl rfl rfl rfl fun _ => .inr rfl
  | deskLine => exact adoptDesks_mirrored c.desks s
  | faultUnit =>
    refine .of_win rfl fun id => .inr ?_
    cases id with
    | fault sev => cases sev <;> rfl
    | _ => rfl

theorem settleConfigure_mirrored (o : Owner) (s : State) : Mirrored D s (settleConfigure o s) := by
  unfold settleConfigure
  split
  · exact .refl _ s
  · split
    · dsimp only
      split
      · exact (setFlight_mirrored _ s.win.cfg s.win.settingsQ s).trans (finish_mirrored _ _ _)
      · exact setFlight_mirrored _ s.win.cfg s.win.settingsQ s
    · exact .refl _ s

theorem execSettingsEvent_mirrored (owner : Owner) (s : State) :
    ∃ t, exec (.settingsEvent owner) s = .next t ∧ Mirrored noneOwed s t := by
  refine ⟨_, rfl, ?_⟩
  split
  · exact ((setFlight_mirrored s.win.flight s.win.cfg _ s).trans (adopt_mirrored owner _ _)).trans
      (settleConfigure_mirrored owner _)
  · exact .refl _ s

/-! ## Every command -/

/-- A record whose bytes a command changes stands on the write path with its new bytes, its version one more
where no write of it was queued (R166, R167). -/
def PlacesWhatChanges (c : Instr) (s : State) : Prop :=
  ∀ t id, s.win.windowValid = true → exec c s = .next t → t.win.windowValid = true →
    mirrorBody t id ≠ mirrorBody s id →
    RecordPlaced id t ∧ t.win.versions[id.index] = nextVersion id s

/-- A command that answers a state reached with nothing owed. -/
theorem placesWhatChanges_next {c : Instr} (h : ∃ t, exec c s = .next t ∧ Mirrored noneOwed s t) :
    PlacesWhatChanges c s := by
  obtain ⟨u, ran, mirrored⟩ := h
  intro t id valid ran' _ changed
  rw [ran] at ran'
  obtain rfl := Host.Outcome.next.inj ran'
  exact Mirrored.placed mirrored valid changed

/-- A command that is refused where it is ill formed. -/
theorem placesWhatChanges_answer {c : Instr} (h : ∃ t, exec c s = answer c t ∧ Mirrored noneOwed s t) :
    PlacesWhatChanges c s := by
  obtain ⟨u, ran, mirrored⟩ := h
  intro t id valid ran' _ changed
  obtain rfl := answer_eq_next (ran ▸ ran')
  exact Mirrored.placed mirrored valid changed

/-- The parts that the mirror records are made of (R182). -/
def mirroredParts : List Part := [.shows, .arb, .air, .displays, .stream, .faults]

/-- A command that changes none of the parts that the records are made of changes no record. -/
theorem placesWhatChanges_parts {c : Instr} (h : ∀ p ∈ mirroredParts, p ∉ mayChange c) :
    PlacesWhatChanges c s := by
  intro t id _ ran _ changed
  have kept (p : Part) (hp : p ∈ mirroredParts) : agreeOn s t p :=
    commandsKeepToTheirParts c s t p ran (h p hp)
  refine absurd (mirrorBody_congr id ?_ ?_ ?_ ?_ ?_ ?_) changed
  · exact (kept .shows (by decide) : s.shows = t.shows).symm
  · exact (kept .arb (by decide) : s.arb = t.arb).symm
  · exact (kept .air (by decide) : s.air = t.air).symm
  · exact (kept .displays (by decide) : s.displays = t.displays).symm
  · exact (kept .stream (by decide) : s.stream = t.stream).symm
  · exact (kept .faults (by decide) : s.faults = t.faults).symm

theorem powerOnReset_placesWhatChanges (links : BitVec 16) (s : State) :
    PlacesWhatChanges (.powerOnReset links) s := by
  intro t id _ ran valid _
  have none' : t.win.windowValid = false := by
    obtain rfl := Host.Outcome.next.inj ran
    rfl
  rw [none'] at valid
  exact absurd valid Bool.false_ne_true

theorem lobbyReset_placesWhatChanges (w : BitVec 32) (s : State) :
    PlacesWhatChanges (.lobbyReset w) s := by
  intro t id valid ran _ changed
  have reset : controlLobbyReset w = true := by
    by_contra not
    have illFormed : (Instr.lobbyReset w).wellFormed = false := by simpa [Instr.wellFormed] using not
    rw [exec, execLobbyReset, answer, illFormed] at ran
    simp at ran
  rw [exec_lobbyReset reset] at ran
  obtain rfl := Host.Outcome.next.inj ran
  obtain ⟨records, -⟩ := lobbyReset_writes (s := setAlerts w s) valid
  refine records id fun sev fault => changed ?_
  obtain ⟨q, v, links, same, -⟩ := lobbyReset_only (setAlerts w s)
  have faults : (lobbyReset (setAlerts w s)).faults = s.faults := by rw [same]; rfl
  rw [fault]
  cases sev <;> simp only [mirrorBody, faults]

theorem commands_placeWhatChanges (c : Instr) (s : State) : PlacesWhatChanges c s := by
  cases c with
  | powerOnReset links => exact powerOnReset_placesWhatChanges links s
  | lobbyReset w => exact lobbyReset_placesWhatChanges w s
  | settingsEvent owner => exact placesWhatChanges_next (execSettingsEvent_mirrored owner s)
  | clockSet =>
    exact placesWhatChanges_next ⟨_, rfl, takeEntry_mirrored _ _ s fun f => takeClockSet_mirrored _ f s⟩
  | tick => exact placesWhatChanges_next (execTick_mirrored s)
  | catchUp => exact placesWhatChanges_next (execCatchUp_mirrored s)
  | showLoad =>
    exact placesWhatChanges_next ⟨_, rfl, takeEntry_mirrored _ _ s fun f => showLoad_mirrored _ s⟩
  | showAmend =>
    exact placesWhatChanges_next ⟨_, rfl, takeEntry_mirrored _ _ s fun f => showAmend_mirrored _ _ s⟩
  | showHalt =>
    exact placesWhatChanges_next ⟨_, rfl, takeEntry_mirrored _ _ s fun f =>
      withShow_mirrored f s fun i => haltShow_mirrored i s⟩
  | showResume =>
    exact placesWhatChanges_next ⟨_, rfl, takeEntry_mirrored _ _ s fun f =>
      withShow_mirrored f s fun i => resumeShow_mirrored i s⟩
  | showCancel =>
    exact placesWhatChanges_next ⟨_, rfl, takeEntry_mirrored _ _ s fun f =>
      withShow_mirrored f s fun i => cancelShow_mirrored i s⟩
  | showDrop =>
    exact placesWhatChanges_next ⟨_, rfl, takeEntry_mirrored _ _ s fun f =>
      withShow_mirrored f s fun i => dropShow_mirrored i s⟩
  | sale =>
    exact placesWhatChanges_next ⟨_, rfl, takeEntry_mirrored _ _ s fun f => takeSale_mirrored _ _ s⟩
  | refund =>
    exact placesWhatChanges_next ⟨_, rfl, takeEntry_mirrored _ _ s fun f => takeRefund_mirrored _ _ _ s⟩
  | block =>
    exact placesWhatChanges_next ⟨_, rfl, takeEntry_mirrored _ _ s fun f => takeBlock_mirrored _ _ _ s⟩
  | hold => exact placesWhatChanges_next ⟨_, rfl, takeRequest_mirrored _ _ s takeHold_mirrored⟩
  | extend => exact placesWhatChanges_next ⟨_, rfl, takeRequest_mirrored _ _ s takeExtend_mirrored⟩
  | release => exact placesWhatChanges_next ⟨_, rfl, takeRequest_mirrored _ _ s takeRelease_mirrored⟩
  | holdExpiry => exact placesWhatChanges_next (execHoldExpiry_mirrored s)
  | noticePost =>
    exact placesWhatChanges_next ⟨_, rfl, takeEntry_mirrored _ _ s fun f => takePost_mirrored f s⟩
  | deskNoticePost =>
    exact placesWhatChanges_next ⟨_, rfl, takeRequest_mirrored _ _ s takeDeskPost_mirrored⟩
  | autoNoticeRequest => exact placesWhatChanges_next (execAutoNoticeRequest_mirrored s)
  | noticeClear =>
    exact placesWhatChanges_next ⟨_, rfl, takeEntry_mirrored _ _ s fun f => takeClear_mirrored _ s⟩
  | deskNoticeClear =>
    exact placesWhatChanges_next ⟨_, rfl, takeRequest_mirrored _ _ s takeDeskClear_mirrored⟩
  | clearRequest => exact placesWhatChanges_next (execClearRequest_mirrored s)
  | closureReport => exact placesWhatChanges_next (execClosureReport_mirrored s)
  | noticeExpiry => exact placesWhatChanges_next (execNoticeExpiry_mirrored s)
  | enabledReport => exact placesWhatChanges_next (execEnabledReport_mirrored s)
  | linkUpReport => exact placesWhatChanges_next (execLinkUpReport_mirrored s)
  | linkLostReport => exact placesWhatChanges_next (execLinkLostReport_mirrored s)
  | drainingReport => exact placesWhatChanges_next (execDrainingReport_mirrored s)
  | offReport => exact placesWhatChanges_next (execOffReport_mirrored s)
  | floorReport => exact placesWhatChanges_next (execFloorReport_mirrored s)
  | coverTimerExpiry d => exact placesWhatChanges_next (execCoverTimerExpiry_mirrored d s)
  | featureLoad => exact placesWhatChanges_next (execFeatureLoad_mirrored s)
  | featureWeight => exact placesWhatChanges_next (execFeatureWeight_mirrored s)
  | featureDrop => exact placesWhatChanges_next (execFeatureDrop_mirrored s)
  | airtimeReset => exact placesWhatChanges_next (execAirtimeReset_mirrored s)
  | headerReadDone slot bytes => exact placesWhatChanges_answer (execHeaderReadDone_mirrored slot bytes s)
  | chunkListPieceDone slot bytes =>
    exact placesWhatChanges_answer (execChunkListPieceDone_mirrored slot bytes s)
  | validationReadFailed slot => exact placesWhatChanges_next (execValidationReadFailed_mirrored slot s)
  | validationRetryExpiry f => exact placesWhatChanges_next (execValidationRetryExpiry_mirrored f s)
  | decision d => exact placesWhatChanges_next (execDecision_mirrored d s)
  | releaseReport sender => exact placesWhatChanges_next (execReleaseReport_mirrored sender s)
  | displaySetup => exact placesWhatChanges_next (execDisplaySetup_mirrored s)
  | displayEnable => exact placesWhatChanges_next (execDisplayEnable_mirrored s)
  | displayDisable => exact placesWhatChanges_next (execDisplayDisable_mirrored s)
  | linkUp d => exact placesWhatChanges_next (execLinkUp_mirrored d s)
  | linkDown d => exact placesWhatChanges_next (execLinkDown_mirrored d s)
  | dwellExpiry d => exact placesWhatChanges_next (execDwellExpiry_mirrored d s)
  | decisionReply d => exact placesWhatChanges_next (execDecisionReply_mirrored d s)
  | endReport => exact placesWhatChanges_next (execEndReport_mirrored s)
  | showChangedReport => exact placesWhatChanges_next (execShowChangedReport_mirrored s)
  | takeoverBegin => exact placesWhatChanges_next (execTakeoverBegin_mirrored s)
  | takeoverEnd => exact placesWhatChanges_next (execTakeoverEnd_mirrored s)
  | stripReport => exact placesWhatChanges_next (execStripReport_mirrored s)
  | startRequest => exact placesWhatChanges_next (execStartRequest_mirrored s)
  | holdRequest => exact placesWhatChanges_next (execHoldRequest_mirrored s)
  | resumeRequest => exact placesWhatChanges_next (execResumeRequest_mirrored s)
  | endRequest => exact placesWhatChanges_next (execEndRequest_mirrored s)
  | drainRequest => exact placesWhatChanges_next (execDrainRequest_mirrored s)
  | abandonRequest => exact placesWhatChanges_next (execAbandonRequest_mirrored s)
  | fetchGrant => exact placesWhatChanges_next (execFetchGrant_mirrored s)
  | burstDone slot bytes => exact placesWhatChanges_answer (execBurstDone_mirrored slot bytes s)
  | burstFailed slot => exact placesWhatChanges_next (execBurstFailed_mirrored slot s)
  | burstRetryExpiry d => exact placesWhatChanges_next (execBurstRetryExpiry_mirrored d s)
  | pacingMillisecond => exact placesWhatChanges_next (execPacingMillisecond_mirrored s)
  | send d => exact placesWhatChanges_next (execSend_mirrored d s)
  | underrunLimit d => exact placesWhatChanges_next (execUnderrunLimit_mirrored d s)
  | panelTxDone d => exact placesWhatChanges_next (execPanelTxDone_mirrored d s)
  | faultRaise block => exact placesWhatChanges_next (execFaultRaise_mirrored block s)
  | faultClear => exact placesWhatChanges_next (execFaultClear_mirrored s)
  | _ => exact placesWhatChanges_parts (by simp [mirroredParts, mayChange])

end

end Sys2Proof.Machine

namespace Sys2Proof.Machine

section
variable {s : State}

/-! ## The write path -/

/-- A record handed (R166, R167). -/
theorem handMirror_writes (id : MirrorId) (valid : s.win.windowValid = true) :
    let a := s.win.windowBase.toNat + s.win.geometry.mirrorOffset + id.offset
    let carried := if s.win.writeQ.any (·.target == .mirror id) = true then s.win.versions[id.index]
      else (s.win.versions[id.index] + 1) % 65536
    ∃ q, handMirror id s = { s with
        win := { s.win with writeQ := q, versions := put s.win.versions id.index carried } } ∧
      (mirrorBody s id).length + 2 = id.size ∧
      PlacedIn ⟨.mirror id, [(a, mirrorBody s id), (a + id.size - 2, leBytes 2 carried)], false⟩
        s.win.writeQ q := by
  intro a carried
  have same : nextVersion id s = carried := nextVersion_eq id s
  obtain ⟨q, handed, placed⟩ := handMirror_places id valid
  rw [same] at handed placed
  exact ⟨q, handed, mirrorBody_length s id, placed⟩

/-- A word of the anchor sent changes the write queue alone. -/
theorem afterSent_anchor {w : WindowWrite} {rest : List WindowWrite} {x : AnchorWord}
    (h : w.target = .anchor x) :
    (afterSent w (headSent w rest s)).win = { s.win with writeQ := rest } := by
  unfold afterSent
  rw [h]
  rfl

theorem afterSent_mirror {w : WindowWrite} {id : MirrorId} (h : w.target = .mirror id) (v : State) :
    afterSent w v = mirrorSent v := by
  unfold afterSent
  rw [h]

theorem afterSent_outcome {w : WindowWrite} (h : w.target = .outcome) (v : State) :
    afterSent w v = outcomeSent v := by
  unfold afterSent
  rw [h]

/-- Settles O24, by what each command owes the mirror writer, the handing of one record, and the head of the
write queue by its target. -/
theorem sentWritesReachHostMemory : Obligations.SentWritesReachHostMemory := by
  unfold Obligations.SentWritesReachHostMemory
  refine ⟨fun c s t id valid ran valid' => commands_placeWhatChanges c s t id valid ran valid',
    fun s id => ⟨handMirror_invalid id, fun valid => ?_⟩, fun s r c changed valid => ?_,
    fun s w rest queue => ⟨_, exec_windowWriteSent queue, ?_, fun a outside => ?_, fun p k parts inside => ?_,
      fun id target => ?_, fun x target => afterSent_anchor target, fun f target flight => ?_⟩⟩
  · have handed := handMirror_writes id valid
    cases id with
    | fault sev => cases sev <;> exact handed
    | _ => exact handed
  · have echo := setRunState_echo changed c valid
    cases r <;> exact echo
  · exact afterSent_hostMem w _
  · rw [afterSent_hostMem]
    exact Memory.read_writeParts_outside _ _ _ outside
  · rw [afterSent_hostMem]
    unfold headSent
    dsimp only
    rw [parts]
    exact writeParts_single _ p inside
  · rw [afterSent_mirror target]
    exact mirrorSent_effect _
  · rw [afterSent_outcome target]
    exact outcomeSent_effect (s := headSent w rest s) flight

end

end Sys2Proof.Machine
